-- ==== Sys2Proof/Word.lean ====
section
/-! DEFINITION. Words, bytes, sparse maps and the plainest bit-field reading (R3: bit 0 is the least significant, byte order little-endian). -/

namespace Sys2Proof

/-- A byte of memory. -/
abbrev Byte := BitVec 8
/-- One instruction word, and one element of a tile (R61, R95). -/
abbrev W32 := BitVec 32
/-- A control-core register, a system register, a packet field (R172, R283). -/
abbrev W64 := BitVec 64

/-- A finite map from natural numbers: pairs with strictly rising keys. A key that is not listed has no entry. -/
abbrev Map (α : Type) := List (Nat × α)

namespace Map

/-- The entry at `k`, if one is listed. -/
def get? {α : Type} : Map α → Nat → Option α
  | [], _ => none
  | (j, v) :: m, k => if j = k then some v else get? m k

/-- The entry at `k`, or `d` where none is listed. -/
def getD {α : Type} (m : Map α) (k : Nat) (d : α) : α := (get? m k).getD d

/-- `m` with the entry `v` at `k`, in the place its key gives it. -/
def set {α : Type} : Map α → Nat → α → Map α
  | [], k, v => [(k, v)]
  | (j, w) :: m, k, v =>
    if k < j then (k, v) :: (j, w) :: m
    else if k = j then (k, v) :: m
    else (j, w) :: set m k v

/-- `m` without an entry at `k`. -/
def erase {α : Type} (m : Map α) (k : Nat) : Map α := m.filter fun p => p.1 ≠ k

/-- `m` with the entry at `k`, if there is one, passed through `f`. -/
def modify {α : Type} (m : Map α) (k : Nat) (f : α → α) : Map α :=
  m.map fun p => if p.1 = k then (p.1, f p.2) else p

/-- The keys that have an entry, rising. -/
def keys {α : Type} (m : Map α) : List Nat := m.map (·.1)

/-- The keys rise strictly. -/
abbrev Ordered {α : Type} (m : Map α) : Prop := m.Pairwise fun p q => p.1 < q.1

end Map

/-- Bits hi:lo of a 64-bit value as a number (R3). -/
def bits (v : W64) (hi lo : Nat) : Nat := (v.toNat >>> lo) % 2 ^ (hi + 1 - lo)

/-- The little-endian bytes of a number, `n` of them (R3). -/
def toBytes : Nat → Nat → List Byte
  | 0, _ => []
  | n + 1, v => BitVec.ofNat 8 v :: toBytes n (v / 256)

/-- The number that little-endian bytes hold (R3). -/
def ofBytes : List Byte → Nat
  | [] => 0
  | b :: bs => b.toNat + 256 * ofBytes bs

/-- `v` sign-extended from its own width to 64 bits (R172). -/
def sext64 {w : Nat} (v : BitVec w) : W64 := v.signExtend 64

/-- `v` zero-extended to 64 bits (R172). -/
def zext64 {w : Nat} (v : BitVec w) : W64 := v.setWidth 64

/-- 1 for true and 0 for false, as a 64-bit register value. -/
def flag64 (b : Bool) : W64 := if b then 1 else 0

/-- The smallest multiple of `m` at or below `a`. -/
def alignDown (a m : Nat) : Nat := a - a % m

end Sys2Proof
end

