-- ==== Sys2Proof/Config.lean ====
section
/-! DEFINITION. What the manual leaves open: uninterpreted values. Nothing in Lean can evaluate them, so a statement holds whatever they are (log entry 2). -/

namespace Sys2Proof.Config

/-- An unspecified choice among finitely many (an order of additions, one of the results within 1 ulp):
R100, R110, R220, R225. It is applied to the free-value counter of the state, or to the operands where the
manual says that the same operands always give the same result (R100). -/
opaque choice : Nat → Nat

/-- An unspecified 32-bit value: the candidate sum of an MMA element, kept within the bound of R108 where it is used. -/
opaque word : Nat → BitVec 32

/-- SHAKE256 over a page or an item, with 32 or 64 bytes of output (R55, R351, R378). The manual names the
function and not its algorithm (log entry 8). -/
opaque shake256 : (outBytes : Nat) → List (BitVec 8) → List (BitVec 8)

/-- Whether an image's Ed448 signature verifies against the fused key (R377), the algorithm being named only (log entry 8). -/
opaque signatureValid : List (BitVec 8) → Bool

/-- The signature over a measurement reply (R378; log entry 8). -/
opaque sign : List (BitVec 8) → List (BitVec 8)

/-- Byte `i` that a peer's reply to the request numbered `k` lacks (R366). -/
opaque peerByte : (k i : Nat) → BitVec 8

/-- Byte `i` of the save area written by the switch numbered `k`, where the manual names a block's contents and not their places
(R346-R348). -/
opaque saveByte : (k i : Nat) → BitVec 8

end Sys2Proof.Config
end

