-- ==== Sys2Proof/Syntax.lean ====
section
/-! DEFINITION. The syntax: one constructor for every row of spec/opcode_table.json. Decoded instructions carry the
fields of their encoding (R59-R65); an event carries which agent or object it happens to. -/

namespace Sys2Proof

/-- The number of a control-core register X0-X31 (R59, R66). -/
abbrev R5 := BitVec 5

/-- The memory word of a CM instruction and of a lane memory form: offset, scope, space and hint (R61, R63). -/
structure MemW where
  off   : BitVec 24
  scope : BitVec 3
  space : BitVec 2
  hint  : BitVec 3
  deriving DecidableEq, Repr

/-- The fields of words 0 and 1 of a lane-group instruction other than its op (R61). -/
structure LaneW where
  vd    : BitVec 6
  va    : BitVec 6
  vb    : BitVec 6
  vc    : BitVec 6
  guard : BitVec 4
  neg   : BitVec 1
  tokEn : BitVec 1
  tok   : BitVec 3
  await : BitVec 8
  stage : BitVec 3
  ty    : BitVec 4
  rnd   : BitVec 2
  sat   : BitVec 1
  kind  : BitVec 2
  op3   : BitVec 3
  deriving DecidableEq, Repr

/-- The format a float opcode fixes: 0x20 + n, 0x30 + n, 0x40 + n (R80, R210). -/
inductive FFmt where
  | f32 | f16 | bf16
  deriving DecidableEq, Repr

/-- The fields of a matrix-sequencer instruction other than its op (R64). -/
structure MatW where
  acc   : BitVec 5
  ra    : BitVec 3
  rb    : BitVec 3
  fmt   : BitVec 3
  bar   : BitVec 5
  barEn : BitVec 1
  flags : BitVec 4
  tile  : BitVec 6
  grp   : BitVec 4
  sel   : BitVec 2
  res   : BitVec 4
  imm   : BitVec 16
  deriving DecidableEq, Repr

/-- The fields of words 0 and 1 of a copy command other than its op (R65). -/
structure CopyW where
  tag   : BitVec 8
  bar   : BitVec 5
  barEn : BitVec 1
  scope : BitVec 3
  hint  : BitVec 3
  res   : BitVec 4
  off   : BitVec 32
  deriving DecidableEq, Repr

/-- A team: its hand (HC8, R57) and its residency slot (R285). -/
structure TeamRef where
  hand : Nat
  slot : Nat
  deriving DecidableEq, Repr

/-- A control thread: its team and its role (R22). -/
structure ThreadRef where
  hand : Nat
  slot : Nat
  role : Nat
  deriving DecidableEq, Repr

/-- A group: its team, its role and its index within the role (R23). -/
structure GroupRef where
  hand : Nat
  slot : Nat
  role : Nat
  idx  : Nat
  deriving DecidableEq, Repr

/-- An agent that a step can serve. -/
inductive Agent where
  | device
  | thread (t : ThreadRef)
  | group (g : GroupRef)
  | stream (t : TeamRef)
  /-- the copy command or chain with number `n` in the near (`bulk = false`) or bulk queue of hand `h` -/
  | copy (h : Nat) (bulk : Bool) (n : Nat)
  deriving DecidableEq, Repr

/-- Who writes a queue's write-index register (R303, R358): the host through a function's BAR0, or an agent of the device. -/
inductive IndexWriter where
  | host (fn : Nat)
  | agent (a : Agent)
  deriving DecidableEq, Repr

/-- A write of a write-index register: the writer and the value. -/
structure IndexWrite where
  who  : IndexWriter
  data : W64
  deriving DecidableEq, Repr

/-- Why a yielding thread resumes (R199). -/
inductive YieldWhy where
  | phase | limit | round
  deriving DecidableEq, Repr

/-- The answer to a PCIe PRI page request (R350). -/
inductive PriResp where
  | success | invalid | failure
  deriving DecidableEq, Repr

/-- Where an uncorrectable error strikes (R142, R144). -/
inductive MemPlace where
  | device (pa : Nat)
  /-- a caching place's copy of the line of a physical address (R142) -/
  | cached (place pa : Nat)
  | scratch (hand offset : Nat)
  | imem (hand engine ctx img line : Nat)
  deriving DecidableEq, Repr

/-- What a domain request asks (R366, R367). -/
inductive DomainOp where
  | load (len : Nat)
  | store (data : List Byte)
  /-- a copy's store of bytes of which some are poisoned (R142, R144) -/
  | marked (data : List Byte) (bad : List Bool)
  | atomic (fn ty : Nat) (operand compare : W64)
  deriving DecidableEq, Repr

/-- A request that arrives from a device of the Weave domain (R366). -/
structure DomainReq where
  src  : Nat
  addr : Nat
  op   : DomainOp
  deriving DecidableEq, Repr

/-- What a flit carries (R366, R367): a request, the reply to request `id` of its destination with its code and data, or a link's
call for the flits of its port from its sequence number on. -/
inductive FlitBody where
  | request (id : Nat) (q : DomainReq)
  | reply (id code : Nat) (data : List Byte)
  | replay
  deriving DecidableEq, Repr

/-- A Weave flit as its receiver sees it (R367). -/
structure Flit where
  port  : Nat
  src   : Nat
  dst   : Nat
  lane  : Nat
  seq   : Nat
  crcOk : Bool
  body  : FlitBody
  deriving DecidableEq, Repr

/-- What the Collar sets as a Weave domain forms (R365, R367, R368): the device's number, the routing table (device and port), and
the domain timeout in fclk, which the PF chooses. -/
structure DomainSetup where
  dev     : Nat
  routes  : List (Nat × Nat)
  timeout : Nat
  deriving DecidableEq, Repr

/-- A port that fails, and the ports that the Collar's new routing table gives devices reached over it (R367). -/
structure PortLoss where
  port    : Nat
  reroute : List (Nat × Nat)
  deriving DecidableEq, Repr

/-- A device that becomes reachable again, and the port of its route (R367). -/
structure PeerRoute where
  dev  : Nat
  port : Nat
  deriving DecidableEq, Repr

/-- A die whose UCIe links have trained, with the lanes found bad on each of its links (R375). -/
structure Training where
  die   : Nat
  lanes : List (Nat × Nat)
  deriving DecidableEq, Repr

/-- A vector of a function (R363). -/
structure MsixVec where
  fn  : Nat
  vec : Nat
  deriving DecidableEq, Repr

/-- Where an error is corrected (R142): a stack of HBM4E, an L1, a cluster cache, an L2 slice, a scratchpad. -/
inductive ErrLevel where
  | hbm (stack : Nat)
  | l1
  | cluster
  | l2
  | scratch
  deriving DecidableEq, Repr

/-- An entry of the export table (R366). -/
structure ExportEntry where
  base   : Nat
  len    : Nat
  local_ : Nat
  pasid  : Nat
  r      : Bool
  w      : Bool
  a      : Bool
  source : Option Nat
  deriving DecidableEq, Repr

/-- A firmware image of a component: its bytes and its 32-bit security version (R377, R381). -/
structure FwImage where
  data    : List Byte
  version : BitVec 32
  deriving DecidableEq, Repr

/-- The instructions of every engine, and the operations and events of the device: the rows of
spec/opcode_table.json in its order. -/
inductive Instr where
  /-- NOP (R76): Control-core no-operation; any nonzero bit below the major is reserved-field. -/
  | nop
  /-- ADD (R174): X[d] := X[a] + X[b] modulo 2^64. -/
  | add (d : R5) (a : R5) (b : R5)
  /-- SUB (R174): X[d] := X[a] - X[b] modulo 2^64. -/
  | sub (d : R5) (a : R5) (b : R5)
  /-- MUL (R174): X[d] := bits 63:0 of the product. -/
  | mul (d : R5) (a : R5) (b : R5)
  /-- MULH (R174): X[d] := bits 127:64 of the signed product. -/
  | mulh (d : R5) (a : R5) (b : R5)
  /-- MULHN (R174): X[d] := bits 127:64 of the unsigned product. -/
  | mulhn (d : R5) (a : R5) (b : R5)
  /-- DIV (R175): Signed division rounded toward zero, never faulting. -/
  | div (d : R5) (a : R5) (b : R5)
  /-- DIVN (R175): Unsigned division, never faulting. -/
  | divn (d : R5) (a : R5) (b : R5)
  /-- REM (R175): Signed remainder with the sign of a. -/
  | rem (d : R5) (a : R5) (b : R5)
  /-- REMN (R175): Unsigned remainder. -/
  | remn (d : R5) (a : R5) (b : R5)
  /-- AND (R174): Bitwise AND of two registers. -/
  | and (d : R5) (a : R5) (b : R5)
  /-- OR (R174): Bitwise OR of two registers. -/
  | or (d : R5) (a : R5) (b : R5)
  /-- XOR (R174): Bitwise XOR of two registers. -/
  | xor (d : R5) (a : R5) (b : R5)
  /-- SHL (R174): Shift left by b bits 5:0. -/
  | shl (d : R5) (a : R5) (b : R5)
  /-- SHR (R174): Logical shift right by b bits 5:0. -/
  | shr (d : R5) (a : R5) (b : R5)
  /-- SRA (R174): Arithmetic shift right by b bits 5:0. -/
  | sra (d : R5) (a : R5) (b : R5)
  /-- MIN (R174): Signed minimum. -/
  | min (d : R5) (a : R5) (b : R5)
  /-- MAX (R174): Signed maximum. -/
  | max (d : R5) (a : R5) (b : R5)
  /-- MINN (R174): Unsigned minimum. -/
  | minn (d : R5) (a : R5) (b : R5)
  /-- MAXN (R174): Unsigned maximum. -/
  | maxn (d : R5) (a : R5) (b : R5)
  /-- SEQ (R174): X[d] := 1 if a = b, else 0. -/
  | seq (d : R5) (a : R5) (b : R5)
  /-- SNE (R174): X[d] := 1 if a differs from b, else 0. -/
  | sne (d : R5) (a : R5) (b : R5)
  /-- SLT (R174): Signed less-than test. -/
  | slt (d : R5) (a : R5) (b : R5)
  /-- SLTN (R174): Unsigned less-than test. -/
  | sltn (d : R5) (a : R5) (b : R5)
  /-- CLZ (R174): Count of leading zero bits of X[a]. -/
  | clz (d : R5) (a : R5)
  /-- POPC (R174): Count of one bits of X[a]. -/
  | popc (d : R5) (a : R5)
  /-- BREV (R86): Retired bit reversal, given its effect by the emulation library. -/
  | brev (d : R5) (a : R5) (b : R5)
  /-- SEL (R177): X[d] := X[c] nonzero ? X[a] : X[b]. -/
  | sel (d : R5) (a : R5) (b : R5) (c : R5)
  /-- DEAL (R184): Checks a deal from four registers, stalls while the queue is full, and enqueues it with the next sequence number as a .HD release. -/
  | deal (d : R5) (a : R5)
  /-- DSET (R185): Sets the pending persistent deal operand Dn of a group. -/
  | dset (n : R5) (a : R5) (b : R5)
  /-- SPOP (R186): Removes and returns the head show of a group, blocking while the queue is empty. -/
  | spop (d : R5) (a : R5) (c : R5)
  /-- SPEEK (R186): Copies the head show without removing it, or reports empty. -/
  | speek (d : R5) (a : R5) (c : R5)
  /-- SGRP (R183): Sets up a group with units from its role's pool, or writes 0 when units are lacking. -/
  | sgrp (d : R5) (a : R5) (b : R5)
  /-- CANCEL (R40): Marks or stops matching cancellable deals of selected groups and counts them. -/
  | cancel (d : R5) (a : R5) (b : R5)
  /-- QSTAT (R188): Reports the state and occupancy of a group's queues. -/
  | qstat (d : R5) (a : R5)
  /-- SPAWN (R194): Halves the team's weight and sends a launch request for a child team. -/
  | spawn (d : R5) (a : R5) (b : R5)
  /-- EXIT (R195): Ends the issuing thread at retirement, releasing its locks. -/
  | exit
  /-- DQPUSH (R196): Pushes a 32-byte record onto the bottom of the hand's deque. -/
  | dqpush (d : R5) (a : R5)
  /-- DQPOP (R196): Pops the bottommost record of the issuer's context from the deque. -/
  | dqpop (d : R5) (b : R5)
  /-- STEAL (R196): Takes the top record of the issuer's context from a victim hand's deque. -/
  | steal (d : R5) (a : R5) (b : R5)
  /-- YIELD (R199): Gives up decode slots until a barrier phase change, a limit or a round of other threads. -/
  | yield (d : R5) (a : R5) (b : R5)
  /-- MXGO (R190): Starts the team's matrix stream unless it is already running. -/
  | mxgo (d : R5) (a : R5)
  /-- CPY (R191): Issues one copy command or starts a copy chain. -/
  | cpy (a : R5) (m : R5)
  /-- CPCAN (R280): Cancels the team's queued or running copies whose tags match. -/
  | cpcan (d : R5) (a : R5)
  /-- GIVE (R26): Moves a count of free tile units to another role's pool, all or nothing. -/
  | give (d : R5) (a : R5) (b : R5)
  /-- CLAIM (R26): Takes up to a count of free tile units from another role's pool. -/
  | claim (d : R5) (a : R5) (b : R5)
  /-- BRK (R289): Raises the precise event BREAK for the debugger. -/
  | brk
  /-- ERET (R298): Returns from an emulation handler without writing, so the faulting entry reissues. -/
  | eret
  /-- EMRET (R297): Returns from an emulation handler, merging windows and popping rings as X[a] selects. -/
  | emret (a : R5)
  /-- CKPT (R290): Takes a checkpoint of the whole context when an undo log is given. -/
  | ckpt (d : R5)
  /-- HALT (R289): Privileged: ends the whole context with status HALT. -/
  | halt
  /-- SETSEG (R291): Privileged: writes a segment register of the thread or of a group. -/
  | setseg (t : BitVec 1) (g : BitVec 2) (a : R5) (b : R5)
  /-- LKBIND (R257): Privileged: binds global ranges to scratchpad offsets for a hardware lock. -/
  | lkbind (d : R5) (a : R5) (b : R5)
  /-- MFS (R283): Reads a system register into X[d]. -/
  | mfs (d : R5) (r : BitVec 16)
  /-- MTS (R283): Writes a system register that has no row of its own. -/
  | mts (a : R5) (r : BitVec 16)
  /-- TRAP (R288): Raises the precise fault TRAP carrying imm16. -/
  | trap (i : BitVec 16)
  /-- FENCE (R234): Fence of kind ACQ, REL, AR, SC or RACQ at a scope; an FPX delivery instruction. -/
  | fence (k : R5) (a : R5) (sc : BitVec 3)
  /-- BARI (R245): Control-core barrier initialise: sets expected arrivals and clears arrivals and pending. -/
  | bari (n : R5) (a : R5) (sc : BitVec 3)
  /-- BARA (R245): Control-core barrier arrival with pending bytes, a release at its scope. -/
  | bara (n : R5) (a : R5) (sc : BitVec 3)
  /-- BARW (R245): Control-core barrier wait for a phase change, an acquire at its scope. -/
  | barw (n : R5) (sc : BitVec 3)
  /-- LKACQ (R255): Joins a hardware lock's queue, or tries it, receiving a hold number at grant. -/
  | lkacq (d : R5) (a : R5)
  /-- LKREL (R256): Writes back the bound ranges and releases the lock to the next request. -/
  | lkrel (a : R5)
  /-- CELLQ (R252): Reads a suspended-cell sector's tag and failure cause at its home. -/
  | cellq (d : R5) (a : R5)
  /-- ADDI (R176): Adds a sign-extended 16-bit immediate. -/
  | addi (d : R5) (a : R5) (imm : BitVec 16)
  /-- ANDI (R176): ANDs a zero-extended 16-bit immediate. -/
  | andi (d : R5) (a : R5) (imm : BitVec 16)
  /-- ORI (R176): ORs a zero-extended 16-bit immediate. -/
  | ori (d : R5) (a : R5) (imm : BitVec 16)
  /-- XORI (R176): XORs a zero-extended 16-bit immediate. -/
  | xori (d : R5) (a : R5) (imm : BitVec 16)
  /-- SLTI (R176): Signed less-than test against a sign-extended immediate. -/
  | slti (d : R5) (a : R5) (imm : BitVec 16)
  /-- SHLI (R176): Shift left by an immediate count. -/
  | shli (d : R5) (a : R5) (sh : BitVec 6)
  /-- SHRI (R176): Logical shift right by an immediate count. -/
  | shri (d : R5) (a : R5) (sh : BitVec 6)
  /-- SRAI (R176): Arithmetic shift right by an immediate count. -/
  | srai (d : R5) (a : R5) (sh : BitVec 6)
  /-- BFX (R177): Extracts a bit field, sign- or zero-extended. -/
  | bfx (d : R5) (a : R5) (x : BitVec 1) (wd : BitVec 6) (p : BitVec 6)
  /-- BFI (R177): Inserts the low bits of X[a] into a field of X[d]. -/
  | bfi (d : R5) (a : R5) (wd : BitVec 6) (p : BitVec 6)
  /-- JALR (R180): Jumps to X[a] + imm and links next into X[d]. -/
  | jalr (d : R5) (a : R5) (imm : BitVec 16)
  /-- JR (R180): Deprecated jump to X[a] + imm, executed then counted. -/
  | jr (a : R5) (imm : BitVec 16)
  /-- JTAB (R181): Branches through a table of code addresses in constant space. -/
  | jtab (t : R5) (i : R5) (n : BitVec 16)
  /-- BZ (R179): Branches when X[a] is zero. -/
  | bz (a : R5) (p : BitVec 12) (sl : BitVec 4)
  /-- BNZ (R179): Branches when X[a] is nonzero. -/
  | bnz (a : R5) (p : BitVec 12) (sl : BitVec 4)
  /-- BEQ (R179): Branches when X[a] equals X[b]. -/
  | beq (a : R5) (b : R5) (p : BitVec 12) (sl : BitVec 4)
  /-- BNE (R179): Branches when X[a] differs from X[b]. -/
  | bne (a : R5) (b : R5) (p : BitVec 12) (sl : BitVec 4)
  /-- BLT (R179): Branches on signed less-than. -/
  | blt (a : R5) (b : R5) (p : BitVec 12) (sl : BitVec 4)
  /-- BGE (R179): Branches on signed greater-or-equal. -/
  | bge (a : R5) (b : R5) (p : BitVec 12) (sl : BitVec 4)
  /-- BLTN (R179): Branches on unsigned less-than. -/
  | bltn (a : R5) (b : R5) (p : BitVec 12) (sl : BitVec 4)
  /-- BGEN (R179): Branches on unsigned greater-or-equal. -/
  | bgen (a : R5) (b : R5) (p : BitVec 12) (sl : BitVec 4)
  /-- J (R180): Jumps to a line displacement and slot. -/
  | j (p : BitVec 22) (sl : BitVec 4)
  /-- JAL (R180): Jumps and links next into X[d]. -/
  | jal (d : R5) (p : BitVec 17) (sl : BitVec 4)
  /-- LOOPZ (R86): Retired decrement-and-branch, given its effect by the emulation library. -/
  | loopz (a : R5) (b : R5) (p : BitVec 12) (sl : BitVec 4)
  /-- LI (R178): Loads a sign-extended 48-bit immediate. -/
  | li (d : R5) (imm : BitVec 48)
  /-- ADDPC (R178): Writes pc plus a 48-bit immediate. -/
  | addpc (d : R5) (imm : BitVec 48)
  /-- LD (R228): Loads a value of width w into X[d], extended by type. -/
  | ld (d : R5) (a : R5) (ty : BitVec 4) (m : MemW)
  /-- ST (R228): Stores the low w bits of X[b]. -/
  | st (a : R5) (b : R5) (ty : BitVec 4) (m : MemW)
  /-- LDA (R228): Acquire load at its scope. -/
  | lda (d : R5) (a : R5) (ty : BitVec 4) (m : MemW)
  /-- STL (R228): Release store at its scope. -/
  | stl (a : R5) (b : R5) (ty : BitVec 4) (m : MemW)
  /-- AMO (R229): Relaxed atomic read-modify-write at the place its scope names. -/
  | amo (fn : BitVec 4) (ty : BitVec 4) (d : R5) (a : R5) (b : R5) (m : MemW)
  /-- PFX (R230): Prefetches a line towards the hand; never faults. -/
  | pfx (a : R5) (m : MemW)
  /-- SUSP (R247): Installs a suspension in a VAL or FAIL sector at its home. -/
  | susp (d : R5) (a : R5) (b : R5) (m : MemW)
  /-- RSLV (R251): Writes a sector's value, sets VAL and wakes every waiter. -/
  | rslv (d : R5) (a : R5) (b : R5) (m : MemW)
  /-- LANE_NOP (R61): Lane no-operation taking n issue positions. -/
  | laneNop (n : BitVec 6)
  /-- VADD (R207): Integer add per sub-element, wrapping or saturating. -/
  | vadd (f : LaneW)
  /-- VSUB (R207): Integer subtract per sub-element. -/
  | vsub (f : LaneW)
  /-- VMUL (R207): Integer multiply per sub-element. -/
  | vmul (f : LaneW)
  /-- VMULH (R207): High half of the integer product. -/
  | vmulh (f : LaneW)
  /-- VMAD (R207): Integer multiply-add per sub-element. -/
  | vmad (f : LaneW)
  /-- VAND (R207): Bitwise AND of tiles. -/
  | vand (f : LaneW)
  /-- VOR (R207): Bitwise OR of tiles. -/
  | vor (f : LaneW)
  /-- VXOR (R207): Bitwise XOR of tiles. -/
  | vxor (f : LaneW)
  /-- VSHL (R207): Shift left per sub-element. -/
  | vshl (f : LaneW)
  /-- VSHR (R207): Logical shift right per sub-element. -/
  | vshr (f : LaneW)
  /-- VSRA (R207): Arithmetic shift right per sub-element. -/
  | vsra (f : LaneW)
  /-- VMIN (R207): Integer minimum in the type's signedness. -/
  | vmin (f : LaneW)
  /-- VMAX (R207): Integer maximum in the type's signedness. -/
  | vmax (f : LaneW)
  /-- VABS (R207): Integer absolute value. -/
  | vabs (f : LaneW)
  /-- VNEG (R207): Integer negation. -/
  | vneg (f : LaneW)
  /-- VCLZ (R207): Leading-zero count per sub-element. -/
  | vclz (f : LaneW)
  /-- VPOPC (R207): Population count per sub-element. -/
  | vpopc (f : LaneW)
  /-- VSEL (R208): Selects a or b per element by a mask. -/
  | vsel (f : LaneW)
  /-- VMOV (R208): Copies the flexible operand into active elements. -/
  | vmov (f : LaneW)
  /-- VIOTA (R208): Writes the column, row or linear index plus a source. -/
  | viota (f : LaneW)
  /-- VCMP (R209): Integer comparison writing a mask. -/
  | vcmp (f : LaneW)
  /-- VLI (R208): Writes a 32-bit immediate into active elements. -/
  | vli (f : LaneW) (imm : BitVec 32)
  /-- VAVG (R86): Retired rounded average, given its effect by the library. -/
  | vavg (f : LaneW)
  /-- VSAD (R86): Retired sum of absolute difference, given its effect by the library. -/
  | vsad (f : LaneW)
  /-- FADD (R211): Floating-point add, correctly rounded. -/
  | fadd (fm : FFmt) (f : LaneW)
  /-- FSUB (R211): Floating-point subtract. -/
  | fsub (fm : FFmt) (f : LaneW)
  /-- FMUL (R211): Floating-point multiply. -/
  | fmul (fm : FFmt) (f : LaneW)
  /-- FFMA (R211): Fused multiply-add with one rounding. -/
  | ffma (fm : FFmt) (f : LaneW)
  /-- FMIN (R98): Floating-point minimum. -/
  | fmin (fm : FFmt) (f : LaneW)
  /-- FMAX (R98): Floating-point maximum. -/
  | fmax (fm : FFmt) (f : LaneW)
  /-- FABS (R211): Clears the sign bit. -/
  | fabs (fm : FFmt) (f : LaneW)
  /-- FNEG (R211): Inverts the sign bit. -/
  | fneg (fm : FFmt) (f : LaneW)
  /-- FRCP (R100): Reciprocal. -/
  | frcp (fm : FFmt) (f : LaneW)
  /-- FRSQ (R100): Reciprocal square root. -/
  | frsq (fm : FFmt) (f : LaneW)
  /-- FEXP2 (R100): Power of two; the F16 form is deprecated. -/
  | fexp2 (fm : FFmt) (f : LaneW)
  /-- FLOG2 (R100): Base-2 logarithm; the F16 form is deprecated. -/
  | flog2 (fm : FFmt) (f : LaneW)
  /-- FCMP (R212): Floating-point comparison writing a mask. -/
  | fcmp (fm : FFmt) (f : LaneW)
  /-- FRCPA_F32 (R86): Retired approximate reciprocal, given the FRCP RNE result by the library. -/
  | frcpa (f : LaneW)
  /-- VCVT (R213): Converts between types by part. -/
  | vcvt (f : LaneW)
  /-- VHIST (R215): Accumulates a headroom histogram into row 0. -/
  | vhist (f : LaneW)
  /-- VQNT (R216): Quantises FP32 blocks with block scales into a narrow format. -/
  | vqnt (f : LaneW)
  /-- VDQ (R217): Dequantises scaled blocks to FP32. -/
  | vdq (f : LaneW)
  /-- RROT (R219): Rotates along the row axis. -/
  | rrot (f : LaneW)
  /-- CROT (R219): Rotates along the column axis. -/
  | crot (f : LaneW)
  /-- RBC (R219): Broadcasts one column across each row. -/
  | rbc (f : LaneW)
  /-- CBC (R219): Broadcasts one row down each column. -/
  | cbc (f : LaneW)
  /-- RRED (R220): Reduces each row over its active elements. -/
  | rred (f : LaneW)
  /-- CRED (R220): Reduces each column over its active elements. -/
  | cred (f : LaneW)
  /-- RPRM (R219): Permutes within rows by an index tile. -/
  | rprm (f : LaneW)
  /-- TRN16 (R219): Transposes 16 x 16 blocks. -/
  | trn16 (f : LaneW)
  /-- VSHUF (R86): Retired row shuffle, given its effect by the library. -/
  | vshuf (f : LaneW)
  /-- MAND (R221): Mask AND. -/
  | mand (f : LaneW)
  /-- MOR (R221): Mask OR. -/
  | mor (f : LaneW)
  /-- MXOR (R221): Mask XOR. -/
  | mxor (f : LaneW)
  /-- MNOT (R221): Mask NOT. -/
  | mnot (f : LaneW)
  /-- MCNT (R221): Counts the one bits of each mask row into a tile. -/
  | mcnt (f : LaneW)
  /-- MROW (R221): Broadcasts one mask row. -/
  | mrow (f : LaneW)
  /-- SHOW (R222): Assembles a PRED show at its position and sends it when the show queue has room. -/
  | show (f : LaneW)
  /-- SHOWX (R222): Assembles an INDEX show with per-lane indices. -/
  | showx (f : LaneW)
  /-- VFENCE (R235): Group fence of kind ACQ, REL, AR or SC; an FPX delivery instruction. -/
  | vfence (f : LaneW)
  /-- LANE_BARI (R243): Group barrier initialise. -/
  | laneBari (f : LaneW)
  /-- LANE_BARA (R243): Group barrier arrival with pending bytes. -/
  | laneBara (f : LaneW)
  /-- LANE_BARW (R243): Group barrier wait for a phase change. -/
  | laneBarw (f : LaneW)
  /-- PLK (R237): Looks up tag-table keys, returning slots or 0xFFFF. -/
  | plk (f : LaneW)
  /-- PTAG (R238): Installs, evicts or changes the dirty bit of tag-table entries. -/
  | ptag (f : LaneW)
  /-- PINV (R239): Invalidates matching tag-table entries or the team's whole share. -/
  | pinv (f : LaneW)
  /-- VLD (R231): Token load of one value per active element. -/
  | vld (f : LaneW) (m : MemW)
  /-- VST (R231): Store of one value per active element. -/
  | vst (f : LaneW) (m : MemW)
  /-- VLDT (R232): Token load of whole rows from per-row bases. -/
  | vldt (f : LaneW) (m : MemW)
  /-- VSTT (R232): Store of whole rows to per-row bases. -/
  | vstt (f : LaneW) (m : MemW)
  /-- VATOM (R233): One atomic per active element, returning old values. -/
  | vatom (f : LaneW) (m : MemW)
  /-- VCAS (R233): Compare-and-swap per active element. -/
  | vcas (f : LaneW) (m : MemW)
  /-- PLD (R236): Token load from the data of a tag-table slot. -/
  | pld (f : LaneW) (m : MemW)
  /-- PST (R236): Store into the data of a tag-table slot. -/
  | pst (f : LaneW) (m : MemW)
  /-- VLDB (R86): Retired byte broadcast load, given its effect by the library. -/
  | vldb (f : LaneW) (m : MemW)
  /-- MATRIX_NOP (R76): Matrix-sequencer no-operation. -/
  | matrixNop
  /-- MMA (R266): Waits on ring occupancy and accumulates one matrix product into an accumulator. -/
  | mma (w : MatW)
  /-- MMAS (R269): Sparse product of a panel and a gathered slot. -/
  | mmas (w : MatW)
  /-- MMAT (R86): Retired transposed-A MMA, given its effect by the library. -/
  | mmat (w : MatW)
  /-- MZERO (R270): Zeroes an accumulator. -/
  | mzero (w : MatW)
  /-- MLDC (R270): Loads an accumulator image from scratchpad. -/
  | mldc (w : MatW)
  /-- MSTC (R271): Stores an accumulator to scratchpad, converted or raw. -/
  | mstc (w : MatW)
  /-- RINIT (R261): Reads a ring record and resets the ring descriptor. -/
  | rinit (w : MatW)
  /-- TADV (R262): Advances a ring's tail as a .HD release. -/
  | tadv (w : MatW)
  /-- HADV (R262): Waits for occupancy and advances a ring's head. -/
  | hadv (w : MatW)
  /-- GATH (R267): Checks the ring and hands a gather to the gather unit. -/
  | gath (w : MatW)
  /-- MATRIX_BARA (R244): Stream barrier arrival with pending bytes in 64-byte units. -/
  | matrixBara (w : MatW)
  /-- MATRIX_BARW (R244): Stream barrier wait. -/
  | matrixBarw (w : MatW)
  /-- MEND (R272): Ends the stream once earlier instructions and GATHs are done. -/
  | mend (w : MatW)
  /-- COPY_NOP (R76): Copy-chain no-operation. -/
  | copyNop
  /-- CP_G2P (R275): Copies global or constant rows into scratchpad. -/
  | cpG2p (w : CopyW)
  /-- CP_P2G (R275): Copies scratchpad rows into global memory. -/
  | cpP2g (w : CopyW)
  /-- CP_G2G (R275): Bulk copy between global addresses or domain pointers. -/
  | cpG2g (w : CopyW)
  /-- CP_P2P (R275): Copies between scratchpad addresses. -/
  | cpP2p (w : CopyW)
  /-- CP_FILL (R275): Fills a destination with a 4-byte pattern. -/
  | cpFill (w : CopyW) (imm : BitVec 32)
  /-- CP_ROWS (R275): Copies indexed rows into scratchpad. -/
  | cpRows (w : CopyW) (imm : BitVec 32)
  /-- CP_TORING (R277): Waits for room and writes a ring's tail slot, advancing the tail at completion. -/
  | cpToring (w : CopyW) (imm : BitVec 32)
  /-- CP_REDUCE (R275): Adds source elements atomically into destination elements. -/
  | cpReduce (w : CopyW) (imm : BitVec 32)
  /-- CP_G2L (R86): Retired global-to-private copy, given its effect by the library. -/
  | cpG2l (w : CopyW)
  /-- DEAL_START (R32): The lane group starts the head deal of a group, loading D0, D1 and M0 and checking the block descriptor. -/
  | dealStart (g : GroupRef)
  /-- ITERATION_START (R33): At the end of a block body the stage vector shifts and the next iteration begins or the deal ends. -/
  | iterationStart (g : GroupRef)
  /-- DEAL_RETIRE (R35): A deal retires after its shows have entered the queue, releasing at .HD. -/
  | dealRetire (g : GroupRef)
  /-- RESULT_VISIBLE (R36): A fixed-latency result becomes visible at its producer's position plus L/4 and raises its flags. -/
  | resultVisible (g : GroupRef)
  /-- TOKEN_COMPLETE (R226): A token operation completes and its token count falls. -/
  | tokenComplete (g : GroupRef) (n : Nat)
  /-- DEFERRED_FAULT (R227): A data fault found at the home freezes the group at the awaiting instruction or the deal's end. -/
  | deferredFault (g : GroupRef)
  /-- SHOW_ENQUEUE (R223): A show enters its show queue once the group's earlier writes have performed. -/
  | showEnqueue (g : GroupRef) (n : Nat)
  /-- GROUP_SWAP (R42): The lane group exchanges an active and a pending group, including after a swap threshold expires. -/
  | groupSwap (g : GroupRef) (into : GroupRef)
  /-- DEAL_STALL_RESUME (R29): A DEAL stalled on a full deal queue enqueues when room frees. -/
  | dealStallResume (t : ThreadRef)
  /-- SPOP_RESUME (R39): A blocked SPOP completes when a show arrives. -/
  | spopResume (t : ThreadRef)
  /-- BARW_WAKE (R245): A waiting BARW completes when its barrier's phase changes. -/
  | barwWake (ag : Agent)
  /-- YIELD_RESUME (R199): A yielding thread resumes on a phase change, a round of other threads or the limit's expiry. -/
  | yieldResume (t : ThreadRef) (why : YieldWhy)
  /-- LOCK_GRANT (R168): A queued LKACQ is granted after the previous write-back, with the push of bound ranges. -/
  | lockGrant (lk : Nat)
  /-- HADV_RESUME (R262): A waiting HADV advances the head once occupancy suffices. -/
  | hadvResume (tm : TeamRef)
  /-- MMA_RETIRE (R266): An MMA retires, pops its ring heads and raises its flags. -/
  | mmaRetire (tm : TeamRef)
  /-- GATHER_EXECUTE (R267): The gather unit waits for room and writes one gathered slot, advancing the tail. -/
  | gatherExecute (h : Nat)
  /-- COPY_START (R274): A queued copy command or chain command issues on its engine. -/
  | copyStart (h : Nat) (bulk : Bool)
  /-- COPY_COMPLETE (R162): A copy's writes have performed at its scope; it releases and decrements its barrier. -/
  | copyComplete (h : Nat) (bulk : Bool) (n : Nat)
  /-- COPY_FAULT_STOP (R278): A copy meets a fault and stops, its chain issuing nothing further. -/
  | copyFaultStop (h : Nat) (bulk : Bool) (n : Nat)
  /-- EMULATION_ENTRY (R293): A control thread enters the emulation handler for a cause, saving its frame and setting windows. -/
  | emulationEntry (t : ThreadRef)
  /-- TEAM_END (R195): After the last thread exits, the team drains deals and copies, writes back, returns weight and frees its resources. -/
  | teamEnd (tm : TeamRef)
  /-- EVALUATOR_START (R249): The evaluation bin places and starts an evaluator team for a sector. -/
  | evaluatorStart (die : Nat)
  /-- EVALUATOR_CELL_FAULT (R250): An evaluator meeting a cell fault ends its team and sets its sector FAIL with cause 1. -/
  | evaluatorCellFault (tm : TeamRef)
  /-- OWNERSHIP_TRANSFER (R139): A write waiting for write ownership of a sub-page or granule is granted it. -/
  | ownershipTransfer (ag : Nat) (pa : Nat)
  /-- PRI_RESPONSE (R350): A page request response arrives; the parked fetch or access is replayed or faults. -/
  | priResponse (c : Nat) (n : Nat) (resp : PriResp)
  /-- ATS_INVALIDATION (R137): A host ATS invalidation drops host translations. -/
  | atsInvalidation (pasid : Nat) (va : Nat) (len : Nat)
  /-- PAGE_LOAD (R351): The overlay loader reads and verifies an image page before delivering its lines. -/
  | pageLoad (h : Nat) (c : Nat) (img : Nat) (page : Nat)
  /-- UNCORRECTABLE_ERROR (R142): An uncorrectable error marks its 64-byte unit poisoned. -/
  | uncorrectableError (wh : MemPlace)
  /-- PREEMPT (R45): A thread or group is pre-empted at a boundary, draining a deal if so flagged. -/
  | preempt (ag : Agent)
  /-- TIME_SLICE_EXPIRY (R320): A team's time slice expires while another team of its tenant waits for its hand. -/
  | timeSliceExpiry (tm : TeamRef)
  /-- FATAL_REMOVAL (R355): A class F fault removes the context in the fatal-removal order. -/
  | fatalRemoval (c : Nat)
  /-- ROLLBACK (R354): A class F fault with a valid checkpoint rolls the context back from its undo log. -/
  | rollback (c : Nat)
  /-- TTCFG_WRITE (R125): MTS to TTCFG sets the line size and data base and invalidates the team's entries. -/
  | ttcfgWrite (a : R5)
  /-- TTOP_LOOKUP (R240): MTS to TTOP operation 0 looks up a key into TTRES. -/
  | ttopLookup (a : R5)
  /-- TTOP_INS (R240): MTS to TTOP operation 1 installs a clean entry. -/
  | ttopIns (a : R5)
  /-- TTOP_INSD (R240): MTS to TTOP operation 2 installs a dirty entry. -/
  | ttopInsd (a : R5)
  /-- TTOP_EVC (R240): MTS to TTOP operation 3 invalidates a way. -/
  | ttopEvc (a : R5)
  /-- TTOP_SETD (R240): MTS to TTOP operation 4 sets an entry's dirty bit. -/
  | ttopSetd (a : R5)
  /-- TTOP_CLRD (R240): MTS to TTOP operation 5 clears an entry's dirty bit. -/
  | ttopClrd (a : R5)
  /-- TTOP_INVALIDATE (R240): MTS to TTOP operation 6 invalidates the key. -/
  | ttopInvalidate (a : R5)
  /-- RGOP_READ (R263): MTS to RGOP operation 0 reads a ring's counters into RGRES. -/
  | rgopRead (a : R5)
  /-- RGOP_ADVANCE (R263): MTS to RGOP operation 1 advances a ring's tail as a .HD release. -/
  | rgopAdvance (a : R5)
  /-- GFPX_WRITE (R286): MTS to GFPXn or SFPX replaces a group's or stream's FPX, keeping flags raised in that clk. -/
  | gfpxWrite (a : R5) (r : BitVec 16)
  /-- WRITE_INDEX (R303): A write to a queue's write-index register is accepted or refused and posts a write-index event. -/
  | writeIndex (q : Nat) (size : Nat) (ofs : Nat) (v : IndexWrite)
  /-- FRONT_END_EVENT (R309): An idle firmware core takes the oldest hardware event and handles it. -/
  | frontEndEvent (core : Nat)
  /-- SERVICE_ROUND (R311): A firmware core ages queues, maps one and processes one packet or record of a mapped queue. -/
  | serviceRound (core : Nat) (mclk : Nat)
  /-- PAD (R304): A PAD packet is taken and skipped. -/
  | pad (q : Nat)
  /-- LAUNCH (R313): A LAUNCH packet is checked and its teams are placed, or it is refused. -/
  | launch (q : Nat)
  /-- OPCHAIN (R324): An OPCHAIN packet is taken with its template. -/
  | opchain (q : Nat)
  /-- OPCHAIN_RECORD (R325): One operator record's WRITE and GO steps are applied whole to a shadow bank. -/
  | opchainRecord (q : Nat)
  /-- SIGNAL (R326): A SIGNAL packet stores a value as a .DV release once earlier packets complete. -/
  | signal (q : Nat)
  /-- WAIT (R326): A WAIT packet holds its queue until a location satisfies a comparison. -/
  | wait (q : Nat)
  /-- WAIT_RECHECK (R326): The front end rereads a WAIT location after a write reaches it or 4096 mclk expire. -/
  | waitRecheck (q : Nat)
  /-- INVAL (R327): An INVAL packet starts dropping TLB entries of a range. -/
  | inval (q : Nat)
  /-- INVAL_COMPLETE (R327): The INVAL completes once entries are dropped, walks ended and ownership released. -/
  | invalComplete (q : Nat)
  /-- NODE (R331): A NODE packet places a node record into a bin, waiting for capacity. -/
  | node (q : Nat)
  /-- BIN_RECORD_WRITE (R331): A copy write covering a bin window unit enters a node record into the bin. -/
  | binRecordWrite (die : Nat) (bin : Nat) (rec : List Byte)
  /-- BIN_LAUNCH (R332): A bin reaching its coalescing count launches a team on a batch. -/
  | binLaunch (die : Nat) (bin : Nat)
  /-- BIN_TIMER_EXPIRY (R332): A bin's timer expires and launches a team on the records held. -/
  | binTimerExpiry (die : Nat) (bin : Nat)
  /-- TEAM_START (R316): A team waiting for room on its hand starts there, or a gang starts together. -/
  | teamStart (n : Nat)
  /-- BOOT_MAILBOX_ARM (R319): A write of mailbox register 9 with ARM hands a team to a residency slot. -/
  | bootMailboxArm (h : Nat) (slot : Nat) (v : W64)
  /-- SHADOW_BANK_ACTIVATE (R324): An armed shadow bank becomes active when its slot's team ends and starts its operator. -/
  | shadowBankActivate (h : Nat) (slot : Nat)
  /-- LAUNCH_COMPLETE (R321): Every team of a launch has ended and its completion record is posted. -/
  | launchComplete (n : Nat)
  /-- MSIX_WINDOW_EXPIRY (R363): At the end of a 1024-mclk window a flagged vector sends one message. -/
  | msixWindowExpiry (fn : MsixVec)
  /-- MSIX_UNMASK (R363): Unmasking a vector with a pending bit sends one message. -/
  | msixUnmask (fn : Nat) (vec : Nat)
  /-- SLOT_TABLE_ADVANCE (R329): A die's slot-table slot expires and the next tenant takes priority. -/
  | slotTableAdvance (die : Nat)
  /-- CMDBASE_WRITE (R359): A write to CMDBASE sets the command ring and resets CMDWI and CMDRI. -/
  | cmdbaseWrite (fn : Nat) (v : W64)
  /-- FUNCTION_REGISTER_WRITE (R359): A write to a function register that has no row of its own. -/
  | functionRegisterWrite (fn : Nat) (ofs : Nat) (size : Nat) (v : W64)
  /-- RESUME (R361): Command resolving an error record with resume. -/
  | resume (fn : Nat) (seq : Nat)
  /-- SKIP (R361): Command resolving a TRAP, BREAK or STEP record with skip. -/
  | skip (fn : Nat) (seq : Nat)
  /-- STEP (R356): Command letting a stopped thread retire one instruction or a group issue one position. -/
  | cmdStep (fn : Nat) (seq : Nat)
  /-- REMOVE (R361): Command rolling back or removing a context. -/
  | remove (fn : Nat) (c : Nat)
  /-- QENABLE (R361): Command enabling a queue from its queue record. -/
  | qenable (fn : Nat) (q : Nat)
  /-- QDISABLE (R361): Command disabling a queue so it takes no packets. -/
  | qdisable (fn : Nat) (q : Nat)
  /-- QRESTART (R361): Command restarting a STOPPED queue at a new read index. -/
  | qrestart (fn : Nat) (q : Nat) (dNew : W64) (expSeq : Nat)
  /-- PRION (R361): Command re-enabling page requests for a context. -/
  | prion (fn : Nat) (c : Nat)
  /-- CTXOUT (R345): Command switching a context out to its save area. -/
  | ctxout (fn : Nat) (c : Nat)
  /-- CTXIN (R345): Command restoring a context on the hands of a placement map. -/
  | ctxin (fn : Nat) (c : Nat) (map : W64)
  /-- ASSIGN (R361): PF command giving a hand to a tenant. -/
  | assign (fn : Nat) (h : Nat) (ten : Nat)
  /-- SLOTTBL (R361): PF command replacing a die's slot table. -/
  | slottbl (fn : Nat) (die : Nat) (addr : W64)
  /-- DIERESET (R361): PF command starting a warm reset of a die. -/
  | diereset (fn : Nat) (die : Nat)
  /-- FLR (R357): A function-level reset removes the function's contexts and disables its queues. -/
  | flr (fn : Nat)
  /-- HOST_BAR2_ACCESS (R358): A host read or write of device memory through BAR2. -/
  | hostBar2Access (fn : Nat) (addr : Nat) (len : Nat) (wr : Option (List Byte))
  /-- DOMAIN_REQUEST (R366): A domain request arrives and is translated through the export table. -/
  | domainRequest (q : DomainReq)
  /-- WEAVE_FLIT_RECEIVE (R367): A Weave flit is received, replayed on CRC failure, and routed. -/
  | weaveFlitReceive (f : Flit)
  /-- WEAVE_PORT_FAILURE (R367): A port failing beyond FEC repair leaves the routes and peer events are posted. -/
  | weavePortFailure (port : PortLoss)
  /-- DOMAIN_TIMEOUT (R368): A domain request unanswered within the timeout is refused as DIE_OFFLINE. -/
  | domainTimeout (n : Nat)
  /-- DIE_FAULT (R372): The Collar finds a die-level fault and the die enters QUIESCING. -/
  | dieFault (die : Nat)
  /-- QUIESCE_DONE (R370): QUIESCING completes and the die enters DRAINED, saving its state. -/
  | quiesceDone (die : Nat)
  /-- QUIESCE_TIMEOUT (R370): A write-back unfinished 2^22 fclk after the trigger is abandoned and poisoned. -/
  | quiesceTimeout (die : Nat)
  /-- DRAIN_SAVE_DONE (R369): The die's saved state is in HBM4E and it enters RESETTING. -/
  | drainSaveDone (die : Nat)
  /-- RESET_DONE (R369): The die's reset completes and it enters RETRAINING. -/
  | resetDone (die : Nat)
  /-- TRAINING_DONE (R369): The die's UCIe links finish training and it enters READMITTING. -/
  | trainingDone (die : Training)
  /-- JOIN (R371): A readmitting die's JOIN message reaches the other dies. -/
  | joinMsg (die : Nat) (dst : Nat) (epoch : Nat)
  /-- ACK (R371): An ACK message reaches the readmitting die after routes are discarded. -/
  | ackMsg (die : Nat) (src : Nat) (epoch : Nat)
  /-- OPEN (R371): An OPEN message advances the die's epoch and brings it ONLINE. -/
  | openMsg (die : Nat) (epoch : Nat)
  /-- PARKED_REPLAY (R374): A request parked by DIE_OFFLINE is replayed after OPEN. -/
  | parkedReplay (n : Nat)
  /-- TEAM_RESTART (R373): A restartable team stopped by a die reset restarts after OPEN. -/
  | teamRestart (n : Nat)
  /-- HBM_SPARE (R375): A pseudo-channel past its error threshold is copied to the spare and remapped. -/
  | hbmSpare (stack : Nat) (pc : Nat)
  /-- FRONT_END_CORE_FAILURE (R375): A firmware core fails and the rest carry on. -/
  | frontEndCoreFailure (core : Nat)
  /-- MARGIN_SAMPLE (R376): The Collar samples ageing monitors and re-plans rail and clocks. -/
  | marginSample (die : Nat) (cluster : Nat) (monitor : Nat) (ps : Nat) (below : Bool) (hand : Nat)
  /-- POWER_WINDOW (R382): At the end of a 1 ms window the Collar lowers or raises clocks against the power cap. -/
  | powerWindow (watts : Nat)
  /-- DROOP_DETECT (R383): A droop detector stretches clk edges on a fast current step. -/
  | droopDetect (die : Nat) (cluster : Nat)
  /-- THERMAL_SAMPLE (R384): The Collar samples junction sensors, throttling or shutting down the rails. -/
  | thermalSample (die : Nat) (sensor : Nat) (temp : Nat)
  /-- COLD_BOOT (R377): PERST# release or power-up runs the verified boot sequence. -/
  | coldBoot
  /-- COLLAR_RESTART (R379): A lockstep mismatch resets the Collar, which restarts from its image. -/
  | collarRestart
  /-- GET_MEASUREMENTS (R378): An SPDM GET_MEASUREMENTS request returns MR0-MR7 and image digests. -/
  | getMeasurements (sign : Bool)
  /-- LOG_READ (R380): A PLDM request reads records of the persistent log. -/
  | logRead (seq : Nat) (count : Nat)
  /-- FIRMWARE_IMAGE_WRITE (R381): A PLDM update writes and verifies an image in the inactive slot. -/
  | firmwareImageWrite (comp : Nat) (img : FwImage)
  /-- ACTIVATION (R381): Activation swaps the active-slot flag for the next cold boot. -/
  | activation (comp : Nat)
  /-- RAISE_FUSED_MINIMUM (R381): A PF command raises a component's fused minimum security version. -/
  | raiseFusedMinimum (comp : Nat)
  /-- CORRECTED_ERROR (R142): A level of the hierarchy corrects a single-bit or soft error and counts it for the management subsystem. -/
  | correctedError (die : Nat) (stack : ErrLevel) (pc : Nat)
  /-- REGISTER_ECC_ERROR (R339): An uncorrectable error in tiles, masks, accumulators, queues, the synchronisation-flag file or a landing buffer raises the fatal fault REG_ECC. -/
  | registerEccError (h : Nat) (slot : Nat) (what : Nat)
  /-- ACCESS_COMPLETE (R228): A control-core access completes: a load's or atomic's reply returns, a store or write-back performs at its place, or a RACQ request reaches its target. -/
  | accessComplete (t : ThreadRef) (n : Nat)
  /-- BAR2_READ_TIMEOUT (R374): A host BAR2 read held for an offline die ends as Completer Abort after 1 ms. -/
  | bar2ReadTimeout (n : Nat)
  /-- COLLAR_RESTART_DONE (R379): The Collar completes its restart, and waiting re-plans, sparing and PLDM and SPDM replies proceed. -/
  | collarRestartDone
  /-- HBM_SPARE_COPY_DONE (R375): The copy of a pseudo-channel to the spare completes, its addresses are remapped and waiting accesses proceed. -/
  | hbmSpareCopyDone (stack : Nat) (pc : Nat)
  /-- PEER_REACHABLE (R367): A Weave route to a device is restored and a kind 5 event reports the device reachable again. -/
  | peerReachable (dev : PeerRoute)
  /-- DOMAIN_FORMATION (R365): A Weave domain forms and the Collar assigns the device its number, changing DEVNUM and the forcing of EDIS bit 0. -/
  | domainFormation (dev : DomainSetup)
  /-- EXPORT_TABLE_WRITE (R366): The PF driver writes an entry of the export table through the Collar. -/
  | exportTableWrite (n : Nat) (e : ExportEntry)
  /-- POWER_CAP_SET (R382): The PF sets the package power cap between 8,000 W and 15,000 W. -/
  | powerCapSet (watts : Nat)
  /-- MSIX_MASK (R363): A vector is masked in the function's MSI-X table, so that its events set only its pending bit. -/
  | msixMask (fn : Nat) (vec : Nat)
  /-- PERST_ASSERT (R385): PERST# is asserted and holds the device in reset until its release starts a cold boot. -/
  | perstAssert
  /-- POWER_LOSS (R380): Power to the package is lost; every state is lost except the persistent log and fuses. -/
  | powerLoss
  /-- IMAGE_LOAD (R314): The driver loads an image into a context under an image number. -/
  | imageLoad (c : Nat) (img : Nat) (base : W64)
  /-- IMAGE_RELEASE (R349): The driver releases an image, which takes effect when the last thread running in it ends. -/
  | imageRelease (c : Nat) (img : Nat)
  /-- VF_ENABLE (R357): The PF driver enables or disables SR-IOV virtual functions. -/
  | vfEnable (vfs : Nat)
  /-- LOCK_ALLOTMENT (R254): The driver allots hardware locks to a context. -/
  | lockAllotment (c : Nat) (lk : Nat) (grant : Bool)
  deriving DecidableEq, Repr

end Sys2Proof
end

