-- ==== Sys2Proof/WellFormed.lean ====
section
/-! DEFINITION. Which instructions are well-formed: step 5 of R72 on the fields of the encoding. An instruction that
fails here is sent to emulation with cause reserved-field. Events have no encoding and are always well-formed. -/

namespace Sys2Proof

/-- A scope code of R63; 5-7 are reserved. -/
def scopeOk (s : BitVec 3) : Bool := s.toNat ≤ 4

/-- The memory word's codes (R63): scopes 5-7 and hints 6-7 are reserved. -/
def MemW.ok (m : MemW) : Bool := scopeOk m.scope && m.hint.toNat ≤ 5

/-- A register that names an even pair or tile pair. -/
def evenB {w : Nat} (v : BitVec w) : Bool := v.toNat % 2 = 0

namespace LaneW

/-- A 64-bit type, which uses tile pairs (R203). -/
def wide (f : LaneW) : Bool := f.ty.toNat = 3 || f.ty.toNat = 7

/-- An integer type code 0-7 (R62). -/
def intTy (f : LaneW) : Bool := f.ty.toNat ≤ 7

/-- A type code 0-13 (R62, R203). -/
def moveTy (f : LaneW) : Bool := f.ty.toNat ≤ 13

/-- The guard M0 is not negated (R62). -/
def guardOk (f : LaneW) : Bool := f.guard ≠ 0 || f.neg = 0

/-- Rounding, saturate and op-specific fields that an instruction does not use are 0 (R203). -/
def plain (f : LaneW) : Bool := f.rnd = 0 && f.sat = 0 && f.op3 = 0

/-- A mask register named in a 6-bit field: bits 5:4 reserved (R62). -/
def maskName (v : BitVec 6) : Bool := v.toNat < 16

/-- A mask destination: M0 is never one (R31). -/
def maskDest (v : BitVec 6) : Bool := maskName v && v ≠ 0

/-- The flexible operand's kinds and fields (R201): kind 1 leaves vc 5:3 reserved; kind 3 is reserved. -/
def flexOk (f : LaneW) : Bool :=
  (f.kind = 0 && (!f.wide || evenB f.vc)) || (f.kind = 1 && f.vc.toNat < 8) || f.kind = 2

/-- No flexible operand: vc 0 and kind 0. -/
def noFlex (f : LaneW) : Bool := f.vc = 0 && f.kind = 0

/-- Token-produce is clear, as on every instruction that names no token (R37, R205). -/
def noTok (f : LaneW) : Bool := f.tokEn = 0

/-- Every instruction of the lane group: guard and token rules. -/
def base (f : LaneW) : Bool := f.guardOk && f.noTok

/-- A binary integer instruction (R206). -/
def intBinary (f : LaneW) (satOk : Bool) : Bool :=
  f.base && f.intTy && f.rnd = 0 && (satOk || f.sat = 0) && f.op3 = 0 && f.vb = 0 && f.flexOk &&
    (!f.wide || (evenB f.vd && evenB f.va))

/-- A unary integer instruction: va and vb reserved (R201, R206). -/
def intUnary (f : LaneW) (satOk : Bool) : Bool :=
  f.base && f.intTy && f.rnd = 0 && (satOk || f.sat = 0) && f.op3 = 0 && f.va = 0 && f.vb = 0 && f.flexOk &&
    (!f.wide || evenB f.vd)

/-- A three-source integer instruction (R206). -/
def intTernary (f : LaneW) : Bool :=
  f.base && f.intTy && f.rnd = 0 && f.op3 = 0 && f.flexOk && (!f.wide || (evenB f.vd && evenB f.va && evenB f.vb))

/-- A float opcode: the type field is reserved (R210). -/
def floatBase (f : LaneW) : Bool := f.base && f.ty = 0 && f.flexOk

/-- A movement instruction of R218 on the move types. -/
def moveBase (f : LaneW) : Bool := f.base && f.moveTy && f.plain && f.vb = 0 && (!f.wide || (evenB f.vd && evenB f.va))

/-- A reduction of R220. -/
def reduceOk (f : LaneW) : Bool :=
  f.base && f.noFlex && f.vb = 0 && f.ty.toNat ≤ 10 && f.op3.toNat ≤ 5 && (f.ty.toNat < 8 || f.op3.toNat ≤ 2) &&
    (f.rnd = 0 || (f.ty.toNat ≥ 8 && f.op3 = 0)) && (f.sat = 0 || f.op3 = 0) && (!f.wide || (evenB f.vd && evenB f.va))

/-- A mask instruction: type, rounding, saturate and op-specific fields reserved (R221). -/
def maskBase (f : LaneW) : Bool := f.base && f.ty = 0 && f.plain && maskName f.va

/-- The lane barrier instructions' shared fields (R243). -/
def barBase (f : LaneW) : Bool :=
  f.noTok && f.guard = 0 && f.neg = 0 && f.vd.toNat < 32 && f.va = 0 && f.vb = 0 && f.ty = 0 && f.rnd = 0 && f.sat = 0 &&
    scopeOk f.op3

/-- The tag-table instructions' shared fields (R237-R239). -/
def tagBase (f : LaneW) : Bool := f.base && f.ty = 0 && f.rnd = 0 && f.sat = 0 && f.noFlex

/-- The lane memory instructions' shared fields (R62, R224): an even pair, valid codes. -/
def memBase (f : LaneW) (m : MemW) : Bool := f.guardOk && f.rnd = 0 && f.sat = 0 && evenB f.va && m.ok

end LaneW

/-- Width in bits of a type code 0-13 (R62). -/
def tyWidth (ty : Nat) : Nat :=
  match ty % 16 with
  | 0 => 8 | 1 => 16 | 2 => 32 | 3 => 64 | 4 => 8 | 5 => 16 | 6 => 32 | 7 => 64
  | 8 => 32 | 9 => 16 | 10 => 16 | 11 => 8 | 12 => 8 | 13 => 4 | _ => 32

/-- Sub-elements per 32-bit element, 1 for a pair: c(w) of R213. -/
def perElem (w : Nat) : Nat := if w = 64 then 1 else 32 / w

/-- The number of parts of VCVT from source type `s` to destination type `d`: ρ of R213. -/
def cvtParts (s d : Nat) : Nat :=
  let cs := perElem (tyWidth s)
  let cd := perElem (tyWidth d)
  max cs cd / min cs cd

/-- The fields of VCVT (R213); with a 64-bit type, source or destination, every tile that it names is even (R203). -/
def vcvtOk (f : LaneW) : Bool :=
  let s := f.vc.toNat
  let d := f.ty.toNat
  f.base && f.kind = 0 && s ≤ 13 && d ≤ 13 && s ≠ d && f.vb = 0 && !(f.sat = 1 && 8 ≤ s && d ≤ 7) &&
    !(f.rnd ≠ 0 && s ≤ 7 && d ≤ 7) && f.op3.toNat < cvtParts s d &&
    ((tyWidth s ≠ 64 && tyWidth d ≠ 64) || (evenB f.va && evenB f.vd))

/-- The type, part and operand fields VQNT and VDQ share (R216, R217). -/
def scaleOk (f : LaneW) : Bool :=
  f.base && 11 ≤ f.ty.toNat && f.ty.toNat ≤ 13 && f.kind = 1 && f.vc.toNat < 8 && (f.ty.toNat = 13 || f.op3.toNat ≤ 3)

/-- The types of an atomic: 2, 3, 6, 7 (R79, R233). -/
def atomTy (ty : BitVec 4) : Bool := ty.toNat = 2 || ty.toNat = 3 || ty.toNat = 6 || ty.toNat = 7

namespace MatW

/-- Word 1 of a matrix instruction is 0 above its immediate. -/
def noHigh (w : MatW) : Bool := w.tile = 0 && w.grp = 0 && w.sel = 0 && w.res = 0

/-- The barrier field and its enable are 0. -/
def noBar (w : MatW) : Bool := w.bar = 0 && w.barEn = 0

/-- Scales are used: E2M1, or FP8 with SCL (R107, R265). -/
def scaled (w : MatW) : Bool := w.fmt = 4 || ((w.fmt = 2 || w.fmt = 3) && w.flags = 1)

/-- The fields of MMA (R265, R107). -/
def mmaOk (w : MatW) : Bool :=
  w.noBar && w.fmt.toNat ≤ 5 && (w.flags = 0 || (w.flags = 1 && (w.fmt = 2 || w.fmt = 3))) && w.res = 0 && w.imm = 0 &&
    (if w.scaled then w.fmt ≠ 4 || w.sel = 0 || w.sel = 2 else w.tile = 0 && w.grp = 0 && w.sel = 0)

/-- A format of MMAS and GATH: 0, 1, 2, 3 or 5 (R267, R269). -/
def sparseFmt (w : MatW) : Bool := w.fmt.toNat ≤ 3 || w.fmt = 5

/-- The fields of MSTC (R271). -/
def mstcOk (w : MatW) : Bool :=
  w.noBar && w.noHigh && w.ra = 0 && w.rb = 0 &&
    (if w.flags.getLsbD 3 then w.fmt = 0 && w.flags = 8
     else w.fmt.toNat ≤ 5 && w.fmt ≠ 4 && (w.fmt ≠ 5 || w.flags.toNat % 4 = 0))

/-- The matrix barrier instructions (R244). -/
def barOk (w : MatW) : Bool :=
  w.barEn = 1 && w.flags.toNat ≤ 4 && w.acc = 0 && w.ra = 0 && w.rb = 0 && w.fmt = 0 && w.noHigh

end MatW

/-- The fields every copy command has (R63, R65). -/
def CopyW.ok (w : CopyW) : Bool := scopeOk w.scope && w.hint.toNat ≤ 5 && w.res = 0 && w.off.toNat % 32 = 0

/-- Step 5 of R72 on the fields an instruction holds: no reserved field is nonzero and no field holds a reserved code. -/
def Instr.wf : Instr → Bool
  | .bfx _ _ _ wd p => p.toNat + wd.toNat + 1 ≤ 64
  | .bfi _ _ wd p => p.toNat + wd.toNat + 1 ≤ 64
  | .jtab _ _ n => n ≠ 0
  | .deal _ a => a.toNat % 4 = 0
  | .dset n _ _ => 2 ≤ n.toNat && n.toNat ≤ 7
  | .spop d _ c => c.toNat ≤ 7 && d ≠ 0 && d.toNat + c.toNat + 1 ≤ 32
  | .speek d _ c => c.toNat ≤ 7 && d ≠ 0 && d.toNat + c.toNat + 1 ≤ 32
  | .dqpush _ a => a.toNat % 4 = 0
  | .dqpop _ b => b.toNat % 4 = 0 && b ≠ 0
  | .steal _ _ b => b.toNat % 4 = 0 && b ≠ 0
  | .cpy a m => evenB a && m.toNat ≤ 1
  | .setseg t _ a b => evenB a && (t = 1 || b = 0)
  | .fence k a sc => k.toNat ≤ 4 && scopeOk sc && (if k = 4 then sc = 3 else a = 0)
  | .bari _ _ sc => scopeOk sc
  | .bara _ _ sc => scopeOk sc
  | .barw _ sc => scopeOk sc
  | .ld _ a ty m => ty.toNat ≤ 7 && evenB a && m.ok
  | .st a _ ty m => ty.toNat ≤ 7 && evenB a && m.ok
  | .lda _ a ty m => ty.toNat ≤ 7 && evenB a && m.ok
  | .stl a _ ty m => ty.toNat ≤ 7 && evenB a && m.ok
  | .amo fn ty _ a _ m => fn.toNat ≤ 9 && atomTy ty && evenB a && m.ok
  | .pfx a m => evenB a && m.ok && m.scope = 0
  | .susp _ a b m => evenB a && m.ok && b.toNat % 4 = 0 && m.scope = 3 && m.space = 0
  | .rslv _ a b m => evenB a && m.ok && b.toNat % 4 = 0 && m.scope = 3 && m.space = 0
  | .vadd f => f.intBinary true
  | .vsub f => f.intBinary true
  | .vmul f => f.intBinary true
  | .vmulh f => f.intBinary false
  | .vmad f => f.intTernary
  | .vand f => f.intBinary false
  | .vor f => f.intBinary false
  | .vxor f => f.intBinary false
  | .vshl f => f.intBinary false
  | .vshr f => f.intBinary false
  | .vsra f => f.intBinary false
  | .vmin f => f.intBinary false
  | .vmax f => f.intBinary false
  | .vabs f => f.intUnary true
  | .vneg f => f.intUnary true
  | .vclz f => f.intUnary false
  | .vpopc f => f.intUnary false
  | .vsel f => f.base && f.moveTy && f.plain && f.kind = 0 && LaneW.maskName f.vc &&
      (!f.wide || (evenB f.vd && evenB f.va && evenB f.vb))
  | .vmov f => f.base && f.moveTy && f.plain && f.va = 0 && f.vb = 0 && f.flexOk && (!f.wide || evenB f.vd) &&
      !(f.kind = 2 && 11 ≤ f.ty.toNat)
  | .viota f => f.base && (f.ty = 2 || f.ty = 6) && f.rnd = 0 && f.sat = 0 && f.op3.toNat ≤ 2 && f.va = 0 && f.vb = 0 && f.flexOk
  | .vcmp f => f.base && f.intTy && f.rnd = 0 && f.sat = 0 && f.op3.toNat ≤ 5 && LaneW.maskDest f.vd && f.flexOk &&
      (!f.wide || evenB f.va) && (if tyWidth f.ty.toNat < 32 then f.vb.toNat < 32 / tyWidth f.ty.toNat else f.vb = 0)
  | .vli f _ => f.base && f.moveTy && f.plain && f.va = 0 && f.vb = 0 && f.noFlex && (!f.wide || evenB f.vd)
  | .fadd _ f => f.floatBase && f.op3 = 0 && f.vb = 0
  | .fsub _ f => f.floatBase && f.op3 = 0 && f.vb = 0
  | .fmul _ f => f.floatBase && f.op3 = 0 && f.vb = 0
  | .ffma _ f => f.floatBase && f.op3 = 0
  | .fmin _ f => f.floatBase && f.plain && f.vb = 0
  | .fmax _ f => f.floatBase && f.plain && f.vb = 0
  | .fabs _ f => f.floatBase && f.plain && f.va = 0 && f.vb = 0
  | .fneg _ f => f.floatBase && f.plain && f.va = 0 && f.vb = 0
  | .frcp _ f => f.floatBase && f.rnd = 0 && f.op3 = 0 && f.va = 0 && f.vb = 0
  | .frsq _ f => f.floatBase && f.rnd = 0 && f.op3 = 0 && f.va = 0 && f.vb = 0
  | .fexp2 _ f => f.floatBase && f.rnd = 0 && f.op3 = 0 && f.va = 0 && f.vb = 0
  | .flog2 _ f => f.floatBase && f.rnd = 0 && f.op3 = 0 && f.va = 0 && f.vb = 0
  | .fcmp fm f => f.floatBase && f.rnd = 0 && f.sat = 0 && f.op3.toNat ≤ 6 && LaneW.maskDest f.vd &&
      (if fm = .f32 then f.vb = 0 else f.vb.toNat ≤ 1)
  | .vcvt f => vcvtOk f
  | .vhist f => f.base && 8 ≤ f.ty.toNat && f.ty.toNat ≤ 12 && f.plain && f.vb = 0 && f.noFlex
  | .vqnt f => scaleOk f && f.rnd = 0 && f.sat = 0 && f.vb ≠ f.vd
  | .vdq f => scaleOk f
  | .rrot f => f.moveBase && ((f.kind = 1 && f.vc.toNat < 8) || f.kind = 2)
  | .crot f => f.moveBase && ((f.kind = 1 && f.vc.toNat < 8) || f.kind = 2)
  | .rbc f => f.moveBase && ((f.kind = 1 && f.vc.toNat < 8) || f.kind = 2)
  | .cbc f => f.moveBase && ((f.kind = 1 && f.vc.toNat < 8) || f.kind = 2)
  | .rred f => f.reduceOk
  | .cred f => f.reduceOk
  | .rprm f => f.moveBase && ((f.kind = 0 && (!f.wide || evenB f.vc)) || (f.kind = 1 && f.vc.toNat < 8))
  | .trn16 f => f.moveBase && f.noFlex
  | .mand f => f.maskBase && f.noFlex && LaneW.maskDest f.vd && LaneW.maskName f.vb
  | .mor f => f.maskBase && f.noFlex && LaneW.maskDest f.vd && LaneW.maskName f.vb
  | .mxor f => f.maskBase && f.noFlex && LaneW.maskDest f.vd && LaneW.maskName f.vb
  | .mnot f => f.maskBase && f.noFlex && LaneW.maskDest f.vd && f.vb = 0
  | .mcnt f => f.maskBase && f.noFlex && f.vb = 0
  | .mrow f => f.maskBase && LaneW.maskDest f.vd && f.vb = 0 &&
      ((f.kind = 2 && f.vc.toNat < 16) || (f.kind = 1 && f.vc.toNat < 8))
  | .show f => f.guardOk && f.ty = 0 && f.plain && f.vd = 0 && LaneW.maskName f.va && f.vb = 0 && f.kind = 0
  | .showx f => f.guardOk && f.ty = 0 && f.plain && f.vd = 0 && LaneW.maskName f.va && f.kind = 0
  | .vfence f => f.base && f.ty = 0 && f.rnd = 0 && f.sat = 0 && f.vd.toNat ≤ 4 && f.va = 0 && f.vb = 0 && f.noFlex &&
      f.op3.toNat ≤ 3
  | .laneBari f => f.barBase && ((f.kind = 1 && f.vc.toNat < 8) || (f.kind = 2 && f.vc.toNat < 32))
  | .laneBara f => f.barBase && ((f.kind = 1 && f.vc.toNat < 8) || f.kind = 2)
  | .laneBarw f => f.barBase && f.noFlex
  | .plk f => f.tagBase && evenB f.va && f.vb = 0 && f.op3 = 0
  | .ptag f => f.tagBase && evenB f.va && evenB f.vd && f.op3.toNat ≤ 4
  | .pinv f => f.tagBase && f.vd = 0 && f.vb = 0 && f.op3.toNat ≤ 1 && (if f.op3 = 1 then f.va = 0 else evenB f.va)
  | .vld f m => f.memBase m && f.ty.toNat ≤ 12 && f.vb = 0 && f.noFlex && f.tokEn = 1 && f.op3 = 0 && (!f.wide || evenB f.vd)
  | .vst f m => f.memBase m && f.ty.toNat ≤ 12 && f.vd = 0 && f.vb = 0 && f.flexOk && f.op3 = 0
  | .vldt f m => f.memBase m && f.moveTy && f.vb = 0 && f.noFlex && f.tokEn = 1 && f.op3 = 0 && (!f.wide || evenB f.vd)
  | .vstt f m => f.memBase m && f.moveTy && f.vd = 0 && f.vb = 0 && f.kind = 0 && f.op3 = 0 && (!f.wide || evenB f.vc)
  | .vatom f m => f.memBase m && atomTy f.ty && f.vb = 0 && f.flexOk && f.tokEn = 1 && f.op3.toNat ≤ 6 && (!f.wide || evenB f.vd)
  | .vcas f m => f.memBase m && atomTy f.ty && f.flexOk && f.tokEn = 1 && f.op3 = 0 && (!f.wide || (evenB f.vd && evenB f.vb))
  | .pld f m => f.memBase m && f.ty.toNat ≤ 12 && f.vb = 0 && f.noFlex && f.tokEn = 1 && f.op3 = 0 && m.space = 1 &&
      (!f.wide || evenB f.vd)
  | .pst f m => f.memBase m && f.ty.toNat ≤ 12 && f.vd = 0 && f.vb = 0 && f.flexOk && f.op3 = 0 && m.space = 1
  | .mma w => w.mmaOk
  | .mmas w => w.noBar && w.sparseFmt && w.flags = 0 && w.noHigh && w.imm = 0
  | .mzero w => w.noBar && w.noHigh && w.ra = 0 && w.rb = 0 && w.fmt = 0 && w.flags = 0 && w.imm = 0
  | .mldc w => w.noBar && w.noHigh && w.ra = 0 && w.rb = 0 && w.fmt = 0 && w.flags = 0
  | .mstc w => w.mstcOk
  | .rinit w => w.noBar && w.noHigh && w.acc = 0 && w.rb = 0 && w.fmt = 0 && w.flags = 0
  | .tadv w => w.noBar && w.noHigh && w.acc = 0 && w.rb = 0 && w.fmt = 0 && w.flags = 0 && w.imm ≠ 0
  | .hadv w => w.noBar && w.noHigh && w.acc = 0 && w.rb = 0 && w.fmt = 0 && w.flags = 0 && w.imm ≠ 0
  | .gath w => w.noBar && w.noHigh && w.acc = 0 && w.ra = 0 && w.sparseFmt && w.flags = 0
  | .matrixBara w => w.barOk
  | .matrixBarw w => w.barOk && w.imm = 0
  | .mend w => w.noBar && w.noHigh && w.acc = 0 && w.ra = 0 && w.rb = 0 && w.fmt = 0 && w.flags = 0 && w.imm = 0
  | .cpG2p w => w.ok
  | .cpP2g w => w.ok
  | .cpG2g w => w.ok
  | .cpP2p w => w.ok
  | .cpFill w _ => w.ok
  | .cpRows w _ => w.ok
  | .cpToring w imm => w.ok && imm.toNat < 8
  | .cpReduce w imm => w.ok && (imm.toNat = 2 || imm.toNat = 3 || (6 ≤ imm.toNat && imm.toNat ≤ 10))
  | _ => true

end Sys2Proof
end

