-- ==== Sys2Proof/Decode.lean ====
section
/-! DEFINITION. Decoding and encoding: lengths from word 0 (R76), the opcode maps (R77-R82), the order of the decode checks
(R72), the disabled classes (R83), and the encoder written from the formats of R59-R65. -/

namespace Sys2Proof

/-- The four engines that decode code-image words (R76; codes of EINFO 31:29, R294). -/
inductive Engine where
  | cc | lane | matrix | copy
  deriving DecidableEq, Repr

/-- The causes of emulation (R71). -/
inductive Cause where
  | undefined | reservedField | retired | disabled | deprecated
  deriving DecidableEq, Repr

/-- The code of a cause: the entry of the handler table it selects (R71, R292). -/
def Cause.code : Cause → Nat
  | .undefined => 0 | .reservedField => 1 | .retired => 2 | .disabled => 3 | .deprecated => 4

/-- The number of words an instruction has, from its word 0 alone (R76). -/
def instrWords (e : Engine) (w : W32) : Nat :=
  let op := w.toNat / 2 ^ 24
  match e with
  | .cc => if w.toNat / 2 ^ 26 < 0x30 then 1 else 2
  | .lane => if op = 0 then 1 else if op < 0xC0 then 2 else 3
  | .matrix => if op = 0 then 1 else 2
  | .copy => if op = 0 then 1 else if op < 0x80 then 2 else 3

/-! ### Fields -/

/-- Bits `lo .. lo+len-1` of a word (R3). -/
abbrev fld (w : W32) (lo len : Nat) : BitVec len := w.extractLsb' lo len

/-- The memory word (R61, R63). -/
def memOf (v : W32) : MemW := ⟨fld v 8 24, fld v 5 3, fld v 3 2, fld v 0 3⟩

/-- The fields of words 0 and 1 of a lane-group instruction (R61). -/
def laneOf (w v : W32) : LaneW :=
  { vd := fld w 18 6, va := fld w 12 6, vb := fld w 6 6, vc := fld w 0 6, guard := fld v 28 4, neg := fld v 27 1,
    tokEn := fld v 26 1, tok := fld v 23 3, await := fld v 15 8, stage := fld v 12 3, ty := fld v 8 4, rnd := fld v 6 2,
    sat := fld v 5 1, kind := fld v 3 2, op3 := fld v 0 3 }

/-- The fields of a matrix-sequencer instruction (R64). -/
def matOf (w v : W32) : MatW :=
  { acc := fld w 19 5, ra := fld w 16 3, rb := fld w 13 3, fmt := fld w 10 3, bar := fld w 5 5, barEn := fld w 4 1,
    flags := fld w 0 4, tile := fld v 26 6, grp := fld v 22 4, sel := fld v 20 2, res := fld v 16 4, imm := fld v 0 16 }

/-- The fields of words 0 and 1 of a copy command (R65). -/
def copyOf (w v : W32) : CopyW :=
  { tag := fld w 16 8, bar := fld w 11 5, barEn := fld w 10 1, scope := fld w 7 3, hint := fld w 4 3, res := fld w 0 4, off := v }

/-! ### The opcode maps. `none`: unassigned; otherwise the instruction, and whether the bits it does not hold are 0. -/

/-- Major 0x01 (R78). -/
def decodeInt (w : W32) : Option (Instr × Bool) :=
  let d := fld w 21 5
  let a := fld w 16 5
  let b := fld w 11 5
  match (fld w 0 11).toNat with
  | 0x001 => some (.add d a b, true) | 0x002 => some (.sub d a b, true) | 0x003 => some (.mul d a b, true)
  | 0x004 => some (.mulh d a b, true) | 0x005 => some (.mulhn d a b, true) | 0x006 => some (.div d a b, true)
  | 0x007 => some (.divn d a b, true) | 0x008 => some (.rem d a b, true) | 0x009 => some (.remn d a b, true)
  | 0x00A => some (.and d a b, true) | 0x00B => some (.or d a b, true) | 0x00C => some (.xor d a b, true)
  | 0x00D => some (.shl d a b, true) | 0x00E => some (.shr d a b, true) | 0x00F => some (.sra d a b, true)
  | 0x010 => some (.min d a b, true) | 0x011 => some (.max d a b, true) | 0x012 => some (.minn d a b, true)
  | 0x013 => some (.maxn d a b, true) | 0x014 => some (.seq d a b, true) | 0x015 => some (.sne d a b, true)
  | 0x016 => some (.slt d a b, true) | 0x017 => some (.sltn d a b, true)
  | 0x018 => some (.clz d a, b = 0) | 0x019 => some (.popc d a, b = 0)
  | 0x01A => some (.brev d a b, true)
  | _ => none

/-- Major 0x03 (R78). -/
def decodeQueue (w : W32) : Option (Instr × Bool) :=
  let d := fld w 21 5
  let a := fld w 16 5
  let b := fld w 11 5
  match (fld w 0 11).toNat with
  | 0x001 => some (.deal d a, b = 0) | 0x002 => some (.dset d a b, true) | 0x003 => some (.spop d a b, true)
  | 0x004 => some (.speek d a b, true) | 0x005 => some (.sgrp d a b, true) | 0x006 => some (.cancel d a b, true)
  | 0x007 => some (.qstat d a, b = 0) | 0x010 => some (.spawn d a b, true)
  | 0x011 => some (.exit, d = 0 && a = 0 && b = 0) | 0x012 => some (.dqpush d a, b = 0)
  | 0x013 => some (.dqpop d b, a = 0) | 0x014 => some (.steal d a b, true) | 0x015 => some (.yield d a b, true)
  | 0x020 => some (.mxgo d a, b = 0) | 0x021 => some (.cpy a b, d = 0) | 0x022 => some (.cpcan d a, b = 0)
  | 0x030 => some (.give d a b, true) | 0x031 => some (.claim d a b, true)
  | _ => none

/-- Major 0x04 (R78); SETSEG's selector holds the target in bit 2 and the segment in bits 1:0 (R291). -/
def decodeSys (w : W32) : Option (Instr × Bool) :=
  let d := fld w 21 5
  let a := fld w 16 5
  let b := fld w 11 5
  match (fld w 0 11).toNat with
  | 0x001 => some (.brk, d = 0 && a = 0 && b = 0) | 0x002 => some (.eret, d = 0 && a = 0 && b = 0)
  | 0x003 => some (.emret a, d = 0 && b = 0) | 0x004 => some (.ckpt d, a = 0 && b = 0)
  | 0x005 => some (.halt, d = 0 && a = 0 && b = 0)
  | 0x006 => some (.setseg (fld w 23 1) (fld w 21 2) a b, fld w 24 2 = 0)
  | 0x007 => some (.lkbind d a b, true)
  | _ => none

/-- Major 0x08 (R78): minor bits 10:8 hold the scope and bits 7:0 the function. -/
def decodeSync (w : W32) : Option (Instr × Bool) :=
  let d := fld w 21 5
  let a := fld w 16 5
  let b := fld w 11 5
  let sc := fld w 8 3
  match (fld w 0 8).toNat with
  | 0x01 => some (.fence d a sc, b = 0) | 0x02 => some (.bari d a sc, b = 0) | 0x03 => some (.bara d a sc, b = 0)
  | 0x04 => some (.barw d sc, a = 0 && b = 0) | 0x05 => some (.lkacq d a, b = 0 && sc = 3)
  | 0x06 => some (.lkrel a, d = 0 && b = 0 && sc = 3) | 0x07 => some (.cellq d a, b = 0 && sc = 3)
  | _ => none

/-- The CM majors (R79): minor bits 10:7 hold the function, 6:3 the type, 2:0 are reserved. -/
def decodeMem (w v : W32) : Option (Instr × Bool) :=
  let d := fld w 21 5
  let a := fld w 16 5
  let b := fld w 11 5
  let fn := fld w 7 4
  let ty := fld w 3 4
  let z := fld w 0 3 = 0
  let m := memOf v
  match w.toNat / 2 ^ 26 with
  | 0x38 => some (.ld d a ty m, b = 0 && fn = 0 && z) | 0x39 => some (.st a b ty m, d = 0 && fn = 0 && z)
  | 0x3A => some (.lda d a ty m, b = 0 && fn = 0 && z) | 0x3B => some (.stl a b ty m, d = 0 && fn = 0 && z)
  | 0x3C => if fn.toNat ≤ 9 then some (.amo fn ty d a b m, z) else none
  | 0x3D => some (.pfx a m, d = 0 && b = 0 && fn = 0 && ty = 0 && z)
  | 0x3E => some (.susp d a b m, fn = 0 && ty = 0 && z) | 0x3F => some (.rslv d a b m, fn = 0 && ty = 0 && z)
  | _ => none

/-- The control core's majors (R77). `v` is word 1 of a two-word instruction. -/
def decodeCC (w v : W32) : Option (Instr × Bool) :=
  let d := fld w 21 5
  let a := fld w 16 5
  let imm := fld w 0 16
  let sl := fld w 0 4
  match w.toNat / 2 ^ 26 with
  | 0x00 => some (.nop, fld w 0 26 = 0)
  | 0x01 => decodeInt w
  | 0x02 => some (.sel d a (fld w 11 5) (fld w 6 5), fld w 0 6 = 0)
  | 0x03 => decodeQueue w
  | 0x04 => decodeSys w
  | 0x05 => some (.mfs d imm, a = 0)
  | 0x06 => some (.mts a imm, d = 0)
  | 0x07 => some (.trap imm, d = 0 && a = 0)
  | 0x08 => decodeSync w
  | 0x10 => some (.addi d a imm, true) | 0x11 => some (.andi d a imm, true) | 0x12 => some (.ori d a imm, true)
  | 0x13 => some (.xori d a imm, true) | 0x14 => some (.slti d a imm, true)
  | 0x15 => some (.shli d a (fld w 0 6), fld w 6 10 = 0) | 0x16 => some (.shri d a (fld w 0 6), fld w 6 10 = 0)
  | 0x17 => some (.srai d a (fld w 0 6), fld w 6 10 = 0)
  | 0x18 => some (.bfx d a (fld w 12 1) (fld w 6 6) (fld w 0 6), fld w 13 3 = 0)
  | 0x19 => some (.bfi d a (fld w 6 6) (fld w 0 6), fld w 12 4 = 0)
  | 0x1A => some (.jalr d a imm, true) | 0x1B => some (.jr a imm, d = 0) | 0x1C => some (.jtab d a imm, true)
  | 0x20 => some (.bz d (fld w 4 12) sl, a = 0) | 0x21 => some (.bnz d (fld w 4 12) sl, a = 0)
  | 0x22 => some (.beq d a (fld w 4 12) sl, true) | 0x23 => some (.bne d a (fld w 4 12) sl, true)
  | 0x24 => some (.blt d a (fld w 4 12) sl, true) | 0x25 => some (.bge d a (fld w 4 12) sl, true)
  | 0x26 => some (.bltn d a (fld w 4 12) sl, true) | 0x27 => some (.bgen d a (fld w 4 12) sl, true)
  | 0x28 => some (.j (fld w 4 22) sl, true) | 0x29 => some (.jal d (fld w 4 17) sl, true)
  | 0x2A => some (.loopz d a (fld w 4 12) sl, true)
  | 0x30 => some (.li d (v ++ imm), a = 0) | 0x31 => some (.addpc d (v ++ imm), a = 0)
  | _ => decodeMem w v

/-- The float operation of the low nibble of a float op (R80). -/
def decodeFloat (n : Nat) (fm : FFmt) (f : LaneW) : Option (Instr × Bool) :=
  match n with
  | 0 => some (.fadd fm f, true) | 1 => some (.fsub fm f, true) | 2 => some (.fmul fm f, true) | 3 => some (.ffma fm f, true)
  | 4 => some (.fmin fm f, true) | 5 => some (.fmax fm f, true) | 6 => some (.fabs fm f, true) | 7 => some (.fneg fm f, true)
  | 8 => some (.frcp fm f, true) | 9 => some (.frsq fm f, true) | 0xA => some (.fexp2 fm f, true)
  | 0xB => some (.flog2 fm f, true) | 0xC => some (.fcmp fm f, true)
  | 0xD => if fm = .f32 then some (.frcpa f, true) else none
  | _ => none

/-- The lane-group ops (R80). -/
def decodeLane (w v u : W32) : Option (Instr × Bool) :=
  let f := laneOf w v
  let m := memOf u
  match w.toNat / 2 ^ 24 with
  | 0x00 => some (.laneNop (fld w 0 6), fld w 6 18 = 0)
  | 0x01 => some (.vadd f, true) | 0x02 => some (.vsub f, true) | 0x03 => some (.vmul f, true) | 0x04 => some (.vmulh f, true)
  | 0x05 => some (.vmad f, true) | 0x06 => some (.vand f, true) | 0x07 => some (.vor f, true) | 0x08 => some (.vxor f, true)
  | 0x09 => some (.vshl f, true) | 0x0A => some (.vshr f, true) | 0x0B => some (.vsra f, true) | 0x0C => some (.vmin f, true)
  | 0x0D => some (.vmax f, true) | 0x0E => some (.vabs f, true) | 0x0F => some (.vneg f, true) | 0x10 => some (.vclz f, true)
  | 0x11 => some (.vpopc f, true) | 0x12 => some (.vsel f, true) | 0x13 => some (.vmov f, true) | 0x14 => some (.viota f, true)
  | 0x15 => some (.vcmp f, true) | 0x16 => some (.vavg f, true) | 0x17 => some (.vsad f, true)
  | 0x50 => some (.vcvt f, true) | 0x51 => some (.vhist f, true) | 0x52 => some (.vqnt f, true) | 0x53 => some (.vdq f, true)
  | 0x60 => some (.rrot f, true) | 0x61 => some (.crot f, true) | 0x62 => some (.rbc f, true) | 0x63 => some (.cbc f, true)
  | 0x64 => some (.rred f, true) | 0x65 => some (.cred f, true) | 0x66 => some (.rprm f, true) | 0x67 => some (.trn16 f, true)
  | 0x68 => some (.vshuf f, true) | 0x70 => some (.mand f, true) | 0x71 => some (.mor f, true) | 0x72 => some (.mxor f, true)
  | 0x73 => some (.mnot f, true) | 0x74 => some (.mcnt f, true) | 0x75 => some (.mrow f, true) | 0x80 => some (.show f, true)
  | 0x81 => some (.showx f, true) | 0x82 => some (.vfence f, true) | 0x83 => some (.laneBari f, true)
  | 0x84 => some (.laneBara f, true) | 0x85 => some (.laneBarw f, true) | 0x86 => some (.plk f, true)
  | 0x87 => some (.ptag f, true) | 0x88 => some (.pinv f, true)
  | 0xC0 => some (.vld f m, true) | 0xC1 => some (.vst f m, true) | 0xC2 => some (.vldt f m, true) | 0xC3 => some (.vstt f m, true)
  | 0xC4 => some (.vatom f m, true) | 0xC5 => some (.vcas f m, true) | 0xC6 => some (.pld f m, true) | 0xC7 => some (.pst f m, true)
  | 0xC8 => some (.vli f u, true) | 0xC9 => some (.vldb f m, true)
  | op =>
    if op / 16 = 2 then decodeFloat (op % 16) .f32 f
    else if op / 16 = 3 then decodeFloat (op % 16) .f16 f
    else if op / 16 = 4 then decodeFloat (op % 16) .bf16 f
    else none

/-- The matrix-sequencer ops (R81). -/
def decodeMatrix (w v : W32) : Option (Instr × Bool) :=
  let m := matOf w v
  match w.toNat / 2 ^ 24 with
  | 0x00 => some (.matrixNop, fld w 0 24 = 0)
  | 0x01 => some (.mma m, true) | 0x02 => some (.mmas m, true) | 0x03 => some (.mzero m, true) | 0x04 => some (.mldc m, true)
  | 0x05 => some (.mstc m, true) | 0x06 => some (.rinit m, true) | 0x07 => some (.tadv m, true) | 0x08 => some (.hadv m, true)
  | 0x09 => some (.gath m, true) | 0x0A => some (.matrixBara m, true) | 0x0B => some (.matrixBarw m, true)
  | 0x0C => some (.mend m, true) | 0x0D => some (.mmat m, true)
  | _ => none

/-- The copy ops (R82). -/
def decodeCopy (w v u : W32) : Option (Instr × Bool) :=
  let c := copyOf w v
  match w.toNat / 2 ^ 24 with
  | 0x00 => some (.copyNop, fld w 0 24 = 0)
  | 0x01 => some (.cpG2p c, true) | 0x02 => some (.cpP2g c, true) | 0x03 => some (.cpG2g c, true) | 0x04 => some (.cpP2p c, true)
  | 0x06 => some (.cpG2l c, true)
  | 0x80 => some (.cpFill c u, true) | 0x81 => some (.cpRows c u, true) | 0x82 => some (.cpToring c u, true)
  | 0x83 => some (.cpReduce c u, true)
  | _ => none

/-- The words of an instruction read by their engine's map; a missing later word reads as 0. -/
def decodeRaw (e : Engine) (ws : List W32) : Option (Instr × Bool) :=
  let w := ws.getD 0 0
  let v := ws.getD 1 0
  let u := ws.getD 2 0
  match e with
  | .cc => decodeCC w v
  | .lane => decodeLane w v u
  | .matrix => decodeMatrix w v
  | .copy => decodeCopy w v u

/-! ### The fate of an encoding (R72) -/

/-- The permanent list of retired opcodes (R86). -/
def Instr.retired : Instr → Bool
  | .loopz .. | .brev .. | .vavg .. | .vsad .. | .frcpa .. | .vshuf .. | .vldb .. | .mmat .. | .cpG2l .. => true
  | _ => false

/-- A scope field that is .DM (R63). -/
def isDm (s : BitVec 3) : Bool := s = 4

/-- The class of EDIS that disables an instruction at decode, by bit (R83). Bit 6 of a control-core scratchpad access and
the domain pointer a copy names are tested later. -/
def Instr.disabledBy (i : Instr) (edis : W64) : Bool :=
  let dm := edis.getLsbD 0
  let e2m1 := edis.getLsbD 1
  let sparse := edis.getLsbD 2
  let cell := edis.getLsbD 3
  let lock := edis.getLsbD 4
  let work := edis.getLsbD 5
  let remote := edis.getLsbD 6
  match i with
  | .brk => edis.getLsbD 7
  | .spawn .. | .dqpush .. | .dqpop .. | .steal .. => work
  | .lkacq .. | .lkrel .. => lock
  | .cellq .. => cell
  | .susp _ _ _ m => cell || (dm && isDm m.scope)
  | .rslv _ _ _ m => cell || (dm && isDm m.scope)
  | .fence _ _ s => dm && isDm s
  | .bari _ _ s => dm && isDm s
  | .bara _ _ s => dm && isDm s
  | .barw _ s => dm && isDm s
  | .ld _ _ _ m => dm && isDm m.scope
  | .st _ _ _ m => dm && isDm m.scope
  | .pfx _ m => dm && isDm m.scope
  | .lda _ _ _ m => dm && isDm m.scope
  | .stl _ _ _ m => dm && isDm m.scope
  | .amo _ _ _ _ _ m => dm && isDm m.scope
  | .vld _ m => dm && isDm m.scope
  | .vst _ m => dm && isDm m.scope
  | .vldt _ m => dm && isDm m.scope
  | .vstt _ m => dm && isDm m.scope
  | .vatom _ m => dm && isDm m.scope
  | .vcas _ m => dm && isDm m.scope
  | .pld _ m => dm && isDm m.scope
  | .pst _ m => dm && isDm m.scope
  | .vfence f => dm && f.vd.toNat % 8 = 4
  | .laneBari f => dm && f.op3 = 4
  | .laneBara f => dm && f.op3 = 4
  | .laneBarw f => dm && f.op3 = 4
  | .matrixBara w => dm && w.flags.toNat % 8 = 4
  | .matrixBarw w => dm && w.flags.toNat % 8 = 4
  | .vcvt f => e2m1 && (f.ty = 13 || f.vc.toNat % 16 = 13)
  | .vqnt f => e2m1 && f.ty = 13
  | .vdq f => e2m1 && f.ty = 13
  | .mma w => e2m1 && w.fmt = 4
  | .mmas _ | .gath _ => sparse
  | .cpG2p w => dm && isDm w.scope
  | .cpP2g w => dm && isDm w.scope
  | .cpG2g w => dm && isDm w.scope
  | .cpP2p w => remote || (dm && isDm w.scope)
  | .cpFill w _ => dm && isDm w.scope
  | .cpRows w _ => dm && isDm w.scope
  | .cpToring w _ => dm && isDm w.scope
  | .cpReduce w _ => dm && isDm w.scope
  | _ => false

/-- A control-core encoding whose scope field holds .DM where the form takes .DV alone, which it does not keep (R83, R252, R254). -/
def namesDm (i : Instr) (w : W32) : Bool :=
  match i with
  | .lkacq .. | .lkrel .. | .cellq .. => isDm (fld w 8 3)
  | _ => false

/-- The fate of an encoding: an instruction that goes on to its meaning (a retired one too, whose meaning raises its cause),
or an emulation cause, with the native instruction where one is assigned (the library of R292 serves disabled ones). -/
inductive Fate where
  | run (i : Instr)
  | emulate (c : Cause) (native : Option Instr)
  deriving DecidableEq, Repr

/-- Steps 2 to 5 of R72: unassigned, retired, disabled, reserved-field; the first that matches decides. -/
def decodeFate (e : Engine) (edis : W64) (ws : List W32) : Fate :=
  match decodeRaw e ws with
  | none => .emulate .undefined none
  | some (i, zeros) =>
    if i.retired then .run i
    else if i.disabledBy edis || (edis.getLsbD 0 && namesDm i (ws.getD 0 0)) then .emulate .disabled (some i)
    else if zeros && i.wf then .run i
    else .emulate .reservedField (some i)

/-- The instruction that an encoding of engine `e` is, where no class is disabled. -/
def decode (e : Engine) (ws : List W32) : Option Instr :=
  match decodeFate e 0 ws with
  | .run i => some i
  | .emulate _ _ => none

/-! ### The words of an image (R3: little-endian) and the table's numbering -/

/-- A word from its four bytes in memory order (R3). -/
def wordOfBytes (bs : List Byte) : W32 := BitVec.ofNat 32 (ofBytes (bs.take 4))

/-- The words that bytes hold, four bytes each; a short rest is dropped. -/
def wordsOfBytes : Nat → List Byte → List W32
  | 0, _ => []
  | n + 1, bs => if bs.length < 4 then [] else wordOfBytes bs :: wordsOfBytes n (bs.drop 4)

/-- Bit 0 of `w` is the least significant bit of the first word and later words count on (spec/opcode_table.json): the bytes
of the instruction as the image holds them, three words long, with every bit above `nbits` 0. -/
def tableBytes (nbits w : Nat) : List Byte := toBytes 12 (w % 2 ^ nbits)

/-- The first engine, in the order control core, lane group, matrix sequencer, copy, to which these bytes are an instruction
(the table numbers the rows of all four engines in one way, and a row does not name its engine). -/
def decodeAny (ws : List W32) : Option Instr :=
  (decode .cc ws).orElse fun _ => (decode .lane ws).orElse fun _ => (decode .matrix ws).orElse fun _ => decode .copy ws

/-- The instruction that the decoder reads from an instruction whose bits are `w`, numbered as the table numbers them. -/
def decodeTableWord (nbits w : Nat) : Option Instr := decodeAny (wordsOfBytes 3 (tableBytes nbits w))

/-! ### The encoder, from the formats of R59, R61, R63-R65 -/

/-- Class CR (R59). -/
def encCR (maj : BitVec 6) (d a b : BitVec 5) (minor : BitVec 11) : W32 := maj ++ d ++ a ++ b ++ minor
/-- Classes CI and CL, word 0 (R59). -/
def encCI (maj : BitVec 6) (d a : BitVec 5) (imm : BitVec 16) : W32 := maj ++ d ++ a ++ imm
/-- Class CB (R59). -/
def encCB (maj : BitVec 6) (a b : BitVec 5) (p : BitVec 12) (sl : BitVec 4) : W32 := maj ++ a ++ b ++ p ++ sl
/-- The memory word (R61, R63). -/
def encMem (m : MemW) : W32 := m.off ++ m.scope ++ m.space ++ m.hint
/-- Class CM (R59, R79). -/
def encCM (maj : BitVec 6) (d a b : BitVec 5) (fn ty : BitVec 4) (m : MemW) : List W32 :=
  [maj ++ d ++ a ++ b ++ fn ++ ty ++ (0 : BitVec 3), encMem m]
/-- Word 0 of a lane-group instruction (R61). -/
def encLane0 (op : BitVec 8) (f : LaneW) : W32 := op ++ f.vd ++ f.va ++ f.vb ++ f.vc
/-- Word 1 of a lane-group instruction (R61). -/
def encLane1 (f : LaneW) : W32 :=
  f.guard ++ f.neg ++ f.tokEn ++ f.tok ++ f.await ++ f.stage ++ f.ty ++ f.rnd ++ f.sat ++ f.kind ++ f.op3
/-- A 64-bit lane-group instruction (R61). -/
def encLane (op : BitVec 8) (f : LaneW) : List W32 := [encLane0 op f, encLane1 f]
/-- A lane memory instruction (R61). -/
def encLaneMem (op : BitVec 8) (f : LaneW) (m : MemW) : List W32 := [encLane0 op f, encLane1 f, encMem m]
/-- A matrix-sequencer instruction (R64). -/
def encMat (op : BitVec 8) (w : MatW) : List W32 :=
  [op ++ w.acc ++ w.ra ++ w.rb ++ w.fmt ++ w.bar ++ w.barEn ++ w.flags, w.tile ++ w.grp ++ w.sel ++ w.res ++ w.imm]
/-- Words 0 and 1 of a copy command (R65). -/
def encCopy (op : BitVec 8) (w : CopyW) : List W32 :=
  [op ++ w.tag ++ w.bar ++ w.barEn ++ w.scope ++ w.hint ++ w.res, w.off]

/-- The high nibble a float format's ops share (R80). -/
def FFmt.opBase : FFmt → BitVec 4
  | .f32 => 2 | .f16 => 3 | .bf16 => 4

/-- A float opcode (R80). -/
def encFloat (fm : FFmt) (n : BitVec 4) (f : LaneW) : List W32 := encLane (fm.opBase ++ n) f

/-- The engine and the words of an instruction; none for an operation or event, which has no encoding. -/
def encode : Instr → Option (Engine × List W32)
  | .nop => some (.cc, [0])
  | .add d a b => some (.cc, [encCR 1 d a b 0x001]) | .sub d a b => some (.cc, [encCR 1 d a b 0x002])
  | .mul d a b => some (.cc, [encCR 1 d a b 0x003]) | .mulh d a b => some (.cc, [encCR 1 d a b 0x004])
  | .mulhn d a b => some (.cc, [encCR 1 d a b 0x005]) | .div d a b => some (.cc, [encCR 1 d a b 0x006])
  | .divn d a b => some (.cc, [encCR 1 d a b 0x007]) | .rem d a b => some (.cc, [encCR 1 d a b 0x008])
  | .remn d a b => some (.cc, [encCR 1 d a b 0x009]) | .and d a b => some (.cc, [encCR 1 d a b 0x00A])
  | .or d a b => some (.cc, [encCR 1 d a b 0x00B]) | .xor d a b => some (.cc, [encCR 1 d a b 0x00C])
  | .shl d a b => some (.cc, [encCR 1 d a b 0x00D]) | .shr d a b => some (.cc, [encCR 1 d a b 0x00E])
  | .sra d a b => some (.cc, [encCR 1 d a b 0x00F]) | .min d a b => some (.cc, [encCR 1 d a b 0x010])
  | .max d a b => some (.cc, [encCR 1 d a b 0x011]) | .minn d a b => some (.cc, [encCR 1 d a b 0x012])
  | .maxn d a b => some (.cc, [encCR 1 d a b 0x013]) | .seq d a b => some (.cc, [encCR 1 d a b 0x014])
  | .sne d a b => some (.cc, [encCR 1 d a b 0x015]) | .slt d a b => some (.cc, [encCR 1 d a b 0x016])
  | .sltn d a b => some (.cc, [encCR 1 d a b 0x017]) | .clz d a => some (.cc, [encCR 1 d a 0 0x018])
  | .popc d a => some (.cc, [encCR 1 d a 0 0x019]) | .brev d a b => some (.cc, [encCR 1 d a b 0x01A])
  | .sel d a b c => some (.cc, [encCR 2 d a b (c ++ (0 : BitVec 6))])
  | .deal d a => some (.cc, [encCR 3 d a 0 0x001]) | .dset n a b => some (.cc, [encCR 3 n a b 0x002])
  | .spop d a c => some (.cc, [encCR 3 d a c 0x003]) | .speek d a c => some (.cc, [encCR 3 d a c 0x004])
  | .sgrp d a b => some (.cc, [encCR 3 d a b 0x005]) | .cancel d a b => some (.cc, [encCR 3 d a b 0x006])
  | .qstat d a => some (.cc, [encCR 3 d a 0 0x007]) | .spawn d a b => some (.cc, [encCR 3 d a b 0x010])
  | .exit => some (.cc, [encCR 3 0 0 0 0x011]) | .dqpush d a => some (.cc, [encCR 3 d a 0 0x012])
  | .dqpop d b => some (.cc, [encCR 3 d 0 b 0x013]) | .steal d a b => some (.cc, [encCR 3 d a b 0x014])
  | .yield d a b => some (.cc, [encCR 3 d a b 0x015]) | .mxgo d a => some (.cc, [encCR 3 d a 0 0x020])
  | .cpy a m => some (.cc, [encCR 3 0 a m 0x021]) | .cpcan d a => some (.cc, [encCR 3 d a 0 0x022])
  | .give d a b => some (.cc, [encCR 3 d a b 0x030]) | .claim d a b => some (.cc, [encCR 3 d a b 0x031])
  | .brk => some (.cc, [encCR 4 0 0 0 0x001]) | .eret => some (.cc, [encCR 4 0 0 0 0x002])
  | .emret a => some (.cc, [encCR 4 0 a 0 0x003]) | .ckpt d => some (.cc, [encCR 4 d 0 0 0x004])
  | .halt => some (.cc, [encCR 4 0 0 0 0x005])
  | .setseg t g a b => some (.cc, [encCR 4 ((0 : BitVec 2) ++ t ++ g) a b 0x006])
  | .lkbind d a b => some (.cc, [encCR 4 d a b 0x007])
  | .mfs d r => some (.cc, [encCI 5 d 0 r]) | .mts a r => some (.cc, [encCI 6 0 a r]) | .trap i => some (.cc, [encCI 7 0 0 i])
  | .fence k a sc => some (.cc, [encCR 8 k a 0 (sc ++ (0x01 : BitVec 8))])
  | .bari n a sc => some (.cc, [encCR 8 n a 0 (sc ++ (0x02 : BitVec 8))])
  | .bara n a sc => some (.cc, [encCR 8 n a 0 (sc ++ (0x03 : BitVec 8))])
  | .barw n sc => some (.cc, [encCR 8 n 0 0 (sc ++ (0x04 : BitVec 8))])
  | .lkacq d a => some (.cc, [encCR 8 d a 0 0x305]) | .lkrel a => some (.cc, [encCR 8 0 a 0 0x306])
  | .cellq d a => some (.cc, [encCR 8 d a 0 0x307])
  | .addi d a i => some (.cc, [encCI 0x10 d a i]) | .andi d a i => some (.cc, [encCI 0x11 d a i])
  | .ori d a i => some (.cc, [encCI 0x12 d a i]) | .xori d a i => some (.cc, [encCI 0x13 d a i])
  | .slti d a i => some (.cc, [encCI 0x14 d a i])
  | .shli d a s => some (.cc, [encCI 0x15 d a ((0 : BitVec 10) ++ s)])
  | .shri d a s => some (.cc, [encCI 0x16 d a ((0 : BitVec 10) ++ s)])
  | .srai d a s => some (.cc, [encCI 0x17 d a ((0 : BitVec 10) ++ s)])
  | .bfx d a x wd p => some (.cc, [encCI 0x18 d a ((0 : BitVec 3) ++ x ++ wd ++ p)])
  | .bfi d a wd p => some (.cc, [encCI 0x19 d a ((0 : BitVec 4) ++ wd ++ p)])
  | .jalr d a i => some (.cc, [encCI 0x1A d a i]) | .jr a i => some (.cc, [encCI 0x1B 0 a i])
  | .jtab t i n => some (.cc, [encCI 0x1C t i n])
  | .bz a p sl => some (.cc, [encCB 0x20 a 0 p sl]) | .bnz a p sl => some (.cc, [encCB 0x21 a 0 p sl])
  | .beq a b p sl => some (.cc, [encCB 0x22 a b p sl]) | .bne a b p sl => some (.cc, [encCB 0x23 a b p sl])
  | .blt a b p sl => some (.cc, [encCB 0x24 a b p sl]) | .bge a b p sl => some (.cc, [encCB 0x25 a b p sl])
  | .bltn a b p sl => some (.cc, [encCB 0x26 a b p sl]) | .bgen a b p sl => some (.cc, [encCB 0x27 a b p sl])
  | .j p sl => some (.cc, [(0x28 : BitVec 6) ++ p ++ sl]) | .jal d p sl => some (.cc, [(0x29 : BitVec 6) ++ d ++ p ++ sl])
  | .loopz a b p sl => some (.cc, [encCB 0x2A a b p sl])
  | .li d imm => some (.cc, [encCI 0x30 d 0 (imm.extractLsb' 0 16), imm.extractLsb' 16 32])
  | .addpc d imm => some (.cc, [encCI 0x31 d 0 (imm.extractLsb' 0 16), imm.extractLsb' 16 32])
  | .ld d a ty m => some (.cc, encCM 0x38 d a 0 0 ty m) | .st a b ty m => some (.cc, encCM 0x39 0 a b 0 ty m)
  | .lda d a ty m => some (.cc, encCM 0x3A d a 0 0 ty m) | .stl a b ty m => some (.cc, encCM 0x3B 0 a b 0 ty m)
  | .amo fn ty d a b m => some (.cc, encCM 0x3C d a b fn ty m) | .pfx a m => some (.cc, encCM 0x3D 0 a 0 0 0 m)
  | .susp d a b m => some (.cc, encCM 0x3E d a b 0 0 m) | .rslv d a b m => some (.cc, encCM 0x3F d a b 0 0 m)
  | .laneNop n => some (.lane, [(0 : BitVec 26) ++ n])
  | .vadd f => some (.lane, encLane 0x01 f) | .vsub f => some (.lane, encLane 0x02 f) | .vmul f => some (.lane, encLane 0x03 f)
  | .vmulh f => some (.lane, encLane 0x04 f) | .vmad f => some (.lane, encLane 0x05 f) | .vand f => some (.lane, encLane 0x06 f)
  | .vor f => some (.lane, encLane 0x07 f) | .vxor f => some (.lane, encLane 0x08 f) | .vshl f => some (.lane, encLane 0x09 f)
  | .vshr f => some (.lane, encLane 0x0A f) | .vsra f => some (.lane, encLane 0x0B f) | .vmin f => some (.lane, encLane 0x0C f)
  | .vmax f => some (.lane, encLane 0x0D f) | .vabs f => some (.lane, encLane 0x0E f) | .vneg f => some (.lane, encLane 0x0F f)
  | .vclz f => some (.lane, encLane 0x10 f) | .vpopc f => some (.lane, encLane 0x11 f) | .vsel f => some (.lane, encLane 0x12 f)
  | .vmov f => some (.lane, encLane 0x13 f) | .viota f => some (.lane, encLane 0x14 f) | .vcmp f => some (.lane, encLane 0x15 f)
  | .vavg f => some (.lane, encLane 0x16 f) | .vsad f => some (.lane, encLane 0x17 f)
  | .vli f imm => some (.lane, [encLane0 0xC8 f, encLane1 f, imm])
  | .fadd fm f => some (.lane, encFloat fm 0 f) | .fsub fm f => some (.lane, encFloat fm 1 f)
  | .fmul fm f => some (.lane, encFloat fm 2 f) | .ffma fm f => some (.lane, encFloat fm 3 f)
  | .fmin fm f => some (.lane, encFloat fm 4 f) | .fmax fm f => some (.lane, encFloat fm 5 f)
  | .fabs fm f => some (.lane, encFloat fm 6 f) | .fneg fm f => some (.lane, encFloat fm 7 f)
  | .frcp fm f => some (.lane, encFloat fm 8 f) | .frsq fm f => some (.lane, encFloat fm 9 f)
  | .fexp2 fm f => some (.lane, encFloat fm 0xA f) | .flog2 fm f => some (.lane, encFloat fm 0xB f)
  | .fcmp fm f => some (.lane, encFloat fm 0xC f) | .frcpa f => some (.lane, encLane 0x2D f)
  | .vcvt f => some (.lane, encLane 0x50 f) | .vhist f => some (.lane, encLane 0x51 f) | .vqnt f => some (.lane, encLane 0x52 f)
  | .vdq f => some (.lane, encLane 0x53 f) | .rrot f => some (.lane, encLane 0x60 f) | .crot f => some (.lane, encLane 0x61 f)
  | .rbc f => some (.lane, encLane 0x62 f) | .cbc f => some (.lane, encLane 0x63 f) | .rred f => some (.lane, encLane 0x64 f)
  | .cred f => some (.lane, encLane 0x65 f) | .rprm f => some (.lane, encLane 0x66 f) | .trn16 f => some (.lane, encLane 0x67 f)
  | .vshuf f => some (.lane, encLane 0x68 f) | .mand f => some (.lane, encLane 0x70 f) | .mor f => some (.lane, encLane 0x71 f)
  | .mxor f => some (.lane, encLane 0x72 f) | .mnot f => some (.lane, encLane 0x73 f) | .mcnt f => some (.lane, encLane 0x74 f)
  | .mrow f => some (.lane, encLane 0x75 f) | .show f => some (.lane, encLane 0x80 f) | .showx f => some (.lane, encLane 0x81 f)
  | .vfence f => some (.lane, encLane 0x82 f) | .laneBari f => some (.lane, encLane 0x83 f)
  | .laneBara f => some (.lane, encLane 0x84 f) | .laneBarw f => some (.lane, encLane 0x85 f)
  | .plk f => some (.lane, encLane 0x86 f) | .ptag f => some (.lane, encLane 0x87 f) | .pinv f => some (.lane, encLane 0x88 f)
  | .vld f m => some (.lane, encLaneMem 0xC0 f m) | .vst f m => some (.lane, encLaneMem 0xC1 f m)
  | .vldt f m => some (.lane, encLaneMem 0xC2 f m) | .vstt f m => some (.lane, encLaneMem 0xC3 f m)
  | .vatom f m => some (.lane, encLaneMem 0xC4 f m) | .vcas f m => some (.lane, encLaneMem 0xC5 f m)
  | .pld f m => some (.lane, encLaneMem 0xC6 f m) | .pst f m => some (.lane, encLaneMem 0xC7 f m)
  | .vldb f m => some (.lane, encLaneMem 0xC9 f m)
  | .matrixNop => some (.matrix, [0])
  | .mma w => some (.matrix, encMat 0x01 w) | .mmas w => some (.matrix, encMat 0x02 w) | .mzero w => some (.matrix, encMat 0x03 w)
  | .mldc w => some (.matrix, encMat 0x04 w) | .mstc w => some (.matrix, encMat 0x05 w) | .rinit w => some (.matrix, encMat 0x06 w)
  | .tadv w => some (.matrix, encMat 0x07 w) | .hadv w => some (.matrix, encMat 0x08 w) | .gath w => some (.matrix, encMat 0x09 w)
  | .matrixBara w => some (.matrix, encMat 0x0A w) | .matrixBarw w => some (.matrix, encMat 0x0B w)
  | .mend w => some (.matrix, encMat 0x0C w) | .mmat w => some (.matrix, encMat 0x0D w)
  | .copyNop => some (.copy, [0])
  | .cpG2p w => some (.copy, encCopy 0x01 w) | .cpP2g w => some (.copy, encCopy 0x02 w) | .cpG2g w => some (.copy, encCopy 0x03 w)
  | .cpP2p w => some (.copy, encCopy 0x04 w) | .cpG2l w => some (.copy, encCopy 0x06 w)
  | .cpFill w imm => some (.copy, encCopy 0x80 w ++ [imm]) | .cpRows w imm => some (.copy, encCopy 0x81 w ++ [imm])
  | .cpToring w imm => some (.copy, encCopy 0x82 w ++ [imm]) | .cpReduce w imm => some (.copy, encCopy 0x83 w ++ [imm])
  | _ => none

end Sys2Proof
end

