-- ==== Sys2Proof/Machine/State.lean ====
section
/-! DEFINITION. The state of the whole device as plain data, and the state after reset. Every structure names the rules of
spec/ that give its fields; reset values that the manual does not give are in the assumption log. -/

namespace Sys2Proof.Machine

/-- Why the model stops with a fault: never. Every fault of the manual is taken as R335 describes it and answers a next state. -/
inductive Fault where
  deriving DecidableEq, Repr

/-- Why the model refuses an instruction. -/
inductive Refusal where
  /-- the instruction has no meaning yet; raised by an arm of `exec` only (safe) -/
  | notModelled (mnemonic : String)
  deriving DecidableEq, Repr

/-- The fault codes of R339, in its order. -/
inductive FaultCode where
  | badTarget | imageLink | chainEnd | dealFormat | dealTarget | dealBlock | blockBudget | blockFormat | tileRange | jumpRange
  | groupRange | groupBusy | sgrpFormat | weightEmpty | stealRange | addrForm | align | spaceReach | nodeAbsent | handOwner
  | barClobber | dequeClobber | segLimit | pageAbsent | pagePerm | pteFormat | poison | slotRange | fpxTrap | barUninit
  | barOver | cellFailed | selfDep | evalDepth | cellBusy | cellFormat | lockRange | lockHeld | lockOwner | lockFormat
  | accRange | ringUninit | ringShape | ringOver | ringBusy | scaleSrc | gatherRange | copyFormat | copyFault | priv
  | emuState | trap | break_ | step | emuDepth | emuUnhandled | emuTable | emuSave | emuHelper | codeHash
  | fetchPoison | weightReturn | dieOffline | regEcc | undoOverflow | rollback | cellWrite
  deriving DecidableEq, Repr

/-- The classes of R335. -/
inductive Class where
  | t | g | d | m | c | r | f | i
  deriving DecidableEq, Repr

/-- A segment register (R117). -/
structure Seg where
  base  : W64
  limit : BitVec 53
  pol   : BitVec 2
  deriving DecidableEq, Repr

/-- A segment register that admits no access (R117: a limit of 0). -/
def Seg.none : Seg := ⟨0, 0, 0⟩

/-- The contents of one tile of 16 rows of 64 elements, element (row, col) at 64·row + col; a missing element is 0 (R25). -/
abbrev Tile := List W32
/-- A mask register of 16 rows of 64 bits, bit 64·row + col (R31). -/
abbrev Mask := BitVec 1024

/-- What an emulation cause holds of the entry that met it (R292-R295). -/
structure CauseRec where
  cause  : Cause
  engine : Engine
  words  : List W32
  native : Option Instr
  /-- the code address of the entry, and its image -/
  pc     : Nat
  img    : Nat
  /-- the group index for a lane cause; the entry is the group's helper deal -/
  group  : Option Nat
  helper : Bool
  /-- for a copy cause, the number of its chain (0 for a direct command) and the address of its argument record -/
  copy   : Nat
  arg    : W64 := 0
  /-- the depth of the handler whose helper deal it is (R299) -/
  level  : Nat := 0
  deriving DecidableEq, Repr

/-- A deal in a queue (R27, R29, R31). -/
structure Deal where
  w0 : W64
  w1 : W64
  w2 : W64
  w3 : W64
  d  : List W64
  seq : BitVec 32
  cancelled : Bool
  /-- the image of the thread that dealt it, whose block table the index names (R27, R296) -/
  img : Nat
  deriving DecidableEq, Repr

/-- A show: its eight 64-bit words (R38). -/
abbrev Show := List W64

/-- A block descriptor (R53). -/
structure Block where
  entry  : Nat
  stages : Nat
  rotSize : Nat
  rotBase : Nat
  budget : Nat
  win    : Bool
  bad    : Bool
  deriving DecidableEq, Repr

/-- The deal a group runs (R33, R34, R344, R291). `pc` is the place in the body; `started` is R40's. -/
structure Run where
  deal    : Deal
  blk     : Block
  k       : Nat
  inj     : Nat
  trip    : Nat
  s       : BitVec 8
  rot     : Nat
  pc      : Nat
  idx     : Nat
  stopped : Bool
  /-- injects no more because a pre-emption drains it (R45, R344) -/
  pre     : Bool
  started : Bool
  shows   : Nat
  m0      : BitVec 64
  d       : List W64
  gseg    : Seg
  pseg    : Seg
  kseg    : Seg
  lseg    : Seg
  edis    : W64
  deriving DecidableEq, Repr

/-- Where a result lands: a physical tile of the hand (by its key), a mask register, or a window of the helper block: a
tile of the shadow, a quarter of the accumulator's shadow, a chunk of a ring's head slot, EMASK (R36, R295). -/
inductive Dst where
  | tile (key : Nat)
  | mask (n : Nat)
  | shadow (hi : Bool)
  | shadowQ (q : Nat)
  | chunk (b : Bool) (j : Nat)
  | emask
  | nowhere
  deriving DecidableEq, Repr

/-- A result that is not yet visible, or an entry of the landing buffer, where `vis` counts from the frozen position
(R36, R341). -/
structure Pending where
  vis  : Nat
  prod : Nat
  dst  : Dst
  act  : Mask
  data : Tile
  bits : Mask
  flags : BitVec 6
  deriving DecidableEq, Repr

/-- What one element of a lane memory instruction does (R225, R231-R233). -/
inductive ElemOp where
  | load (w : Nat) (signed : Bool)
  | store (w : Nat) (v : W64)
  | atomic (fn w : Nat) (b c : W64)
  deriving DecidableEq, Repr

/-- The place a checked access names: a device physical address, a host address, a scratchpad byte, a peer's address, a
unit of the bin window. -/
inductive Tgt where
  | dev (pa : Nat)
  | host (a : Nat)
  | scratch (h o : Nat)
  | peer (dev a : Nat)
  | bin (d b : Nat)
  deriving DecidableEq, Repr

/-- One element's access: its position 64·row + col, its address and what it names, its operation, whether it waits for a
suspended cell, and the value that the cell's resolution gave it (R248, R251). -/
structure Elem where
  pos  : Nat
  addr : W64
  tgt  : Tgt
  op   : ElemOp
  wait : Bool
  val  : Option (List Byte)
  /-- the cell failed while it waited: the cause and the record's sequence number (R170) -/
  failed : Option (Nat × Nat) := none
  deriving DecidableEq, Repr

/-- An outstanding operation of a group: a memory instruction, or a show waiting to enter the queue (R223, R226). -/
structure Outst where
  tok   : Option Nat
  elems : List Elem
  /-- the destination tile, or the low and the high tile of a pair -/
  dest  : List Dst
  space : Nat
  scope : Nat
  hint  : Nat
  show_ : Option Show
  /-- it belongs to the group's helper deal (R296) -/
  helper : Bool
  /-- the code address, iteration and body index of the instruction (R227) -/
  pc    : Nat
  k     : Nat
  ins   : Nat
  seq   : Nat
  /-- the step at which it was issued (R139) -/
  at_   : Nat
  /-- the poison policy of its space is FAULT (R143) -/
  fault : Bool
  done  : Bool
  /-- a deferred fault: code, address, details 1 and 2 (R227) -/
  bad   : Option (FaultCode × W64 × W64 × W64)
  deriving DecidableEq, Repr

/-- The states of a group index (R182). -/
inductive GState where
  | unset | live | closing | closed
  deriving DecidableEq, Repr

/-- The helper side of a group: the running helper deal, the helper queues and D registers (R296). -/
structure HelperSide where
  run   : Option Run
  queue : List Deal
  shows : List Show
  next  : BitVec 32
  d     : List W64
  pend  : List Pending
  deriving DecidableEq, Repr

/-- A group (R23, R25, R29, R31, R33, R36-R39, R43, R111, R117, R183, R340-R342). -/
structure Group where
  state   : GState
  lg      : Nat
  units   : List Nat
  swapThr : BitVec 16
  queue   : List Deal
  nextSeq : BitVec 32
  lastRet : BitVec 32
  shows   : List Show
  pendD   : List W64
  m       : List Mask
  w       : List Nat
  fpx     : BitVec 6
  run     : Option Run
  pos     : Nat
  pend    : List Pending
  landing : List Pending
  outst   : List Outst
  frozen  : Bool
  hrun    : Option Run
  hqueue  : List Deal
  hshows  : List Show
  hnext   : BitVec 32
  hd      : List W64
  gseg    : Seg
  pseg    : Seg
  kseg    : Seg
  lseg    : Seg
  arrival : Map (BitVec 32)
  /-- the barrier, scope and phase of a waiting BARW (R245) -/
  waitBar : Option (Nat × Nat × BitVec 32)
  preempt : Bool
  parked  : Bool
  /-- a debug step lets it issue one position (R356) -/
  stepping : Bool
  deriving DecidableEq, Repr

/-- A store that has retired and not performed (R228, R155): its address, what it names after its checks, and its bytes. -/
structure Store where
  space : Nat
  scope : Nat
  hint  : Nat
  va    : W64
  tgt   : Tgt
  data  : List Byte
  /-- the image and code address of the store (R338) -/
  img   : Nat
  pc    : Nat
  deriving DecidableEq, Repr

/-- What a thread waits for (R347; R29, R39, R199, R245, R255, R248, R274). -/
inductive Wait where
  | none
  | deal (d a : R5)
  | spop (d a c : R5)
  /-- barrier, scope, the phase that must change -/
  | barw (n sc : Nat) (p : BitVec 32)
  /-- the continuation, X[b], the barrier's phase, and what remains of the limit in clk -/
  | yield (d : R5) (cont : Nat) (b : W64) (phase : BitVec 32) (left : Nat)
  | lkacq (d : R5) (lk : Nat)
  | park
  | cell (pa : Nat)
  /-- the sector that the load waited on has its value: the 32 bytes (R251) -/
  | cellDone (pa : Nat) (bs : List Byte)
  /-- the sector that the load waited on has failed: the cause and the record's sequence number (R170) -/
  | cellFailed (pa cause seq : Nat)
  | cpy
  | emret
  | exited
  deriving DecidableEq, Repr

/-- A copy fault that its thread has not received yet (R278). -/
structure CopyFault where
  code : Nat
  seq  : W64
  deriving DecidableEq, Repr

/-- The windows of one handler level: the shadow of the destination (for a matrix cause the 4096 elements of the
accumulator in `lo`), EMASK, the keys of the physical tiles that a, b and c name (R295), the address windows of a memory
form, the destinations of the merge, the accumulator and rings of a matrix cause, and the helper side of the group that
a nested handler sets aside. -/
structure Window where
  cause : CauseRec
  lo    : Tile
  hi    : Tile
  emask : Mask
  ta    : List Nat
  tb    : List Nat
  tc    : List Nat
  addrLo : Tile
  addrHi : Tile
  dst   : List Dst
  acc   : Nat
  ra    : Nat
  rb    : Nat
  outer : Option HelperSide
  /-- EGRP of the level (R296) -/
  egrp  : W64 := 0xFF
  /-- the group indices that EGRP has named: their helper deals belong to the level (R296, R297, R299) -/
  groups : List Nat := []
  /-- where the thread goes on after a cause of another engine: its place and what it waited for -/
  backImg : Nat
  backPc  : Nat
  back  : Wait
  deriving DecidableEq, Repr

/-- A control thread (R22, R60, R111, R113, R117, R172, R199, R228, R245, R255, R278, R287-R299, R317, R347). -/
structure Thread where
  x       : Vector W64 32
  img     : Nat
  pc      : Nat
  hw      : Nat
  wait    : Wait
  fpx     : BitVec 6
  fpxmask : BitVec 6
  gseg    : Seg
  pseg    : Seg
  kseg    : Seg
  lseg    : Seg
  esave   : W64
  depth   : Nat
  epc     : W64
  eopc    : W64
  einfo   : W64
  exa     : W64
  exb     : W64
  exd     : W64
  egrp    : W64
  windows : List Window
  causes  : List CauseRec
  buffer  : List Store
  arrival : Map (BitVec 32)
  holds   : Map (BitVec 32)
  copyFaults : List CopyFault
  stepping : Bool
  preempt : Bool
  /-- its step stop stays pending behind an earlier event of R336's order -/
  stepDue : Bool := false
  /-- the wait state in which a pre-emption stopped it (R347) -/
  was     : Nat := 0
  /-- the threads whose turn must have come before a YIELD without barrier and limit ends (R199) -/
  yields : List ThreadRef := []
  /-- its first fetch is still to come, which checks ENTRY (R51) -/
  entering : Bool := false
  deriving DecidableEq, Repr

/-- A barrier (R241). -/
structure Barrier where
  arrivals : BitVec 16
  expected : BitVec 16
  phase    : BitVec 32
  pending  : W64
  deriving DecidableEq, Repr

/-- A ring descriptor (R260). -/
structure Ring where
  valid : Bool
  base  : Nat
  z     : Nat
  n     : Nat
  h     : BitVec 32
  t     : BitVec 32
  deriving DecidableEq, Repr

/-- An MMA or MMAS that has issued and not retired (R266). -/
structure Mma where
  acc   : Nat
  data  : List W32
  flags : BitVec 6
  pops  : List (Nat × Nat)
  deriving DecidableEq, Repr

/-- The fault of a failed GATH, which waits for its stream: its code, address and details, the ring, and the place of the GATH (R267). -/
structure GathFault where
  code : FaultCode
  addr : W64
  d1   : W64
  d2   : W64
  ring : Nat
  img  : Nat
  pc   : Nat
  deriving DecidableEq, Repr

/-- A team's matrix stream (R24, R190, R258, R272). -/
structure Stream where
  running : Bool
  stopped : Bool
  img     : Nat
  pc      : Nat
  fpx     : BitVec 6
  owner   : Nat
  edis    : W64
  arrival : Map (BitVec 32)
  waitBar : Option (Nat × Nat × BitVec 32)
  /-- the ring and count of a waiting HADV (R262) -/
  waitHadv : Option (Nat × Nat)
  mma     : Option Mma
  /-- the faults of failed GATHs, oldest first (R267) -/
  gathFaults : List GathFault
  deriving DecidableEq, Repr

/-- One role's part of a launch record: pool units and bindings (R54), and the units that are free now (R25). -/
structure Role where
  free : List (List Nat)
  bind : List Nat
  deriving DecidableEq, Repr

/-- An entry of the tag table: valid, dirty, key (R125). -/
structure TagEntry where
  valid : Bool
  dirty : Bool
  key   : Nat
  deriving DecidableEq, Repr

/-- A team (R21-R25, R125, R193, R195, R240, R241, R249, R258, R260, R263, R285, R317, R320, R324). -/
structure Team where
  ctx     : Nat
  launch  : Nat
  img     : Nat
  teamNo  : BitVec 32
  gridpos : W64
  wgt     : W64
  wroot   : W64
  roles   : Map Role
  accBudget : Nat
  tph     : Nat
  gang    : Bool
  bars    : Map Barrier
  tagCfg  : W64
  ttop    : W64
  ttres   : W64
  rgop    : W64
  rgres   : W64
  tags    : Map TagEntry
  rings   : Map Ring
  stream  : Stream
  acc     : Map (List W32)
  /-- the cells under evaluation, oldest first: physical and virtual sector address (R249, R285) -/
  evstack : List (Nat × Nat)
  ending  : Bool
  signals : List (W64 × W64)
  /-- the team of the last record of an OPCHAIN (R324) -/
  lastRec : Bool
  /-- a bin team's batch: die, bin and its first record, whose slots it frees at its end (R332) -/
  batch   : Option (Nat × Nat × Nat)
  lastRole : Nat
  spawned : Bool
  resolved : Bool
  /-- what it started with, for a restart: entry, X1 to X4, WGT (R317, R373) -/
  entry : Nat
  startX : List W64
  startWgt : W64
  sliceLeft : Nat
  /-- an expired time slice has stopped it (R320) -/
  slicing : Bool := false
  /-- the lines of instructions in work that have left the instruction memories, by image and line (R50) -/
  kept : Map (List Byte) := []
  deriving DecidableEq, Repr

/-- A copy chain: the code address of its next command, whether a first line is still to be checked for ENTRY, and whether
an emulation cause of its command waits (R51, R73, R191, R274). -/
structure Chain where
  pc     : Nat
  fresh  : Bool
  caused : Bool
  deriving DecidableEq, Repr

/-- A copy command or chain of a hand's near or bulk queue (R191, R274-R280). `cmd` is the command, a chain's current one,
`ord` the order of its issue, `rows` the source and destination of each row, `pos` the pieces written so far. -/
structure Copy where
  id    : Nat
  slot  : Nat
  role  : Nat
  ctx   : Nat
  img   : Nat
  pc    : Nat
  cmd   : Option Instr
  arg   : W64
  chain : Option Chain
  edis  : W64
  /-- the argument record has been read and checked -/
  issued : Bool
  ord   : Nat
  rows  : List (W64 × W64)
  rowB  : Nat
  pos   : Nat
  /-- the lines of device memory that it owns from its issue and has not written (R161) -/
  owned : List Nat
  /-- the poisoned source units of which it has logged a record: space and unit (R144) -/
  logged : List (Nat × Nat)
  /-- every write has performed -/
  performed : Bool
  cancelled : Bool
  /-- the fault that stops it: code, address, details -/
  bad   : Option (FaultCode × W64 × W64 × W64)
  deriving DecidableEq, Repr

/-- A GATH that the gather unit has accepted, with its place, and its record once it has been read: each byte, and whether it is
poisoned (R267). -/
structure Gather where
  slot : Nat
  ring : Nat
  fmt  : Nat
  off  : Nat
  img  : Nat
  pc   : Nat
  record : Option (List (Byte × Bool)) := none
  deriving DecidableEq, Repr

/-- A TLB entry (R133). -/
structure Tlb where
  pasid : Nat
  va    : Nat
  size  : Nat
  pa    : Nat
  host  : Bool
  r     : Bool
  w     : Bool
  x     : Bool
  deriving DecidableEq, Repr

/-- A shadow bank: written registers, ARM, and what the record's GO leaves for the team (R323, R324). -/
structure Bank where
  regs  : Map W64
  armed : Bool
  launch : Nat
  sigs  : List (W64 × W64)
  lastRec : Bool
  deriving DecidableEq, Repr

/-- A hand (R11, R12, R41, R123, R133, R196, R267, R274, R316, R318, R319, R323, R328). -/
structure Hand where
  tenant  : Nat
  scratch : List Host.Cell
  scratchPoison : List Nat
  deque   : List (Nat × List W64)
  imem    : Map (List Byte)
  tiles   : Map Tile
  active  : List GroupRef
  near    : List Copy
  bulk    : List Copy
  gather  : List Gather
  mailbox : Map (List W64)
  banks   : Map Bank
  tlb     : List Tlb
  /-- the map under which the lines of an image were relocated, by context and image (R58) -/
  maps    : Map (List Byte)
  /-- the images of its instruction memories, the one loaded first before the others (R318) -/
  loaded  : List Nat
  /-- the thread that had the last turn, the place of each lane group's active set after the group that had it, and the slot of the stream
  whose MMA had it (R41, R46, R258) -/
  lastThread : Nat
  lastLane : Map Nat
  lastMma : Option Nat
  /-- the pending groups that are ready, the one ready longest first (R42) -/
  ready   : List GroupRef
  deriving DecidableEq, Repr

/-- A line copy in a cache: its 128 bytes, its dirty mask (R127), the context whose bytes are dirty (R352), the poison marks of
its two 64-byte units (R142), whether a hint keeps it (R130), and its place in the order in which its set was filled. -/
structure CLine where
  data  : List Byte
  dirty : BitVec 128
  ctx   : Nat
  marks : BitVec 2
  keep  : Bool
  age   : Nat
  deriving DecidableEq, Repr

/-- A line that a slice of its home die holds: its bytes are the home's (R127, R131). -/
structure HLine where
  keep : Bool
  age  : Nat
  deriving DecidableEq, Repr

/-- A granule of write ownership: sub-page owners, the sub-pages written since the grant, and the order of the grant
(R138, R139). -/
structure Granule where
  owned  : Bool
  owner  : Nat
  sub    : Map Nat
  wrote  : List Nat
  order  : Nat
  deriving DecidableEq, Repr

/-- An image loaded in a context: its base, and the header fields once the loader has read them (R48, R52). -/
structure Image where
  base  : W64
  lines : Nat
  blockFirst : Nat
  blockCount : Nat
  relocFirst : Nat
  relocCount : Nat
  teamEntry  : Nat
  launchRec  : Nat
  manifest   : Nat
  constFirst : Nat
  releasing  : Bool
  deriving DecidableEq, Repr

/-- What a context holds on a hand: its PSEG ranges, the keys of its teams' tiles, the scratchpad bytes and poison marks, tiles, deque
records and copies (R345, R355). -/
structure HandPart where
  ranges  : List Seg
  units   : List Nat
  scratch : List Host.Cell
  marks   : List Nat
  tiles   : Map Tile
  deque   : List (Nat × List W64)
  near    : List Copy
  bulk    : List Copy
  deriving DecidableEq, Repr

/-- An entry of the undo log: unit address, poisoned, old contents, tags (R352). -/
structure Undo where
  unit : Nat
  poisoned : Bool
  old  : List Byte
  tags : List (BitVec 2)
  deriving DecidableEq, Repr

/-- A record that stops an agent and that the driver has not answered (R337). -/
structure Unresolved where
  seq   : Nat
  code  : FaultCode
  cls   : Class
  agent : Agent
  /-- a team whose stream discards the record at its next MXGO -/
  dropped : Bool
  deriving DecidableEq, Repr

/-- A parked request: the agent, the address, whether a page request (else a die) is awaited, and whether it is a fetch
(R347, R350, R374). -/
structure Parked where
  agent : Agent
  ctx   : Nat
  va    : W64
  die   : Option Nat
  fetch : Bool := false
  /-- its page request has been sent (R350) -/
  sent  : Bool := true
  deriving DecidableEq, Repr

/-- A launch: its packet bytes as read, the template that supplies start state, and its live teams (R313-R321). -/
structure Launch where
  queue  : Nat
  slot   : Nat
  seq    : Nat
  compl  : Bool
  ctx    : Nat
  img    : Nat
  arg    : W64
  user   : W64
  gx     : Nat
  gy     : Nat
  gz     : Nat
  tph    : Nat
  gang   : Bool
  priv   : Bool
  failover : Bool
  pageReq : Bool
  chain  : Bool
  map    : List Byte
  wroot  : W64
  eht    : W64
  esave  : W64
  cklog  : W64
  undoBase : W64
  gseg   : Seg
  kseg   : Seg
  pseg   : Seg
  privBase : W64
  privSize : BitVec 53
  privPol : BitVec 2
  slice  : Nat
  lrec   : List Byte
  nextTeam : Nat
  streamFlag : Bool
  /-- the record of a SIGNAL step whose store failed (R326) -/
  sigFault : Option Nat
  started : Bool
  /-- the team of an OPCHAIN's last record has ended (R324) -/
  lastDone : Bool
  /-- the completion record has been posted, or none is due -/
  posted : Bool
  /-- the launches whose records a bin's team works on (R321) -/
  parents : List Nat
  deriving DecidableEq, Repr

/-- What a waiting team is and where it may be placed (R194, R249, R316, R332, R333). -/
structure Waiting where
  launch : Nat
  ctx    : Nat
  img    : Nat
  entry  : Nat
  x      : List W64
  teamNo : Option Nat
  gridpos : W64
  wgt    : W64
  wroot  : W64
  evstack : List (Nat × Nat)
  hands  : List Nat
  batch  : Option (Nat × Nat × Nat)
  gang   : Bool
  /-- the number under which a pre-empted team that waits again is kept (R320) -/
  out    : Option Nat
  /-- the SIGNAL steps of an operator's record, and whether it is its packet's last (R324) -/
  signals : List (W64 × W64) := []
  lastRec : Bool := false
  deriving DecidableEq, Repr

/-- A checkpoint's saved agents (R290): the teams, threads and groups of the context, what it holds on its hands, its launches, waiting
teams and evaluations, unresolved records and parked requests. -/
structure Saved where
  teams   : Map Team
  threads : Map Thread
  groups  : Map Group
  hands   : Map HandPart
  launches : Map Launch
  waiting : List Waiting
  evals   : List Waiting
  unresolved : List Unresolved
  parked  : List Parked
  deriving DecidableEq, Repr

/-- A context (R83, R133, R254, R282, R287, R290, R313, R337, R345, R349-R354). -/
structure Ctx where
  privileged : Bool
  ended   : Bool
  pageReq : Bool
  failover : Bool
  images  : Map Image
  locks   : List Nat
  eht     : W64
  edis    : W64
  depcnt  : W64
  deplim  : W64
  ckptValid : Bool
  ckptCount : Nat
  rolledBack : Bool
  cklog   : W64
  undoBase : W64
  undo    : List Undo
  undoBytes : Nat
  saved   : Option Saved
  ptroot  : W64
  unresolved : List Unresolved
  parked  : List Parked
  priBlocked : Bool
  /-- agents and addresses whose page request was refused: the access, made again, faults (R350) -/
  denied : List (Agent × Nat)
  /-- the hands that a context switch has taken the context off (R345) -/
  out     : Option (List Nat)
  /-- a rollback has stopped it and its checkpoint's state is still to return: the causing record (R354) -/
  restoring : Option Nat := none
  deriving DecidableEq, Repr

/-- A lock (R254-R257): holder, queue, hold count, bound ranges with physical addresses. -/
structure Lock where
  holder : Option ThreadRef
  queue  : List ThreadRef
  count  : BitVec 32
  bind   : List (Tgt × Nat × Nat)
  deriving DecidableEq, Repr

/-- A bin (R330-R332): records entered and taken so far, the batches whose slots are not yet freed (first record and count,
oldest first), whether its timer runs, the context of its last writer, and the launch that wrote each record not yet taken
(none for a NODE packet). -/
structure Bin where
  entered : Nat
  taken   : Nat
  batches : List (Nat × Nat)
  timer   : Bool
  ctx     : Nat
  writers : List (Option Nat)
  deriving DecidableEq, Repr

/-- The reset states of a die (R369). -/
inductive DieState where
  | online | quiescing | drained | resetting | retraining | readmitting
  deriving DecidableEq, Repr

/-- A compute die (R13, R254, R329-R331, R369-R373, R376, R382-R384). -/
structure Die where
  state  : DieState
  epoch  : Nat
  tlb    : List Tlb
  bins   : Map Bin
  binBase : W64
  slots  : List Nat
  slotLen : Nat
  slot   : Nat
  newSlots : Option (List Nat)
  acks   : List Nat
  joined : Bool
  route  : List Nat
  held   : List (Nat × CLine)
  leftAt : Nat
  clkPlan : Nat
  fclkPlan : Nat
  clkPow : Nat
  fclkPow : Nat
  /-- what temperature allows, and the sensors last sampled at 100 °C or more (R384) -/
  clkHot : Nat
  fclkHot : Nat
  railMv : Nat
  hot    : List Nat
  stretched : Nat
  /-- the corrected errors of each level, and of each pseudo-channel (R142, R375) -/
  corrected : Map Nat
  /-- teams that restart or return after OPEN (R373) -/
  restart : List Waiting
  /-- gang launches whose teams on other dies are being switched out for its reset (R373) -/
  leaving : List Nat
  deriving DecidableEq, Repr

/-- A packet that has been taken and has not completed (R304, R307): `launch` is that of a LAUNCH or OPCHAIN, `ofs` the byte
offset of an OPCHAIN's next record; `id` tells the queue's packets apart. -/
structure Pkt where
  id   : Nat
  seq  : BitVec 32
  typ  : Nat
  slot : Nat
  bar  : Bool
  compl : Bool
  user : W64
  started : Bool
  data : List Byte
  launch : Option Nat
  ofs  : Nat
  deriving DecidableEq, Repr

/-- A user queue (R301-R311, R324, R326, R361, R364): `errs` are queue errors not yet posted through a slot (cause, sequence
number, D), `busy` whether it had work when it was last aged, and `pend` the taken packets in order. -/
structure Queue where
  enabled : Bool
  fn     : Nat
  ring   : W64
  size   : Nat
  ctx    : Nat
  basePri : Nat
  pri    : Nat
  age    : Nat
  priv   : Bool
  cbase  : W64
  csize  : Nat
  vec    : Nat
  a      : Nat
  d      : Nat
  expected : BitVec 32
  lastTaken : BitVec 32
  stopped : Bool
  ccount : Nat
  errs   : List (Nat × BitVec 32 × Nat)
  since  : Nat
  busy   : Bool
  pend   : List Pkt
  deriving DecidableEq, Repr

/-- A slot of the front end (R311, R364). -/
structure Slot where
  queue : Option Nat
  comp  : Nat
  last  : BitVec 32
  served : Bool
  at_   : Nat
  deriving DecidableEq, Repr

/-- The events of the front end's queue (R308). -/
inductive FeEvent where
  | writeIndex (q : Nat)
  | teamEnd (launch : Nat)
  | spawn (w : Waiting)
  | evaluate (w : Waiting)
  /-- a batch of a bin: its first record and count, its context, and the launches that wrote it -/
  | binLaunch (die bin start count ctx : Nat) (writers : List Nat)
  /-- the timer of a bin has expired, with the batch that it takes (R332) -/
  | timer (die bin start count ctx : Nat) (writers : List Nat)
  deriving DecidableEq, Repr

/-- A host function (R357-R363). -/
structure Fn where
  cmdBase : W64
  cmdSize : W64
  cmdWi  : W64
  cmdRi  : W64
  evBase : W64
  evSize : W64
  evWi   : W64
  evRi   : W64
  ctxBase : W64
  qtBase : W64
  evSeq  : Nat
  /-- the vectors that the host has unmasked -/
  unmasked : List Nat
  pendingV : List Nat
  window : List Nat
  flagged : List Nat
  enabled : Bool
  deriving DecidableEq, Repr

/-- A message that leaves the device: to the host, a peer or the management network (R350, R363, R367, R368, R380). -/
inductive Msg where
  | msix (fn vec : Nat)
  | pri (ctx : Nat) (va : W64)
  | atsDone (pasid : Nat)
  | flit (f : Flit)
  | hostData (data : List Byte)
  | hostAbort
  | join (die dst epoch : Nat)
  | ack (die src epoch : Nat)
  | open_ (die epoch : Nat)
  | measurements (data : List Byte) (signature : List Byte)
  | log (recs : List (List Byte))
  | replay (port seq : Nat)
  deriving DecidableEq, Repr

/-- A host access held while its die is not online (R374). -/
structure HostHeld where
  fn   : Nat
  addr : Nat
  len  : Nat
  wr   : Option (List Byte)
  deriving DecidableEq, Repr

/-- A firmware component's slots, and the image that the last boot took (R377, R378, R381). -/
structure Component where
  active : Nat
  slot0  : FwImage
  slot1  : FwImage
  minimum : BitVec 32
  running : FwImage
  deriving DecidableEq, Repr

/-- A completion record that the front end could not write yet (R306, R364). -/
structure CompRec where
  queue  : Nat
  slot   : Nat
  seq    : BitVec 32
  status : Nat
  cause  : Nat
  user   : W64
  detail : Nat
  deriving DecidableEq, Repr

/-- What waits while the Collar restarts (R379). -/
inductive CollarReq where
  | margin (die cluster monitor ps hand : Nat)
  | spare (stack pc : Nat)
  | measurements (sign : Bool)
  | log (seq count : Nat)
  | write (comp : Nat) (img : FwImage)
  | activate (comp : Nat)
  | raiseMinimum (comp : Nat)
  | cap (watts : Nat)
  | copyDone (stack pc : Nat)
  | coreFailed (core : Nat)
  | training (t : Training)
  deriving DecidableEq, Repr

/-- The management subsystem (R375-R385). -/
structure Collar where
  mr     : Map (List Byte)
  log    : List (List Byte)
  nextLog : Nat
  comps  : Map Component
  cap    : Nat
  restarting : Bool
  pendingReq : List CollarReq
  recovery : Bool
  railsOn : Bool
  perst  : Bool
  /-- hands that are disabled at their die's next warm reset, or at the next boot (R375) -/
  defectMap : List Nat
  spared : List (Nat × Nat)
  copying : List (Nat × Nat)
  /-- the spare lanes applied on each UCIe link of each die, and whether it runs at half width: key 8·die + link (R375) -/
  links  : Map (Nat × Bool)
  romItem : List Byte
  /-- the boot sequence is complete: configuration requests no longer end with CRS (R377) -/
  booted : Bool
  /-- the log numbers of shutdowns that the next boot reports (R384) -/
  unreported : List Nat
  deriving DecidableEq, Repr

/-- A domain request of an agent that has been sent: its number, the agent and the part of its access, the peer and address, what it
asks, and the reply's code and data once it has come (R366-R368). -/
structure PeerReq where
  id    : Nat
  agent : Agent
  ctx   : Nat
  part  : Nat
  dev   : Nat
  addr  : Nat
  op    : DomainOp
  reply : Option (Nat × List Byte)
  deriving DecidableEq, Repr

/-- The Weave side (R365-R368): number, export table, ports in the routes, routing table, the link number due at each port, devices
reported unreachable, domain timeout, the requests of the device's agents, the number of the next one, the link number of the next flit
of each port, the flits of the replay buffers, the route changes that wait until the path is empty, and the requests that wait for a
route between the I/O die of their port and their home (R372). -/
structure Weave where
  devNum : Option Nat
  exports : Map ExportEntry
  ports  : List Nat
  routes : Map Nat
  expectSeq : Map Nat
  unreachable : List Nat
  timeout : Nat
  reqs   : List PeerReq
  nextReq : Nat
  sendSeq : Map Nat
  buffer : List Flit
  changes : Map Nat
  held   : List (Nat × Nat × DomainReq)
  deriving DecidableEq, Repr

/-- A turn of the agenda: an agent that tries its next operation, or an event that arrives. -/
inductive Turn where
  | agent (a : Agent)
  | event (i : Instr)
  deriving DecidableEq, Repr

/-- The device. The first four fields are the model's own (log entries 1 and 2); the others are the manual's. -/
structure State where
  cur    : Agent
  agenda : List Turn
  clock  : Nat
  fresh  : Nat
  mem    : List Host.Cell
  hostMem : List Host.Cell
  tags   : Map (BitVec 2)
  poison : List Nat
  caches : Map (Map CLine)
  homeL2 : Map (Map HLine)
  waiters : List (Nat × Agent)
  granules : Map Granule
  fuse   : List Nat
  defects : List Nat
  hands  : Map Hand
  teams  : Map Team
  threads : Map Thread
  groups : Map Group
  dies   : Map Die
  locks  : Map Lock
  ctxs   : Map Ctx
  queues : Map Queue
  slots  : Map Slot
  events : List FeEvent
  /-- the completion records that could not be written yet, oldest first (R364) -/
  unposted : List CompRec
  /-- the evaluation records in the device's waiter list in memory, oldest first (R333) -/
  spill  : List Waiting
  cores  : Nat
  quantum : Nat
  launches : Map Launch
  nextLaunch : Nat
  waiting : List Waiting
  fns    : Map Fn
  errSeq : Nat
  hostHeld : List HostHeld
  /-- the 4 KiB pages of host memory that do not answer (R361) -/
  hostAbsent : List Nat
  collar : Collar
  weave  : Weave
  /-- which host translations ATS refuses, as the host has answered (R136) -/
  atsRefused : List Nat
  outbox : List Msg
  deriving DecidableEq, Repr

/-- The key of a team: hand and residency slot. -/
def teamKey (t : TeamRef) : Nat := t.hand * 2 + t.slot
/-- The key of a thread. -/
def threadKey (t : ThreadRef) : Nat := (t.hand * 2 + t.slot) * 4 + t.role
/-- The key of a group. -/
def groupKey (g : GroupRef) : Nat := ((g.hand * 2 + g.slot) * 4 + g.role) * 16 + g.idx

/-- The eight spare hands of each die: one node, (odd row, odd column), in each of clusters 8 to 15 (R11 leaves the choice
to the fuses; log entry 4). -/
def fuseReset : List Nat :=
  (List.range 4).flatMap fun die => [5, 7].flatMap fun row => [1, 3, 5, 7].map fun col => die * 64 + row * 8 + col

namespace State

/-- An empty hand (R345, R369: cleared; tenant 0xFF, log entry 5). -/
def emptyHand : Hand :=
  { tenant := 0xFF, scratch := [], scratchPoison := [], deque := [], imem := [], tiles := [], active := [], near := [],
    bulk := [], gather := [], mailbox := [], banks := [], tlb := [], maps := [], loaded := [], lastThread := 7, lastLane := [],
    lastMma := none, ready := [] }

/-- A die after boot (R369, R371, R14; log entry 5). -/
def emptyDie : Die :=
  { state := .online, epoch := 1, tlb := [], bins := [], binBase := 0, slots := List.replicate 64 0xFF, slotLen := 6, slot := 0,
    newSlots := none, acks := [], joined := false, route := [], held := [], leftAt := 0, clkPlan := 3600, fclkPlan := 2400,
    clkPow := 3600, fclkPow := 2400, clkHot := 3600, fclkHot := 2400, railMv := 0, hot := [], stretched := 0, corrected := [], restart := [], leaving := [] }

/-- A function after reset, every vector masked (R359; log entry 7). -/
def emptyFn (on : Bool) : Fn :=
  { cmdBase := 0, cmdSize := 0, cmdWi := 0, cmdRi := 0, evBase := 0, evSize := 0, evWi := 0, evRi := 0, ctxBase := 0,
    qtBase := 0, evSeq := 1, unmasked := [], pendingV := [], window := [], flagged := [], enabled := on }

/-- The Collar after a cold boot that has extended nothing (R378, R380, R382, R385; log entry 5). -/
def emptyCollar : Collar :=
  { mr := [], log := [], nextLog := 1, comps := [], cap := 15000, restarting := false, pendingReq := [], recovery := false,
    railsOn := true, perst := false, defectMap := [], spared := [], copying := [], links := [], romItem := [], booted := true, unreported := [] }

/-- The machine right after reset: no team, no context, every map empty (absent hands, dies and functions read as the
empty ones above). -/
def reset : State :=
  { cur := .device, agenda := [], clock := 0, fresh := 0, mem := [], hostMem := [], tags := [], poison := [], caches := [], homeL2 := [],
    waiters := [], granules := [], fuse := fuseReset, defects := [], hands := [], teams := [], threads := [], groups := [],
    dies := [], locks := [], ctxs := [], queues := [], slots := [], events := [], unposted := [], spill := [], cores := 12, quantum := 65536, launches := [],
    nextLaunch := 0, waiting := [], fns := [], errSeq := 1, hostHeld := [], hostAbsent := [], collar := emptyCollar,
    weave := { devNum := none, exports := [], ports := List.range 36, routes := [], expectSeq := [], unreachable := [],
               timeout := 2 ^ 20, reqs := [], nextReq := 1, sendSeq := [], buffer := [], changes := [], held := [] },
    atsRefused := [], outbox := [] }

/-- A group index that no SGRP has set up (R182), with no segment. -/
def emptyGroup : Group :=
  { state := .unset, lg := 0, units := [], swapThr := 0, queue := [], nextSeq := 1, lastRet := 0, shows := [],
    pendD := List.replicate 6 0, m := List.replicate 16 0, w := List.replicate 8 0, fpx := 0, run := none, pos := 0, pend := [],
    landing := [], outst := [], frozen := false, hrun := none, hqueue := [], hshows := [], hnext := 1, hd := List.replicate 6 0,
    gseg := Seg.none, pseg := Seg.none, kseg := Seg.none, lseg := Seg.none, arrival := [], waitBar := none, preempt := false,
    parked := false, stepping := false }

/-- A stream that no MXGO has started (R190). -/
def emptyStream : Stream :=
  { running := false, stopped := false, img := 0, pc := 0, fpx := 0, owner := 0, edis := 0, arrival := [], waitBar := none,
    waitHadv := none, mma := none, gathFaults := [] }

/-- The hand `h` (R12). -/
def hand (s : State) (h : Nat) : Hand := s.hands.getD h emptyHand
/-- The die `d` (R13). -/
def die (s : State) (d : Nat) : Die := s.dies.getD d emptyDie
/-- The function `f`: the PF is enabled, a VF only once VFs are (R357; log entry 7). -/
def fn (s : State) (f : Nat) : Fn := s.fns.getD f (emptyFn (f = 0))

end State

end Sys2Proof.Machine
end

