-- ==== Sys2Proof/Machine/Records.lean ====
section
/-! DEFINITION. Named updates of the state, byte memories in canonical form, the host's rings, interrupts and records:
R338, R339, R360, R362, R363. -/

namespace Sys2Proof

/-- The team of a thread. -/
def ThreadRef.team (t : ThreadRef) : TeamRef := ⟨t.hand, t.slot⟩
/-- The owning role thread of a group (R23). -/
def GroupRef.owner (g : GroupRef) : ThreadRef := ⟨g.hand, g.slot, g.role⟩
/-- The team of a group. -/
def GroupRef.team (g : GroupRef) : TeamRef := ⟨g.hand, g.slot⟩
/-- Group `i` of the thread's role. -/
def ThreadRef.group (t : ThreadRef) (i : Nat) : GroupRef := ⟨t.hand, t.slot, t.role, i⟩

end Sys2Proof

namespace Sys2Proof.Machine

/-- What a meaning answers. -/
abbrev Res := Host.Outcome State Fault Refusal

/-! ### Byte memories: strictly rising addresses, no listed zero (an unlisted byte reads 0; log entry 3) -/

namespace Memory

/-- The canonical form. -/
abbrev wf (m : List Host.Cell) : Prop := Map.Ordered m ∧ ∀ c ∈ m, c.2 ≠ 0

/-- One byte. -/
def get (m : List Host.Cell) (a : Nat) : Byte := Map.getD m a 0

/-- Write one byte, keeping the canonical form. -/
def put (m : List Host.Cell) (a : Nat) (b : Byte) : List Host.Cell := if b = 0 then Map.erase m a else Map.set m a b

/-- `n` bytes from `a`. -/
def read (m : List Host.Cell) (a n : Nat) : List Byte := (List.range n).map fun i => get m (a + i)

/-- Write bytes from `a` upward. -/
def write (m : List Host.Cell) (a : Nat) : List Byte → List Host.Cell
  | [] => m
  | b :: bs => write (put m a b) (a + 1) bs

/-- Little-endian number of `n` bytes at `a` (R3). -/
def readNat (m : List Host.Cell) (a n : Nat) : Nat := ofBytes (read m a n)

/-- Write the low `n` bytes of a number (R3). -/
def writeNat (m : List Host.Cell) (a n v : Nat) : List Host.Cell := write m a (toBytes n v)

end Memory

/-! ### Named updates -/

namespace State

/-- Update the thread `t`. -/
def updThread (s : State) (t : ThreadRef) (f : Thread → Thread) : State := { s with threads := s.threads.modify (threadKey t) f }
/-- Update the team `t`. -/
def updTeam (s : State) (t : TeamRef) (f : Team → Team) : State := { s with teams := s.teams.modify (teamKey t) f }
/-- Update the group `g`. -/
def updGroup (s : State) (g : GroupRef) (f : Group → Group) : State := { s with groups := s.groups.modify (groupKey g) f }
/-- Update the hand `h`. -/
def updHand (s : State) (h : Nat) (f : Hand → Hand) : State := { s with hands := s.hands.set h (f (s.hand h)) }
/-- Update the die `d`. -/
def updDie (s : State) (d : Nat) (f : Die → Die) : State := { s with dies := s.dies.set d (f (s.die d)) }
/-- Update the function `n`. -/
def updFn (s : State) (n : Nat) (f : Fn → Fn) : State := { s with fns := s.fns.set n (f (s.fn n)) }
/-- Update the context `c`. -/
def updCtx (s : State) (c : Nat) (f : Ctx → Ctx) : State := { s with ctxs := s.ctxs.modify c f }
/-- Update the queue `q`. -/
def updQueue (s : State) (q : Nat) (f : Queue → Queue) : State := { s with queues := s.queues.modify q f }
/-- Update the launch `n`. -/
def updLaunch (s : State) (n : Nat) (f : Launch → Launch) : State := { s with launches := s.launches.modify n f }

/-- The thread `t`, if its team has one. -/
def thread? (s : State) (t : ThreadRef) : Option Thread := s.threads.get? (threadKey t)
/-- The team `t`, if the slot holds one. -/
def team? (s : State) (t : TeamRef) : Option Team := s.teams.get? (teamKey t)
/-- The group `g`. -/
def group? (s : State) (g : GroupRef) : Option Group := s.groups.get? (groupKey g)
/-- The context `c`. -/
def ctx? (s : State) (c : Nat) : Option Ctx := s.ctxs.get? c

/-- A fresh free value's number, and the state that has used it (log entry 2). -/
def draw (s : State) : Nat × State := (s.fresh, { s with fresh := s.fresh + 1 })

/-- Send a message out of the device. -/
def send (s : State) (m : Msg) : State := { s with outbox := s.outbox ++ [m] }

/-- The front end's queue is full: 4096 events beside the write-index events (R308). -/
def eventsFull (s : State) : Bool :=
  4096 ≤ s.events.countP fun e => match e with | .writeIndex _ => false | _ => true

end State

/-- The die of a hand (HC8, R57). -/
def dieOf (h : Nat) : Nat := h / 64 % 4
/-- The cluster of a hand over the package: 16 per die (R10). -/
def clusterOf (h : Nat) : Nat := dieOf h * 16 + 4 * (h / 8 % 8 / 2) + h % 8 / 2

/-- The hand is enabled: not a spare (R11) and not in the defect map (R375). -/
def State.enabled (s : State) (h : Nat) : Bool := h < 256 && !s.fuse.contains h && !s.defects.contains h

/-- The context is resident on the hand (R386). -/
def State.resident (s : State) (c h : Nat) : Bool :=
  [0, 1].any fun k => match s.teams.get? (h * 2 + k) with | some t => t.ctx = c | none => false

/-! ### Interrupts (R363) -/

/-- The number of MSI-X vectors of a function (R357). -/
def vectorCount (fn : Nat) : Nat := if fn = 0 then 2048 else 64

/-- Raise a vector: nothing for 0xFFFF or a number beyond the function's; masked: pending; inside the window after a
message: flagged; otherwise one message. -/
def raiseVector (s : State) (fn vec : Nat) : State :=
  if vec < vectorCount fn then
    let f := s.fn fn
    if !f.unmasked.contains vec then s.updFn fn fun f => { f with pendingV := f.pendingV.insert vec }
    else if f.window.contains vec then s.updFn fn fun f => { f with flagged := f.flagged.insert vec }
    else (s.updFn fn fun f => { f with window := vec :: f.window }).send (.msix fn vec)
  else s

/-! ### The event ring (R362) -/

/-- The entries of a function's ring: a power of two from 16 to 4096; any other value disables it (R359). -/
def ringSize (v : W64) : Nat := if [16, 32, 64, 128, 256, 512, 1024, 2048, 4096].contains v.toNat then v.toNat else 0

/-- Post one 32-byte record: bytes 9-31 are `rest`, zero-filled. A disabled ring consumes the sequence number only. -/
def postEvent (s : State) (fn kind : Nat) (rest : List Byte) : State :=
  let f := s.fn fn
  let bytes := (toBytes 8 f.evSeq ++ [BitVec.ofNat 8 kind] ++ rest ++ List.replicate 32 0).take 32
  let s := s.updFn fn fun f => { f with evSeq := f.evSeq + 1 }
  if ringSize f.evSize = 0 then s
  else
    let at_ := f.evBase.toNat + 32 * (f.evWi.toNat % ringSize f.evSize)
    let s := { s with hostMem := Memory.write s.hostMem at_ bytes }
    raiseVector (s.updFn fn fun f => { f with evWi := f.evWi + 1 }) fn 1

/-- Every function that is enabled. -/
def functions (s : State) : List Nat := (List.range 65).filter fun f => (s.fn f).enabled

/-- A record for every function (kinds 2 and 5). -/
def postEventAll (s : State) (kind : Nat) (rest : List Byte) : State :=
  (functions s).foldl (fun s f => postEvent s f kind rest) s

/-! ### The context table and the error ring (R360) -/

/-- The host address of entry `c` of the context table. -/
def ctxEntry (s : State) (c : Nat) : Nat := (s.fn 0).ctxBase.toNat + 64 * c

/-- A field of entry `c`. -/
def ctxField (s : State) (c ofs n : Nat) : Nat := Memory.readNat s.hostMem (ctxEntry s c + ofs) n

/-- The context's PASID (R360). -/
def pasidOf (s : State) (c : Nat) : Nat := ctxField s c 0 4 % 2 ^ 20
/-- The context's tenant (R328, R360). -/
def tenantOf (s : State) (c : Nat) : Nat := ctxField s c 5 1
/-- The context's function (R360). -/
def fnOf (s : State) (c : Nat) : Nat := ctxField s c 4 1

/-- Write a record of the error ring with its kind byte; a full ring counts a drop. The sequence number is already used. -/
def postError (s : State) (c kind : Nat) (rec : List Byte) : State :=
  let size := ctxField s c 16 4
  let wi := ctxField s c 24 8
  let ri := ctxField s c 32 8
  let vec := ctxField s c 56 2
  if size = 0 then s
  else if wi + 1 > ri + size then
    let n := ctxField s c 40 8 + 1
    let s := { s with hostMem := Memory.writeNat s.hostMem (ctxEntry s c + 40) 8 n }
    let s := raiseVector s (fnOf s c) vec
    postEvent s (fnOf s c) 4 (List.replicate 7 0 ++ toBytes 4 c ++ List.replicate 4 0 ++ toBytes 8 n)
  else
    let bytes := ((rec ++ List.replicate 64 0).take 64 ++ [BitVec.ofNat 8 kind] ++ List.replicate 63 0)
    let m := Memory.write s.hostMem (ctxField s c 8 8 + 128 * (wi % size)) bytes
    let s := { s with hostMem := Memory.writeNat m (ctxEntry s c + 24) 8 (wi + 1) }
    raiseVector s (fnOf s c) vec

/-- The number of R339. -/
def FaultCode.code : FaultCode → Nat
  | .badTarget => 1 | .imageLink => 2 | .chainEnd => 3 | .dealFormat => 4 | .dealTarget => 5 | .dealBlock => 6
  | .blockBudget => 7 | .blockFormat => 8 | .tileRange => 9 | .jumpRange => 10 | .groupRange => 11 | .groupBusy => 12
  | .sgrpFormat => 13 | .weightEmpty => 14 | .stealRange => 15 | .addrForm => 16 | .align => 17 | .spaceReach => 18
  | .nodeAbsent => 19 | .handOwner => 20 | .barClobber => 21 | .dequeClobber => 22 | .segLimit => 23 | .pageAbsent => 24
  | .pagePerm => 25 | .pteFormat => 26 | .poison => 27 | .slotRange => 28 | .fpxTrap => 29 | .barUninit => 30 | .barOver => 31
  | .cellFailed => 32 | .selfDep => 33 | .evalDepth => 34 | .cellBusy => 35 | .cellFormat => 36 | .lockRange => 37
  | .lockHeld => 38 | .lockOwner => 39 | .lockFormat => 40 | .accRange => 41 | .ringUninit => 42 | .ringShape => 43
  | .ringOver => 44 | .ringBusy => 45 | .scaleSrc => 46 | .gatherRange => 47 | .copyFormat => 48 | .copyFault => 49 | .priv => 50
  | .emuState => 51 | .trap => 52 | .break_ => 53 | .step => 54 | .emuDepth => 55 | .emuUnhandled => 56 | .emuTable => 57
  | .emuSave => 58 | .emuHelper => 59 | .codeHash => 60 | .fetchPoison => 61 | .weightReturn => 62 | .dieOffline => 63
  | .regEcc => 64 | .undoOverflow => 65 | .rollback => 66 | .cellWrite => 67

/-- The class code of R338. -/
def Class.code : Class → Nat
  | .t => 1 | .g => 2 | .d => 3 | .m => 4 | .c => 5 | .r => 6 | .f => 7 | .i => 8

/-- What of a fault record names the place (R338, bytes 10-39). -/
structure Site where
  engine : Nat
  hand   : Nat
  role   : Nat := 0
  idx    : Nat := 0
  helper : Bool := false
  slot   : Nat := 0
  hw     : Nat := 0xFF
  depth  : Nat := 0
  team   : Nat := 0
  img    : Nat := 0
  pc     : Nat := 0
  seq    : Nat := 0
  k      : Nat := 0
  ins    : Nat := 0
  deriving DecidableEq, Repr

/-- A fault record's 64 bytes (R338). -/
def faultBytes (seq : Nat) (code : FaultCode) (cls : Class) (pasid : Nat) (p : Site) (addr d1 d2 : W64) : List Byte :=
  toBytes 8 seq ++ toBytes 2 code.code ++ toBytes 1 cls.code ++ toBytes 1 p.engine ++ toBytes 1 p.hand ++
    toBytes 1 (p.role % 4 + 4 * (p.idx % 16) + (if p.helper then 64 else 0) + 128 * (p.slot % 2)) ++ toBytes 1 p.hw ++
    toBytes 1 p.depth ++ toBytes 4 pasid ++ toBytes 4 p.team ++ toBytes 8 (p.img * 2 ^ 32 + p.pc % 2 ^ 30) ++ toBytes 4 p.seq ++
    toBytes 4 (p.ins % 256 + 256 * (p.k % 2 ^ 24)) ++ toBytes 8 addr.toNat ++ toBytes 8 d1.toNat ++ toBytes 8 d2.toNat

/-- Post a fault record to context `c` (R338, R360). -/
def postFault (s : State) (c : Nat) (code : FaultCode) (cls : Class) (p : Site) (addr d1 d2 : W64) : State :=
  let seq := s.errSeq
  postError { s with errSeq := seq + 1 } c 1 (faultBytes seq code cls (pasidOf s c) p addr d1 d2)

/-- Post a poison record (R145). -/
def postPoison (s : State) (c addr space outcome hand engine seq : Nat) : State :=
  let n := s.errSeq
  postError { s with errSeq := n + 1 } c 2
    (toBytes 8 n ++ toBytes 8 addr ++ toBytes 4 (pasidOf s c) ++ toBytes 1 space ++ toBytes 1 outcome ++ toBytes 1 hand ++
      toBytes 1 engine ++ toBytes 4 seq)

/-- Post a lock record (R360). -/
def postLock (s : State) (c lk team : Nat) : State :=
  let n := s.errSeq
  postError { s with errSeq := n + 1 } c 3 (toBytes 8 n ++ toBytes 4 lk ++ toBytes 4 team)

/-- The PF's configuration space answers and the device is not in recovery: else only DOE and the PLDM update path are exposed, and no
queue, context or command is accepted (R377). -/
def exposed (s : State) : Bool := s.collar.booted && !s.collar.recovery

/-- What the host does to an exposed device; on another it has no effect (R377). -/
def onExposed (s f : State) : Res := .next (if exposed s then f else s)

end Sys2Proof.Machine
end

