-- ==== Sys2Proof/Machine/Mem.lean ====
section
/-! DEFINITION. The memory hierarchy: homes, caches with dirty masks, translation, write ownership, the order of access
checks and the performing of loads, stores and atomics (R114-R145, R155-R158, R248, R253, R352). -/

namespace Sys2Proof.Machine

/-! ### The home (R128, R246, R253, R352, R144) -/

/-- The home die of a physical address (R128). -/
def homeDie (pa : Nat) : Nat := pa / 2 ^ 38 % 4
/-- The home slice of a physical address within its home die (R128). -/
def sliceOf (pa : Nat) : Nat := pa / 2 ^ 7 % 64 ^^^ pa / 2 ^ 19 % 64
/-- The memory stack of a physical address within its home die (R128). -/
def stackOf (pa : Nat) : Nat := pa / 2 ^ 8 % 4 ^^^ pa / 2 ^ 16 % 4
/-- The channel port of a physical address within its stack (R128). -/
def portOf (pa : Nat) : Nat := pa / 2 ^ 10 % 4

/-- The tag of the sector that holds `pa` (R246): 0 VAL, 1 SUSP, 2 EVAL, 3 FAIL. -/
def tagAt (s : State) (pa : Nat) : BitVec 2 := s.tags.getD (pa / 32) 0

/-- Set a sector's tag; VAL is the unlisted value. -/
def setTag (s : State) (pa : Nat) (t : BitVec 2) : State :=
  { s with tags := if t = 0 then s.tags.erase (pa / 32) else s.tags.set (pa / 32) t }

/-- The 128 bytes of an entry of the undo log (R352); the tags stand in bits 2:1 and 4:3 of its first word (log entry 19). -/
def Undo.bytes (u : Undo) (n : Nat) : List Byte :=
  toBytes 8 (u.unit * 64 + (if u.poisoned then 1 else 0) + 2 * (u.tags.getD 0 0).toNat + 8 * (u.tags.getD 1 0).toNat) ++ toBytes 8 n ++
    List.replicate 48 0 ++ u.old

/-- Append the unit's old contents to the undo log of a context with a valid checkpoint, once per unit per checkpoint; an
append past CKLOG stops the log and posts UNDO_OVERFLOW (R352, R353). The log lies in device memory from its base (log entry 19). -/
def undoAppend (s : State) (c unit : Nat) : State :=
  match s.ctx? c with
  | none => s
  | some x =>
    if x.ckptValid && !(x.undo.any fun u => u.unit = unit) then
      if x.undoBytes + 128 > x.cklog.toNat then
        let s := s.updCtx c fun x => { x with ckptValid := false }
        postFault s c .undoOverflow .i { engine := 0, hand := 0 } 0 (BitVec.ofNat 64 x.ckptCount) x.cklog
      else
        let e : Undo := { unit := unit, poisoned := s.poison.contains unit, old := Memory.read s.mem (unit * 64) 64,
                          tags := [tagAt s (unit * 64), tagAt s (unit * 64 + 32)] }
        { s.updCtx c fun x => { x with undo := e :: x.undo, undoBytes := x.undoBytes + 128 } with
          mem := Memory.write s.mem (x.undoBase.toNat + x.undoBytes) (e.bytes x.ckptCount) }
    else s

/-- One byte reaches its home: skipped where the sector is not VAL (R253). -/
def homeByte (s : State) (c pa : Nat) (b : Byte) : State :=
  if tagAt s pa = 0 then { undoAppend s c (pa / 64) with mem := Memory.put (undoAppend s c (pa / 64)).mem pa b } else s

/-- Bytes reach their homes in ascending order. -/
def homeBytes (s : State) (c : Nat) : List (Nat × Byte) → State
  | [] => s
  | (pa, b) :: ws => homeBytes (homeByte s c pa b) c ws

/-! ### Caches (R127, R129-R131, R140) -/

/-- The numbers of the caching places: the L1 of hand h is h, cluster caches stand from 256, L2 slices from 512. -/
def l1Place (h : Nat) : Nat := h
/-- The cluster cache of a hand. -/
def clPlace (h : Nat) : Nat := 256 + clusterOf h
/-- Slice `k` of the L2 of a die. -/
def l2Place (d k : Nat) : Nat := 512 + 64 * d + k

/-- The caching places between a hand and the home of a line, narrowest first; a line homed on the hand's own die has no die
L2 copy apart from its home (R127, R128). -/
def pathOf (h pa : Nat) : List Nat :=
  [l1Place h, clPlace h] ++ (if homeDie pa = dieOf h then [] else [l2Place (dieOf h) (sliceOf pa)])

/-- The places wider than place `p` on the way to the home of a line. -/
def widerOf (p pa : Nat) : List Nat :=
  if p < 256 then (pathOf p pa).drop 1
  else if p < 512 then (if homeDie pa = (p - 256) / 16 then [] else [l2Place ((p - 256) / 16) (sliceOf pa)])
  else []

/-- How many levels are narrower than a scope's level (table of R158's section): .HD 0, .CL 1, .DI 2, .DV and .DM all. -/
def levelOf (scope : Nat) : Nat := if scope < 3 then scope else 3

/-- A line's copy at a place. -/
def lineCopy (s : State) (p la : Nat) : Option CLine := (s.caches.getD p []).get? la

/-- The places that hold a copy of a line: its directory entry (R127). -/
def directory (s : State) (la : Nat) : List Nat := s.caches.keys.filter fun p => (lineCopy s p la).isSome

/-- Store a line's copy at a place. -/
def setLine (s : State) (p la : Nat) (l : CLine) : State :=
  { s with caches := s.caches.set p ((s.caches.getD p []).set la l) }

/-- Drop a line's copy at a place. -/
def dropLine (s : State) (p la : Nat) : State :=
  { s with caches := s.caches.modify p fun m => m.erase la }

/-- The bytes that dirty bits select, with their addresses. -/
def dirtyBytes (la : Nat) (l : CLine) : List (Nat × Byte) :=
  (l.data.zipIdx.filter fun p => l.dirty.getLsbD p.2).map fun p => (la + p.2, p.1)

/-- The units of a line copy that are poisoned and dirty: their marks travel with their bytes (R142). -/
def dirtyMarks (la : Nat) (l : CLine) : List Nat :=
  ((List.range 2).filter fun u => l.marks.getLsbD u && (l.dirty.extractLsb' (64 * u) 64 ≠ 0)).map (la / 64 + ·)

/-- The marks of the two units of a line. -/
def marksOf (f : Nat → Bool) : BitVec 2 := (if f 0 then 1 else 0) ||| if f 1 then 2 else 0

/-- The encodings of a line in an L2 slice (R131). -/
inductive Encoding where
  | zero | b8d3 | b4d1 | raw
  deriving DecidableEq, Repr

/-- The little-endian words of `w` bytes that bytes hold. -/
def lineParts (w : Nat) (bs : List Byte) : List Nat := (List.range (bs.length / w)).map fun i => ofBytes ((bs.drop (w * i)).take w)

/-- Each word of `w` bytes is word 0 plus a signed delta of `b` bits. -/
def deltasFit (w b : Nat) (bs : List Byte) : Bool :=
  (lineParts w bs).all fun x =>
    let d := (x + 256 ^ w - (lineParts w bs).headD 0) % 256 ^ w
    d < 2 ^ (b - 1) || 256 ^ w - 2 ^ (b - 1) ≤ d

/-- The first encoding that fits a line (R131). -/
def encodingOf (bs : List Byte) (poisoned : Bool) : Encoding :=
  if poisoned then .raw else if bs.all (· = 0) then .zero else if deltasFit 8 24 bs then .b8d3 else if deltasFit 4 8 bs then .b4d1 else .raw

/-- The 64-byte data ways that an encoding takes (R131). -/
def Encoding.ways : Encoding → Nat
  | .zero => 0 | .b8d3 => 1 | .b4d1 => 1 | .raw => 2

/-- The set of a line at a place (R127 gives the numbers of sets; log entry 76 their index). -/
def setIndex (p la : Nat) : Nat := if p < 256 then la / 128 % 128 else if p < 512 then la / 128 % 2048 else la / 8192 % 1024

/-- A line of a set as its replacement sees it. -/
structure SetEntry where
  la   : Nat
  keep : Bool
  age  : Nat
  ways : Nat
  deriving DecidableEq, Repr

/-- The lines that share a line's set at a place; a slice holds lines homed on its own die too. -/
def setOf (s : State) (p la : Nat) : List SetEntry :=
  let same (x : Nat) : Bool := setIndex p x = setIndex p la
  ((s.caches.getD p []).filter fun l => same l.1).map (fun l => ⟨l.1, l.2.keep, l.2.age, (encodingOf l.2.data (l.2.marks ≠ 0)).ways⟩) ++
    ((s.homeL2.getD p []).filter fun l => same l.1).map fun l =>
      ⟨l.1, l.2.keep, l.2.age,
        (encodingOf (Memory.read s.mem l.1 128) (s.poison.contains (l.1 / 64) || s.poison.contains (l.1 / 64 + 1))).ways⟩

/-- A set is within its ways: 16 lines, in a slice 24 tags and 24 data ways (R127, R131); 12 lines take 24 ways at the most. -/
def setFits (s : State) (p la : Nat) : Bool :=
  let es := setOf s p la
  if p < 512 then es.length ≤ 16 else es.length ≤ 12 || (es.length ≤ 24 && (es.map (·.ways)).sum ≤ 24)

/-- The line that leaves a set: unhinted lines before kept ones (R130), then the one filled first (log entry 76); never `la`. -/
def victimOf (s : State) (p la : Nat) : Option Nat :=
  ((setOf s p la).filter fun e => e.la ≠ la).foldl (fun (m : Option SetEntry) e =>
    match m with
    | none => some e
    | some v => if (if e.keep = v.keep then e.age < v.age else v.keep) then some e else some v) none |>.map (·.la)

/-- The age of a line that enters a set. -/
def nextAge (s : State) (p la : Nat) : Nat := 1 + ((setOf s p la).map (·.age)).foldl max 0

/-- Lines leave a set by `out`, one after another, until it is within its ways. -/
def shrink (out : State → Nat → State) (p la : Nat) : Nat → State → State
  | 0, s => s
  | n + 1, s => if setFits s p la then s else match victimOf s p la with | none => s | some v => shrink out p la n (out s v)

/-- Bytes reach the homes of their lines (R155): units wholly covered lose their poison (R144); each sector that is not VAL is skipped
with a CELL_WRITE record of the agent at `p`, whose virtual addresses lie `vofs` above the physical ones (R253). `log` is false for a
write that the undo log does not cover (R352, R354). -/
def homeRaw (s : State) (c : Nat) (log : Bool) (p : Site) (vofs : W64) (ws : List (Nat × Byte)) : State :=
  let units := (ws.map fun w => w.1 / 64).dedup
  let full := units.filter fun u => (ws.filter fun w => w.1 / 64 = u).length = 64
  let bad := if c < 4096 then ((ws.map fun w => w.1 / 32).dedup).filter fun k => tagAt s (k * 32) ≠ 0 else []
  let s := bad.foldl (fun s k =>
    postFault s c .cellWrite .i p (BitVec.ofNat 64 (k * 32) + vofs) ((tagAt s (k * 32)).setWidth 64)
      (BitVec.ofNat 64 (ws.filter fun w => w.1 / 32 = k).length)) s
  let s := homeBytes s (if log then c else 4096) ws
  { s with poison := s.poison.filter fun u => !full.contains u }

/-- Units of memory become poisoned. -/
def poisonRaw (s : State) (us : List Nat) : State := { s with poison := s.poison ++ us.filter fun u => !s.poison.contains u }

/-- A line leaves a slice: a copy's dirty bytes go to their home, a line homed there stays in memory. -/
def sliceOut (p : Nat) (s : State) (v : Nat) : State :=
  match lineCopy s p v with
  | some l => dropLine (poisonRaw (homeRaw s l.ctx true { engine := 0, hand := 0 } 0 (dirtyBytes v l)) (dirtyMarks v l)) p v
  | none => { s with homeL2 := s.homeL2.modify p fun m => m.erase v }

/-- The slice that holds a line of its own die, if it does: the place and the line. -/
def homeSet (s : State) (la : Nat) : List (Nat × Nat) :=
  let p := l2Place (homeDie la) (sliceOf la)
  if ((s.homeL2.getD p []).get? la).isSome then [(p, la)] else []

/-- Sets of slices in which a line has become larger come within their ways again: lines leave them, and a line that leaves may make a line
at its own home larger (R131). -/
def settleSets : Nat → List (Nat × Nat) → State → State
  | 0, _, s => s
  | _, [], s => s
  | n + 1, (p, la) :: w, s =>
    if setFits s p la then settleSets n w s
    else
      match victimOf s p la with
      | none => settleSets n w s
      | some v => settleSets n ((p, la) :: (homeSet s v ++ w)) (sliceOut p s v)

/-- The lines that all slices hold, which bounds how many can leave. -/
def sliceLines (s : State) : Nat :=
  ((s.caches.filter fun p => 512 ≤ p.1).map fun p => p.2.length).sum + (s.homeL2.map fun p => p.2.length).sum

/-- The sets of the places of lines that may have grown are within their ways again. -/
def settleLines (w : List (Nat × Nat)) (s : State) : State :=
  if w.all fun x => setFits s x.1 x.2 then s else settleSets (2 * (sliceLines s + w.length) + 1) w s

/-- The sets of the home slices of lines, within their ways again. -/
def settleHomes (las : List Nat) (s : State) : State := settleLines (las.dedup.flatMap (homeSet s)) s

/-- A write of the agent at `p` reaches the home, with the poisoned units among its bytes, and the set of the line's home slice settles. -/
def homeStoreBy (s : State) (c : Nat) (p : Site) (vofs : W64) (ws : List (Nat × Byte)) : State :=
  settleHomes (ws.map fun w => w.1 / 128 * 128) (homeRaw s c true p vofs ws)

/-- A write reaches the home from an agent without a place of its own in R338. -/
def homeStore (s : State) (c : Nat) (ws : List (Nat × Byte)) : State := homeStoreBy s c { engine := 0, hand := 0 } 0 ws

/-- A write of the front end or the host reaches the home: no undo log covers it (R352, R354). -/
def homeStoreFe (s : State) (c : Nat) (ws : List (Nat × Byte)) : State :=
  settleHomes (ws.map fun w => w.1 / 128 * 128) (homeRaw s c false { engine := 7, hand := 0 } 0 ws)

/-- Units of memory become poisoned (R142, R144), and their lines are stored raw (R131). -/
def spoil (s : State) (us : List Nat) : State := settleHomes (us.map fun u => u / 2 * 128) (poisonRaw s us)

/-- A write that made a line of a slice larger may evict others of its set (R131). -/
def settleSlice (s : State) (p la : Nat) : State := if p < 512 then s else settleLines [(p, la)] s

/-- Merge bytes into a line copy and mark them dirty. A unit that they cover whole loses its poison (R144); the units `us` bring
theirs (R142). -/
def mergeLine (la c : Nat) (l : CLine) (ws : List (Nat × Byte)) (us : List Nat) : CLine :=
  let m := ws.foldl (fun l w => { l with data := l.data.set (w.1 - la) w.2, dirty := l.dirty ||| BitVec.twoPow 128 (w.1 - la), ctx := c }) l
  { m with marks := marksOf fun u =>
      us.contains (la / 64 + u) || (l.marks.getLsbD u && (ws.filter fun w => (w.1 - la) / 64 = u).length ≠ 64) }

/-- Bytes, with the poisoned units among them, go to the first of the places that holds the line, else to the home (R140: per-byte
write-back). -/
def pushBytes (s : State) (c la : Nat) (ws : List (Nat × Byte)) (us : List Nat) : List Nat → State
  | [] => spoil (homeStore s c ws) us
  | p :: ps =>
    match lineCopy s p la with
    | some l => settleSlice (setLine s p la (mergeLine la c l ws us)) p la
    | none => pushBytes s c la ws us ps

/-- Write back a place's dirty bytes of a line to the next wider copy, and mark them clean. -/
def writeBack (s : State) (p la : Nat) : State :=
  match lineCopy s p la with
  | none => s
  | some l =>
    if l.dirty = 0 then s
    else pushBytes (setLine s p la { l with dirty := 0 }) l.ctx la (dirtyBytes la l) (dirtyMarks la l) (widerOf p la)

/-- Write back and drop. -/
def evict (s : State) (p la : Nat) : State := dropLine (writeBack s p la) p la

/-- Every line of a place, written back; dropped too where `inv`. -/
def flushPlace (s : State) (inv : Bool) (p : Nat) : State :=
  ((s.caches.getD p []).keys).foldl (fun s la => if inv then evict s p la else writeBack s p la) s

/-- The places of hand `h` narrower than a scope's level, narrowest first: its L1, its cluster cache, the slices of its die. -/
def narrower (h scope : Nat) : List Nat :=
  (if 1 ≤ levelOf scope then [l1Place h] else []) ++ (if 2 ≤ levelOf scope then [clPlace h] else []) ++
    (if 3 ≤ levelOf scope then (List.range 64).map (l2Place (dieOf h)) else [])

/-- A release's write-back at a scope (table "How the hierarchy carries it out"). -/
def releaseAt (s : State) (h scope : Nat) : State := (narrower h scope).foldl (flushPlace · false ·) s
/-- An acquire's invalidation at a scope: copies at narrower levels are dropped, their dirty bytes written back first. -/
def acquireAt (s : State) (h scope : Nat) : State := (narrower h scope).foldl (flushPlace · true ·) s

/-- Recall a line from the places of its directory entry: dirty bytes reach the home, and no copy is left (R161, R247). -/
def recallLine (s : State) (la : Nat) : State := s.caches.keys.foldl (fun s p => evict s p la) s

/-- Every dirty byte of every place reaches its home. -/
def flushAll (s : State) : State := s.caches.keys.foldl (flushPlace · true ·) s

/-- The line's bytes as the places see them: the first copy, else the home. -/
def lineRead (s : State) (la : Nat) : List Nat → List Byte
  | [] => Memory.read s.mem la 128
  | p :: ps => match lineCopy s p la with | some l => l.data | none => lineRead s la ps

/-- The poison marks of a line as the places see them (R142). -/
def lineMarks (s : State) (la : Nat) : List Nat → BitVec 2
  | [] => marksOf fun u => s.poison.contains (la / 64 + u)
  | p :: ps => match lineCopy s p la with | some l => l.marks | none => lineMarks s la ps

/-- The four sectors of the line are VAL (R129). -/
def lineVal (s : State) (la : Nat) : Bool := (List.range 4).all fun i => tagAt s (la + 32 * i) = 0

/-- A hint keeps a line at a place (R130). -/
def keepsAt (p hint : Nat) : Bool :=
  if p < 256 then hint = 2 else if p < 512 then hint = 3 else hint = 4

/-- A line leaves a set of a place, with its dirty bytes. -/
def leaveSet (p : Nat) (s : State) (v : Nat) : State := if (lineCopy s p v).isSome then evict s p v else sliceOut p s v

/-- A line is at a place afterwards: it is allocated where it was not, and other lines leave its set for it. -/
def fillAt (la hint : Nat) (s : State) (p : Nat) : State :=
  match lineCopy s p la with
  | some l => setLine s p la { l with keep := l.keep || keepsAt p hint }
  | none =>
    shrink (leaveSet p) p la 26
      (setLine s p la { data := lineRead s la (widerOf p la), dirty := 0, ctx := 0, marks := lineMarks s la (widerOf p la),
                        keep := keepsAt p hint, age := nextAge s p la })

/-- Allocate the line in each of the places up to the first that holds it, widest first; nothing is cached whose sectors are not all
VAL (R129, R130). A hint to keep a line at one level leaves the allocation at the others as it is by default. DESIGN CHOICE (log
entry 93). -/
def lineFill (s : State) (la hint : Nat) (ps : List Nat) : State :=
  if lineVal s la then
    ((ps.take (1 + (ps.takeWhile fun p => (lineCopy s p la).isNone).length)).filter fun p =>
      !(hint = 1 && p < 256 && (lineCopy s p la).isNone)).reverse.foldl (fillAt la hint) s
  else s

/-- The home slice holds the line afterwards, unless the hint is bypass (R130). -/
def homeFill (s : State) (la hint : Nat) : State :=
  if hint = 5 then s
  else
    let p := l2Place (homeDie la) (sliceOf la)
    let l := ((s.homeL2.getD p []).get? la).getD ⟨false, nextAge s p la⟩
    shrink (leaveSet p) p la 26
      { s with homeL2 := s.homeL2.set p ((s.homeL2.getD p []).set la { l with keep := l.keep || keepsAt p hint }) }

/-- The places at which an access at a scope and hint performs, after the narrower copies on the path have gone. Hint 5 is
served at the home (R130). -/
def placesFor (h la scope hint : Nat) : List Nat :=
  if hint = 5 then [] else (pathOf h la).drop (levelOf scope)

/-- The narrower copies on the issuer's own path are written back and dropped before an access at a wider level. -/
def descend (s : State) (h la scope hint : Nat) : State :=
  ((pathOf h la).take (if hint = 5 then 3 else levelOf scope)).foldl (fun s p => evict s p la) s

/-- The line is brought in: at the places of the access, and at its home slice where none of them held it. -/
def allocate (s : State) (la hint : Nat) (ps : List Nat) : State :=
  lineFill (if ps.all fun p => (lineCopy s p la).isNone then homeFill s la hint else s) la hint ps

/-- Read `n` bytes of one line at the level of a scope (R130, R148). -/
def readAt (s : State) (h pa n scope hint : Nat) : State × List Byte :=
  let la := alignDown pa 128
  let s := descend s h la scope hint
  let ps := placesFor h la scope hint
  (allocate s la hint ps, ((lineRead s la ps).drop (pa - la)).take n)

/-- Write bytes of one line `la`, with their addresses, at the level of a scope, for the agent at `p`, whose virtual addresses lie `vofs`
above the physical ones. A line with a sector that is not VAL is served at the home (R129). -/
def writeLine (s : State) (c h : Nat) (p : Site) (vofs : W64) (la : Nat) (ws : List (Nat × Byte)) (scope hint : Nat) : State :=
  let s := descend s h la scope hint
  if lineVal s la then
    let ps := placesFor h la scope hint
    pushBytes (allocate s la hint ps) c la ws [] ps
  else homeStoreBy (homeFill (recallLine s la) la hint) c p vofs ws

/-- Write consecutive bytes of one line. -/
def writeAt (s : State) (c h : Nat) (p : Site) (vofs : W64) (pa : Nat) (bs : List Byte) (scope hint : Nat) : State :=
  writeLine s c h p vofs (alignDown pa 128) (bs.zipIdx.map fun p => (pa + p.2, p.1)) scope hint

/-! ### Translation (R133-R137) -/

/-- A page-table entry's fields (R134). -/
structure Pte where
  v : Bool
  leaf : Bool
  r : Bool
  w : Bool
  x : Bool
  cbit : Bool
  host : Bool
  addr : Nat
  raw : Nat
  format : Bool
  deriving DecidableEq, Repr

/-- The fields of an entry at level 0 (root) to 3 (last), and whether it breaks the table of R134. -/
def pteOf (level v : Nat) : Pte :=
  let b (i : Nat) : Bool := v / 2 ^ i % 2 = 1
  let target := v / 2 ^ 59 % 4
  let addr := v / 2 ^ 12 % 2 ^ 40 * 2 ^ 12
  { v := b 0, leaf := b 2, r := b 3, w := b 4, x := b 62, cbit := b 61, host := target = 1, addr := addr, raw := v
    format := (b 63 || v / 2 ^ 52 % 2 ^ 7 ≠ 0 || v / 2 ^ 7 % 2 ^ 5 ≠ 0 || b 5 || b 1 || 2 ≤ target ||
      (target = 0 && 2 ^ 40 ≤ addr) || (level = 0 && b 2) || (level = 3 && !b 2)) }

/-- What a translation gives. -/
inductive TrRes where
  | ok (t : Tlb)
  | absent (hostTarget : Bool)
  | format
  /-- ATS refuses a table of the walk in host memory (R136) -/
  | refused
  /-- a table lies at a die that refuses the walk's read (R374) -/
  | offline (die : Nat)
  /-- no route leads to a table (R372) -/
  | waits
  deriving DecidableEq, Repr

/-- The shift of a level's index (R133). -/
def levelShift (level : Nat) : Nat := 39 - 9 * level

/-- The address of the entry of a table that translates `va`. -/
def pteAddr (level table va : Nat) : Nat := table + 8 * (va / 2 ^ levelShift level % (if level = 0 then 8192 else 512))

/-- The entry of a table that translates `va`; tables are read at .DV, at their home, or in host memory through ATS (R134). -/
def readPte (s : State) (host : Bool) (level table va : Nat) : Pte :=
  pteOf level (Memory.readNat (if host then s.hostMem else s.mem) (pteAddr level table va) 8)

/-- What must be alike in the entries of a C group: all but the address and the A bit (log entry 77). -/
def Pte.fields (e : Pte) : Nat := e.raw - e.raw / 2 ^ 12 % 2 ^ 40 * 2 ^ 12 - e.raw / 2 ^ 6 % 2 * 2 ^ 6

/-- Sixteen aligned entries with C set translate together only if all are valid, alike, and step by the small page from an
aligned base (R135). -/
def cGroupOk (s : State) (host : Bool) (level table va : Nat) : Bool :=
  let small := 2 ^ levelShift level
  let va0 := alignDown va (16 * small)
  let e0 := readPte s host level table va0
  e0.addr % (16 * small) = 0 && (List.range 16).all fun i =>
    let e := readPte s host level table (va0 + i * small)
    e.v && !e.format && e.leaf && e.cbit && e.fields = e0.fields && e.addr = e0.addr + i * small

/-- The walker sets the A bit of an entry on its first use (R134). -/
def markUsed (s : State) (host : Bool) (level table va : Nat) : State :=
  let a := pteAddr level table va
  let raw := (readPte s host level table va).raw
  if raw / 64 % 2 = 1 then s
  else if host then { s with hostMem := Memory.writeNat s.hostMem a 8 (raw + 64) }
  else { s with mem := Memory.writeNat s.mem a 8 (raw + 64) }

/-- A die whose requests are refused: DRAINED to READMITTING (R374). -/
def dieRefuses (s : State) (d : Nat) : Bool :=
  match (s.die d).state with | .online => false | .quiescing => false | _ => true

/-- The I/O die of a compute die: 0 for N, 1 for S (R5, R9). -/
def ioOf (d : Nat) : Nat := d / 2 % 2

/-- A route holds between a compute die and an I/O die: its own link, or one over an ONLINE die that has a link (R9, R371, R372). -/
def routed (s : State) (d io : Nat) : Bool := ioOf d = io || (s.die (2 * io)).state = .online || (s.die (2 * io + 1)).state = .online

/-- The place on an I/O die from which the front end, the host and Weave ports reach memory: it translates through the TLB of die 0 for N,
of die 2 for S (log entry 11). -/
def ioHand (io : Nat) : Nat := 4096 + 128 * io

/-- A route leads from a hand, or a place on an I/O die, to a compute die: the compute dies are linked pair by pair (R9, R372). -/
def reaches (s : State) (h d : Nat) : Bool := h < 4096 || routed s d (ioOf (dieOf h))

/-- A route leads to host memory, behind I/O die N. -/
def reachesHost (s : State) (h : Nat) : Bool := 4096 ≤ h || routed s (dieOf h) 0

/-- What keeps a walk from hand `h` from a table: no route, a die that refuses, ATS (R136, R372, R374). -/
def tableStop (s : State) (h : Nat) (host : Bool) (table : Nat) : Option TrRes :=
  if host then
    if !reachesHost s h then some .waits else if s.atsRefused.contains (table / 4096) then some .refused else none
  else if !reaches s h (homeDie table) then some .waits
  else if dieRefuses s (homeDie table) then some (.offline (homeDie table))
  else none

/-- The walk from a table of a level, in host memory where `host`, with the levels that remain (R133-R136). A leaf whose address
is not aligned to its page gives the sum of the address and the offset in the page (log entry 77). -/
def walk (s : State) (h pasid va : Nat) (host : Bool) : Nat → Nat → Nat → State × TrRes
  | 0, _, _ => (s, .format)
  | fuel + 1, level, table =>
    let e := readPte s host level table va
    let stop := tableStop s h host table
    if stop.isSome then (s, stop.getD .waits)
    else if !e.v then (s, .absent e.host)
    else if e.format then (s, .format)
    else if e.leaf then
      let small := 2 ^ levelShift level
      let big := e.cbit && (level = 3 || level = 2) && cGroupOk s host level table va
      let size := if big then 16 * small else small
      let base := if big then (readPte s host level table (alignDown va size)).addr else e.addr
      (markUsed s host level table va,
        .ok { pasid := pasid, va := alignDown va size, size := size, pa := base, host := e.host, r := e.r, w := e.w, x := e.x })
    else walk (markUsed s host level table va) h pasid va e.host fuel (level + 1) e.addr

/-- The TLB entry that covers `va`. -/
def tlbFind (l : List Tlb) (pasid va : Nat) : Option Tlb :=
  l.find? fun t => t.pasid = pasid && t.va ≤ va && va < t.va + t.size

/-- A TLB entry maps memory of a granule. -/
def Tlb.covers (t : Tlb) (g : Nat) : Bool := !t.host && t.pa < g * 65536 + 65536 && g * 65536 < t.pa + t.size

/-! ### Write ownership (R138, R139) -/

/-- The sub-page of an address. -/
def subPage (pa : Nat) : Nat := pa / 4096 % 16

/-- The holder of a sub-page: none where it is FREE. -/
def Granule.holder (g : Granule) (p : Nat) : Option Nat := if g.owned then some g.owner else g.sub.get? p

/-- The mask of the sub-pages of a granule that an agent owns: what a TLB entry of the agent carries for it (R138). -/
def ownedMask (s : State) (a n : Nat) : BitVec 16 :=
  match s.granules.get? n with
  | none => 0
  | some g => (List.range 16).foldl (fun m p => if g.holder p = some a then m ||| BitVec.twoPow 16 p else m) 0

/-- The rows of R139 for a write of agent `a`: a granule OWNED by another splits, keeping to its owner the sub-pages it
wrote; then the sub-page passes to the writer. -/
def Granule.take (g : Granule) (a p : Nat) : Granule :=
  if g.owned then
    if g.owner = a then { g with wrote := g.wrote.insert p }
    else
      let kept : Map Nat := (List.range 16).filterMap fun i => if g.wrote.contains i then some (i, g.owner) else none
      { g with owned := false, owner := 0, sub := Map.set kept p a, wrote := [] }
  else { g with sub := g.sub.set p a }

/-- The agent from which a sub-page passes to `a`, whose writes to it must have reached their home first (R139). -/
def Granule.passes (g : Granule) (a p : Nat) : Option Nat :=
  match g.holder p with
  | some b => if b = a || (g.owned && !g.wrote.contains p) then none else some b
  | none => none

/-- The dirty bytes of a 4 KiB page reach their home. -/
def flushPage (s : State) (pa : Nat) : State :=
  s.caches.keys.foldl (fun s p =>
    (((s.caches.getD p []).keys).filter fun la => la / 4096 = pa / 4096).foldl (fun s la => writeBack s p la) s) s

/-- The granules that a die's home slices hold records of; when there are 65,536, the oldest grant is released (R139). -/
def oldestGranule (s : State) (d : Nat) : Option Nat :=
  let gs := s.granules.filter fun g => homeDie (g.1 * 65536) = d
  if gs.length < 65536 then none
  else (gs.foldl (fun (m : Option (Nat × Granule)) g =>
    match m with | none => some g | some v => if g.2.order < v.2.order then some g else some v) none).map (·.1)

/-- Agent `a` takes write ownership of the sub-page of `pa`. -/
def acquireOwnership (s : State) (a pa : Nat) : State :=
  let n := pa / 65536
  match s.granules.get? n with
  | none =>
    let gs := match oldestGranule s (homeDie pa) with | some o => s.granules.erase o | none => s.granules
    { s with granules := gs.set n { owned := true, owner := a, sub := [], wrote := [subPage pa],
                                    order := 1 + (gs.map (·.2.order)).foldl max 0 } }
  | some g =>
    let s := if (g.passes a (subPage pa)).isSome then flushPage s pa else s
    { s with granules := s.granules.set n (g.take a (subPage pa)) }

/-- Agent `a` releases what it owns of a granule; a SPLIT granule with no owned sub-page becomes FREE. -/
def releaseOwnership (s : State) (a : Nat → Bool) (inRange : Nat → Bool) : State :=
  { s with granules := s.granules.filterMap fun p =>
      if inRange p.1 then
        if p.2.owned then (if a p.2.owner then none else some p)
        else
          let sub := p.2.sub.filter fun q => !a q.2
          if sub.isEmpty then none else some (p.1, { p.2 with sub := sub })
      else some p }

/-! ### TLBs (R133, R137, R139) -/

/-- What agents own through TLB entries that go is released (R139). -/
def releaseGone (s : State) (a : Nat → Bool) (gone : List Tlb) : State :=
  if gone.isEmpty then s else releaseOwnership s a fun g => gone.any fun t => t.covers g

/-- The copy engines that use a die's TLB: its bulk engines and the near engines of its hands (R133). -/
def copyOwner (d a : Nat) : Bool := a = 512 + d || (256 ≤ a && a < 512 && dieOf (a - 256) = d)

/-- An entry enters a hand's TLB of 1024 entries; the entry that has been in it longest leaves a full one (log entry 76). -/
def handFill (s : State) (h : Nat) (t : Tlb) : State :=
  releaseGone (s.updHand h fun x => { x with tlb := t :: x.tlb.take 1023 }) (· = h) ((s.hand h).tlb.drop 1023)

/-- The set of a die's TLB, of 2048, that an entry is in (log entry 76). -/
def Tlb.set (t : Tlb) : Nat := t.va / t.size % 2048

/-- An entry enters a die's TLB of 2048 sets of 8; the entry that has been in its set longest leaves a full set (log entry 76). -/
def dieFill (s : State) (d : Nat) (t : Tlb) : State :=
  let gone := ((s.die d).tlb.filter fun x => x.set = t.set).drop 7
  releaseGone (s.updDie d fun x => { x with tlb := t :: x.tlb.filter fun y => !gone.contains y }) (copyOwner d) gone

/-- Translate for an agent of a hand: through the hand's TLB where `own`, then its die's, then a walk from PTROOT that fills them
(R133, R137). Copy engines use their die's TLB alone. -/
def translate (s : State) (c h : Nat) (own : Bool) (va : Nat) : State × TrRes :=
  let pasid := pasidOf s c
  match (if own then tlbFind (s.hand h).tlb pasid va else none) with
  | some t => (s, .ok t)
  | none =>
    match tlbFind (s.die (dieOf h)).tlb pasid va with
    | some t => (if own then handFill s h t else s, .ok t)
    | none =>
      let root := match s.ctx? c with | some x => x.ptroot.toNat | none => 0
      match walk s h pasid va false 4 0 root with
      | (s, .ok t) =>
        let s := dieFill s (dieOf h) t
        (if own then handFill s h t else s, .ok t)
      | r => r

/-! ### The order of access checks (R115-R121, R123, R136) -/

/-- The writing agents: hands, near engines and bulk engines (R138). -/
inductive Eng where
  | cc | lane | stream | gather | near | bulk
  deriving DecidableEq, Repr

/-- Who accesses: the hand, the context, the engine, the four segment registers, its place in records, and by how much the virtual
addresses of a write under way lie above the physical ones (R253, R338). -/
structure Actor where
  hand : Nat
  ctx  : Nat
  eng  : Eng
  gseg : Seg
  pseg : Seg
  kseg : Seg
  lseg : Seg
  site : Site := { engine := 0, hand := 0 }
  vofs : W64 := 0
  /-- who asks a peer, and for which part of its access (R366) -/
  who  : Agent := .device
  part : Nat := 0
  deriving DecidableEq, Repr

/-- The ownership number of an actor. -/
def Actor.owner (a : Actor) : Nat :=
  match a.eng with | .near => 256 + a.hand | .bulk => 512 + dieOf a.hand | _ => a.hand

/-- The engine code of a record (R338; R145). -/
def Eng.code : Eng → Nat
  | .cc => 0 | .lane => 1 | .stream => 2 | .gather => 3 | .near => 4 | .bulk => 5

/-- The agent translates through its hand's TLB (R133). -/
def Eng.own : Eng → Bool
  | .near | .bulk => false | _ => true

/-- What an access does. -/
inductive Acc where
  | load | store | atomic
  deriving DecidableEq, Repr

/-- The answer of the checks of R119 steps 1 to 8. -/
inductive Chk where
  | ok (t : Tgt)
  | fault (c : FaultCode)
  | disabled
  | park (va : Nat)
  | offline (die : Nat)
  /-- a copy that has issued owns the line, or no route holds: the access is made again (R161, R372) -/
  | waits
  deriving DecidableEq, Repr

/-- The first offset of the system area (R123). -/
def sysArea : Nat := 0x3FD800

/-- The segment check (R118) on an address and a length. -/
def Seg.admits (g : Seg) (a n : Nat) : Bool := g.base.toNat ≤ a && a + n ≤ g.base.toNat + g.limit.toNat

/-- The bin window: 4 × 1024 units of 64 bytes at the top of the physical space (R331 names no address; log entry 9). -/
def binWindow : Nat := 2 ^ 40 - 4 * 1024 * 64

/-- The context may send page requests (R313, R350, R360). -/
def mayRequest (s : State) (c : Nat) : Bool :=
  match s.ctx? c with
  | some x => x.pageReq && !x.priBlocked && ctxField s c 6 1 / 2 % 2 = 1
  | none => false

/-- An entry with V = 0 (R134, R350): the access waits for a page request where one may be sent, unless one was refused. -/
def notPresent (s : State) (c va : Nat) (request : Bool) : State × Chk :=
  if request && mayRequest s c && !(match s.ctx? c with | some x => x.denied.contains (s.cur, va) | none => false) then (s, .park va)
  else (s.updCtx c fun x => { x with denied := x.denied.erase (s.cur, va) }, .fault .pageAbsent)

/-- What a device physical address names for an access from hand `h`, a unit of the bin window or memory of a die, or what stops the access:
no route leads to the die, or it refuses (R331, R372, R374). -/
def devPlace (s : State) (h pa : Nat) : Chk :=
  let d := if binWindow ≤ pa then (pa - binWindow) / 65536 else homeDie pa
  if !reaches s h d then .waits
  else if dieRefuses s d then .offline d
  else if binWindow ≤ pa then .ok (.bin d ((pa - binWindow) / 64 % 1024))
  else .ok (.dev pa)

/-- Step 8 of R119 on a virtual address: translation, permission, ATS, the home die's state. `request` is false where
the rule says that no page request is sent. -/
def checkVirtual (s : State) (c h : Nat) (own : Bool) (acc : Acc) (va : Nat) (request : Bool) : State × Chk :=
  match translate s c h own va with
  | (s, .format) => (s, .fault .pteFormat)
  | (s, .refused) => (s, .fault .pagePerm)
  | (s, .offline d) => (s, .offline d)
  | (s, .waits) => (s, .waits)
  | (s, .absent host) => notPresent s c va (host && request)
  | (s, .ok t) =>
    if (acc ≠ .store && !t.r) || (acc ≠ .load && !t.w) then (s, .fault .pagePerm)
    else
      let pa := t.pa + (va - t.va)
      if t.host then
        (s, if !reachesHost s h then .waits else if s.atsRefused.contains (pa / 4096) then .fault .pagePerm else .ok (.host pa))
      else (s, devPlace s h pa)

/-- The fields of a scratchpad address that R116 lets an access of `n` bytes have: the hand named and the offset. -/
def scratchForm (h : Nat) (a : W64) (n : Nat) : Option (Nat × Nat) :=
  let o := bits a 21 0
  if bits a 63 32 = 0 && bits a 22 22 = 0 && o + n ≤ 0x400000 then
    if bits a 31 31 = 1 then some (bits a 30 23, o) else if bits a 30 23 = 0 then some (h, o) else none
  else none

/-- The fault of a write into the system area (R123), if it overlaps it. -/
def sysFault (o n : Nat) : Option FaultCode :=
  if o + n ≤ sysArea then none else some (if o < 0x3FE000 then .barClobber else .dequeClobber)

/-- Steps 1 to 7 of R119 for a scratchpad access. -/
def checkScratch (s : State) (a : Actor) (acc : Acc) (n : Nat) (edis6 : Bool) (addr : W64) (algn : Nat) : Chk :=
  match scratchForm a.hand addr n with
  | none => .fault .addrForm
  | some (h, o) =>
    if h ≠ a.hand && edis6 && a.eng = .cc then .disabled
    else if o % algn ≠ 0 then .fault .align
    else if h ≠ a.hand && (a.eng = .lane || a.eng = .stream || a.eng = .gather || (a.eng = .bulk && dieOf h ≠ dieOf a.hand))
      then .fault .spaceReach
    else if !s.enabled h then .fault .nodeAbsent
    else if h ≠ a.hand && !s.resident a.ctx h then .fault .handOwner
    else
      match if acc = .load then none else sysFault o n with
      | some f => .fault f
      | none => if a.pseg.admits o n then .ok (.scratch h o) else .fault .segLimit

/-- The I/O die of a Weave port: 0 to 17 lie on N, 18 to 35 on S (R9). -/
def portIo (port : Nat) : Nat := if port < 18 then 0 else 1

/-- A domain pointer of another device: without a route in the table the device is unreachable; the way to the port's I/O die may be
closed (R9, R365, R367, R372, R374). -/
def checkPeer (s : State) (h dev addr : Nat) : Chk :=
  match s.weave.routes.get? dev with
  | none => .offline (2 ^ 31 + dev)
  | some port => if routed s (dieOf h) (portIo port) then .ok (.peer dev addr) else .waits

/-- Steps 1 to 8 of R119 for a global address; .DM names a domain pointer, served locally where it names this
device, and then not checked against GSEG. DESIGN CHOICE (log entry 85). -/
def checkGlobal (s : State) (a : Actor) (acc : Acc) (n scope : Nat) (addr : W64) (algn : Nat) (request : Bool) : State × Chk :=
  let top := bits addr 63 52
  let low := bits addr 51 0
  let own := match s.weave.devNum with | some d => top = d | none => true
  if scope = 4 && !own then
    if 2303 < top then (s, .fault .addrForm)
    else if low % algn ≠ 0 then (s, .fault .align)
    else (s, checkPeer s a.hand top low)
  else if scope ≠ 4 && top ≠ 0 then (s, .fault .addrForm)
  else if low % algn ≠ 0 then (s, .fault .align)
  else if scope ≠ 4 && !a.gseg.admits low n then (s, .fault .segLimit)
  else checkVirtual s a.ctx a.hand a.eng.own acc low request

/-- A store or atomic to the bin window faults with SPACE_REACH (R331). -/
def noBin (acc : Acc) (r : State × Chk) : State × Chk :=
  match r.2 with
  | .ok (.bin ..) => if acc = .load then r else (r.1, .fault .spaceReach)
  | _ => r

/-- Steps 1 to 8 of R119: `space` is the code of R63, `addr` the address the instruction forms (R224), `n` the access's
bytes and `algn` its alignment, which in constant and private space the sum of the segment's base and the offset must have. DESIGN
CHOICE (log entry 86). A sum of 2^52 or more lies outside the translated space and gives SEG_LIMIT. DESIGN CHOICE (log entry 94). -/
def checkAccess (s : State) (a : Actor) (acc : Acc) (space scope n algn : Nat) (edis6 : Bool) (addr : W64) (request : Bool) :
    State × Chk :=
  match space with
  | 0 => noBin acc (checkGlobal s a acc n scope addr algn request)
  | 1 => (s, checkScratch s a acc n edis6 addr algn)
  | _ =>
    let seg := if space = 2 then a.kseg else a.lseg
    let va := (seg.base + addr).toNat
    if va % algn ≠ 0 then (s, .fault .align)
    else if space = 2 && acc ≠ .load then (s, .fault .spaceReach)
    else if !seg.admits va n || 2 ^ 52 ≤ va then (s, .fault .segLimit)
    else noBin acc (checkVirtual s a.ctx a.hand a.eng.own acc va request)

/-! ### Poison (R142-R145) -/

/-- A unit of device memory is poisoned as an access of hand `h` at a scope and hint finds it (R142). -/
def unitMarked (s : State) (h scope hint u : Nat) : Bool :=
  let la := alignDown (u * 64) 128
  (lineMarks (descend s h la scope hint) la (placesFor h la scope hint)).getLsbD (u % 2)

/-- The poisoned 64-byte units that `n` bytes at a target touch, device memory as its homes hold it. -/
def poisonedUnits (s : State) (t : Tgt) (n : Nat) : List Nat :=
  match t with
  | .dev pa => (List.range ((pa + n - 1) / 64 - pa / 64 + 1)).map (pa / 64 + ·) |>.filter s.poison.contains
  | .scratch h o => (List.range ((o + n - 1) / 64 - o / 64 + 1)).map (o / 64 + ·) |>.filter (s.hand h).scratchPoison.contains
  | _ => []

/-- The poisoned units that an access of hand `h` at a scope and hint touches. -/
def poisonedFor (s : State) (h : Nat) (t : Tgt) (n scope hint : Nat) : List Nat :=
  match t with
  | .dev pa => (List.range ((pa + n - 1) / 64 - pa / 64 + 1)).map (pa / 64 + ·) |>.filter (unitMarked s h scope hint)
  | _ => poisonedUnits s t n

/-- The poison policy of a space's segment register (R143): true for FAULT. -/
def Actor.faults (a : Actor) (space : Nat) : Bool :=
  (match space with | 0 => a.gseg | 1 => a.pseg | 2 => a.kseg | _ => a.lseg).pol = 1

/-- The offset or physical address by which a target's units are counted. -/
def Tgt.base : Tgt → Nat
  | .dev pa => pa | .host p => p | .scratch _ o => o | .peer _ p => p | .bin _ _ => 0

/-- The actor as it writes to a target that its address `va` names. -/
def Actor.toward (a : Actor) (va : W64) (t : Tgt) : Actor := { a with vofs := va - BitVec.ofNat 64 t.base }

/-- The virtual address of an access: constant and private addresses are offsets from their segment's base (R224). -/
def Actor.virtual (a : Actor) (space : Nat) (addr : W64) : W64 :=
  match space with | 2 => a.kseg.base + addr | 3 => a.lseg.base + addr | _ => addr

/-- The address of a unit in a record (R145), in the form of the access's own address: virtual, or a scratchpad address as R116
lays it out, whose hand is the record's when ABS is 0. -/
def unitAddr (t : Tgt) (va : W64) (u : Nat) : Nat := (va + BitVec.ofNat 64 (u * 64) - BitVec.ofNat 64 t.base).toNat

/-- One record for each distinct poisoned unit, ascending (R143). -/
def logPoison (s : State) (a : Actor) (t : Tgt) (va : W64) (space outcome : Nat) (units : List Nat) (seq : Nat) : State :=
  units.foldl (fun s u => postPoison s a.ctx (unitAddr t va u) space outcome a.hand a.eng.code seq) s

/-! ### Scratchpad contents (R123, R241) -/

/-- The barrier `n` of the team in a slot; an unwritten one is all zero. -/
def barrierOf (t : Team) (n : Nat) : Barrier := t.bars.getD n ⟨0, 0, 0, 0⟩

/-- The 32 bytes of a barrier object (R241). -/
def Barrier.bytes (b : Barrier) : List Byte :=
  toBytes 2 b.arrivals.toNat ++ toBytes 2 b.expected.toNat ++ toBytes 4 b.phase.toNat ++ toBytes 8 b.pending.toNat ++
    List.replicate 16 0

/-- A byte of the scratchpad of hand `h` as context `c` reads it: the system area shows the barriers and the deque
(R123, R198). -/
def scratchByte (s : State) (c h o : Nat) : Byte :=
  if o < sysArea then Memory.get (s.hand h).scratch o
  else if o < 0x3FE000 then
    let k := (o - sysArea) / 1024
    match s.teams.get? (h * 2 + k) with
    | some t => ((barrierOf t ((o - sysArea) % 1024 / 32)).bytes).getD (o % 32) 0
    | none => 0
  else
    match (s.hand h).deque[(o - 0x3FE000) / 32]? with
    | some (c', ws) => if c' = c then ((ws.flatMap fun w => toBytes 8 w.toNat)).getD (o % 32) 0 else 0
    | none => 0

/-- Write scratchpad bytes of the software area; a unit wholly covered loses its poison (R144). -/
def scratchWrite (s : State) (h o : Nat) (bs : List Byte) : State :=
  s.updHand h fun x =>
    { x with scratch := Memory.write x.scratch o bs,
             scratchPoison := x.scratchPoison.filter fun u => !(o ≤ u * 64 && u * 64 + 64 ≤ o + bs.length) }

/-- The same for bytes with their offsets, which one access writes. -/
def scratchBytes (s : State) (h : Nat) (ws : List (Nat × Byte)) : State :=
  s.updHand h fun x =>
    { x with scratch := ws.foldl (fun m w => Memory.put m w.1 w.2) x.scratch,
             scratchPoison := x.scratchPoison.filter fun u => (ws.filter fun w => w.1 / 64 = u).length ≠ 64 }

/-! ### Performing (R140, R141, R148, R157) -/

/-- A flit leaves for a device, by the port of its route, with the next link number of the port; it stays in the port's replay buffer,
which the link's 12-bit numbers bound (R367). A device without a route receives nothing. -/
def sendFlit (s : State) (src dst addr : Nat) (body : FlitBody) : State :=
  match s.weave.routes.get? dst with
  | none => s
  | some p =>
    let q := s.weave.sendSeq.getD p 0
    let f : Flit := { port := p, src := src, dst := dst, lane := addr / 2 ^ 11 % 16, seq := q, crcOk := true, body := body }
    let mine := s.weave.buffer.filter fun g => g.port = p
    let kept := if mine.length < 4095 then s.weave.buffer else s.weave.buffer.erase (mine.headD f)
    ({ s with weave := { s.weave with sendSeq := s.weave.sendSeq.set p ((q + 1) % 4096), buffer := kept ++ [f] } }).send (.flit f)

/-- The request that an access of the actor to a peer has sent (R366). -/
def peerReq (s : State) (a : Actor) (dev addr : Nat) (op : DomainOp) : Option PeerReq :=
  s.weave.reqs.find? fun r => r.agent = a.who && r.part = a.part && r.dev = dev && r.addr = addr && r.op = op

/-- A request goes to a peer; its access waits for the reply. -/
def peerSend (s : State) (a : Actor) (dev addr : Nat) (op : DomainOp) : State :=
  let id := s.weave.nextReq
  let src := s.weave.devNum.getD 0
  let s := { s with weave := { s.weave with
    nextReq := id + 1,
    reqs := s.weave.reqs ++ [{ id := id, agent := a.who, ctx := a.ctx, part := a.part, dev := dev, addr := addr, op := op, reply := none }] } }
  sendFlit s src dev addr (.request id { src := src, addr := addr, op := op })

/-- An agent asks peers for something. -/
def asking (s : State) (a : Agent) : Bool := s.weave.reqs.any fun r => r.agent = a

/-- How a peer has answered an access: it has not, it has performed it, it refuses it with a fault (R366). A code that is no code of
R339 refuses as DIE_OFFLINE does (log entry 95). -/
inductive PeerSays where
  | waits
  | done (poison : Bool)
  | fault (f : FaultCode)
  | offline
  deriving DecidableEq, Repr

/-- The meaning of a reply's code (R366, R374). -/
def saysCode (code : Nat) : PeerSays :=
  if code = 0 then .done false
  else if code = FaultCode.poison.code then .done true
  else if code = FaultCode.pageAbsent.code then .fault .pageAbsent
  else if code = FaultCode.pagePerm.code then .fault .pagePerm
  else if code = FaultCode.cellBusy.code then .fault .cellBusy
  else .offline

/-- An access asks its peer, if it names one and has not asked yet, and how the peer has answered (R366). -/
def peerAsk (s : State) (a : Actor) (t : Tgt) (op : DomainOp) : State × PeerSays :=
  match t with
  | .peer d p =>
    (match peerReq s a d p op with
     | none => (peerSend s a d p op, .waits)
     | some r => (s, match r.reply with | none => .waits | some x => saysCode x.1))
  | _ => (s, .done false)

/-- The requests of an agent for a part of its access are over. -/
def peerDone (s : State) (a : Agent) (part : Nat) : State :=
  { s with weave := { s.weave with reqs := s.weave.reqs.filter fun r => !(r.agent = a && r.part = part) } }

/-- The bytes of a peer's reply to an access, zeros where the peer reports poison; a byte that a reply lacks is free (log entry 2). -/
def peerData (s : State) (a : Actor) (dev addr n : Nat) (op : DomainOp) : List Byte :=
  match peerReq s a dev addr op with
  | some r =>
    let x := r.reply.getD (0, [])
    if x.1 = FaultCode.poison.code then List.replicate n 0 else (List.range n).map fun i => x.2.getD i (Config.peerByte r.id i)
  | none => List.replicate n 0

/-- The bytes of a location at a scope's level; those of a peer are its reply's (R366). Private lines act at the L1 of their issuer
whatever the scope of an atomic (R141): the caller passes scope 0. -/
def readTgt (s : State) (a : Actor) (t : Tgt) (n scope hint : Nat) : State × List Byte :=
  match t with
  | .dev pa => readAt s a.hand pa n scope hint
  | .host p => (s, Memory.read s.hostMem p n)
  | .scratch h o => (s, (List.range n).map fun i => scratchByte s a.ctx h (o + i))
  | .peer d p => (peerDone s a.who a.part, peerData s a d p n (.load n))
  | .bin _ _ => (s, List.replicate n 0)

/-- Write bytes at a location; a device write takes ownership first (R139). A peer has performed its write. -/
def writeTgt (s : State) (a : Actor) (t : Tgt) (bs : List Byte) (scope hint : Nat) : State :=
  match t with
  | .dev pa => writeAt (acquireOwnership s a.owner pa) a.ctx a.hand a.site a.vofs pa bs scope hint
  | .host p => { s with hostMem := Memory.write s.hostMem p bs }
  | .scratch h o => scratchWrite s h o bs
  | .peer _ _ => peerDone s a.who a.part
  | .bin _ _ => s

/-- The value of R229's table: the old value `v`, the operand `b` and the compare value `c`, of `w` bits. -/
def atomicFn (fn w : Nat) (v b c : Nat) : Nat :=
  let m := 2 ^ w
  let sg (x : Nat) : Int := if x < m / 2 then (x : Int) else (x : Int) - (m : Int)
  match fn with
  | 0 => (v + b) % m
  | 1 => v &&& b | 2 => v ||| b | 3 => v ^^^ b
  | 4 => if sg v ≤ sg b then v else b
  | 5 => if sg v ≤ sg b then b else v
  | 6 => min v b | 7 => max v b
  | 8 => b
  | _ => if v = c then b else v

/-- What an atomic asks of a peer: operands of `w` bits (R167). -/
def atomicOp (fn w b c : Nat) : DomainOp := .atomic fn w (BitVec.ofNat 64 b) (BitVec.ofNat 64 c)

/-- One atomic at its place: reads the old value and writes the new one there in one step (R140, R229). -/
def atomicTgt (s : State) (a : Actor) (t : Tgt) (fn w : Nat) (b c : Nat) (scope hint : Nat) : State × Nat :=
  match t with
  | .peer d p => (peerDone s a.who a.part, ofBytes (peerData s a d p (w / 8) (atomicOp fn w b c)))
  | _ =>
    let (s, bs) := readTgt s a t (w / 8) scope hint
    let v := ofBytes bs
    (writeTgt s a t (toBytes (w / 8) (atomicFn fn w v b c)) scope hint, v)

/-- The loader's reading of a poisoned unit under ZERO: its bytes read as 0 (R143). -/
def zeroPoison (units : List Nat) (o : Nat) (bs : List Byte) : List Byte :=
  bs.zipIdx.map fun p => if units.contains ((o + p.2) / 64) then 0 else p.1

/-- The answer of a load (R143, R248, R366): its bytes, or what stops it. -/
inductive Loaded where
  | bytes (bs : List Byte)
  | poisoned
  | cell (pa : Nat)
  | refused (f : FaultCode)
  | offline (dev : Nat)
  | waits
  deriving DecidableEq, Repr

/-- A peer's reply to a load: poison is treated by the policy of the space, where the bytes of the access read 0 under ZERO, since the
reply does not say which units are poisoned (R143, R366). DESIGN CHOICE (log entry 95). -/
def loadPeer (s : State) (a : Actor) (d p : Nat) (addr : W64) (n space seq : Nat) : State × Loaded :=
  match peerAsk s a (.peer d p) (.load n) with
  | (s, .waits) => (s, .waits)
  | (s, .fault f) => (peerDone s a.who a.part, .refused f)
  | (s, .offline) => (peerDone s a.who a.part, .offline d)
  | (s, .done false) => (peerDone s a.who a.part, .bytes (peerData s a d p n (.load n)))
  | (s, .done true) =>
    let s := logPoison (peerDone s a.who a.part) a (.peer d p) addr space (if a.faults space then 1 else 0) [p / 64] seq
    (s, if a.faults space then .poisoned else .bytes (List.replicate n 0))

/-- A load of one location after its checks: in space 0 a sector that is not VAL is answered by the caller (R248), poison by the
policy of the space (R143). A load of constant or private space returns the bytes of such a sector as they stand. DESIGN CHOICE (log
entry 96). A load that POISON stops has logged its records, with outcome 1. DEDUCED (log entry 97). -/
def loadTgt (s : State) (a : Actor) (t : Tgt) (addr : W64) (n space scope hint seq : Nat) : State × Loaded :=
  let cell := match t with | .dev pa => if space = 0 && tagAt s pa ≠ 0 then some pa else none | _ => none
  match t, cell with
  | .peer d p, _ => loadPeer s a d p addr n space seq
  | _, some pa => (s, .cell pa)
  | _, none =>
    let units := poisonedFor s a.hand t n scope hint
    if units.isEmpty then
      let (s, bs) := readTgt s a t n scope hint
      (s, .bytes bs)
    else
      let s := logPoison s a t (a.virtual space addr) space (if a.faults space then 1 else 0) units seq
      if a.faults space then (s, .poisoned)
      else
        let (s, bs) := readTgt s a t n scope hint
        (s, .bytes (zeroPoison units t.base bs))

/-! ### Lines that a copy owns (R161) -/

/-- A copy that has issued holds lines of the target, and has not written them: an access waits for them (R161). -/
def copyHolds (s : State) (t : Tgt) (n : Nat) : Bool :=
  match t with
  | .dev pa => s.hands.any fun p => (p.2.near ++ p.2.bulk).any fun x =>
      x.owned.any fun l => l * 128 < pa + n && pa < l * 128 + 128
  | _ => false

/-! ### The front end's accesses (R305, R306, R326, R364) -/

/-- The front end reads a virtual address of a context for its rings and packets; no page request is sent (R305, R326). It stands on
I/O die N, and its translations go through die 0's TLB (log entry 11). -/
def feTranslate (s : State) (c : Nat) (acc : Acc) (va : W64) : State × Chk :=
  if 2 ^ 52 ≤ va.toNat then (s, .fault .addrForm) else checkVirtual s c (ioHand 0) false acc va.toNat false

/-- What an access of the front end gives: its bytes, a fault, or that it is made again: no route leads there or a copy owns its line
(R161, R372), or a die refuses it (R374). -/
inductive FeRes where
  | ok (bs : List Byte)
  | fault (f : FaultCode)
  | later
  | offline (die : Nat)
  deriving DecidableEq, Repr

/-- The bytes that an access has read. -/
def FeRes.bytes? : FeRes → Option (List Byte)
  | .ok bs => some bs
  | _ => none

/-- Where an access of the front end goes, or why it goes nowhere. -/
def fePlace (s : State) (c : Nat) (acc : Acc) (va : W64) (n : Nat) : State × Except FeRes Tgt :=
  match feTranslate s c acc va with
  | (s, .ok t) => (s, if copyHolds s t n then .error .later else .ok t)
  | (s, .fault f) => (s, .error (.fault f))
  | (s, .offline d) => (s, .error (.offline d))
  | (s, .waits) => (s, .error .later)
  | (s, _) => (s, .error (.fault .pageAbsent))

/-- The front end's read of `n` bytes within one page. -/
def feRead (s : State) (c : Nat) (va : W64) (n : Nat) : State × FeRes :=
  match fePlace s c .load va n with
  | (s, .ok (.dev pa)) =>
    if (poisonedUnits (recallLine s (alignDown pa 128)) (.dev pa) n).isEmpty then (s, .ok (Memory.read (recallLine s (alignDown pa 128)).mem pa n))
    else (s, .fault .poison)
  | (s, .ok (.host p)) => (s, .ok (Memory.read s.hostMem p n))
  | (s, .ok _) => (s, .fault .pageAbsent)
  | (s, .error r) => (s, r)

/-- The front end's store at .DV; the undo log does not cover it (R354). -/
def feWrite (s : State) (c : Nat) (va : W64) (bs : List Byte) : State × FeRes :=
  match fePlace s c .store va bs.length with
  | (s, .ok (.dev pa)) => (homeStoreFe (recallLine s (alignDown pa 128)) c (bs.zipIdx.map fun p => (pa + p.2, p.1)), .ok [])
  | (s, .ok (.host p)) => ({ s with hostMem := Memory.write s.hostMem p bs }, .ok [])
  | (s, .ok _) => (s, .fault .pageAbsent)
  | (s, .error r) => (s, r)

/-- A completion record of a queue is written to the queue's ring: a virtual address of the context's PASID (log entry 10). Only then the
slot's number, the queue's count and its interrupt follow (R364). -/
def writeCompletion (s : State) (r : CompRec) : State × FeRes :=
  match s.queues.get? r.queue with
  | none => (s, .ok [])
  | some qu =>
    let slot := s.slots.getD r.slot ⟨none, 0, 0, false, 0⟩
    let n := slot.comp + 1
    let bytes := toBytes 8 n ++ toBytes 4 r.seq.toNat ++ toBytes 2 r.queue ++ toBytes 1 r.status ++ toBytes 1 r.cause ++
      toBytes 8 r.user.toNat ++ toBytes 2 r.slot ++ toBytes 6 r.detail
    match (if qu.csize = 0 then (s, .ok []) else feWrite s qu.ctx (qu.cbase + BitVec.ofNat 64 (32 * (qu.ccount % qu.csize))) bytes) with
    | (s, .ok _) =>
      let s := { s with slots := s.slots.set r.slot { slot with comp := n } }
      let s := s.updQueue r.queue fun qu => { qu with ccount := qu.ccount + 1 }
      (raiseVector s qu.fn qu.vec, .ok [])
    | (s, x) => (s, x)

/-- Post a completion record of queue `q` through slot `sl`. A record that cannot be written, or that stands behind another of its queue
that could not, waits in the front end and is tried again. DESIGN CHOICE (log entry 98). -/
def postCompletion (s : State) (q sl : Nat) (seq : BitVec 32) (status cause : Nat) (user : W64) (detail : Nat) : State :=
  let r : CompRec := { queue := q, slot := sl, seq := seq, status := status, cause := cause, user := user, detail := detail }
  if s.unposted.any fun x => x.queue = q then { s with unposted := s.unposted ++ [r] }
  else
    match writeCompletion s r with
    | (s, .ok _) => s
    | (s, _) => { s with unposted := s.unposted ++ [r] }

/-- The completion records that could not be written are tried again, in their order; one of a queue stays behind another that fails. -/
def repost (s : State) : State :=
  s.unposted.foldl (fun s r => postCompletion s r.queue r.slot r.seq r.status r.cause r.user r.detail) { s with unposted := [] }

end Sys2Proof.Machine
end

