-- ==== Sys2Proof/Machine/Ops.lean ====
section
/-! DEFINITION. The named operations that meanings share: register access, retirement, the taking of every class of fault
(R335-R341), the driver's resolutions (R337), fatal removal and rollback (R354, R355). -/

namespace Sys2Proof

/-- The agent belongs to the team. -/
def Agent.ofTeam (t : TeamRef) : Agent → Bool
  | .thread r => r.team = t
  | .group g => g.team = t
  | .stream r => r = t
  | _ => false

end Sys2Proof

namespace Sys2Proof.Machine

/-! ### Control-thread registers (R172) -/

/-- X[n]; X0 reads 0. -/
def Thread.rx (t : Thread) (n : R5) : W64 := if n = 0 then 0 else t.x[n.toNat]'(n.isLt)

/-- Write X[n]; a write to X0 is discarded. -/
def Thread.wx (t : Thread) (n : R5) (v : W64) : Thread := if n = 0 then t else { t with x := t.x.set n.toNat v n.isLt }

/-- Write consecutive registers from Xn. -/
def Thread.wxs (t : Thread) (n : R5) : List W64 → Thread
  | [] => t
  | v :: vs => (t.wx n v).wxs (n + 1) vs

/-- X[n] to X[n+3]. -/
def Thread.rx4 (t : Thread) (n : R5) : List W64 := [t.rx n, t.rx (n + 1), t.rx (n + 2), t.rx (n + 3)]

/-! ### Code lines and the chain (R48-R50, R172) -/

/-- The key of a resident line. -/
def imemKey (c img line : Nat) : Nat := (c * 2 ^ 32 + img) * 2 ^ 26 + line

/-- A resident line of a hand's instruction memories (R318). -/
def lineOf (s : State) (h c img line : Nat) : Option (List Byte) := (s.hand h).imem.get? (imemKey c img line)

/-- Word `i` of a line; word 0 is the link word (R48). -/
def lineWord (l : List Byte) (i : Nat) : W32 := wordOfBytes (l.drop (4 * i))

/-- The link word's END bit (R48). -/
def lineEnd (l : List Byte) : Bool := (lineWord l 0).getLsbD 27
/-- The link word's ENTRY bit (R48). -/
def lineEntry (l : List Byte) : Bool := (lineWord l 0).getLsbD 26
/-- The link word's engine field (R48). -/
def lineEngine (l : List Byte) : Nat := (lineWord l 0).toNat / 2 ^ 28
/-- The link word's next-line field (R48). -/
def lineNext (l : List Byte) : Nat := (lineWord l 0).toNat % 2 ^ 26

/-- The image `img` of context `c`, if it is loaded. -/
def imageOf (s : State) (c img : Nat) : Option Image :=
  match s.ctx? c with | some x => x.images.get? img | none => none

/-- The line of an instruction that a team of the context on the hand has in work, which its fetch keeps when the line leaves the
instruction memory. -/
def keptLine (s : State) (h c img line : Nat) : Option (List Byte) :=
  [0, 1].findSome? fun k =>
    match s.team? ⟨h, k⟩ with
    | some tm => if tm.ctx = c then tm.kept.get? (img * 2 ^ 26 + line) else none
    | none => none

/-- A line whose link word an engine that runs in it knows: as it is resident, or as the engine has fetched it, or as the image holds it. -/
def linkedLine (s : State) (h c img line : Nat) : Option (List Byte) :=
  match (lineOf s h c img line).orElse fun _ => keptLine s h c img line with
  | some l => some l
  | none =>
    match imageOf s c img with
    | none => none
    | some im =>
      let va := im.base.toNat + 64 * line
      match (translate s c h true va).2 with
      | .ok t => some (Memory.read (if t.host then s.hostMem else s.mem) (t.pa + (va - t.va)) 64)
      | _ => none

/-- `next` of R172 for an instruction of `w` words at `pc`, whose line is known. -/
def nextOf (line : Option (List Byte)) (pc w : Nat) : Nat :=
  if pc % 16 + w ≤ 15 then pc + w
  else
    match line with
    | some l => if lineEnd l then pc / 16 * 16 else lineNext l * 16 + 1
    | none => pc / 16 * 16

/-- `next` of R172 as the state holds the line. -/
def nextPc (s : State) (h c img pc w : Nat) : Nat := nextOf (linkedLine s h c img (pc / 16)) pc w

/-! ### The thread a step serves -/

/-- What a control instruction reaches: its thread, its team, its context and the line that it stands in. -/
structure Core where
  ref  : ThreadRef
  th   : Thread
  tm   : Team
  ctx  : Ctx
  line : Option (List Byte)
  deriving DecidableEq, Repr

/-- The thread, team and context of a reference. -/
def State.coreOf (s : State) (t : ThreadRef) : Option Core :=
  match s.thread? t, s.team? t.team with
  | some th, some tm =>
    match s.ctx? tm.ctx with
    | some c => some ⟨t, th, tm, c, linkedLine s t.hand tm.ctx th.img (th.pc / 16)⟩
    | none => none
  | _, _ => none

/-- The thread that the step serves. -/
def State.core (s : State) : Option Core :=
  match s.cur with
  | .thread t => s.coreOf t
  | _ => none

/-- The meaning of a control instruction: a function of the served thread; without one nothing happens. -/
def onCore (s : State) (f : Core → State) : Res :=
  match s.core with
  | some k => .next (f k)
  | none => .next s

/-- `next` of the served thread's instruction of `w` words. -/
def Core.next (k : Core) (w : Nat) : Nat := nextOf k.line k.th.pc w

/-- EDIS as it acts and reads: bit 0 is forced on a device outside a Weave domain (R83). -/
def edisOf (s : State) (c : Ctx) : W64 := if s.weave.devNum.isNone then c.edis ||| 1 else c.edis

/-- Retire an instruction of `w` words that changes the thread by `f`: the thread goes on at `next` and waits no more. -/
def retire (s : State) (k : Core) (w : Nat) (f : Thread → Thread) : State :=
  s.updThread k.ref fun th => { f th with pc := k.next w, wait := .none }

/-- Retire with one register written. -/
def retireX (s : State) (k : Core) (w : Nat) (d : R5) (v : W64) : State := retire s k w fun th => th.wx d v

/-- An ALU instruction of `w` words: X[d] := f. -/
def alu (s : State) (w : Nat) (d : R5) (f : Core → W64) : Res := onCore s fun k => retireX s k w d (f k)

/-- The thread's wait is set and the instruction has not retired: it is issued again later. -/
def stall (s : State) (k : Core) (w : Wait) : State := s.updThread k.ref fun th => { th with wait := w }

/-! ### Records of stopped agents (R335-R338) -/

/-- The place of a record about a thread. -/
def threadSite (k : Core) : Site :=
  { engine := 0, hand := k.ref.hand, role := k.ref.role, slot := k.ref.slot, hw := k.th.hw, depth := k.th.depth,
    team := k.tm.teamNo.toNat, img := k.th.img, pc := k.th.pc }

/-- The actor of a thread's own accesses (R117). -/
def Core.actor (k : Core) : Actor :=
  { hand := k.ref.hand, ctx := k.tm.ctx, eng := .cc, gseg := k.th.gseg, pseg := k.th.pseg, kseg := k.th.kseg, lseg := k.th.lseg,
    site := threadSite k, who := .thread k.ref }

/-- The place of a record about a group. -/
def groupSite (s : State) (g : GroupRef) (gr : Group) : Site :=
  let tm := s.team? g.team
  let run := if gr.hrun.isSome then gr.hrun else gr.run
  { engine := 1, hand := g.hand, role := g.role, idx := g.idx, helper := gr.hrun.isSome, slot := g.slot,
    hw := (match s.thread? g.owner with | some th => th.hw | none => 0xFF),
    depth := (match s.thread? g.owner with | some th => th.depth | none => 0),
    team := (match tm with | some t => t.teamNo.toNat | none => 0),
    img := (match run with | some r => r.deal.img | none => 0),
    pc := (match run with | some r => r.pc | none => 0), seq := (match run with | some r => r.deal.seq.toNat | none => 0),
    k := (match run with | some r => r.rot | none => 0), ins := (match run with | some r => r.idx | none => 0) }

/-- The place of a record about a stream. -/
def streamSite (t : TeamRef) (tm : Team) : Site :=
  { engine := 2, hand := t.hand, slot := t.slot, role := tm.stream.owner, team := tm.teamNo.toNat, img := tm.stream.img,
    pc := tm.stream.pc }

/-- Post a record that stops an agent until the driver answers it (R337). -/
def stopAgent (s : State) (c : Nat) (code : FaultCode) (cls : Class) (a : Agent) (p : Site) (addr d1 d2 : W64) : State :=
  let seq := s.errSeq
  (postFault s c code cls p addr d1 d2).updCtx c fun x =>
    { x with unresolved := x.unresolved ++ [⟨seq, code, cls, a, false⟩] }

/-- An unresolved record holds the agent: its own, or for a thread that of a group of its role (R43, R337). -/
def held (s : State) (a : Agent) : Bool :=
  s.ctxs.any fun c => c.2.unresolved.any fun u =>
    !u.dropped && (u.agent = a ||
      match a, u.agent with
      | .thread t, .group g => g.owner = t && g.owner.hand = t.hand
      | _, _ => false)

/-! ### Cells' failures (R249, R250) -/

/-- The waiters of a failed sector leave the wait table; each receives CELL_FAILED with the failure's cause and record (R170, R249). -/
def failWaiters (s : State) (pa cause seq : Nat) : State :=
  let woken := s.waiters.filter fun w => w.1 = pa / 32
  let s := { s with waiters := s.waiters.filter fun w => w.1 ≠ pa / 32 }
  woken.foldl (fun s w =>
    match w.2 with
    | .thread t => s.updThread t fun th => { th with wait := .cellFailed pa cause seq }
    | .group g => s.updGroup g fun x =>
        { x with outst := x.outst.map fun o =>
            { o with elems := o.elems.map fun e => if e.wait && e.tgt = .dev e.tgt.base && e.tgt.base / 32 = pa / 32 then { e with wait := false, failed := some (cause, seq) } else e } }
    | _ => s) s

/-- A sector of context `c` becomes FAIL with a cause and a record's sequence number (R246, R249); its unit is logged before (R352). A
sector that its evaluator has resolved, and is no longer EVAL, keeps its value. DESIGN CHOICE (log entry 99). -/
def failCell (s : State) (c pa cause seq : Nat) : State :=
  let pa := alignDown pa 32
  if tagAt s pa = 2 then
    let s := undoAppend s c (pa / 64)
    let m := Memory.writeNat (Memory.writeNat s.mem (pa + 20) 4 cause) (pa + 24) 8 seq
    settleHomes [alignDown pa 128] (failWaiters (setTag { s with mem := m } pa 3) pa cause seq)
  else s

/-! ### Locks (R254-R256) -/

/-- Release a lock without write-back: the next queued request may be granted; a record names the lock. -/
def dropLock (s : State) (c team lk : Nat) : State :=
  let s := { s with locks := s.locks.modify lk fun l => { l with holder := none } }
  postLock s c lk team

/-- Every lock a thread holds is released without write-back, and it leaves every queue. -/
def dropLocks (s : State) (t : ThreadRef) : State :=
  match s.coreOf t with
  | none => s
  | some k =>
    let s := k.th.holds.keys.foldl (fun s lk => dropLock s k.tm.ctx k.tm.teamNo.toNat lk) s
    let s := { s with locks := s.locks.map fun (p : Nat × Lock) => (p.1, { p.2 with queue := p.2.queue.filter fun q => q ≠ t }) }
    s.updThread t fun th => { th with holds := [] }

/-! ### Removing teams and contexts (R195 step 6, R355) -/

/-- The threads of a team. -/
def teamThreads (s : State) (t : TeamRef) : List ThreadRef :=
  ((List.range 4).map fun r => (⟨t.hand, t.slot, r⟩ : ThreadRef)).filter fun r => (s.thread? r).isSome

/-- The groups of a team. -/
def teamGroups (s : State) (t : TeamRef) : List GroupRef :=
  ((List.range 64).map fun i => (⟨t.hand, t.slot, i / 16, i % 16⟩ : GroupRef)).filter fun g => (s.group? g).isSome

/-- The teams of a context, with their places. -/
def teamsOf (s : State) (c : Nat) : List TeamRef :=
  (s.teams.filter fun p => p.2.ctx = c).map fun (p : Nat × Team) => (⟨p.1 / 2, p.1 % 2⟩ : TeamRef)

/-- A thread runs in the image: at its own place, or at a place that a handler returns to (R349). -/
def Thread.runsIn (th : Thread) (img : Nat) : Bool :=
  th.wait ≠ .exited && (th.img = img || (0 < th.depth && bits th.epc 63 32 = img) || th.windows.any fun w => w.cause.img = img || w.backImg = img)

/-- A thread of the context runs in the image. -/
def imageInUse (s : State) (c img : Nat) : Bool :=
  (teamsOf s c).any fun t => (teamThreads s t).any fun r => match s.thread? r with | some th => th.runsIn img | none => false

/-- The key of an image on a hand. -/
def imageKey (c img : Nat) : Nat := c * 2 ^ 32 + img

/-- The lines of an image leave a hand's instruction memories (R318). -/
def Hand.drop (h : Hand) (key : Nat) : Hand :=
  { h with imem := h.imem.filter fun l => l.1 / 2 ^ 26 ≠ key, maps := h.maps.erase key, loaded := h.loaded.erase key }

/-- The lines of an image leave every hand's instruction memories (R318). -/
def dropLines (s : State) (c img : Nat) : State :=
  { s with hands := s.hands.map fun (p : Nat × Hand) => (p.1, p.2.drop (imageKey c img)) }

/-- The releases of a context take effect for every image in which no thread runs (R349). -/
def releaseImages (s : State) (c : Nat) : State :=
  match s.ctx? c with
  | none => s
  | some x =>
    let gone := (x.images.filter fun p => p.2.releasing && !imageInUse s c p.1).map (·.1)
    gone.foldl (fun s i =>
      let s := { s with teams := s.teams.map fun (p : Nat × Team) =>
        (p.1, if p.2.ctx = c then { p.2 with kept := p.2.kept.filter fun l => l.1 / 2 ^ 26 ≠ i } else p.2) }
      (dropLines s c i).updCtx c fun x => { x with images := x.images.erase i }) s

/-- What the device keeps about a team's agents outside it: waits for cells, records to be answered, parked requests. -/
def forgetTeam (s : State) (t : TeamRef) : State :=
  let cs := s.ctxs.map fun (p : Nat × Ctx) =>
    (p.1, { p.2 with unresolved := p.2.unresolved.filter fun u => !u.agent.ofTeam t, parked := p.2.parked.filter fun k => !k.agent.ofTeam t })
  let copy (r : PeerReq) : Bool :=
    match r.agent with | .copy h _ n => h = t.hand && ((s.hand h).near ++ (s.hand h).bulk).any fun c => c.id = n && c.slot = t.slot | _ => false
  { s with waiters := s.waiters.filter fun w => !w.2.ofTeam t, ctxs := cs,
           weave := { s.weave with reqs := s.weave.reqs.filter fun r => !r.agent.ofTeam t && !copy r } }

/-- A store of a thread that waits to perform keeps its code address for the records about it (R253, R338). -/
def Store.actor (b : Store) (k : Core) : Actor :=
  { k.actor.toward b.va b.tgt with site := { threadSite k with img := b.img, pc := b.pc } }

/-- Perform one buffered store at its scope's level (R155). -/
def performStore (s : State) (k : Core) (b : Store) : State := writeTgt s (b.actor k) b.tgt b.data b.scope b.hint

/-- What keeps a buffered store of hand `h` from performing: a copy that owns its line (R161), a die that refuses it (R374), a route that
does not hold (R372). -/
def storeStop (s : State) (h : Nat) (b : Store) : Option Chk :=
  match b.tgt with
  | .dev pa =>
    if copyHolds s b.tgt b.data.length then some .waits else if dieRefuses s (homeDie pa) then some (.offline (homeDie pa)) else none
  | .host _ => if reachesHost s h then none else some .waits
  | _ => none

/-- A die that an access of hand `h` reached has refused it (R374): the record of a team that starts again, whose request is given up. -/
def noteOffline (s : State) (c : Nat) (p : Site) (va : W64) (die : Nat) : State :=
  postFault s c .dieOffline .r p va (BitVec.ofNat 64 die) (BitVec.ofNat 64 (if die < 4 then (s.die die).epoch else 0))

/-- The retired stores that a thread still buffers perform, oldest first, as it ends (R250, R355 step 3; log entry 73); a die that does not
answer refuses its own (R372, R374). -/
def landBuffer (s : State) (t : ThreadRef) : State :=
  match s.coreOf t with
  | some k => k.th.buffer.foldl (fun s b =>
      match b.tgt with
      | .dev pa => if dieRefuses s (homeDie pa) then noteOffline s k.tm.ctx (b.actor k).site b.va (homeDie pa) else performStore s k b
      | _ => performStore s k b) s
  | none => s

/-- The team, its threads, groups, barriers and tag-table share leave the slot (R195 step 6). -/
def freeTeam (s : State) (t : TeamRef) : State :=
  let s := forgetTeam s t
  let s := (teamGroups s t).foldl (fun s g => { s with groups := s.groups.erase (groupKey g) }) s
  let s := (teamThreads s t).foldl (fun s r => { s with threads := s.threads.erase (threadKey r) }) s
  let s := { s with teams := s.teams.erase (teamKey t) }
  s.updHand t.hand fun h => { h with active := h.active.filter fun g => g.slot ≠ t.slot || g.hand ≠ t.hand,
                                     near := h.near.filter fun c => c.slot ≠ t.slot, bulk := h.bulk.filter fun c => c.slot ≠ t.slot,
                                     gather := h.gather.filter fun g => g.slot ≠ t.slot }

/-- The keys of the tiles of a team: those of its groups' units and of its roles' pools (R25). -/
def teamTiles (s : State) (t : TeamRef) : List Nat :=
  let keys (lg : Nat) (us : List Nat) : List Nat := us.flatMap fun u => (List.range 8).map fun i => lg * 256 + u * 8 + i
  ((teamGroups s t).flatMap fun g => match s.group? g with | some gr => keys gr.lg gr.units | none => []) ++
    match s.team? t with
    | some tm => tm.roles.flatMap fun r => r.2.free.zipIdx.flatMap fun p => keys p.2 p.1
    | none => []

/-- The PSEG ranges of a team's threads and groups (R117, R355 step 5). -/
def teamRanges (s : State) (t : TeamRef) : List Seg :=
  (((teamThreads s t).filterMap fun r => (s.thread? r).map (·.pseg)) ++ (teamGroups s t).filterMap fun g => (s.group? g).map (·.pseg)).dedup

/-- The hand on which a team stands, or for which a team that a time slice has put off waits (R320). -/
def standsOn (s : State) (t : TeamRef) : Nat :=
  match s.waiting.find? fun w => w.out = some t.hand with
  | some w => w.hands.headD t.hand
  | none => t.hand

/-- A team of another context stays on the hand, or waits to return to it and has left its scratchpad bytes there (R320, R328). -/
def sharedHand (s : State) (c h : Nat) : Bool :=
  ([0, 1].any fun k => match s.teams.get? (h * 2 + k) with | some x => x.ctx ≠ c | none => false) ||
    s.waiting.any fun w => w.out.isSome && w.ctx ≠ c && w.hands.contains h

/-- Offset `o` lies in one of the ranges. -/
def inRanges (rs : List Seg) (o : Nat) : Bool := rs.any fun g => g.admits o 1

/-- What teams of a context that have left a hand held there is cleared: everything where no other context's team stays, else the
scratchpad bytes of their ranges with their poison, and their tiles (R355 step 5). -/
def clearHand (s : State) (c h : Nat) (ranges : List Seg) (units : List Nat) : State :=
  let shared := sharedHand s c h
  s.updHand h fun x =>
    if shared then
      { x with scratch := x.scratch.filter fun p => !inRanges ranges p.1, scratchPoison := x.scratchPoison.filter fun u => !inRanges ranges (u * 64),
               tiles := x.tiles.filter fun p => !units.contains p.1, deque := x.deque.filter (·.1 ≠ c) }
    else { x with scratch := [], scratchPoison := [], tiles := [], deque := x.deque.filter (·.1 ≠ c) }

/-- One team of a context is removed: locks dropped, its cell fails with cause 4, its units clear (R355). -/
def removeTeam (s : State) (c : Nat) (t : TeamRef) : State :=
  match s.team? t with
  | none => s
  | some tm =>
    let s := (teamThreads s t).foldl dropLocks ((teamThreads s t).foldl landBuffer s)
    let s := match tm.evstack.getLast? with | some p => failCell s c p.1 4 0 | none => s
    let s' := clearHand (freeTeam s t) c t.hand (teamRanges s t) (teamTiles s t)
    if standsOn s t = t.hand then s' else clearHand s' c (standsOn s t) (teamRanges s t) []

/-- The hands of a context: those where it has a team, for which a team of it waits, or that keep records of it (R198, R320, R345); the
places that keep a team off the hands count. -/
def handsOf (s : State) (c : Nat) : List Nat :=
  ((teamsOf s c).flatMap (fun t => [t.hand, standsOn s t]) ++ (s.hands.filter fun p => p.1 < 256 && p.2.deque.any fun r => r.1 = c).map (·.1)).dedup

/-- The hands proper among them. -/
def heldHands (s : State) (c : Nat) : List Nat := (handsOf s c).filter (· < 256)

/-- The teams of a context that stand on hands. -/
def onHands (s : State) (c : Nat) : List TeamRef := (teamsOf s c).filter fun t => t.hand < 256

/-- A launch leaves the device with a completion record of a status (R306, R321). -/
def endLaunch (s : State) (n status detail : Nat) : State :=
  match s.launches.get? n with
  | none => s
  | some l =>
    let s := { s with launches := s.launches.erase n, waiting := s.waiting.filter fun w => w.launch ≠ n }
    let s := s.updQueue l.queue fun q => { q with pend := q.pend.filter fun p => p.launch ≠ some n }
    if !l.posted && (status ≠ 0 || l.compl) then postCompletion s l.queue l.slot (BitVec.ofNat 32 l.seq) status 0 l.user detail else s

/-- The sectors that waiting evaluations of a context would resolve (R355 step 3). -/
def waitingCells (s : State) (c : Nat) : List Nat :=
  let cell (w : Waiting) : Option Nat := if w.ctx = c then w.evstack.getLast?.map (·.1) else none
  (s.waiting ++ s.spill ++ s.dies.flatMap fun d => d.2.restart).filterMap cell ++
    s.events.filterMap fun e => match e with | .evaluate w => cell w | _ => none

/-- The waiting teams and front-end events of a context go. -/
def forgetWaiting (s : State) (c : Nat) : State :=
  { s with
    spill := s.spill.filter fun w => w.ctx ≠ c
    events := s.events.filter fun e =>
      match e with | .spawn w => w.ctx ≠ c | .evaluate w => w.ctx ≠ c | .binLaunch _ _ _ _ x _ => x ≠ c | .timer _ _ _ _ x _ => x ≠ c | _ => true
    dies := s.dies.map fun (p : Nat × Die) => (p.1, { p.2 with restart := p.2.restart.filter fun w => w.ctx ≠ c }) }

/-- Fatal removal of a context in the order of R355; `status` is FAULT (2) or HALT (3), `seq` the causing record. -/
def removeCtx (s : State) (c status seq : Nat) : State :=
  let s := s.updCtx c fun x => { x with ended := true, images := [], unresolved := [], parked := [], restoring := none }
  let evals := waitingCells s c
  let s := (teamsOf s c).foldl (fun s t => removeTeam s c t) s
  let s := forgetWaiting (evals.foldl (fun s pa => failCell s c pa 4 0) s) c
  let mine (n : Nat) : Bool := match s.launches.get? n with | some l => l.ctx = c | none => false
  let s := { s with
    hands := s.hands.map fun (p : Nat × Hand) =>
      (p.1, { p.2 with banks := p.2.banks.filter fun b => !mine b.2.launch, deque := p.2.deque.filter (·.1 ≠ c),
                       imem := p.2.imem.filter fun l => l.1 / 2 ^ 58 ≠ c, maps := p.2.maps.filter fun m => m.1 / 2 ^ 32 ≠ c,
                       loaded := p.2.loaded.filter fun k => k / 2 ^ 32 ≠ c }) }
  let s := flushAll s
  let ls := (s.launches.filter fun p => p.2.ctx = c).map (·.1)
  (ls.foldl (fun s n => endLaunch s n status (if status = 3 then 0 else seq)) s).updCtx c fun x => { x with out := none }

/-- One undo entry is applied: bytes, tags and poison of the unit (R352, R354). -/
def applyUndo (s : State) (u : Undo) : State :=
  let s := { s with mem := Memory.write s.mem (u.unit * 64) u.old,
                    poison := if u.poisoned then s.poison.insert u.unit else s.poison.erase u.unit }
  setTag (setTag s (u.unit * 64) (u.tags.getD 0 0)) (u.unit * 64 + 32) (u.tags.getD 1 0)

/-- What a context holds on a hand (R345, R355 step 5). -/
def handPart (s : State) (c h : Nat) : HandPart :=
  let ts := (teamsOf s c).filter fun t => t.hand = h
  let ranges := ((teamsOf s c).filter fun t => t.hand = h || standsOn s t = h).flatMap (teamRanges s)
  let units := ts.flatMap (teamTiles s)
  let shared := sharedHand s c h
  let x := s.hand h
  { ranges := ranges, units := units, scratch := x.scratch.filter fun p => !shared || inRanges ranges p.1,
    marks := x.scratchPoison.filter fun u => !shared || inRanges ranges (u * 64),
    tiles := x.tiles.filter fun p => !shared || units.contains p.1, deque := x.deque.filter (·.1 = c),
    near := x.near.filter (·.ctx = c), bulk := x.bulk.filter (·.ctx = c) }

/-- What a context held returns to a hand: all of the scratchpad and tiles where no other context's team stays, else its ranges and its
units. Its deque records come above those held (R198, R345). -/
def layBack (s : State) (c h : Nat) (p : HandPart) : State :=
  let shared := sharedHand s c h
  let mine (o : Nat) : Bool := !shared || inRanges p.ranges o
  let unit (k : Nat) : Bool := !shared || p.units.contains k
  s.updHand h fun x =>
    { x with scratch := (p.scratch.filter fun b => mine b.1).foldl (fun m b => Memory.put m b.1 b.2) (x.scratch.filter fun b => !mine b.1),
             scratchPoison := (x.scratchPoison.filter fun u => !mine (u * 64)) ++ p.marks.filter fun u => mine (u * 64),
             tiles := (p.tiles.filter fun t => unit t.1).foldl (fun m t => m.set t.1 t.2) (x.tiles.filter fun t => !unit t.1),
             deque := p.deque ++ x.deque.filter (·.1 ≠ c),
             near := x.near.filter (·.ctx ≠ c) ++ p.near, bulk := x.bulk.filter (·.ctx ≠ c) ++ p.bulk }

/-- A context's running state as a checkpoint saves it (R290, R345-R348). -/
def saveCtx (s : State) (c : Nat) : Saved :=
  let ts := teamsOf s c
  let mine (k : Nat) : Bool := ts.any fun t => teamKey t = k
  let x := s.ctx? c
  { teams := s.teams.filter fun p => mine p.1, threads := s.threads.filter fun p => mine (p.1 / 4),
    groups := s.groups.filter fun p => mine (p.1 / 64), hands := (handsOf s c).map fun h => (h, handPart s c h),
    launches := s.launches.filter fun p => p.2.ctx = c, waiting := s.waiting.filter fun w => w.ctx = c,
    evals := (s.events.filterMap fun e => match e with | .evaluate w => if w.ctx = c then some w else none | _ => none) ++
      s.spill.filter (·.ctx = c),
    unresolved := (x.map (·.unresolved)).getD [], parked := (x.map (·.parked)).getD [] }

/-- Put saved teams, threads and groups back, with what the context held on its hands, its launches, waiting teams, evaluations and
records. Completion records that have been posted stay posted (R354). -/
def restoreCtx (s : State) (c : Nat) (v : Saved) : State :=
  let posted (n : Nat) : Bool := match s.launches.get? n with | some l => l.posted | none => true
  let s := v.hands.foldl (fun s p => layBack s c p.1 p.2)
    { s with teams := v.teams.foldl (fun m p => m.set p.1 p.2) s.teams,
             threads := v.threads.foldl (fun m p => m.set p.1 p.2) s.threads,
             groups := v.groups.foldl (fun m p => m.set p.1 p.2) s.groups,
             launches := v.launches.foldl (fun m p => m.set p.1 { p.2 with posted := posted p.1 }) s.launches,
             waiting := s.waiting.filter (fun w => w.ctx ≠ c) ++ v.waiting,
             spill := s.spill ++ v.evals }
  s.updCtx c fun x => { x with unresolved := v.unresolved, parked := v.parked }

/-- The agents of a context stop, as the first three steps of R355 say: operations end, evaluations fail with cause 4, locks drop. -/
def stopAll (s : State) (c : Nat) : State :=
  let evals := waitingCells s c ++ (teamsOf s c).filterMap fun t => (s.team? t).bind fun tm => tm.evstack.getLast?.map (·.1)
  let s := (teamsOf s c).foldl (fun s t => (teamThreads s t).foldl dropLocks s) s
  let s := evals.foldl (fun s pa => failCell s c pa 4 0) s
  forgetWaiting ((teamsOf s c).foldl freeTeam s) c

/-- The units of a lane group that groups and pools of a set of teams hold on a hand. -/
def unitsHeld (teams : Map Team) (groups : Map Group) (h lg : Nat) : List Nat :=
  ((teams.filter fun p => p.1 / 2 = h).flatMap fun p => p.2.roles.flatMap fun r => r.2.free.getD lg []) ++
    (groups.filter fun p => p.1 / 128 = h && p.2.lg = lg).flatMap fun p => p.2.units

/-- A checkpoint's state can return: no team stands in its teams' slots, their units are free, and the deques have room for its records
(R198, R354). -/
def restoreFits (s : State) (c : Nat) (v : Saved) : Bool :=
  (v.teams.all fun p => (s.teams.get? p.1).isNone && (512 ≤ p.1 || (s.enabled (p.1 / 2) && (s.die (dieOf (p.1 / 2))).state = .online &&
      (s.hand (p.1 / 2)).tenant = tenantOf s c))) &&
    v.hands.all fun p =>
      2048 ≤ p.1 ||
      (((s.hand p.1).deque.filter (·.1 ≠ c)).length + p.2.deque.length ≤ 256 &&
        (List.range 4).all fun lg => (unitsHeld s.teams s.groups p.1 lg).all fun u => !(unitsHeld v.teams v.groups p.1 lg).contains u)

/-- The second half of a rollback: the checkpoint's state returns where it can, and ROLLBACK is posted; where another context holds what
it needs, the context waits. DESIGN CHOICE (log entry 100). -/
def finishRollback (s : State) (c : Nat) : State :=
  match s.ctx? c with
  | none => s
  | some x =>
    match x.saved, x.restoring with
    | some v, some seq =>
      if restoreFits s c v then
        let s := restoreCtx s c { v with threads := v.threads.map fun p => (p.1, { p.2 with holds := [] }) }
        let s := s.updCtx c fun x => { x with undo := [], undoBytes := 0, restoring := none }
        postFault s c .rollback .i { engine := 7, hand := 0 } 0 (BitVec.ofNat 64 x.ckptCount) (BitVec.ofNat 64 seq)
      else s
    | _, _ => s

/-- Rollback (R354): the agents stop, the log is applied newest first, the checkpoint's state returns, ROLLBACK is posted. -/
def rollbackCtx (s : State) (c seq : Nat) : State :=
  let s := stopAll s c
  let log := match s.ctx? c with | some y => y.undo | none => []
  let s := { s with caches := s.caches.map fun p => (p.1, p.2.filter fun l =>
              l.2.ctx ≠ c && !(log.any fun u => u.unit / 2 = l.1 / 128)) }
  let s := settleHomes (log.map fun u => u.unit / 2 * 128) (log.foldl applyUndo s)
  finishRollback (s.updCtx c fun x => { x with restoring := some seq, rolledBack := true }) c

/-- What a fault of class F or a driver removal does: rollback where a checkpoint is valid and not yet used, else removal. -/
def fatalEnd (s : State) (c seq : Nat) : State :=
  match s.ctx? c with
  | none => s
  | some x => if x.ckptValid && !x.rolledBack && x.saved.isSome then rollbackCtx s c seq else removeCtx s c 2 seq

/-- A fault of class F (R335). -/
def fatal (s : State) (c : Nat) (code : FaultCode) (p : Site) (addr d1 d2 : W64) : State :=
  let seq := s.errSeq
  fatalEnd (postFault s c code .f p addr d1 d2) c seq

/-! ### Taking a fault (R43, R44, R250, R258, R278) -/

/-- The codes that end an evaluator team (R250). -/
def FaultCode.ofCell : FaultCode → Bool
  | .cellFailed | .selfDep | .evalDepth => true
  | _ => false

/-- An evaluator team ends on a cell fault (R250): the record is informational, the team ends, its sector becomes FAIL. -/
def endEvaluator (s : State) (t : TeamRef) (tm : Team) (code : FaultCode) (p : Site) (addr d1 d2 : W64) : State :=
  let seq := s.errSeq
  let s := postFault s tm.ctx code .i p addr d1 d2
  let s := (teamThreads s t).foldl dropLocks ((teamThreads s t).foldl landBuffer s)
  let s := flushAll s
  let s := freeTeam s t
  let s := match tm.evstack.getLast? with | some c => failCell s tm.ctx c.1 1 seq | none => s
  releaseImages { s with events := s.events ++ [.teamEnd tm.launch] } tm.ctx

/-- A precise fault of a control thread (R44): the record is posted and the thread stops at its instruction. An evaluator's end waits
for room in the front end's queue (R308). -/
def threadFault (s : State) (k : Core) (code : FaultCode) (addr d1 d2 : W64) : State :=
  if code.ofCell && !k.tm.evstack.isEmpty then
    if s.eventsFull then s else endEvaluator s k.ref.team k.tm code (threadSite k) addr d1 d2
  else stopAgent s k.tm.ctx code .t (.thread k.ref) (threadSite k) addr d1 d2

/-- The active elements of `new` in place of those of `old`. -/
def merge (act : Mask) (old new : Tile) : Tile :=
  List.zipWith (fun b p => if b then p.2 else p.1) ((List.range 1024).map act.getLsbD) (List.zip old new)

/-- Physical tile `n` of the lane group of a hand. -/
def physKey (lg n : Nat) : Nat := lg * 256 + n

/-- A tile of 1024 elements, missing ones 0. -/
def Tile.full (t : Tile) : Tile := (t ++ List.replicate 1024 0).take 1024

/-- The physical tile with a key on a hand (R25). -/
def tileAt (s : State) (h key : Nat) : Tile := ((s.hand h).tiles.getD key []).full

/-- Write a physical tile's active elements. -/
def writeTile (s : State) (h key : Nat) (act : Mask) (data : Tile) : State :=
  s.updHand h fun x => { x with tiles := x.tiles.set key (merge act (x.tiles.getD key []).full data) }

/-- The scratchpad offset of chunk `j` of the head slot of ring `n` (R260, R295). -/
def chunkOffset (tm : Team) (n j : Nat) : Nat :=
  match tm.rings.get? n with
  | some r => r.base + r.h.toNat % r.n * (64 * r.z) + 4096 * j
  | none => 0

/-- How many of the 1024 elements of chunk `j` lie inside a slot of ring `n` (R295). -/
def chunkElems (tm : Team) (n j : Nat) : Nat :=
  match tm.rings.get? n with
  | some r => (64 * r.z - 4096 * j) / 4
  | none => 0

/-- The window of the innermost handler whose helper deals group index `i` takes (R295, R296). -/
def Thread.windowOf (th : Thread) (i : Nat) : Option Window := th.windows.find? fun w => w.groups.contains i

/-- The windows with the innermost one of group index `i` changed. -/
def changeWindow (i : Nat) (f : Window → Window) : List Window → List Window
  | [] => []
  | w :: ws => if w.groups.contains i then f w :: ws else w :: changeWindow i f ws

/-- Update the window that group index `i` works on. -/
def updWindow (s : State) (t : ThreadRef) (i : Nat) (f : Window → Window) : State :=
  s.updThread t fun th => { th with windows := changeWindow i f th.windows }

/-- Write the active elements of a chunk window, which alias scratchpad directly; past the slot's end nothing is written. -/
def writeChunk (s : State) (t : ThreadRef) (i : Nat) (b : Bool) (j : Nat) (act : Mask) (data : Tile) : State :=
  match s.thread? t, s.team? t.team with
  | some th, some tm =>
    match th.windowOf i with
    | some w =>
      let n := if b then w.rb else w.ra
      let o := chunkOffset tm n j
      s.updHand t.hand fun x =>
        { x with scratch := (data.zipIdx.take (chunkElems tm n j)).foldl (fun m p =>
            if act.getLsbD p.2 then Memory.write m (o + 4 * p.2) (toBytes 4 p.1.toNat) else m) x.scratch }
    | none => s
  | _, _ => s

/-- A result reaches its destination (R36); shadows, chunks and EMASK belong to the handler's window (R295). -/
def land (s : State) (g : GroupRef) (d : Dst) (act : Mask) (data : Tile) (bits : Mask) : State :=
  match d with
  | .tile key => writeTile s g.hand key act data
  | .mask n => s.updGroup g fun x => { x with m := x.m.set n ((x.m.getD n 0 &&& ~~~act) ||| (bits &&& act)) }
  | .shadow hi =>
    updWindow s g.owner g.idx fun w =>
      if hi then { w with hi := merge act w.hi.full data } else { w with lo := merge act w.lo.full data }
  | .shadowQ q =>
    updWindow s g.owner g.idx fun w =>
      { w with lo := w.lo.take (1024 * q) ++ merge act ((w.lo.drop (1024 * q)).take 1024) data ++ w.lo.drop (1024 * (q + 1)) }
  | .chunk b j => writeChunk s g.owner g.idx b j act data
  | .emask => updWindow s g.owner g.idx fun w => { w with emask := (w.emask &&& ~~~act) ||| (bits &&& act) }
  | .nowhere => s

/-- A pending result becomes visible and raises its flags (R36, R112). -/
def landResult (s : State) (g : GroupRef) (p : Pending) : State :=
  land (s.updGroup g fun x => { x with fpx := x.fpx ||| p.flags }) g p.dst p.act p.data p.bits

/-- The results due at position `q`, in ascending (visible position, producer), so that the greatest pair stays (R36). -/
def dueResults (ps : List Pending) (q : Nat) : List Pending :=
  (ps.filter fun p => p.vis ≤ q).insertionSort fun a b => a.vis < b.vis ∨ (a.vis = b.vis ∧ a.prod ≤ b.prod)

/-- The results on their way: those of the pipeline and, where the group is not frozen, those that its landing buffer held (R342). -/
def Group.coming (gr : Group) : List Pending := gr.pend ++ if gr.frozen then [] else gr.landing

/-- Every result visible at or before position `q` reaches its register. -/
def landDue (s : State) (g : GroupRef) (q : Nat) : State :=
  match s.group? g with
  | none => s
  | some gr =>
    let s := (dueResults gr.coming q).foldl (fun s p => landResult s g p) s
    s.updGroup g fun x => { x with pend := x.pend.filter (fun p => q < p.vis),
                                   landing := if gr.frozen then x.landing else x.landing.filter fun p => q < p.vis }

/-- The freeze of R43 with the landing buffer of R341: due results land, the others keep their remaining positions. -/
def freezeGroup (s : State) (g : GroupRef) : State :=
  match s.group? g with
  | none => s
  | some gr =>
    if gr.hrun.isSome then s
    else (landDue s g gr.pos).updGroup g fun x =>
      if x.frozen then x
      else { x with frozen := true, landing := (x.landing ++ x.pend).map fun p => { p with vis := p.vis - gr.pos }, pend := [] }

/-- On resume the entries become visible the remaining positions after the frozen one; they stay in the buffer until then (R342). -/
def thawGroup (s : State) (g : GroupRef) : State :=
  s.updGroup g fun x => { x with frozen := false, landing := x.landing.map fun p => { p with vis := x.pos + p.vis } }

/-- Detail 2 of classes G and D (R338): the last enqueued sequence number and the shows held. -/
def groupDetail (gr : Group) : W64 := BitVec.ofNat 64 ((gr.nextSeq - 1).toNat * 2 ^ 32 + gr.shows.length % 256)

/-- A fault of a group (classes G and D): a helper deal's ends the context with EMU_HELPER (R296), an evaluator's cell
fault ends its team, and otherwise the group freezes with its thread. -/
def groupFault (s : State) (g : GroupRef) (code : FaultCode) (cls : Class) (addr d1 d2 : W64) : State :=
  match s.group? g, s.team? g.team with
  | some gr, some tm =>
    let p := groupSite s g gr
    if gr.hrun.isSome then fatal s tm.ctx .emuHelper p addr (BitVec.ofNat 64 code.code) 0
    else if code.ofCell && !tm.evstack.isEmpty then if s.eventsFull then s else endEvaluator s g.team tm code p addr d1 d2
    else stopAgent (freezeGroup s g) tm.ctx code cls (.group g) p addr d1 (groupDetail gr)
  | _, _ => s

/-- A fault of a stream (class M): it stops at its head instruction. -/
def streamFault (s : State) (t : TeamRef) (code : FaultCode) (addr d1 d2 : W64) : State :=
  match s.team? t with
  | none => s
  | some tm =>
    let s := s.updTeam t fun x => { x with stream := { x.stream with running := true, stopped := true } }
    stopAgent s tm.ctx code .m (.stream t) (streamSite t tm) addr d1 d2

/-- The page requests that are outstanding (R350). -/
def pageRequests (s : State) : Nat := (s.ctxs.map fun c => c.2.parked.countP fun p => p.die.isNone && p.sent).sum

/-- An access or a fetch parks (R350, R374): the agent waits, and a page request is sent where one is awaited and fewer than 512 are
outstanding. -/
def parkAt (s : State) (c : Nat) (a : Agent) (va : W64) (die : Option Nat) (fetch : Bool) : State :=
  let send := die.isNone && decide (pageRequests s < 512)
  let s := s.updCtx c fun x => { x with parked := x.parked ++ [⟨a, c, va, die, fetch, send⟩] }
  let s := match a with
    | .thread t => s.updThread t fun th => { th with wait := .park }
    | .group g => s.updGroup g fun x => { x with parked := true }
    | _ => s
  if send then s.send (.pri c va) else s

/-- An access parks. -/
def parkAgent (s : State) (c : Nat) (a : Agent) (va : W64) (die : Option Nat) : State := parkAt s c a va die false

/-- A page request that waited for its turn is sent; one of a context that sends none waits on (R350). -/
def sendNext (s : State) : State :=
  match s.ctxs.findSome? fun c => if c.2.priBlocked then none else c.2.parked.find? fun p => p.die.isNone && !p.sent with
  | none => s
  | some k =>
    if pageRequests s < 512 then
      (s.updCtx k.ctx fun x => { x with parked := x.parked.map fun p => if p = k then { p with sent := true } else p }).send (.pri k.ctx k.va)
    else s

/-- The agent is parked. -/
def isParked (s : State) (a : Agent) : Bool := s.ctxs.any fun c => c.2.parked.any fun p => p.agent = a

/-- The cause belongs to the own instructions or helper deals of the handler that runs at a depth (R299). -/
def CauseRec.own (c : CauseRec) (depth : Nat) : Bool :=
  c.cause ≠ .deprecated && (c.engine = .cc || (c.engine = .copy && c.copy = 0) || (c.helper && c.level = depth))

/-- The cause that a thread serves next: the first to arrive; inside a handler, the first that is the handler's own (R299). -/
def nextCause (th : Thread) : Option CauseRec := th.causes.find? fun c => th.depth = 0 || c.own th.depth

/-- The depth of the handler to whose helper deals a group index belongs (R296). -/
def Thread.levelOf (th : Thread) (i : Nat) : Nat := (th.windows.dropWhile fun w => !w.groups.contains i).length

/-- Agents run on the enabled hands of a die that is ONLINE; a team off the hands does not run (R11, R320, R345, R369). -/
def handRuns (s : State) (h : Nat) : Bool := s.enabled h && (s.die (dieOf h)).state = .online

/-- The thread is served: its hand runs, no record holds it, it is not parked, no cause waits for it, and no pre-emption or step has
stopped it (R43, R45, R336). -/
def threadFree (s : State) (t : ThreadRef) (th : Thread) : Bool :=
  handRuns s t.hand && !held s (.thread t) && !isParked s (.thread t) && (nextCause th).isNone && !th.preempt && !th.stepDue

/-- A refused request to a die (R374): parked with failover, else fatal. -/
def dieOffline (s : State) (c : Nat) (a : Agent) (p : Site) (va : W64) (die : Nat) : State :=
  let epoch := if die < 4 then (s.die die).epoch else 0
  match s.ctx? c with
  | none => s
  | some x =>
    if x.failover then parkAgent (noteOffline s c p va die) c a va (some die)
    else fatal s c .dieOffline p va (BitVec.ofNat 64 die) (BitVec.ofNat 64 epoch)

/-- A request of the front end or the loader for a context waits for a die to answer again (R374). -/
def feParked (s : State) (c : Nat) (va : W64) (die : Nat) : Bool :=
  s.ctxs.any fun x => x.2.parked.any fun k => k.agent = .device && k.ctx = c && k.va = va && k.die = some die

/-- A die refuses the front end or the loader a request that it makes for a context (R374): with failover one record, and the request is
made again after OPEN; else fatal. -/
def feOffline (s : State) (c : Nat) (p : Site) (va : W64) (die : Nat) : State :=
  if feParked s c va die then s else dieOffline s c .device p va die

/-- Detail 2 of an access fault: the width and the space code (R339, "Acc"). -/
def accDetail (n space : Nat) : W64 := BitVec.ofNat 64 (n % 256 + 256 * space)

/-- A thread's access that its checks do not let through: the fault, the park, or the refusal of a die. -/
def threadRefused (s : State) (k : Core) (ck : Chk) (addr : W64) (n space : Nat) : State :=
  match ck with
  | .fault f => threadFault s k f addr 0 (accDetail n space)
  | .park va => parkAgent s k.tm.ctx (.thread k.ref) (BitVec.ofNat 64 va) none
  | .offline d => dieOffline s k.tm.ctx (.thread k.ref) (threadSite k) addr d
  | _ => s

/-- The first buffered store of a thread that cannot perform now, and why. -/
def drainStop (s : State) (k : Core) : Option (Store × Chk) :=
  match s.thread? k.ref with
  | some th => th.buffer.findSome? fun b => (storeStop s k.ref.hand b).map fun c => (b, c)
  | none => none

/-- A buffered store cannot perform: where a die refuses it the thread parks before it, else its instruction is issued again (R161,
R374). -/
def storeRefused (s : State) (k : Core) (b : Store) (ck : Chk) : State :=
  match ck with
  | .offline d => dieOffline s k.tm.ctx (.thread k.ref) (b.actor k).site b.va d
  | _ => s

/-- Perform every buffered store of the thread, oldest first. -/
def drain (s : State) (k : Core) : State :=
  match s.thread? k.ref with
  | some th => (th.buffer.foldl (fun s b => performStore s k b) s).updThread k.ref fun th => { th with buffer := [] }
  | none => s

/-- The thread's buffered stores perform and it goes on with `f`, once they can (R161, R374). -/
def drained (s : State) (k : Core) (f : State → State) : State :=
  match drainStop s k with
  | none => f (drain s k)
  | some (b, ck) => storeRefused s k b ck

/-- An emulation cause is raised (R73, R74): it waits for the thread that runs its handler. A group freezes, unless its instruction was
only deprecated and has executed (R300). -/
def raiseCause (s : State) (t : ThreadRef) (c : CauseRec) : State :=
  let s := match c.group with | some g => if c.cause = Cause.deprecated then s else freezeGroup s (t.group g) | none => s
  s.updThread t fun th => { th with causes := th.causes ++ [{ c with level := if c.helper then th.levelOf (c.group.getD 16) else 0 }] }

/-- A cause of the control instruction that the thread serves (R73). -/
def threadCause (s : State) (k : Core) (c : Cause) (words : List W32) (native : Option Instr) : State :=
  raiseCause s k.ref { cause := c, engine := .cc, words := words, native := native, pc := k.th.pc, img := k.th.img,
                       group := none, helper := false, copy := 0 }

/-- The words of an instruction (from the encoder), for EOPC, EINFO and the records of PRIV and EMU_STATE. -/
def wordsOf (i : Instr) : List W32 := match encode i with | some (_, ws) => ws | none => []

/-- Words 0 and 1 as one detail (R339, codes 50 and 51). -/
def encDetail (i : Instr) : W64 :=
  let ws := wordsOf i
  (ws.getD 1 0) ++ (ws.getD 0 0)

/-- Step 6 of R72: PRIV in an unprivileged context (R87). -/
def privileged (s : State) (k : Core) (i : Instr) (f : State) : State :=
  if k.ctx.privileged then f else threadFault s k .priv 0 (encDetail i) 0

/-- A deprecated execution is counted (R300): DEPCNT rises; at a multiple of DEPLIM an advisory record is posted. -/
def countDeprecated (s : State) (c : Nat) (i : Instr) : State :=
  match s.ctx? c with
  | none => s
  | some x =>
    let n := x.depcnt + 1
    let s := s.updCtx c fun x => { x with depcnt := n }
    if x.deplim ≠ 0 && n.toNat % x.deplim.toNat = 0 then
      postEvent s (fnOf s c) 1 (List.replicate 3 0 ++ toBytes 4 ((wordsOf i).getD 0 0).toNat ++ toBytes 4 c ++ List.replicate 4 0 ++
        toBytes 8 n.toNat)
    else s

/-- The library's default serves a retired cause at once (R86, R292): the context names no handler table, and the thread of
R74 runs no handler and owes none, or runs one to whose own instructions and helper deals (`own`) the cause belongs (R299). -/
def libraryServes (c : Ctx) (th : Thread) (own : Bool) : Bool :=
  c.eht.toNat / 64 = 0 && th.causes.isEmpty && (th.depth = 0 || (own && th.depth = 1))

/-- The count of a context stands at a multiple of DEPLIM and a handler table is given: the advisory goes to entry 4 (R300). -/
def advises (s : State) (c : Nat) : Bool :=
  match s.ctx? c with
  | some x => x.deplim ≠ 0 && x.depcnt.toNat % x.deplim.toNat = 0 && x.eht.toNat / 64 ≠ 0
  | none => false

end Sys2Proof.Machine
end

