-- ==== Sys2Proof/Machine/Access.lean ====
section
/-! DEFINITION. The overlay loader (R51, R58, R318, R350, R351), placements (R315, R333), and a control thread's loads,
stores and jumps (R60, R228, R248). -/

namespace Sys2Proof.Machine

/-! ### Placement maps (R315) -/

/-- The physical die of logical die `d`, if it is used. -/
def mapDie (m : List Byte) (d : Nat) : Option Nat :=
  let b := (m.getD d 0xFF).toNat
  if d < 4 && b < 4 then some b else none

/-- The physical hand of logical node `n` (row·8 + col) of logical die `d`, if it is present. -/
def mapNode (m : List Byte) (d n : Nat) : Option Nat :=
  match mapDie m d with
  | none => none
  | some p =>
    let b := (m.getD (64 + 64 * d + n % 64) 0xFF).toNat
    if b < 64 then some (p * 64 + b) else none

/-- The present nodes in ascending (d, row, col): their physical hands (R315). -/
def presentHands (m : List Byte) : List Nat :=
  (List.range 256).filterMap fun i => mapNode m (i / 64) (i % 64)

/-- The placement of the team in the lowest slot of a hand that belongs to the context (log entry 12). -/
def placementOn (s : State) (h c : Nat) : List Byte :=
  let t0 := s.teams.get? (h * 2)
  let t1 := s.teams.get? (h * 2 + 1)
  let pick (t : Option Team) : Option (List Byte) :=
    match t with
    | some t => if t.ctx = c then (s.launches.get? t.launch).map (·.map) else none
    | none => none
  ((pick t0).orElse fun _ => pick t1).getD []

/-! ### The overlay loader -/

/-- The loader reads `n` bytes of an image within one page, for a hand or for the checks of the front end; a fetch asks for X (R136). -/
def imageRead (s : State) (h c : Nat) (va n : Nat) : State × Chk × List Byte :=
  match translate s c h (h < 256) va with
  | (s, .format) => (s, .fault .pteFormat, [])
  | (s, .refused) => (s, .fault .pagePerm, [])
  | (s, .offline d) => (s, .offline d, [])
  | (s, .waits) => (s, .waits, [])
  | (s, .absent host) => ((notPresent s c va host).1, (notPresent s c va host).2, [])
  | (s, .ok t) =>
    let pa := t.pa + (va - t.va)
    if !t.x then (s, .fault .pagePerm, [])
    else if t.host then
      if !reachesHost s h then (s, .waits, [])
      else if s.atsRefused.contains (pa / 4096) then (s, .fault .pagePerm, [])
      else (s, .ok (.host pa), Memory.read s.hostMem pa n)
    else if !reaches s h (homeDie pa) then (s, .waits, [])
    else if dieRefuses s (homeDie pa) then (s, .offline (homeDie pa), [])
    else (s, .ok (.dev pa), Memory.read s.mem pa n)

/-- A relocation entry (R57): line, slot, least significant bit, form. -/
structure Reloc where
  line : Nat
  slot : Nat
  lsb  : Nat
  form : Nat
  deriving DecidableEq, Repr

/-- The entry in 8 bytes. -/
def relocOf (v : Nat) : Reloc :=
  { line := v / 2 ^ 38 % 2 ^ 26, slot := v / 2 ^ 34 % 16, lsb := v / 2 ^ 29 % 32, form := v / 2 ^ 27 % 4 }

/-- The physical value of a marked field (R58): HC8 through the map; HC6 on the logical die of the receiving hand, or on
logical die 0 in the constant chain. -/
def relocValue (m : List Byte) (h : Nat) (const : Bool) (form v : Nat) : Nat :=
  if form = 0 then (mapNode m (v / 64) (v % 64)).getD v
  else
    let d := if const then 0 else ((List.range 4).find? fun d => mapDie m d = some (dieOf h)).getD 0
    ((mapNode m d v).map (· % 64)).getD v

/-- Replace `w` bits at `lsb` of a word. -/
def setField (x : Nat) (lsb w v : Nat) : Nat := x - x / 2 ^ lsb % 2 ^ w * 2 ^ lsb + v % 2 ^ w * 2 ^ lsb

/-- Rewrite one marked field of a line. -/
def relocLine (m : List Byte) (h : Nat) (line : Nat) (l : List Byte) (r : Reloc) : List Byte :=
  if r.line = line then
    let x := (lineWord l r.slot).toNat
    let w := if r.form = 0 then 8 else 6
    let v := relocValue m h (lineEngine l = 4) r.form (x / 2 ^ r.lsb % 2 ^ w)
    l.take (4 * r.slot) ++ toBytes 4 (setField x r.lsb w v) ++ l.drop (4 * r.slot + 4)
  else l

/-- The relocation entries that a line of the table holds. -/
def relocEntries (im : Image) (i : Nat) (l : List Byte) : List Reloc :=
  (List.range (min 7 (im.relocCount - 7 * i))).map fun j => relocOf (ofBytes ((l.drop (4 + 8 * j)).take 8))

/-- The relocation table of an image from line `i` of the table on, `n` lines of it: its entries, or what stops the loader's reading. -/
def relocTable (h c : Nat) (im : Image) : Nat → Nat → State → State × Except Chk (List Reloc)
  | 0, _, s => (s, .ok [])
  | n + 1, i, s =>
    match imageRead s h c (im.base.toNat + 64 * (im.relocFirst + i)) 64 with
    | (s, .ok _, l) =>
      (match relocTable h c im n (i + 1) s with
       | (s, .ok rs) => (s, .ok (relocEntries im i l ++ rs))
       | r => r)
    | (s, ck, _) => (s, .error ck)

/-- What the loading of a page gives. -/
inductive Loading where
  | ok
  | stop (c : Chk)
  /-- the context has ended (R351) -/
  | ended
  deriving DecidableEq, Repr

/-- The team that the step serves. -/
def curTeam (s : State) : Option TeamRef :=
  match s.cur with
  | .thread t => some t.team
  | .group g => some g.team
  | .stream t => some t
  | .copy h _ n => (((s.hand h).near ++ (s.hand h).bulk).find? fun c => c.id = n).map fun c => ⟨h, c.slot⟩
  | .device => none

/-- The placement of the launch of a team. -/
def mapOfTeam (s : State) (t : TeamRef) : Option (List Byte) :=
  match s.team? t with | some tm => (s.launches.get? tm.launch).map (·.map) | none => none

/-- The map under which the lines of an image are relocated for the agent that fetches: that of its team's launch. Without one, that of
the lines that the hand holds (R58). -/
def mapFor (s : State) (h c img : Nat) : List Byte :=
  (((curTeam s).filter fun t => t.hand = h).bind (mapOfTeam s)).getD (((s.hand h).maps.get? (imageKey c img)).getD (placementOn s h c))

/-- An agent of the hand runs in the image. -/
def runsOn (s : State) (h key : Nat) : Bool :=
  [0, 1].any fun k =>
    match s.team? ⟨h, k⟩ with
    | none => false
    | some tm =>
      let is (img : Nat) : Bool := imageKey tm.ctx img = key
      (tm.stream.running && is tm.stream.img) ||
        ((teamThreads s ⟨h, k⟩).any fun r => match s.thread? r with | some th => th.runsIn (key % 2 ^ 32) && tm.ctx = key / 2 ^ 32 | none => false) ||
        (teamGroups s ⟨h, k⟩).any fun g =>
          match s.group? g with
          | some gr => (gr.run.any fun r => is r.deal.img) || gr.hrun.any fun r => is r.deal.img
          | none => false

/-- The lines that an engine's instruction memory of a hand holds (R12): control core, lane groups, matrix sequencer. -/
def imemLines : Nat → Nat
  | 0 => 4096 | 1 => 2048 | _ => 512

/-- A hand's instruction memories have room for lines (R12). -/
def imemFits (m : Map (List Byte)) (new : List (List Byte)) : Bool :=
  (List.range 3).all fun e => (m.countP fun l => lineEngine l.2 = e) + (new.countP fun l => lineEngine l = e) ≤ imemLines e

/-- The places at which the agents of a team stand: image and line, those of handlers' returns among them. -/
def teamPlaces (s : State) (t : TeamRef) : List (Nat × Nat) :=
  ((teamThreads s t).flatMap fun r =>
    match s.thread? r with
    | some th => [(th.img, th.pc / 16), (bits th.epc 63 32, bits th.epc 29 0 / 16)] ++ th.windows.map fun w => (w.backImg, w.backPc / 16)
    | none => []) ++
  ((teamGroups s t).flatMap fun g =>
    match s.group? g with
    | some gr => (gr.run.toList ++ gr.hrun.toList).map fun r => (r.deal.img, r.pc / 16)
    | none => []) ++
  (match s.team? t with | some tm => [(tm.stream.img, tm.stream.pc / 16)] | none => []) ++
  (((s.hand t.hand).near ++ (s.hand t.hand).bulk).filter fun c => c.slot = t.slot).filterMap fun c => c.chain.map fun x => (c.img, x.pc / 16)

/-- The lines at which the agents of a hand stand are kept by their fetch while lines leave the instruction memories (R50). -/
def keepLines (s : State) (h : Nat) : State :=
  [0, 1].foldl (fun s k =>
    match s.team? ⟨h, k⟩ with
    | none => s
    | some tm =>
      let kept : Map (List Byte) := (teamPlaces s ⟨h, k⟩).foldl (fun m p =>
        match (lineOf s h tm.ctx p.1 p.2).orElse fun _ => tm.kept.get? (p.1 * 2 ^ 26 + p.2) with
        | some l => m.set (p.1 * 2 ^ 26 + p.2) l
        | none => m) []
      s.updTeam ⟨h, k⟩ fun t => { t with kept := kept }) s

/-- The lines of an image leave a hand's instruction memories. -/
def dropImage (s : State) (h key : Nat) : State := (keepLines s h).updHand h fun x => x.drop key

/-- Images leave the instruction memories of a hand in an order, one after another, until there is room for new lines (R318). -/
def makeImem (s : State) (h : Nat) (new : List (List Byte)) : List Nat → State
  | [] => s
  | k :: ks => if imemFits (s.hand h).imem new then s else makeImem (dropImage s h k) h new ks

/-- The order in which images make room for a page of image `key` (R12, R318): those in which no agent of the hand runs before those in
which one does, the one loaded first before the others, and the earlier pages of the image itself last. DESIGN CHOICE (log entry
101). -/
def roomOrder (s : State) (h key : Nat) : List Nat :=
  let others := (s.hand h).loaded.filter fun k => k ≠ key
  (others.filter fun k => !runsOn s h k) ++ (others.filter fun k => runsOn s h k) ++ [key]

/-- The lines of an image are relocated on a hand under a map from now on: lines relocated under another leave first (R58). Where teams
of two launches run in one image on a hand, each thus fetches lines relocated for its own placement. DEDUCED (log entry 90). -/
def useMap (s : State) (h c img : Nat) (m : List Byte) : State :=
  match (s.hand h).maps.get? (imageKey c img) with
  | some m' => if m' = m then s else dropImage s h (imageKey c img)
  | none => s

/-- A page's lines reach a hand relocated: those that it does not hold (R18, R58). -/
def deliverPage (s : State) (h c img page : Nat) (map : List Byte) (rs : List Reloc) (bs : List Byte) : State :=
  let lines := (List.range 64).map fun i =>
    (imemKey c img (64 * page + i), rs.foldl (relocLine map h (64 * page + i)) ((bs.drop (64 * i)).take 64))
  let key := imageKey c img
  let new := lines.filter fun l => ((s.hand h).imem.get? l.1).isNone
  (makeImem s h (new.map (·.2)) (roomOrder s h key)).updHand h fun x =>
    { x with imem := new.foldl (fun m l => m.set l.1 l.2) x.imem, maps := x.maps.set key map,
             loaded := if x.loaded.contains key then x.loaded else x.loaded ++ [key] }

/-- Load one page of an image into a hand: translation, poison, digest, relocation, delivery of its lines (R51, R351). -/
def loadPage (s : State) (h c img page : Nat) (map : List Byte) : State × Loading :=
  match imageOf s c img with
  | none => (s, .stop (.fault .imageLink))
  | some im =>
    match imageRead s h c (im.base.toNat + 4096 * page) 4096 with
    | (s, .ok t, bs) =>
      let bad := poisonedUnits s t 4096
      let done (s : State) : State × Loading :=
        match relocTable h c im ((im.relocCount + 6) / 7) 0 s with
        | (s, .ok rs) => (deliverPage s h c img page map rs bs, .ok)
        | (s, .error ck) => (s, .stop ck)
      if !bad.isEmpty then
        (fatal s c .fetchPoison { engine := 6, hand := h, img := img } 0 (BitVec.ofNat 64 img)
          (BitVec.ofNat 64 (64 * page + (bad.headD 0 - t.base / 64))), .ended)
      else if im.manifest / 64 ≤ page then done s
      else
        match imageRead s h c (im.base.toNat + 64 * (im.manifest + page)) 64 with
        | (s, .ok _, m) =>
          if Config.shake256 32 bs ≠ (m.drop 4).take 32 then
            (fatal s c .codeHash { engine := 6, hand := h, img := img } 0 (BitVec.ofNat 64 img) (BitVec.ofNat 64 page), .ended)
          else done s
        | (s, ck, _) => (s, .stop ck)
    | (s, ck, _) => (s, .stop ck)

/-- The line that the loader finds under a map (R51): its index, then its page, which is brought if it is not resident relocated so. -/
def lineUnder (m : List Byte) (s : State) (h c img line : Nat) : State × Loading × List Byte :=
  match imageOf s c img with
  | none => (s, .stop (.fault .imageLink), [])
  | some im =>
    if im.lines ≤ line then (s, .stop (.fault .imageLink), [])
    else
      let s := useMap s h c img m
      match lineOf s h c img line with
      | some l => (s, .ok, l)
      | none =>
        match loadPage s h c img (line / 64) m with
        | (s, .ok) => (s, .ok, (lineOf s h c img line).getD [])
        | (s, r) => (s, r, [])

/-- The line that a fetch reaches (R51), relocated for the team of the agent that fetches (R58). -/
def ensureLine (s : State) (h c img line : Nat) : State × Loading × List Byte := lineUnder (mapFor s h c img) s h c img line

/-- The number of an engine in the link word (R48). -/
def engCode : Engine → Nat
  | .cc => 0 | .lane => 1 | .matrix => 2 | .copy => 3

/-- The check of a code address that software gives (R60, R51): none where it passes. `entry` where a chain begins there. -/
def checkTarget (s : State) (h c img : Nat) (e : Engine) (entry : Bool) (tgt : W64) : State × Loading :=
  if 2 ^ 30 ≤ tgt.toNat || tgt.toNat % 16 = 0 then (s, .stop (.fault .badTarget))
  else
    match ensureLine s h c img (tgt.toNat / 16) with
    | (s, .ok, l) => (s, if lineEngine l = engCode e && (!entry || lineEntry l) then .ok else .stop (.fault .imageLink))
    | (s, r, _) => (s, r)

/-- The address and the details of a fault of a fetch (R339): the line is detail 1 of IMAGE_LINK; a fault of its page has the line's
virtual address, and counts as an access of 64 bytes in space 0. DESIGN CHOICE (log entry 88). -/
def fetchDetails (s : State) (c img : Nat) (f : FaultCode) (line : Nat) : W64 × W64 × W64 :=
  if f = .imageLink then (0, BitVec.ofNat 64 line, 0)
  else (match imageOf s c img with | some im => im.base + BitVec.ofNat 64 (64 * line) | none => 0, 0, accDetail 64 0)

/-- The same for a code address that software gives; detail 1 of BAD_TARGET is the target. -/
def targetDetails (s : State) (c img : Nat) (f : FaultCode) (tgt : W64) : W64 × W64 × W64 :=
  if f = .badTarget then (0, tgt, 0) else fetchDetails s c img f (tgt.toNat / 16)

/-- With the target checked, go on with `f`; else the fault of the thread, or its park. -/
def withTarget (s : State) (k : Core) (e : Engine) (entry : Bool) (tgt : W64) (f : State → State) : State :=
  match checkTarget s k.ref.hand k.tm.ctx k.th.img e entry tgt with
  | (s, .ok) => f s
  | (s, .stop (.fault c)) =>
    let d := targetDetails s k.tm.ctx k.th.img c tgt
    threadFault s k c d.1 d.2.1 d.2.2
  | (s, .stop (.park va)) => parkAt s k.tm.ctx (.thread k.ref) (BitVec.ofNat 64 va) none true
  | (s, .stop ck) => threadRefused s k ck tgt 0 0
  | (s, .ended) => s

/-- Jump to a code address, changing the thread by `f` (R60). -/
def jump (s : State) (k : Core) (tgt : W64) (f : Thread → Thread) : State :=
  withTarget s k .cc false tgt fun s =>
    s.updThread k.ref fun th => { f th with pc := tgt.toNat, wait := .none }

/-- (line of the branch + displacement) × 16 + slot (R60); a line outside 0 to 2²⁶ − 1 gives an address that `jump` refuses. -/
def relTarget (pc : Nat) (disp : Int) (slot : Nat) : W64 := BitVec.ofInt 64 (((pc / 16 : Nat) + disp) * 16 + slot)

/-! ### Evaluation of suspended cells (R248, R249, R333) -/

/-- The hands near a hand, in the order of placement kind 2 (R333): itself, its cluster, its die, then its launch's map. -/
def nearHands (s : State) (h launch : Nat) : List Nat :=
  let map := match s.launches.get? launch with | some l => presentHands l.map | none => []
  let die := (List.range 64).map fun i => dieOf h * 64 + i
  [h] ++ (die.filter fun x => clusterOf x = clusterOf h && x ≠ h) ++ (die.filter fun x => clusterOf x ≠ clusterOf h) ++
    map.filter fun x => dieOf x ≠ dieOf h

/-- The hands where an evaluator is tried, in order (R333). -/
def evalHands (s : State) (k : Core) (pa : Nat) (word : Nat) : List Nat :=
  let h := k.ref.hand
  let map := match s.launches.get? k.tm.launch with | some l => presentHands l.map | none => [h]
  let ordered := map.insertionSort (· ≤ ·)
  let (onDie, others) := ordered.partition fun x => dieOf x = homeDie pa
  let kind := word / 2 ^ 30 % 4
  let named := word % 256
  if kind = 0 && s.enabled named && (s.hand named).tenant = tenantOf s k.tm.ctx then [named]
  else if kind = 2 then nearHands s h k.tm.launch
  else onDie ++ others

/-- The evaluation record that a first load sends (R248, R249): a team waiting to start at the handle's entry line. -/
def evalRecord (s : State) (k : Core) (pa va : Nat) : Waiting :=
  let w (i n : Nat) := Memory.readNat s.mem (pa + i) n
  { launch := k.tm.launch, ctx := k.tm.ctx, img := w 4 4, entry := w 0 4 % 2 ^ 26 * 16 + 1,
    x := [BitVec.ofNat 64 (w 8 8), BitVec.ofNat 64 va], teamNo := none, gridpos := 0, wgt := 0, wroot := 0,
    evstack := k.tm.evstack ++ [(pa, va)], hands := evalHands s k pa (w 16 4), batch := none, gang := false, out := none }

/-- The sector address as software sees it. -/
def sectorVa (addr : W64) : Nat := alignDown (bits addr 51 0) 32

/-- The sector is under evaluation by the loader's own evaluators. -/
def onStack (tm : Team) (pa : Nat) : Bool := tm.evstack.any fun c => c.1 = pa

/-! ### A thread's stores and loads (R155, R228) -/

/-- A release of a thread at a scope (R149, R159): its buffered stores perform, and dirty bytes narrower than the scope's
level are written back. -/
def threadRelease (s : State) (k : Core) (scope : Nat) : State := releaseAt (drain s k) k.ref.hand scope

/-- The thread goes on with `f` after a release at a scope, once its buffered stores can perform (R161, R374). -/
def released (s : State) (k : Core) (scope : Nat) (f : State → State) : State :=
  match drainStop s k with
  | none => f (threadRelease s k scope)
  | some (b, ck) => storeRefused s k b ck

/-- An evaluation record is sent: to the front end's queue or, where that is full, to the waiter list in memory (R308, R333). -/
def sendEvaluation (s : State) (w : Waiting) : State :=
  if s.eventsFull then { s with spill := s.spill ++ [w] } else { s with events := s.events ++ [FeEvent.evaluate w] }

/-- The first load of a suspended sector: it becomes EVAL, its unit is logged before (R352), and its evaluation is sent (R248). -/
def startEvaluation (s : State) (k : Core) (pa : Nat) (addr : W64) : State :=
  let s := undoAppend (recallLine s (alignDown pa 128)) k.tm.ctx (pa / 64)
  sendEvaluation (setTag s pa 2) (evalRecord s k pa (sectorVa addr))

/-- A thread's load meets a sector that is not VAL (R248). The load that starts an evaluation is a release of its issuer (R169). -/
def cellLoad (s : State) (k : Core) (pa : Nat) (addr : W64) : State :=
  let pa := alignDown pa 32
  if tagAt s pa = 1 then
    if 15 ≤ k.tm.evstack.length then threadFault s k .evalDepth addr (BitVec.ofNat 64 k.tm.evstack.length) 0
    else
      drained s k fun s =>
        let s := startEvaluation (releaseAt s k.ref.hand 3) k pa addr
        stall { s with waiters := s.waiters ++ [(pa / 32, Agent.thread k.ref)] } k (.cell pa)
  else if tagAt s pa = 2 then
    if onStack k.tm pa then threadFault s k .selfDep addr (BitVec.ofNat 64 k.tm.evstack.length) 0
    else if s.waiters.contains (pa / 32, .thread k.ref) then s
    else stall { s with waiters := s.waiters ++ [(pa / 32, Agent.thread k.ref)] } k (.cell pa)
  else
    threadFault s k .cellFailed addr (BitVec.ofNat 64 (Memory.readNat s.mem (pa + 20) 4 % 2 ^ 32))
      (BitVec.ofNat 64 (Memory.readNat s.mem (pa + 24) 8))

/-- Two ranges of one kind of target overlap, or the targets are of different kinds. -/
def mayOverlap (a : Tgt) (n : Nat) (b : Tgt) (m : Nat) : Bool :=
  match a, b with
  | .dev x, .dev y => x < y + m && y < x + n
  | .host x, .host y => x < y + m && y < x + n
  | .scratch h x, .scratch g y => h = g && x < y + m && y < x + n
  | .peer d x, .peer e y => d = e && x < y + m && y < x + n
  | _, _ => false

/-- An access of hand `h` to device memory at a scope and hint performs at the home (R128, R148). -/
def atHome (h : Nat) (t : Tgt) (scope hint : Nat) : Bool :=
  match t with | .dev pa => (placesFor h (alignDown pa 128) scope hint).isEmpty | .peer _ _ => true | _ => false

/-- Two accesses to one 128-byte line of device memory, or of one peer's. -/
def sameLine (a b : Tgt) : Bool :=
  match a, b with | .dev p, .dev q => p / 128 = q / 128 | .peer d p, .peer e q => d = e && p / 128 = q / 128 | _, _ => false

/-- The buffered stores of the thread that an access to a target orders before itself: those that touch its bytes (a thread sees its own
stores, R156) and, where the access writes at the home, those that write the line there (R166). -/
def drainsFirst (k : Core) (t : Tgt) (n : Nat) (home : Bool) : Bool :=
  k.th.buffer.any fun b => mayOverlap t n b.tgt b.data.length || (home && sameLine t b.tgt && atHome k.ref.hand b.tgt b.scope b.hint)

/-- Those stores perform. -/
def drainFor (s : State) (k : Core) (t : Tgt) (n : Nat) (home : Bool := false) : State := if drainsFirst k t n home then drain s k else s

/-- One of the stores that an access orders before itself cannot perform now. -/
def drainForStop (s : State) (k : Core) (t : Tgt) (n : Nat) (home : Bool := false) : Option (Store × Chk) :=
  if drainsFirst k t n home then drainStop s k else none

/-- The bytes of an element's access. -/
def Elem.bytes (e : Elem) : Nat := match e.op with | .load w _ => w / 8 | .store w _ => w / 8 | .atomic _ w _ _ => w / 8

/-- The element writes memory. -/
def Elem.writes (e : Elem) : Bool := match e.op with | .load .. => false | _ => true

/-- The element reads memory. -/
def Elem.reads (e : Elem) : Bool := match e.op with | .store .. => false | _ => true

/-- Two operations of a group of hand `h` keep their order: they touch a common byte (R225), or both write one line at its home (R166). -/
def conflicts (h : Nat) (x y : Outst) : Bool :=
  x.elems.any fun e => y.elems.any fun f =>
    (mayOverlap e.tgt e.bytes f.tgt f.bytes &&
      match e.tgt, f.tgt with
      | .dev _, .dev _ => true | .host _, .host _ => true | .scratch .., .scratch .. => true | .peer .., .peer .. => true | _, _ => false) ||
    (e.writes && f.writes && sameLine e.tgt f.tgt && atHome h e.tgt x.scope x.hint && atHome h f.tgt y.scope y.hint)

/-- One operation of a group waits for an earlier one: they keep their order, or it writes and the earlier one reads, whose values are
taken before any later write of the agent performs (R156). -/
def ordered (h : Nat) (x o : Outst) : Bool := conflicts h x o || (x.elems.any Elem.reads && o.elems.any Elem.writes)

/-- The `n`-th outstanding operation of a group of hand `h` may perform: it is a memory operation, it has not performed, and no earlier
one of the group is ordered before it. -/
def outstReady (h : Nat) (gr : Group) (n : Nat) : Bool :=
  match gr.outst[n]? with
  | some o => o.show_.isNone && !o.done && !((gr.outst.take n).any fun x => !x.done && ordered h x o)
  | none => false

/-- An access that has passed its checks waits while `blocked` says so of its target. -/
def untilFree (blocked : State → Tgt → Bool) (r : State × Chk) : State × Chk :=
  match r with
  | (s, .ok t) => if blocked s t then (s, .waits) else r
  | _ => r

/-- The operation writes the 4 KiB page of `pa` in device memory. -/
def Outst.onPage (o : Outst) (pa : Nat) : Bool :=
  o.elems.any fun e => e.writes && match e.tgt with | .dev q => q / 4096 = pa / 4096 | _ => false

/-- A store to device memory of the 4 KiB page of `pa`. -/
def Store.onPage (b : Store) (pa : Nat) : Bool := match b.tgt with | .dev p => p / 4096 = pa / 4096 | _ => false

/-- The operation waits for a copy (R161). -/
def Outst.onCopy (s : State) (o : Outst) : Bool := o.elems.any fun e => copyHolds s e.tgt e.bytes

/-- A sub-page of `pa` passes to agent `a` from a hand whose threads or groups have writes to it that were issued before the request and
have not reached their home (R139). `first` says which operations were issued before; a write that waits for a copy, or for an
earlier operation of its group, is taken as issued after it. -/
def ownerWrites (s : State) (a pa : Nat) (first : Outst → Bool) : Bool :=
  match (s.granules.get? (pa / 65536)).bind fun g => g.passes a (subPage pa) with
  | none => false
  | some b =>
    (s.threads.any fun p => p.1 / 8 = b && p.2.buffer.any fun x => x.onPage pa && !copyHolds s x.tgt x.data.length) ||
      s.groups.any fun p => p.1 / 128 = b && (List.range p.2.outst.length).any fun n =>
        match p.2.outst[n]? with
        | some o => first o && outstReady b p.2 n && o.onPage pa && !o.onCopy s
        | none => false

/-- A write of agent `a` to a target waits: a copy holds its line (R161), or its sub-page's owner has writes to come (R139). -/
def writeWaitsFor (s : State) (a : Nat) (first : Outst → Bool) (t : Tgt) (n : Nat) : Bool :=
  copyHolds s t n || match t with | .dev pa => ownerWrites s a pa first | _ => false

/-- The same where every operation that has not performed was issued before. -/
def writeWaits (s : State) (a : Nat) (t : Tgt) (n : Nat) : Bool := writeWaitsFor s a (fun _ => true) t n

/-- Bit 6 of EDIS for a thread's scratchpad accesses (R83). -/
def Core.edis6 (k : Core) : Bool := k.ctx.edis.getLsbD 6

/-- An access of a thread asks its peer and goes on with `f` once the peer has performed it; the peer's refusal is the thread's fault
(R366). -/
def peerThen (s : State) (k : Core) (t : Tgt) (op : DomainOp) (addr : W64) (n : Nat) (f : State → State) : State :=
  match peerAsk s k.actor t op with
  | (s, .done _) => f s
  | (s, .waits) => s
  | (s, .fault c) => threadFault (peerDone s (.thread k.ref) 0) k c addr 0 (if c = .cellBusy then 0 else accDetail n 0)
  | (s, .offline) => threadRefused (peerDone s (.thread k.ref) 0) k (.offline (2 ^ 31 + bits addr 63 52)) addr n 0

/-- A load of a thread: the checks of R119, its own stores, the suspended cells of R248, poison, then `f` on the bytes. -/
def threadLoad (s : State) (k : Core) (i : Instr) (space scope hint n : Nat) (addr : W64) (f : State → List Byte → State) :
    State :=
  match checkAccess s k.actor .load space scope n n k.edis6 addr true with
  | (s, .ok t) =>
    match k.th.wait, t with
    | .cellDone pa bs, .dev p =>
      if p / 32 = pa / 32 then f s ((bs.drop (p % 32)).take n) else s
    | .cellFailed _ cause seq, _ =>
      if !k.tm.evstack.isEmpty && s.eventsFull then s
      else threadFault (s.updThread k.ref fun th => { th with wait := .none }) k .cellFailed addr (BitVec.ofNat 64 cause) (BitVec.ofNat 64 seq)
    | _, _ =>
      if copyHolds s t n then s else
      match drainForStop s k t n with
      | some (b, ck) => storeRefused s k b ck
      | none =>
        match loadTgt (drainFor s k t n) k.actor t addr n space scope hint 0 with
        | (s, .bytes bs) => f s bs
        | (s, .poisoned) => threadFault s k .poison addr 0 (accDetail n space)
        | (s, .cell pa) => cellLoad s k pa addr
        | (s, .refused c) => threadFault s k c addr 0 (accDetail n space)
        | (s, .offline d) => threadRefused s k (.offline (2 ^ 31 + d)) addr n space
        | (s, .waits) => s
  | (s, .disabled) => threadCause s k .disabled (wordsOf i) (some i)
  | (s, ck) => threadRefused s k ck addr n space

end Sys2Proof.Machine
end

