-- ==== Sys2Proof/Machine/Integer.lean ====
section
/-! DEFINITION. The control core's integer instructions: R174-R178, and the retired BREV of R86. -/

namespace Sys2Proof.Machine

/-- A register-register operation of class CR (R174). -/
def binOp (d a b : R5) (f : W64 → W64 → W64) (s : State) : Res := alu s 1 d fun k => f (k.th.rx a) (k.th.rx b)

/-- A register-immediate operation of class CI (R176). -/
def immOp (d a : R5) (f : W64 → W64) (s : State) : Res := alu s 1 d fun k => f (k.th.rx a)

/-- The high half of a signed product (R174: MULH). -/
def mulHighS (a b : W64) : W64 := ((a.signExtend 128 * b.signExtend 128).extractLsb' 64 64)
/-- The high half of an unsigned product (R174: MULHN). -/
def mulHighU (a b : W64) : W64 := ((a.setWidth 128 * b.setWidth 128).extractLsb' 64 64)

/-- DIV (R174, R175): toward zero; all ones for a zero divisor; −2⁶³ / −1 = −2⁶³. -/
def divS (a b : W64) : W64 := if b = 0 then BitVec.allOnes 64 else a.sdiv b
/-- DIVN (R175). -/
def divU (a b : W64) : W64 := if b = 0 then BitVec.allOnes 64 else a.udiv b
/-- REM (R174, R175): the sign of a nonzero result is a's. -/
def remS (a b : W64) : W64 := if b = 0 then a else a.srem b
/-- REMN (R175). -/
def remU (a b : W64) : W64 := if b = 0 then a else a.umod b

/-- The shift amount of R174: bits 5:0. -/
def shAmt (b : W64) : Nat := b.toNat % 64

/-- CLZ (R174): leading zeros, 0-64, of the bits from `n` downward. -/
def clzFrom (a : W64) : Nat → Nat
  | 0 => 0
  | n + 1 => if a.getLsbD n then 0 else 1 + clzFrom a n
/-- POPC (R174). -/
def popcount {w : Nat} (a : BitVec w) : Nat := (List.range w).countP fun i => a.getLsbD i

/-- A field of `wd + 1` bits at `p` (R177). -/
def fieldMask (wd : BitVec 6) : W64 := BitVec.ofNat 64 (2 ^ (wd.toNat + 1) - 1)

/-- BFX (R177). -/
def bitExtract (sgn : Bool) (wd p : BitVec 6) (a : W64) : W64 :=
  let f := (a >>> p.toNat) &&& fieldMask wd
  if sgn && f.getLsbD wd.toNat then f ||| ~~~fieldMask wd else f

/-- BFI (R177). -/
def bitInsert (wd p : BitVec 6) (d a : W64) : W64 :=
  (d &&& ~~~(fieldMask wd <<< p.toNat)) ||| ((a &&& fieldMask wd) <<< p.toNat)

/-- The 64 bits in reversed order (R86: BREV). -/
def bitReverse (a : W64) : W64 := BitVec.ofNat 64 ((List.range 64).foldl (fun n i => n * 2 + (if a.getLsbD i then 1 else 0)) 0)

/-- NOP (R76, R77). -/
def execNop (s : State) : Res := onCore s fun k => retire s k 1 id
/-- ADD (R174). -/
def execAdd (d a b : R5) (s : State) : Res := binOp d a b (· + ·) s
/-- SUB (R174). -/
def execSub (d a b : R5) (s : State) : Res := binOp d a b (· - ·) s
/-- MUL (R174). -/
def execMul (d a b : R5) (s : State) : Res := binOp d a b (· * ·) s
/-- MULH (R174). -/
def execMulh (d a b : R5) (s : State) : Res := binOp d a b mulHighS s
/-- MULHN (R174). -/
def execMulhn (d a b : R5) (s : State) : Res := binOp d a b mulHighU s
/-- DIV (R174, R175). -/
def execDiv (d a b : R5) (s : State) : Res := binOp d a b divS s
/-- DIVN (R174, R175). -/
def execDivn (d a b : R5) (s : State) : Res := binOp d a b divU s
/-- REM (R174, R175). -/
def execRem (d a b : R5) (s : State) : Res := binOp d a b remS s
/-- REMN (R174, R175). -/
def execRemn (d a b : R5) (s : State) : Res := binOp d a b remU s
/-- AND (R174). -/
def execAnd (d a b : R5) (s : State) : Res := binOp d a b (· &&& ·) s
/-- OR (R174). -/
def execOr (d a b : R5) (s : State) : Res := binOp d a b (· ||| ·) s
/-- XOR (R174). -/
def execXor (d a b : R5) (s : State) : Res := binOp d a b (· ^^^ ·) s
/-- SHL (R174). -/
def execShl (d a b : R5) (s : State) : Res := binOp d a b (fun x y => x <<< shAmt y) s
/-- SHR (R174). -/
def execShr (d a b : R5) (s : State) : Res := binOp d a b (fun x y => x >>> shAmt y) s
/-- SRA (R174). -/
def execSra (d a b : R5) (s : State) : Res := binOp d a b (fun x y => x.sshiftRight (shAmt y)) s
/-- MIN (R174). -/
def execMin (d a b : R5) (s : State) : Res := binOp d a b (fun x y => if x.slt y then x else y) s
/-- MAX (R174). -/
def execMax (d a b : R5) (s : State) : Res := binOp d a b (fun x y => if x.slt y then y else x) s
/-- MINN (R174). -/
def execMinn (d a b : R5) (s : State) : Res := binOp d a b (fun x y => if x.ult y then x else y) s
/-- MAXN (R174). -/
def execMaxn (d a b : R5) (s : State) : Res := binOp d a b (fun x y => if x.ult y then y else x) s
/-- SEQ (R174). -/
def execSeq (d a b : R5) (s : State) : Res := binOp d a b (fun x y => flag64 (x = y)) s
/-- SNE (R174). -/
def execSne (d a b : R5) (s : State) : Res := binOp d a b (fun x y => flag64 (x ≠ y)) s
/-- SLT (R174). -/
def execSlt (d a b : R5) (s : State) : Res := binOp d a b (fun x y => flag64 (x.slt y)) s
/-- SLTN (R174). -/
def execSltn (d a b : R5) (s : State) : Res := binOp d a b (fun x y => flag64 (x.ult y)) s
/-- CLZ (R174). -/
def execClz (d a : R5) (s : State) : Res := immOp d a (fun x => BitVec.ofNat 64 (clzFrom x 64)) s
/-- POPC (R174). -/
def execPopc (d a : R5) (s : State) : Res := immOp d a (fun x => BitVec.ofNat 64 (popcount x)) s

/-- A retired control-core encoding (R86): the library's effect where it serves the cause, else the cause itself; a reserved
field that is not zero is the library's fault of cause reserved-field. -/
def retiredCC (i : Instr) (zeros : Bool) (s : State) (f : Core → State) : Res :=
  onCore s fun k =>
    if libraryServes k.ctx k.th true then (if zeros then f k else threadCause s k .reservedField (wordsOf i) (some i))
    else threadCause s k .retired (wordsOf i) (some i)

/-- BREV (retired, R86). -/
def execBrev (d a b : R5) (s : State) : Res :=
  retiredCC (.brev d a b) (b = 0) s fun k => retireX s k 1 d (bitReverse (k.th.rx a))

/-- SEL (R177). -/
def execSel (d a b c : R5) (s : State) : Res := alu s 1 d fun k => if k.th.rx c ≠ 0 then k.th.rx a else k.th.rx b
/-- ADDI (R176). -/
def execAddi (d a : R5) (imm : BitVec 16) (s : State) : Res := immOp d a (· + sext64 imm) s
/-- ANDI (R176). -/
def execAndi (d a : R5) (imm : BitVec 16) (s : State) : Res := immOp d a (· &&& zext64 imm) s
/-- ORI (R176). -/
def execOri (d a : R5) (imm : BitVec 16) (s : State) : Res := immOp d a (· ||| zext64 imm) s
/-- XORI (R176). -/
def execXori (d a : R5) (imm : BitVec 16) (s : State) : Res := immOp d a (· ^^^ zext64 imm) s
/-- SLTI (R176). -/
def execSlti (d a : R5) (imm : BitVec 16) (s : State) : Res := immOp d a (fun x => flag64 (x.slt (sext64 imm))) s
/-- SHLI (R176). -/
def execShli (d a : R5) (sh : BitVec 6) (s : State) : Res := immOp d a (fun x => x <<< sh.toNat) s
/-- SHRI (R176). -/
def execShri (d a : R5) (sh : BitVec 6) (s : State) : Res := immOp d a (fun x => x >>> sh.toNat) s
/-- SRAI (R176). -/
def execSrai (d a : R5) (sh : BitVec 6) (s : State) : Res := immOp d a (fun x => x.sshiftRight sh.toNat) s
/-- BFX (R177). -/
def execBfx (d a : R5) (x : BitVec 1) (wd p : BitVec 6) (s : State) : Res := immOp d a (bitExtract (x = 1) wd p) s
/-- BFI (R177): X[d] is a source too. -/
def execBfi (d a : R5) (wd p : BitVec 6) (s : State) : Res := alu s 1 d fun k => bitInsert wd p (k.th.rx d) (k.th.rx a)
/-- LI (R178). -/
def execLi (d : R5) (imm : BitVec 48) (s : State) : Res := alu s 2 d fun _ => sext64 imm
/-- ADDPC (R178). -/
def execAddpc (d : R5) (imm : BitVec 48) (s : State) : Res := alu s 2 d fun k => BitVec.ofNat 64 k.th.pc + sext64 imm

end Sys2Proof.Machine
end

