-- ==== Sys2Proof/Machine/Branch.lean ====
section
/-! DEFINITION. The control core's branches, jumps and JTAB: R179-R181, the deprecated JR (R85, R300), the retired LOOPZ (R86). -/

namespace Sys2Proof.Machine

/-- A conditional branch (R179): taken to (line + displacement) × 16 + slot, else on to next. -/
def condBranch (c : Core → Bool) (p : BitVec 12) (sl : BitVec 4) (s : State) : Res :=
  onCore s fun k => if c k then jump s k (relTarget k.th.pc p.toInt sl.toNat) id else retire s k 1 id

/-- BZ (R179). -/
def execBz (a : R5) (p : BitVec 12) (sl : BitVec 4) (s : State) : Res := condBranch (fun k => k.th.rx a = 0) p sl s
/-- BNZ (R179). -/
def execBnz (a : R5) (p : BitVec 12) (sl : BitVec 4) (s : State) : Res := condBranch (fun k => k.th.rx a ≠ 0) p sl s
/-- BEQ (R179). -/
def execBeq (a b : R5) (p : BitVec 12) (sl : BitVec 4) (s : State) : Res := condBranch (fun k => k.th.rx a = k.th.rx b) p sl s
/-- BNE (R179). -/
def execBne (a b : R5) (p : BitVec 12) (sl : BitVec 4) (s : State) : Res := condBranch (fun k => k.th.rx a ≠ k.th.rx b) p sl s
/-- BLT (R179). -/
def execBlt (a b : R5) (p : BitVec 12) (sl : BitVec 4) (s : State) : Res :=
  condBranch (fun k => (k.th.rx a).slt (k.th.rx b)) p sl s
/-- BGE (R179). -/
def execBge (a b : R5) (p : BitVec 12) (sl : BitVec 4) (s : State) : Res :=
  condBranch (fun k => !(k.th.rx a).slt (k.th.rx b)) p sl s
/-- BLTN (R179). -/
def execBltn (a b : R5) (p : BitVec 12) (sl : BitVec 4) (s : State) : Res :=
  condBranch (fun k => (k.th.rx a).ult (k.th.rx b)) p sl s
/-- BGEN (R179). -/
def execBgen (a b : R5) (p : BitVec 12) (sl : BitVec 4) (s : State) : Res :=
  condBranch (fun k => !(k.th.rx a).ult (k.th.rx b)) p sl s

/-- J (R180). -/
def execJ (p : BitVec 22) (sl : BitVec 4) (s : State) : Res :=
  onCore s fun k => jump s k (relTarget k.th.pc p.toInt sl.toNat) id

/-- JAL (R180): the link register takes next. -/
def execJal (d : R5) (p : BitVec 17) (sl : BitVec 4) (s : State) : Res :=
  onCore s fun k => jump s k (relTarget k.th.pc p.toInt sl.toNat) fun th => th.wx d (BitVec.ofNat 64 (k.next 1))

/-- JALR (R180): X[a] is read before X[d] is written. -/
def execJalr (d a : R5) (imm : BitVec 16) (s : State) : Res :=
  onCore s fun k => jump s k (k.th.rx a + sext64 imm) fun th => th.wx d (BitVec.ofNat 64 (k.next 1))

/-- JR (R180, deprecated: executed, then counted; a nonzero entry 4 of the handler table is then entered, R300). -/
def execJr (a : R5) (imm : BitVec 16) (s : State) : Res :=
  onCore s fun k =>
    let tgt := k.th.rx a + sext64 imm
    withTarget s k .cc false tgt fun s =>
      let s := s.updThread k.ref fun th => { th with pc := tgt.toNat, wait := .none }
      let s' := countDeprecated s k.tm.ctx (.jr a imm)
      if advises s' k.tm.ctx then
        raiseCause s' k.ref { cause := .deprecated, engine := .cc, words := wordsOf (.jr a imm), native := some (.jr a imm),
                              pc := tgt.toNat, img := k.th.img, group := none, helper := false, copy := 0 }
      else s'

/-- JTAB (R181): the index check, the 32-bit table entry from constant space, then the jump. -/
def execJtab (t i : R5) (n : BitVec 16) (s : State) : Res :=
  onCore s fun k =>
    let idx := k.th.rx i
    if n.toNat ≤ idx.toNat then threadFault s k .jumpRange 0 idx (zext64 n)
    else
      let ofs := k.th.rx t + 4 * idx
      if ofs.toNat % 4 ≠ 0 then threadFault s k .align ofs 0 (accDetail 4 2)
      else threadLoad s k (.jtab t i n) 2 0 0 4 ofs fun s bs =>
        let e := BitVec.ofNat 64 (ofBytes bs)
        if 2 ^ 30 ≤ e.toNat then threadFault s k .badTarget 0 e 0 else jump s k e id

/-- LOOPZ (retired, R86). -/
def execLoopz (a b : R5) (p : BitVec 12) (sl : BitVec 4) (s : State) : Res :=
  retiredCC (.loopz a b p sl) (b = 0) s fun k =>
    let v := k.th.rx a - 1
    if v ≠ 0 then jump s k (relTarget k.th.pc p.toInt sl.toNat) fun th => th.wx a v else retireX s k 1 a v

end Sys2Proof.Machine
end

