-- ==== Sys2Proof/Machine/Fetch.lean ====
section
/-! DEFINITION. What stands at a code address for an engine: fill, an instruction, an emulation cause or a fetch fault:
R48-R51, R72, R76. -/

namespace Sys2Proof.Machine

/-- What an engine finds at a code address. -/
inductive Fetched where
  | run (i : Instr)
  | cause (c : Cause) (words : List W32) (native : Option Instr)
  /-- the rest of the line is fill, or the line has been passed: the chain goes on there -/
  | skip (pc : Nat)
  /-- the chain has ended with its line (R50) -/
  | endOfChain
  | stop (c : Chk)
  /-- the context has ended (R351) -/
  | ended
  deriving DecidableEq, Repr

/-- The words of a line from slot `sl`. -/
def lineWords (l : List Byte) (sl n : Nat) : List W32 := (List.range n).map fun i => lineWord l (sl + i)

/-- Every word from slot `sl` to slot 15 is 0 (R49). -/
def isFill (l : List Byte) (sl : Nat) : Bool := (lineWords l sl (16 - sl)).all (· = 0)

/-- The instruction at slot `sl` of a line, by R72: length first, then the checks of decode. -/
def decodeSlot (e : Engine) (edis : W64) (l : List Byte) (sl : Nat) : Fetched :=
  let n := instrWords e (lineWord l sl)
  if 16 < sl + n then .cause .undefined (lineWords l sl (16 - sl)) none
  else
    match decodeFate e edis (lineWords l sl n) with
    | .run i => .run i
    | .emulate c i => .cause c (lineWords l sl n) i

/-- The fetch of R51 at `pc`, whose slot is 0 where the chain has ended: the line is brought, its engine field checked, and
its ENTRY bit where a chain begins. -/
def fetchAt (s : State) (h c img pc : Nat) (e : Engine) (edis : W64) (entry : Bool) : State × Fetched :=
  if pc % 16 = 0 then (s, .endOfChain)
  else
    match ensureLine s h c img (pc / 16) with
    | (s, .ok, l) =>
      if lineEngine l ≠ engCode e || (entry && !lineEntry l) then (s, .stop (.fault .imageLink))
      else if isFill l (pc % 16) then (s, .skip (if lineEnd l then pc / 16 * 16 else lineNext l * 16 + 1))
      else (s, decodeSlot e edis l (pc % 16))
    | (s, .stop ck, _) => (s, .stop ck)
    | (s, .ended, _) => (s, .ended)

end Sys2Proof.Machine
end

