-- ==== Sys2Proof/Machine/Flags.lean ====
section
/-! DEFINITION. The floating-point exception flags (R111-R113): their bits, and the delivery check of control threads,
groups and streams. -/

namespace Sys2Proof.Machine

/-- Flag bits of R111. -/
abbrev Flags := BitVec 6
/-- invalid -/
def fInvalid : Flags := 1
/-- divide-by-zero -/
def fDivZero : Flags := 2
/-- overflow -/
def fOverflow : Flags := 4
/-- underflow: tiny and inexact -/
def fUnderflow : Flags := 8
/-- inexact -/
def fInexact : Flags := 16
/-- saturation -/
def fSat : Flags := 32

/-- The flag `f` where `b` holds. -/
def raiseIf (b : Bool) (f : Flags) : Flags := if b then f else 0

/-- The OR of flags (R112). -/
def orFlags (l : List Flags) : Flags := l.foldl (· ||| ·) 0

/-- Delivery at a thread's FENCE, BARI, BARA or BARW (R113, R278): a pending COPY_FAULT is taken first; then enabled flags
fault with FPX_TRAP, and FPX is left unchanged; otherwise the instruction executes. -/
def deliver (s : State) (k : Core) (f : State) : State :=
  match k.th.copyFaults with
  | c :: cs =>
    (threadFault s k .copyFault 0 (BitVec.ofNat 64 c.code) c.seq).updThread k.ref fun th => { th with copyFaults := cs }
  | [] =>
    if k.th.fpx &&& k.th.fpxmask ≠ 0 then threadFault s k .fpxTrap 0 (zext64 k.th.fpx) (zext64 k.th.fpxmask) else f

end Sys2Proof.Machine
end

