-- ==== Sys2Proof/Machine/Numbers.lean ====
section
/-! DEFINITION. The numbers of the lane groups and the matrix engine: formats, exact values, rounding, overflow, NaN
(R88-R100), and the scalar operations and conversions built on them (R207, R211, R214). A finite value is an exact dyadic
number m · 2^e with a sign, so that every operation is computed exactly and rounded once. -/

namespace Sys2Proof.Machine

/-! ### Formats (R88, R89) -/

/-- The fields of a format: exponent bits, mantissa bits, bias, the code of the largest finite magnitude, the canonical NaN
and whether it has infinities. -/
structure Fmt where
  eb   : Nat
  mb   : Nat
  bias : Nat
  big  : Nat
  nan  : Nat
  inf  : Bool
  deriving DecidableEq, Repr

/-- FP32 -/
def fmtF32 : Fmt := ⟨8, 23, 127, 0x7F7FFFFF, 0x7FC00000, true⟩
/-- FP16 -/
def fmtF16 : Fmt := ⟨5, 10, 15, 0x7BFF, 0x7E00, true⟩
/-- BF16 -/
def fmtBF16 : Fmt := ⟨8, 7, 127, 0x7F7F, 0x7FC0, true⟩
/-- E4M3: no infinity; code 0x7E is 448 and 0x7F is NaN. -/
def fmtE4M3 : Fmt := ⟨4, 3, 7, 0x7E, 0x7F, false⟩
/-- E5M2 -/
def fmtE5M2 : Fmt := ⟨5, 2, 15, 0x7B, 0x7E, true⟩
/-- E2M1's magnitudes: codes 0 to 7 (R91). -/
def fmtE2M1 : Fmt := ⟨2, 1, 1, 7, 0, false⟩

/-- The format of a float type code 8-13 (R62). -/
def fmtOf (ty : Nat) : Fmt :=
  match ty with
  | 9 => fmtF16 | 10 => fmtBF16 | 11 => fmtE4M3 | 12 => fmtE5M2 | 13 => fmtE2M1 | _ => fmtF32

/-- The bits of a format. -/
def Fmt.width (f : Fmt) : Nat := 1 + f.eb + f.mb
/-- The exponent of the least normal value. -/
def Fmt.emin (f : Fmt) : Int := 1 - (f.bias : Int)
/-- The sign bit as a number. -/
def Fmt.sign (f : Fmt) (neg : Bool) : Nat := if neg then 2 ^ (f.eb + f.mb) else 0
/-- The code of infinity, for the formats that have one. -/
def Fmt.infCode (f : Fmt) : Nat := (2 ^ f.eb - 1) * 2 ^ f.mb

/-- An exact value: a NaN (signalling or not), an infinity, or (−1)^neg · m · 2^e. -/
inductive Num where
  | nan (signalling : Bool)
  | inf (neg : Bool)
  | fin (neg : Bool) (m : Nat) (e : Int)
  deriving DecidableEq, Repr

/-- The value of a code of a format (R88, R89). -/
def Fmt.decode (f : Fmt) (v : Nat) : Num :=
  let neg := v / 2 ^ (f.eb + f.mb) % 2 = 1
  let e := v / 2 ^ f.mb % 2 ^ f.eb
  let m := v % 2 ^ f.mb
  if f.inf && e = 2 ^ f.eb - 1 then
    if m = 0 then .inf neg else .nan (m < 2 ^ (f.mb - 1))
  else if !f.inf && f.nan ≠ 0 && v % 2 ^ (f.eb + f.mb) = f.nan then .nan false
  else if e = 0 then .fin neg m (f.emin - f.mb)
  else .fin neg (m + 2 ^ f.mb) (f.emin - f.mb + (e - 1 : Nat))

/-- The value of an E2M1 code under VCVT: 0b1000 is a signalling NaN (R214). -/
def decodeE2M1 (v : Nat) : Num := if v % 16 = 8 then .nan true else fmtE2M1.decode (v % 16)

/-- The value of a sub-element of a float type (R214). -/
def decodeTy (ty v : Nat) : Num := if ty = 13 then decodeE2M1 v else (fmtOf ty).decode v

/-! ### Rounding (R96, R97) -/

/-- Whether a magnitude with remainder `rem` of `2^d` rounds up: modes 0 RNE, 1 RZ, 2 RU, 3 RD. -/
def roundsUp (mode : Nat) (neg : Bool) (n rem d : Nat) : Bool :=
  if rem = 0 then false
  else
    match mode with
    | 0 => 2 ^ d < 2 * rem || (2 * rem = 2 ^ d && n % 2 = 1)
    | 1 => false
    | 2 => !neg
    | _ => neg

/-- m · 2^e as a multiple of 2^q, rounded, and whether it was exact. -/
def quantise (mode : Nat) (neg : Bool) (m : Nat) (e q : Int) : Nat × Bool :=
  if q ≤ e then (m * 2 ^ (e - q).toNat, true)
  else
    let d := (q - e).toNat
    let n := m / 2 ^ d
    let r := m % 2 ^ d
    (if roundsUp mode neg n r d then n + 1 else n, r = 0)

/-- Overflow's result (R97; for E2M1, R214): away from zero infinity or E4M3's NaN, else the largest finite. -/
def overflowTo (f : Fmt) (mode : Nat) (sat neg : Bool) : Nat × Flags :=
  let big := f.big + f.sign neg
  if sat then (big, fSat ||| fInexact)
  else if f.nan = 0 then (big, fOverflow ||| fInexact)
  else if mode = 0 || (mode = 2 && !neg) || (mode = 3 && neg) then
    (if f.inf then f.infCode + f.sign neg else f.nan, fOverflow ||| fInexact)
  else (big, fOverflow ||| fInexact)

/-- A nonzero exact value rounded once to a format (R96, R97); tininess is detected after rounding. -/
def roundFin (f : Fmt) (mode : Nat) (sat neg : Bool) (m : Nat) (e : Int) : Nat × Flags :=
  if m = 0 then (f.sign neg, 0)
  else
    let top : Int := e + (Nat.log2 m : Int)
    let qmin := f.emin - f.mb
    let q := max (top - f.mb) qmin
    let (n, exact) := quantise mode neg m e q
    let code := n + (q - qmin).toNat * 2 ^ f.mb
    if f.big < code then overflowTo f mode sat neg
    else
      let (n', _) := quantise mode neg m e (top - f.mb)
      let tiny := top < f.emin && !(top = f.emin - 1 && n' = 2 ^ (f.mb + 1))
      (code + f.sign neg, raiseIf (!exact) fInexact ||| raiseIf (tiny && !exact) fUnderflow)

/-- A value written in a format (R96-R98): NaN canonical, a signalling one invalid; an infinity to E4M3 is 0x7F with invalid,
or ±448 with saturation under .SAT. -/
def roundNum (f : Fmt) (mode : Nat) (sat : Bool) (x : Num) : Nat × Flags :=
  match x with
  | .nan s => (f.nan, raiseIf s fInvalid)
  | .inf neg =>
    if f.inf then (f.infCode + f.sign neg, 0)
    else if sat then (f.big + f.sign neg, fSat) else (f.nan, fInvalid)
  | .fin neg m e => roundFin f mode sat neg m e

/-! ### Exact arithmetic -/

/-- The product of two values; none where it is 0 · ∞. -/
def Num.mul (a b : Num) : Option Num :=
  match a, b with
  | .nan s, .nan t => some (.nan (s || t))
  | .nan s, _ => some (.nan s)
  | _, .nan t => some (.nan t)
  | .inf n, .inf k => some (.inf (n != k))
  | .inf n, .fin k m _ => if m = 0 then none else some (.inf (n != k))
  | .fin n m _, .inf k => if m = 0 then none else some (.inf (n != k))
  | .fin n m e, .fin k p q => some (.fin (n != k) (m * p) (e + q))

/-- The signed multiple of 2^q that a finite value is, for a `q` at or below its exponent. -/
def signedAt (neg : Bool) (m : Nat) (e q : Int) : Int :=
  let v : Int := ((m * 2 ^ (e - q).toNat : Nat) : Int)
  if neg then -v else v

/-- The exact sum of two finite values, with the sign of a zero sum (R96). -/
def addFin (mode : Nat) (n : Bool) (m : Nat) (e : Int) (k : Bool) (p : Nat) (f : Int) : Num :=
  let q := min e f
  let v := signedAt n m e q + signedAt k p f q
  if v = 0 then .fin (if m = 0 && p = 0 && n = k then n else mode = 3) 0 q
  else .fin (v < 0) v.natAbs q

/-- The sum of two values; none where it is ∞ − ∞. -/
def Num.add (mode : Nat) (a b : Num) : Option Num :=
  match a, b with
  | .nan s, .nan t => some (.nan (s || t))
  | .nan s, _ => some (.nan s)
  | _, .nan t => some (.nan t)
  | .inf n, .inf k => if n = k then some (.inf n) else none
  | .inf n, _ => some (.inf n)
  | _, .inf k => some (.inf k)
  | .fin n m e, .fin k p f => some (addFin mode n m e k p f)

/-- The value with its sign inverted. -/
def Num.neg : Num → Num
  | .nan s => .nan s
  | .inf n => .inf !n
  | .fin n m e => .fin (!n) m e

/-- The value is a NaN. -/
def Num.isNan : Num → Bool
  | .nan _ => true
  | _ => false
/-- The value is a signalling NaN. -/
def Num.isSnan : Num → Bool
  | .nan s => s
  | _ => false

/-- m · 2^e ≤ p · 2^f. -/
def magLe (m : Nat) (e : Int) (p : Nat) (f : Int) : Bool :=
  let q := min e f
  m * 2 ^ (e - q).toNat ≤ p * 2 ^ (f - q).toNat

/-- a ≤ b on ordered values, with −0 equal to +0. -/
def Num.le (a b : Num) : Bool :=
  match a, b with
  | .fin n m e, .fin k p f => let q := min e f; signedAt n m e q ≤ signedAt k p f q
  | .inf n, .inf k => n || !k
  | .inf n, _ => n
  | _, .inf k => !k
  | _, _ => false

/-- An invalid operation's result: the canonical NaN (R98, R211). -/
def invalidIn (f : Fmt) : Nat × Flags := (f.nan, fInvalid)

/-- A value, or invalid where there is none, rounded to a format. -/
def roundOpt (f : Fmt) (mode : Nat) (sat : Bool) (x : Option Num) : Nat × Flags :=
  match x with
  | some v => roundNum f mode sat v
  | none => invalidIn f

/-- FADD (R211). -/
def fAdd (f : Fmt) (mode : Nat) (sat : Bool) (a b : Nat) : Nat × Flags := roundOpt f mode sat ((f.decode a).add mode (f.decode b))
/-- FSUB (R211): the subtrahend counts with its sign inverted (R96). -/
def fSub (f : Fmt) (mode : Nat) (sat : Bool) (a b : Nat) : Nat × Flags :=
  roundOpt f mode sat ((f.decode a).add mode (f.decode b).neg)
/-- FMUL (R211). -/
def fMul (f : Fmt) (mode : Nat) (sat : Bool) (a b : Nat) : Nat × Flags := roundOpt f mode sat ((f.decode a).mul (f.decode b))
/-- FFMA (R211): an exact product and sum, one rounding; 0 × ∞ is invalid whatever c is. -/
def fFma (f : Fmt) (mode : Nat) (sat : Bool) (a b c : Nat) : Nat × Flags :=
  match (f.decode a).mul (f.decode b) with
  | none => invalidIn f
  | some p => roundOpt f mode sat (p.add mode (f.decode c))

/-- FMIN and FMAX (R98): the non-NaN operand; −0 below +0; a signalling NaN raises invalid. -/
def fMinMax (f : Fmt) (wantMax : Bool) (a b : Nat) : Nat × Flags :=
  let x := f.decode a
  let y := f.decode b
  let fl := raiseIf (x.isSnan || y.isSnan) fInvalid
  if x.isNan then (if y.isNan then f.nan else b, fl)
  else if y.isNan then (a, fl)
  else
    let lt := if x.le y && y.le x then f.sign true ≤ a && b < f.sign true else x.le y
    (if lt != wantMax then a else b, fl)

/-- FABS (R211). -/
def fAbs (f : Fmt) (a : Nat) : Nat := a % f.sign true
/-- FNEG (R211). -/
def fNeg (f : Fmt) (a : Nat) : Nat := a ^^^ f.sign true

/-- FCMP's condition codes (R212): 0 EQ, 1 NE, 2 LT, 3 LE, 4 GT, 5 GE, 6 UN; and invalid. -/
def fCmp (f : Fmt) (c a b : Nat) : Bool × Flags :=
  let x := f.decode a
  let y := f.decode b
  let un := x.isNan || y.isNan
  let le := x.le y
  let ge := y.le x
  let r := match c with
    | 0 => !un && le && ge
    | 1 => un || !(le && ge)
    | 2 => !un && !ge
    | 3 => !un && le
    | 4 => !un && !le
    | 5 => !un && ge
    | _ => un
  (r, raiseIf (if 2 ≤ c && c ≤ 5 then un else x.isSnan || y.isSnan) fInvalid)

/-! ### FRCP, FRSQ, FEXP2, FLOG2 (R100) -/

/-- Newton's iteration for the integer square root, from above. -/
def isqrtIter (n : Nat) : Nat → Nat → Nat
  | 0, x => x
  | fuel + 1, x => let y := (x + n / x) / 2; if x ≤ y then x else isqrtIter n fuel y

/-- The integer square root. -/
def isqrt (n : Nat) : Nat := if n = 0 then 0 else isqrtIter n 64 (2 ^ (Nat.log2 n / 2 + 1))

/-- A positive value known from below: m · 2^e, exactly, or (odd last bit) strictly above the even value below it and
strictly below the one above. -/
def sticky (m : Nat) (exact : Bool) (e : Int) : Nat × Int := (2 * m + (if exact then 0 else 1), e - 1)

/-- 1 / (m · 2^e). -/
def recip (m : Nat) (e : Int) : Nat × Int :=
  let k := Nat.log2 m + 64
  sticky (2 ^ k / m) (2 ^ k % m = 0) (-(k : Int) - e)

/-- 1 / √(m · 2^e). -/
def rsqrt (m : Nat) (e : Int) : Nat × Int :=
  let m' := if e % 2 = 0 then m else 2 * m
  let e' := if e % 2 = 0 then e else e - 1
  let k := Nat.log2 m' + 70
  let r := isqrt (2 ^ (2 * k) / m')
  sticky r (r * r * m' = 2 ^ (2 * k)) (-(k : Int) - e' / 2)

/-- The product of 2^(2^-i) over the one bits of a 64-bit fraction, most significant first, in 128-bit fixed point; `c` is
2^(2^-i). -/
def exp2Frac (frac : Nat) : Nat → Nat → Nat → Nat
  | 0, _, acc => acc
  | i + 1, c, acc =>
    let acc := if frac / 2 ^ i % 2 = 1 then acc * c / 2 ^ 128 else acc
    exp2Frac frac i (isqrt (c * 2 ^ 128)) acc

/-- 2^(±m · 2^e): exact for an integer; beyond any format's range a power of two that overflows or underflows alike. -/
def exp2 (neg : Bool) (m : Nat) (e : Int) : Nat × Int :=
  if 12 ≤ e + (Nat.log2 m : Int) then (3, if neg then -5000 else 5000)
  else
    let v := signedAt neg m (max e (-1024)) (-1024)
    let n := v / 2 ^ 1024
    let fr := (v % 2 ^ 1024).toNat
    if fr = 0 then sticky 1 true n
    else sticky (exp2Frac (fr / 2 ^ 960) 64 (isqrt (2 * 2 ^ 256)) (2 ^ 128)) false (n - 128)

/-- The first `n` fraction bits of log2 of y / 2^200, for y in [2^200, 2^201). -/
def log2Frac : Nat → Nat → Nat → Nat
  | 0, _, acc => acc
  | n + 1, y, acc =>
    let y := y * y / 2 ^ 200
    if 2 ^ 201 ≤ y then log2Frac n (y / 2) (2 * acc + 1) else log2Frac n y (2 * acc)

/-- log2(m · 2^e): sign, magnitude, exponent; exact for a power of two. -/
def log2Num (m : Nat) (e : Int) : Bool × Nat × Int :=
  let l := Nat.log2 m
  let n : Int := e + l
  if m = 2 ^ l then (n < 0, n.natAbs, 0)
  else
    let v := 2 * (n * 2 ^ 80 + (log2Frac 80 (if l ≤ 200 then m * 2 ^ (200 - l) else m / 2 ^ (l - 200)) 0 : Nat)) + 1
    (v < 0, v.natAbs, -81)

/-- A result of R100 that no special case fixes: for F16 and BF16 correctly rounded under RNE; for F32 one of the results
within 1 ulp, the same one for the same operation and operand on every run (an uninterpreted choice; log entry 2), taken from the two
neighbours of the exact result, or from a representable one and its neighbours. DESIGN CHOICE (log entry 109).
`fixed` where the manual names the exact result. A result that is tiny and inexact raises underflow (R111). -/
def approx (f : Fmt) (op x : Nat) (sat fixed neg : Bool) (m : Nat) (e : Int) : Nat × Flags :=
  let near := roundFin f 0 sat neg m e
  if f.mb ≠ 23 || fixed || near.2 &&& (fOverflow ||| fSat) ≠ 0 then near
  else
    let lo := roundFin f 3 false neg m e
    let hi := roundFin f 2 false neg m e
    let c := Config.choice (op * 2 ^ 32 + x)
    let off (v : Nat) : Nat × Flags := (v, fInexact ||| raiseIf (v % 2 ^ 31 < 2 ^ 23) fUnderflow)
    if lo.1 = hi.1 then
      match c % 3 with
      | 0 => near
      | 1 => off (near.1 + 1)
      | _ => off (near.1 - 1)
    else if hi.2 &&& fOverflow ≠ 0 || (c % 2 = 0 && lo.2 &&& fOverflow = 0) then lo
    else hi

/-- FRCP (R100). -/
def fRcp (f : Fmt) (sat : Bool) (a : Nat) : Nat × Flags :=
  match f.decode a with
  | .nan s => (f.nan, raiseIf s fInvalid)
  | .inf n => (f.sign n, 0)
  | .fin n m e =>
    if m = 0 then (f.infCode + f.sign n, fDivZero)
    else let (p, q) := recip m e; approx f 0 a sat false n p q

/-- FRSQ (R100). -/
def fRsq (f : Fmt) (sat : Bool) (a : Nat) : Nat × Flags :=
  match f.decode a with
  | .nan s => (f.nan, raiseIf s fInvalid)
  | .inf n => if n then invalidIn f else (0, 0)
  | .fin n m e =>
    if m = 0 then (f.infCode + f.sign n, fDivZero)
    else if n then invalidIn f
    else let (p, q) := rsqrt m e; approx f 1 a sat false false p q

/-- FEXP2 (R100): 2^n is exact whenever it is representable; for F32 a smaller one is within 1 ulp, as any other result is. -/
def fExp2 (f : Fmt) (sat : Bool) (a : Nat) : Nat × Flags :=
  match f.decode a with
  | .nan s => (f.nan, raiseIf s fInvalid)
  | .inf n => (if n then 0 else f.infCode, 0)
  | .fin n m e =>
    if m = 0 then roundFin f 0 sat false 1 0
    else let (p, q) := exp2 n m e; approx f 2 a sat (p = 2 && f.emin - f.mb ≤ q + 1) false p q

/-- FLOG2 (R100): a power of two is exact. -/
def fLog2 (f : Fmt) (sat : Bool) (a : Nat) : Nat × Flags :=
  match f.decode a with
  | .nan s => (f.nan, raiseIf s fInvalid)
  | .inf n => if n then invalidIn f else (f.infCode, 0)
  | .fin n m e =>
    if m = 0 then (f.infCode + f.sign true, fDivZero)
    else if n then invalidIn f
    else let (neg, p, q) := log2Num m e; approx f 3 a sat (q = 0) neg p q

/-! ### Integers (R94, R207) -/

/-- The types with a sign: codes 0-3 (R62). -/
def signedTy (ty : Nat) : Bool := ty < 4

/-- The value of `w` bits in a type's signedness. -/
def intVal (signed : Bool) (w v : Nat) : Int := if signed && 2 ^ (w - 1) ≤ v then (v : Int) - 2 ^ w else v

/-- The least and the greatest value of a type. -/
def intMin (signed : Bool) (w : Nat) : Int := if signed then -(2 ^ (w - 1)) else 0
/-- The greatest value of a type. -/
def intMax (signed : Bool) (w : Nat) : Int := if signed then 2 ^ (w - 1) - 1 else 2 ^ w - 1

/-- An integer modulo 2^w. -/
def wrapTo (w : Nat) (x : Int) : Nat := (x % 2 ^ w).toNat

/-- An exact integer in a type: wrapped, or clamped with saturation (R94). -/
def intResult (signed : Bool) (w : Nat) (sat : Bool) (x : Int) : Nat × Flags :=
  if sat && x < intMin signed w then (wrapTo w (intMin signed w), fSat)
  else if sat && intMax signed w < x then (wrapTo w (intMax signed w), fSat)
  else (wrapTo w x, 0)

/-- Leading zero bits within `w` bits (R207). -/
def leadingZeros (w v : Nat) : Nat := if v = 0 then w else w - 1 - Nat.log2 v

/-- The number of one bits in `w` bits. -/
def popCount : Nat → Nat → Nat
  | 0, _ => 0
  | w + 1, v => v % 2 + popCount w (v / 2)

/-- Conditions 0 EQ, 1 NE, 2 LT, 3 LE, 4 GT, 5 GE on integers (R209). -/
def intCond (c : Nat) (a b : Int) : Bool :=
  match c with
  | 0 => a = b | 1 => a ≠ b | 2 => a < b | 3 => a ≤ b | 4 => b < a | _ => b ≤ a

/-! ### Conversions (R99, R213, R214) -/

/-- Float to integer (R99). -/
def floatToInt (signed : Bool) (w mode : Nat) (x : Num) : Nat × Flags :=
  match x with
  | .nan _ => (0, fInvalid)
  | .inf n => (wrapTo w (if n then intMin signed w else intMax signed w), fInvalid)
  | .fin n m e =>
    let (q, exact) := quantise mode n m e 0
    let v : Int := if n then -(q : Int) else q
    if v < intMin signed w then (wrapTo w (intMin signed w), fInvalid)
    else if intMax signed w < v then (wrapTo w (intMax signed w), fInvalid)
    else (wrapTo w v, raiseIf (!exact) fInexact)

/-- Any value to E2M1 (R214): no code 0b1000, ±6 at the ends, zeros are 0b0000. -/
def toE2M1 (mode : Nat) (sat : Bool) (x : Num) : Nat × Flags :=
  match x with
  | .nan _ => (0, fInvalid)
  | .inf n => (7 + (if n then 8 else 0), fInvalid)
  | .fin n m e =>
    let (c, fl) := roundFin fmtE2M1 mode sat n m e
    (if c % 8 = 0 then 0 else c, fl)

/-- A value to a float type. -/
def toFloat (dty mode : Nat) (sat : Bool) (x : Num) : Nat × Flags :=
  if dty = 13 then toE2M1 mode sat x else roundNum (fmtOf dty) mode sat x

/-- convert() of R213 from type `sty` to type `dty`. -/
def convert (sty dty mode : Nat) (sat : Bool) (v : Nat) : Nat × Flags :=
  if 8 ≤ sty then
    let x := decodeTy sty v
    if 8 ≤ dty then toFloat dty mode sat x else floatToInt (signedTy dty) (tyWidth dty) mode x
  else
    let x := intVal (signedTy sty) (tyWidth sty) v
    if 8 ≤ dty then toFloat dty mode sat (.fin (x < 0) x.natAbs 0)
    else intResult (signedTy dty) (tyWidth dty) sat x

/-! ### Sub-elements (R95) -/

/-- The first `n` sub-elements of width `w`. -/
def splitSub (w v : Nat) : Nat → List Nat
  | 0 => []
  | n + 1 => v % 2 ^ w :: splitSub w (v / 2 ^ w) n

/-- Sub-elements joined, the first in the low bits. -/
def joinSub (w : Nat) : List Nat → Nat
  | [] => 0
  | x :: xs => x % 2 ^ w + 2 ^ w * joinSub w xs

/-- The sub-elements of an element of a type of width `w`: one for 64-bit types. -/
def subsOf (w : Nat) (v : W64) : List Nat := splitSub w v.toNat (perElem w)

/-- Results of sub-elements joined into an element, with the OR of their flags (R112). -/
def joinRes (w : Nat) (rs : List (Nat × Flags)) : W64 × Flags :=
  (BitVec.ofNat 64 (joinSub w (rs.map (·.1))), orFlags (rs.map (·.2)))

end Sys2Proof.Machine
end

