-- ==== Sys2Proof/Machine/Sync.lean ====
section
/-! DEFINITION. The control core's loads, stores, atomics, fences, barriers, suspended cells and hardware locks:
R228-R230, R234, R241-R257, and the events that end their waits. -/

namespace Sys2Proof.Machine

/-- The address of a CM instruction (R224). -/
def cmAddr (k : Core) (a : R5) (m : MemW) : W64 := k.th.rx a + k.th.rx (a + 1) + sext64 m.off

/-- The bytes of an access of a type code 0-7 (R62). -/
def tyBytes (ty : BitVec 4) : Nat := tyWidth ty.toNat / 8

/-- A loaded value in a register: sign-extended for I types, zero-extended for N types (R228). -/
def extendTo (signed : Bool) (w v : Nat) : W64 := if signed && 2 ^ (w - 1) ≤ v then BitVec.ofInt 64 ((v : Int) - 2 ^ w) else BitVec.ofNat 64 v

/-- The I types are codes 0-3 (R62). -/
def tySigned (ty : BitVec 4) : Bool := ty.toNat < 4

/-- A private atomic, load or store acts at the L1 of its issuer; otherwise the scope names the level (R141, R148). -/
def atomicScope (m : MemW) : Nat := if m.space = 3 then 0 else m.scope.toNat

/-- LD (R228). -/
def execLd (d a : R5) (ty : BitVec 4) (m : MemW) (s : State) : Res :=
  onCore s fun k =>
    threadLoad s k (.ld d a ty m) m.space.toNat m.scope.toNat m.hint.toNat (tyBytes ty) (cmAddr k a m) fun s bs =>
      retireX s k 2 d (extendTo (tySigned ty) (8 * tyBytes ty) (ofBytes bs))

/-- LDA (R228): as LD, and an acquire at its scope. -/
def execLda (d a : R5) (ty : BitVec 4) (m : MemW) (s : State) : Res :=
  onCore s fun k =>
    threadLoad s k (.lda d a ty m) m.space.toNat m.scope.toNat m.hint.toNat (tyBytes ty) (cmAddr k a m) fun s bs =>
      retireX (acquireAt s k.ref.hand m.scope.toNat) k 2 d (extendTo (tySigned ty) (8 * tyBytes ty) (ofBytes bs))

/-- The checks of a store of a thread, then `f` on what it names. -/
def threadStore (s : State) (k : Core) (i : Instr) (m : MemW) (n : Nat) (addr : W64) (f : State → Tgt → State) : State :=
  match checkAccess s k.actor .store m.space.toNat m.scope.toNat n n k.edis6 addr true with
  | (s, .ok t) => f s t
  | (s, .disabled) => threadCause s k .disabled (wordsOf i) (some i)
  | (s, ck) => threadRefused s k ck addr n m.space.toNat

/-- ST (R228): it retires once its checks have passed and performs afterwards (ACCESS_COMPLETE). A store to a peer retires when the peer
has acknowledged it, so that no release has to wait for it (R167; log entry 95). -/
def execSt (a b : R5) (ty : BitVec 4) (m : MemW) (s : State) : Res :=
  onCore s fun k =>
    let bs := toBytes (tyBytes ty) (k.th.rx b).toNat
    threadStore s k (.st a b ty m) m (tyBytes ty) (cmAddr k a m) fun s t =>
      match t with
      | .peer _ _ => peerThen s k t (.store bs) (cmAddr k a m) (tyBytes ty) fun s => retire (writeTgt s k.actor t bs 4 0) k 2 id
      | _ =>
        retire s k 2 fun th =>
          { th with buffer := th.buffer ++ [{ space := m.space.toNat, scope := m.scope.toNat, hint := m.hint.toNat,
                                              va := k.actor.virtual m.space.toNat (cmAddr k a m), tgt := t, data := bs, img := k.th.img, pc := k.th.pc }] }

/-- STL (R228): as ST, and a release at its scope before it. -/
def execStl (a b : R5) (ty : BitVec 4) (m : MemW) (s : State) : Res :=
  onCore s fun k =>
    threadStore s k (.stl a b ty m) m (tyBytes ty) (cmAddr k a m) fun s t =>
      if writeWaits s k.ref.hand t (tyBytes ty) then s else
      released s k m.scope.toNat fun s =>
        peerThen s k t (.store (toBytes (tyBytes ty) (k.th.rx b).toNat)) (cmAddr k a m) (tyBytes ty) fun s =>
          retire (writeTgt s (k.actor.toward (k.actor.virtual m.space.toNat (cmAddr k a m)) t) t (toBytes (tyBytes ty) (k.th.rx b).toNat) m.scope.toNat m.hint.toNat) k 2 id

/-- The `n`-th buffered store of a thread of hand `h` may perform: no earlier one touches its bytes (R155, R156) or, where both perform at
the home, its line (R166). -/
def storeReady (h : Nat) (b : List Store) (n : Nat) : Bool :=
  match b[n]? with
  | some x => !((b.take n).any fun y => mayOverlap x.tgt x.data.length y.tgt y.data.length ||
      (sameLine x.tgt y.tgt && atHome h x.tgt x.scope x.hint && atHome h y.tgt y.scope y.hint))
  | none => false

/-- ACCESS_COMPLETE: the `n`-th buffered store of a thread performs at its scope (R155, R228). -/
def execAccessComplete (t : ThreadRef) (n : Nat) (s : State) : Res :=
  match s.coreOf t with
  | none => .next s
  | some k =>
    match k.th.buffer[n]? with
    | none => .next s
    | some b =>
      match storeStop s t.hand b with
      | some ck => .next (storeRefused s k b ck)
      | none =>
        if storeReady t.hand k.th.buffer n && !writeWaits s t.hand b.tgt b.data.length then
          .next ((performStore s k b).updThread t fun th => { th with buffer := th.buffer.eraseIdx n })
        else .next s

/-- The value that an AMO puts in X[d] and the operands it takes (R229). -/
def amoEffect (s : State) (k : Core) (fn : Nat) (ty : BitVec 4) (d a b : R5) (m : MemW) (t : Tgt) : State :=
  let w := 8 * tyBytes ty
  let (s, v) := atomicTgt (drainFor s k t (tyBytes ty) (atHome k.ref.hand t (atomicScope m) m.hint.toNat)) (k.actor.toward (k.actor.virtual m.space.toNat (cmAddr k a m)) t) t fn w ((k.th.rx b).toNat % 2 ^ w) ((k.th.rx d).toNat % 2 ^ w)
    (atomicScope m) m.hint.toNat
  retireX s k 2 d (extendTo (tySigned ty) w v)

/-- AMO (R229): POISON and CELL_BUSY leave memory unchanged. -/
def execAmo (fn ty : BitVec 4) (d a b : R5) (m : MemW) (s : State) : Res :=
  onCore s fun k =>
    let addr := cmAddr k a m
    match checkAccess s k.actor .atomic m.space.toNat m.scope.toNat (tyBytes ty) (tyBytes ty) k.edis6 addr true with
    | (s, .ok t) =>
      let busy := match t with | .dev pa => if tagAt s pa ≠ 0 then some (tagAt s pa) else none | _ => none
      let units := poisonedFor s k.ref.hand t (tyBytes ty) (atomicScope m) m.hint.toNat
      if !units.isEmpty then
        threadFault (logPoison s k.actor t (k.actor.virtual m.space.toNat addr) m.space.toNat 1 units 0) k .poison addr 0 (accDetail (tyBytes ty) m.space.toNat)
      else match busy with
        | some g => threadFault s k .cellBusy addr (zext64 g) 0
        | none =>
          if writeWaits s k.ref.hand t (tyBytes ty) then s
          else
            match drainForStop s k t (tyBytes ty) (atHome k.ref.hand t (atomicScope m) m.hint.toNat) with
            | some (b, ck) => storeRefused s k b ck
            | none =>
              let w := 8 * tyBytes ty
              let op := atomicOp fn.toNat w ((k.th.rx b).toNat % 2 ^ w) ((k.th.rx d).toNat % 2 ^ w)
              match peerAsk s k.actor t op with
              | (s, .done true) =>
                threadFault (logPoison (peerDone s (.thread k.ref) 0) k.actor t addr 0 1 [t.base / 64] 0) k .poison addr 0 (accDetail (tyBytes ty) 0)
              | (_, .done false) => amoEffect s k fn.toNat ty d a b m t
              | _ => peerThen s k t op addr (tyBytes ty) id
    | (s, .disabled) => threadCause s k .disabled (wordsOf (.amo fn ty d a b m)) (some (.amo fn ty d a b m))
    | (s, ck) => threadRefused s k ck addr (tyBytes ty) m.space.toNat

/-- PFX (R230): it brings the line to the level its hint names; it never faults and changes no value. Where it does nothing, its checks
leave nothing either. -/
def execPfx (a : R5) (m : MemW) (s : State) : Res :=
  onCore s fun k =>
    match checkAccess s k.actor .load m.space.toNat 0 1 1 false (cmAddr k a m) false with
    | (s', .ok (.dev pa)) =>
      let la := alignDown pa 128
      let ps := (pathOf k.ref.hand la).drop (match m.hint.toNat with | 3 => 1 | 4 => 2 | _ => 0)
      if m.hint = 1 || m.hint = 5 || !lineVal s' la || copyHolds s' (.dev la) 128 || (k.actor.faults m.space.toNat && unitMarked s' k.ref.hand 0 m.hint.toNat (pa / 64)) then
        retire s k 2 id
      else retire (allocate s' la m.hint.toNat ps) k 2 id
    | _ => retire s k 2 id

/-! ### Fences (R149, R152, R165, R234) -/

/-- The effect of a fence of kinds 0 ACQ, 1 REL, 2 AR, 3 SC at a scope. -/
def fenceEffect (s : State) (k : Core) (kind scope : Nat) : State :=
  let s := if kind = 0 then s else threadRelease s k scope
  if kind = 1 then s else acquireAt s k.ref.hand scope

/-- A fence retires once the buffered stores that it releases can perform. -/
def fenceThen (s : State) (k : Core) (kind scope : Nat) : State :=
  match if kind = 0 then none else drainStop s k with
  | some (b, ck) => storeRefused s k b ck
  | none => retire (fenceEffect s k kind scope) k 1 id

/-- FENCE (R234); RACQ names a hand (R165). -/
def execFence (kd a : R5) (sc : BitVec 3) (s : State) : Res :=
  onCore s fun k => deliver s k <|
    if kd.toNat ≤ 3 then fenceThen s k kd.toNat sc.toNat
    else
      let h := bits (k.th.rx a) 7 0
      if h = k.ref.hand then fenceThen s k 2 3
      else if !s.enabled h then threadFault s k .nodeAbsent (k.th.rx a) 0 0
      else if !s.resident k.tm.ctx h then threadFault s k .handOwner (k.th.rx a) 0 0
      else retire (acquireAt (releaseAt s h 3) k.ref.hand 3) k 1 id

/-! ### Barriers (R241-R245) -/

/-- The test after every arrival and every copy decrement (R245). -/
def Barrier.test (b : Barrier) : Barrier :=
  if b.expected ≠ 0 && b.arrivals = b.expected && b.pending = 0 then { b with phase := b.phase + 1, arrivals := 0 } else b

/-- BARI's effect (R245): expected takes the count; arrivals and pending become 0; the phase stays. -/
def Barrier.init (b : Barrier) (n : BitVec 16) : Barrier := { b with expected := n, arrivals := 0, pending := 0 }

/-- BARA's effect (R245). -/
def Barrier.arrive (b : Barrier) (add : W64) : Barrier :=
  { b with arrivals := b.arrivals + 1, pending := b.pending + add }.test

/-- A copy's decrement (R162, R245). -/
def Barrier.copyDone (b : Barrier) (n : Nat) : Barrier := { b with pending := b.pending - BitVec.ofNat 64 n }.test

/-- Update barrier `n` of a team. -/
def updBarrier (s : State) (t : TeamRef) (n : Nat) (f : Barrier → Barrier) : State :=
  s.updTeam t fun x => { x with bars := x.bars.set n (f (barrierOf x n)) }

/-- The fault that stops a BARA (R245), with detail 2 of R339. -/
def araFault (b : Barrier) : Option FaultCode :=
  if b.expected = 0 then some .barUninit else if b.arrivals = b.expected then some .barOver else none

/-- Expected and arrivals as one detail (R339). -/
def barDetail (b : Barrier) : W64 := BitVec.ofNat 64 (b.expected.toNat * 2 ^ 16 + b.arrivals.toNat)

/-- BARI (R242, R245). -/
def execBari (n a : R5) (_sc : BitVec 3) (s : State) : Res :=
  onCore s fun k => deliver s k <|
    retire (updBarrier s k.ref.team n.toNat fun b => b.init ((k.th.rx a).setWidth 16)) k 1 id

/-- BARA (R242, R245): a release at its scope, then the arrival. -/
def execBara (n a : R5) (sc : BitVec 3) (s : State) : Res :=
  onCore s fun k => deliver s k <|
    let b := barrierOf k.tm n.toNat
    match araFault b with
    | some f => threadFault s k f 0 (BitVec.ofNat 64 n.toNat) (barDetail b)
    | none =>
      released s k sc.toNat fun s =>
        retire (updBarrier s k.ref.team n.toNat fun b => b.arrive (k.th.rx a)) k 1 fun th =>
          { th with arrival := th.arrival.set n.toNat b.phase }

/-- A thread's BARW completes: an acquire at its scope; its arrival phase is cleared (R245). -/
def barwDone (s : State) (k : Core) (n sc : Nat) : State :=
  retire (acquireAt s k.ref.hand sc) k 1 fun th => { th with arrival := th.arrival.erase n }

/-- BARW (R242, R245): it waits until the phase differs from the arrival phase, or from the phase at issue. -/
def execBarw (n : R5) (sc : BitVec 3) (s : State) : Res :=
  onCore s fun k => deliver s k <|
    let b := barrierOf k.tm n.toNat
    if b.expected = 0 then threadFault s k .barUninit 0 (BitVec.ofNat 64 n.toNat) (barDetail b)
    else
      let p := (k.th.arrival.get? n.toNat).getD b.phase
      if b.phase ≠ p then barwDone s k n.toNat sc.toNat else stall s k (.barw n.toNat sc.toNat p)

/-! ### Suspended cells (R246-R252) -/

/-- The four words follow R246's table for a suspension. -/
def suspensionOk (ws : List W64) : Bool :=
  let w0 := ws.getD 0 0
  let w2 := ws.getD 2 0
  let kind := bits w2 31 30
  bits w0 31 26 = 0 && kind ≠ 3 && bits w2 29 8 = 0 && (kind = 0 || bits w2 7 0 = 0) && bits w2 63 32 = 0 && ws.getD 3 0 = 0

/-- The bytes of four words. -/
def wordBytes (ws : List W64) : List Byte := ws.flatMap fun w => toBytes 8 w.toNat

/-- Write a sector at its home and set its tag, in one step of the sector's order (R169): copies of the line are recalled, and the set of
its home slice makes room for the line as it becomes (R131). -/
def writeSector (s : State) (c pa : Nat) (ws : List W64) (tag : BitVec 2) : State :=
  let s := undoAppend (recallLine s (alignDown pa 128)) c (pa / 64)
  let put (s : State) : State := { s with mem := Memory.write s.mem pa (wordBytes ws) }
  setTag (put (settleHomes [alignDown pa 128] (put s))) pa tag

/-- A die refuses a request of LKACQ, LKREL, LKBIND, SUSP, RSLV or CELLQ (R374): class T where failover is allowed, so that RESUME
retries the instruction. -/
def retryOffline (s : State) (k : Core) (addr : W64) (d : Nat) : State :=
  if k.ctx.failover then
    stopAgent s k.tm.ctx .dieOffline .t (.thread k.ref) (threadSite k) addr (BitVec.ofNat 64 d)
      (BitVec.ofNat 64 (if d < 4 then (s.die d).epoch else 0))
  else dieOffline s k.tm.ctx (.thread k.ref) (threadSite k) addr d

/-- The thread goes on with `f` after a release at .DV of an instruction that a refusing die makes retry (R374). -/
def retryReleased (s : State) (k : Core) (f : State → State) : State :=
  match drainStop s k with
  | none => f (threadRelease s k 3)
  | some (b, .offline d) => retryOffline s k b.va d
  | some _ => s

/-- The checks of SUSP, RSLV and CELLQ beyond their encoding, then `f` on the sector's physical address. An address that names host
memory or the bin window holds no sector, and faults with SPACE_REACH. DESIGN CHOICE (log entry 102). -/
def onSector (s : State) (k : Core) (acc : Acc) (addr : W64) (f : State → Nat → State) : State :=
  match checkAccess s k.actor acc 0 3 32 32 false addr true with
  | (s, .ok (.dev pa)) => f s pa
  | (s, .ok _) => threadFault s k .spaceReach addr 0 (accDetail 32 0)
  | (s, .offline d) => retryOffline s k addr d
  | (s, ck) => threadRefused s k ck addr 32 0

/-- SUSP (R247). -/
def execSusp (d a b : R5) (m : MemW) (s : State) : Res :=
  onCore s fun k =>
    let addr := cmAddr k a m
    let ws := k.th.rx4 b
    if addr.toNat % 32 ≠ 0 then threadFault s k .align addr 0 (accDetail 32 0)
    else if !suspensionOk ws then threadFault s k .cellFormat addr (zext64 ((ws.getD 2 0).setWidth 32)) 0
    else onSector s k .store addr fun s pa =>
      if copyHolds s (.dev pa) 32 then s else
      let old := tagAt s pa
      if old = 0 || old = 3 then retryReleased s k fun s => retireX (writeSector s k.tm.ctx pa ws 1) k 2 d (zext64 old)
      else retireX s k 2 d (zext64 old)

/-- The elements of a group's loads that wait for a sector take their bytes of its value (R251). -/
def cellValue (pa : Nat) (bs : List Byte) (o : Outst) : Outst :=
  { o with elems := o.elems.map fun e =>
      match e.tgt, e.op with
      | .dev p, .load w _ =>
        if e.wait && p / 32 = pa / 32 then { e with wait := false, val := some ((bs.drop (p % 32)).take (w / 8)) } else e
      | _, _ => e }

/-- The waiters of a sector receive its value as .DV acquires (R170, R251). -/
def resolveWaiters (s : State) (pa : Nat) (bs : List Byte) : State :=
  let woken := s.waiters.filter fun w => w.1 = pa / 32
  let s := { s with waiters := s.waiters.filter fun w => w.1 ≠ pa / 32 }
  woken.foldl (fun s w =>
    match w.2 with
    | .thread t => (acquireAt s t.hand 3).updThread t fun th => { th with wait := .cellDone pa bs }
    | .group g => (acquireAt s g.hand 3).updGroup g fun x => { x with outst := x.outst.map (cellValue pa bs) }
    | _ => s) s

/-- RSLV (R251): it acts in every state. -/
def execRslv (d a b : R5) (m : MemW) (s : State) : Res :=
  onCore s fun k =>
    let addr := cmAddr k a m
    if addr.toNat % 32 ≠ 0 then threadFault s k .align addr 0 (accDetail 32 0)
    else onSector s k .store addr fun s pa =>
      if writeWaits s k.ref.hand (.dev pa) 32 then s else
      let old := tagAt s pa
      let ws := k.th.rx4 b
      retryReleased s k fun s =>
        let s := acquireOwnership s k.ref.hand pa
        let s := resolveWaiters (writeSector s k.tm.ctx pa ws 0) pa (wordBytes ws)
        let s := if k.tm.evstack.getLast?.map (·.1) = some pa then s.updTeam k.ref.team fun t => { t with resolved := true } else s
        retireX s k 2 d (zext64 old)

/-- CELLQ's result (R252): the tag, and the failure cause where it is FAIL. -/
def cellWord (s : State) (pa : Nat) : W64 :=
  zext64 (tagAt s pa) ||| (if tagAt s pa = 3 then BitVec.ofNat 64 (Memory.readNat s.mem (pa + 20) 4 % 2 ^ 16 * 256) else 0)

/-- CELLQ (R252): VAL and FAIL are acquires at .DV. -/
def execCellq (d a : R5) (s : State) : Res :=
  onCore s fun k =>
    let addr := k.th.rx a
    if addr.toNat % 32 ≠ 0 then threadFault s k .align addr 0 (accDetail 32 0)
    else onSector s k .load addr fun s pa =>
      if copyHolds s (.dev pa) 32 then s else
      let v := cellWord s pa
      let s := if tagAt s pa = 0 || tagAt s pa = 3 then acquireAt s k.ref.hand 3 else s
      retireX s k 1 d v

/-! ### Hardware locks (R168, R254-R257) -/

/-- The lock `n`; an unlisted one is free and unbound. -/
def lockOf (s : State) (n : Nat) : Lock := s.locks.getD n ⟨none, [], 0, []⟩

/-- Update a lock. -/
def updLock (s : State) (n : Nat) (f : Lock → Lock) : State := { s with locks := s.locks.set n (f (lockOf s n)) }

/-- Move one bound chunk, 64 bytes at a time, from its home into the scratchpad of hand `h` (R168); poison travels. -/
def pushChunk (h : Nat) (s : State) (b : Tgt × Nat × Nat) : State :=
  match b.1 with
  | .dev pa =>
    let s := (List.range (b.2.2 / 64 + 2)).foldl (fun s i => recallLine s (alignDown (pa + 64 * i) 128)) s
    let marks := (poisonedUnits s b.1 b.2.2).map fun u => b.2.1 / 64 + (u - pa / 64)
    (scratchWrite s h b.2.1 (Memory.read s.mem pa b.2.2)).updHand h fun x =>
      { x with scratchPoison := x.scratchPoison ++ marks.filter fun u => !x.scratchPoison.contains u }
  | .host p => scratchWrite s h b.2.1 (Memory.read s.hostMem p b.2.2)
  | _ => s

/-- Move one bound chunk from the holder's scratchpad back to its global range (R168). -/
def pullChunk (c h : Nat) (s : State) (b : Tgt × Nat × Nat) : State :=
  let bs := Memory.read (s.hand h).scratch b.2.1 b.2.2
  match b.1 with
  | .dev pa =>
    let s := (List.range (b.2.2 / 64 + 2)).foldl (fun s i => recallLine s (alignDown (pa + 64 * i) 128)) s
    let marks := (poisonedUnits s (.scratch h b.2.1) b.2.2).map fun u => pa / 64 + (u - b.2.1 / 64)
    spoil (homeStore s c (bs.zipIdx.map fun p => (pa + p.2, p.1))) marks
  | .host p => { s with hostMem := Memory.write s.hostMem p bs }
  | _ => s

/-- What keeps the bound ranges of a lock from being moved to or from hand `h`: a copy that owns a line, a die that does not answer, a
route that does not hold (R161, R372, R374). -/
def bindStop (s : State) (h : Nat) (l : Lock) : Option Chk :=
  l.bind.findSome? fun b =>
    match b.1 with
    | .dev pa =>
      if dieRefuses s (homeDie pa) then some (.offline (homeDie pa)) else if copyHolds s b.1 b.2.2 then some .waits else none
    | .host _ => if reachesHost s h then none else some .waits
    | _ => none

/-- The next hold number: 1 after 2³² − 1 (R255). -/
def nextHold (n : BitVec 32) : BitVec 32 := if n = BitVec.allOnes 32 then 1 else n + 1

/-- A grant (R168, R255): the bound ranges are pushed, the holder acquires at .DV, X[d] receives the hold number. -/
def grantLock (s : State) (k : Core) (lk : Nat) (d : R5) : State :=
  let l := lockOf s lk
  let n := nextHold l.count
  let s := l.bind.foldl (pushChunk k.ref.hand) s
  let s := updLock s lk fun l => { l with holder := some k.ref, queue := l.queue.filter fun q => q ≠ k.ref, count := n }
  retire (acquireAt s k.ref.hand 3) k 1 fun th => (th.wx d (zext64 n)) |> fun th => { th with holds := th.holds.set lk n }

/-- The die of a lock does not answer (R374). -/
def lockDie (s : State) (k : Core) (lk : Nat) (f : State) : State :=
  if dieRefuses s (lk / 1024 % 4) then retryOffline s k 0 (lk / 1024 % 4) else f

/-- The push of a grant can be made: the lock is granted; else the request waits in the queue, or its thread retries (R374). -/
def tryGrant (s : State) (k : Core) (lk : Nat) (d : R5) : State :=
  match bindStop s k.ref.hand (lockOf s lk) with
  | none => grantLock s k lk d
  | some (.offline e) => retryOffline (updLock s lk fun l => { l with queue := l.queue.filter fun q => q ≠ k.ref }) k 0 e
  | some _ => stall (updLock s lk fun l => { l with queue := if l.queue.contains k.ref then l.queue else l.queue ++ [k.ref] }) k (.lkacq d lk)

/-- LKACQ (R255): the thread joins the lock's queue, and is granted at once where the lock is free. -/
def execLkacq (d a : R5) (s : State) : Res :=
  onCore s fun k =>
    let lk := bits (k.th.rx a) 11 0
    let l := lockOf s lk
    if !k.ctx.locks.contains lk then threadFault s k .lockRange 0 (BitVec.ofNat 64 lk) 0
    else lockDie s k lk <|
      if l.holder = some k.ref then threadFault s k .lockHeld 0 (BitVec.ofNat 64 lk) 0
      else if l.holder.isNone && (l.queue.isEmpty || l.queue.head? = some k.ref) then tryGrant s k lk d
      else if bits (k.th.rx a) 16 16 = 1 then retireX s k 1 d 0
      else stall (updLock s lk fun l => { l with queue := if l.queue.contains k.ref then l.queue else l.queue ++ [k.ref] }) k (.lkacq d lk)

/-- LOCK_GRANT: a free lock passes to the first of its queue, whose LKACQ retires (R168, R255). -/
def execLockGrant (lk : Nat) (s : State) : Res :=
  let l := lockOf s lk
  match l.holder, l.queue with
  | none, t :: _ =>
    match s.coreOf t with
    | some k =>
      match k.th.wait with
      | .lkacq d _ => .next (if threadFree s t k.th then tryGrant s k lk d else s)
      | _ => .next s
    | none => .next s
  | _, _ => .next s

/-- The write-back and release of a held lock (R168). -/
def releaseLock (s : State) (k : Core) (lk : Nat) : State :=
  let s := (lockOf s lk).bind.foldl (pullChunk k.tm.ctx k.ref.hand) (drain s k)
  updLock (releaseAt s k.ref.hand 3) lk fun l => { l with holder := none }

/-- LKREL (R256). -/
def execLkrel (a : R5) (s : State) : Res :=
  onCore s fun k =>
    let lk := bits (k.th.rx a) 11 0
    if !k.ctx.locks.contains lk then threadFault s k .lockRange 0 (BitVec.ofNat 64 lk) 0
    else lockDie s k lk <|
      if (lockOf s lk).holder ≠ some k.ref then threadFault s k .lockOwner 0 (BitVec.ofNat 64 lk) 0
      else
        match bindStop s k.ref.hand (lockOf s lk) with
        | some (.offline e) => retryOffline s k 0 e
        | some _ => s
        | none =>
          match drainStop s k with
          | some (b, .offline e) => retryOffline s k b.va e
          | some _ => s
          | none => retire (releaseLock s k lk) k 1 fun th => { th with holds := th.holds.erase lk }

/-- Load `n` consecutive 64-bit words of global space at a scope: each is an access of 8 bytes with its alignment, and one in a sector
that is not VAL is not waited for, but fails with CELL_FAILED. DESIGN CHOICE (log entry 103). -/
def loadWords (s : State) (k : Core) (scope : Nat) (addr : W64) : Nat → State × Except Chk (List W64)
  | 0 => (s, .ok [])
  | n + 1 =>
    match checkAccess s k.actor .load 0 scope 8 8 false addr true with
    | (s, .ok t) =>
      if copyHolds s t 8 || (drainForStop s k t 8).isSome then (s, .error .waits) else
      match loadTgt (drainFor s k t 8) k.actor t addr 8 0 scope 0 0 with
      | (s, .bytes bs) =>
        match loadWords s k scope (addr + 8) n with
        | (s, .ok ws) => (s, .ok (BitVec.ofNat 64 (ofBytes bs) :: ws))
        | r => r
      | (s, .poisoned) => (s, .error (.fault .poison))
      | (s, .cell _) => (s, .error (.fault .cellFailed))
      | (s, .refused f) => (s, .error (.fault f))
      | (s, .offline d) => (s, .error (.offline (2 ^ 31 + d)))
      | (s, .waits) => (s, .error .waits)
    | (s, ck) => (s, .error ck)

/-- An entry of a binding record keeps the table of R257. -/
def bindOk (addr lenOff : W64) : Bool :=
  let off := bits lenOff 31 0
  let len := bits lenOff 63 32
  addr.toNat % 64 = 0 && bits addr 63 52 = 0 && off < 2 ^ 22 && off % 64 = 0 && len % 64 = 0 && len ≤ 0x100000 && (len = 0 || off + len ≤ sysArea)

/-- Translate a range page by page; each page needs R and W, and no page request is sent (R257). -/
def bindRange (s : State) (c h va off : Nat) : Nat → Nat → State × Except Chk (List (Tgt × Nat × Nat))
  | 0, _ => (s, .ok [])
  | fuel + 1, len =>
    if len = 0 then (s, .ok [])
    else
      let n := min len (4096 - va % 4096)
      match checkVirtual s c h true .atomic va false with
      | (s, .ok t) =>
        match bindRange s c h (va + n) (off + n) fuel (len - n) with
        | (s, .ok r) => (s, .ok ((t, off, n) :: r))
        | r => r
      | (s, ck) => (s, .error ck)

/-- The entries of a binding record in order (R257): the first that fails decides. -/
def bindEntries (s : State) (k : Core) : List (W64 × W64) → Nat → State × Except (Chk × Nat × W64) (List (Tgt × Nat × Nat))
  | [], _ => (s, .ok [])
  | (addr, lo) :: es, i =>
    if !bindOk addr lo then (s, .error (.fault .lockFormat, i, addr))
    else
      match bindRange s k.tm.ctx k.ref.hand addr.toNat (bits lo 31 0) 258 (bits lo 63 32) with
      | (s, .error f) => (s, .error (f, i, addr))
      | (s, .ok r) =>
        match bindEntries s k es (i + 1) with
        | (s, .ok r') => (s, .ok (r ++ r'))
        | e => e

/-- Words in pairs. -/
def pairs : List W64 → List (W64 × W64)
  | a :: b :: r => (a, b) :: pairs r
  | _ => []

/-- LKBIND (R257, privileged). -/
def execLkbind (d a b : R5) (s : State) : Res :=
  onCore s fun k => privileged s k (.lkbind d a b) <|
    let lk := bits (k.th.rx a) 11 0
    let l := lockOf s lk
    if !k.ctx.locks.contains lk then threadFault s k .lockRange 0 (BitVec.ofNat 64 lk) 0
    else lockDie s k lk <|
      if l.holder.isSome || !l.queue.isEmpty then retireX s k 1 d 0
      else if k.th.rx b = 0 then retireX (updLock s lk fun l => { l with bind := [] }) k 1 d 1
      else
        match loadWords s k 3 (k.th.rx b) 8 with
        | (s, .error (.offline e)) => retryOffline s k (k.th.rx b) e
        | (s, .error ck) => threadRefused s k ck (k.th.rx b) 64 0
        | (s, .ok ws) =>
          match bindEntries s k (pairs ws) 0 with
          | (s, .error (.fault .lockFormat, i, ad)) => threadFault s k .lockFormat ad (BitVec.ofNat 64 lk) (BitVec.ofNat 64 i)
          | (s, .error (.offline e, _, ad)) => retryOffline s k ad e
          | (s, .error (ck, _, ad)) => threadRefused s k ck ad 64 0
          | (s, .ok r) => retireX (updLock s lk fun l => { l with bind := r }) k 1 d 1

end Sys2Proof.Machine
end

