-- ==== Sys2Proof/Machine/Operands.lean ====
section
/-! DEFINITION. What a lane-group instruction issues under and reads: the served group, stages and awaits (R33, R37), tile
names, renaming and windows (R25, R34, R205, R295, R296), activity (R202), sources and the flexible operand (R201, R204),
and the results it leaves pending (R36). -/

namespace Sys2Proof.Machine

/-- What a lane instruction reaches: the group, the deal that it runs, the team and the owning thread. -/
structure Lane where
  ref    : GroupRef
  gr     : Group
  run    : Run
  tm     : Team
  th     : Thread
  ctx    : Ctx
  helper : Bool
  line   : Option (List Byte)
  deriving DecidableEq, Repr

/-- The lane context of a group that runs a deal; a helper deal runs in place of the frozen one (R296). -/
def State.laneOf (s : State) (g : GroupRef) : Option Lane :=
  match s.group? g, s.team? g.team, s.thread? g.owner with
  | some gr, some tm, some th =>
    match s.ctx? tm.ctx with
    | some c =>
      let line (r : Run) : Option (List Byte) := linkedLine s g.hand tm.ctx r.deal.img (r.pc / 16)
      match gr.hrun, gr.run with
      | some r, _ => some ⟨g, gr, r, tm, th, c, true, line r⟩
      | none, some r => some ⟨g, gr, r, tm, th, c, false, line r⟩
      | none, none => none
    | none => none
  | _, _, _ => none

/-- Change the served deal. -/
def updRun (s : State) (l : Lane) (f : Run → Run) : State :=
  s.updGroup l.ref fun x => if l.helper then { x with hrun := x.hrun.map f } else { x with run := x.run.map f }

/-- The instruction of `w` words is complete and takes `n` positions: the body goes on behind it. -/
def advance (s : State) (l : Lane) (w n : Nat) : State :=
  (updRun s l fun r => { r with pc := nextOf l.line r.pc w, idx := r.idx + 1, started := true }).updGroup l.ref
    fun x => { x with pos := x.pos + n }

/-! ### Stages, tokens and awaits (R33, R37, R227) -/

/-- The stage predicate Sk (R33). -/
def stageOn (l : Lane) (k : BitVec 3) : Bool := l.run.s.getLsbD k.toNat

/-- Outstanding operations that count on token `t`. -/
def tokenCount (gr : Group) (t : Nat) : Nat := gr.outst.countP fun o => o.tok = some t && !o.done

/-- The deferred fault that an awaited token's operation has met, the oldest first (R227); a helper deal meets those of helper deals. -/
def deferredOn (l : Lane) (await : BitVec 8) : Option Outst :=
  l.gr.outst.find? fun o => o.bad.isSome && o.done && o.helper = l.helper && (match o.tok with | some t => await.getLsbD t | none => false)

/-- A deferred fault freezes the group: the record gives the memory instruction's place (class D); the fault is then spent. A cell's
failure ends an evaluator team, once the front end's queue has room for that (R250, R308). -/
def deferredFault (s : State) (l : Lane) (o : Outst) : State :=
  match o.bad with
  | none => s
  | some (code, addr, d1, d2) =>
    let cell := code.ofCell && !l.tm.evstack.isEmpty && !l.helper
    if cell && s.eventsFull then s
    else
      let s := s.updGroup l.ref fun x => { x with outst := x.outst.erase o }
      let place := { groupSite s l.ref l.gr with pc := o.pc, k := o.k, ins := o.ins }
      if l.helper then fatal s l.tm.ctx .emuHelper place addr (BitVec.ofNat 64 code.code) 0
      else if cell then endEvaluator s l.ref.team l.tm code place addr d1 d2
      else stopAgent (freezeGroup s l.ref) l.tm.ctx code .d (.group l.ref) place addr d1 (groupDetail l.gr)

/-! ### Tiles (R25, R34, R205, R295) -/

/-- The allocation in tiles (R25). -/
def Lane.tiles (l : Lane) : Nat := 8 * l.gr.units.length

/-- V60-V63 and M15 are windows here (R66, R296). -/
def Lane.window? (l : Lane) (n : Nat) : Bool := l.helper && l.run.blk.win && 60 ≤ n

/-- The first tile named that lies at or beyond the allocation (R25, R205). -/
def badTile (l : Lane) (ts : List Nat) : Option Nat := ts.find? fun n => !l.window? n && l.tiles ≤ n

/-- The tile of the allocation that a name refers to in this iteration (R34). -/
def renamed (r : Run) (n : Nat) : Nat :=
  let b := r.blk.rotBase
  let z := r.blk.rotSize
  if b ≤ n && n < b + z then b + (((n : Int) - b - r.rot) % z).toNat else n

/-- The key of the physical tile behind tile `n` of the allocation: unit n div 8, tile n mod 8 of the unit (R25). -/
def allocKey (gr : Group) (n : Nat) : Nat := physKey gr.lg (gr.units.getD (n / 8) 0 * 8 + n % 8)

/-- The key of the physical tile that a name reaches. -/
def Lane.key (l : Lane) (n : Nat) : Nat := allocKey l.gr (renamed l.run n)

/-- A 6-bit field of word 0 with a tile number after renaming (R294). -/
def renameField (l : Lane) (w : W32) (lo : Nat) (on : Bool) : W32 :=
  if on then
    let n := w.toNat / 2 ^ lo % 64
    if l.window? n then w else BitVec.ofNat 32 (setField w.toNat lo 6 (renamed l.run n))
  else w

/-- D7 of the helper deal (R295, R296). -/
def Lane.d7 (l : Lane) : W64 := l.run.d.getD 7 0

/-- The window of the handler whose helper deals the group takes. -/
def Lane.win (l : Lane) : Option Window := l.th.windowOf l.ref.idx

/-- The destination behind a window name V60-V63 (R295). -/
def windowDst (l : Lane) (n : Nat) : Dst :=
  match l.win with
  | none => .nowhere
  | some w =>
    let hi := l.d7.getLsbD 4
    let pick (ts : List Nat) : Dst := match (if hi && 1 < ts.length then ts[1]? else ts[0]?) with | some k => .tile k | none => .nowhere
    match w.cause.engine with
    | .matrix =>
      match n with
      | 60 => .chunk false (bits l.d7 3 2)
      | 61 => .chunk true (bits l.d7 3 2)
      | 62 => pick w.tc
      | _ => .shadowQ (bits l.d7 1 0)
    | .lane =>
      match n with
      | 60 => pick w.ta
      | 61 => pick w.tb
      | 62 => pick w.tc
      | _ => .shadow hi
    | _ => .nowhere

/-- The elements of a chunk of a ring's head slot (R295). -/
def chunkTile (s : State) (t : TeamRef) (tm : Team) (n j : Nat) : Tile :=
  let o := chunkOffset tm n j
  Tile.full <| (List.range (min 1024 (chunkElems tm n j))).map fun i =>
    BitVec.ofNat 32 (Memory.readNat (s.hand t.hand).scratch (o + 4 * i) 4)

/-- The contents behind a window name. A memory form's EWA and EWB are the low and high halves of its addresses. -/
def windowTile (s : State) (l : Lane) (n : Nat) : Tile :=
  match l.win with
  | none => List.replicate 1024 0
  | some w =>
    if w.cause.engine = .lane && n = 60 && !w.addrLo.isEmpty then w.addrLo.full
    else if w.cause.engine = .lane && n = 61 && !w.addrHi.isEmpty then w.addrHi.full
    else
      match windowDst l n with
      | .tile key => tileAt s l.ref.hand key
      | .shadow hi => (if hi then w.hi else w.lo).full
      | .shadowQ q => Tile.full ((w.lo.drop (1024 * q)).take 1024)
      | .chunk b j => chunkTile s l.ref.team l.tm (if b then w.rb else w.ra) j
      | _ => List.replicate 1024 0

/-- The destination of a tile name; the address windows of a memory form discard writes. -/
def Lane.dst (l : Lane) (n : Nat) : Dst :=
  if l.window? n then windowDst l n else .tile (l.key n)

/-- The tile that a name reads at the instruction's position. -/
def Lane.tile (s : State) (l : Lane) (n : Nat) : Tile :=
  if l.window? n then windowTile s l n else tileAt s l.ref.hand (l.key n)

/-! ### Masks and activity (R31, R202) -/

/-- A row of 64 bits repeated in all 16 rows. -/
def repeatRow (m : W64) : Mask := BitVec.ofNat 1024 (m.toNat * ((2 ^ 1024 - 1) / (2 ^ 64 - 1)))

/-- The mask register that a name reads: M0 is the deal's lane mask, M15 of a window block is EMASK. -/
def Lane.mask (l : Lane) (n : Nat) : Mask :=
  if n = 0 then repeatRow l.run.m0
  else if n = 15 && l.window? 60 then (match l.win with | some w => w.emask | none => 0)
  else l.gr.m.getD n 0

/-- The destination of a mask name. -/
def Lane.maskDst (l : Lane) (n : Nat) : Dst := if n = 15 && l.window? 60 then .emask else .mask n

/-- The active set (R202). -/
def Lane.act (l : Lane) (f : LaneW) : Mask :=
  let g := l.mask f.guard.toNat
  repeatRow l.run.m0 &&& (if f.neg = 1 then ~~~g else g)

/-- A mask as 1024 bits in element order. -/
def maskBits (m : Mask) : List Bool := (List.range 1024).map m.getLsbD

/-- Bits in element order as a mask. -/
def bitsMask (bs : List Bool) : Mask := BitVec.ofNat 1024 (joinSub 1 (bs.map fun b => if b then 1 else 0))

/-! ### Sources (R201, R203, R204) -/

/-- The elements that a name supplies: of a pair where the type is 64 bits wide (R203). -/
def Lane.src (s : State) (l : Lane) (wide : Bool) (n : Nat) : List W64 :=
  if wide then List.zipWith (fun (lo hi : W32) => (hi ++ lo : W64)) (l.tile s n) (l.tile s (n + 1))
  else (l.tile s n).map zext64

/-- D0-D7 of the running deal (R31). -/
def Lane.d (l : Lane) (n : Nat) : W64 := l.run.d.getD n 0

/-- imm6 as an integer (R201). -/
def imm6 (v : BitVec 6) : Int := v.toInt

/-- An immediate in every sub-element of a type: the integer at its width, or the exact value in a float format (R201). -/
def immElem (ty : Nat) (v : Int) : W64 :=
  let w := tyWidth ty
  let x := if ty ≤ 7 then wrapTo w v else (roundNum (fmtOf ty) 0 false (.fin (v < 0) v.natAbs 0)).1
  BitVec.ofNat 64 (joinSub w (List.replicate (perElem w) x))

/-- The flexible operand's value in every element (R201). For a retired encoding kind 3 stands for imm6 too (R86). DESIGN CHOICE (log entry
108). -/
def Lane.flex (s : State) (l : Lane) (f : LaneW) (ty : Nat) : List W64 :=
  let wide := tyWidth ty = 64
  match f.kind.toNat with
  | 0 => l.src s wide f.vc.toNat
  | 1 => List.replicate 1024 (if wide then l.d f.vc.toNat else l.d f.vc.toNat &&& 0xFFFFFFFF)
  | _ => List.replicate 1024 (immElem ty (imm6 f.vc))

/-- The flexible operand taken as a count (R218): the low 32 bits as an integer. -/
def Lane.count (l : Lane) (f : LaneW) : Int :=
  if f.kind = 1 then ((l.d f.vc.toNat).toNat % 2 ^ 32 : Nat) else imm6 f.vc

/-- The tiles that a name and its partner are (R203); of a retired encoding an odd name is the low tile of the pair (R86). DESIGN CHOICE
(log entry 108). -/
def pairOf (wide : Bool) (n : BitVec 6) : List Nat := if wide then [n.toNat, n.toNat + 1] else [n.toNat]

/-- The tiles that the flexible operand names. -/
def flexTiles (f : LaneW) (wide : Bool) : List Nat := if f.kind = 0 then pairOf wide f.vc else []

/-! ### Results (R36, R204) -/

/-- Leave a result pending with latency `lat`. -/
def pendDst (s : State) (l : Lane) (lat : Nat) (d : Dst) (act : Mask) (data : Tile) (bs : Mask) (fl : Flags) : State :=
  s.updGroup l.ref fun x =>
    { x with pend := x.pend ++ [⟨x.pos + lat / 4, x.pos, d, act, data, bs, fl⟩] }

/-- The OR of the flags of the active elements (R112). -/
def activeFlags (act : Mask) (fs : List Flags) : Flags :=
  orFlags (List.zipWith (fun b f => if b then f else 0) (maskBits act) fs)

/-- Results of the elements, written to tile `vd` or its pair where active. -/
def pendTile (s : State) (l : Lane) (lat : Nat) (wide : Bool) (vd : Nat) (act : Mask) (vals : List (W64 × Flags)) : State :=
  let fl := activeFlags act (vals.map (·.2))
  let s := pendDst s l lat (l.dst vd) act (vals.map fun v => v.1.setWidth 32) 0 fl
  if wide then pendDst s l lat (l.dst (vd + 1)) act (vals.map fun v => v.1.extractLsb' 32 32) 0 0 else s

/-- Result bits of the elements, written to a mask register where active. -/
def pendMask (s : State) (l : Lane) (lat : Nat) (md : Nat) (act : Mask) (vals : List (Bool × Flags)) : State :=
  pendDst s l lat (l.maskDst md) act [] (bitsMask (vals.map (·.1))) (activeFlags act (vals.map (·.2)))

/-! ### Issue (R33, R37, R43, R73, R205) -/

/-- A fault of the served group's instruction (class G): the group freezes at it (R43). -/
def laneFault (s : State) (l : Lane) (code : FaultCode) (addr d1 : W64) : State :=
  groupFault (updRun s l fun r => { r with started := true }) l.ref code .g addr d1 0

/-- TILE_RANGE, then `f` (R205). -/
def withTiles (s : State) (l : Lane) (ts : List Nat) (f : State) : State :=
  match badTile l ts with
  | some n => laneFault s l .tileRange 0 (BitVec.ofNat 64 n)
  | none => f

/-- What holds of every lane instruction of `w` words: a stage that is off lets it take its position only, at which the results
due land as at any other (R36, R204); a token awaited
holds it; a deferred fault of an awaited token freezes the group; the results due at its position land; and `body` follows. -/
def issue (s : State) (g : GroupRef) (stage : BitVec 3) (await : BitVec 8) (w : Nat) (body : State → Lane → State) : State :=
  match s.laneOf g with
  | none => s
  | some l =>
    if !stageOn l stage then advance (landDue s g l.gr.pos) l w 1
    else
      match deferredOn l await with
      | some o => deferredFault s l o
      | none =>
        if (List.range 8).any fun t => await.getLsbD t && tokenCount l.gr t ≠ 0 then s
        else
          let s := landDue s g l.gr.pos
          match s.laneOf g with
          | some l => body s l
          | none => s

/-- The meaning of a lane instruction: it acts on the group that the step serves. -/
def onLane (s : State) (f : LaneW) (w : Nat) (body : State → Lane → State) : Res :=
  match s.cur with
  | .group g => .next (issue s g f.stage f.await w body)
  | _ => .next s

/-- A fixed-latency instruction of `w` words that names the tiles `ts`: TILE_RANGE, its results, its position. -/
def fixed (s : State) (f : LaneW) (w : Nat) (ts : List Nat) (body : State → Lane → State) : Res :=
  onLane s f w fun s l => withTiles s l ts <| advance (body s l) l w 1

/-- A cause of the served group's instruction (R73): the group freezes and the owning thread is to run the handler (R74). -/
def laneCause (s : State) (l : Lane) (c : Cause) (words : List W32) (native : Option Instr) : State :=
  let s := updRun s l fun r => { r with started := true }
  raiseCause s l.ref.owner { cause := c, engine := .lane, words := words, native := native, pc := l.run.pc, img := l.run.deal.img,
                             group := some l.ref.idx, helper := l.helper, copy := 0 }

/-- A retired lane encoding (R86): the library's effect where the handler table leaves it the cause, else the cause. The
library raises cause reserved-field where the type does not fit. -/
def retiredLane (s : State) (i : Instr) (f : LaneW) (w : Nat) (ok : Bool) (body : State → Lane → State) : Res :=
  onLane s f w fun s l =>
    if libraryServes l.ctx l.th l.helper then (if ok then body s l else laneCause s l .reservedField (wordsOf i) (some i))
    else laneCause s l .retired (wordsOf i) (some i)

/-! ### Delivery (R113) -/

/-- The pending flags of earlier positions enter FPX; enabled flags then fault with FPX_TRAP, else `f` follows. -/
def deliverLane (s : State) (l : Lane) (f : State → State) : State :=
  let fl := orFlags (l.gr.coming.map (·.flags))
  let clear (ps : List Pending) : List Pending := ps.map fun p => { p with flags := 0 }
  let s := s.updGroup l.ref fun x => { x with fpx := x.fpx ||| fl, pend := clear x.pend, landing := if l.gr.frozen then x.landing else clear x.landing }
  let fpx := l.gr.fpx ||| fl
  if fpx &&& l.th.fpxmask ≠ 0 then laneFault s l .fpxTrap 0 (zext64 fpx) else f s

end Sys2Proof.Machine
end

