-- ==== Sys2Proof/Machine/LaneInt.lean ====
section
/-! DEFINITION. The lane NOP and the integer and move instructions: R61, R206-R209, and the retired integer encodings of R86. -/

namespace Sys2Proof.Machine

/-- The lane NOP (R61, R33): it has no stage and takes its positions in every iteration; the results due at them land (R36). -/
def execLaneNop (n : BitVec 6) (s : State) : Res :=
  match s.cur with
  | .group g =>
    match s.laneOf g with
    | some l => .next (advance (landDue s g (l.gr.pos + max 1 n.toNat - 1)) l 1 (max 1 n.toNat))
    | none => .next s
  | _ => .next s

/-- An operation on each sub-element of one source. -/
def elem1 (w : Nat) (f : Nat → Nat × Flags) (a : W64) : W64 × Flags := joinRes w ((subsOf w a).map f)
/-- An operation on each sub-element of two sources. -/
def elem2 (w : Nat) (f : Nat → Nat → Nat × Flags) (a b : W64) : W64 × Flags :=
  joinRes w (List.zipWith f (subsOf w a) (subsOf w b))
/-- An operation on each sub-element of three sources. -/
def elem3 (w : Nat) (f : Nat → Nat → Nat → Nat × Flags) (a b c : W64) : W64 × Flags :=
  joinRes w (List.zipWith (fun p z => f p.1 p.2 z) (List.zip (subsOf w a) (subsOf w b)) (subsOf w c))

/-- The elements of three sources together. -/
def zip3 {α : Type} (f : W64 → W64 → W64 → α) (a b c : List W64) : List α :=
  List.zipWith (fun p z => f p.1 p.2 z) (List.zip a b) c

namespace LaneInt

/-- The type of an instruction. -/
def ty (f : LaneW) : Nat := f.ty.toNat
/-- Its width. -/
def wd (f : LaneW) : Nat := tyWidth f.ty.toNat
/-- It uses tile pairs (R203). -/
def wide (f : LaneW) : Bool := tyWidth f.ty.toNat = 64
/-- The latency of a type. -/
def lat (f : LaneW) (l32 l64 : Nat) : Nat := if wide f then l64 else l32
/-- A sub-element's value in the type's signedness. -/
def val (f : LaneW) (v : Nat) : Int := intVal (signedTy (ty f)) (wd f) v
/-- An exact integer result of the type, wrapped or clamped (R94). -/
def res (f : LaneW) (x : Int) : Nat × Flags := intResult (signedTy (ty f)) (wd f) (f.sat = 1) x

end LaneInt

open LaneInt

/-- A binary integer instruction (R206). -/
def intBin (s : State) (f : LaneW) (l32 l64 : Nat) (op : Nat → Nat → Nat × Flags) : Res :=
  fixed s f 2 (pairOf (wide f) f.vd ++ pairOf (wide f) f.va ++ flexTiles f (wide f)) fun s l =>
    pendTile s l (lat f l32 l64) (wide f) f.vd.toNat (l.act f)
      (List.zipWith (elem2 (wd f) op) (l.src s (wide f) f.va.toNat) (l.flex s f (ty f)))

/-- A unary integer instruction (R206). -/
def intUn (s : State) (f : LaneW) (op : Nat → Nat × Flags) : Res :=
  fixed s f 2 (pairOf (wide f) f.vd ++ flexTiles f (wide f)) fun s l =>
    pendTile s l (lat f 4 8) (wide f) f.vd.toNat (l.act f) ((l.flex s f (ty f)).map (elem1 (wd f) op))

/-- VADD (R207). -/
def execVadd (f : LaneW) (s : State) : Res := intBin s f 4 8 fun a b => res f (val f a + val f b)
/-- VSUB (R207). -/
def execVsub (f : LaneW) (s : State) : Res := intBin s f 4 8 fun a b => res f (val f a - val f b)
/-- VMUL (R207). -/
def execVmul (f : LaneW) (s : State) : Res := intBin s f 8 16 fun a b => res f (val f a * val f b)
/-- VMULH (R207): bits 2w−1 to w of the exact product. -/
def execVmulh (f : LaneW) (s : State) : Res :=
  intBin s f 8 16 fun a b => (wrapTo (wd f) (val f a * val f b / 2 ^ wd f), 0)
/-- VMAD (R207). -/
def execVmad (f : LaneW) (s : State) : Res :=
  fixed s f 2 (pairOf (wide f) f.vd ++ pairOf (wide f) f.va ++ pairOf (wide f) f.vb ++ flexTiles f (wide f)) fun s l =>
    pendTile s l (lat f 8 16) (wide f) f.vd.toNat (l.act f)
      (zip3 (elem3 (wd f) fun a b c => res f (val f a * val f b + val f c)) (l.src s (wide f) f.va.toNat)
        (l.src s (wide f) f.vb.toNat) (l.flex s f (ty f)))
/-- VAND (R207). -/
def execVand (f : LaneW) (s : State) : Res := intBin s f 4 4 fun a b => (a &&& b, 0)
/-- VOR (R207). -/
def execVor (f : LaneW) (s : State) : Res := intBin s f 4 4 fun a b => (a ||| b, 0)
/-- VXOR (R207). -/
def execVxor (f : LaneW) (s : State) : Res := intBin s f 4 4 fun a b => (a ^^^ b, 0)
/-- VSHL (R207): the count is b mod w. -/
def execVshl (f : LaneW) (s : State) : Res := intBin s f 4 8 fun a b => (a * 2 ^ (b % wd f) % 2 ^ wd f, 0)
/-- VSHR (R207). -/
def execVshr (f : LaneW) (s : State) : Res := intBin s f 4 8 fun a b => (a / 2 ^ (b % wd f), 0)
/-- VSRA (R207): it fills with bit w−1 whatever the signedness. -/
def execVsra (f : LaneW) (s : State) : Res :=
  intBin s f 4 8 fun a b => (wrapTo (wd f) (intVal true (wd f) a / 2 ^ (b % wd f)), 0)
/-- VMIN (R207). -/
def execVmin (f : LaneW) (s : State) : Res := intBin s f 4 8 fun a b => (if val f a ≤ val f b then a else b, 0)
/-- VMAX (R207). -/
def execVmax (f : LaneW) (s : State) : Res := intBin s f 4 8 fun a b => (if val f a ≤ val f b then b else a, 0)
/-- VABS (R207). -/
def execVabs (f : LaneW) (s : State) : Res := intUn s f fun a => res f (val f a).natAbs
/-- VNEG (R207). -/
def execVneg (f : LaneW) (s : State) : Res := intUn s f fun a => res f (-(val f a))
/-- VCLZ (R207). -/
def execVclz (f : LaneW) (s : State) : Res := intUn s f fun a => (leadingZeros (wd f) a, 0)
/-- VPOPC (R207). -/
def execVpopc (f : LaneW) (s : State) : Res := intUn s f fun a => (popCount (wd f) a, 0)

/-- VSEL (R208): d := Mc ? a : b. -/
def execVsel (f : LaneW) (s : State) : Res :=
  fixed s f 2 (pairOf (wide f) f.vd ++ pairOf (wide f) f.va ++ pairOf (wide f) f.vb) fun s l =>
    pendTile s l 4 (wide f) f.vd.toNat (l.act f)
      (List.zipWith (fun c (p : W64 × W64) => (if c then p.1 else p.2, 0)) (maskBits (l.mask (f.vc.toNat % 16)))
        (List.zip (l.src s (wide f) f.va.toNat) (l.src s (wide f) f.vb.toNat)))

/-- VMOV (R208). -/
def execVmov (f : LaneW) (s : State) : Res :=
  fixed s f 2 (pairOf (wide f) f.vd ++ flexTiles f (wide f)) fun s l =>
    pendTile s l 4 (wide f) f.vd.toNat (l.act f) ((l.flex s f (ty f)).map fun v => (v, 0))

/-- VIOTA (R208): the column, the row or the linear index plus the source. -/
def execViota (f : LaneW) (s : State) : Res :=
  fixed s f 2 ([f.vd.toNat] ++ flexTiles f false) fun s l =>
    pendTile s l 4 false f.vd.toNat (l.act f)
      (List.zipWith (fun i (v : W64) =>
        (BitVec.ofNat 64 ((v.toNat + (match f.op3.toNat with | 0 => i % 64 | 1 => i / 64 | _ => i)) % 2 ^ 32), 0))
        (List.range 1024) (l.flex s f (ty f)))

/-- Sub-element `j` of an element. -/
def subAt (w j : Nat) (v : W64) : Nat := v.toNat / 2 ^ (w * j) % 2 ^ w

/-- VCMP (R209): it writes a mask; vb names the sub-element of an 8- or 16-bit type. -/
def execVcmp (f : LaneW) (s : State) : Res :=
  fixed s f 2 (pairOf (wide f) f.va ++ flexTiles f (wide f)) fun s l =>
    let j := if wd f < 32 then f.vb.toNat else 0
    pendMask s l (lat f 4 8) (f.vd.toNat % 16) (l.act f)
      (List.zipWith (fun a b => (intCond f.op3.toNat (val f (subAt (wd f) j a)) (val f (subAt (wd f) j b)), 0))
        (l.src s (wide f) f.va.toNat) (l.flex s f (ty f)))

/-- VLI (R208): imm32, extended to 64 bits for types 3 and 7. -/
def execVli (f : LaneW) (imm : BitVec 32) (s : State) : Res :=
  fixed s f 3 (pairOf (wide f) f.vd) fun s l =>
    pendTile s l 4 (wide f) f.vd.toNat (l.act f)
      (List.replicate 1024 (if ty f = 3 then sext64 imm else zext64 imm, 0))

/-- A retired integer encoding reads its tiles a and b from va and vb (the worked example under "Windows under rotation"),
and its merge is visible at the next position (R297). -/
def retiredInt (s : State) (i : Instr) (f : LaneW) (ts : List Nat) (vals : State → Lane → List (W64 × Flags)) : Res :=
  retiredLane s i f 2 (ty f ≤ 7) fun s l => withTiles s l ts <|
    advance (pendTile s l 4 (wide f) f.vd.toNat (l.act f) (vals s l)) l 2 1

/-- VAVG (retired, R86): floor((a + b + 1) / 2), exactly, then taken to the width. -/
def execVavg (f : LaneW) (s : State) : Res :=
  retiredInt s (.vavg f) f (pairOf (wide f) f.vd ++ pairOf (wide f) f.va ++ pairOf (wide f) f.vb) fun s l =>
    List.zipWith (elem2 (wd f) fun a b => (wrapTo (wd f) ((val f a + val f b + 1) / 2), 0))
      (l.src s (wide f) f.va.toNat) (l.src s (wide f) f.vb.toNat)

/-- VSAD (retired, R86): c + |a − b|, wrapping. -/
def execVsad (f : LaneW) (s : State) : Res :=
  retiredInt s (.vsad f) f (pairOf (wide f) f.vd ++ pairOf (wide f) f.va ++ pairOf (wide f) f.vb ++ flexTiles f (wide f)) fun s l =>
    zip3 (elem3 (wd f) fun a b c => (wrapTo (wd f) (val f c + (val f a - val f b).natAbs), 0))
      (l.src s (wide f) f.va.toNat) (l.src s (wide f) f.vb.toNat) (l.flex s f (ty f))

end Sys2Proof.Machine
end

