-- ==== Sys2Proof/Machine/LaneFloat.lean ====
section
/-! DEFINITION. The float instructions of the lane groups: R210-R212, their deprecated forms (R85, R300) and the retired
FRCPA.F32 (R86). -/

namespace Sys2Proof

/-- The type code of a float opcode's format (R62, R210). -/
def FFmt.ty : FFmt → Nat
  | .f32 => 8 | .f16 => 9 | .bf16 => 10
/-- The format of a float opcode. -/
def FFmt.fmt (fm : FFmt) : Machine.Fmt := Machine.fmtOf fm.ty
/-- Its width. -/
def FFmt.wd (fm : FFmt) : Nat := tyWidth fm.ty

end Sys2Proof

namespace Sys2Proof.Machine

/-- A binary float instruction (R210). -/
def floatBin (s : State) (fm : FFmt) (f : LaneW) (lat : Nat) (op : Nat → Nat → Nat × Flags) : Res :=
  fixed s f 2 ([f.vd.toNat, f.va.toNat] ++ flexTiles f false) fun s l =>
    pendTile s l lat false f.vd.toNat (l.act f)
      (List.zipWith (elem2 fm.wd op) (l.src s false f.va.toNat) (l.flex s f fm.ty))

/-- A unary float instruction (R210). -/
def floatUn (s : State) (fm : FFmt) (f : LaneW) (lat : Nat) (op : Nat → Nat × Flags) : Res :=
  fixed s f 2 ([f.vd.toNat] ++ flexTiles f false) fun s l =>
    pendTile s l lat false f.vd.toNat (l.act f) ((l.flex s f fm.ty).map (elem1 fm.wd op))

/-- FADD (R211). -/
def execFadd (fm : FFmt) (f : LaneW) (s : State) : Res := floatBin s fm f 8 (fAdd fm.fmt f.rnd.toNat (f.sat = 1))
/-- FSUB (R211). -/
def execFsub (fm : FFmt) (f : LaneW) (s : State) : Res := floatBin s fm f 8 (fSub fm.fmt f.rnd.toNat (f.sat = 1))
/-- FMUL (R211). -/
def execFmul (fm : FFmt) (f : LaneW) (s : State) : Res := floatBin s fm f 8 (fMul fm.fmt f.rnd.toNat (f.sat = 1))
/-- FFMA (R211). -/
def execFfma (fm : FFmt) (f : LaneW) (s : State) : Res :=
  fixed s f 2 ([f.vd.toNat, f.va.toNat, f.vb.toNat] ++ flexTiles f false) fun s l =>
    pendTile s l 8 false f.vd.toNat (l.act f)
      (zip3 (elem3 fm.wd (fFma fm.fmt f.rnd.toNat (f.sat = 1))) (l.src s false f.va.toNat) (l.src s false f.vb.toNat)
        (l.flex s f fm.ty))
/-- FMIN (R98). -/
def execFmin (fm : FFmt) (f : LaneW) (s : State) : Res := floatBin s fm f 4 (fMinMax fm.fmt false)
/-- FMAX (R98). -/
def execFmax (fm : FFmt) (f : LaneW) (s : State) : Res := floatBin s fm f 4 (fMinMax fm.fmt true)
/-- FABS (R211). -/
def execFabs (fm : FFmt) (f : LaneW) (s : State) : Res := floatUn s fm f 4 fun a => (fAbs fm.fmt a, 0)
/-- FNEG (R211). -/
def execFneg (fm : FFmt) (f : LaneW) (s : State) : Res := floatUn s fm f 4 fun a => (fNeg fm.fmt a, 0)
/-- FRCP (R100). -/
def execFrcp (fm : FFmt) (f : LaneW) (s : State) : Res := floatUn s fm f 16 (fRcp fm.fmt (f.sat = 1))
/-- FRSQ (R100). -/
def execFrsq (fm : FFmt) (f : LaneW) (s : State) : Res := floatUn s fm f 16 (fRsq fm.fmt (f.sat = 1))

/-- A deprecated lane encoding has executed and is counted once (R85, R300); a nonzero entry 4 makes the owning thread enter that
handler at its next boundary. The names of its word 0 are renamed as the instruction met them (R294). -/
def deprecatedDone (s : State) (l : Lane) (f : LaneW) (i : Instr) : State :=
  let s := countDeprecated s l.tm.ctx i
  if advises s l.tm.ctx then
    let w0 := renameField l (renameField l ((wordsOf i).getD 0 0) 18 true) 0 (f.kind = 0)
    raiseCause s l.ref.owner { cause := .deprecated, engine := .lane, words := w0 :: (wordsOf i).drop 1, native := some i, pc := l.run.pc,
                               img := l.run.deal.img, group := some l.ref.idx, helper := l.helper, copy := 0 }
  else s

/-- FEXP2 and FLOG2 (R100), whose F16 forms are deprecated (R85). -/
def floatUnDep (s : State) (fm : FFmt) (f : LaneW) (i : Instr) (op : Nat → Nat × Flags) : Res :=
  fixed s f 2 ([f.vd.toNat] ++ flexTiles f false) fun s l =>
    let s := pendTile s l 16 false f.vd.toNat (l.act f) ((l.flex s f fm.ty).map (elem1 fm.wd op))
    if fm = .f16 then deprecatedDone s l f i else s

/-- FEXP2 (R100). -/
def execFexp2 (fm : FFmt) (f : LaneW) (s : State) : Res := floatUnDep s fm f (.fexp2 fm f) (fExp2 fm.fmt (f.sat = 1))
/-- FLOG2 (R100). -/
def execFlog2 (fm : FFmt) (f : LaneW) (s : State) : Res := floatUnDep s fm f (.flog2 fm f) (fLog2 fm.fmt (f.sat = 1))

/-- FCMP (R212): it writes a mask; vb bit 0 gives the half of an F16 or BF16 element. -/
def execFcmp (fm : FFmt) (f : LaneW) (s : State) : Res :=
  fixed s f 2 ([f.va.toNat] ++ flexTiles f false) fun s l =>
    let j := if fm = .f32 then 0 else f.vb.toNat % 2
    pendMask s l 4 (f.vd.toNat % 16) (l.act f)
      (List.zipWith (fun a b => fCmp fm.fmt f.op3.toNat (subAt fm.wd j a) (subAt fm.wd j b)) (l.src s false f.va.toNat)
        (l.flex s f fm.ty))

/-- FRCPA.F32 (retired, R86): the result that FRCP.F32 gives with RNE. Its form is FRCP's, whose source is the flexible
operand. Any type code is taken, as the manual reserves none for this form. DESIGN CHOICE (log entry 84). -/
def execFrcpa (f : LaneW) (s : State) : Res :=
  retiredLane s (.frcpa f) f 2 true fun s l => withTiles s l ([f.vd.toNat] ++ flexTiles f false) <|
    advance (pendTile s l 4 false f.vd.toNat (l.act f) ((l.flex s f 8).map (elem1 32 (fRcp fmtF32 (f.sat = 1))))) l 2 1

end Sys2Proof.Machine
end

