-- ==== Sys2Proof/Machine/LaneConvert.lean ====
section
/-! DEFINITION. Conversion, headroom histograms and block scaling: VCVT, VHIST, VQNT, VDQ (R101-R106, R213-R217). -/

namespace Sys2Proof.Machine

open LaneInt

/-! ### VCVT (R213, R214) -/

/-- One element of VCVT: the source element, and the destination as read at the position. Sub-elements that are not written
keep their values. -/
def cvtElem (sty dty p mode : Nat) (sat : Bool) (a d : W64) : W64 × Flags :=
  let ws := tyWidth sty
  let wd := tyWidth dty
  let cs := perElem ws
  let cd := perElem wd
  let k := min cs cd
  let src := subsOf ws a
  let one (j : Nat) : Nat × Flags := convert sty dty mode sat (src.getD (if cd ≤ cs then p * k + j else j) 0)
  let rs := (List.range k).map one
  let lo := if cd ≤ cs then 0 else p * k
  let old := subsOf wd d
  (BitVec.ofNat 64 (joinSub wd (old.take lo ++ rs.map (·.1) ++ old.drop (lo + k))), orFlags (rs.map (·.2)))

/-- VCVT (R213). -/
def execVcvt (f : LaneW) (s : State) : Res :=
  let sty := f.vc.toNat % 16
  let sw : Bool := tyWidth sty = 64
  fixed s f 2 (pairOf (wide f) f.vd ++ pairOf sw f.va) fun s l =>
    pendTile s l 8 (wide f) f.vd.toNat (l.act f)
      (List.zipWith (cvtElem sty (ty f) f.op3.toNat f.rnd.toNat (f.sat = 1)) (l.src s sw f.va.toNat)
        (l.src s (wide f) f.vd.toNat))

/-! ### VHIST (R102, R215) -/

/-- Consecutive runs of `n` items, at most `k` of them. -/
def chunks {α : Type} (n : Nat) : Nat → List α → List (List α)
  | 0, _ => []
  | k + 1, xs => xs.take n :: chunks n k (xs.drop n)

/-- floor(log2 |x|) of a nonzero finite value. -/
def binade (m : Nat) (e : Int) : Int := e + (Nat.log2 m : Int)

/-- The bins of one block's active elements (R102): M is the largest finite magnitude. -/
def histBins (xs : List Num) : List Nat :=
  let es := xs.filterMap fun x => match x with | .fin _ m e => if m = 0 then none else some (binade m e) | _ => none
  let top := es.foldl max (es.headD 0)
  xs.filterMap fun x => match x with
    | .fin _ m e => some (if m = 0 then 31 else (min (top - binade m e) 31).toNat)
    | _ => none

/-- VHIST (R215): the counts are added to row 0, columns 0 to 31, whatever the activity; no flag is raised. -/
def execVhist (f : LaneW) (s : State) : Res :=
  fixed s f 2 [f.vd.toNat, f.va.toNat] fun s l =>
    let c := perElem (wd f)
    let items : List (Option Num) :=
      (List.zipWith (fun b v => (subsOf (wd f) v).map fun x => if b then some (decodeTy (ty f) x) else none)
        (maskBits (l.act f)) (l.src s false f.va.toNat)).flatten
    let bins := ((chunks 32 (32 * c) items).map fun b => histBins (b.filterMap id)).flatten
    let old := l.tile s f.vd.toNat
    pendDst s l 12 (l.dst f.vd.toNat) (BitVec.ofNat 1024 (2 ^ 32 - 1))
      (List.zipWith (fun i (v : W32) => v + BitVec.ofNat 32 (bins.count i)) (List.range 1024) old) 0 0

/-! ### VQNT (R103-R105, R216) -/

/-- The target G of a destination format as odd · 2^t (R103): 6, 448, 57,344. -/
def quantTarget (ty : Nat) : Nat × Int :=
  match ty with
  | 13 => (3, 1) | 11 => (7, 6) | _ => (7, 13)

/-- The smallest k with m · 2^e ≤ G · 2^k (m ≠ 0): the greatest j = e − t − k with m · 2^j ≤ g, g having `Nat.log2 g` = log. -/
def scaleFor (ty m : Nat) (e : Int) : Int :=
  let (g, t) := quantTarget ty
  let j : Int := (Nat.log2 g : Int) - Nat.log2 m
  let j := if magLe m j g 0 then j else j - 1
  e - t - j

/-- Magnitudes in ascending order. -/
def sortMags (ms : List (Nat × Int)) : List (Nat × Int) := ms.insertionSort fun a b => magLe a.1 a.2 b.1 b.2

/-- The finite magnitudes of a block, ascending. -/
def finiteMags (xs : List Num) : List (Nat × Int) :=
  sortMags (xs.filterMap fun x => match x with | .fin _ m e => some (m, e) | _ => none)

/-- The exponent k of a block's scale (R103). -/
def blockScale (ty q : Nat) (ms : List (Nat × Int)) : Int :=
  let n := ms.length
  if n = 0 then 0
  else
    let q := min 1000 (max 500 q)
    let v := ms.getD ((q * n + 999) / 1000 - 1) (0, 0)
    let v := if v.1 = 0 then ms.getLastD (0, 0) else v
    if v.1 = 0 then 0 else max (-127) (min 127 (scaleFor ty v.1 v.2))

/-- |m · 2^e| = |p · 2^f|. -/
def magEq (m : Nat) (e : Int) (p : Nat) (f : Int) : Bool := magLe m e p f && magLe p f m e

/-- The extra value X of an E2M1 block (R104). -/
def blockX (k : Int) (xs : List Num) (ms : List (Nat × Int)) : Nat :=
  if xs.any fun x => match x with | .fin .. => false | _ => true then 0x7F
  else
    let top := ms.getLastD (0, 0)
    match xs.find? fun x => match x with | .fin _ m e => magEq m e top.1 top.2 | _ => false with
    | some (.fin neg m e) =>
      if magLe m (e - k) 6 0 then (if neg then 0xCC else 0x4C) else (roundFin fmtE4M3 0 true neg m (e - k)).1
    | _ => 0x7F

/-- |a − b| < |a − c| for three finite values. -/
def nearer (a b c : Bool × Nat × Int) : Bool :=
  let q := min a.2.2 (min b.2.2 c.2.2)
  let at_ (x : Bool × Nat × Int) : Int := signedAt x.1 x.2.1 x.2.2 q
  (at_ a - at_ b).natAbs < (at_ a - at_ c).natAbs

/-- The code of one element of an E2M1 block (R104). -/
def codeE2M1 (k : Int) (x : Nat) (v : Num) : Nat × Flags :=
  match v with
  | .fin neg m e =>
    let y : Bool × Nat × Int := (neg, m, e - k)
    let big := !magLe m (e - k) 6 0
    let mag := if big then 7 else (roundFin fmtE2M1 0 false false m (e - k)).1
    let gs : Bool × Nat × Int := match fmtE2M1.decode mag with | .fin _ p f => (neg, p, f) | _ => (false, 0, 0)
    let xv : Option (Bool × Nat × Int) := match fmtE4M3.decode x with | .fin n p f => some (n, p, f) | _ => none
    let useX := match xv with | some z => nearer y z gs | none => false
    let code := if useX then 8 else if mag = 0 then 0 else mag + (if neg then 8 else 0)
    let got := if useX then xv.getD gs else gs
    let q := min y.2.2 got.2.2
    (code, raiseIf (big && !useX) fSat ||| raiseIf (signedAt got.1 got.2.1 got.2.2 q ≠ signedAt y.1 y.2.1 y.2.2 q) fInexact)
  | _ => (8, fInvalid)

/-- The code of one element of an FP8 block (R105). -/
def codeFP8 (ty : Nat) (k : Int) (v : Num) : Nat × Flags :=
  match v with
  | .nan _ => ((fmtOf ty).nan, fInvalid)
  | .inf n => ((fmtOf ty).big + (fmtOf ty).sign n, fSat)
  | .fin n m e => roundFin (fmtOf ty) 0 true n m (e - k)

/-- What VQNT gives one block: scale and X, and each element's code and flags; none where no element is active. -/
def quantBlock (ty q : Nat) (xs : List (Option Num)) : Option (Nat × Nat) × List (Option (Nat × Flags)) :=
  let act := xs.filterMap id
  if act.isEmpty then (none, xs.map fun _ => none)
  else
    let ms := finiteMags act
    let k := blockScale ty q ms
    let x := if ty = 13 then blockX k act ms else 0
    (some ((k + 127).toNat, x), xs.map fun v => v.map fun v => if ty = 13 then codeE2M1 k x v else codeFP8 ty k v)

/-- Elements per 32-bit element of a quantised format: 8 or 4 (R216). -/
def quantPer (ty : Nat) : Nat := if ty = 13 then 8 else 4

/-- The scale byte that Dn names (R216): for E2M1 only bit 23 counts. -/
def quantByte (ty : Nat) (d : W64) : Nat := if ty = 13 then 2 * bits d 23 23 else bits d 23 22

/-- The element of Vs that holds the scale of block (r, h) of part p (R216). -/
def scaleAt (d : W64) (p h r : Nat) : Nat := 64 * ((bits d 19 16 + 2 * p + h) % 16) + 16 * bits d 21 20 + r

/-- Replace byte `i` of an element. -/
def setByte (v : W32) (i b : Nat) : W32 := BitVec.ofNat 32 (v.toNat - v.toNat / 2 ^ (8 * i) % 256 * 2 ^ (8 * i) + b % 256 * 2 ^ (8 * i))

/-- Replace the sub-elements of an element for which there is a code. -/
def putCodes (w : Nat) (old : W32) (cs : List (Option (Nat × Flags))) : W32 :=
  BitVec.ofNat 32 (joinSub w (List.zipWith (fun o c => match c with | some x => x.1 | none => o) (splitSub w old.toNat (32 / w)) cs))

/-- VQNT (R216): the codes go to part p of Vd, the scales (and X) to their bytes of Vs. -/
def execVqnt (f : LaneW) (s : State) : Res :=
  fixed s f 2 [f.vd.toNat, f.va.toNat, f.vb.toNat] fun s l =>
    let d := l.d f.vc.toNat
    let p := f.op3.toNat
    let e := quantPer (ty f)
    let items : List (Option Num) :=
      List.zipWith (fun b (v : W64) => if b then some (fmtF32.decode v.toNat) else none) (maskBits (l.act f)) (l.src s false f.va.toNat)
    let blocks := (chunks 32 32 items).map (quantBlock (ty f) (bits d 15 0))
    let codes := chunks e (1024 / e) (blocks.map (·.2)).flatten
    -- the codes of row r fill elements (64/e)·p onward of row r of Vd
    let per := 64 / e
    let target (i : Nat) : Nat := 64 * (i / per) + per * p + i % per
    let wrote := codes.zipIdx.filter fun c => c.1.any (·.isSome)
    let old := l.tile s f.vd.toNat
    let new := wrote.foldl (fun t c => t.set (target c.2) (putCodes (32 / e) (old.getD (target c.2) 0) c.1)) old
    let act : Mask := wrote.foldl (fun m c => m ||| BitVec.twoPow 1024 (target c.2)) 0
    let fl := orFlags ((blocks.map (·.2)).flatten.map fun c => match c with | some x => x.2 | none => 0)
    let s := pendDst s l 16 (l.dst f.vd.toNat) act new 0 fl
    let sc := blocks.zipIdx.filterMap fun b => b.1.1.map fun x => (scaleAt d p (b.2 % 2) (b.2 / 2), x)
    let olds := l.tile s f.vb.toNat
    let put (t : Tile) (x : Nat × Nat × Nat) : Tile :=
      let v := setByte (t.getD x.1 0) (quantByte (ty f) d) x.2.1
      t.set x.1 (if ty f = 13 then setByte v (quantByte (ty f) d + 1) x.2.2 else v)
    pendDst s l 16 (l.dst f.vb.toNat) (sc.foldl (fun m x => m ||| BitVec.twoPow 1024 x.1) 0) (sc.foldl put olds) 0 0

/-! ### VDQ (R92, R106, R217) -/

/-- The value of a code with its block's scale and X (R92): a scale of 0xFF is a NaN that raises invalid (R106). -/
def scaledValue (ty code scale x : Nat) : Num :=
  if scale = 0xFF then .nan true
  else
    let v := if ty = 13 then (if code % 16 = 8 then fmtE4M3.decode x else fmtE2M1.decode (code % 16)) else (fmtOf ty).decode code
    match v with
    | .fin n m e => .fin n m (e + ((scale : Int) - 127))
    | v => v

/-- VDQ (R217): to FP32 under the rounding field. -/
def execVdq (f : LaneW) (s : State) : Res :=
  fixed s f 2 [f.vd.toNat, f.va.toNat, f.vb.toNat] fun s l =>
    let d := l.d f.vc.toNat
    let p := f.op3.toNat
    let e := quantPer (ty f)
    let w := 32 / e
    let per := 64 / e
    let va := l.tile s f.va.toNat
    let vs := l.tile s f.vb.toNat
    let codes := (List.range 16).flatMap fun r => ((va.drop (64 * r + per * p)).take per).flatMap fun v => splitSub w v.toNat e
    let val (i c : Nat) : W64 × Flags :=
      let t := (vs.getD (scaleAt d p (i % 64 / 32) (i / 64)) 0).toNat
      let b := t / 2 ^ (8 * quantByte (ty f) d) % 256
      let x := t / 2 ^ (8 * (quantByte (ty f) d + 1)) % 256
      let r := roundNum fmtF32 f.rnd.toNat (f.sat = 1) (scaledValue (ty f) c b x)
      (BitVec.ofNat 64 r.1, r.2)
    pendTile s l 8 false f.vd.toNat (l.act f) (List.zipWith val (List.range 1024) codes)

end Sys2Proof.Machine
end

