-- ==== Sys2Proof/Machine/LaneAxis.lean ====
section
/-! DEFINITION. The row- and column-axis instructions (R218-R220), the retired VSHUF (R86) and the mask instructions (R221). -/

namespace Sys2Proof.Machine

open LaneInt

/-- The 16 rows of 1024 elements. -/
def rowsOf {α : Type} (xs : List α) : List (List α) := chunks 64 16 xs

/-- The 64 columns of 1024 elements. -/
def colsOf (xs : List W64) : List (List W64) := (List.range 64).map fun c => (rowsOf xs).map (·.getD c 0)

/-- A list rotated so that item `i` moves to place `i + n`. -/
def rotateBy {α : Type} (len : Nat) (n : Int) (xs : List α) : List α :=
  let k := ((-n) % len).toNat
  xs.drop k ++ xs.take k

/-- A movement instruction (R218): it copies whole elements, or pairs. -/
def move (s : State) (f : LaneW) (lat : Nat) (body : State → Lane → List W64 → List W64) : Res :=
  fixed s f 2 (pairOf (wide f) f.vd ++ pairOf (wide f) f.va) fun s l =>
    pendTile s l lat (wide f) f.vd.toNat (l.act f) ((body s l (l.src s (wide f) f.va.toNat)).map fun v => (v, 0))

/-- RROT (R219). -/
def execRrot (f : LaneW) (s : State) : Res :=
  move s f 8 fun _ l a => (rowsOf a).flatMap (rotateBy 64 (l.count f))
/-- CROT (R219). -/
def execCrot (f : LaneW) (s : State) : Res :=
  move s f 4 fun _ l a => (rotateBy 16 (l.count f) (rowsOf a)).flatten
/-- RBC (R219). -/
def execRbc (f : LaneW) (s : State) : Res :=
  move s f 8 fun _ l a => (rowsOf a).flatMap fun r => List.replicate 64 (r.getD ((l.count f) % 64).toNat 0)
/-- CBC (R219). -/
def execCbc (f : LaneW) (s : State) : Res :=
  move s f 4 fun _ l a => (List.replicate 16 ((rowsOf a).getD ((l.count f) % 16).toNat [])).flatten

/-- Each row's elements taken at the columns that the indices name. -/
def permuteRows (a b : List W64) : List W64 :=
  (List.zipWith (fun (r ix : List W64) => ix.map fun i => r.getD (i.toNat % 64) 0) (rowsOf a) (rowsOf b)).flatten

/-- RPRM (R219): b is read as N32; of a pair, the low element. -/
def execRprm (f : LaneW) (s : State) : Res :=
  fixed s f 2 (pairOf (wide f) f.vd ++ pairOf (wide f) f.va ++ flexTiles f (wide f)) fun s l =>
    pendTile s l 16 (wide f) f.vd.toNat (l.act f)
      ((permuteRows (l.src s (wide f) f.va.toNat) (l.flex s f (ty f))).map fun v => (v, 0))

/-- TRN16 (R219): d[row, 16q + i] := a[i, 16q + row]. -/
def execTrn16 (f : LaneW) (s : State) : Res :=
  move s f 8 fun _ _ a =>
    let cols := colsOf a
    (List.range 16).flatMap fun row => (List.range 4).flatMap fun q => cols.getD (16 * q + row) []

/-! ### Reductions (R220) -/

/-- An unspecified tree of additions (R110, R220): two items, chosen by an uninterpreted choice, are added until one is left. -/
def addTree (fm : Fmt) (mode : Nat) (sat : Bool) : Nat → Nat → List Nat → Nat × Flags
  | 0, _, xs => (xs.headD 0, 0)
  | n + 1, key, xs =>
    match xs with
    | [] => (0, 0)
    | [x] => (x, 0)
    | _ =>
      let i := Config.choice key % xs.length
      let x := xs.getD i 0
      let ys := xs.eraseIdx i
      let j := Config.choice (key + 1) % ys.length
      let r := fAdd fm mode sat x (ys.getD j 0)
      let t := addTree fm mode sat n (key + 2) (r.1 :: ys.eraseIdx j)
      (t.1, t.2 ||| r.2)

/-- Fold with the flags of every step. -/
def foldFlags (op : Nat → Nat → Nat × Flags) : Nat × Flags → List Nat → Nat × Flags
  | acc, [] => acc
  | acc, x :: xs => let r := op acc.1 x; foldFlags op (r.1, acc.2 ||| r.2) xs

/-- A float reduction's result: a NaN is canonical, a signalling operand is invalid (R98). -/
def finishFloat (fm : Fmt) (xs : List Nat) (r : Nat × Flags) : Nat × Flags :=
  (if (fm.decode r.1).isNan then fm.nan else r.1, r.2 ||| raiseIf (xs.any fun x => (fm.decode x).isSnan) fInvalid)

/-- The reduction of one sub-element over the active elements of a line (at least one). -/
def reduceSub (f : LaneW) (key : Nat) (xs : List Nat) : Nat × Flags :=
  let x := xs.headD 0
  let r := xs.drop 1
  if 8 ≤ ty f then
    let fm := fmtOf (ty f)
    match f.op3.toNat with
    | 0 => finishFloat fm xs (addTree fm f.rnd.toNat (f.sat = 1) xs.length key xs)
    | 1 => finishFloat fm xs (foldFlags (fMinMax fm false) (x, 0) r)
    | _ => finishFloat fm xs (foldFlags (fMinMax fm true) (x, 0) r)
  else
    match f.op3.toNat with
    | 0 => res f (xs.foldl (fun a v => a + val f v) 0)
    | 1 => (r.foldl (fun a v => if val f a ≤ val f v then a else v) x, 0)
    | 2 => (r.foldl (fun a v => if val f a ≤ val f v then v else a) x, 0)
    | 3 => (r.foldl (· &&& ·) x, 0)
    | 4 => (r.foldl (· ||| ·) x, 0)
    | _ => (r.foldl (· ^^^ ·) x, 0)

/-- The reduction of a line: every sub-element position on its own. -/
def reduceLine (f : LaneW) (key : Nat) (line : List (Bool × W64)) : W64 × Flags :=
  let act := (line.filter (·.1)).map fun p => subsOf (wd f) p.2
  if act.isEmpty then (0, 0)
  else joinRes (wd f) ((List.range (perElem (wd f))).map fun j => reduceSub f (key + 256 * j) (act.map (·.getD j 0)))

/-- RRED (R220): along each row. -/
def execRred (f : LaneW) (s : State) : Res :=
  fixed s f 2 (pairOf (wide f) f.vd ++ pairOf (wide f) f.va) fun s l =>
    let (n, s) := s.draw
    let rows := rowsOf (List.zip (maskBits (l.act f)) (l.src s (wide f) f.va.toNat))
    pendTile s l 12 (wide f) f.vd.toNat (l.act f)
      (rows.zipIdx.flatMap fun r => List.replicate 64 (reduceLine f (n * 2 ^ 20 + r.2 * 4096) r.1))

/-- CRED (R220): along each column. -/
def execCred (f : LaneW) (s : State) : Res :=
  fixed s f 2 (pairOf (wide f) f.vd ++ pairOf (wide f) f.va) fun s l =>
    let (n, s) := s.draw
    let rows := rowsOf (List.zip (maskBits (l.act f)) (l.src s (wide f) f.va.toNat))
    let vals := (List.range 64).map fun c => reduceLine f (n * 2 ^ 20 + c * 4096) (rows.map (·.getD c (false, 0)))
    pendTile s l 4 (wide f) f.vd.toNat (l.act f) (List.replicate 16 vals).flatten

/-- VSHUF (retired, R86): a row shuffle with b read as N32; a from va and b from vb. Any type code is taken: the manual reserves none
for this form. DESIGN CHOICE (log entry 84). -/
def execVshuf (f : LaneW) (s : State) : Res :=
  retiredLane s (.vshuf f) f 2 true fun s l =>
    withTiles s l (pairOf (wide f) f.vd ++ pairOf (wide f) f.va ++ pairOf (wide f) f.vb) <|
      advance (pendTile s l 4 (wide f) f.vd.toNat (l.act f)
        ((permuteRows (l.src s (wide f) f.va.toNat) (l.src s (wide f) f.vb.toNat)).map fun v => (v, 0))) l 2 1

/-! ### Masks (R221) -/

/-- A mask instruction: the active bits of Md become those of `bits`. -/
def maskOp (s : State) (f : LaneW) (bs : Lane → Mask) : Res :=
  fixed s f 2 [] fun s l => pendDst s l 4 (l.maskDst (f.vd.toNat % 16)) (l.act f) [] (bs l) 0

/-- MAND (R221). -/
def execMand (f : LaneW) (s : State) : Res := maskOp s f fun l => l.mask (f.va.toNat % 16) &&& l.mask (f.vb.toNat % 16)
/-- MOR (R221). -/
def execMor (f : LaneW) (s : State) : Res := maskOp s f fun l => l.mask (f.va.toNat % 16) ||| l.mask (f.vb.toNat % 16)
/-- MXOR (R221). -/
def execMxor (f : LaneW) (s : State) : Res := maskOp s f fun l => l.mask (f.va.toNat % 16) ^^^ l.mask (f.vb.toNat % 16)
/-- MNOT (R221). -/
def execMnot (f : LaneW) (s : State) : Res := maskOp s f fun l => ~~~(l.mask (f.va.toNat % 16))

/-- Row `r` of a mask. -/
def maskRow (m : Mask) (r : Nat) : W64 := m.extractLsb' (64 * r) 64

/-- MCNT (R221): the one bits of each mask row, over all 64 columns. -/
def execMcnt (f : LaneW) (s : State) : Res :=
  fixed s f 2 [f.vd.toNat] fun s l =>
    let m := l.mask (f.va.toNat % 16)
    pendTile s l 8 false f.vd.toNat (l.act f)
      ((List.range 16).flatMap fun r => List.replicate 64 (BitVec.ofNat 64 (popCount 64 (maskRow m r).toNat), 0))

/-- MROW (R221): one row in every row; kind 2 gives r, kind 1 the low 4 bits of Dn. -/
def execMrow (f : LaneW) (s : State) : Res :=
  maskOp s f fun l =>
    let r := if f.kind = 1 then bits (l.d f.vc.toNat) 3 0 else f.vc.toNat % 16
    repeatRow (maskRow (l.mask (f.va.toNat % 16)) r)

end Sys2Proof.Machine
end

