-- ==== Sys2Proof/Machine/Tags.lean ====
section
/-! DEFINITION. The scratchpad tag table: R125, R237-R240. -/

namespace Sys2Proof.Machine

/-- log2 of the line size: L of TTCFG (R125). -/
def tagL (tm : Team) : Nat := 8 + bits tm.tagCfg 7 4
/-- The data base of TTCFG (R125). -/
def tagBase (tm : Team) : Nat := bits tm.tagCfg 21 8 * 256
/-- The entries of the team's share (R125). -/
def tagEntries (tm : Team) : Nat := if tm.tph = 1 then 4096 else 2048
/-- The key of an address: bits 51:L. -/
def tagKey (tm : Team) (addr : W64) : Nat := bits addr 51 0 / 2 ^ tagL tm
/-- The first slot of a key's set. -/
def tagSet (tm : Team) (key : Nat) : Nat := key % (tagEntries tm / 4) * 4

/-- An entry; an unlisted one is invalid. -/
def tagAtSlot (tm : Team) (n : Nat) : TagEntry := tm.tags.getD n ⟨false, false, 0⟩

/-- The slot of the valid entry with a key in the key's set, if any. -/
def tagFind (tm : Team) (key : Nat) : Option Nat :=
  (List.range 4).map (tagSet tm key + ·) |>.find? fun n => (tagAtSlot tm n).valid && (tagAtSlot tm n).key = key

/-- An entry as PTAG returns it: (key << L) or (dirty << 1) or valid. -/
def tagWord (tm : Team) (e : TagEntry) : W64 :=
  BitVec.ofNat 64 (e.key * 2 ^ tagL tm) ||| (flag64 e.dirty <<< 1) ||| flag64 e.valid

/-- Set an entry. -/
def tagSetEntry (tm : Team) (n : Nat) (e : TagEntry) : Team := { tm with tags := tm.tags.set n e }

/-- Mark an entry invalid, its other fields kept. -/
def tagDrop (tm : Team) (n : Nat) : Team := tagSetEntry tm n { tagAtSlot tm n with valid := false }

/-- Every entry of the team's share becomes invalid. -/
def tagClear (tm : Team) : Team := { tm with tags := tm.tags.map fun p => (p.1, { p.2 with valid := false }) }

/-- PLK of one element (R237): the slot, or 0xFFFF. -/
def tagLookup (tm : Team) (addr : W64) : W64 := match tagFind tm (tagKey tm addr) with | some n => BitVec.ofNat 64 n | none => 0xFFFF

/-- PTAG's operations 0-4 on one element (R238): the table after, and the entry acted on as it stood. -/
def tagOp (tm : Team) (op : Nat) (addr : W64) (way : Nat) : Team × W64 :=
  let key := tagKey tm addr
  let n := tagSet tm key + way % 4
  let old := tagWord tm (tagAtSlot tm n)
  match op with
  | 0 | 1 =>
    let tm' := match tagFind tm key with | some m => if m = n then tm else tagDrop tm m | none => tm
    (tagSetEntry tm' n ⟨true, op = 1, key⟩, old)
  | 2 => (tagDrop tm n, old)
  | _ =>
    match tagFind tm key with
    | some m => (tagSetEntry tm m { tagAtSlot tm m with dirty := op = 3 }, tagWord tm (tagAtSlot tm m))
    | none => (tm, 0)

/-- PINV of one element (R239). -/
def tagInvalidate (tm : Team) (addr : W64) : Team := match tagFind tm (tagKey tm addr) with | some n => tagDrop tm n | none => tm

/-- A TTOP operation 0-6 (R240): the table and TTRES. -/
def ttopEffect (tm : Team) (op : Nat) (v : W64) : Team × W64 :=
  match op with
  | 0 => (tm, tagLookup tm v)
  | 6 => (tagInvalidate tm v, 0)
  | _ => tagOp tm (op - 1) v (bits v 1 0)

/-- The reserved bits of a TTOP operand, and operation 7 (R240). -/
def ttopReserved (v : W64) : Bool := bits v 63 52 ≠ 0 || bits v 4 2 ≠ 0 || bits v 7 5 = 7

/-- A TTCFG operand whose L − 8 is 9 to 15 (R125). -/
def ttcfgReserved (v : W64) : Bool := 9 ≤ bits v 7 4

/-- A write of TTCFG (R125): base and L are set, and every entry of the team becomes invalid. -/
def ttcfgEffect (tm : Team) (v : W64) : Team :=
  { tagClear tm with tagCfg := BitVec.ofNat 64 (bits v 21 8 * 256 + bits v 7 4 * 16) }

/-! ### Rings (R260-R263) -/

/-- A ring descriptor of a team; an unlisted one is invalid (R260). -/
def ringOf (tm : Team) (n : Nat) : Ring := tm.rings.getD n ⟨false, 0, 0, 0, 0, 0⟩

/-- The occupancy (R260). -/
def Ring.occ (r : Ring) : Nat := (r.t - r.h).toNat

/-- The first byte of the slot that a counter designates (R260). -/
def Ring.slotAt (r : Ring) (c : BitVec 32) : Nat := r.base + c.toNat % r.n * (64 * r.z)

/-- Update a ring. -/
def updRing (tm : Team) (n : Nat) (f : Ring → Ring) : Team := { tm with rings := tm.rings.set n (f (ringOf tm n)) }

/-- The fault of a tail advance by `c` (R262, R263). -/
def advanceFault (r : Ring) (c : Nat) : Option FaultCode :=
  if !r.valid then some .ringUninit else if r.n < c then some .ringShape else if r.n < r.occ + c then some .ringOver else none

/-- The reserved bits of an RGOP operand, and count 0 with operation 1 (R263). -/
def rgopReserved (v : W64) : Bool :=
  bits v 63 32 ≠ 0 || bits v 15 5 ≠ 0 || bits v 3 3 ≠ 0 || (bits v 4 4 = 1 && bits v 31 16 = 0)

/-- RGRES: t in bits 63:32, h in bits 31:0 (R263). -/
def rgresOf (r : Ring) : W64 := r.t ++ r.h

end Sys2Proof.Machine
end

