-- ==== Sys2Proof/Machine/LaneMem.lean ====
section
/-! DEFINITION. The lane groups' loads, stores, atomics, shows, fences, barriers and tag-table instructions: R120, R222-R227,
R231-R233, R235-R239, R243, R245, the retired VLDB (R86), and the events that complete token operations. -/

namespace Sys2Proof.Machine

open LaneInt

/-! ### Addresses and checks (R119, R120, R224) -/

/-- The actor of a lane instruction (R117): the segment registers are those of the running deal (R291). -/
def Lane.actor (l : Lane) : Actor :=
  { hand := l.ref.hand, ctx := l.tm.ctx, eng := .lane, gseg := l.run.gseg, pseg := l.run.pseg, kseg := l.run.kseg, lseg := l.run.lseg }

/-- Each element's address: the pair's value and the offset (R224). -/
def laneAddrs (s : State) (l : Lane) (f : LaneW) (m : MemW) : List W64 := (l.src s true f.va.toNat).map (· + sext64 m.off)

/-- The positions and items of the active elements, ascending. -/
def activeItems {α : Type} (act : Mask) (xs : List α) : List (Nat × α) :=
  ((List.zip (maskBits act) xs).zipIdx.filter (·.1.1)).map fun p => (p.2, p.1.2)

/-- What stops the check of an instruction's elements: the position, the address and the answer of the lowest that fails. -/
abbrev LaneStop := Nat × W64 × Chk

/-- Check every element in ascending order; `pre` is a check of the instruction's own after step 1 (R236). -/
def checkElems (s : State) (a : Actor) (acc : Acc) (m : MemW) (n algn : Nat) (pre : W64 → Option FaultCode) :
    List (Nat × W64) → State × Except LaneStop (List (Nat × W64 × Tgt))
  | [] => (s, .ok [])
  | (i, addr) :: es =>
    let form : Bool := m.space = 1 && (scratchForm a.hand addr n).isNone
    match (if form then none else pre addr) with
    | some c => (s, .error (i, addr, .fault c))
    | none =>
      match checkAccess s a acc m.space.toNat m.scope.toNat n algn false addr true with
      | (s, .ok t) =>
        match checkElems s a acc m n algn pre es with
        | (s, .ok r) => (s, .ok ((i, addr, t) :: r))
        | r => r
      | (s, ck) => (s, .error (i, addr, ck))

/-- Detail 1 "Elem" (R339). -/
def elemDetail (i : Nat) : W64 := BitVec.ofNat 64 (256 * (i / 64) + i % 64)

/-- The fate of an instruction whose elements do not all pass (R120): no effect. -/
def laneRefused (s : State) (l : Lane) (st : LaneStop) (d1 : W64) : State :=
  match st.2.2 with
  | .fault c => laneFault s l c st.2.1 d1
  | .park va => parkAgent s l.tm.ctx (.group l.ref) (BitVec.ofNat 64 va) none
  | .offline d => dieOffline s l.tm.ctx (.group l.ref) (groupSite s l.ref l.gr) st.2.1 d
  | _ => s

/-- A produced token would rise to 64: the instruction does not issue (R37). -/
def tokenFull (l : Lane) (f : LaneW) : Bool := f.tokEn = 1 && 63 ≤ tokenCount l.gr f.tok.toNat

/-- The token an instruction counts on. -/
def tokenOf (f : LaneW) : Option Nat := if f.tokEn = 1 then some f.tok.toNat else none

/-- Hand an operation to the memory hierarchy: it is outstanding from here on (R37, R226). -/
def putOutst (s : State) (l : Lane) (f : LaneW) (m : MemW) (elems : List Elem) (dest : List Dst) : State :=
  let scope := if m.space = 3 && (elems.any fun e => match e.op with | .atomic .. => true | _ => false) then 0 else m.scope.toNat
  s.updGroup l.ref fun x =>
    { x with outst := x.outst ++ [{ tok := tokenOf f, elems := elems, dest := dest, space := m.space.toNat, scope := scope,
                                    hint := m.hint.toNat, show_ := none, pc := l.run.pc, k := l.run.rot, ins := l.run.idx,
                                    seq := l.run.deal.seq.toNat, at_ := s.clock, helper := l.helper, fault := l.actor.faults m.space.toNat,
                                    done := false, bad := none }] }

/-- A memory instruction: TILE_RANGE, the token count, the checks of every active element, and its elements handed on. -/
def laneAccess (s : State) (f : LaneW) (m : MemW) (acc : Acc) (n algn : Nat) (ts : List Nat) (dest : Lane → List Dst)
    (addrs : State → Lane → List (Nat × W64)) (pre : Lane → W64 → Option FaultCode) (detail : Lane → LaneStop → W64)
    (op : State → Lane → Nat → ElemOp) : Res :=
  onLane s f 3 fun s l => withTiles s l ts <|
    if tokenFull l f then s
    else
      match checkElems s l.actor acc m n algn (pre l) (addrs s l) with
      | (s, .error st) => laneRefused s l st (detail l st)
      | (s, .ok es) =>
        advance (putOutst s l f m (es.map fun e => ⟨e.1, l.actor.virtual m.space.toNat e.2.1, e.2.2, op s l e.1, false, none, none⟩) (dest l)) l 3 1

/-- No check of the instruction's own. -/
def noPre (_ : Lane) (_ : W64) : Option FaultCode := none
/-- Detail 1 of the shared faults. -/
def elemDetailOf (_ : Lane) (st : LaneStop) : W64 := elemDetail st.1

/-- The active elements' addresses. -/
def activeAddrs (f : LaneW) (m : MemW) (s : State) (l : Lane) : List (Nat × W64) := activeItems (l.act f) (laneAddrs s l f m)

/-- The destination tile or pair. -/
def destOf (f : LaneW) (l : Lane) : List Dst := (pairOf (wide f) f.vd).map l.dst

/-- VLD (R231). -/
def execVld (f : LaneW) (m : MemW) (s : State) : Res :=
  laneAccess s f m .load (wd f / 8) (wd f / 8) (pairOf (wide f) f.vd ++ [f.va.toNat, f.va.toNat + 1]) (destOf f) (activeAddrs f m)
    noPre elemDetailOf fun _ _ _ => .load (wd f) (signedTy (ty f))

/-- VST (R231): the low w bits of the flexible operand's element. -/
def execVst (f : LaneW) (m : MemW) (s : State) : Res :=
  laneAccess s f m .store (wd f / 8) (wd f / 8) ([f.va.toNat, f.va.toNat + 1] ++ flexTiles f (wide f)) (fun _ => []) (activeAddrs f m)
    noPre elemDetailOf fun s l i => .store (wd f) ((l.flex s f (ty f)).getD i 0)

/-- The addresses of VLDT and VSTT (R232): row r's base is the pair at column 0 of row r. -/
def rowAddrs (f : LaneW) (m : MemW) (s : State) (l : Lane) : List (Nat × W64) :=
  let e := if wide f then 8 else 4
  activeItems (l.act f) ((rowsOf (laneAddrs s l f m)).flatMap fun r => (List.range 64).map fun c => r.getD 0 0 + BitVec.ofNat 64 (e * c))

/-- The bytes of a moved element (R203, R232). -/
def moveBytes (f : LaneW) : Nat := if wide f then 8 else 4

/-- VLDT (R232). -/
def execVldt (f : LaneW) (m : MemW) (s : State) : Res :=
  laneAccess s f m .load (moveBytes f) (moveBytes f) (pairOf (wide f) f.vd ++ [f.va.toNat, f.va.toNat + 1]) (destOf f)
    (rowAddrs f m) noPre elemDetailOf fun _ _ _ => .load (8 * moveBytes f) false

/-- VSTT (R232). -/
def execVstt (f : LaneW) (m : MemW) (s : State) : Res :=
  laneAccess s f m .store (moveBytes f) (moveBytes f) ([f.va.toNat, f.va.toNat + 1] ++ pairOf (wide f) f.vc) (fun _ => [])
    (rowAddrs f m) noPre elemDetailOf fun s l i => .store (8 * moveBytes f) ((l.src s (wide f) f.vc.toNat).getD i 0)

/-- The function of R229 that VATOM's code names; MIN and MAX use the type's signedness (R233). -/
def atomCode (f : LaneW) : Nat :=
  match f.op3.toNat with
  | 4 => if signedTy (ty f) then 4 else 6
  | 5 => if signedTy (ty f) then 5 else 7
  | 6 => 8
  | n => n

/-- VATOM (R233). -/
def execVatom (f : LaneW) (m : MemW) (s : State) : Res :=
  laneAccess s f m .atomic (wd f / 8) (wd f / 8)
    (pairOf (wide f) f.vd ++ [f.va.toNat, f.va.toNat + 1] ++ flexTiles f (wide f)) (destOf f) (activeAddrs f m)
    noPre elemDetailOf fun s l i => .atomic (atomCode f) (wd f) ((l.flex s f (ty f)).getD i 0) 0

/-- VCAS (R233): it stores c where the value equals Vb's element. -/
def execVcas (f : LaneW) (m : MemW) (s : State) : Res :=
  laneAccess s f m .atomic (wd f / 8) (wd f / 8)
    (pairOf (wide f) f.vd ++ [f.va.toNat, f.va.toNat + 1] ++ pairOf (wide f) f.vb ++ flexTiles f (wide f)) (destOf f)
    (activeAddrs f m) noPre elemDetailOf fun s l i =>
      .atomic 9 (wd f) ((l.flex s f (ty f)).getD i 0) ((l.src s (wide f) f.vb.toNat).getD i 0)

/-! ### Tag-table slots (R236) -/

/-- The slot and the byte within the line of an element of PLD or PST. -/
def slotParts (lo hi : W32) (m : MemW) : Nat × W64 := (lo.toNat % 2 ^ 16, zext64 hi + sext64 m.off)

/-- The scratchpad address of a slot's byte. -/
def slotAddr (tm : Team) (p : Nat × W64) : W64 := BitVec.ofNat 64 (tagBase tm + p.1 * 2 ^ tagL tm) + p.2

/-- SLOT_RANGE of one element. -/
def slotBad (tm : Team) (n : Nat) (p : Nat × W64) : Bool := tagEntries tm ≤ p.1 || 2 ^ tagL tm < p.2.toNat + n

/-- Check the elements of PLD or PST: the address form, SLOT_RANGE, then R119 (R236). -/
def checkSlots (s : State) (l : Lane) (acc : Acc) (m : MemW) (n : Nat) :
    List (Nat × Nat × W64) → State × Except (LaneStop × W64) (List (Nat × W64 × Tgt))
  | [] => (s, .ok [])
  | (i, p) :: es =>
    let addr := slotAddr l.tm p
    if (scratchForm l.ref.hand addr n).isNone then (s, .error ((i, addr, .fault .addrForm), elemDetail i))
    else if slotBad l.tm n p then (s, .error ((i, addr, .fault .slotRange), BitVec.ofNat 64 p.1))
    else
      match checkAccess s l.actor acc 1 m.scope.toNat n n false addr true with
      | (s, .ok t) =>
        match checkSlots s l acc m n es with
        | (s, .ok r) => (s, .ok ((i, addr, t) :: r))
        | r => r
      | (s, ck) => (s, .error ((i, addr, ck), elemDetail i))

/-- PLD and PST: as VLD and VST on the data of a tag-table slot (R236). -/
def slotAccess (s : State) (f : LaneW) (m : MemW) (acc : Acc) (ts : List Nat) (dest : Lane → List Dst)
    (op : State → Lane → Nat → ElemOp) : Res :=
  onLane s f 3 fun s l => withTiles s l ts <|
    if tokenFull l f then s
    else
      let parts := List.zipWith (fun a b => slotParts a b m) (l.tile s f.va.toNat) (l.tile s (f.va.toNat + 1))
      match checkSlots s l acc m (wd f / 8) (activeItems (l.act f) parts) with
      | (s, .error st) => laneRefused s l st.1 st.2
      | (s, .ok es) =>
        advance (putOutst s l f m (es.map fun e => ⟨e.1, l.actor.virtual m.space.toNat e.2.1, e.2.2, op s l e.1, false, none, none⟩) (dest l)) l 3 1

/-- PLD (R236). -/
def execPld (f : LaneW) (m : MemW) (s : State) : Res :=
  slotAccess s f m .load (pairOf (wide f) f.vd ++ [f.va.toNat, f.va.toNat + 1]) (destOf f) fun _ _ _ => .load (wd f) (signedTy (ty f))

/-- PST (R236). -/
def execPst (f : LaneW) (m : MemW) (s : State) : Res :=
  slotAccess s f m .store ([f.va.toNat, f.va.toNat + 1] ++ flexTiles f (wide f)) (fun _ => [])
    fun s l i => .store (wd f) ((l.flex s f (ty f)).getD i 0)

/-! ### Completion of a token operation (R143, R225-R227, R248) -/

/-- What an element's home, or its peer, says before it performs. -/
inductive ElemFate where
  | go
  | wait
  | bad (c : FaultCode) (d1 d2 : W64)
  | offline (dev : Nat)
  deriving DecidableEq, Repr

/-- The actor of an operation that has passed its checks: its place is the memory instruction's (R253). -/
def outstActor (s : State) (g : GroupRef) (o : Outst) : Actor :=
  { hand := g.hand, ctx := (match s.team? g.team with | some t => t.ctx | none => 0), eng := .lane, gseg := Seg.none, pseg := Seg.none,
    kseg := Seg.none, lseg := Seg.none, who := .group g,
    site := match s.group? g with | some gr => { groupSite s g gr with pc := o.pc, k := o.k, ins := o.ins } | none => { engine := 1, hand := g.hand } }

/-- The actor as it accesses one element's place. -/
def Actor.onElem (a : Actor) (o : Outst) (e : Elem) : Actor := { a.toward e.addr e.tgt with part := 1024 * o.at_ + e.pos }

/-- What an element asks a peer (R366). -/
def Elem.ask (e : Elem) : DomainOp :=
  match e.op with
  | .load w _ => .load (w / 8)
  | .store w v => .store (toBytes (w / 8) v.toNat)
  | .atomic fn w b c => atomicOp fn w (b.toNat % 2 ^ w) (c.toNat % 2 ^ w)

/-- The requests to peers of an operation that does not go on are over. -/
def peerDrop (s : State) (g : GroupRef) (o : Outst) : State :=
  { s with weave := { s.weave with reqs := s.weave.reqs.filter fun r => !(r.agent = .group g && r.part / 1024 = o.at_) } }

/-- The fate of an element that names a peer (R366): a poisoned unit fails an atomic, and a load under FAULT. -/
def peerFate (s : State) (g : GroupRef) (o : Outst) (e : Elem) : State × ElemFate :=
  match peerAsk s ((outstActor s g o).onElem o e) e.tgt e.ask with
  | (s, .waits) => (s, .wait)
  | (s, .fault c) => (s, .bad c 0 0)
  | (s, .offline) => (s, .offline (match e.tgt with | .peer d _ => d | _ => 0))
  | (s, .done p) =>
    (s, match e.op with
      | .load .. => if p && o.fault then .bad .poison (elemDetail e.pos) 0 else .go
      | .store .. => .go
      | .atomic .. => if p then .bad .poison (elemDetail e.pos) 0 else .go)

/-- A group's load meets a sector that is not VAL (R248); the group uses its owning thread's EVSTACK. The load that starts an evaluation is
a release of the group (R169): `prior` says that its earlier accesses have performed. -/
def groupCell (s : State) (k : Core) (g : GroupRef) (prior : Bool) (pa : Nat) (addr : W64) : State × ElemFate :=
  let pa := alignDown pa 32
  let depth := BitVec.ofNat 64 k.tm.evstack.length
  let join (s : State) : State := { s with waiters := s.waiters ++ [(pa / 32, Agent.group g)] }
  if tagAt s pa = 1 then
    if 15 ≤ k.tm.evstack.length then (s, .bad .evalDepth depth 0)
    else if !prior then (s, .wait)
    else (join (startEvaluation (releaseAt s g.hand 3) k pa addr), .wait)
  else if tagAt s pa = 2 then
    if onStack k.tm pa then (s, .bad .selfDep depth 0)
    else if s.waiters.contains (pa / 32, .group g) then (s, .wait)
    else (join s, .wait)
  else (s, .bad .cellFailed (BitVec.ofNat 64 (Memory.readNat s.mem (pa + 20) 4)) (BitVec.ofNat 64 (Memory.readNat s.mem (pa + 24) 8)))

/-- One element before it performs. A resolved value goes on and a failed cell fails it (R170); a line that a copy holds, and a sub-page
whose owner has earlier writes to come, make it wait (R139, R161); a load of a sector that is not VAL waits or fails, an atomic fails
with CELL_BUSY; a poisoned unit fails an atomic, and a load under FAULT. -/
def elemFate (s : State) (k : Core) (g : GroupRef) (prior : Bool) (o : Outst) (e : Elem) : State × ElemFate :=
  match e.failed, e.val with
  | some (c, q), _ => (s, .bad .cellFailed (BitVec.ofNat 64 c) (BitVec.ofNat 64 q))
  | none, some _ => (s, .go)
  | none, none =>
    let poisoned := !(poisonedFor s g.hand e.tgt e.bytes o.scope o.hint).isEmpty
    let poison : ElemFate := .bad .poison (elemDetail e.pos) 0
    let write : ElemFate := if writeWaitsFor s g.hand (fun x => x.at_ < o.at_) e.tgt e.bytes then .wait else .go
    let cell : Option Nat := match e.tgt with | .dev pa => if tagAt s pa ≠ 0 && (o.space = 0 || e.writes) then some pa else none | _ => none
    match e.tgt with
    | .peer _ _ => peerFate s g o e
    | _ =>
    match e.op, cell with
    | .store .., _ => (s, write)
    | .load .., some pa => if copyHolds s e.tgt e.bytes then (s, .wait) else groupCell s k g prior pa e.addr
    | .load .., none => (s, if copyHolds s e.tgt e.bytes then .wait else if poisoned && o.fault then poison else .go)
    | .atomic .., some pa => (s, if poisoned then poison else .bad .cellBusy (zext64 (tagAt s pa)) 0)
    | .atomic .., none => (s, if poisoned then poison else write)

/-- The fates of all elements, in ascending order; an element that waits is marked. -/
def elemFates (s : State) (k : Core) (g : GroupRef) (prior : Bool) (o : Outst) : List Elem → State × List (Elem × ElemFate)
  | [] => (s, [])
  | e :: es =>
    let (s, x) := elemFate s k g prior o e
    let (s, r) := elemFates s k g prior o es
    (s, (if x = .wait && e.reads then { e with wait := true } else e, x) :: r)

/-- Perform one element: the value it returns, extended as its load is (R226, R231, R233). -/
def performElem (a : Actor) (o : Outst) (acc : State × List (Nat × W64)) (e : Elem) : State × List (Nat × W64) :=
  let s := acc.1
  match e.op with
  | .load w signed =>
    let (s, bs) := match e.val with
      | some bs => (s, bs)
      | none =>
        let units := poisonedFor s a.hand e.tgt (w / 8) o.scope o.hint
        let (s, bs) := readTgt s (a.onElem o e) e.tgt (w / 8) o.scope o.hint
        (s, zeroPoison units e.tgt.base bs)
    (s, acc.2 ++ [(e.pos, extendTo signed w (ofBytes bs))])
  | .store w v => (writeTgt s (a.onElem o e) e.tgt (toBytes (w / 8) v.toNat) o.scope o.hint, acc.2)
  | .atomic fn w b c =>
    let (s, v) := atomicTgt s (a.onElem o e) e.tgt fn w (b.toNat % 2 ^ w) (c.toNat % 2 ^ w) o.scope o.hint
    (s, acc.2 ++ [(e.pos, BitVec.ofNat 64 v)])

/-- The 64-byte units of a space that writes cover whole: `at_` gives each its first byte and its length. -/
def coveredUnits (ws : List (Nat × Nat)) : List Nat :=
  let bs := (ws.flatMap fun w => (List.range w.2).map (w.1 + ·)).dedup
  ((bs.map (· / 64)).dedup).filter fun u => (bs.filter fun b => b / 64 = u).length = 64

/-- A write of hand `h` at a scope and hint that covers a unit whole, made of several parts, clears its poison (R144). -/
def clearUnit (h scope hint : Nat) (s : State) (u : Nat) : State :=
  let la := alignDown (64 * u) 128
  if !unitMarked s h scope hint u then s
  else if !lineVal s la then { s with poison := s.poison.erase u }
  else
    let s := descend s h la scope hint
    match (placesFor h la scope hint).find? fun p => (lineCopy s p la).isSome with
    | some p =>
      match lineCopy s p la with
      | some l => setLine s p la { l with marks := l.marks &&& ~~~BitVec.twoPow 2 (u % 2), dirty := l.dirty ||| (BitVec.allOnes 64).setWidth 128 <<< (64 * (u % 2)) }
      | none => s
    | none => { s with poison := s.poison.erase u }

/-- Some unit that hand `h` can write is poisoned. -/
def anyPoison (s : State) (h : Nat) : Bool :=
  !s.poison.isEmpty || !(s.hand h).scratchPoison.isEmpty || s.caches.any fun p => p.2.any fun l => l.2.marks ≠ 0

/-- Several writes of one access have covered bytes of device memory and of the scratchpad: the units covered whole lose their poison. -/
def clearCovered (s : State) (h scope hint : Nat) (dev scr : List (Nat × Nat)) : State :=
  if anyPoison s h then
    let us := coveredUnits scr
    let s := (coveredUnits dev).foldl (clearUnit h scope hint) s
    if us.isEmpty then s else s.updHand h fun x => { x with scratchPoison := x.scratchPoison.filter fun u => !us.contains u }
  else s

/-- The rows of an operation's stores, each a 64-byte access or several (R121), clear the poison of the units that they cover whole. -/
def clearRows (s : State) (a : Actor) (o : Outst) : State :=
  if anyPoison s a.hand then
    (List.range 16).foldl (fun s r =>
      let row := o.elems.filter fun e => e.pos / 64 = r && !e.reads
      clearCovered s a.hand o.scope o.hint
        (row.filterMap fun e => match e.tgt with | .dev pa => some (pa, e.bytes) | _ => none)
        (row.filterMap fun e => match e.tgt with | .scratch _ x => some (x, e.bytes) | _ => none)) s
  else s

/-- Elements in an unspecified order (R225): sorted by an uninterpreted choice. -/
def shuffle (key : Nat) (es : List Elem) : List Elem :=
  es.insertionSort fun a b => Config.choice (key * 1024 + a.pos) ≤ Config.choice (key * 1024 + b.pos)

/-- The distinct poisoned units of an operation's loads and atomics log one record each, ascending (R143). -/
def logElems (s : State) (a : Actor) (o : Outst) (outcome : Nat) : State :=
  let hits := o.elems.flatMap fun e =>
    match e.op with
    | .store .. => []
    | _ =>
      (match e.tgt, (peerAsk s (a.onElem o e) e.tgt e.ask).2 with
       | .peer _ p, .done true => [(p / 64, e)]
       | _, _ => []) ++
      (poisonedFor s a.hand e.tgt e.bytes o.scope o.hint).map fun u => (u, e)
  let units := ((hits.map (·.1)).dedup).insertionSort (· ≤ ·)
  units.foldl (fun s u =>
    match hits.find? fun h => h.1 = u with
    | some (_, e) => postPoison s a.ctx (unitAddr e.tgt e.addr u) o.space outcome a.hand 1 o.seq
    | none => s) s

/-- Change the `n`-th outstanding operation. -/
def updOutst (s : State) (g : GroupRef) (n : Nat) (f : Outst → Outst) : State :=
  s.updGroup g fun x => { x with outst := x.outst.zipIdx.map fun p => if p.2 = n then f p.1 else p.1 }

/-- Loaded values reach their destination tiles (R226). -/
def landLoaded (s : State) (g : GroupRef) (dest : List Dst) (vals : List (Nat × W64)) : State :=
  let act : Mask := vals.foldl (fun m v => m ||| BitVec.twoPow 1024 v.1) 0
  let put (f : W64 → W32) : Tile := vals.foldl (fun t v => t.set v.1 (f v.2)) (List.replicate 1024 0)
  dest.zipIdx.foldl (fun s d => land s g d.1 act (put fun v => if d.2 = 0 then v.setWidth 32 else v.extractLsb' 32 32) 0) s

/-- An outstanding operation that writes memory. -/
def Outst.writes (o : Outst) : Bool := o.elems.any Elem.writes
/-- An outstanding operation that loads. -/
def Outst.loads (o : Outst) : Bool := o.elems.any fun e => match e.op with | .store .. => false | _ => true

/-- The accesses that a group issued before its `n`-th outstanding operation have performed. -/
def accessesBefore (s : State) (g : GroupRef) (n : Nat) : Bool :=
  match s.group? g with | some gr => !((gr.outst.take n).any fun o => !o.done && o.show_.isNone) | none => true

/-- The operation performs all its elements, or meets a deferred fault and writes nothing (R225-R227); while an element waits
the operation stays outstanding. -/
def finishOutst (s : State) (k : Core) (g : GroupRef) (n : Nat) (o : Outst) : State :=
  let a := outstActor s g o
  let (s, fs) := elemFates s k g (accessesBefore s g n) o o.elems
  let s := updOutst s g n fun o => { o with elems := fs.map (·.1) }
  match fs.findSome? fun f => match f.2 with | .offline d => some (f.1, d) | _ => none with
  | some (e, d) => dieOffline (peerDone s (.group g) (1024 * o.at_ + e.pos)) k.tm.ctx (.group g) a.site e.addr (2 ^ 31 + d)
  | none =>
  if fs.any fun f => f.2 = .wait then s
  else
    match fs.find? fun f => match f.2 with | .bad .. => true | _ => false with
    | some (e, .bad c d1 d2) =>
      updOutst (peerDrop (logElems s a o 1) g o) g n fun o => { o with done := true, bad := some (c, e.addr, d1, d2) }
    | _ =>
      let s := logElems s a o 0
      let (key, s) := s.draw
      let (s, vals) := (shuffle key (fs.map (·.1))).foldl (performElem a o) (s, [])
      (landLoaded (clearRows s a o) g o.dest vals).updGroup g fun x => { x with outst := x.outst.eraseIdx n }

/-- The die that refuses an element's request (R374). -/
def refusingDie (s : State) (o : Outst) : Option (Elem × Nat) :=
  (o.elems.filterMap fun e => match e.tgt with | .dev pa => if dieRefuses s (homeDie pa) then some (e, homeDie pa) else none | _ => none).head?

/-- TOKEN_COMPLETE: the `n`-th outstanding memory operation of a group completes, and its token's count falls (R226). -/
def execTokenComplete (g : GroupRef) (n : Nat) (s : State) : Res :=
  match s.group? g, s.coreOf g.owner with
  | some gr, some k =>
    match gr.outst[n]? with
    | none => .next s
    | some o =>
      if !outstReady g.hand gr n then .next s
      else
        match refusingDie s o with
        | some (e, d) => .next (dieOffline s k.tm.ctx (.group g) (outstActor s g o).site e.addr d)
        | none => .next (finishOutst s k g n o)
  | _, _ => .next s

/-! ### VLDB (retired, R86) -/

/-- The addresses of VLDB's active elements: that of row 0 of their column. -/
def vldbAddrs (f : LaneW) (m : MemW) (s : State) (l : Lane) : List (Nat × W64) :=
  activeItems (l.act f) (List.replicate 16 ((laneAddrs s l f m).take 64)).flatten

/-- VLDB's bytes are loaded at once: while a suspended cell is awaited the group stays at the instruction, and a data fault
freezes it there. -/
def vldbEffect (s : State) (l : Lane) (f : LaneW) (m : MemW) (es : List (Nat × W64 × Tgt)) : State :=
  match s.coreOf l.ref.owner with
  | none => s
  | some k =>
    let n := l.gr.outst.length
    let s := updOutst (putOutst s l f m (es.map fun e => ⟨e.1, e.2.1, e.2.2, .load 8 false, false, none, none⟩) [l.dst f.vd.toNat])
      l.ref n fun o => { o with at_ := 0 }
    match (match s.group? l.ref with | some gr => gr.outst[n]? | none => none) with
    | none => s
    | some o =>
      let s := finishOutst s k l.ref n o
      match s.group? l.ref with
      | none => s
      | some gr =>
        match gr.outst[n]? with
        | none => advance s l 3 1
        | some o => if o.bad.isSome then deferredFault s l o else s.updGroup l.ref fun x => { x with outst := x.outst.eraseIdx n }

/-- VLDB (retired, R86): for each active column, a byte zero-extended, written to the rows of the column. Any type code is taken, as the
manual reserves none for this form. DESIGN CHOICE (log entry 84). -/
def execVldb (f : LaneW) (m : MemW) (s : State) : Res :=
  retiredLane s (.vldb f m) f 3 true fun s l => withTiles s l [f.vd.toNat, f.va.toNat, f.va.toNat + 1] <|
    match checkElems s l.actor .load m 1 1 (fun _ => none) (vldbAddrs f m s l) with
    | (s, .error st) => laneRefused s l st (elemDetail st.1)
    | (s, .ok es) => vldbEffect s l f m es

/-! ### Shows (R222, R223) -/

/-- Shows that the group's queue holds or has been promised (R223). -/
def showsTaken (l : Lane) : Nat :=
  (if l.helper then l.gr.hshows.length else l.gr.shows.length) + l.gr.outst.countP fun o => o.show_.isSome && o.helper = l.helper

/-- The predicate of a show: bit i is the OR over rows (R222). -/
def showPred (l : Lane) (f : LaneW) : W64 :=
  let m := l.mask (f.va.toNat % 16) &&& l.act f
  (List.range 16).foldl (fun p r => p ||| maskRow m r) 0

/-- The lowest lane of the deal mask. -/
def lowestLane (m : W64) : Option Nat := (List.range 64).find? fun i => m.getLsbD i

/-- Scalar m of a show (R222). -/
def showScalar (vs : Tile) (m0 : W64) (m : Nat) : W64 :=
  match lowestLane m0 with
  | some c => (vs.getD (64 * (m + 8) + c) 0 ++ vs.getD (64 * m + c) 0 : W64)
  | none => 0

/-- Word 0 of a show: sequence number, block index, tag, kind (R38). -/
def showHead (d : Deal) (kind : Nat) : W64 :=
  BitVec.ofNat 64 (d.seq.toNat * 2 ^ 32 + bits d.w0 63 48 * 2 ^ 16 + bits d.w0 23 16 * 256 + kind)

/-- The four words of index nibbles of an INDEX show: lane i in nibble i mod 16 of word i div 16 (R38, R222). -/
def showIndex (pred : W64) (vx : Tile) : List W64 :=
  (List.range 4).map fun w => BitVec.ofNat 64 (joinSub 4 ((List.range 16).map fun j =>
    let i := 16 * w + j
    if pred.getLsbD i then (vx.getD i 0).toNat % 16 else 0))

/-- SHOW and SHOWX issue when the show queue has room, and the show then waits to enter it (R223). -/
def showOp (s : State) (f : LaneW) (ts : List Nat) (mk : State → Lane → Show) : Res :=
  onLane s f 2 fun s l => withTiles s l ts <|
    if tokenFull l f || (if l.helper then 4 else 32) ≤ showsTaken l then s
    else
      let s := s.updGroup l.ref fun x =>
        { x with outst := x.outst ++ [{ tok := tokenOf f, elems := [], dest := [], space := 0, scope := 0, hint := 0,
                                        show_ := some (mk s l), pc := l.run.pc, k := l.run.rot, ins := l.run.idx,
                                        seq := l.run.deal.seq.toNat, at_ := s.clock, helper := l.helper, fault := false, done := false,
                                        bad := none }] }
      advance (updRun s l fun r => { r with shows := r.shows + 1 }) l 2 1

/-- SHOW (R222). -/
def execShow (f : LaneW) (s : State) : Res :=
  showOp s f [f.vc.toNat] fun s l =>
    [showHead l.run.deal 0, showPred l f] ++ (List.range 6).map (showScalar (l.tile s f.vc.toNat) l.run.m0)

/-- SHOWX (R222). -/
def execShowx (f : LaneW) (s : State) : Res :=
  showOp s f [f.vb.toNat, f.vc.toNat] fun s l =>
    [showHead l.run.deal 1, showPred l f] ++ showIndex (showPred l f) (l.tile s f.vb.toNat) ++
      (List.range 2).map (showScalar (l.tile s f.vc.toNat) l.run.m0)

/-- The `n`-th outstanding show may enter its queue: earlier shows for that queue have entered, and earlier accesses, which the show
releases, have performed (R154, R223). -/
def showReady (gr : Group) (n : Nat) : Bool :=
  match gr.outst[n]? with
  | some o => o.show_.isSome && !((gr.outst.take n).any fun x => if x.show_.isSome then x.helper = o.helper else !x.done)
  | none => false

/-- SHOW_ENQUEUE: a show enters the show queue of its deal, or the helper show queue where a helper deal sent it, a .HD release (R223,
R296). The show queue of a frozen group gains none (R43): a show that was outstanding at the freeze completes as the token operation
that it is (R343), and stands before the queue until the group goes on. DEDUCED (log entry 87). -/
def execShowEnqueue (g : GroupRef) (n : Nat) (s : State) : Res :=
  match s.group? g with
  | some gr =>
    match gr.outst[n]? with
    | some o =>
      match o.show_ with
      | some sh =>
        if !showReady gr n then .next s
        else if o.helper then
          if gr.hshows.length < 4 then
            .next ((releaseAt s g.hand 0).updGroup g fun x => { x with hshows := x.hshows ++ [sh], outst := x.outst.eraseIdx n })
          else .next s
        else if gr.frozen then .next (updOutst s g n fun o => { o with done := true })
        else if gr.shows.length < 32 then
          .next ((releaseAt s g.hand 0).updGroup g fun x => { x with shows := x.shows ++ [sh], outst := x.outst.eraseIdx n })
        else .next s
      | none => .next s
    | none => .next s
  | none => .next s

/-! ### Fences and barriers (R113, R235, R243, R245) -/

/-- Every earlier write of the group has performed. -/
def writesDone (gr : Group) : Bool := !gr.outst.any fun o => !o.done && o.writes
/-- Every earlier load of the group has completed. -/
def loadsDone (gr : Group) : Bool := !gr.outst.any fun o => !o.done && o.loads

/-- VFENCE (R235): kinds 0 ACQ, 1 REL, 2 AR, 3 SC; scope in vd bits 2:0. -/
def execVfence (f : LaneW) (s : State) : Res :=
  onLane s f 2 fun s l =>
    let kind := f.op3.toNat
    let scope := f.vd.toNat % 8
    if (kind ≠ 0 && !writesDone l.gr) || !loadsDone l.gr then s
    else deliverLane s l fun s =>
      let s := if kind = 0 then s else releaseAt s l.ref.hand scope
      advance (if kind = 1 then s else acquireAt s l.ref.hand scope) l 2 1

/-- The flexible operand of a lane barrier instruction: all of Dn, or imm6 (R243). -/
def barOperand (l : Lane) (f : LaneW) : W64 := if f.kind = 1 then l.d f.vc.toNat else sext64 f.vc

/-- LANE_BARI (R243, R245). -/
def execLaneBari (f : LaneW) (s : State) : Res :=
  onLane s f 2 fun s l => deliverLane s l fun s =>
    advance (updBarrier s l.ref.team (f.vd.toNat % 32) fun b => b.init ((barOperand l f).setWidth 16)) l 2 1

/-- LANE_BARA (R243, R245): a release at its scope, then the arrival. -/
def execLaneBara (f : LaneW) (s : State) : Res :=
  onLane s f 2 fun s l =>
    if !writesDone l.gr || !loadsDone l.gr then s
    else deliverLane s l fun s =>
      let n := f.vd.toNat % 32
      let b := barrierOf l.tm n
      match araFault b with
      | some c => laneFault s l c 0 (BitVec.ofNat 64 n)
      | none =>
        let s := updBarrier (releaseAt s l.ref.hand f.op3.toNat) l.ref.team n fun b => b.arrive (barOperand l f)
        advance (s.updGroup l.ref fun x => { x with arrival := x.arrival.set n b.phase }) l 2 1

/-- A group's BARW completes: an acquire at its scope; the arrival phase is cleared. -/
def laneBarwDone (s : State) (l : Lane) (n sc : Nat) : State :=
  advance ((acquireAt s l.ref.hand sc).updGroup l.ref fun x => { x with arrival := x.arrival.erase n, waitBar := none }) l 2 1

/-- LANE_BARW (R243, R245). One that waits has taken its slot, so that its deal has started (R40). -/
def execLaneBarw (f : LaneW) (s : State) : Res :=
  onLane s f 2 fun s l =>
    match l.gr.waitBar with
    | some (n, sc, p) => if (barrierOf l.tm n).phase ≠ p then laneBarwDone s l n sc else s
    | none => deliverLane s l fun s =>
      let n := f.vd.toNat % 32
      let b := barrierOf l.tm n
      if b.expected = 0 then laneFault s l .barUninit 0 (BitVec.ofNat 64 n)
      else
        let p := (l.gr.arrival.get? n).getD b.phase
        if b.phase ≠ p then laneBarwDone s l n f.op3.toNat
        else (updRun s l fun r => { r with started := true }).updGroup l.ref fun x => { x with waitBar := some (n, f.op3.toNat, p) }

/-! ### The tag table (R237-R239) -/

/-- PLK (R237): every element sees one state of the table. -/
def execPlk (f : LaneW) (s : State) : Res :=
  fixed s f 2 [f.vd.toNat, f.va.toNat, f.va.toNat + 1] fun s l =>
    pendTile s l 8 false f.vd.toNat (l.act f) ((l.src s true f.va.toNat).map fun a => (tagLookup l.tm a, 0))

/-- PTAG on the active elements in ascending order: the table, and each element's entry as it stood. -/
def ptagElems (tm : Team) (op : Nat) : List (Bool × W64 × W32) → Team × List W64
  | [] => (tm, [])
  | (b, addr, way) :: es =>
    if b then
      let (tm, v) := tagOp tm op addr (way.toNat % 4)
      let (tm, r) := ptagElems tm op es
      (tm, v :: r)
    else
      let (tm, r) := ptagElems tm op es
      (tm, 0 :: r)

/-- PTAG (R238). -/
def execPtag (f : LaneW) (s : State) : Res :=
  fixed s f 2 [f.vd.toNat, f.vd.toNat + 1, f.va.toNat, f.va.toNat + 1, f.vb.toNat] fun s l =>
    let es := List.zip (maskBits (l.act f)) (List.zip (l.src s true f.va.toNat) (l.tile s f.vb.toNat))
    let (tm, vs) := ptagElems l.tm f.op3.toNat es
    pendTile (s.updTeam l.ref.team fun t => { t with tags := tm.tags }) l 8 true f.vd.toNat (l.act f) (vs.map fun v => (v, 0))

/-- PINV (R239): the active elements' keys, or with bit 0 set the team's whole share. -/
def execPinv (f : LaneW) (s : State) : Res :=
  fixed s f 2 (if f.op3 = 1 then [] else [f.va.toNat, f.va.toNat + 1]) fun s l =>
    s.updTeam l.ref.team fun t =>
      if f.op3 = 1 then tagClear t
      else ((activeItems (l.act f) (l.src s true f.va.toNat)).map (·.2)).foldl tagInvalidate t

end Sys2Proof.Machine
end

