-- ==== Sys2Proof/Machine/Work.lean ====
section
/-! DEFINITION. Groups, deals, shows, deques, spawning, yielding and the start of streams: R26-R31, R39, R40, R182-R199. -/

namespace Sys2Proof.Machine

/-- The group `g`; an index that holds nothing is UNSET (R182). -/
def groupOf (s : State) (g : GroupRef) : Group := (s.group? g).getD State.emptyGroup

/-- The state code of QSTAT (R188). -/
def GState.code : GState → Nat
  | .unset => 0 | .live => 1 | .closing => 2 | .closed => 3

/-- While a handler runs, its queue instructions on the EGRP index act on the group's helper queues (R296). -/
def onHelper (k : Core) (i : Nat) : Bool := 0 < k.th.depth && k.th.egrp.toNat = i

/-! ### Setting groups up (R183, R23, R25, R26) -/

/-- The free units of a role on a lane group (R25). -/
def freeUnits (tm : Team) (role lg : Nat) : List Nat :=
  match tm.roles.get? role with | some r => r.free.getD lg [] | none => []

/-- Set the free units of a role on a lane group. -/
def setFree (tm : Team) (role lg : Nat) (u : List Nat) : Team :=
  { tm with roles := tm.roles.modify role fun r => { r with free := r.free.set lg u } }

/-- The resident groups of a lane group of a hand: LIVE or CLOSING (R23). -/
def residentGroups (s : State) (h lg : Nat) : Nat :=
  s.groups.countP fun p => p.1 / 128 = h && p.2.lg = lg && (p.2.state = .live || p.2.state = .closing)

/-- The group that SGRP leaves (R183): the tiles and the segment registers keep what they hold. -/
def freshGroup (old : Group) (lg : Nat) (units : List Nat) (thr : BitVec 16) : Group :=
  { State.emptyGroup with state := .live, lg := lg, units := units, swapThr := thr, gseg := old.gseg, pseg := old.pseg,
                          kseg := old.kseg, lseg := old.lseg }

/-- SGRP (R183). -/
def execSgrp (d a b : R5) (s : State) : Res :=
  onCore s fun k =>
    let idx := k.th.rx a
    let cfg := k.th.rx b
    let g := k.ref.group idx.toNat
    if 15 < idx.toNat then threadFault s k .groupRange 0 idx cfg
    else
      let gr := groupOf s g
      if gr.state = .live || gr.state = .closing then threadFault s k .groupBusy 0 idx cfg
      else if bits cfg 63 32 ≠ 0 || bits cfg 15 4 ≠ 0 || bits cfg 3 0 = 0 || 8 < bits cfg 3 0 then threadFault s k .sgrpFormat 0 idx cfg
      else
        let n := bits cfg 3 0
        let lg := match k.tm.roles.get? k.ref.role with | some r => r.bind.getD idx.toNat 0 | none => 0
        let free := freeUnits k.tm k.ref.role lg
        if free.length < n || 16 ≤ residentGroups s k.ref.hand lg then retireX s k 1 d 0
        else
          let s := s.updTeam k.ref.team fun t => setFree t k.ref.role lg (free.drop n)
          let s := { s with groups := s.groups.set (groupKey g) (freshGroup gr lg (free.take n) (BitVec.ofNat 16 (bits cfg 31 16))) }
          retireX s k 1 d 1

/-- Move units between two pools of a team (R26); the destination register receives their number. -/
def moveUnits (s : State) (k : Core) (d : R5) (src dst lg n : Nat) : State :=
  let u := freeUnits k.tm src lg
  let s := s.updTeam k.ref.team fun t =>
    let t := setFree t src lg (u.drop n)
    setFree t dst lg (freeUnits t dst lg ++ u.take n)
  retireX s k 1 d (BitVec.ofNat 64 n)

/-- GIVE (R26, R189). -/
def execGive (d a b : R5) (s : State) : Res :=
  onCore s fun k =>
    let r := (k.th.rx a).toNat
    let lg := bits (k.th.rx b) 1 0
    let n := bits (k.th.rx b) 15 8
    if (k.tm.roles.get? r).isNone || r = k.ref.role || n = 0 || (freeUnits k.tm k.ref.role lg).length < n then retireX s k 1 d 0
    else moveUnits s k d k.ref.role r lg n

/-- CLAIM (R26, R189). -/
def execClaim (d a b : R5) (s : State) : Res :=
  onCore s fun k =>
    let r := (k.th.rx a).toNat
    let lg := bits (k.th.rx b) 1 0
    let n := min (bits (k.th.rx b) 15 8) (freeUnits k.tm r lg).length
    if (k.tm.roles.get? r).isNone || r = k.ref.role || n = 0 then retireX s k 1 d 0
    else moveUnits s k d r k.ref.role lg n

/-! ### Deals (R27-R31, R184, R185, R296) -/

/-- The first failing check of R28. -/
def dealFault (s : State) (k : Core) (w0 : W64) : Option FaultCode :=
  let i := bits w0 7 0
  let gr := groupOf s (k.ref.group i)
  let blocks := match imageOf s k.tm.ctx k.th.img with | some im => im.blockCount | none => 0
  if bits w0 15 12 ≠ 0 then some .dealFormat
  else if 15 < i then some .dealTarget
  else if onHelper k i then (if bits w0 11 11 = 1 then some .dealTarget else if blocks ≤ bits w0 63 48 then some .dealBlock else none)
  else if gr.state ≠ .live then some .dealTarget
  else if blocks ≤ bits w0 63 48 then some .dealBlock else none

/-- The deal that four registers hold, with a group's D2-D7 and sequence number (R29, R31). -/
def dealOf (ws : List W64) (d : List W64) (seq : BitVec 32) (img : Nat) : Deal :=
  { w0 := ws.getD 0 0, w1 := ws.getD 1 0, w2 := ws.getD 2 0, w3 := ws.getD 3 0, d := d, seq := seq, cancelled := false, img := img }

/-- Enqueue a checked deal (R29, R184), or stall while the queue is full; DEAL is a .HD release (R30). -/
def dealEffect (s : State) (k : Core) (d a : R5) : State :=
  let ws := k.th.rx4 a
  let i := bits (ws.getD 0 0) 7 0
  let g := k.ref.group i
  let gr := groupOf s g
  if onHelper k i then
    if 4 ≤ gr.hqueue.length then stall s k (.deal d a)
    else released s k 0 fun s =>
      retireX (s.updGroup g fun x => { x with hqueue := x.hqueue ++ [dealOf ws x.hd x.hnext k.th.img], hnext := x.hnext + 1 }) k 1 d
        (zext64 gr.hnext)
  else if 64 ≤ gr.queue.length then stall s k (.deal d a)
  else released s k 0 fun s =>
    let s := s.updGroup g fun x =>
      { x with queue := x.queue ++ [dealOf ws x.pendD x.nextSeq k.th.img], nextSeq := x.nextSeq + 1,
               state := if bits (ws.getD 0 0) 11 11 = 1 then .closing else x.state }
    retireX s k 1 d (zext64 gr.nextSeq)

/-- The group state that a record of DEAL or DSET gives (R339); for an index above 15, which names no group, the code of UNSET. DESIGN
CHOICE (log entry 80). -/
def dealState (s : State) (k : Core) (i : Nat) : W64 :=
  if 15 < i then 0 else BitVec.ofNat 64 (groupOf s (k.ref.group i)).state.code

/-- DEAL (R28, R29, R184). -/
def execDeal (d a : R5) (s : State) : Res :=
  onCore s fun k =>
    match dealFault s k (k.th.rx a) with
    | some f => threadFault s k f 0 (k.th.rx a) (dealState s k (bits (k.th.rx a) 7 0))
    | none => dealEffect s k d a

/-- DEAL_STALL_RESUME: the thread stalled on a full queue enqueues once there is room (R29, R46). -/
def execDealStallResume (t : ThreadRef) (s : State) : Res :=
  match s.coreOf t with
  | some k =>
    match k.th.wait with
    | .deal d a => .next (if threadFree s t k.th then dealEffect s k d a else s)
    | _ => .next s
  | none => .next s

/-- DSET (R185): pending Dn becomes X[b]. -/
def execDset (n a b : R5) (s : State) : Res :=
  onCore s fun k =>
    let i := (k.th.rx a).toNat
    let g := k.ref.group i
    if 15 < i then threadFault s k .dealTarget 0 (k.th.rx a) 0
    else if onHelper k i then
      retire (s.updGroup g fun x => { x with hd := x.hd.set (n.toNat - 2) (k.th.rx b) }) k 1 id
    else if (groupOf s g).state ≠ .live then threadFault s k .dealTarget 0 (k.th.rx a) (BitVec.ofNat 64 (groupOf s g).state.code)
    else retire (s.updGroup g fun x => { x with pendD := x.pendD.set (n.toNat - 2) (k.th.rx b) }) k 1 id

/-! ### Shows (R38, R39, R186) -/

/-- SPOP takes the head show once there is one; until then the thread blocks (R39, R186). -/
def spopEffect (s : State) (k : Core) (d a c : R5) : State :=
  let i := (k.th.rx a).toNat
  let g := k.ref.group i
  let gr := groupOf s g
  let q := if onHelper k i then gr.hshows else gr.shows
  match q with
  | [] => stall s k (.spop d a c)
  | sh :: rest =>
    let s := s.updGroup g fun x => if onHelper k i then { x with hshows := rest } else { x with shows := rest }
    retire s k 1 fun th => th.wxs d (sh.take (c.toNat + 1))

/-- The group of SPOP and SPEEK is in range and not UNSET (R182, R186). -/
def showGroupOk (s : State) (k : Core) (i : Nat) : Bool :=
  i ≤ 15 && (onHelper k i || (groupOf s (k.ref.group i)).state ≠ .unset)

/-- SPOP (R186). -/
def execSpop (d a c : R5) (s : State) : Res :=
  onCore s fun k =>
    if showGroupOk s k (k.th.rx a).toNat then spopEffect s k d a c else threadFault s k .groupRange 0 (k.th.rx a) 0

/-- SPOP_RESUME: the blocked SPOP takes the show that has arrived (R39, R186). -/
def execSpopResume (t : ThreadRef) (s : State) : Res :=
  match s.coreOf t with
  | some k =>
    match k.th.wait with
    | .spop d a c => .next (if threadFree s t k.th then spopEffect s k d a c else s)
    | _ => .next s
  | none => .next s

/-- SPEEK (R186): it never blocks and removes nothing. -/
def execSpeek (d a c : R5) (s : State) : Res :=
  onCore s fun k =>
    let i := (k.th.rx a).toNat
    let gr := groupOf s (k.ref.group i)
    if showGroupOk s k i then
      match if onHelper k i then gr.hshows else gr.shows with
      | [] => retireX s k 1 d (BitVec.allOnes 64)
      | sh :: _ => retire s k 1 fun th => th.wxs d (sh.take (c.toNat + 1))
    else threadFault s k .groupRange 0 (k.th.rx a) 0

/-! ### The loop of a deal (R33, R344) -/

/-- S after the shift of R33; a deal that injects no more takes in 0. -/
def Run.nextS (r : Run) : BitVec 8 :=
  ((r.s <<< 1) &&& 0xFE) ||| (if r.inj < r.trip && !r.stopped && !r.pre then 1 else 0)

/-- The body's END has been passed: the next iteration or the deal's end follows. -/
def Run.atEnd (r : Run) : Bool := r.pc % 16 = 0

/-- No stage of the next iteration would be on. -/
def Run.drained (r : Run) : Bool := r.atEnd && r.nextS.toNat % 2 ^ r.blk.stages = 0

/-- The deal has ended: it is drained and not merely pre-empted with iterations left (R45). -/
def Run.ended (r : Run) : Bool := r.drained && (!r.pre || r.stopped || r.trip ≤ r.inj)

/-! ### Cancellation and status (R40, R187, R188) -/

/-- A deal that CANCEL's tag and mask name (R40): cancellable, and not already marked. -/
def dealMatches (v m : Nat) (x : Deal) : Bool :=
  bits x.w0 9 9 = 1 && !x.cancelled && (bits x.w0 23 16 &&& m) = (v &&& m)

/-- Mark the deals of a queue that have not started. -/
def markDeals (v m : Nat) (q : List Deal) : List Deal := q.map fun x => if dealMatches v m x then { x with cancelled := true } else x

/-- The deal of a run has started and CANCEL would stop it now. -/
def runMatches (v m : Nat) (r : Option Run) : Bool :=
  match r with | some r => r.started && !r.stopped && dealMatches v m r.deal | none => false

/-- CANCEL on one queue and its running deal: the head of the queue is the running deal (R29, R40). One that has not taken
its first slot will run no iteration. -/
def cancelQueue (v m : Nat) (q : List Deal) (r : Option Run) : List Deal × Option Run × Nat :=
  match r with
  | some x =>
    if x.started then
      let n := (q.drop 1).countP (dealMatches v m) + (if runMatches v m r then 1 else 0)
      (q.take 1 ++ markDeals v m (q.drop 1), some (if runMatches v m r then { x with stopped := true } else x), n)
    else
      let hit := match q with | d :: _ => dealMatches v m d | [] => false
      (markDeals v m q, some (if hit then { x with stopped := true, s := 0, pc := 0 } else x), q.countP (dealMatches v m))
  | none => (markDeals v m q, none, q.countP (dealMatches v m))

/-- CANCEL on one group of the thread's role; UNSET and CLOSED groups are skipped (R187). -/
def cancelGroup (k : Core) (v m : Nat) (acc : State × Nat) (i : Nat) : State × Nat :=
  let g := k.ref.group i
  let gr := groupOf acc.1 g
  if onHelper k i then
    let r := cancelQueue v m gr.hqueue gr.hrun
    (acc.1.updGroup g fun x => { x with hqueue := r.1, hrun := r.2.1 }, acc.2 + r.2.2)
  else if gr.state = .live || gr.state = .closing then
    let r := cancelQueue v m gr.queue gr.run
    (acc.1.updGroup g fun x => { x with queue := r.1, run := r.2.1 }, acc.2 + r.2.2)
  else acc

/-- CANCEL (R40, R187). -/
def execCancel (d a b : R5) (s : State) : Res :=
  onCore s fun k =>
    let sel := (List.range 16).filter fun i => (k.th.rx a).getLsbD i
    let r := sel.foldl (cancelGroup k (bits (k.th.rx b) 7 0) (bits (k.th.rx b) 15 8)) (s, 0)
    retireX r.1 k 1 d (BitVec.ofNat 64 r.2)

/-- QSTAT's word (R188); helper deals retire in order, so those before the queue's have retired (R296). -/
def qstatWord (gr : Group) (helper : Bool) : W64 :=
  let q := if helper then gr.hqueue else gr.queue
  let sh := if helper then gr.hshows else gr.shows
  let run := if helper then gr.hrun else gr.run
  let started := match run with | some r => r.started | none => false
  let last : BitVec 32 := if gr.state = .unset then 0 else if helper then gr.hnext - 1 - BitVec.ofNat 32 q.length else gr.lastRet
  BitVec.ofNat 64 (last.toNat * 2 ^ 32 + q.length % 256 * 2 ^ 24 + sh.length % 256 * 2 ^ 16 +
    gr.state.code * 2 ^ 14 + (if started then 2 ^ 13 else 0))

/-- QSTAT (R188). -/
def execQstat (d a : R5) (s : State) : Res :=
  onCore s fun k =>
    let i := (k.th.rx a).toNat
    if 15 < i then threadFault s k .groupRange 0 (k.th.rx a) 0
    else retireX s k 1 d (qstatWord (groupOf s (k.ref.group i)) (onHelper k i))

/-! ### Streams, spawning and exit (R190, R193-R195) -/

/-- MXGO (R190): exactly one of several starts the stream; the state of a stopped stream is discarded (R337). -/
def execMxgo (d a : R5) (s : State) : Res :=
  onCore s fun k => withTarget s k .matrix true (k.th.rx a) fun s =>
    if k.tm.stream.running && !k.tm.stream.stopped then retireX s k 1 d 0
    else released s k 0 fun s =>
      let s := s.updCtx k.tm.ctx fun c =>
        { c with unresolved := c.unresolved.map fun u => if u.agent = .stream k.ref.team then { u with dropped := true } else u }
      let s := s.updTeam k.ref.team fun t =>
        { t with stream := { State.emptyStream with running := true, img := k.th.img, pc := (k.th.rx a).toNat, owner := k.ref.role,
                                                    edis := edisOf s k.ctx, arrival := t.stream.arrival } }
      retireX s k 1 d 1

/-- SPAWN (R194): the weight is split, and a launch request goes to the front end, or the SPAWN stays unretired while the
event queue is full (R308). -/
def execSpawn (d a b : R5) (s : State) : Res :=
  onCore s fun k => withTarget s k .cc true (k.th.rx a) fun s =>
    let w := k.tm.wgt
    if w.toNat < 2 then threadFault s k .weightEmpty 0 w 0
    else if s.eventsFull then s
    else
      let c := w >>> 1
      let child : Waiting :=
        { launch := k.tm.launch, ctx := k.tm.ctx, img := k.th.img, entry := (k.th.rx a).toNat, x := [k.th.rx b, c], teamNo := none,
          gridpos := 0, wgt := c, wroot := k.tm.wroot, evstack := [], hands := nearHands s k.ref.hand k.tm.launch, batch := none,
          gang := false, out := none }
      released s k 3 fun s =>
        let s := s.updTeam k.ref.team fun t => { t with wgt := w - c, spawned := true }
        retireX { s with events := s.events ++ [.spawn child] } k 1 d c

/-- EXIT (R195): a pending COPY_FAULT first (R278); held locks are released as by LKREL (R256); the thread has ended, and an image
whose release waited for it goes (R349). -/
def execExit (s : State) : Res :=
  onCore s fun k =>
    match k.th.copyFaults with
    | c :: cs =>
      (threadFault s k .copyFault 0 (BitVec.ofNat 64 c.code) c.seq).updThread k.ref fun th => { th with copyFaults := cs }
    | [] =>
      match k.th.holds.keys.findSome? fun lk => bindStop s k.ref.hand (lockOf s lk) with
      | some ck => threadRefused s k ck 0 64 0
      | none => drained s k fun s =>
        let s := k.th.holds.keys.foldl (fun s lk => releaseLock s k lk) s
        let s := s.updThread k.ref fun th => { th with wait := .exited, holds := [] }
        let last := (teamThreads s k.ref.team).all fun t => match s.thread? t with | some th => th.wait = .exited | none => true
        let s := if last then s.updTeam k.ref.team fun t => { t with ending := true, lastRole := k.ref.role } else s
        releaseImages s k.tm.ctx

/-! ### Deques (R196-R198) -/

/-- DQPUSH (R196): the new bottom record carries the context's number. -/
def execDqpush (d a : R5) (s : State) : Res :=
  onCore s fun k =>
    if 256 ≤ (s.hand k.ref.hand).deque.length then retireX s k 1 d 0
    else released s k 2 fun s =>
      retireX (s.updHand k.ref.hand fun h => { h with deque := h.deque ++ [(k.tm.ctx, k.th.rx4 a)] }) k 1 d 1

/-- Remove the first record of a context from a list of records. -/
def takeRecord (c : Nat) : List (Nat × List W64) → Option (List W64 × List (Nat × List W64))
  | [] => none
  | r :: rs => if r.1 = c then some (r.2, rs) else (takeRecord c rs).map fun p => (p.1, r :: p.2)

/-- DQPOP (R196, R198): the bottommost record of the issuer's context. Where d is one of X[b] to X[b + 3], X[d] := 1 is the later write.
DESIGN CHOICE (log entry 104). -/
def execDqpop (d b : R5) (s : State) : Res :=
  onCore s fun k =>
    match takeRecord k.tm.ctx (s.hand k.ref.hand).deque.reverse with
    | none => retireX s k 1 d 0
    | some (ws, rest) =>
      let s := acquireAt (s.updHand k.ref.hand fun h => { h with deque := rest.reverse }) k.ref.hand 2
      retire s k 1 fun th => (th.wxs b ws).wx d 1

/-- Take the top record of the issuer's context from the first hand of a list that has one (R196, R198). -/
def stealFrom (s : State) (c : Nat) : List Nat → Option (State × List W64)
  | [] => none
  | h :: hs =>
    match takeRecord c (s.hand h).deque with
    | some (ws, rest) => some (s.updHand h fun x => { x with deque := rest }, ws)
    | none => stealFrom s c hs

/-- The victims of "any in cluster": the other enabled hands of the cluster that belong to the context, ascending (R196). -/
def clusterVictims (s : State) (c h : Nat) : List Nat :=
  (List.range 256).filter fun x => clusterOf x = clusterOf h && x ≠ h && s.enabled x && s.resident c x

/-- STEAL (R196). -/
def execSteal (d a b : R5) (s : State) : Res :=
  onCore s fun k =>
    let v := bits (k.th.rx a) 7 0
    let anyH := bits (k.th.rx a) 8 8 = 1
    let go (vs : List Nat) : State :=
      match stealFrom s k.tm.ctx vs with
      | none => retireX s k 1 d 0
      | some (s, ws) => retire (acquireAt s k.ref.hand 2) k 1 fun th => (th.wxs b ws).wx d 1
    if anyH then go (clusterVictims s k.tm.ctx k.ref.hand)
    else if !s.enabled v then threadFault s k .nodeAbsent (k.th.rx a) 0 0
    else if !s.resident k.tm.ctx v then threadFault s k .handOwner (k.th.rx a) 0 0
    else if dieOf v ≠ dieOf k.ref.hand then threadFault s k .stealRange 0 (k.th.rx a) 0
    else go [v]

/-! ### Yielding (R199) -/

/-- The threads of the thread's core whose decode slot a YIELD without barrier and limit waits for: the others of its hand (R199). -/
def siblings (s : State) (t : ThreadRef) : List ThreadRef :=
  (teamThreads s ⟨t.hand, 0⟩ ++ teamThreads s ⟨t.hand, 1⟩).filter fun r => r ≠ t

/-- YIELD (R199): from its retirement the thread waits, with its continuation, the barrier's phase and its limit. -/
def execYield (d a b : R5) (s : State) : Res :=
  onCore s fun k =>
    let phase := (barrierOf k.tm (bits (k.th.rx b) 4 0)).phase
    let left := 256 * bits (k.th.rx b) 31 16
    let wait (s : State) (cont : Nat) : State :=
      s.updThread k.ref fun th => { th with wait := .yield d cont (k.th.rx b) phase left, yields := siblings s k.ref }
    if k.th.rx a = 0 then wait s (k.next 1)
    else withTarget s k .cc false (k.th.rx a) fun s => wait s (k.th.rx a).toNat

/-- A thread takes decode slots: it stands at an instruction, first met or met again, and does not wait for what resumes it (R46). -/
def Thread.decodes (th : Thread) : Bool :=
  match th.wait with
  | .none => true
  | .cellDone .. => true
  | .cellFailed .. => true
  | .cpy => true
  | .emret => true
  | _ => false

/-- The thread has a decodable instruction: it takes slots, and nothing stops it (R46). -/
def decodable (s : State) (t : ThreadRef) : Bool :=
  match s.thread? t with
  | some th => th.decodes && threadFree s t th
  | none => false

/-- YIELD_RESUME: the first of the three events of R199 that occurs ends the wait, and X[d] records which: the limit has run out, or every
other thread with a decodable instruction has had its slot since. -/
def execYieldResume (t : ThreadRef) (why : YieldWhy) (s : State) : Res :=
  match s.coreOf t with
  | none => .next s
  | some k =>
    match k.th.wait with
    | .yield d cont b phase left =>
      let onBar := bits b 5 5 = 1
      let due := match why with
        | .phase => onBar && (barrierOf k.tm (bits b 4 0)).phase ≠ phase
        | .limit => bits b 31 16 ≠ 0 && left = 0
        | .round => !onBar && !(k.th.yields.any (decodable s))
      if due && threadFree s t k.th then
        .next (s.updThread t fun th => { (th.wx d (if why = .phase then 1 else 0)) with pc := cont, wait := .none, yields := [] })
      else .next s
    | _ => .next s

end Sys2Proof.Machine
end

