-- ==== Sys2Proof/Machine/SaveArea.lean ====
section
/-! DEFINITION. The save area of a context switch and of a checkpoint: R345 to R348. -/

namespace Sys2Proof.Machine

/-! ### Fields -/

/-- 64-bit fields in order. -/
def words64 (ws : List W64) : List Byte := ws.flatMap fun w => toBytes 8 w.toNat

/-- Numbers as fields of 8 bytes, for the places whose fields the manual lists without widths. DESIGN CHOICE (log entry 78). -/
def fields8 (ns : List Nat) : List Byte := ns.flatMap (toBytes 8)

/-- A segment register in 16 bytes (R117). -/
def Seg.bytes (g : Seg) : List Byte := toBytes 8 g.base.toNat ++ toBytes 8 (g.pol.toNat * 2 ^ 62 + g.limit.toNat)

/-- Bytes padded with zeros, or cut, to `n`. -/
def fit (n : Nat) (bs : List Byte) : List Byte := (bs ++ List.replicate n 0).take n

/-- `n` bytes for which the manual names nothing and gives no value (log entry 2). -/
def freeBytes (k o n : Nat) : List Byte := (List.range n).map fun i => Config.saveByte k (o + i)

/-- A resume point: image number in bits 63:32, code address in bits 29:0 (R347). -/
def codePoint (img pc : Nat) : Nat := img * 2 ^ 32 + pc % 2 ^ 30

/-! ### Hand and thread records (R346, R347) -/

/-- A hand record: the scratchpad's software area, then the context's deque records (R346). -/
def handRecord (s : State) (c h : Nat) : List Byte :=
  let x := s.hand h
  fit 0x400000 (Memory.read x.scratch 0 sysArea ++ ((x.deque.filter (·.1 = c)).flatMap fun r => fit 32 (words64 r.2)))

/-- The parked request of an agent is a fetch. -/
def parkedFetch (s : State) (a : Agent) : Bool := s.ctxs.any fun c => c.2.parked.any fun p => p.agent = a && p.fetch

/-- The wait state of a thread record (R347): a thread that a pre-emption has taken out of a wait keeps that wait's code. -/
def waitCode (s : State) (r : ThreadRef) (th : Thread) : Nat :=
  if held s (.thread r) then 1
  else
    match th.wait with
    | .spop .. => 2 | .barw .. => 3 | .yield .. => 4 | .lkacq .. => 5
    | .park => if parkedFetch s (.thread r) then 6 else 7
    | .cell _ => 8 | .cellDone .. => 8 | .cellFailed .. => 8
    | _ => th.was

/-- A thread record (R347). -/
def threadRecord (s : State) (r : ThreadRef) (th : Thread) (tm : Team) : List Byte :=
  let y : List Byte := match th.wait with
    | .yield _ _ b p n => toBytes 8 b.toNat ++ toBytes 8 n ++ toBytes 8 p.toNat
    | _ => List.replicate 24 0
  fit 1024 (toBytes 8 (waitCode s r th + if 0 < th.depth then 256 else 0) ++ toBytes 8 (codePoint th.img th.pc) ++
    words64 (th.x.toList.drop 1) ++ toBytes 4 th.fpx.toNat ++ toBytes 4 th.fpxmask.toNat ++ y ++ toBytes 8 th.depth ++
    words64 [th.epc, th.eopc, th.einfo, th.exa, th.exb, th.exd, th.egrp] ++ th.gseg.bytes ++ th.pseg.bytes ++ th.kseg.bytes ++
    th.lseg.bytes ++ toBytes 8 tm.evstack.length ++ tm.evstack.flatMap fun c => toBytes 8 c.2)

/-! ### Group records (R348) -/

/-- A queued deal in 96 bytes: the deal, D2 to D7, the sequence number (R348). -/
def dealBytes (d : Deal) : List Byte := fit 96 (words64 [d.w0, d.w1, d.w2, d.w3] ++ fit 48 (words64 d.d) ++ toBytes 4 d.seq.toNat)

/-- A tile in 4 KiB. -/
def tileBytes (t : Tile) : List Byte := t.full.flatMap fun w => toBytes 4 w.toNat

/-- The number within the group of the physical tile with a key. -/
def tileNumber (gr : Group) (key : Nat) : Nat := gr.units.idxOf (key % 256 / 8) * 8 + key % 8

/-- A landing entry: kind (0 tile, 1 pair, 2 mask), register, remaining positions, flags, active mask, data. -/
structure Landing where
  kind  : Nat
  num   : Nat
  r     : Nat
  flags : BitVec 6
  act   : Mask
  data  : List Byte
  deriving DecidableEq, Repr

/-- The landing entries of pending results; the second tile of a pair joins the first. -/
def landings (gr : Group) : List Pending → List Landing
  | [] => []
  | p :: ps =>
    match p.dst with
    | .tile key =>
      let rest := landings gr ps
      let one : Landing := ⟨0, tileNumber gr key, p.vis, p.flags, p.act, tileBytes p.data⟩
      match rest with
      | q :: qs =>
        if q.kind = 0 && one.num % 2 = 0 && q.num = one.num + 1 && q.r = one.r && (ps.head?.map (·.prod)) = some p.prod then
          { one with kind := 1, flags := one.flags ||| q.flags, data := one.data ++ q.data } :: qs
        else one :: rest
      | [] => [one]
    | .mask n => ⟨2, n, p.vis, p.flags, p.act, toBytes 128 p.bits.toNat⟩ :: landings gr ps
    | _ => landings gr ps

/-- A landing entry in 0x2400 bytes (R348). -/
def Landing.bytes (x : Landing) : List Byte :=
  fit 0x2400 (fit 64 (toBytes 2 (x.kind * 2 ^ 14 + x.num % 256) ++ toBytes 1 x.r ++ toBytes 1 x.flags.toNat) ++
    fit 960 (toBytes 128 x.act.toNat) ++ x.data)

/-- The landing entries of a group: those of its buffer where it is frozen, else of the results that are on their way (R36, R341). -/
def Group.landings (gr : Group) : List Landing :=
  Machine.landings gr (if gr.frozen then gr.landing else gr.coming.map fun p => { p with vis := p.vis - gr.pos })

/-- Outstanding operations of the group that count on token `t`. -/
def Group.waits (gr : Group) (t : Nat) : Nat := gr.outst.countP fun o => o.tok = some t && !o.done

/-- k of R33: within an iteration the model has counted it already. -/
def Run.count (r : Run) : Nat := if r.atEnd then r.k else r.rot

/-- The head of a group record: the fields that R348 lists for offset 0. -/
def groupHead (g : GroupRef) (gr : Group) : List Byte :=
  let run (f : Run → Nat) : Nat := match gr.run with | some r => f r | none => 0
  fields8 [g.idx, gr.lg, gr.state.code, gr.units.length,
    (match gr.queue with | d :: _ => d.seq.toNat | [] => 0), (gr.nextSeq - 1).toNat, gr.lastRet.toNat,
    run Run.count, run (·.inj), run (·.trip), run fun r => r.s.toNat, run (·.rot),
    (if gr.frozen then 1 else 0) + run (fun r => if r.drained then 2 else 0), gr.landings.length, run fun r => codePoint r.deal.img r.pc]

/-- A group record, followed by the group's tiles (R348). -/
def groupRecord (s : State) (g : GroupRef) (gr : Group) : List Byte :=
  let d := match gr.run with | some r => r.d | none => [0, 0] ++ gr.pendD
  fit 0x12000 (fit 256 (groupHead g gr) ++ fit 64 (words64 d) ++ fit 1920 ((gr.m.drop 1).flatMap fun m => toBytes 128 m.toNat) ++
      fit 64 (((List.range 8).flatMap fun t => toBytes 1 (gr.waits t)) ++ toBytes 4 gr.fpx.toNat ++ toBytes 4 gr.swapThr.toNat ++
        words64 gr.pendD) ++
      gr.gseg.bytes ++ gr.pseg.bytes ++ gr.kseg.bytes ++ gr.lseg.bytes ++
      fit 6144 (gr.queue.flatMap dealBytes) ++ fit 2048 (gr.shows.flatMap words64) ++
      fit 0x16C0 (fit 384 (gr.hqueue.flatMap dealBytes) ++ fit 256 (gr.hshows.flatMap words64) ++ fit 48 (words64 gr.hd)) ++
      gr.landings.flatMap Landing.bytes) ++
    gr.units.flatMap fun u => (List.range 8).flatMap fun i => tileBytes (tileAt s g.hand (physKey gr.lg (u * 8 + i)))

/-! ### Team areas (R346) -/

/-- An entry of the tag table in 8 bytes (R346). -/
def tagBytes (e : TagEntry) : List Byte :=
  toBytes 8 (e.key % 2 ^ 52 / 256 * 256 + (if e.dirty then 2 else 0) + if e.valid then 1 else 0)

/-- A ring descriptor in 16 bytes: base, z, N, h, t. -/
def Ring.bytes (r : Ring) : List Byte := toBytes 4 r.base ++ toBytes 2 r.z ++ toBytes 2 r.n ++ toBytes 4 r.h.toNat ++ toBytes 4 r.t.toNat

/-- The state of a stream as the save area holds it: 0 stopped by no program, 1 running, 2 stopped by a fault. DESIGN CHOICE (log
entry 78). -/
def Stream.code (x : Stream) : Nat := if !x.running then 0 else if x.stopped then 2 else 1

/-- A GATH record that the gather unit has accepted, in 8 bytes (log entry 78). -/
def Gather.bytes (g : Gather) : List Byte := toBytes 1 g.ring ++ toBytes 1 g.fmt ++ fit 6 (toBytes 4 g.off)

/-- A queued copy command in 32 bytes: its words, its role, the argument record's address, the code address (log entry 78). -/
def Copy.bytes (x : Copy) : List Byte :=
  let ws := match x.cmd with | some i => wordsOf i | none => []
  fit 12 (ws.flatMap fun w => toBytes 4 w.toNat) ++ toBytes 4 x.role ++ toBytes 8 x.arg.toNat ++
    toBytes 8 (codePoint x.img (match x.chain with | some c => c.pc | none => x.pc))

/-- The bytes 0 to 0x3FF of a team header (R346). -/
def teamHead (s : State) (k o : Nat) (t : TeamRef) (tm : Team) : List Byte :=
  fit 256 (fields8 [tm.teamNo.toNat, tm.gridpos.toNat, tm.wgt.toNat, tm.wroot.toNat, t.slot, tm.tagCfg.toNat, tm.sliceLeft]) ++
    ((List.range 8).flatMap fun n => (ringOf tm n).bytes) ++
    fit 128 (fields8 [codePoint tm.stream.img tm.stream.pc, tm.stream.code, tm.stream.fpx.toNat, tm.accBudget] ++
      ((s.hand t.hand).gather.filter (·.slot = t.slot)).flatMap Gather.bytes) ++
    freeBytes k o 0x200

/-- A team area (R346). -/
def teamArea (s : State) (k : Nat) (t : TeamRef) (tm : Team) : List Byte :=
  let o := 2 ^ 40 + teamKey t * 2 ^ 16
  let share : TagEntry := ⟨false, false, 0⟩
  let queued := ((s.hand t.hand).near ++ (s.hand t.hand).bulk).filter fun x => x.slot = t.slot && !x.issued
  teamHead s k o t tm ++ ((List.range 32).flatMap fun n => (barrierOf tm n).bytes) ++ fit 0x800 (queued.flatMap Copy.bytes) ++
    freeBytes k (o + 0x200) 0x7000 ++
    ((List.range 4096).flatMap fun i => tagBytes (tm.tags.getD i share)) ++
    ((List.range 4).flatMap fun r => match s.thread? ⟨t.hand, t.slot, r⟩ with
      | some th => threadRecord s ⟨t.hand, t.slot, r⟩ th tm
      | none => List.replicate 1024 0) ++
    ((teamGroups s t).flatMap fun g => match s.group? g with
      | some gr => if gr.state = .unset then [] else groupRecord s g gr
      | none => []) ++
    (List.range tm.accBudget).flatMap fun a => fit 16384 ((tm.acc.getD a []).flatMap fun w => toBytes 4 w.toNat)

/-! ### Writing it (R345) -/

/-- Items from `a` on, each 64 KiB-aligned: their addresses. -/
def layOut (a : Nat) : List (List Byte) → List (Nat × List Byte)
  | [] => []
  | b :: bs => (a, b) :: layOut (a + (b.length + 65535) / 65536 * 65536) bs

/-- Bytes reach the home past every cache; their poison goes (R144). -/
def homePut (s : State) (p : Nat × List Byte) : State :=
  { s with mem := Memory.write s.mem p.1 p.2, poison := s.poison.filter fun u => !(p.1 / 64 ≤ u && u < (p.1 + p.2.length) / 64) }

/-- The save area of some hands and teams of a context is written, at the device physical address of the context's entry (R360): a record
for each hand, an area for each team (R346). -/
def writeSaveOf (s : State) (c : Nat) (hs : List Nat) (ts : List TeamRef) : State :=
  let (k, s) := s.draw
  let items := hs.map (handRecord s c) ++ ts.map fun t => match s.team? t with | some tm => teamArea s k t tm | none => []
  let parts := layOut (ctxField s c 48 8) items
  settleHomes (parts.flatMap fun p => (List.range (p.2.length / 128 + 2)).map fun i => alignDown (p.1 + 128 * i) 128) (parts.foldl homePut s)

/-- Step 5 of R345: the hands where the context holds something, and its teams, those too that a time slice has put off. -/
def writeSave (s : State) (c : Nat) : State := writeSaveOf s c (heldHands s c) (teamsOf s c)

/-- The first thread of some teams whose buffered stores cannot all perform now, with the store and why (R161, R372, R374). -/
def teamsDrainStop (s : State) (ts : List TeamRef) : Option (Core × Store × Chk) :=
  ts.findSome? fun t => (teamThreads s t).findSome? fun r => (s.coreOf r).bind fun k => (drainStop s k).map fun x => (k, x)

/-- The stores that the threads of some teams buffer perform, as a switch or a checkpoint writes back what is dirty (R290, R345). -/
def drainTeams (s : State) (ts : List TeamRef) : State :=
  ts.foldl (fun s t => (teamThreads s t).foldl (fun s r => match s.coreOf r with | some k => drain s k | none => s) s) s

/-- What keeps the buffered stores of some teams from performing acts: a die's refusal parks the thread, once (R374). -/
def drainRefused (s : State) (x : Core × Store × Chk) : State :=
  if isParked s (.thread x.1.ref) then s else storeRefused s x.1 x.2.1 x.2.2

/-- The context's state is saved: its stores perform, what is dirty reaches its home, and the save area is written (R290 step 4, R345). -/
def saveNow (s : State) (c : Nat) : State := writeSave (flushAll (drainTeams s (teamsOf s c))) c

end Sys2Proof.Machine
end

