-- ==== Sys2Proof/Machine/System.lean ====
section
/-! DEFINITION. System registers, tag-table and ring operations by MTS, traps, halting, checkpoints and segments:
R125, R240, R263, R283-R291. -/

namespace Sys2Proof.Machine

/-! ### The register map (R284) -/

/-- The number is assigned. -/
def regAssigned (n : Nat) : Bool :=
  n ≤ 0x17 || (0x20 ≤ n && n ≤ 0x24) || (0x30 ≤ n && n ≤ 0x40) || (0x50 ≤ n && n ≤ 0x5B) || n = 0x60 || n = 0x61 || n = 0x70

/-- The register is read-only. -/
def regReadOnly (n : Nat) : Bool :=
  n ≤ 3 || (8 ≤ n && n ≤ 0x17) || n = 0x22 || n = 0x24 || n = 0x56 || n = 0x57 || n = 0x60 || n = 0x61

/-- A write of the register is privileged. -/
def regPrivileged (n : Nat) : Bool := n = 6 || n = 7 || (0x50 ≤ n && n ≤ 0x54) || n = 0x70

/-- The register is accessible only while the thread runs a handler. -/
def regHandler (n : Nat) : Bool := 0x55 ≤ n && n ≤ 0x5B

/-- HANDPOS (R285). -/
def handpos (t : ThreadRef) : W64 := BitVec.ofNat 64 (t.slot % 2 * 256 + t.hand % 256)

/-- CKPTSEQ (R287). -/
def ckptSeq (c : Ctx) : W64 := BitVec.ofNat 64 ((if c.ckptValid then 2 ^ 63 else 0) + c.ckptCount % 2 ^ 63)

/-- The value that a read of an assigned register gives (R284-R287). -/
def sysRead (s : State) (k : Core) (n : Nat) : W64 :=
  match n with
  | 0x00 => BitVec.ofNat 64 k.ref.role
  | 0x01 => zext64 k.tm.teamNo
  | 0x02 => handpos k.ref
  | 0x03 => k.tm.gridpos
  | 0x04 => zext64 k.th.fpx
  | 0x05 => zext64 k.th.fpxmask
  | 0x06 => k.tm.wgt
  | 0x07 => k.tm.wroot
  | 0x08 => BitVec.ofNat 64 k.tm.evstack.length
  | 0x20 => k.tm.tagCfg
  | 0x21 => k.tm.ttop
  | 0x22 => k.tm.ttres
  | 0x23 => k.tm.rgop
  | 0x24 => k.tm.rgres
  | 0x40 => zext64 k.tm.stream.fpx
  | 0x50 => k.ctx.eht
  | 0x51 => k.th.esave
  | 0x52 => edisOf s k.ctx
  | 0x53 => k.ctx.depcnt
  | 0x54 => k.ctx.deplim
  | 0x55 => k.th.epc
  | 0x56 => k.th.eopc
  | 0x57 => k.th.einfo
  | 0x58 => k.th.exa
  | 0x59 => k.th.exb
  | 0x5A => k.th.exd
  | 0x5B => k.th.egrp
  | 0x60 => ckptSeq k.ctx
  | 0x61 => k.ctx.cklog
  | 0x70 => k.ctx.ptroot
  | _ =>
    if 9 ≤ n && n ≤ 0x17 then BitVec.ofNat 64 (k.tm.evstack.getD (n - 9) (0, 0)).2
    else if 0x30 ≤ n && n ≤ 0x3F then
      let g := groupOf s (k.ref.group (n - 0x30))
      if g.state = .unset then 0 else zext64 g.fpx
    else 0

/-- MFS (R283): an unassigned number is reserved-field; a handler register outside a handler is EMU_STATE. -/
def execMfs (d : R5) (r : BitVec 16) (s : State) : Res :=
  onCore s fun k =>
    if !regAssigned r.toNat then threadCause s k .reservedField (wordsOf (.mfs d r)) (some (.mfs d r))
    else if regHandler r.toNat && k.th.depth = 0 then threadFault s k .emuState 0 (encDetail (.mfs d r)) 0
    else retireX s k 1 d (sysRead s k r.toNat)

/-! ### Writes -/

/-- A write of TTCFG by a thread (R125). -/
def mtsTtcfg (s : State) (k : Core) (i : Instr) (v : W64) : State :=
  if ttcfgReserved v then threadCause s k .reservedField (wordsOf i) (some i)
  else retire (s.updTeam k.ref.team fun t => ttcfgEffect t v) k 1 id

/-- A TTOP operation by a thread (R240): one tag-table operation; TTRES receives its result. -/
def mtsTtop (s : State) (k : Core) (i : Instr) (op : Nat) (v : W64) : State :=
  if ttopReserved v then threadCause s k .reservedField (wordsOf i) (some i)
  else
    let r := ttopEffect k.tm op v
    retire (s.updTeam k.ref.team fun _ => { r.1 with ttop := v, ttres := r.2 }) k 1 id

/-- An RGOP operation by a thread (R263): operation 1 advances the tail, a .HD release; RGRES receives the counters. -/
def mtsRgop (s : State) (k : Core) (i : Instr) (op : Nat) (v : W64) : State :=
  if rgopReserved v then threadCause s k .reservedField (wordsOf i) (some i)
  else
    let n := bits v 2 0
    let c := bits v 31 16
    let r := ringOf k.tm n
    match if op = 1 then advanceFault r c else if r.valid then none else some .ringUninit with
    | some f => threadFault s k f 0 (BitVec.ofNat 64 n) (BitVec.ofNat 64 c)
    | none =>
      let s := if op = 1 then threadRelease s k 0 else s
      let r' := if op = 1 then { r with t := r.t + BitVec.ofNat 32 c } else r
      retire (s.updTeam k.ref.team fun t => { updRing t n (fun _ => r') with rgop := v, rgres := rgresOf r' }) k 1 id

/-- A write of GFPXn (R286): ignored for a group that is UNSET. -/
def mtsGfpx (s : State) (k : Core) (n : Nat) (v : W64) : State :=
  retire (s.updGroup (k.ref.group n) fun g => if g.state = .unset then g else { g with fpx := v.setWidth 6 }) k 1 id

/-- A write of SFPX (R286). -/
def mtsSfpx (s : State) (k : Core) (v : W64) : State :=
  retire (s.updTeam k.ref.team fun t => { t with stream := { t.stream with fpx := v.setWidth 6 } }) k 1 id

/-- A window whose handler names group index `i`: from the first write on, the group takes helper deals for it (R296). -/
def Window.name (w : Window) (i : Nat) : Window :=
  { w with egrp := BitVec.ofNat 64 i, groups := if w.groups.contains i then w.groups else w.groups ++ [i] }

/-- A group that the handler names for the first time has empty helper queues and its own D2-D7; one that it has named keeps its helper
deals (R296). -/
def nameHelper (s : State) (g : GroupRef) (w : Window) : State :=
  if w.groups.contains g.idx then s else s.updGroup g fun x => { x with hd := x.pendD, hnext := 1, hqueue := [], hshows := [] }

/-- A write of EGRP (R296): ignored for a lane cause, the index of a LIVE group for a matrix cause, reserved-field
otherwise. A handler that names one group after another has helper deals on each of them until it returns. DEDUCED (log entry 20). -/
def mtsEgrp (s : State) (k : Core) (i : Instr) (v : W64) : State :=
  match k.th.windows.head? with
  | some w =>
    match w.cause.engine with
    | .lane => retire s k 1 id
    | .matrix =>
      if v.toNat ≤ 15 && (groupOf s (k.ref.group v.toNat)).state = .live then
        retire (nameHelper s (k.ref.group v.toNat) w) k 1 fun th =>
          { th with egrp := v, windows := match th.windows with | w :: ws => w.name v.toNat :: ws | [] => [] }
      else retire s k 1 id
    | _ => threadCause s k .reservedField (wordsOf i) (some i)
  | none => threadCause s k .reservedField (wordsOf i) (some i)

/-- The effect of a write of an assigned, writable register (R284-R287). -/
def sysWrite (s : State) (k : Core) (i : Instr) (n : Nat) (v : W64) : State :=
  let ctx (f : Ctx → Ctx) : State := retire (s.updCtx k.tm.ctx f) k 1 id
  let team (f : Team → Team) : State := retire (s.updTeam k.ref.team f) k 1 id
  match n with
  | 0x04 => retire s k 1 fun th => { th with fpx := v.setWidth 6 }
  | 0x05 => retire s k 1 fun th => { th with fpxmask := v.setWidth 6 }
  | 0x06 => team fun t => { t with wgt := v }
  | 0x07 => team fun t => { t with wroot := v &&& ~~~7 }
  | 0x20 => mtsTtcfg s k i v
  | 0x21 => mtsTtop s k i (bits v 7 5) v
  | 0x23 => mtsRgop s k i (bits v 4 4) v
  | 0x40 => mtsSfpx s k v
  | 0x50 => ctx fun c => { c with eht := v &&& ~~~63 }
  | 0x51 => retire s k 1 fun th => { th with esave := v &&& ~~~63 }
  | 0x52 => ctx fun c => { c with edis := (v &&& 0xFF) ||| if s.weave.devNum.isNone then c.edis &&& 1 else 0 }
  | 0x53 => ctx fun c => { c with depcnt := v }
  | 0x54 => ctx fun c => { c with deplim := v }
  | 0x55 => retire s k 1 fun th => { th with epc := v }
  | 0x58 => retire s k 1 fun th => { th with exa := v }
  | 0x59 => retire s k 1 fun th => { th with exb := v }
  | 0x5A => retire s k 1 fun th => { th with exd := v }
  | 0x5B => mtsEgrp s k i v
  | 0x70 => ctx fun c => { c with ptroot := v }
  | _ => if 0x30 ≤ n && n ≤ 0x3F then mtsGfpx s k (n - 0x30) v else retire s k 1 id

/-- MTS (R283): unassigned and read-only are reserved-field, then PRIV, then EMU_STATE. -/
def execMts (a : R5) (r : BitVec 16) (s : State) : Res :=
  onCore s fun k =>
    let i : Instr := .mts a r
    if !regAssigned r.toNat || regReadOnly r.toNat then threadCause s k .reservedField (wordsOf i) (some i)
    else if regPrivileged r.toNat && !k.ctx.privileged then threadFault s k .priv 0 (encDetail i) 0
    else if regHandler r.toNat && k.th.depth = 0 then threadFault s k .emuState 0 (encDetail i) 0
    else sysWrite s k i r.toNat (k.th.rx a)

/-- TTCFG_WRITE (R125): `MTS TTCFG, Xa`. -/
def execTtcfgWrite (a : R5) (s : State) : Res := onCore s fun k => mtsTtcfg s k (.mts a 0x20) (k.th.rx a)
/-- `MTS TTOP, Xa` with a row's operation (R240). -/
def ttopRow (op : Nat) (a : R5) (s : State) : Res := onCore s fun k => mtsTtop s k (.mts a 0x21) op (k.th.rx a)
/-- TTOP_LOOKUP (R240). -/
def execTtopLookup (a : R5) (s : State) : Res := ttopRow 0 a s
/-- TTOP_INS (R240). -/
def execTtopIns (a : R5) (s : State) : Res := ttopRow 1 a s
/-- TTOP_INSD (R240). -/
def execTtopInsd (a : R5) (s : State) : Res := ttopRow 2 a s
/-- TTOP_EVC (R240). -/
def execTtopEvc (a : R5) (s : State) : Res := ttopRow 3 a s
/-- TTOP_SETD (R240). -/
def execTtopSetd (a : R5) (s : State) : Res := ttopRow 4 a s
/-- TTOP_CLRD (R240). -/
def execTtopClrd (a : R5) (s : State) : Res := ttopRow 5 a s
/-- TTOP_INVALIDATE (R240). -/
def execTtopInvalidate (a : R5) (s : State) : Res := ttopRow 6 a s
/-- RGOP_READ (R263): `MTS RGOP, Xa` with operation 0. -/
def execRgopRead (a : R5) (s : State) : Res := onCore s fun k => mtsRgop s k (.mts a 0x23) 0 (k.th.rx a)
/-- RGOP_ADVANCE (R263): `MTS RGOP, Xa` with operation 1. -/
def execRgopAdvance (a : R5) (s : State) : Res := onCore s fun k => mtsRgop s k (.mts a 0x23) 1 (k.th.rx a)
/-- GFPX_WRITE (R286): `MTS GFPXn, Xa` or `MTS SFPX, Xa`. -/
def execGfpxWrite (a : R5) (r : BitVec 16) (s : State) : Res :=
  onCore s fun k => if r = 0x40 then mtsSfpx s k (k.th.rx a) else mtsGfpx s k (r.toNat % 16) (k.th.rx a)

/-! ### Traps, breakpoints, halting (R288, R289) -/

/-- An event that stops the thread at its instruction and resumes at next (R288, R289). -/
def trapThread (s : State) (k : Core) (code : FaultCode) (d1 : W64) : State :=
  (threadFault s k code 0 d1 0).updThread k.ref fun th => { th with pc := k.next 1 }

/-- TRAP (R288). -/
def execTrap (i : BitVec 16) (s : State) : Res := onCore s fun k => trapThread s k .trap (zext64 i)
/-- BRK (R289). -/
def execBrk (s : State) : Res := onCore s fun k => trapThread s k .break_ 0
/-- HALT (R289, privileged): the context is removed with status HALT. -/
def execHalt (s : State) : Res := onCore s fun k => privileged s k .halt (removeCtx s k.tm.ctx 3 0)

/-! ### Checkpoints (R290) -/

/-- A deal stands at a boundary of R45: none runs, it has run to its end, or it drains for a pre-emption and has drained. -/
def runQuiet : Option Run → Bool
  | none => true
  | some r => r.ended || (r.pre && r.drained)

/-- A cause of the group's helper deal waits for its handler (R296). -/
def helperWaits (th : Thread) (g : GroupRef) : Bool := th.causes.any fun c => c.helper && c.cause ≠ .deprecated && c.group = some g.idx

/-- A group can be saved (R45, R299, R343): its operations are done, its deal stands at a boundary or is frozen, and so does its helper
deal, which a cause stops as a freeze does. -/
def groupQuiet (s : State) (g : GroupRef) : Bool :=
  let gr := groupOf s g
  let stopped := match s.thread? g.owner with | some th => helperWaits th g | none => false
  gr.outst.all (·.done) && (gr.frozen || runQuiet gr.run) && (stopped || runQuiet gr.hrun)

/-- The gather unit of a hand gets no further with its head GATH until its team goes on: the team's stream is parked, or the GATH waits for
room in its ring (R267, R350). -/
def gatherStuck (s : State) (h : Nat) : Bool :=
  match (s.hand h).gather with
  | [] => true
  | g :: _ =>
    isParked s (.stream ⟨h, g.slot⟩) ||
      match s.team? ⟨h, g.slot⟩ with
      | some tm => g.record.isSome && (ringOf tm g.ring).n ≤ (ringOf tm g.ring).occ
      | none => true

/-- A team stands where it can be saved (R45, R258, R343, R345 steps 1 to 3): no copy of it is in flight, and no GATH of it that can
complete. Of a GATH that waits for room or for a page, R258 says that it completes first and R346 that it is saved; it is saved, since the
stopped stream would never let it complete. DEDUCED (log entry 110). -/
def teamQuiet (s : State) (t : TeamRef) : Bool :=
  ((teamGroups s t).all (groupQuiet s)) &&
    (((s.hand t.hand).near ++ (s.hand t.hand).bulk).all fun x => x.slot ≠ t.slot || !x.issued) &&
    (((s.hand t.hand).gather.all fun x => x.slot ≠ t.slot) || gatherStuck s t.hand) &&
    (match s.team? t with | some tm => tm.stream.mma.isNone | none => true)

/-- Every team of the context that stands on a hand can be saved (R290 steps 2 and 3, R345). -/
def ctxQuiet (s : State) (c : Nat) : Bool := (onHands s c).all (teamQuiet s)

/-- A chain whose first command has been fetched, or a direct command that has issued, is in flight. -/
def Copy.flying (x : Copy) : Bool := match x.chain with | some c => !c.fresh | none => x.issued

/-- An emulation cause has stopped the chain (R73). -/
def Copy.caused (x : Copy) : Bool := match x.chain with | some c => c.caused | none => false

/-- The entries of a near queue that complete without a handler: all but a chain that waits for its emulation cause and what has not begun
behind it (R73, R274). -/
def goingCopies (q : List Copy) : List Copy :=
  q.filter fun x => !x.caused && (x.flying || (q.takeWhile fun y => y.id ≠ x.id).all fun y => !y.caused)

/-- Every copy of the context has completed, those that wait in a queue too (R290 step 3); a chain that waits for its emulation cause, and
what stands behind it, stay (R73). -/
def copiesDone (s : State) (c : Nat) : Bool :=
  (onHands s c).all fun t =>
    ((s.hand t.hand).bulk.all fun x => x.ctx ≠ c) && (goingCopies (s.hand t.hand).near).all fun x => x.ctx ≠ c

/-- A pre-emption asks a deal flagged for it to drain (R45), or lets the deal go on with S = 0 (R344). -/
def Run.preempt (on : Bool) (r : Run) : Run :=
  if on then (if bits r.deal.w0 10 10 = 1 then { r with pre := true } else r)
  else { r with pre := false, s := if r.pre && r.drained then 0 else r.s }

/-- Ask a group to stop at its next iteration boundary, its helper deal too (R45), or let it go on (R344). -/
def preemptGroup (on : Bool) (x : Group) : Group :=
  { x with preempt := on, run := x.run.map (Run.preempt on), hrun := x.hrun.map (Run.preempt on) }

/-- The same for every group of a context. -/
def preemptGroups (s : State) (c : Nat) (on : Bool) : State :=
  (teamsOf s c).foldl (fun s t => (teamGroups s t).foldl (fun s g => s.updGroup g (preemptGroup on)) s) s

/-- The code of R347 for a wait that a pre-emption ends. -/
def Wait.saved : Wait → Nat
  | .lkacq .. => 5
  | .cell _ => 8
  | .cellDone .. => 8
  | _ => 0

/-- A thread stops at its boundary (R45): it leaves the wait tables and the lock queues, and issues the instruction again on resume
(R248, R255); a failed cell's fault stays due (R170). -/
def stopThread (s : State) (r : ThreadRef) : State :=
  let s := s.updThread r fun th =>
    { th with preempt := true, was := if th.preempt && th.wait.saved = 0 then th.was else th.wait.saved,
              wait := (match th.wait with | .cell _ => .none | .cellDone .. => .none | .lkacq .. => .none | w => w) }
  { s with waiters := s.waiters.filter fun w => w.2 ≠ .thread r,
           locks := s.locks.map fun (p : Nat × Lock) => (p.1, { p.2 with queue := p.2.queue.filter fun q => q ≠ r }) }

/-- A pre-empted thread goes on. -/
def resumeThread (s : State) (r : ThreadRef) : State := s.updThread r fun th => { th with preempt := false, was := 0 }

/-- Stop every thread of a context but one, or let them go on. -/
def preemptThreads (s : State) (c : Nat) (on : Bool) (but : Option ThreadRef) : State :=
  (teamsOf s c).foldl (fun s t => (teamThreads s t).foldl (fun s r =>
    if some r = but then s else if on then stopThread s r else resumeThread s r) s) s

/-- CKPT (R290): while the context's groups and copies have not stopped, or a buffered store of it cannot perform, it waits; then the
context is saved and everything dirty is written back, the log is emptied, and the state is kept as it stands once CKPT has retired (log
entry 13). -/
def execCkpt (d : R5) (s : State) : Res :=
  onCore s fun k =>
    if k.ctx.cklog = 0 then retireX s k 1 d 0
    else if !ctxQuiet s k.tm.ctx || !copiesDone s k.tm.ctx then
      preemptThreads (preemptGroups s k.tm.ctx true) k.tm.ctx true (some k.ref)
    else
      match teamsDrainStop s (teamsOf s k.tm.ctx) with
      | some x => drainRefused s x
      | none =>
      let n := k.ctx.ckptCount + 1
      let s := saveNow (threadRelease s k 3) k.tm.ctx
      let s := s.updCtx k.tm.ctx fun c =>
        { c with undo := [], undoBytes := 0, ckptValid := true, ckptCount := n, rolledBack := false }
      let s := preemptThreads (preemptGroups (retireX s k 1 d (BitVec.ofNat 64 (n % 2 ^ 63))) k.tm.ctx false) k.tm.ctx false none
      let v := saveCtx s k.tm.ctx
      s.updCtx k.tm.ctx fun c => { c with saved := some v }

/-! ### Segments (R117, R291) -/

/-- The value of a segment register, or none where a reserved field is set or the policy is reserved (R117). -/
def segOf (seg : Nat) (lo hi : W64) : Option Seg :=
  if bits hi 63 62 ≤ 1 && bits hi 61 53 = 0 && (seg ≠ 1 || bits lo 63 22 = 0) then
    some { base := lo, limit := hi.setWidth 53, pol := hi.extractLsb' 62 2 }
  else none

/-- SETSEG (R291, privileged). The manual does not order the reserved fields of the register's value against PRIV and GROUP_RANGE: they come
last. DESIGN CHOICE (log entry 83). -/
def execSetseg (t : BitVec 1) (g : BitVec 2) (a b : R5) (s : State) : Res :=
  onCore s fun k => privileged s k (.setseg t g a b) <|
    let i := (k.th.rx b).toNat
    if t = 1 && (15 < i || (groupOf s (k.ref.group i)).state = .unset) then threadFault s k .groupRange 0 (k.th.rx b) 0
    else
      match segOf g.toNat (k.th.rx a) (k.th.rx (a + 1)) with
      | none => threadCause s k .reservedField (wordsOf (.setseg t g a b)) (some (.setseg t g a b))
      | some v =>
        if t = 0 then
          retire s k 1 fun th =>
            match g.toNat with
            | 0 => { th with gseg := v } | 1 => { th with pseg := v } | 2 => { th with kseg := v } | _ => { th with lseg := v }
        else
          retire (s.updGroup (k.ref.group i) fun x =>
            match g.toNat with
            | 0 => { x with gseg := v } | 1 => { x with pseg := v } | 2 => { x with kseg := v } | _ => { x with lseg := v }) k 1 id

end Sys2Proof.Machine
end

