-- ==== Sys2Proof/Machine/Deals.lean ====
section
/-! DEFINITION. How a lane group runs its deals: the start of a deal and its block, the iterations, retirement, results that
become visible, deferred faults and swaps: R32-R37, R40-R43, R45, R53, R227, R296, R344. -/

namespace Sys2Proof.Machine

/-! ### Blocks (R32, R53) -/

/-- The three words of a block descriptor. -/
def blockOf (w0 w1 w2 : Nat) : Block :=
  { entry := w0 % 2 ^ 26, stages := w1 / 2 ^ 24 % 16, rotSize := w1 / 2 ^ 17 % 128, rotBase := w1 / 2 ^ 11 % 64,
    budget := w1 / 2 ^ 4 % 128, win := w2 % 2 = 1,
    bad := w0 / 2 ^ 26 ≠ 0 || w1 / 2 ^ 28 ≠ 0 || w1 % 16 ≠ 0 || w2 / 2 ≠ 0 }

/-- The checks of R32 on an allocation of `tiles` tiles; a window block's rotation region stays below V60 (R296). -/
def blockFits (b : Block) (tiles : Nat) : Bool :=
  b.budget ≤ tiles && b.rotBase + b.rotSize ≤ b.budget && 1 ≤ b.stages && b.stages ≤ 8 && (!b.win || b.rotBase + b.rotSize ≤ 60)

/-- The descriptor that a deal's block index names, with word 1 (R53). -/
def readBlock (s : State) (h c : Nat) (im : Image) (i : Nat) : State × Chk × Block × W32 :=
  match imageRead s h c (im.base.toNat + 64 * (im.blockFirst + i / 5) + 4 + 12 * (i % 5)) 12 with
  | (s, ck, bs) =>
    let w (n : Nat) : W32 := wordOfBytes (bs.drop (4 * n))
    (s, ck, blockOf (w 0).toNat (w 1).toNat (w 2).toNat, w 1)

/-! ### The start of a deal (R31, R32, R36, R40) -/

/-- A block that runs no iteration: the deal has trip count 0 or was cancelled before it started (R40). -/
def noBlock : Block := { entry := 0, stages := 1, rotSize := 0, rotBase := 0, budget := 0, win := false, bad := false }

/-- The run that a deal begins with (R31, R33); its segment registers are those of the group (R291). -/
def runOf (gr : Group) (d : Deal) (b : Block) (edis : W64) : Run :=
  { deal := d, blk := b, k := 0, inj := 0, trip := bits d.w0 47 24, s := 0, rot := 0, pc := 0, idx := 0, stopped := d.cancelled,
    pre := false, started := false, shows := 0, m0 := d.w1, d := [d.w2, d.w3] ++ d.d, gseg := gr.gseg, pseg := gr.pseg,
    kseg := gr.kseg, lseg := gr.lseg, edis := edis }

/-- The empty positions before a deal's first instruction: every pending result lands (R36). -/
def settle (s : State) (g : GroupRef) : State :=
  match s.group? g with
  | none => s
  | some gr =>
    let q := gr.coming.foldl (fun q p => max q p.vis) gr.pos
    landDue (s.updGroup g fun x => { x with pos := q }) g q

/-- A deal that fails its checks faults before its first iteration: the group freezes (R32, R53), or the context ends where
a helper deal fails (R296). -/
def startFault (s : State) (g : GroupRef) (gr : Group) (c : Nat) (d : Deal) (helper : Bool) (code : FaultCode) (pc : Nat) (addr d1 : W64) :
    State :=
  let p := { groupSite s g gr with helper := helper, img := d.img, pc := pc, seq := d.seq.toNat }
  if helper then fatal s c .emuHelper p addr (BitVec.ofNat 64 code.code) 0
  else stopAgent (freezeGroup s g) c code .g (.group g) p addr d1 (groupDetail gr)

/-- What a loading that does not deliver its line does to a group: its fault, its park, or a die's refusal. -/
def startStopped (s : State) (g : GroupRef) (gr : Group) (c : Nat) (d : Deal) (helper : Bool) (pc line : Nat) : Chk → State
  | .fault f => let x := fetchDetails s c d.img f line; startFault s g gr c d helper f pc x.1 x.2.1
  | .park va => parkAt s c (.group g) (BitVec.ofNat 64 va) none true
  | .offline n => dieOffline s c (.group g) (groupSite s g gr) 0 n
  | _ => s

/-- The deal becomes the running deal; its block acquires what the DEAL released (R30). -/
def beginRun (s : State) (g : GroupRef) (helper : Bool) (r : Run) : State :=
  (acquireAt (settle s g) g.hand 0).updGroup g fun x => if helper then { x with hrun := some r } else { x with run := some r }

/-- The checks of R53 and R32 in order, and the start. Of an entry line that lies beyond the line count, belongs to another engine or lacks
ENTRY, R51 says IMAGE_LINK and R53 BLOCK_FORMAT; the model takes R53's, the rule about descriptors. DESIGN CHOICE (log entry 82). -/
def startDeal (s : State) (g : GroupRef) (gr : Group) (tm : Team) (ctx : Ctx) (d : Deal) (helper : Bool) : State :=
  let c := tm.ctx
  if bits d.w0 47 24 = 0 || d.cancelled then beginRun s g helper (runOf gr d noBlock (edisOf s ctx))
  else
    match imageOf s c d.img with
    | none => startFault s g gr c d helper .imageLink 0 0 0
    | some im =>
      match readBlock s g.hand c im (bits d.w0 63 48) with
      | (s, .ok _, b, w1) =>
        let pc := b.entry * 16 + 1
        let stop := startFault s g gr c d helper
        if b.bad || (b.win && !helper) then stop .blockFormat pc 0 (zext64 w1)
        else
          match ensureLine s g.hand c d.img b.entry with
          | (s, .ok, l) =>
            if lineEngine l ≠ 1 || !lineEntry l then startFault s g gr c d helper .blockFormat pc 0 (zext64 w1)
            else if !blockFits b (8 * gr.units.length) then startFault s g gr c d helper .blockBudget pc 0 (zext64 w1)
            else beginRun s g helper (runOf gr d b (edisOf s ctx))
          | (s, .stop (.fault .imageLink), _) => startFault s g gr c d helper .blockFormat pc 0 (zext64 w1)
          | (s, .stop ck, _) => startStopped s g gr c d helper pc b.entry ck
          | (s, .ended, _) => s
      | (s, ck, _, _) => startStopped s g gr c d helper 0 (im.blockFirst + bits d.w0 63 48 / 5) ck

/-- The owning thread runs, at this level or an outer one, a handler that has the group for its helper deals (R296). -/
def helperGroup (th : Thread) (g : GroupRef) : Bool := (th.windowOf g.idx).isSome

/-- The group is in its lane group's active set (R41). -/
def activeGroup (s : State) (g : GroupRef) : Bool := (s.hand g.hand).active.contains g

/-- The group may issue or start: its hand runs, it is active, not parked and held by no record (R41, R337). -/
def groupFree (s : State) (g : GroupRef) (gr : Group) : Bool := handRuns s g.hand && activeGroup s g && !gr.parked && !held s (.group g)

/-- DEAL_START: the lane group starts the head deal of a group's queue, or of its helper queue (R32, R296). -/
def execDealStart (g : GroupRef) (s : State) : Res :=
  match s.group? g, s.team? g.team, s.thread? g.owner with
  | some gr, some tm, some th =>
    match s.ctx? tm.ctx with
    | none => .next s
    | some c =>
      if !groupFree s g gr || gr.hrun.isSome || gr.preempt then .next s
      else if helperGroup th g && (gr.frozen || gr.run.isNone) then
        match gr.hqueue with
        | d :: _ => .next (startDeal s g gr tm c d true)
        | [] => .next s
      else if gr.frozen || gr.run.isSome || helperGroup th g then .next s
      else
        match gr.queue with
        | d :: _ => .next (startDeal s g gr tm c d false)
        | [] => .next s
  | _, _, _ => .next s

/-! ### Iterations (R33) -/

/-- The run that R33's loop goes on with at the head of an iteration. -/
def Run.iterate (r : Run) : Run :=
  { r with s := r.nextS, inj := r.inj + r.nextS.toNat % 2, rot := r.k, k := r.k + 1, pc := r.blk.entry * 16 + 1, idx := 0 }

/-- The lane context of a group that may run: it is not frozen, parked or held, and no cause of its helper deal waits. -/
def runningLane (s : State) (g : GroupRef) : Option Lane :=
  match s.laneOf g with
  | none => none
  | some l =>
    if groupFree s g l.gr && (if l.helper then !helperWaits l.th g else !l.gr.frozen) then some l else none

/-- ITERATION_START (R33): at the END of the body the stage vector shifts, and the next iteration begins if a stage is on. -/
def execIterationStart (g : GroupRef) (s : State) : Res :=
  match runningLane s g with
  | none => .next s
  | some l => if l.run.atEnd && !l.run.drained then .next (updRun s l Run.iterate) else .next s

/-! ### Retirement (R29, R30, R35, R40, R25) -/

/-- The show that the lane group owes at a deal's retirement: CANCELLED for a deal that was cancelled before it started, EMPTY
for one that sent none (R35, R40). -/
def owedShow (d : Deal) (shows : Nat) : Option Show :=
  if bits d.w0 8 8 = 1 then
    if d.cancelled then some (showHead d 3 :: List.replicate 7 0)
    else if shows = 0 then some (showHead d 2 :: List.replicate 7 0)
    else none
  else none

/-- The group's last deal has retired: its units return to the role's pool and it is CLOSED (R25, R182). -/
def closeGroup (s : State) (g : GroupRef) (gr : Group) : State :=
  let s := s.updTeam g.team fun t => setFree t g.role gr.lg (freeUnits t g.role gr.lg ++ gr.units)
  let s := s.updGroup g fun x => { x with state := .closed, units := [] }
  s.updHand g.hand fun h => { h with active := h.active.erase g }

/-- The head deal of the group's queue retires. -/
def retireDeal (s : State) (g : GroupRef) (gr : Group) (d : Deal) (sh : Option Show) : State :=
  let s := (releaseAt s g.hand 0).updGroup g fun x =>
    { x with shows := x.shows ++ sh.toList, lastRet := d.seq, queue := x.queue.drop 1, run := none }
  if bits d.w0 11 11 = 1 then closeGroup (settle s g) g gr else s

/-- The head helper deal retires, and every result of it lands. -/
def retireHelper (s : State) (g : GroupRef) (sh : Option Show) : State :=
  (settle s g).updGroup g fun x => { x with hshows := x.hshows ++ sh.toList, hqueue := x.hqueue.drop 1, hrun := none }

/-- DEAL_RETIRE: the ended deal retires once its operations are done and there is room for the show it owes (R35, R39). -/
def execDealRetire (g : GroupRef) (s : State) : Res :=
  match runningLane s g with
  | none => .next s
  | some l =>
    match if l.helper then l.gr.hqueue else l.gr.queue with
    | [] => .next s
    | d :: _ =>
      let sh := owedShow d l.run.shows
      let room := if l.helper then l.gr.hshows.length < 4 else l.gr.shows.length < 32
      if !l.run.ended || (l.gr.outst.any fun o => o.helper = l.helper) || (sh.isSome && !room) then .next s
      else if l.helper then .next (retireHelper s g sh)
      else .next (retireDeal (landDue s g l.gr.pos) g l.gr d sh)

/-! ### Results and deferred faults (R36, R227) -/

/-- RESULT_VISIBLE (R36): results due at the group's position reach their registers; an idle group takes the empty positions
up to its next pending result. -/
def execResultVisible (g : GroupRef) (s : State) : Res :=
  match s.group? g with
  | none => .next s
  | some gr =>
    if gr.run.isSome || gr.hrun.isSome then .next (landDue s g gr.pos)
    else
      match gr.coming with
      | [] => .next s
      | p :: ps =>
        let q := ps.foldl (fun q p => min q p.vis) p.vis
        .next (landDue (s.updGroup g fun x => { x with pos := max x.pos q }) g (max gr.pos q))

/-- The await set of the instruction at which a group stands, where its stage is on; none where a NOP, fill or the END stands
there. -/
def awaitAt (s : State) (l : Lane) : BitVec 8 :=
  if l.run.atEnd then 0
  else
    match lineOf s l.ref.hand l.tm.ctx l.run.deal.img (l.run.pc / 16) with
    | none => 0
    | some ln =>
      let w := lineWord ln (l.run.pc % 16)
      if w.toNat / 2 ^ 24 = 0 then 0
      else
        let f := laneOf w (lineWord ln (l.run.pc % 16 + 1))
        if stageOn l f.stage then f.await else 0

/-- The deferred fault that the group meets where it stands: one that the next instruction awaits, or any at the deal's end. -/
def deferredHere (s : State) (l : Lane) : Option Outst :=
  if l.run.ended then l.gr.outst.find? fun o => o.done && o.bad.isSome && o.helper = l.helper else deferredOn l (awaitAt s l)

/-- DEFERRED_FAULT (R227): the group freezes at the awaiting instruction or at the deal's end. -/
def execDeferredFault (g : GroupRef) (s : State) : Res :=
  match runningLane s g with
  | none => .next s
  | some l => match deferredHere s l with | some o => .next (deferredFault s l o) | none => .next s

/-! ### Swaps (R42) -/

/-- The group waits in a way that its swap threshold counts: on an await, on a barrier, or parked (R42, R350). -/
def swapWaits (s : State) (g : GroupRef) (gr : Group) : Bool :=
  gr.swapThr ≠ 0 && (gr.parked || gr.waitBar.isSome ||
    match s.laneOf g with
    | some l => (List.range 8).any fun t => (awaitAt s l).getLsbD t && tokenCount gr t ≠ 0
    | none => false)

/-- A pending group that is ready: its queue holds a deal (R42). -/
def swapReady (gr : Group) : Bool :=
  (gr.state = .live || gr.state = .closing) && (!gr.queue.isEmpty || !gr.hqueue.isEmpty)

/-- The active groups of a lane group. -/
def activeOf (s : State) (h lg : Nat) : List GroupRef :=
  (s.hand h).active.filter fun g => match s.group? g with | some gr => gr.lg = lg | none => false

/-- The groups behind the keys of a hand. -/
def groupAt (k : Nat) : GroupRef := ⟨k / 128, k / 64 % 2, k / 16 % 4, k % 16⟩

/-- A group is pending and ready on a lane group (R42). -/
def pendingReady (s : State) (lg : Nat) (g : GroupRef) : Bool :=
  match s.group? g with | some gr => gr.lg = lg && swapReady gr && !activeGroup s g | none => false

/-- The pending groups of a lane group that are ready, in the order of their keys. -/
def readyGroups (s : State) (h lg : Nat) : List GroupRef :=
  ((s.groups.filter fun p => p.1 / 128 = h).map fun p => groupAt p.1).filter (pendingReady s lg)

/-- The pending group of a lane group that has been ready longest (R42): each comes in within as many swaps as there are resident groups,
16 at most (R46). -/
def firstReady (s : State) (h lg : Nat) : Option GroupRef :=
  ((s.hand h).ready.find? (pendingReady s lg)).orElse fun _ => (readyGroups s h lg).head?

/-- GROUP_SWAP (R42): `into`, the pending group that has been ready longest, comes in for `g` and takes its position, or into a free
position where they are the same: behind the groups that are active, since the positions of groups that left close up. DESIGN CHOICE (log
entry 107). -/
def execGroupSwap (g into : GroupRef) (s : State) : Res :=
  match s.group? g, s.group? into with
  | some gr, some gi =>
    if g.hand ≠ into.hand || gr.lg ≠ gi.lg || firstReady s g.hand gr.lg ≠ some into then .next s
    else if g = into then
      if (activeOf s g.hand gr.lg).length < 8 then .next (s.updHand g.hand fun h => { h with active := h.active ++ [g] })
      else .next s
    else if activeGroup s g && gr.landing.isEmpty && ((gr.queue.isEmpty && gr.hqueue.isEmpty) || swapWaits s g gr) then
      .next (s.updHand g.hand fun h => { h with active := h.active.map fun x => if x = g then into else x })
    else .next s
  | _, _ => .next s

end Sys2Proof.Machine
end

