-- ==== Sys2Proof/Machine/Matrix.lean ====
section
/-! DEFINITION. The matrix streams and the gather unit: R107-R109, R190, R244, R245, R258-R272, and the retired MMAT (R86). -/

namespace Sys2Proof.Machine

/-! ### The served stream (R24, R258) -/

/-- What a stream instruction reaches: its team, its context and the thread whose MXGO started the stream. -/
structure Mx where
  ref : TeamRef
  tm  : Team
  ctx : Ctx
  th  : Thread
  line : Option (List Byte)
  deriving DecidableEq, Repr

/-- The stream's owning thread. -/
def Mx.owner (m : Mx) : ThreadRef := ⟨m.ref.hand, m.ref.slot, m.tm.stream.owner⟩

/-- A stream that runs. -/
def State.mxOf (s : State) (t : TeamRef) : Option Mx :=
  match s.team? t with
  | none => none
  | some tm =>
    match s.ctx? tm.ctx, s.thread? ⟨t.hand, t.slot, tm.stream.owner⟩ with
    | some c, some th => if tm.stream.running && !tm.stream.stopped then some ⟨t, tm, c, th, linkedLine s t.hand tm.ctx tm.stream.img (tm.stream.pc / 16)⟩ else none
    | _, _ => none

/-- The actor of a stream's own accesses; they follow the team's PSEG and its poison policy (R143, R270). -/
def Mx.actor (m : Mx) (e : Eng) : Actor :=
  { hand := m.ref.hand, ctx := m.tm.ctx, eng := e, gseg := { m.th.gseg with pol := m.th.pseg.pol }, pseg := m.th.pseg,
    kseg := m.th.kseg, lseg := m.th.lseg, site := { streamSite m.ref m.tm with engine := e.code } }

/-- Change a team's stream. -/
def updStream (s : State) (t : TeamRef) (f : Stream → Stream) : State := s.updTeam t fun x => { x with stream := f x.stream }

/-- The instruction of `w` words is complete: the stream goes on behind it. -/
def mxNext (s : State) (m : Mx) (w : Nat) : State :=
  updStream s m.ref fun x => { x with pc := nextOf m.line x.pc w }

/-- Take the fault of a failed GATH (R267): it stops the stream, and its record names the gather unit and the GATH's place (R338). -/
def gatherStop (s : State) (m : Mx) (f : GathFault) : State :=
  let s := updStream s m.ref fun x => { x with gathFaults := x.gathFaults.erase f, running := true, stopped := true }
  stopAgent s m.tm.ctx f.code .m (.stream m.ref) { streamSite m.ref m.tm with engine := 3, img := f.img, pc := f.pc } f.addr f.d1 f.d2

/-- What a stream does with an instruction that names `rings`: the oldest fault of a failed GATH of one of them, or of any before a
barrier instruction or MEND, comes first; a stream whose MMA has not retired goes no further. -/
def onMx (s : State) (t : TeamRef) (rings : List Nat) (sync : Bool) (f : State → Mx → State) : State :=
  match s.mxOf t with
  | none => s
  | some m =>
    if m.tm.stream.mma.isSome then s
    else
      match m.tm.stream.gathFaults.find? fun g => sync || rings.contains g.ring with
      | some g => gatherStop s m g
      | none => f s m

/-- The meaning of a stream instruction: a function of the served stream; without one nothing happens. -/
def onStream (s : State) (rings : List Nat) (sync : Bool) (f : State → Mx → State) : Res :=
  match s.cur with
  | .stream t => .next (onMx s t rings sync f)
  | _ => .next s

/-- A fault of the served stream; detail 1 is an accumulator or ring, detail 2 the offending value (R339). -/
def mxFault (s : State) (m : Mx) (c : FaultCode) (d1 d2 : Nat) : State :=
  streamFault s m.ref c 0 (BitVec.ofNat 64 d1) (BitVec.ofNat 64 d2)

/-- A cause of the served stream's instruction (R73): its handler runs on the thread of R74. -/
def mxCause (s : State) (m : Mx) (c : Cause) (words : List W32) (native : Option Instr) : State :=
  raiseCause s m.owner { cause := c, engine := .matrix, words := words, native := native, pc := m.tm.stream.pc, img := m.tm.stream.img,
                         group := none, helper := false, copy := 0 }

/-! ### Scratchpad reads of the engine (R143) -/

/-- Read ranges (offset and length) of the hand's scratchpad that have been checked; the PSEG policy decides what poison does, and one
record is logged for each distinct poisoned unit, ascending. -/
def mxReads (s : State) (m : Mx) (rs : List (Nat × Nat)) : State × Except (FaultCode × W64 × W64 × W64) (List (List Byte)) :=
  let a := m.actor .stream
  let units (r : Nat × Nat) : List Nat := poisonedUnits s (.scratch m.ref.hand r.1) r.2
  let all := (rs.flatMap units).dedup.insertionSort (· ≤ ·)
  let s' := logPoison s a (.scratch m.ref.hand 0) 0 1 (if a.faults 1 then 1 else 0) all 0
  match rs.find? fun r => a.faults 1 && !(units r).isEmpty with
  | some r => (s', .error (.poison, BitVec.ofNat 64 r.1, 0, accDetail r.2 1))
  | none =>
    (s', .ok (rs.map fun r => zeroPoison (units r) r.1 ((List.range r.2).map fun i => scratchByte s m.tm.ctx m.ref.hand (r.1 + i))))

/-- Read one such range. -/
def mxRead (s : State) (m : Mx) (o n : Nat) : State × Except (FaultCode × W64 × W64 × W64) (List Byte) :=
  match mxReads s m [(o, n)] with
  | (s, .ok bs) => (s, .ok (bs.headD []))
  | (s, .error e) => (s, .error e)

/-- A plain load of the stream (R261, R270): the checks of R119, then the read. -/
def mxLoad (s : State) (m : Mx) (o n : Nat) : State × Except (FaultCode × W64 × W64 × W64) (List Byte) :=
  match checkScratch s (m.actor .stream) .load n false (BitVec.ofNat 64 o) 1 with
  | .fault f => (s, .error (f, BitVec.ofNat 64 o, 0, accDetail n 1))
  | _ => mxRead s m o n

/-- Go on with the bytes of a read, or stop the stream at its fault. -/
def withBytes {α : Type} (r : State × Except (FaultCode × W64 × W64 × W64) α) (m : Mx) (f : State → α → State) : State :=
  match r with
  | (s, .ok bs) => f s bs
  | (s, .error (c, a, d1, d2)) => streamFault s m.ref c a d1 d2

/-! ### Rings (R260-R262) -/

/-- The immediate as a scratchpad offset (R261, R267, R270). -/
def immOff (w : MatW) : Nat := w.imm.toNat * 64

/-- A copy command targets ring `n` of the team in a slot and has not completed. -/
def Copy.toring (c : Copy) (slot n : Nat) : Bool :=
  c.slot = slot && match c.cmd with | some (.cpToring _ imm) => imm.toNat % 8 = n | _ => false

/-- An unfinished GATH or CP.TORING targets ring `n` (R261). -/
def ringBusy (s : State) (t : TeamRef) (n : Nat) : Bool :=
  ((s.hand t.hand).gather.any fun g => g.slot = t.slot && g.ring = n) || (s.hand t.hand).near.any fun c => c.toring t.slot n

/-- The ring that a record gives, where it keeps R261's table and the ring fits. -/
def ringOfRecord (bs : List Byte) (pseg : Seg) : Option Ring :=
  let f (i : Nat) : Nat := ofBytes ((bs.drop (4 * i)).take 4)
  let size := f 1 * 64 * f 2
  if f 0 < 2 ^ 22 && f 0 % 64 = 0 && 1 ≤ f 1 && f 1 ≤ 1024 && 1 ≤ f 2 && f 2 ≤ 256 && f 3 = 0 && f 0 + size ≤ sysArea &&
      pseg.admits (f 0) size then
    some { valid := true, base := f 0, z := f 1, n := f 2, h := 0, t := 0 }
  else none

/-- RINIT (R261). -/
def execRinit (w : MatW) (s : State) : Res :=
  let n := w.ra.toNat
  onStream s [n] false fun s m => withBytes (mxLoad s m (immOff w) 16) m fun s bs =>
    match ringOfRecord bs m.th.pseg with
    | none => mxFault s m .ringShape n (ofBytes ((bs.drop 4).take 4))
    | some r =>
      if ringBusy s m.ref n then mxFault s m .ringBusy n 0
      else mxNext (s.updTeam m.ref fun t => updRing t n fun _ => r) m 2

/-- TADV (R262): a .HD release. -/
def execTadv (w : MatW) (s : State) : Res :=
  let n := w.ra.toNat
  onStream s [n] false fun s m =>
    match advanceFault (ringOf m.tm n) w.imm.toNat with
    | some f => mxFault s m f n w.imm.toNat
    | none =>
      let s := releaseAt s m.ref.hand 0
      mxNext (s.updTeam m.ref fun t => updRing t n fun r => { r with t := r.t + w.imm.setWidth 32 }) m 2

/-- HADV's head advance once the occupancy suffices (R262). -/
def hadvEffect (s : State) (m : Mx) (n c : Nat) : State :=
  if (ringOf m.tm n).occ < c then updStream s m.ref fun x => { x with waitHadv := some (n, c) }
  else
    let s := s.updTeam m.ref fun t => updRing t n fun r => { r with h := r.h + BitVec.ofNat 32 c }
    mxNext (updStream s m.ref fun x => { x with waitHadv := none }) m 2

/-- HADV (R262). -/
def execHadv (w : MatW) (s : State) : Res :=
  let n := w.ra.toNat
  onStream s [n] false fun s m =>
    let r := ringOf m.tm n
    if !r.valid then mxFault s m .ringUninit n w.imm.toNat
    else if r.n < w.imm.toNat then mxFault s m .ringShape n w.imm.toNat
    else hadvEffect s m n w.imm.toNat

/-- The stream is served: its hand runs, no record holds it and it is not parked. -/
def streamFree (s : State) (t : TeamRef) : Bool := handRuns s t.hand && !held s (.stream t) && !isParked s (.stream t)

/-- HADV_RESUME: a waiting HADV advances the head (R262), unless a GATH of its ring has failed (R267). -/
def execHadvResume (tm : TeamRef) (s : State) : Res :=
  match (s.team? tm).bind fun t => t.stream.waitHadv with
  | some (n, c) => if streamFree s tm then .next (onMx s tm [n] false fun s m => hadvEffect s m n c) else .next s
  | none => .next s

/-! ### Dot products (R108, R109) -/

/-- The numerator of a magnitude in units of 2^q, with its sign. -/
def Num.at (q : Int) : Num → Int
  | .fin n m e => signedAt n m e q
  | _ => 0

/-- The exponent of a value. -/
def Num.exp : Num → Int
  | .fin _ _ e => e
  | _ => 0

/-- The value is infinite. -/
def Num.isInf : Num → Bool
  | .inf _ => true
  | _ => false

/-- The value is −0. -/
def Num.isNegZero : Num → Bool
  | .fin n m _ => n && m = 0
  | _ => false

/-- ⌈log2 k⌉. -/
def ceilLog2 (k : Nat) : Nat := if k ≤ 1 then 0 else Nat.log2 (k - 1) + 1

/-- A candidate result keeps R108: a finite one lies within the bound, with the sign that R108 gives a zero; an infinity
needs |C| + Σ|a·b| above the largest finite. `e` and `a` are the exact sum and the sum of magnitudes in units of 2^q. -/
def dotOk (k : Nat) (q e a : Int) (negZero : Bool) (cand : Nat) : Bool :=
  match fmtF32.decode cand with
  | .nan _ => false
  | .inf _ => 2 ^ (128 - 24 - q).toNat * (2 ^ 24 - 1) < a
  | .fin n m x =>
    let r := (signedAt n m x (min q x)) - e * 2 ^ (q - min q x).toNat
    (m ≠ 0 || n = negZero) &&
      (r.natAbs : Int) * 2 ^ 24 ≤ (ceilLog2 k + 1) * (a + 2 ^ (24 - 149 - q).toNat) * 2 ^ (q - min q x).toNat

/-- The finite case of R108: the candidate where it keeps the rule, else the correctly rounded sum, a zero of it with the sign that R108
gives; and the flags. -/
def dotFinite (cand k : Nat) (terms : List Num) : Nat × Flags :=
  let q : Int := terms.foldl (fun q t => min q t.exp) (-149)
  let e : Int := terms.foldl (fun e t => e + t.at q) 0
  let a : Int := terms.foldl (fun a t => a + (t.at q).natAbs) 0
  let negZero := terms.all Num.isNegZero
  let near := (roundFin fmtF32 0 false (e < 0) e.natAbs q).1
  let exact : Nat := match fmtF32.decode near with | .fin _ 0 _ => fmtF32.sign negZero | _ => near
  let r := if dotOk k q e a negZero cand then cand else exact
  match fmtF32.decode r with
  | .fin n m x => (r, raiseIf (signedAt n m x (min q x) ≠ e * 2 ^ (q - min q x).toNat) fInexact)
  | _ => (r, fOverflow ||| fInexact)

/-- R108: C plus the products; `cand` is the free value. -/
def dotFloat (cand k : Nat) (c : Num) (ps : List (Num × Num)) : Nat × Flags :=
  let prods := ps.map fun p => p.1.mul p.2
  let terms := c :: prods.filterMap id
  if prods.any (·.isNone) || terms.any Num.isNan || (terms.contains (.inf true) && terms.contains (.inf false)) then
    (fmtF32.nan, fInvalid)
  else
    match terms.find? Num.isInf with
    | some (.inf n) => (fmtF32.infCode + fmtF32.sign n, 0)
    | _ => dotFinite cand k terms

/-- R109: C plus the products of 8-bit signed elements, modulo 2³². -/
def dotInt (c : W32) (ps : List (Nat × Nat)) : W32 :=
  ps.foldl (fun x p => x + BitVec.ofInt 32 (intVal true 8 p.1 * intVal true 8 p.2)) c

/-! ### Operand tiles (R107, R264) -/

/-- Bits of an element by format code (R64). -/
def elemBits (fmt : Nat) : Nat := match fmt with | 0 | 1 => 16 | 4 => 4 | _ => 8

/-- K of a format (R264). -/
def fmtK (fmt : Nat) : Nat := 1024 / elemBits fmt

/-- The type code (R62) of a format code (R64). -/
def fmtType (fmt : Nat) : Nat := match fmt with | 0 => 10 | 1 => 9 | 2 => 11 | 3 => 12 | 4 => 13 | _ => 0

/-- The codes of `n` elements that bytes hold, least significant first. -/
def codesOf (fmt n : Nat) (bs : List Byte) : List Nat := splitSub (elemBits fmt) (ofBytes bs) n

/-- The 64 rows of an operand slot, each of K codes. -/
def slotRows (fmt : Nat) (bs : List Byte) : List (List Nat) :=
  (List.range 64).map fun r => codesOf fmt (fmtK fmt) ((bs.drop (128 * r)).take 128)

/-- A column of 64 rows of codes, for each of 64 columns (MMAT's A, R86). -/
def transposed (rows : List (List Nat)) : List (List Nat) := (List.range 64).map fun i => rows.map fun r => r.getD i 0

/-- The scale and X bytes of block (i, kb) of an operand: row `8·b + kb` and column `i` of T (R107). -/
def scalePair (t : Tile) (sel : Nat) (b : Bool) (i kb : Nat) : Nat × Nat :=
  let v := (t.getD (64 * (kb + (if b then 8 else 0)) + i) 0).toNat
  (v / 2 ^ (8 * sel) % 256, v / 2 ^ (8 * (sel + 1)) % 256)

/-- The values of row `i` of an operand; without a scale tile every scale is 0x7F (R107). In a block whose X is a NaN every value counts
as one (R108). -/
def rowValues (fmt : Nat) (scale : Option (Tile × Nat)) (b : Bool) (i : Nat) (codes : List Nat) : List Num :=
  codes.zipIdx.map fun c =>
    match scale with
    | some (t, sel) =>
      let p := scalePair t sel b i (c.2 / 32)
      if fmt = 4 && (fmtE4M3.decode p.2).isNan then fmtE4M3.decode p.2 else scaledValue (fmtType fmt) c.1 p.1 p.2
    | none => if fmt = 0 || fmt = 1 then (fmtOf (fmtType fmt)).decode c.1 else scaledValue (fmtType fmt) c.1 0x7F 0

/-- The accumulator of a team; one never written holds 0 (log entry 5). -/
def accOf (tm : Team) (n : Nat) : List W32 := (tm.acc.getD n [] ++ List.replicate 4096 0).take 4096

/-- The whole product over two lists of 64 rows of values: element (mr, nc) from its accumulator element (R108). -/
def productF (key k : Nat) (acc : List W32) (ra rb : List (List Num)) : List (W32 × Flags) :=
  acc.zipIdx.map fun c =>
    let r := dotFloat (Config.word (4096 * key + c.2)).toNat k (fmtF32.decode c.1.toNat)
      (List.zip (ra.getD (c.2 / 64) []) (rb.getD (c.2 % 64) []))
    (BitVec.ofNat 32 r.1, r.2)

/-- The same for I8 (R109). -/
def productI (acc : List W32) (ra rb : List (List Nat)) : List (W32 × Flags) :=
  acc.zipIdx.map fun c => (dotInt c.1 (List.zip (ra.getD (c.2 / 64) []) (rb.getD (c.2 % 64) [])), 0)

/-- The product of two operands of codes, with its scales. -/
def product (key k fmt : Nat) (scale : Option (Tile × Nat)) (acc : List W32) (ra rb : List (List Nat)) : List (W32 × Flags) :=
  if fmt = 5 then productI acc ra rb
  else productF key k acc (ra.zipIdx.map fun r => rowValues fmt scale false r.2 r.1) (rb.zipIdx.map fun r => rowValues fmt scale true r.2 r.1)

/-! ### MMA, MMAS, MMAT (R86, R265, R266, R269) -/

/-- The scale tile of an MMA that uses scales (R266): none where the computer role or the group does not have it. -/
def scaleTile (s : State) (m : Mx) (w : MatW) : Option Tile :=
  let g : GroupRef := ⟨m.ref.hand, m.ref.slot, 1, w.grp.toNat⟩
  match m.tm.roles.get? 1, s.group? g with
  | some _, some gr =>
    if (gr.state = .live || gr.state = .closing) && w.tile.toNat < 8 * gr.units.length then some (tileAt s m.ref.hand (allocKey gr w.tile.toNat))
    else none
  | _, _ => none

/-- The first failing check of MMA and MMAS before their wait: the fault, what it names, and the offending value. -/
def mmaFault (m : Mx) (w : MatW) (za zb : Nat) (sameOk : Bool) : Option (FaultCode × Nat × Nat) :=
  let a := ringOf m.tm w.ra.toNat
  let b := ringOf m.tm w.rb.toNat
  if m.tm.accBudget ≤ w.acc.toNat then some (.accRange, w.acc.toNat, w.acc.toNat)
  else if !a.valid then some (.ringUninit, w.ra.toNat, 0)
  else if !b.valid then some (.ringUninit, w.rb.toNat, 0)
  else if a.z ≠ za then some (.ringShape, w.ra.toNat, a.z)
  else if b.z ≠ zb then some (.ringShape, w.rb.toNat, b.z)
  else if w.ra = w.rb && (!sameOk || a.n < 2) then some (.ringShape, w.ra.toNat, a.n)
  else none

/-- The slots read by an MMA or MMAS at the heads of its rings. -/
def headSlots (m : Mx) (w : MatW) : Nat × Nat :=
  let a := ringOf m.tm w.ra.toNat
  let b := ringOf m.tm w.rb.toNat
  (a.slotAt a.h, if w.ra = w.rb then a.slotAt (a.h + 1) else b.slotAt b.h)

/-- The pops at retirement (R266). -/
def popsOf (w : MatW) : List (Nat × Nat) := if w.ra = w.rb then [(w.ra.toNat, 2)] else [(w.ra.toNat, 1), (w.rb.toNat, 1)]

/-- The instruction has issued: its results wait for its retirement, and the engine's next turn is the other stream's (R258, R266). -/
def mmaIssue (s : State) (m : Mx) (w : MatW) (r : List (W32 × Flags)) : State :=
  mxNext (updStream (s.updHand m.ref.hand fun h => { h with lastMma := some m.ref.slot }) m.ref fun x =>
    { x with mma := some { acc := w.acc.toNat, data := r.map (·.1), flags := orFlags (r.map (·.2)), pops := popsOf w } }) m 2

/-- The wait for occupancy (R266). -/
def mmaWaits (m : Mx) (w : MatW) : Bool :=
  (ringOf m.tm w.ra.toNat).occ < (if w.ra = w.rb then 2 else 1) || (ringOf m.tm w.rb.toNat).occ < 1

/-- An MMA whose A operand is read by `rowsA` (R266). -/
def mmaWith (rowsA : Nat → List Byte → List (List Nat)) (w : MatW) (s : State) (m : Mx) : State :=
  match mmaFault m w 128 128 true with
  | some (c, d1, d2) => mxFault s m c d1 d2
  | none =>
    if mmaWaits m w then s
    else
      let t := if w.scaled then scaleTile s m w else none
      if w.scaled && t.isNone then mxFault s m .scaleSrc w.acc.toNat w.tile.toNat
      else
        let (oa, ob) := headSlots m w
        withBytes (mxReads s m [(oa, 8192), (ob, 8192)]) m fun s bs =>
          let fmt := w.fmt.toNat
          let (key, s) := s.draw
          mmaIssue s m w (product key (fmtK fmt) fmt (t.map fun t => (t, w.sel.toNat)) (accOf m.tm w.acc.toNat)
            (rowsA fmt (bs.getD 0 [])) (slotRows fmt (bs.getD 1 [])))

/-- MMA (R265, R266). -/
def execMma (w : MatW) (s : State) : Res := onStream s [w.ra.toNat, w.rb.toNat] false (mmaWith slotRows w)

/-- MMAT's A operand: K rows of 64 elements of 16 bits (R86). -/
def rowsMmat (fmt : Nat) (bs : List Byte) : List (List Nat) := transposed (slotRows fmt bs)

/-- MMAT (retired, R86): as MMA, with A stored K × 64; formats BF16 and F16 only. -/
def execMmat (w : MatW) (s : State) : Res :=
  onStream s [w.ra.toNat, w.rb.toNat] false fun s m =>
    if libraryServes m.ctx m.th false then
      if w.fmt.toNat ≤ 1 then mmaWith rowsMmat { w with flags := 0 } s m else mxCause s m .reservedField (wordsOf (.mmat w)) (some (.mmat w))
    else mxCause s m .retired (wordsOf (.mmat w)) (some (.mmat w))

/-- The leading indices of a gathered slot (R268, R269). -/
def gatheredIdx (bs : List Byte) : List Nat := (splitSub 16 (ofBytes (bs.take 512)) 256).takeWhile (· ≠ 0xFFFF)

/-- MMAS's product of a panel and a gathered slot (R269). A slot that no GATH wrote may have more than K leading indices, and has K rows:
those beyond read as zeros. DESIGN CHOICE (log entry 105). -/
def sparseProduct (key fmt : Nat) (acc : List W32) (panel slot : List Byte) : List (W32 × Flags) :=
  let idx := gatheredIdx slot
  let k4 := 4 * fmtK fmt
  let rowB := k4 * elemBits fmt / 8
  let ra := (List.range 64).map fun r =>
    let codes := codesOf fmt k4 ((panel.drop (rowB * r)).take rowB)
    idx.map fun c => codes.getD c 0
  let eb := 64 * elemBits fmt / 8
  let rows := (List.range idx.length).map fun j => codesOf fmt 64 ((slot.drop (512 + eb * j)).take eb)
  let rb := (List.range 64).map fun c => rows.map fun r => r.getD c 0
  product key (max idx.length 1) fmt none acc ra rb

/-- MMAS (R269). -/
def execMmas (w : MatW) (s : State) : Res :=
  onStream s [w.ra.toNat, w.rb.toNat] false fun s m =>
    match mmaFault m w 512 136 false with
    | some (c, d1, d2) => mxFault s m c d1 d2
    | none =>
      if mmaWaits m w then s
      else
        let (oa, ob) := headSlots m w
        withBytes (mxReads s m [(oa, 32768), (ob, 8704)]) m fun s bs =>
          let sl := bs.getD 1 []
          let fmt := w.fmt.toNat
          let idx := gatheredIdx sl
          match idx.find? (4 * fmtK fmt ≤ ·) with
          | some i => mxFault s m .gatherRange w.rb.toNat i
          | none =>
            let acc := accOf m.tm w.acc.toNat
            let (key, s) := s.draw
            mmaIssue s m w (if idx.isEmpty then acc.map fun x => (x, 0) else sparseProduct key fmt acc (bs.getD 0 []) sl)

/-- MMA_RETIRE (R266): the accumulator is written, the heads are popped, and the flags are raised. -/
def execMmaRetire (tm : TeamRef) (s : State) : Res :=
  match s.team? tm with
  | none => .next s
  | some t =>
    match t.stream.mma with
    | none => .next s
    | some x =>
      .next (s.updTeam tm fun t =>
        let t := x.pops.foldl (fun t p => updRing t p.1 fun r => { r with h := r.h + BitVec.ofNat 32 p.2 }) t
        { t with acc := t.acc.set x.acc x.data, stream := { t.stream with mma := none, fpx := t.stream.fpx ||| x.flags } })

/-! ### Accumulators (R270, R271) -/

/-- ACC_RANGE, then `f`. -/
def withAcc (s : State) (m : Mx) (w : MatW) (f : State) : State :=
  if m.tm.accBudget ≤ w.acc.toNat then mxFault s m .accRange w.acc.toNat w.acc.toNat else f

/-- MZERO (R270). -/
def execMzero (w : MatW) (s : State) : Res :=
  onStream s [] false fun s m => withAcc s m w <|
    mxNext (s.updTeam m.ref fun t => { t with acc := t.acc.set w.acc.toNat (List.replicate 4096 0) }) m 2

/-- MLDC (R270). -/
def execMldc (w : MatW) (s : State) : Res :=
  onStream s [] false fun s m => withAcc s m w <| withBytes (mxLoad s m (immOff w) 16384) m fun s bs =>
    let data := (List.range 4096).map fun i => wordOfBytes (bs.drop (4 * i))
    mxNext (s.updTeam m.ref fun t => { t with acc := t.acc.set w.acc.toNat data }) m 2

/-- The bytes of a stored element (R271). -/
def mstcBytes (w : MatW) : Nat := if w.flags.getLsbD 3 then 4 else if w.fmt.toNat ≤ 1 then 2 else 1

/-- An element as MSTC stores it, and its flags (R271). -/
def mstcElem (w : MatW) (v : W32) : Nat × Flags :=
  if w.flags.getLsbD 3 then (v.toNat, 0)
  else if w.fmt = 5 then intResult true 8 (w.flags.getLsbD 2) v.toInt
  else roundNum (fmtOf (fmtType w.fmt.toNat)) (w.flags.toNat % 4) (w.flags.getLsbD 2) (fmtF32.decode v.toNat)

/-- MSTC (R271): plain stores of the stream; flags are raised at its retirement. -/
def execMstc (w : MatW) (s : State) : Res :=
  onStream s [] false fun s m => withAcc s m w <|
    let n := 4096 * mstcBytes w
    match checkScratch s (m.actor .stream) .store n false (BitVec.ofNat 64 (immOff w)) 1 with
    | .fault f => streamFault s m.ref f (BitVec.ofNat 64 (immOff w)) 0 (accDetail n 1)
    | _ =>
      let es := (accOf m.tm w.acc.toNat).map (mstcElem w)
      let s := scratchWrite s m.ref.hand (immOff w) (es.flatMap fun e => toBytes (mstcBytes w) e.1)
      mxNext (updStream s m.ref fun x => { x with fpx := x.fpx ||| orFlags (es.map (·.2)) }) m 2

/-! ### Barriers and the end (R113, R244, R245, R272) -/

/-- Delivery at a stream's barrier instruction (R113): the mask is that of the thread whose MXGO started the stream. -/
def deliverMx (s : State) (m : Mx) (f : State) : State :=
  if m.tm.stream.fpx &&& m.th.fpxmask ≠ 0 then streamFault s m.ref .fpxTrap 0 (zext64 m.tm.stream.fpx) (zext64 m.th.fpxmask) else f

/-- MATRIX_BARA (R244, R245): the pending bytes come in units of 64. -/
def execMatrixBara (w : MatW) (s : State) : Res :=
  onStream s [] true fun s m => deliverMx s m <|
    let n := w.bar.toNat
    let b := barrierOf m.tm n
    match araFault b with
    | some c => streamFault s m.ref c 0 (BitVec.ofNat 64 n) (barDetail b)
    | none =>
      let s := updBarrier (releaseAt s m.ref.hand (w.flags.toNat % 8)) m.ref n fun b => b.arrive (BitVec.ofNat 64 (64 * w.imm.toNat))
      mxNext (updStream s m.ref fun x => { x with arrival := x.arrival.set n b.phase }) m 2

/-- A stream's BARW completes: an acquire at its scope; its arrival phase is cleared. -/
def mxBarwDone (s : State) (m : Mx) (n sc : Nat) : State :=
  mxNext (updStream (acquireAt s m.ref.hand sc) m.ref fun x => { x with arrival := x.arrival.erase n, waitBar := none }) m 2

/-- MATRIX_BARW (R244, R245). -/
def execMatrixBarw (w : MatW) (s : State) : Res :=
  onStream s [] true fun s m =>
    match m.tm.stream.waitBar with
    | some (n, sc, p) => if (barrierOf m.tm n).phase ≠ p then mxBarwDone s m n sc else s
    | none => deliverMx s m <|
      let n := w.bar.toNat
      let b := barrierOf m.tm n
      if b.expected = 0 then streamFault s m.ref .barUninit 0 (BitVec.ofNat 64 n) (barDetail b)
      else
        let p := (m.tm.stream.arrival.get? n).getD b.phase
        if b.phase ≠ p then mxBarwDone s m n (w.flags.toNat % 8)
        else updStream s m.ref fun x => { x with waitBar := some (n, w.flags.toNat % 8, p) }

/-- A thread that waits at BARW: a COPY_FAULT that has arrived comes first (R278), and the BARW is retried; else it completes once the
phase has changed. -/
def threadBarw (s : State) (k : Core) (n sc : Nat) (p : BitVec 32) : State :=
  match k.th.copyFaults with
  | c :: cs =>
    (threadFault s k .copyFault 0 (BitVec.ofNat 64 c.code) c.seq).updThread k.ref fun th => { th with copyFaults := cs, wait := .none }
  | [] => if (barrierOf k.tm n).phase ≠ p then barwDone s k n sc else s

/-- BARW_WAKE (R245): a waiting BARW of a thread, group or stream that is served completes once its barrier's phase has changed; what
stops the agent at the instruction comes first (R267, R278). -/
def execBarwWake (ag : Agent) (s : State) : Res :=
  match ag with
  | .thread t =>
    match s.coreOf t with
    | some k =>
      match k.th.wait with
      | .barw n sc p => if threadFree s t k.th then .next (threadBarw s k n sc p) else .next s
      | _ => .next s
    | none => .next s
  | .group g =>
    match runningLane s g with
    | some l =>
      match l.gr.waitBar with
      | some (n, sc, p) => if (barrierOf l.tm n).phase ≠ p then .next (laneBarwDone s l n sc) else .next s
      | none => .next s
    | none => .next s
  | .stream t =>
    match (s.team? t).bind fun tm => tm.stream.waitBar with
    | some (n, sc, p) =>
      if streamFree s t then
        .next (onMx s t [] true fun s m => if (barrierOf m.tm n).phase ≠ p then mxBarwDone s m n sc else s)
      else .next s
    | none => .next s
  | _ => .next s

/-- MATRIX_NOP (R76). -/
def execMatrixNop (s : State) : Res := onStream s [] false fun s m => mxNext s m 1

/-- MEND (R272): once every GATH of the stream has completed, the stream stops running; it is no release. -/
def execMend (_w : MatW) (s : State) : Res :=
  onStream s [] true fun s m =>
    if (s.hand m.ref.hand).gather.any (·.slot = m.ref.slot) then s
    else updStream s m.ref fun x => { x with running := false }

/-! ### The gather unit (R267, R268) -/

/-- GATH (R267): the ring is checked, and the gather unit takes the work over. -/
def execGath (w : MatW) (s : State) : Res :=
  let n := w.rb.toNat
  onStream s [n] false fun s m =>
    let r := ringOf m.tm n
    if !r.valid then mxFault s m .ringUninit n 0
    else if r.z ≠ 136 then mxFault s m .ringShape n r.z
    else
      let g : Gather := { slot := m.ref.slot, ring := n, fmt := w.fmt.toNat, off := immOff w, img := m.tm.stream.img, pc := m.tm.stream.pc }
      let s := s.updHand m.ref.hand fun h => { h with gather := h.gather ++ [g] }
      mxNext s m 2

/-- The parts of `n` bytes from `a` that lie within one aligned unit of `u` bytes: offset and length. -/
def pieces (u a n : Nat) : List (Nat × Nat) :=
  (List.range (n / u + 2)).filterMap fun i =>
    let lo := max a ((a / u + i) * u)
    let hi := min (a + n) ((a / u + i + 1) * u)
    if lo < hi then some (lo - a, hi - lo) else none

/-- The numbers of the 32-byte sectors that `n` bytes from `pa` touch. -/
def sectorsOf (pa n : Nat) : List Nat := (List.range ((pa + n - 1) / 32 - pa / 32 + 1)).map (pa / 32 + ·)

/-- The bytes of a place as a copy or the gather unit reads it: a sector that is not VAL as it stands, with a CELL_BUSY
record (R248), and whether each byte is poisoned. A peer's are those of its reply, which its access has awaited (R366). -/
def markedRead (s : State) (a : Actor) (p : Site) (t : Tgt) (va : W64) (space scope hint n : Nat) : State × List (Byte × Bool) :=
  let units := poisonedFor s a.hand t n scope hint
  let mark (bs : List Byte) : List (Byte × Bool) := bs.zipIdx.map fun b => (b.1, units.contains ((t.base + b.2) / 64))
  let busy := match t with
    | .dev pa => if space = 0 then sectorsOf pa n |>.filter fun k => tagAt s (32 * k) ≠ 0 else []
    | _ => []
  match t with
  | .peer d p =>
    let bad := (peerReq s a d p (.load n)).any fun r => r.reply.any fun x => x.1 = FaultCode.poison.code
    (s, (peerData s a d p n (.load n)).map fun b => (b, bad))
  | _ =>
  if busy.isEmpty then
    let (s, bs) := readTgt s a t n scope hint
    (s, mark bs)
  else
    let s := busy.foldl (fun s k =>
      postFault s a.ctx .cellBusy .i p (va - BitVec.ofNat 64 t.base + BitVec.ofNat 64 (32 * k)) (zext64 (tagAt s (32 * k))) 0) s
    let s := recallLine s (alignDown t.base 128)
    (s, mark (Memory.read s.mem t.base n))

/-- What stops an engine's access: a fault and its address, or a park or refusal. -/
structure EngStop where
  chk  : Chk
  addr : W64
  deriving DecidableEq, Repr

/-- Read a range unit by unit, each part checked by `chk` (its address, its length). -/
def rangeRead (a : Actor) (p : Site) (chk : State → W64 → Nat → State × Chk) (space scope hint : Nat) (addr : W64) :
    List (Nat × Nat) → State → State × Except EngStop (List (Byte × Bool))
  | [], s => (s, .ok [])
  | (o, n) :: r, s =>
    let va := addr + BitVec.ofNat 64 o
    match chk s va n with
    | (s, .ok t) =>
      let (s, bs) := markedRead s a p t (a.virtual space va) space scope hint n
      match rangeRead a p chk space scope hint addr r s with
      | (s, .ok rest) => (s, .ok (bs ++ rest))
      | e => e
    | (s, ck) => (s, .error ⟨ck, va⟩)

/-- The distinct poisoned units of a read range, by the addresses of its bytes. -/
def markedUnits (addr : W64) (bs : List (Byte × Bool)) : List Nat :=
  ((bs.zipIdx.filter (·.1.2)).map fun b => (addr.toNat + b.2) / 64).dedup

/-- Poisoned units that a GATH has touched: the space and the unit of each. -/
abbrev Marks := List (Nat × Nat)

/-- The record of each distinct unit, in ascending order of its address (R143). -/
def logMarks (s : State) (a : Actor) (ms : Marks) : State :=
  (ms.dedup.insertionSort fun x y => x.2 ≤ y.2).foldl (fun s m =>
    postPoison s a.ctx (m.2 * 64) m.1 (if a.faults 1 then 1 else 0) a.hand a.eng.code 0) s

/-- The failure of a GATH: code, address, details, and the poisoned units that it touched. -/
structure GatherBad where
  stop : EngStop
  d1   : W64
  d2   : W64
  marks : Marks
  deriving DecidableEq, Repr

/-- A gather-unit read: the checks of R119 on the whole access, then the PSEG policy on poison (R143, R267). -/
def gatherRead (s : State) (a : Actor) (p : Site) (space : Nat) (addr : W64) (n algn : Nat) (ms : Marks) :
    State × Except GatherBad (List (Byte × Bool) × Marks) :=
  let chk (s : State) (va : W64) (k : Nat) : State × Chk :=
    untilFree (fun s t => copyHolds s t k)
      (if va = addr then checkAccess s a .load space 3 n algn false va true else checkAccess s a .load space 3 k 1 false va true)
  match rangeRead a p chk space 3 0 addr (pieces 64 addr.toNat n) s with
  | (s, .error e) => (s, .error ⟨e, 0, accDetail n space, ms⟩)
  | (s, .ok bs) =>
    let ms := ms ++ (markedUnits addr bs).map fun u => (space, u)
    if a.faults 1 && bs.any (·.2) then (s, .error ⟨⟨.fault .poison, addr⟩, 0, accDetail n space, ms⟩) else (s, .ok (bs, ms))

/-- The bytes of a read under the policy ZERO. -/
def zeroed (bs : List (Byte × Bool)) : List Byte := bs.map fun b => if b.2 then 0 else b.1

/-- The rows of a GATH in order (R267): the column and the bytes of each. -/
def gatherRows (a : Actor) (p : Site) (ring fmt p0 space pitch : Nat) (idx base : W64) :
    List Nat → Marks → State → State × Except GatherBad (List (Nat × List Byte) × Marks)
  | [], ms, s => (s, .ok ([], ms))
  | j :: js, ms, s =>
    match gatherRead s a p space (idx + BitVec.ofNat 64 (4 * j)) 4 4 ms with
    | (s, .error e) => (s, .error e)
    | (s, .ok (ib, ms)) =>
      let k := ofBytes (zeroed ib)
      if k < p0 || p0 + 4 * fmtK fmt ≤ k then
        (s, .error ⟨⟨.fault .gatherRange, 0⟩, BitVec.ofNat 64 ring, BitVec.ofInt 64 ((k : Int) - p0), ms⟩)
      else
        match gatherRead s a p 0 (base + BitVec.ofNat 64 (k * pitch)) (64 * elemBits fmt / 8) (elemBits fmt / 8) ms with
        | (s, .error e) => (s, .error e)
        | (s, .ok (bs, ms)) =>
          match gatherRows a p ring fmt p0 space pitch idx base js ms s with
          | (s, .ok (r, ms)) => (s, .ok ((k - p0, zeroed bs) :: r, ms))
          | e => e

/-- The bytes of a gathered slot (R267, R268). -/
def gatheredSlot (fmt : Nat) (rows : List (Nat × List Byte)) : List Byte :=
  let rb := 64 * elemBits fmt / 8
  let n := rows.length
  rows.flatMap (fun r => toBytes 2 r.1) ++ List.replicate (2 * (256 - n)) 0xFF ++ rows.flatMap (·.2) ++ List.replicate (rb * (fmtK fmt - n)) 0

/-- A GATH has failed: it writes no slot, and its fault waits for the stream (R267). An access that parks is made again. -/
def gatherFail (s : State) (m : Mx) (g : Gather) (b : GatherBad) : State :=
  match b.stop.chk with
  | .fault c =>
    updStream ((logMarks s (m.actor .gather) b.marks).updHand m.ref.hand fun h => { h with gather := h.gather.drop 1 }) m.ref fun x =>
      { x with gathFaults := x.gathFaults ++ [⟨c, b.stop.addr, b.d1, b.d2, g.ring, g.img, g.pc⟩] }
  | .park va => parkAgent s m.tm.ctx (.stream m.ref) (BitVec.ofNat 64 va) none
  | .offline d => dieOffline s m.tm.ctx (.stream m.ref) { streamSite m.ref m.tm with engine := 3, img := g.img, pc := g.pc } b.stop.addr d
  | _ => s

/-- A GATH record keeps the table of R267 for a format. -/
def gatherRecordOk (fmt : Nat) (rec : List Byte) : Bool :=
  let f (o n : Nat) : Nat := ofBytes ((rec.drop o).take n)
  f 16 4 ≤ fmtK fmt && f 24 4 % 64 = 0 && f 28 1 ≤ 1 && f 29 3 = 0

/-- The GATH writes its slot and advances the tail, a .HD release (R267). -/
def gatherDone (s : State) (m : Mx) (g : Gather) (rows : List (Nat × List Byte)) (ms : Marks) : State :=
  let s := logMarks s (m.actor .gather) ms
  let s := scratchWrite s m.ref.hand ((ringOf m.tm g.ring).slotAt (ringOf m.tm g.ring).t) (gatheredSlot g.fmt rows)
  let s := (releaseAt s m.ref.hand 0).updTeam m.ref fun t => updRing t g.ring fun r => { r with t := r.t + 1 }
  s.updHand m.ref.hand fun h => { h with gather := h.gather.drop 1 }

/-- The head GATH goes on with its record: it waits for room, then reads its rows. -/
def gatherWith (s : State) (m : Mx) (g : Gather) (rec : List (Byte × Bool)) : State :=
  let a := m.actor .gather
  let bs := zeroed rec
  let f (o n : Nat) : Nat := ofBytes ((bs.drop o).take n)
  let ms := (markedUnits (BitVec.ofNat 64 g.off) rec).map fun u => (1, u)
  if !gatherRecordOk g.fmt bs then
    gatherFail s m g ⟨⟨.fault .ringShape, 0⟩, BitVec.ofNat 64 g.ring, BitVec.ofNat 64 (f 16 4), ms⟩
  else if (ringOf m.tm g.ring).n ≤ (ringOf m.tm g.ring).occ then s
  else
    match gatherRows a { streamSite m.ref m.tm with engine := 3, img := g.img, pc := g.pc } g.ring g.fmt (f 20 4) (f 28 1) (f 24 4)
        (BitVec.ofNat 64 (f 0 8)) (BitVec.ofNat 64 (f 8 8)) (List.range (f 16 4)) ms s with
    | (s, .error b) => gatherFail s m g b
    | (s, .ok (rows, ms)) => gatherDone s m g rows ms

/-- The gather unit's head GATH: its record is read once, then it goes on. -/
def gatherOne (s : State) (m : Mx) (g : Gather) : State :=
  match g.record with
  | some rec => gatherWith s m g rec
  | none =>
    match gatherRead s (m.actor .gather) { streamSite m.ref m.tm with engine := 3, img := g.img, pc := g.pc } 1 (BitVec.ofNat 64 g.off) 32 1 [] with
    | (s, .error b) => gatherFail s m g b
    | (s, .ok (rec, _)) =>
      gatherWith (s.updHand m.ref.hand fun h => { h with gather := { g with record := some rec } :: h.gather.drop 1 }) m g rec

/-- GATHER_EXECUTE (R267): the unit takes its GATHs one at a time, in order; it works for the stream, whose refused pages are its own
(R350). -/
def execGatherExecute (h : Nat) (s : State) : Res :=
  match (s.hand h).gather with
  | [] => .next s
  | g :: _ =>
    let t : TeamRef := ⟨h, g.slot⟩
    match s.team? t with
    | none => .next (s.updHand h fun x => { x with gather := x.gather.drop 1 })
    | some tm =>
      match s.ctx? tm.ctx, s.thread? ⟨h, g.slot, tm.stream.owner⟩ with
      | some c, some th =>
        if isParked s (.stream t) || !handRuns s h then .next s
        else .next { gatherOne { s with cur := .stream t } ⟨t, tm, c, th, none⟩ g with cur := s.cur }
      | _, _ => .next s

end Sys2Proof.Machine
end

