-- ==== Sys2Proof/Machine/Copies.lean ====
section
/-! DEFINITION. Copy commands and chains: CPY and CPCAN, the queues of the near and bulk engines, argument records, the
checks and the writes of each command, completion, cancellation and faults: R65, R86, R161-R164, R191, R192, R274-R281, and
records that enter a bin: R331. -/

namespace Sys2Proof.Machine

/-! ### Commands (R65, R274, R275) -/

/-- The fields of words 0 and 1 of a command. -/
def copyWord : Instr → CopyW
  | .cpG2p w | .cpP2g w | .cpG2g w | .cpP2p w | .cpG2l w => w
  | .cpFill w _ | .cpRows w _ | .cpToring w _ | .cpReduce w _ => w
  | _ => ⟨0, 0, 0, 0, 0, 0, 0⟩

/-- The commands of the bulk engines (R274). -/
def bulkCmd : Instr → Bool
  | .cpG2g _ | .cpReduce .. => true
  | _ => false

/-- The space code of a command's source; none for FILL. -/
def srcSpace : Instr → Option Nat
  | .cpFill .. => none
  | .cpP2g _ | .cpP2p _ => some 1
  | _ => some 0

/-- The space code of the destination of a row: FILL keeps its record's choice in the row's source (R275). -/
def dstSpace (i : Instr) (row : W64 × W64) : Nat :=
  match i with
  | .cpFill .. => row.1.toNat
  | .cpG2p _ | .cpP2p _ | .cpRows .. | .cpToring .. => 1
  | .cpG2l _ => 3
  | _ => 0

/-- The op byte and the tag, detail 1 of COPY_FORMAT (R339). -/
def opAndTag (i : Instr) : W64 := zext64 (((wordsOf i).getD 0 0).extractLsb' 16 16)

/-! ### The queues -/

/-- The near or bulk queue of a hand. -/
def copyQueue (s : State) (h : Nat) (bulk : Bool) : List Copy := if bulk then (s.hand h).bulk else (s.hand h).near

/-- Replace the near or bulk queue of a hand. -/
def setQueue (s : State) (h : Nat) (bulk : Bool) (q : List Copy) : State :=
  s.updHand h fun x => if bulk then { x with bulk := q } else { x with near := q }

/-- The command or chain with a number. -/
def copyOf? (s : State) (h : Nat) (bulk : Bool) (id : Nat) : Option Copy := (copyQueue s h bulk).find? (·.id = id)

/-- Change one command or chain. -/
def updCopy (s : State) (h : Nat) (bulk : Bool) (id : Nat) (f : Copy → Copy) : State :=
  setQueue s h bulk ((copyQueue s h bulk).map fun x => if x.id = id then f x else x)

/-- Remove one. -/
def dropCopy (s : State) (h : Nat) (bulk : Bool) (id : Nat) : State :=
  setQueue s h bulk ((copyQueue s h bulk).filter fun x => x.id ≠ id)

/-- The issuing thread of a copy. -/
def Copy.ref (x : Copy) (h : Nat) : ThreadRef := ⟨h, x.slot, x.role⟩

/-- The entries of a hand's bulk queue: its direct commands, and those that chains have handed over (R274). -/
def bulkHeld (s : State) (h : Nat) : Nat :=
  (s.hand h).bulk.length + (s.hand h).near.countP fun x => x.chain.isSome && x.issued && (x.cmd.map bulkCmd).getD false

/-- The commands that the bulk engines of a die have in flight (R13, R274). -/
def bulkFlying (s : State) (d : Nat) : Nat :=
  ((s.hands.filter fun p => dieOf p.1 = d).map fun p =>
    p.2.bulk.countP (·.issued) + p.2.near.countP fun x => x.chain.isSome && x.issued && (x.cmd.map bulkCmd).getD false).sum

/-- The receiving engine has a free entry (R274). -/
def copyRoom (s : State) (h : Nat) (bulk : Bool) : Bool := if bulk then bulkHeld s h < 16 else (s.hand h).near.length < 64

/-! ### CPY (R191, R159) -/

/-- A new entry of a queue. -/
def newCopy (s : State) (k : Core) (cmd : Option Instr) (arg : W64) (chain : Option Chain) : Copy :=
  { id := s.fresh + 1, slot := k.ref.slot, role := k.ref.role, ctx := k.tm.ctx, img := k.th.img, pc := k.th.pc, cmd := cmd, arg := arg,
    chain := chain, edis := edisOf s k.ctx, issued := false, ord := 0, rows := [], rowB := 0, pos := 0, owned := [], logged := [],
    performed := false, cancelled := false, bad := none }

/-- Queue a command or chain and retire the CPY, whose earlier writes perform: they are released as each command issues. -/
def enqueueCopy (s : State) (k : Core) (bulk : Bool) (cmd : Option Instr) (arg : W64) (chain : Option Chain) : State :=
  if !copyRoom s k.ref.hand bulk then stall s k .cpy
  else
    let x := newCopy s k cmd arg chain
    drained s k fun s =>
      let s := s.draw.2
      retire (setQueue s k.ref.hand bulk (copyQueue s k.ref.hand bulk ++ [x])) k 1 id

/-- A retired command whose cause is raised (R86, R292). -/
def retiredCopy (c : Ctx) (th : Thread) (i : Instr) (own : Bool) : Bool := i.retired && !libraryServes c th own

/-! ### The copying agent -/

/-- The context in which an engine serves one command. -/
structure CopyRun where
  h    : Nat
  bulk : Bool
  x    : Copy
  th   : Thread
  tm   : Team
  i    : Instr
  deriving DecidableEq, Repr

/-- The agent of a copy. -/
def CopyRun.agent (e : CopyRun) : Agent := .copy e.h e.bulk e.x.id

/-- The engine that executes the command: a chain's G2G and REDUCE have the bulk engines' reach (R19, R274). -/
def CopyRun.eng (e : CopyRun) : Eng := if bulkCmd e.i then .bulk else .near

/-- The place of a record about a copy. -/
def copySite (e : CopyRun) : Site :=
  { engine := e.eng.code, hand := e.h, role := e.x.role, slot := e.x.slot, hw := e.th.hw, depth := e.th.depth,
    team := e.tm.teamNo.toNat, img := e.x.img, pc := match e.x.chain with | some c => c.pc | none => e.x.pc }

/-- The actor of a copy. -/
def CopyRun.actor (e : CopyRun) : Actor :=
  { hand := e.h, ctx := e.x.ctx, eng := e.eng, gseg := e.th.gseg, pseg := e.th.pseg, kseg := e.th.kseg, lseg := e.th.lseg,
    site := copySite e, who := e.agent }

/-- The scope of the command. -/
def CopyRun.scope (e : CopyRun) : Nat := (copyWord e.i).scope.toNat

/-- Change the command's entry. -/
def CopyRun.upd (e : CopyRun) (s : State) (f : Copy → Copy) : State := updCopy s e.h e.bulk e.x.id f

/-- An access of the command stops: a fault is kept for COPY_FAULT_STOP, or dropped where the command is cancelled (R280); a
miss or a refusing die parks it. -/
def copyStop (s : State) (e : CopyRun) (b : EngStop) (d1 d2 : W64) : State :=
  match b.chk with
  | .fault c => e.upd s fun x =>
      if x.cancelled then { x with issued := true, performed := true, owned := [] }
      else { x with bad := some (c, b.addr, d1, d2), owned := [] }
  | .park va => parkAgent s e.x.ctx e.agent (BitVec.ofNat 64 va) none
  | .offline d =>
    if (copyOf? s e.h e.bulk e.x.id).any (·.cancelled) then e.upd s fun x => { x with issued := true, performed := true, owned := [] }
    else dieOffline s e.x.ctx e.agent (copySite e) b.addr d
  | _ => s

/-! ### Checks (R276) -/

/-- This device's number is the pointer's (R115). -/
def ownPointer (s : State) (addr : W64) : Bool := match s.weave.devNum with | some d => bits addr 63 52 = d | none => true

/-- `n` bytes from `a` overlap a segment's range. -/
def Seg.meets (g : Seg) (a n : Nat) : Bool := a < g.base.toNat + g.limit.toNat && g.base.toNat < a + n

/-- Steps 1 to 7 of R119 for `n` bytes of a global row: a source against GSEG or KSEG, a destination against GSEG and outside
KSEG. -/
def globalForm (s : State) (a : Actor) (scope n : Nat) (src : Bool) (addr : W64) : Option FaultCode :=
  let top := bits addr 63 52
  let low := bits addr 51 0
  let own := ownPointer s addr
  if (scope ≠ 4 && top ≠ 0) || (scope = 4 && !own && 2303 < top) || 2 ^ 52 < low + n then some .addrForm
  else if scope = 4 && !own then (if a.eng = .bulk then none else some .spaceReach)
  else if !src && a.kseg.meets low n then some .spaceReach
  else if scope = 4 || a.gseg.admits low n || (src && a.kseg.admits low n) then none
  else some .segLimit

/-- Steps 1 to 7 for a row in a space. -/
def copyForm (s : State) (a : Actor) (scope space n : Nat) (src : Bool) (addr : W64) : Option FaultCode :=
  match space with
  | 1 =>
    match checkScratch s a (if src then .load else .store) n false addr 1 with
    | .fault f => some f
    | _ => none
  | 3 =>
    let va := (a.lseg.base + addr).toNat
    if a.lseg.admits va n && va < 2 ^ 52 then none else some .segLimit
  | _ => globalForm s a scope n src addr

/-- The place of an access of the command: steps 1 to 7, then step 8 (R276). -/
def copyAccess (a : Actor) (scope space : Nat) (src : Bool) (s : State) (addr : W64) (n : Nat) : State × Chk :=
  match copyForm s a scope space n src addr with
  | some f => (s, .fault f)
  | none =>
    match space with
    | 1 => (s, checkScratch s a (if src then .load else .store) n false addr 1)
    | 3 => checkVirtual s a.ctx a.hand a.eng.own .store (a.lseg.base + addr).toNat true
    | _ =>
      if scope = 4 && !ownPointer s addr then (s, checkPeer s a.hand (bits addr 63 52) (bits addr 51 0))
      else checkVirtual s a.ctx a.hand a.eng.own (if src then .load else .store) (bits addr 51 0) true

/-- Another copy, which has issued, owns lines of the target (R161). -/
def otherHolds (s : State) (id : Nat) (t : Tgt) (n : Nat) : Bool :=
  match t with
  | .dev pa => s.hands.any fun p => (p.2.near ++ p.2.bulk).any fun x =>
      x.id ≠ id && x.owned.any fun l => l * 128 < pa + n && pa < l * 128 + 128
  | _ => false

/-- A read of a peer's memory has its reply, or why it does not go on (R366). -/
def peerAnswer (s : State) (a : Actor) (t : Tgt) (n : Nat) : State × Chk :=
  match peerAsk s a t (.load n) with
  | (s, .done _) => (s, .ok t)
  | (s, .waits) => (s, .waits)
  | (s, .fault f) => (s, .fault f)
  | (s, .offline) => (s, .offline (2 ^ 31 + (match t with | .peer d _ => d | _ => 0)))

/-- The place of a read of the command, once no other copy owns it and a peer that it names has answered. -/
def copyFrom (e : CopyRun) (space : Nat) (s : State) (addr : W64) (n : Nat) : State × Chk :=
  match untilFree (fun s t => otherHolds s e.x.id t n) (copyAccess e.actor e.scope space true s addr n) with
  | (s, .ok t) => peerAnswer s e.actor t n
  | r => r

/-- Read `n` bytes of the command's source in space `space`, with the poison marks they carry. -/
def copyRead (s : State) (e : CopyRun) (space : Nat) (addr : W64) (n : Nat) : State × Except EngStop (List (Byte × Bool)) :=
  rangeRead e.actor (copySite e) (copyFrom e space) space e.scope (copyWord e.i).hint.toNat addr (pieces 64 addr.toNat n) s

/-- Log one record for each of the poisoned units (space and number) of which the command has logged none, ascending (R143). -/
def logUnits (s : State) (e : CopyRun) (outcome : Nat) (us : List (Nat × Nat)) : State :=
  let seen := match copyOf? s e.h e.bulk e.x.id with | some x => x.logged | none => []
  let new := (us.dedup.filter fun u => !seen.contains u).insertionSort fun a b => a.2 ≤ b.2
  if new.isEmpty then s
  else
    e.upd (new.foldl (fun s u => postPoison s e.actor.ctx (u.2 * 64) u.1 outcome e.h e.eng.code 0) s) fun x => { x with logged := x.logged ++ new }

/-- The poisoned source units of a read range that the copy has passed on (R144). -/
def logSource (s : State) (e : CopyRun) (space : Nat) (addr : W64) (bs : List (Byte × Bool)) : State :=
  logUnits s e 2 ((markedUnits addr bs).map fun u => (space, u))

/-! ### Argument records (R65, R275) -/

/-- The four fields of an argument record. -/
structure ArgRec where
  src  : W64
  dst  : W64
  cnt  : W64
  strd : W64
  deriving DecidableEq, Repr

/-- The fields in 32 bytes. -/
def argRec (bs : List Byte) : ArgRec :=
  let f (o : Nat) : W64 := BitVec.ofNat 64 (ofBytes ((bs.drop o).take 8))
  ⟨f 0, f 8, f 16, f 24⟩

/-- The row bytes and the rows that a count field gives (R275). -/
def rowShape (cnt : W64) : Nat × Nat := (bits cnt 31 0, max 1 (bits cnt 63 32))

/-- The strides, which count only where there are several rows. -/
def stridesOf (r : ArgRec) : Nat × Nat := if (rowShape r.cnt).2 = 1 then (0, 0) else (bits r.strd 31 0, bits r.strd 63 32)

/-- The width in bytes of a REDUCE type (R62, R275). -/
def reduceBytes (imm : BitVec 32) : Nat := tyWidth (imm.toNat % 16) / 8

/-- A record that breaks R275 raises COPY_FORMAT (R276); `slot` is a TORING's slot size. -/
def recordBad (i : Instr) (r : ArgRec) (slot : Nat) : Bool :=
  let (b, n) := rowShape r.cnt
  let (ss, ds) := stridesOf r
  match i with
  | .cpFill .. => 1 < r.src.toNat || ss ≠ 0
  | .cpToring .. => r.dst ≠ 0 || ds ≠ 0 || slot < b * n
  | .cpReduce _ t =>
    let w := reduceBytes t
    b % w ≠ 0 || r.src.toNat % w ≠ 0 || r.dst.toNat % w ≠ 0 || ss % w ≠ 0 || ds % w ≠ 0
  | _ => false

/-- The rows of a command other than ROWS: their sources and destinations; a TORING's run on from its slot's start, a FILL's
keep the space. None where no byte is copied (R279). -/
def rowList (i : Instr) (r : ArgRec) : List (W64 × W64) :=
  let (b, n) := rowShape r.cnt
  let (ss, ds) := stridesOf r
  if b = 0 then []
  else
    (List.range n).map fun j =>
      match i with
      | .cpFill .. => (r.src, r.dst + BitVec.ofNat 64 (j * ds))
      | .cpToring .. => (r.src + BitVec.ofNat 64 (j * ss), BitVec.ofNat 64 (j * b))
      | _ => (r.src + BitVec.ofNat 64 (j * ss), r.dst + BitVec.ofNat 64 (j * ds))

/-- The rows of CP.ROWS from its index values (R275). -/
def gatheredRows (r : ArgRec) (idx : List Nat) : List (W64 × W64) :=
  let b := bits r.cnt 31 0
  if b = 0 then []
  else idx.zipIdx.map fun p => (r.src + BitVec.ofNat 64 (p.1 * bits r.cnt 63 32), r.dst + BitVec.ofNat 64 (p.2 * b))

/-- The ring of a TORING. -/
def toringRing : Instr → Option Nat
  | .cpToring _ imm => some (imm.toNat % 8)
  | _ => none

/-- The TORINGs of a ring of the team that have issued and not ended, `ord` and later ones apart (R277). -/
def toringsBefore (s : State) (e : CopyRun) (r ord : Nat) : Nat :=
  (s.hand e.h).near.countP fun y => y.id ≠ e.x.id && y.toring e.x.slot r && y.issued && y.ord < ord

/-- The scratchpad address of a row's destination: a TORING's lies in the slot that it will fill (R277). -/
def rowDest (s : State) (e : CopyRun) (dst : W64) : W64 :=
  match toringRing e.i with
  | some r =>
    let g := ringOf e.tm r
    BitVec.ofNat 64 (g.slotAt (g.t + BitVec.ofNat 32 (toringsBefore s e r (if e.x.issued then e.x.ord else s.fresh + 1)))) + dst
  | none => dst

/-- The first row check that fails (R276), row by row, destination first: the code, the address and the space. -/
def rowsFault (s : State) (e : CopyRun) (b : Nat) (rows : List (W64 × W64)) : Option (FaultCode × W64 × Nat) :=
  rows.findSome? fun r =>
    let ds := dstSpace e.i r
    let a := rowDest s e r.2
    match copyForm s e.actor e.scope ds b false a with
    | some f => some (f, a, ds)
    | none =>
      match srcSpace e.i with
      | some sp => (copyForm s e.actor e.scope sp b true r.1).map fun f => (f, r.1, sp)
      | none => none

/-! ### Destination lines (R161, R164) -/

/-- A part of a row that lies within one destination line: the row, its first byte within the row, its length. -/
abbrev Frag := (W64 × W64) × Nat × Nat

/-- The size of a destination line (R164). -/
def lineSize (i : Instr) (row : W64 × W64) : Nat := if dstSpace i row = 1 then 64 else 128

/-- The address by which a row's destination is cut into lines: a private one lies above the base of its segment (R115, R164). -/
def lineAddr (i : Instr) (base : W64) (row : W64 × W64) : Nat := (if dstSpace i row = 3 then base + row.2 else row.2).toNat

/-- The destination line of a part of a row. -/
def fragLine (i : Instr) (base : W64) (f : Frag) : Nat := (lineAddr i base f.1 + f.2.1) / lineSize i f.1

/-- The parts of rows of `b` bytes, line by line, the line of the first row's first byte first; `base` is that of private space. -/
def fragsOf (i : Instr) (base : W64) (b : Nat) (rows : List (W64 × W64)) : List Frag :=
  let fs := rows.flatMap fun r => (pieces (lineSize i r) (lineAddr i base r) b).map fun p => (r, p)
  ((fs.map (fragLine i base)).reverse.dedup.reverse).flatMap fun k => fs.filter fun f => fragLine i base f = k

/-- The parts of the rows of a command. -/
def copyPieces (e : CopyRun) : List Frag := fragsOf e.i e.th.lseg.base e.x.rowB e.x.rows

/-- The line of device memory that a part's destination names now, if its page is present: its number. -/
def lineTaken (s : State) (e : CopyRun) (f : Frag) : State × Option Nat :=
  let a := f.1.2 + BitVec.ofNat 64 f.2.1
  let sp := dstSpace e.i f.1
  if sp = 1 || (sp = 0 && e.scope = 4 && !ownPointer s a) then (s, none)
  else
    let va := if sp = 3 then (e.th.lseg.base + a).toNat else bits a 51 0
    match translate s e.x.ctx e.h e.eng.own va with
    | (s, .ok t) => (s, if t.host || binWindow ≤ t.pa + (va - t.va) then none else some ((t.pa + (va - t.va)) / 128))
    | (s, _) => (s, none)

/-- The lines of device memory that the destinations of a command name (R161). -/
def linesTaken (e : CopyRun) : List Frag → State → State × List Nat
  | [], s => (s, [])
  | f :: fs, s =>
    match lineTaken s e f with
    | (s, l) => match linesTaken e fs s with | (s, ls) => (s, (l.toList ++ ls).dedup)

/-! ### Issue (R159, R161, R274-R277) -/

/-- A command that does not issue yet has changed nothing but what it asked of peers. -/
def onlyAsked (s t : State) : State := { s with weave := t.weave, outbox := t.outbox }

/-- The requests of the command's reads are over. -/
def CopyRun.readDone (e : CopyRun) (s : State) : State := peerDone s e.agent 0

/-- The rows are known: the command's checks, and its issue, at which it takes its destination lines (R161). None where another copy owns
one of them. -/
def issueRows (s : State) (e : CopyRun) (b : Nat) (rows : List (W64 × W64)) : Option State :=
  if e.x.cancelled then some (e.upd s fun x => { x with issued := true, rows := rows, rowB := b, performed := true })
  else
    match rowsFault s e b rows with
    | some (f, a, sp) => some (copyStop s e ⟨.fault f, a⟩ 0 (accDetail (min b 64) sp))
    | none =>
      match linesTaken e (fragsOf e.i e.th.lseg.base b rows) s with
      | (s, ls) =>
        if ls.any fun l => otherHolds s e.x.id (.dev (l * 128)) 128 then none
        else
          let (n, s) := s.draw
          some (e.readDone (e.upd s fun x => { x with issued := true, ord := n + 1, rows := rows, rowB := b, pos := 0, owned := ls }))

/-- The rows of CP.ROWS, from its index list: the list's address form and its alignment come before the other checks of its reads (R119,
R121). A command that copies no byte, or that has been cancelled, reads no list. -/
def issueList (s : State) (e : CopyRun) (r : ArgRec) (sp n : Nat) : Option State :=
  let b := (rowShape r.cnt).1
  if b = 0 || n = 0 then issueRows s e b []
  else if e.x.cancelled then issueRows s e b (List.replicate n (0, 0))
  else if copyForm s e.actor e.scope sp (4 * n) true r.strd = some .addrForm then some (copyStop s e ⟨.fault .addrForm, r.strd⟩ 0 (accDetail 4 sp))
  else if r.strd.toNat % 4 ≠ 0 then some (copyStop s e ⟨.fault .align, r.strd⟩ 0 (accDetail 4 sp))
  else
    match copyRead s e sp r.strd (4 * n) with
    | (t, .error ⟨.waits, _⟩) => some (onlyAsked s t)
    | (s, .error x) => some (copyStop s e x 0 (accDetail 4 sp))
    | (s, .ok bs) =>
      issueRows (logSource s e sp r.strd bs) e b (gatheredRows r ((List.range n).map fun j => ofBytes (((bs.drop (4 * j)).take 4).map (·.1))))

/-- Issue with the argument record read. -/
def issueRecord (s : State) (e : CopyRun) (r : ArgRec) : Option State :=
  let ring := (toringRing e.i).map (ringOf e.tm)
  let slot := match ring with | some g => 64 * g.z | none => 0
  let b := (rowShape r.cnt).1
  if !e.x.cancelled && recordBad e.i r (if ring.isSome then 2 ^ 64 else 0) then some (copyStop s e ⟨.fault .copyFormat, 0⟩ (opAndTag e.i) 0)
  else if !e.x.cancelled && (match ring with | some g => !g.valid | none => false) then
    some (copyStop s e ⟨.fault .ringUninit, 0⟩ (BitVec.ofNat 64 ((toringRing e.i).getD 0)) 0)
  else if !e.x.cancelled && recordBad e.i r slot then some (copyStop s e ⟨.fault .copyFormat, 0⟩ (opAndTag e.i) 0)
  else
    match e.i with
    | .cpRows _ imm => issueList s e r (if imm.getLsbD 31 then 1 else 0) (imm.toNat % 2 ^ 31)
    | _ => issueRows s e b (rowList e.i r)

/-- A command issues: the CPY's release at its scope (R159), the read of its argument record at that scope, its checks. A
poisoned record follows the GSEG policy of the thread (R143). None where it waits for a line that another copy owns (R161). -/
def issueCopy (s : State) (e : CopyRun) : Option State :=
  let s := releaseAt s e.h e.scope
  let a := e.actor
  let addr := e.x.arg + zext64 (copyWord e.i).off
  match rangeRead a (copySite e) (copyFrom e 0) 0 e.scope 0 addr (pieces 64 addr.toNat 32) s with
  | (t, .error ⟨.waits, _⟩) => some (onlyAsked s t)
  | (s, .error x) => some (copyStop s e x 0 (accDetail 32 0))
  | (s, .ok bs) =>
    let s := logUnits s e (if a.faults 0 then 1 else 0) ((markedUnits addr bs).map fun u => (0, u))
    if a.faults 0 && bs.any (·.2) then some (copyStop s e ⟨.fault .poison, addr⟩ 0 (accDetail 32 0))
    else issueRecord s e (argRec (zeroed bs))

/-! ### Records that enter a bin (R330-R332) -/

/-- The bin `b` of a die. -/
def binOf (s : State) (d b : Nat) : Bin := (s.die d).bins.getD b ⟨0, 0, [], false, 0, []⟩

/-- The number of the oldest record whose slot is in use. -/
def Bin.oldest (b : Bin) : Nat := b.batches.foldl (fun m p => min m p.1) b.taken

/-- The 32-byte record of bin `b` (R330), as a field of `n` bytes at offset `o`: the table lies in device memory. -/
def binField (s : State) (d b o n : Nat) : Nat := Memory.readNat s.mem ((s.die d).binBase.toNat + 32 * b + o) n

/-- A record for the bin waits: the bin holds as many as its capacity (R331). -/
def binFull (s : State) (d b : Nat) : Bool :=
  let x := binOf s d b
  binField s d b 19 1 % 2 = 1 && binField s d b 16 2 ≤ x.entered - x.oldest

/-- The bin takes records: it is enabled, and no evaluation bin (log entry 9). -/
def binTakes (s : State) (d b : Nat) : Bool := b ≠ 1023 && binField s d b 19 1 % 2 = 1

/-- The virtual address of the slot that the next record of a bin takes in its backing store. -/
def binSlot (s : State) (d b : Nat) : W64 :=
  BitVec.ofNat 64 (binField s d b 8 8 + 64 * ((binOf s d b).entered % max 1 (binField s d b 16 2)))

/-- What keeps a record of context `c` from entering a bin now: the bin is full (R331), or its backing store cannot be written yet (R161,
R372, R374). -/
def binStop (s : State) (d b c : Nat) : Option Chk :=
  if binFull s d b then some .waits
  else if !binTakes s d b then none
  else
    match (fePlace s c .store (binSlot s d b) 64).2 with
    | .error .later => some .waits
    | .error (.offline x) => some (.offline x)
    | _ => none

/-- A record enters the bin: it lies in the backing store at its slot, a .DV release, and the timer starts as the first
waiting record arrives. -/
def binEnter (s : State) (d b c : Nat) (writer : Option Nat) (rec : List Byte) : State :=
  if !binTakes s d b then s
  else
    let x := binOf s d b
    match feWrite s c (binSlot s d b) rec with
    | (s, .ok _) =>
      let x := { x with entered := x.entered + 1, timer := x.timer || x.entered = x.taken, ctx := c, writers := x.writers ++ [writer] }
      s.updDie d fun y => { y with bins := y.bins.set b x }
    | (s, _) => s

/-! ### Writes (R144, R161, R164, R253, R275) -/

/-- A place `k` bytes on. -/
def Tgt.plus (t : Tgt) (k : Nat) : Tgt :=
  match t with
  | .dev p => .dev (p + k) | .host p => .host (p + k) | .scratch h o => .scratch h (o + k) | .peer d p => .peer d (p + k) | .bin d b => .bin d b

/-- Add poison marks to the units that marked bytes of a write reach (R144). -/
def markUnits (s : State) (t : Tgt) (bs : List (Byte × Bool)) : State :=
  let us := ((bs.zipIdx.filter (·.1.2)).map fun b => (t.base + b.2) / 64).dedup
  match t with
  | .dev _ => spoil s us
  | .scratch h _ => s.updHand h fun x => { x with scratchPoison := x.scratchPoison ++ us.filter fun u => !x.scratchPoison.contains u }
  | _ => s

/-- A part of a row that is ready to be written: its destination, as its address and the place that names, and its source bytes with their
address and space. -/
structure Part where
  row : W64 × W64
  va  : W64
  tgt : Tgt
  bs  : List (Byte × Bool)
  src : W64
  sp  : Nat
  deriving DecidableEq, Repr

/-- The actor that writes a part. -/
def Part.actor (p : Part) (e : CopyRun) : Actor := e.actor.toward (e.actor.virtual (dstSpace e.i p.row) p.va) p.tgt

/-- The part with a number is written at a peer: its request goes out, and the command completes once the peer has answered (R162, R167,
R366). -/
def partSend (s : State) (e : CopyRun) (j : Nat) (t : Tgt) (op : DomainOp) : State :=
  match t with
  | .peer d p => peerSend s { e.actor with part := j + 1 } d p op
  | _ => s

/-- Write the bytes of a part, at the home, where whoever waits for its line finds them whatever the scope (R161, R162). A device line is
first taken from every cache. -/
def partWrite (s : State) (e : CopyRun) (j : Nat) (p : Part) : State :=
  match p.tgt with
  | .peer _ _ =>
    partSend s e j p.tgt (if p.bs.any (·.2) then .marked (p.bs.map (·.1)) (p.bs.map (·.2)) else .store (p.bs.map (·.1)))
  | .dev pa => writeTgt (recallLine s (alignDown pa 128)) (p.actor e) p.tgt (p.bs.map (·.1)) 3 (copyWord e.i).hint.toNat
  | _ => writeTgt s (p.actor e) p.tgt (p.bs.map (·.1)) 3 (copyWord e.i).hint.toNat

/-- The sum of R275 for a type of `w` bytes: it wraps, or is rounded under RNE. -/
def reduceSum (ty w old v : Nat) : Nat := if ty < 8 then atomicFn 0 (8 * w) old v 0 else (fAdd (fmtOf ty) 0 false old v).1

/-- One element of CP.REDUCE (R275), one atomic; in device memory at the home of its line, which the copy owns (R161). -/
def reduceElem (s : State) (e : CopyRun) (p : Part) (ty w j : Nat) (t : Tgt) (v : Nat) : State :=
  match t with
  | .peer _ _ => partSend s e j t (.atomic (if ty < 8 then 0 else 16 + ty) (8 * w) (BitVec.ofNat 64 v) 0)
  | _ =>
    let (s, bs) := readTgt s e.actor t w 3 (copyWord e.i).hint.toNat
    writeTgt s (p.actor e) t (toBytes w (reduceSum ty w (ofBytes bs) v)) 3 (copyWord e.i).hint.toNat

/-- The elements of one part of CP.REDUCE. -/
def partReduce (s : State) (e : CopyRun) (imm : BitVec 32) (j : Nat) (p : Part) : State :=
  let w := reduceBytes imm
  let s := match p.tgt with | .dev pa => recallLine s (alignDown pa 128) | _ => s
  (List.range (p.bs.length / w)).foldl (fun s k =>
    reduceElem s e p (imm.toNat % 16) w (256 * j + k) (p.tgt.plus (w * k)) (ofBytes (((p.bs.drop (w * k)).take w).map (·.1)))) s

/-- The whole units of the bin window that a part covers: bin numbers and records. -/
def binUnits (d b : Nat) : List Byte → Nat → List (Nat × List Byte)
  | _, 0 => []
  | bs, n + 1 => (1024 * d + b, bs.take 64) :: binUnits d (b + 1) (bs.drop 64) n

/-- The bytes of a part: `n` bytes at `o` within a row. -/
def fragBytes (s : State) (e : CopyRun) (row : W64 × W64) (o n : Nat) : State × Except EngStop (List (Byte × Bool)) :=
  match e.i with
  | .cpFill _ pat => (s, .ok ((List.range n).map fun j => (pat.extractLsb' (8 * ((o + j) % 4)) 8, false)))
  | _ => copyRead s e ((srcSpace e.i).getD 0) (row.1 + BitVec.ofNat 64 o) n

/-- The destination of a part, once no other copy owns its line and the writes of its sub-page's owner have reached home (R139, R161). -/
def fragTarget (s : State) (e : CopyRun) (row : W64 × W64) (o n : Nat) : State × Chk :=
  untilFree (fun s t => otherHolds s e.x.id t n || match t with | .dev pa => ownerWrites s e.actor.owner pa fun _ => true | _ => false)
    (copyAccess e.actor e.scope (dstSpace e.i row) false s (rowDest s e row.2 + BitVec.ofNat 64 o) n)

/-- The parts of a line, made ready: every source is read before the line is written. In the bin window a part stands for itself. -/
def readyParts (e : CopyRun) : List Frag → State → State × Except (EngStop × W64) (List Part)
  | [], s => (s, .ok [])
  | (row, o, n) :: fs, s =>
    let va := rowDest s e row.2 + BitVec.ofNat 64 o
    match fragTarget s e row o n with
    | (s, .ok t) =>
      match fragBytes s e row o n with
      | (s, .error b) => (s, .error (b, accDetail n ((srcSpace e.i).getD 0)))
      | (s, .ok bs) =>
        let p : Part := ⟨row, va, t, bs, row.1 + BitVec.ofNat 64 o, (srcSpace e.i).getD 0⟩
        match t with
        | .bin _ _ => (s, .ok [p])
        | _ =>
          match readyParts e fs s with
          | (s, .ok ps) => (s, .ok (p :: ps))
          | r => r
    | (s, ck) => (s, .error (⟨ck, va⟩, accDetail n (dstSpace e.i row)))

/-- What forbids the write of a part: an add of REDUCE to the bin window, to a sector that is not VAL or to a poisoned unit (R143, R253,
R331), a part of a unit of the bin window: the code and the details. -/
def partFault (s : State) (e : CopyRun) (p : Part) : Option (FaultCode × W64 × W64) :=
  let acc := accDetail p.bs.length (dstSpace e.i p.row)
  match e.i, p.tgt with
  | .cpReduce .., .bin _ _ => some (.spaceReach, 0, acc)
  | .cpReduce .., .dev pa =>
    if !(poisonedFor s e.h p.tgt p.bs.length e.scope (copyWord e.i).hint.toNat).isEmpty then some (.poison, 0, acc)
    else ((sectorsOf pa p.bs.length).find? fun k => tagAt s (32 * k) ≠ 0).map fun k => (.cellBusy, zext64 (tagAt s (32 * k)), 0)
  | _, .bin _ _ => if p.va.toNat % 64 ≠ 0 || p.bs.length % 64 ≠ 0 then some (.copyFormat, opAndTag e.i, 0) else none
  | _, _ => none

/-- The poisoned units of the line's destinations that an add meets are logged, as those of an atomic (R143). -/
def logAdds (s : State) (e : CopyRun) (ps : List Part) : State :=
  match e.i with
  | .cpReduce .. =>
    logUnits s e 1 (ps.flatMap fun p =>
      (poisonedFor s e.h p.tgt p.bs.length e.scope (copyWord e.i).hint.toNat).map fun u => (0, unitAddr p.tgt p.va u / 64))
  | _ => s

/-- Write one part, which has a number in its command. -/
def partDone (s : State) (e : CopyRun) (j : Nat) (p : Part) : State :=
  match p.tgt, e.i with
  | .bin d b, _ =>
    (binUnits d b (p.bs.map (·.1)) (p.bs.length / 64)).foldl (fun s u =>
      binEnter (releaseAt s e.h 3) (u.1 / 1024) (u.1 % 1024) e.x.ctx (some e.tm.launch) u.2) s
  | _, .cpReduce _ imm => partReduce s e imm j p
  | _, _ => partWrite s e j p

/-- Write the parts of a line, from the part with a number on. The units that they cover whole lose their poison; those written from
poisoned bytes are poisoned (R144). -/
def partsDone (s : State) (e : CopyRun) (j : Nat) (ps : List Part) : State :=
  let s := ps.zipIdx.foldl (fun s p => partDone s e (j + p.2) p.1) s
  let s := clearCovered s e.h 3 (copyWord e.i).hint.toNat (ps.filterMap fun p => match p.tgt with | .dev pa => some (pa, p.bs.length) | _ => none) []
  let s := ((ps.filterMap fun p => match p.tgt with | .scratch h _ => some h | _ => none).dedup).foldl (fun s h =>
    clearCovered s h 3 0 [] (ps.filterMap fun p => match p.tgt with | .scratch g o => if g = h then some (o, p.bs.length) else none | _ => none)) s
  ps.foldl (fun s p => markUnits s p.tgt p.bs) s

/-- What keeps a part that names bins from being written now: the first of its bins that takes no record (R331). -/
def partStop (s : State) (e : CopyRun) (p : Part) : Option Chk :=
  match p.tgt with
  | .bin d b => (List.range (p.bs.length / 64)).findSome? fun j => binStop s ((1024 * d + b + j) / 1024) ((1024 * d + b + j) % 1024) e.x.ctx
  | _ => none

/-- The lines of device memory that parts have written are owned no more. -/
def Copy.wrote (x : Copy) (ps : List Part) : Copy :=
  { x with pos := x.pos + ps.length,
           owned := x.owned.filter fun l => !(ps.any fun p => match p.tgt with | .dev pa => pa / 128 = l | _ => false) }

/-- One destination line: its sources are read, it is checked, and it is written whole (R164). The second answer is how many parts have
been written. -/
def copyLine (s : State) (e : CopyRun) (line : List Frag) : State × Nat :=
  match readyParts e line s with
  | (s, .error (b, d2)) => (copyStop s e b 0 d2, 0)
  | (s, .ok ps) =>
    match ps.findSome? fun p => (partFault s e p).map fun f => (p, f) with
    | some (p, c, d1, d2) => (copyStop (logAdds s e ps) e ⟨.fault c, p.va⟩ d1 d2, 0)
    | none =>
      match ps.findSome? fun p => (partStop s e p).map fun c => (p, c) with
      | some (p, c) => (copyStop s e ⟨c, p.va⟩ 0 0, 0)
      | none =>
        let s := ps.foldl (fun s p => logSource s e p.sp p.src p.bs) s
        let pos := match copyOf? s e.h e.bulk e.x.id with | some x => x.pos | none => 0
        (e.readDone (e.upd (partsDone s e pos ps) (·.wrote ps)), ps.length)

/-- Write lines one after another, until one waits or stops; after the last one the command has performed. -/
def performPieces (e : CopyRun) : Nat → List Frag → State → State
  | _, [], s => e.upd s fun x => { x with performed := true, owned := [] }
  | 0, _ :: _, s => s
  | fuel + 1, f :: fs, s =>
    match copyLine s e (f :: fs.takeWhile fun g => fragLine e.i e.th.lseg.base g = fragLine e.i e.th.lseg.base f) with
    | (s, 0) => s
    | (s, n + 1) => performPieces e fuel (fs.drop n) s

/-- A TORING waits: its ring is full, or an earlier TORING of the ring has not ended (R277). -/
def toringWaits (s : State) (e : CopyRun) : Bool :=
  match toringRing e.i with
  | none => false
  | some r =>
    let g := ringOf e.tm r
    g.n ≤ g.occ || toringsBefore s e r e.x.ord ≠ 0

/-- The writes of an issued command, from the piece it has reached. All that can perform do so in this step, so that no other
agent reads a line of it in between (R161). -/
def performCopy (s : State) (e : CopyRun) : State :=
  if e.x.performed || e.x.bad.isSome || toringWaits s e then s
  else performPieces e (copyPieces e).length ((copyPieces e).drop e.x.pos) s

/-! ### Starting commands (R73, R274) -/

/-- The context of a command or chain: its thread and team. -/
def engineOf (s : State) (h : Nat) (bulk : Bool) (x : Copy) (i : Instr) : Option CopyRun :=
  match s.thread? (x.ref h), s.team? ⟨h, x.slot⟩ with
  | some th, some tm => some ⟨h, bulk, x, th, tm, i⟩
  | _, _ => none

/-- The entry may start or go on: in queue order, with at most 8 in flight on the near engine, and none behind a chain that a cause has
stopped; a chain in flight may always issue its next command. -/
def mayStart (q : List Copy) (bulk : Bool) (x : Copy) : Bool :=
  x.flying || ((q.takeWhile fun y => y.id ≠ x.id).all (fun y => y.flying && !y.caused) && (bulk || q.countP Copy.flying < 8))

/-- The entry may go on: its queue lets it, and for a direct bulk command that has not started an engine of the die is free (R13). -/
def mayGo (s : State) (h : Nat) (bulk : Bool) (x : Copy) : Bool :=
  mayStart (copyQueue s h bulk) bulk x && (!bulk || x.flying || bulkFlying s (dieOf h) < 8)

/-- Issue a command if it has not issued, and perform what can be performed. A chain's bulk command waits for an entry of the
bulk queue. -/
def runCopy (s : State) (h : Nat) (bulk : Bool) (id : Nat) : State :=
  match copyOf? s h bulk id with
  | none => s
  | some x =>
    match x.cmd with
    | none => s
    | some i =>
      match engineOf s h bulk x i with
      | none => s
      | some e =>
        if x.issued then performCopy s e
        else if x.chain.isSome && bulkCmd i && (16 ≤ bulkHeld s h || 8 ≤ bulkFlying s (dieOf h)) then s
        else
          match issueCopy s e with
          | none => s
          | some s =>
            match copyOf? s h bulk id with
            | some y =>
              match engineOf s h bulk y i with
              | some e => if y.issued then performCopy s e else s
              | none => s
            | none => s

/-- The chain goes on at `pc`; at an END it has completed (R50). -/
def chainOn (s : State) (h : Nat) (bulk : Bool) (x : Copy) (pc : Nat) : State :=
  if pc % 16 = 0 then dropCopy s h bulk x.id
  else
    updCopy s h bulk x.id fun x =>
      { x with cmd := none, chain := some ⟨pc, false, false⟩, issued := false, ord := 0, rows := [], rowB := 0, pos := 0, owned := [],
               logged := [], performed := false, bad := none }

/-- A chain's cause (R73, R74): the chain stops at the entry until its thread has handled it. -/
def chainCause (s : State) (h : Nat) (bulk : Bool) (x : Copy) (c : Chain) (cs : Cause) (ws : List W32) (native : Option Instr) : State :=
  let s := updCopy s h bulk x.id fun x => { x with chain := some { c with fresh := false, caused := true } }
  raiseCause s (x.ref h) { cause := cs, engine := .copy, words := ws, native := native, pc := c.pc, img := x.img, group := none, helper := false,
                           copy := x.id, arg := x.arg + zext64 (ws.getD 1 0) }

/-- A chain takes the command that stands at its address. -/
def chainTake (s : State) (h : Nat) (bulk : Bool) (x : Copy) (c : Chain) (i : Instr) : State :=
  match s.ctx? x.ctx, s.thread? (x.ref h) with
  | some ctx, some th =>
    if retiredCopy ctx th i false then chainCause s h bulk x c .retired (wordsOf i) (some i)
    else
      runCopy (updCopy s h bulk x.id fun x => { x with cmd := some i, chain := some { c with fresh := false } }) h bulk x.id
  | _, _ => s

/-- The fetch of a chain's next command. -/
def chainFetch (s : State) (h : Nat) (x : Copy) (c : Chain) : State × Fetched := fetchAt s h x.ctx x.img c.pc .copy x.edis c.fresh

/-- The fetch of a chain's command stops: IMAGE_LINK and page faults are faults of the chain (class C). -/
def chainStopped (s : State) (h : Nat) (bulk : Bool) (x : Copy) (c : Chain) (ck : Chk) : State :=
  match engineOf s h bulk x .copyNop, ck with
  | some e, .park va => parkAt s x.ctx e.agent (BitVec.ofNat 64 va) none true
  | some e, .fault f => let d := fetchDetails s x.ctx x.img f (c.pc / 16); copyStop s e ⟨ck, d.1⟩ d.2.1 d.2.2
  | some _, .waits => s
  | some e, _ => copyStop s e ⟨ck, 0⟩ 0 0
  | none, _ => s

/-- A chain between two commands goes on: the end of its chain, fill, a NOP, a cause or its next command. -/
def chainStep (s : State) (h : Nat) (bulk : Bool) (x : Copy) (c : Chain) : State :=
  match chainFetch s h x c with
  | (s, .run .copyNop) => chainOn s h bulk x (nextPc s h x.ctx x.img c.pc 1)
  | (s, .run i) => chainTake s h bulk x c i
  | (s, .cause cs ws i) => chainCause s h bulk x c cs ws i
  | (s, .skip pc) => chainOn s h bulk x pc
  | (s, .endOfChain) => dropCopy s h bulk x.id
  | (s, .stop ck) => chainStopped s h bulk x c ck
  | (s, .ended) => s

/-- Whether an entry has something to do now: it is neither stopped, parked, performed nor held by a cause. -/
def copyLive (s : State) (h : Nat) (bulk : Bool) (x : Copy) : Bool :=
  x.bad.isNone && !x.performed && !isParked s (.copy h bulk x.id) && !x.caused

/-- One turn of an entry: a chain between commands goes on, a command issues or performs. -/
def copyTurn (s : State) (h : Nat) (bulk : Bool) (x : Copy) : State :=
  match x.chain, x.cmd with
  | some c, none => chainStep s h bulk x c
  | _, _ => runCopy s h bulk x.id

/-- COPY_START (R274): the first entry of the queue that has not begun its next command, and may, begins it. -/
def execCopyStart (h : Nat) (bulk : Bool) (s : State) : Res :=
  match (copyQueue s h bulk).find? fun x => !x.issued && copyLive s h bulk x && mayGo s h bulk x with
  | some x => .next (copyTurn s h bulk x)
  | none => .next s

/-- The meaning of a copy command: the served entry issues it, where it is a chain at that command or holds it, and performs
it as far as it can. -/
def onCopy (s : State) (i : Instr) : Res :=
  match s.cur with
  | .copy h bulk id =>
    match copyOf? s h bulk id with
    | none => .next s
    | some x =>
      if !copyLive s h bulk x || !mayGo s h bulk x then .next s
      else
        match x.cmd, x.chain with
        | some j, _ => if j = i then .next (runCopy s h bulk id) else .next s
        | none, some c => .next (chainTake s h bulk x c i)
        | none, none => .next s
  | _ => .next s

/-- COPY_NOP (R76, R191): the chain goes on behind it. -/
def execCopyNop (s : State) : Res :=
  match s.cur with
  | .copy h bulk id =>
    match copyOf? s h bulk id with
    | some x =>
      match x.chain, x.cmd with
      | some c, none => if copyLive s h bulk x then .next (chainOn s h bulk x (nextPc s h x.ctx x.img c.pc 1)) else .next s
      | _, _ => .next s
    | none => .next s
  | _ => .next s

/-- CP.G2P (R275). -/
def execCpG2p (w : CopyW) (s : State) : Res := onCopy s (.cpG2p w)
/-- CP.P2G (R275). -/
def execCpP2g (w : CopyW) (s : State) : Res := onCopy s (.cpP2g w)
/-- CP.G2G (R275). -/
def execCpG2g (w : CopyW) (s : State) : Res := onCopy s (.cpG2g w)
/-- CP.P2P (R275). -/
def execCpP2p (w : CopyW) (s : State) : Res := onCopy s (.cpP2p w)
/-- CP.FILL (R275). -/
def execCpFill (w : CopyW) (imm : BitVec 32) (s : State) : Res := onCopy s (.cpFill w imm)
/-- CP.ROWS (R275). -/
def execCpRows (w : CopyW) (imm : BitVec 32) (s : State) : Res := onCopy s (.cpRows w imm)
/-- CP.TORING (R275, R277). -/
def execCpToring (w : CopyW) (imm : BitVec 32) (s : State) : Res := onCopy s (.cpToring w imm)
/-- CP.REDUCE (R275). -/
def execCpReduce (w : CopyW) (imm : BitVec 32) (s : State) : Res := onCopy s (.cpReduce w imm)
/-- CP.G2L (retired, R86). -/
def execCpG2l (w : CopyW) (s : State) : Res := onCopy s (.cpG2l w)

/-! ### Completion, cancellation and faults (R162, R164, R278-R280) -/

/-- The entry has ended its command: a direct one leaves, a chain goes on unless the command was cancelled. -/
def copyEnd (s : State) (h : Nat) (bulk : Bool) (x : Copy) (i : Instr) : State :=
  match x.chain with
  | none => dropCopy s h bulk x.id
  | some c =>
    if x.cancelled then dropCopy s h bulk x.id
    else chainOn s h bulk x (nextPc s h x.ctx x.img c.pc (wordsOf i).length)

/-- The tail advance of a TORING that was not cancelled must wait: its ring is full (R260). -/
def advanceWaits (s : State) (h : Nat) (x : Copy) (i : Instr) : Bool :=
  match toringRing i, s.team? ⟨h, x.slot⟩ with
  | some r, some tm => !x.cancelled && (ringOf tm r).valid && (ringOf tm r).n ≤ (ringOf tm r).occ
  | _, _ => false

/-- How a peer has answered a request of the copy: an add that meets a poisoned unit there has not been made (R143, R366). -/
def PeerReq.says (r : PeerReq) : PeerSays :=
  match r.reply with
  | none => .waits
  | some x =>
    match saysCode x.1, r.op with
    | .done true, .atomic .. => .fault .poison
    | y, _ => y

/-- The first request of a copy to a peer that has not been performed there. -/
def copyAsks (s : State) (a : Agent) : Option PeerReq :=
  s.weave.reqs.find? fun r => r.agent = a && match r.says with | .done _ => false | _ => true

/-- A request goes to its peer again (R368). -/
def peerAgain (s : State) (r : PeerReq) : State :=
  peerSend { s with weave := { s.weave with reqs := s.weave.reqs.erase r } }
    { hand := 0, ctx := r.ctx, eng := .bulk, gseg := Seg.none, pseg := Seg.none, kseg := Seg.none, lseg := Seg.none, who := r.agent, part := r.part }
    r.dev r.addr r.op

/-- The domain pointer that a request names. -/
def PeerReq.pointer (r : PeerReq) : W64 := BitVec.ofNat 64 (r.dev * 2 ^ 52 + r.addr)

/-- A write of the copy at a peer has not been performed: it waits for the reply; a refusal is the copy's fault, and a peer that does not
answer is asked again when the copy goes on. A cancelled copy waits for the reply and takes no fault (R164, R280, R366, R374). -/
def copyRefused (s : State) (e : CopyRun) (r : PeerReq) : State :=
  match r.says with
  | .fault c =>
    if e.x.cancelled then { s with weave := { s.weave with reqs := s.weave.reqs.erase r } }
    else
      let w := match r.op with | .atomic _ w _ _ => w / 8 | .store d => d.length | .marked d _ => d.length | .load n => n
      e.upd (peerDone s e.agent r.part) fun x => { x with bad := some (c, r.pointer, 0, if c = .cellBusy then 0 else accDetail w 0) }
  | .offline =>
    if e.x.cancelled then { s with weave := { s.weave with reqs := s.weave.reqs.erase r } }
    else peerAgain (dieOffline s e.x.ctx e.agent (copySite e) r.pointer (2 ^ 31 + r.dev)) r
  | _ => s

/-- COPY_COMPLETE (R162, R277, R279): a release at the copy's scope, the barrier's decrement by the byte count, a TORING's
tail advance, which waits while others have filled the ring. The effect that R86 gives CP.G2L names no barrier (log entry 72). -/
def execCopyComplete (h : Nat) (bulk : Bool) (n : Nat) (s : State) : Res :=
  match copyOf? s h bulk n with
  | none => .next s
  | some x =>
    match x.cmd with
    | none => .next s
    | some i =>
      if !x.performed || x.bad.isSome || advanceWaits s h x i || isParked s (.copy h bulk n) then .next s
      else
      match copyAsks s (.copy h bulk n), engineOf s h bulk x i with
      | some r, some e => .next (copyRefused s e r)
      | _, _ =>
        let s := { s with weave := { s.weave with reqs := s.weave.reqs.filter fun r => r.agent ≠ .copy h bulk n } }
        let w := copyWord i
        let s := releaseAt s h w.scope.toNat
        let s := if w.barEn = 1 && !i.retired then updBarrier s ⟨h, x.slot⟩ w.bar.toNat fun b => b.copyDone (x.rowB * x.rows.length) else s
        let s := match toringRing i with
          | some r => if x.cancelled then s else s.updTeam ⟨h, x.slot⟩ fun t => updRing t r fun g => { g with t := g.t + 1 }
          | none => s
        .next (copyEnd s h bulk x i)

/-- CPCAN's selection (R280): of a chain, the command that has issued. -/
def copySelected (v m : Nat) (slot : Nat) (x : Copy) : Bool :=
  match x.cmd with
  | some i =>
    x.slot = slot && !x.cancelled && x.bad.isNone && (x.chain.isNone || x.issued) && ((copyWord i).tag.toNat &&& m) = (v &&& m)
  | none => false

/-- A selected command: nothing more of it is written; one that has issued completes from what it has written (R164). -/
def cancelCopy (v m slot : Nat) (x : Copy) : Copy :=
  if copySelected v m slot x then { x with cancelled := true, performed := x.issued, owned := [] } else x

/-- CPCAN (R192, R280). -/
def execCpcan (d a : R5) (s : State) : Res :=
  onCore s fun k =>
    let v := bits (k.th.rx a) 7 0
    let m := bits (k.th.rx a) 15 8
    let q := (s.hand k.ref.hand).near ++ (s.hand k.ref.hand).bulk
    let hit := q.filter (copySelected v m k.ref.slot)
    let s := s.updHand k.ref.hand fun h =>
      { h with near := h.near.map (cancelCopy v m k.ref.slot), bulk := h.bulk.map (cancelCopy v m k.ref.slot) }
    let of (a : Agent) : Bool := hit.any fun x => a = .copy k.ref.hand false x.id || a = .copy k.ref.hand true x.id
    let s := s.updCtx k.tm.ctx fun c => { c with parked := c.parked.filter fun p => !of p.agent }
    let s := { s with weave := { s.weave with reqs := s.weave.reqs.filter fun r => !(of r.agent && r.part = 0) } }
    retireX s k 1 d (BitVec.ofNat 64 hit.length)

/-- Every thread of the team has exited. -/
def teamExited (s : State) (t : TeamRef) : Bool :=
  (teamThreads s t).all fun r => match s.thread? r with | some th => th.wait = .exited | none => true

/-- COPY_FAULT_STOP (R278): the record, of class C; the copy or its chain ends; COPY_FAULT waits for the thread, or ends the
context where the team's last thread has exited. -/
def execCopyFaultStop (h : Nat) (bulk : Bool) (n : Nat) (s : State) : Res :=
  match copyOf? s h bulk n with
  | none => .next s
  | some x =>
    match x.bad, engineOf s h bulk x (x.cmd.getD .copyNop) with
    | some (code, addr, d1, d2), some e =>
      let seq := s.errSeq
      let p := copySite e
      let s := dropCopy (postFault s x.ctx code .c p addr d1 d2) h bulk n
      let s := { s with weave := { s.weave with reqs := s.weave.reqs.filter fun r => r.agent ≠ .copy h bulk n } }
      if teamExited s ⟨h, x.slot⟩ then .next (fatal s x.ctx .copyFault p 0 (BitVec.ofNat 64 code.code) (BitVec.ofNat 64 seq))
      else .next (s.updThread (x.ref h) fun th => { th with copyFaults := th.copyFaults ++ [⟨code.code, BitVec.ofNat 64 seq⟩] })
    | _, _ => .next s

/-! ### CPY (R191, R74, R86) -/

/-- A cause of a direct command is raised at the CPY (R74). -/
def directCause (s : State) (k : Core) (c : Cause) (ws : List W32) (native : Option Instr) (arg : W64) : State :=
  raiseCause s k.ref { cause := c, engine := .copy, words := ws, native := native, pc := k.th.pc, img := k.th.img, group := none,
                       helper := false, copy := 0, arg := arg }

/-- The library's copy for a direct CP.G2L (R86): it is complete when the CPY retires (R74). One that faults leaves the record and
the COPY_FAULT of a copy; one that parks parks the thread, whose CPY is then issued again (log entry 72). -/
def libraryCopy (s : State) (k : Core) (i : Instr) (arg : W64) : State :=
  let h := k.ref.hand
  let x := newCopy s k (some i) arg none
  drained s k fun s =>
  let s := s.draw.2
  let s := runCopy (setQueue s h false (copyQueue s h false ++ [x])) h false x.id
  match copyOf? s h false x.id with
  | none => s
  | some y =>
    if y.performed then retire (releaseAt (dropCopy s h false x.id) h (copyWord i).scope.toNat) k 1 id
    else
      match execCopyFaultStop h false x.id s with
      | .next t =>
        if y.bad.isSome then retire t k 1 id
        else
          let s := (dropCopy s h false x.id).updCtx k.tm.ctx fun c =>
            { c with parked := c.parked.map fun p => if p.agent = .copy h false x.id then { p with agent := .thread k.ref } else p }
          stall s k .park
      | _ => s

/-- CPY (R191). -/
def execCpy (a m : R5) (s : State) : Res :=
  onCore s fun k =>
    let v := k.th.rx a
    let arg := k.th.rx (a + 1)
    if m = 0 then
      let ws : List W32 := [v.setWidth 32, 0, v.extractLsb' 32 32].take (instrWords .copy (v.setWidth 32))
      match decodeFate .copy (edisOf s k.ctx) ws with
      | .emulate c i => directCause s k c ws i arg
      | .run .copyNop => retire s k 1 id
      | .run i =>
        if retiredCopy k.ctx k.th i true then directCause s k .retired ws (some i) arg
        else if i.retired then libraryCopy s k i arg
        else enqueueCopy s k (bulkCmd i) (some i) arg none
    else withTarget s k .copy true v fun s => enqueueCopy s k false none arg (some ⟨v.toNat, true, false⟩)

end Sys2Proof.Machine
end

