-- ==== Sys2Proof/Machine/Emulation.lean ====
section
/-! DEFINITION. Emulation: the entry into a handler for a cause, the default library, the windows, and the returns: R71-R74,
R84, R86, R292-R300. -/

namespace Sys2Proof.Machine

/-! ### Which cause is served (R299) -/

/-- The cause leaves the thread's list. -/
def dropCause (s : State) (t : ThreadRef) (c : CauseRec) : State := s.updThread t fun th => { th with causes := th.causes.erase c }

/-! ### The names of a lane form (R201, R295) -/

/-- What a lane encoding names: the source tiles that its fields va, vb and, under kind 0, vc name (a, b, c; log entry 71), its
destination tiles or mask, its memory word, and which fields of word 0 hold tile numbers. -/
structure LaneForm where
  a    : List Nat := []
  b    : List Nat := []
  c    : List Nat := []
  dst  : List Nat := []
  mask : Option Nat := none
  mem  : Option MemW := none
  vd   : Bool := true
  va   : Bool := true
  vb   : Bool := false
  deriving DecidableEq, Repr

open LaneInt in
/-- A unary form: its operand is the flexible one, in vc. -/
def unaryForm (f : LaneW) (w : Bool) : LaneForm := { c := flexTiles f w, dst := pairOf w f.vd, va := false }
/-- A binary form: its second operand is the flexible one, in vc. -/
def binaryForm (f : LaneW) (w : Bool) : LaneForm := { a := pairOf w f.va, c := flexTiles f w, dst := pairOf w f.vd }
/-- A three-source form: the third operand is the flexible one. -/
def threeForm (f : LaneW) (w : Bool) : LaneForm :=
  { a := pairOf w f.va, b := pairOf w f.vb, c := flexTiles f w, dst := pairOf w f.vd, vb := true }
/-- A form with a and b in va and vb. -/
def abForm (f : LaneW) (w : Bool) : LaneForm := { a := pairOf w f.va, b := pairOf w f.vb, dst := pairOf w f.vd, vb := true }
/-- A form with one source, in va. -/
def vaForm (f : LaneW) (w : Bool) : LaneForm := { a := pairOf w f.va, dst := pairOf w f.vd }
/-- A form that writes mask vd. -/
def LaneForm.toMask (x : LaneForm) (f : LaneW) : LaneForm := { x with dst := [], mask := some (f.vd.toNat % 16), vd := false }
/-- A memory form: data tiles c, destination tiles. -/
def memForm (f : LaneW) (m : MemW) (dst c : List Nat) : LaneForm :=
  { a := [f.va.toNat, f.va.toNat + 1], c := c, dst := dst, mem := some m, vd := !dst.isEmpty }

open LaneInt in
/-- The form of a lane instruction; for an encoding with none assigned, a, b, c and the destination as the fields name them. -/
def laneForm (i : Option Instr) (f : LaneW) : LaneForm :=
  let w := wide f
  match i with
  | none => { a := [f.va.toNat], b := [f.vb.toNat], c := flexTiles f false, dst := [f.vd.toNat], vb := true }
  | some i =>
    match i with
    | .vabs _ | .vneg _ | .vclz _ | .vpopc _ | .vmov _ => unaryForm f w
    | .viota _ => unaryForm f false
    | .vmad _ | .vsad _ => threeForm f w
    | .vsel _ | .vavg _ | .vshuf _ => abForm f w
    | .vcmp _ => (binaryForm f w).toMask f
    | .vli _ _ => { dst := pairOf w f.vd, va := false }
    | .fabs _ _ | .fneg _ _ | .frcp _ _ | .frsq _ _ | .fexp2 _ _ | .flog2 _ _ | .frcpa _ => unaryForm f false
    | .ffma _ _ => threeForm f false
    | .fcmp _ _ => (binaryForm f false).toMask f
    | .fadd _ _ | .fsub _ _ | .fmul _ _ | .fmin _ _ | .fmax _ _ => binaryForm f false
    | .vcvt _ => { a := pairOf (tyWidth (f.vc.toNat % 16) = 64) f.va, dst := pairOf w f.vd }
    | .vhist _ => vaForm f false
    | .vqnt _ => { a := [f.va.toNat], b := [f.vb.toNat], dst := [f.vd.toNat, f.vb.toNat], vb := true }
    | .vdq _ => abForm f false
    | .rrot _ | .crot _ | .rbc _ | .cbc _ | .rred _ | .cred _ | .trn16 _ => vaForm f w
    | .mand _ | .mor _ | .mxor _ | .mnot _ | .mrow _ => { mask := some (f.vd.toNat % 16), vd := false, va := false }
    | .mcnt _ => { dst := [f.vd.toNat], va := false }
    | .show _ => { c := [f.vc.toNat], vd := false, va := false }
    | .showx _ => { b := [f.vb.toNat], c := [f.vc.toNat], vd := false, va := false, vb := true }
    | .vfence _ | .laneBari _ | .laneBara _ | .laneBarw _ | .laneNop _ => { vd := false, va := false }
    | .plk _ => { a := [f.va.toNat, f.va.toNat + 1], dst := [f.vd.toNat] }
    | .ptag _ => { a := [f.va.toNat, f.va.toNat + 1], b := [f.vb.toNat], dst := [f.vd.toNat, f.vd.toNat + 1], vb := true }
    | .pinv _ => { a := [f.va.toNat, f.va.toNat + 1], vd := false }
    | .vld _ m | .vldt _ m | .pld _ m => memForm f m (pairOf w f.vd) []
    | .vldb _ m => memForm f m [f.vd.toNat] []
    | .vst _ m | .pst _ m => memForm f m [] (flexTiles f w)
    | .vstt _ m => memForm f m [] (pairOf w f.vc)
    | .vatom _ m => memForm f m (pairOf w f.vd) (flexTiles f w)
    | .vcas _ m => { memForm f m (pairOf w f.vd) (flexTiles f w) with b := pairOf w f.vb, vb := true }
    | _ => binaryForm f w

/-! ### EOPC and EINFO (R294) -/

/-- Word `n` of a cause's entry, 0 where it has none. -/
def CauseRec.word (c : CauseRec) (n : Nat) : W32 := c.words.getD n 0

/-- The lane context of a cause. -/
def causeLane (s : State) (t : ThreadRef) (c : CauseRec) : Option Lane :=
  match c.group with | some g => s.laneOf (t.group g) | none => none

/-- Word 0 as EOPC shows it: the tile fields of a lane instruction after renaming. A deprecated instruction, which has executed, was
renamed then. -/
def eopcWord0 (s : State) (t : ThreadRef) (c : CauseRec) : W32 :=
  match if c.cause = .deprecated then none else causeLane s t c with
  | none => c.word 0
  | some l =>
    let f := laneOf (c.word 0) (c.word 1)
    let x := laneForm c.native f
    let w := renameField l (c.word 0) 18 x.vd
    let w := renameField l w 12 x.va
    let w := renameField l w 6 x.vb
    renameField l w 0 (f.kind = 0 && x.c.contains f.vc.toNat)

/-- EOPC. -/
def eopcOf (s : State) (t : ThreadRef) (c : CauseRec) : W64 := c.word 1 ++ eopcWord0 s t c

/-- EINFO at a depth. -/
def einfoOf (c : CauseRec) (depth : Nat) : W64 :=
  BitVec.ofNat 64 ((c.word 2).toNat * 2 ^ 32 + engCode c.engine * 2 ^ 29 + c.cause.code * 2 ^ 26 + depth * 2 ^ 24 +
    (if c.engine = .lane then c.group.getD 0 else 0) * 2 ^ 20)

/-! ### Records of the library (R292) -/

/-- The place of a record about a cause: its engine and its entry. -/
def causeSite (s : State) (k : Core) (c : CauseRec) : Site :=
  let base := match c.group with
    | some g => match s.group? (k.ref.group g) with | some gr => groupSite s (k.ref.group g) gr | none => threadSite k
    | none => threadSite k
  { base with engine := (match c.engine with | .cc => 0 | .lane => 1 | .matrix => 2 | .copy => 4), img := c.img, pc := c.pc }

/-- A fatal fault of emulation: its record holds EOPC and EINFO (R339). -/
def emuFatal (s : State) (k : Core) (c : CauseRec) (code : FaultCode) : State :=
  fatal s k.tm.ctx code (causeSite s k c) 0 (eopcOf s k.ref c) (einfoOf c (k.th.depth + 1))

/-- Replace a cause by another of the same entry (R86: reserved-field raised by the library). -/
def reCause (s : State) (t : ThreadRef) (c : CauseRec) (x : Cause) : State :=
  s.updThread t fun th => { th with causes := th.causes.map fun y => if y = c then { c with cause := x } else y }

/-- The agent that met a cause. -/
def causeAgent (t : ThreadRef) (c : CauseRec) : Agent :=
  match c.engine, c.group with
  | .lane, some g => .group (t.group g)
  | .matrix, _ => .stream t.team
  | .copy, _ => if c.copy = 0 then .thread t else .copy t.hand false c.copy
  | _, _ => .thread t

/-- The native effects that the library gives (R86, R292): the retired encodings, and the instructions of EDIS bits 1 and 2. -/
def nativeEffect (i : Instr) (s : State) : Res :=
  match i with
  | .loopz a b p sl => execLoopz a b p sl s
  | .brev d a b => execBrev d a b s
  | .vavg f => execVavg f s
  | .vsad f => execVsad f s
  | .frcpa f => execFrcpa f s
  | .vshuf f => execVshuf f s
  | .vldb f m => execVldb f m s
  | .mmat w => execMmat w s
  | .vcvt f => execVcvt f s
  | .vqnt f => execVqnt f s
  | .vdq f => execVdq f s
  | .mma w => execMma w s
  | .mmas w => execMmas w s
  | .gath w => execGath w s
  | _ => .next s

/-- The state that an answer goes on with. -/
def Res.state (r : Res) (s : State) : State := match r with | .next t => t | _ => s

/-- The stopped engine goes on, so that it meets its entry again. -/
def unfreeze (s : State) (t : ThreadRef) (c : CauseRec) : State :=
  match c.engine, c.group with
  | .lane, some g => if c.helper then s else thawGroup s (t.group g)
  | .copy, _ => if c.copy = 0 then s else updCopy s t.hand false c.copy fun x => { x with chain := x.chain.map fun y => { y with caused := false } }
  | _, _ => s

/-- The library computes an entry's native effect on the engine that met it, as where no table is named. -/
def libraryRun (s : State) (k : Core) (c : CauseRec) (i : Instr) : State :=
  drained s k fun s =>
  let s := unfreeze (dropCause s k.ref c) k.ref c
  let depth := k.th.depth
  let s := s.updThread k.ref fun th => { th with depth := 0, causes := [] }
  let s := s.updCtx k.tm.ctx fun x => { x with eht := 0 }
  let run := { s with cur := causeAgent k.ref c }
  let s' := match c.engine, i with
    | .copy, .cpG2l _ =>
      if c.copy = 0 then (match s.coreOf k.ref with | some k => libraryCopy s k i c.arg | none => s)
      else Res.state (onCopy run i) s
    | _, _ => Res.state (nativeEffect i run) s
  let s' := s'.updCtx k.tm.ctx fun x => { x with eht := k.ctx.eht }
  s'.updThread k.ref fun th => { th with depth := depth, causes := k.th.causes.erase c ++ th.causes }

/-- The EDIS that the entry of a cause met (R83): that of its deal, its stream, its chain, or now the context's. -/
def edisMet (s : State) (k : Core) (c : CauseRec) : W64 :=
  let now := edisOf s k.ctx
  match c.engine with
  | .cc => now
  | .lane => match causeLane s k.ref c with | some l => l.run.edis | none => now
  | .matrix => k.tm.stream.edis
  | .copy => match copyOf? s k.ref.hand false c.copy with | some x => x.edis | none => now

/-- The default for a cause (R292). -/
def libraryDefault (s : State) (k : Core) (c : CauseRec) : State :=
  match c.cause, c.native with
  | .deprecated, _ => dropCause s k.ref c
  | .retired, some i => libraryRun s k c i
  | .disabled, some i =>
    if i.disabledBy (edisMet s k c &&& 6) then (if i.wf then libraryRun s k c i else reCause s k.ref c .reservedField)
    else emuFatal s k c .emuUnhandled
  | _, _ => emuFatal s k c .emuUnhandled

/-! ### Windows (R295) -/

/-- A window of a cause with no engine state. -/
def plainWindow (th : Thread) (c : CauseRec) : Window :=
  { cause := c, lo := [], hi := [], emask := 0, ta := [], tb := [], tc := [], addrLo := [], addrHi := [], dst := [], acc := 0, ra := 0,
    rb := 0, outer := none, backImg := th.img, backPc := th.pc, back := th.wait }

/-- A mask register as a shadow: bit 0 of each element (R297). -/
def maskTile (m : Mask) : Tile := (maskBits m).map fun b => if b then 1 else 0

/-- The keys of the physical tiles behind names; a window name stands for the tile that it shows, and a name beyond the allocation or a
window that shows no tile has none. -/
def keysOf (l : Lane) (ns : List Nat) : List Nat :=
  ns.filterMap fun n =>
    if l.window? n then (match windowDst l n with | .tile k => some k | _ => none)
    else if n < l.tiles then some (l.key n) else none

/-- A name that shows a tile: one of the windows, or one within the allocation. -/
def Lane.has (l : Lane) (n : Nat) : Bool := l.window? n || n < l.tiles

/-- The window of a lane cause: the tiles, or a memory form's addresses; the shadow of the destination; EMASK. A destination or an address
tile beyond the allocation is none: its shadow and its addresses read 0, and nothing is written there. DESIGN CHOICE (log entry 106). -/
def laneWindow (s : State) (l : Lane) (th : Thread) (c : CauseRec) : Window :=
  let f := laneOf (c.word 0) (c.word 1)
  let x := laneForm c.native f
  let ds := match x.mask with | some m => [l.maskDst m] | none => x.dst.map fun n => if l.has n then l.dst n else .nowhere
  let old (n : Nat) : Tile :=
    match x.mask with
    | some m => if n = 0 then maskTile (l.mask m) else []
    | none => match x.dst[n]? with | some v => if l.has v then l.tile s v else [] | none => []
  let w := { plainWindow th c with lo := old 0, hi := old 1, emask := l.act f, dst := ds, tc := keysOf l x.c }
  match x.mem with
  | some m =>
    let as := if x.a.all l.has then laneAddrs s l f m else List.replicate 1024 0
    { w with addrLo := as.map fun a => a.setWidth 32, addrHi := as.map fun a => a.extractLsb' 32 32 }
  | none => { w with ta := keysOf l x.a, tb := keysOf l x.b }

/-- The window of a matrix cause: the accumulator's shadow, the rings and the scale tile. -/
def matrixWindow (s : State) (k : Core) (c : CauseRec) : Window :=
  let w := matOf (c.word 0) (c.word 1)
  let t := match c.native with
    | some (.mma _) => (match s.mxOf k.ref.team with | some m => if w.scaled then scaleTile s m w else none | none => none)
    | _ => none
  let g : GroupRef := ⟨k.ref.hand, k.ref.slot, 1, w.grp.toNat⟩
  { plainWindow k.th c with lo := accOf k.tm w.acc.toNat, emask := BitVec.allOnes 1024, acc := w.acc.toNat, ra := w.ra.toNat, rb := w.rb.toNat,
                            tc := if t.isSome then [allocKey (groupOf s g) w.tile.toNat] else [] }

/-- EXA, EXB and EXD of a control-core entry, by its class (R59, R295). -/
def ccWindow (k : Core) (c : CauseRec) : W64 × W64 × W64 :=
  let w := c.word 0
  let x25 := k.th.rx (fld w 21 5)
  let x20 := k.th.rx (fld w 16 5)
  let x15 := k.th.rx (fld w 11 5)
  let maj := w.toNat / 2 ^ 26
  if 0x38 ≤ maj then (cmAddr k (fld w 16 5) (memOf (c.word 1)), x15, x25)
  else if 0x20 ≤ maj && maj ≤ 0x27 || maj = 0x2A then (x25, x20, 0)
  else (x20, x15, x25)

/-- The side of a group that a nested handler sets aside (R296). -/
def helperSide (gr : Group) : HelperSide :=
  { run := gr.hrun, queue := gr.hqueue, shows := gr.hshows, next := gr.hnext, d := gr.hd, pend := gr.pend.map fun p => { p with vis := p.vis - gr.pos } }

/-- Empty helper queues, with D2-D7 of the frozen deal. -/
def clearHelper (gr : Group) (d : List W64) : Group :=
  { gr with hrun := none, hqueue := [], hshows := [], hnext := 1, hd := d }

/-- The group of a lane cause takes helper deals: a nested one's helper side goes into the window. -/
def openHelper (s : State) (g : GroupRef) (l : Lane) (w : Window) : State × Window :=
  let d := (l.run.d.drop 2).take 6
  if l.helper then
    let s := landDue s g l.gr.pos
    match s.group? g with
    | some gr => (s.updGroup g fun x => { clearHelper x d with pend := [] }, { w with outer := some (helperSide gr) })
    | none => (s, w)
  else (s.updGroup g fun x => clearHelper x d, w)

/-! ### Entry (R293) -/

/-- Plain stores of consecutive 64-bit words at .HD. -/
def storeWords (s : State) (k : Core) (addr : W64) : List W64 → State × Except Chk Unit
  | [] => (s, .ok ())
  | w :: ws =>
    match untilFree (fun s t => writeWaits s k.actor.owner t 8) (checkAccess s k.actor .store 0 0 8 8 false addr true) with
    | (s, .ok t) => storeWords (writeTgt s k.actor t (toBytes 8 w.toNat) 0 0) k (addr + 8) ws
    | (s, ck) => (s, .error ck)

/-- The words of a frame: X16-X31, the handler registers of the outer level, zeros. -/
def frameWords (th : Thread) : List W64 :=
  th.x.toList.drop 16 ++ [th.epc, th.eopc, th.einfo, th.exa, th.exb, th.exd, th.egrp] ++ List.replicate 9 0

/-- The frame of a depth. -/
def frameAddr (th : Thread) (depth : Nat) : W64 := th.esave + BitVec.ofNat 64 (256 * (depth - 1))

/-- The place where the thread goes on, as EPC: for a yielding thread its continuation. -/
def nextCode (th : Thread) : W64 :=
  BitVec.ofNat 64 (th.img * 2 ^ 32 + match th.wait with | .yield _ c _ _ _ => c | _ => th.pc)

/-- What a wait becomes while a handler runs: one that is no part of the instruction stays; the others' instructions are
issued again after the return. -/
def backWait : Wait → Wait
  | .yield d c b p n => .yield d c b p n
  | .barw n sc p => .barw n sc p
  | .exited => .exited
  | _ => .none

/-- The registers and windows of the handler. Under cause 4 no group is frozen, and EGRP names none (log entry 89). -/
def enterWith (s : State) (k : Core) (c : CauseRec) (win : Window) (ex : W64 × W64 × W64) (eopc : W64) (img pc : Nat) : State :=
  let depth := k.th.depth + 1
  let epc := if c.cause = .deprecated then nextCode k.th else BitVec.ofNat 64 (c.img * 2 ^ 32 + c.pc)
  let s := { s with waiters := s.waiters.filter fun w => w.2 ≠ Agent.thread k.ref }
  let lane := c.engine = Engine.lane && c.cause ≠ Cause.deprecated
  let egrp : W64 := if lane then BitVec.ofNat 64 (c.group.getD 0xFF) else 0xFF
  s.updThread k.ref fun th =>
    { th with depth := depth, epc := epc, eopc := eopc, einfo := einfoOf c depth, exa := ex.1, exb := ex.2.1, exd := ex.2.2,
              egrp := egrp, windows := { win with egrp := egrp, groups := if lane then c.group.toList else [], back := backWait th.wait } :: th.windows, causes := th.causes.erase c, img := img, pc := pc, wait := .none }

/-- The entry of the handler at `pc` of `img`, once the frame has been saved. -/
def enterHandler (s : State) (k : Core) (c : CauseRec) (img pc : Nat) : State :=
  let eopc := eopcOf s k.ref c
  match c.engine with
  | .cc => enterWith s k c (plainWindow k.th c) (ccWindow k c) eopc img pc
  | .copy => enterWith s k c (plainWindow k.th c) (zext64 (c.word 0), c.arg, zext64 (c.word 2)) eopc img pc
  | .matrix =>
    let w := matrixWindow s k c
    enterWith s k c w (zext64 (ringOf k.tm w.ra).h, zext64 (ringOf k.tm w.rb).h, BitVec.ofNat 64 w.acc) eopc img pc
  | .lane =>
    match c.group, if c.cause = .deprecated then none else causeLane s k.ref c with
    | some g, some l =>
      let r := openHelper s (k.ref.group g) l (laneWindow s l k.th c)
      enterWith r.1 k c r.2 (0, 0, 0) eopc img pc
    | _, _ => enterWith s k c (plainWindow k.th c) (0, 0, 0) eopc img pc

/-- The handler's entry of the table and its target (R292, R60, R51): the code address is a line with ENTRY. -/
def withEntry (s : State) (k : Core) (c : CauseRec) (e : W64) (f : State → Nat → Nat → State) : State :=
  let img := bits e 63 32
  if bits e 31 30 ≠ 0 then emuFatal s k c .emuTable
  else
    match checkTarget s k.ref.hand k.tm.ctx img .cc true (BitVec.ofNat 64 (bits e 29 0)) with
    | (s, .ok) => f s img (bits e 29 0)
    | (s, .stop (.park va)) => parkAt s k.tm.ctx (.thread k.ref) (BitVec.ofNat 64 va) none true
    | (s, .stop (.offline d)) => dieOffline s k.tm.ctx (.thread k.ref) (threadSite k) 0 d
    | (s, .stop .waits) => s
    | (s, .ended) => s
    | (s, _) => emuFatal s k c .emuTable

/-- Go on with loaded or stored words; a miss parks the thread, a refusing die answers as ever, an access that waits is made again, any
fault is the fatal one named. -/
def orFatal {α : Type} (r : State × Except Chk α) (k : Core) (c : CauseRec) (code : FaultCode) (f : State → α → State) : State :=
  match r with
  | (s, .ok a) => f s a
  | (s, .error (.park va)) => parkAgent s k.tm.ctx (.thread k.ref) (BitVec.ofNat 64 va) none
  | (s, .error (.offline d)) => dieOffline s k.tm.ctx (.thread k.ref) (threadSite k) 0 d
  | (s, .error .waits) => s
  | (s, .error _) => emuFatal s k c code

/-- Serve a cause: the handler that the table names, or the default (R292, R293). -/
def serveCause (s : State) (k : Core) (c : CauseRec) : State :=
  if 2 ≤ k.th.depth && c.cause ≠ .deprecated then emuFatal s k c .emuDepth
  else if k.ctx.eht.toNat / 64 = 0 then libraryDefault s k c
  else
    orFatal (loadWords s k 3 (k.ctx.eht + BitVec.ofNat 64 (8 * c.cause.code)) 1) k c .emuTable fun s es =>
      let e := es.getD 0 0
      if e = 0 then libraryDefault s k c
      else
        withEntry s k c e fun s img pc =>
          drained s k fun s => orFatal (storeWords s k (frameAddr k.th (k.th.depth + 1)) (frameWords k.th)) k c .emuSave fun s _ =>
            enterHandler s k c img pc

/-- EMULATION_ENTRY (R293, R299): the thread serves the next of its causes at its instruction boundary. -/
def execEmulationEntry (t : ThreadRef) (s : State) : Res :=
  match s.coreOf t with
  | none => .next s
  | some k =>
    if !handRuns s t.hand || held s (.thread t) || isParked s (.thread t) then .next s
    else match nextCause k.th with
      | some c => .next (serveCause s k c)
      | none => .next s

/-! ### Returns (R297, R298) -/

/-- The helper groups of a handler level (R296). -/
def Window.helpers (w : Window) (t : ThreadRef) : List GroupRef := w.groups.map t.group

/-- Every helper deal of the handler has retired. -/
def helpersDone (s : State) (k : Core) (w : Window) : Bool :=
  (w.helpers k.ref).all fun g => match s.group? g with | some gr => gr.hqueue.isEmpty && gr.hrun.isNone | none => true

/-- The helper groups of the handler that returns go back to what they were. -/
def closeHelper (s : State) (k : Core) (w : Window) : State :=
  (w.helpers k.ref).foldl (fun s g =>
    s.updGroup g fun x =>
      match w.outer with
      | some o => { x with hrun := o.run, hqueue := o.queue, hshows := o.shows, hnext := o.next, hd := o.d,
                           pend := o.pend.map fun p => { p with vis := x.pos + p.vis } }
      | none => clearHelper x (List.replicate 6 0)) s

/-- The thread's registers of the outer level (R297). -/
def restoreFrame (s : State) (k : Core) (ws : List W64) : State :=
  let v (n : Nat) : W64 := ws.getD n 0
  s.updThread k.ref fun th =>
    { th.wxs 16 (ws.take 16) with epc := v 16, eopc := v 17, einfo := v 18, exa := v 19, exb := v 20, exd := v 21, egrp := v 22,
                                  depth := th.depth - 1, windows := th.windows.drop 1 }

/-- The destination bits of a shadow for a mask destination. -/
def shadowBits (t : Tile) : Mask := bitsMask (t.full.map fun v => v.getLsbD 0)

/-- The lane merge: visible at the position after the entry's. -/
def laneMerge (s : State) (g : GroupRef) (w : Window) (full : Bool) : State :=
  let act := if full then BitVec.allOnes 1024 else w.emask
  s.updGroup g fun x =>
    { x with pend := x.pend ++ w.dst.zipIdx.map fun d =>
        let t := if d.2 = 0 then w.lo else w.hi
        ⟨x.pos + 1, x.pos, d.1, act, t, shadowBits t, 0⟩ }

/-- The engine of a cause goes on behind its entry (R74, R297). -/
def passEntry (s : State) (k : Core) (w : Window) (v : W64) : State :=
  let c := w.cause
  let n := instrWords c.engine (c.word 0)
  match c.engine, c.group with
  | .lane, some g =>
    let s := if c.helper then s else thawGroup s (k.ref.group g)
    let s := if v.getLsbD 0 then laneMerge s (k.ref.group g) w (v.getLsbD 1) else s
    match s.laneOf (k.ref.group g) with | some l => advance s l n 1 | none => s
  | .matrix, _ =>
    let s := s.updTeam k.ref.team fun t =>
      let t := if v.getLsbD 0 then { t with acc := t.acc.set w.acc w.lo } else t
      let t := if v.getLsbD 2 then updRing t w.ra fun r => { r with h := r.h + 1 } else t
      if v.getLsbD 3 then updRing t w.rb fun r => { r with h := r.h + 1 } else t
    updStream s k.ref.team fun x => { x with pc := nextPc s k.ref.hand k.tm.ctx x.img x.pc n }
  | .copy, _ =>
    match copyOf? s k.ref.hand false c.copy with
    | some x => chainOn s k.ref.hand false x (nextPc s k.ref.hand k.tm.ctx x.img c.pc n)
    | none => s
  | _, _ => s

/-- The cause was met by the thread's own instruction stream: it returns to a code address. -/
def Window.threadish (w : Window) : Bool :=
  w.cause.engine = .cc || (w.cause.engine = .copy && w.cause.copy = 0) || w.cause.cause = .deprecated

/-- The thread's place after a return that does not follow EPC: behind its own entry, or where it was. -/
def afterReturn (s : State) (k : Core) (w : Window) : State :=
  if w.threadish then
    let n := if w.cause.engine = .cc then instrWords .cc (w.cause.word 0) else 1
    let next := nextPc s k.ref.hand k.tm.ctx w.cause.img w.cause.pc n
    s.updThread k.ref fun th => { th with img := w.cause.img, wait := .none, pc := next }
  else s.updThread k.ref fun th => { th with img := w.backImg, pc := w.backPc, wait := w.back }

/-- The thread goes on at EPC; an EPC that the handler of an advisory left alone keeps what the thread waited for. -/
def toEpc (s : State) (k : Core) (w : Window) (epc : W64) : State :=
  s.updThread k.ref fun th =>
    if w.cause.cause = .deprecated && bits epc 63 32 = w.backImg && bits epc 29 0 = w.backPc then { th with img := w.backImg, pc := w.backPc, wait := w.back }
    else { th with img := bits epc 63 32, pc := bits epc 29 0, wait := .none }

/-- A return (R297, R298): it waits for the helper deals; a return to EPC is checked; the frame is read, the outer level
comes back, and `f` says what the return writes and where things go on. -/
def handlerReturn (s : State) (k : Core) (w : Window) (epc : Bool) (f : State → State) : State :=
  let go (s : State) : State :=
    drained s k fun s => orFatal (loadWords s k 0 (frameAddr k.th k.th.depth) 23) k w.cause .emuSave fun s ws =>
      f (restoreFrame (closeHelper s k w) k ws)
  if !helpersDone s k w then stall s k .emret
  else if epc then
    match checkTarget s k.ref.hand k.tm.ctx (bits k.th.epc 63 32) .cc false (k.th.epc &&& 0xFFFFFFFF) with
    | (s, .ok) => go s
    | (s, .stop (.fault x)) =>
      let d := targetDetails s k.tm.ctx (bits k.th.epc 63 32) x (k.th.epc &&& 0xFFFFFFFF)
      threadFault s k x d.1 d.2.1 d.2.2
    | (s, .stop (.park va)) => parkAt s k.tm.ctx (.thread k.ref) (BitVec.ofNat 64 va) none true
    | (s, .stop ck) => threadRefused s k ck 0 0 0
    | (s, .ended) => s
  else go s

/-- The results of a helper deal all land before the return (R297). -/
def settleHelper (s : State) (k : Core) (w : Window) : State :=
  if helpersDone s k w then (w.helpers k.ref).foldl settle s else s

/-- ERET's effect (R298): nothing is written; a thread goes on at EPC, another engine meets its entry again. -/
def eretEffect (s : State) (k : Core) (w : Window) : State :=
  handlerReturn s k w w.threadish fun s =>
    if w.threadish then toEpc s k w k.th.epc else afterReturn (unfreeze s k.ref w.cause) k w

/-- ERET (R298). -/
def execEret (s : State) : Res :=
  onCore s fun k =>
    match k.th.windows with
    | [] => threadFault s k .emuState 0 (encDetail .eret) 0
    | w :: _ => eretEffect (settleHelper s k w) k w

/-- EMRET's effect (R297). -/
def emretEffect (s : State) (k : Core) (w : Window) (v : W64) : State :=
  let jmp := w.threadish && v.getLsbD 4
  handlerReturn s k w jmp fun s =>
    let s := if v.getLsbD 0 && w.cause.engine = .cc then s.updThread k.ref fun th => th.wx (BitVec.ofNat 5 (bits v 12 8)) k.th.exd else s
    if jmp then toEpc s k w k.th.epc else afterReturn (passEntry s k w v) k w

/-- EMRET (R297); for cause 4 it acts as ERET. -/
def execEmret (a : R5) (s : State) : Res :=
  onCore s fun k =>
    match k.th.windows with
    | [] => privileged s k (.emret a) (threadFault s k .emuState 0 (encDetail (.emret a)) 0)
    | w :: _ =>
      if w.cause.cause = .deprecated then eretEffect (settleHelper s k w) k w
      else
        let s := settleHelper s k w
        -- the shadow as the helper deals have left it
        let w := match s.thread? k.ref with | some th => th.windows.headD w | none => w
        emretEffect s k w (k.th.rx a)

end Sys2Proof.Machine
end

