-- ==== Sys2Proof/Machine/Place.lean ====
section
/-! DEFINITION. Images as a launch checks them (R52-R58), the checks of a launch (R313-R316), where teams fit (R316, R333), how a
team starts (R25, R54, R56, R193, R241, R285, R287, R317-R319, R332), how it ends (R195, R321, R324, R349), and how the teams of a
context leave their slots and return (R47, R320, R345). -/

namespace Sys2Proof

/-- Rename the team of an agent. -/
def Agent.moved (a b : TeamRef) : Agent → Agent
  | .thread r => if r.team = a then .thread ⟨b.hand, b.slot, r.role⟩ else .thread r
  | .group g => if g.team = a then .group ⟨b.hand, b.slot, g.role, g.idx⟩ else .group g
  | .stream r => if r = a then .stream b else .stream r
  | x => x

/-- Rename the team of a thread. -/
def ThreadRef.moved (a b : TeamRef) (r : ThreadRef) : ThreadRef := if r.team = a then ⟨b.hand, b.slot, r.role⟩ else r

end Sys2Proof

namespace Sys2Proof.Machine

/-- A little-endian field of `n` bytes at offset `o` of a record (R3). -/
def le (bs : List Byte) (o n : Nat) : Nat := ofBytes ((bs.drop o).take n)

/-- A 64-bit field. -/
def le64 (bs : List Byte) (o : Nat) : W64 := BitVec.ofNat 64 (le bs o 8)

/-- Bytes `o` to `o + n - 1` are zero. -/
def zeros (bs : List Byte) (o n : Nat) : Bool := ((bs.drop o).take n).all (· = 0)

/-! ### Contexts and images (R282, R287, R314, R349) -/

/-- A context as the driver creates it (R83, R282, R287; log entry 5). -/
def freshCtx : Ctx :=
  { privileged := false, ended := false, pageReq := false, failover := false, images := [], locks := [], eht := 0, edis := 0, depcnt := 0,
    deplim := 0, ckptValid := false, ckptCount := 0, rolledBack := false, cklog := 0, undoBase := 0, undo := [], undoBytes := 0,
    saved := none, ptroot := 0, unresolved := [], parked := [], priBlocked := false, denied := [], out := none }

/-- EDIS of a new context: bit 0 is 1 on a device outside a domain (R83). -/
def freshEdis (s : State) : W64 := if s.weave.devNum.isNone then 1 else 0

/-- The context `c` exists from the driver's first use of its number; a number whose context has been removed names a new one. -/
def ensureCtx (s : State) (c : Nat) : State :=
  match s.ctx? c with
  | some x => if x.ended then { s with ctxs := s.ctxs.set c { freshCtx with edis := freshEdis s } } else s
  | none => { s with ctxs := s.ctxs.set c { freshCtx with edis := freshEdis s } }

/-- IMAGE_LOAD (R314): the driver loads an image under a number that names none; its header is read at the first launch. -/
def execImageLoad (c img : Nat) (base : W64) (s : State) : Res :=
  if !exposed s then .next s else
  let s := ensureCtx s c
  if (imageOf s c img).isSome then .next s
  else
    let im : Image := { base := base, lines := 0, blockFirst := 0, blockCount := 0, relocFirst := 0, relocCount := 0, teamEntry := 0,
                        launchRec := 0, manifest := 0, constFirst := 0, releasing := false }
    .next (s.updCtx c fun x => { x with images := x.images.set img im })

/-- IMAGE_RELEASE (R349). -/
def execImageRelease (c img : Nat) (s : State) : Res :=
  .next (releaseImages (s.updCtx c fun x => { x with images := x.images.modify img fun i => { i with releasing := true } }) c)

/-! ### The checks of an image (R52-R57) -/

/-- A line of an image as the front end reads it for its checks (log entry 11). -/
def checkLine (s : State) (c : Nat) (im : Image) (line : Nat) : List Byte :=
  (imageRead s (ioHand 0) c (im.base.toNat + 64 * line) 64).2.2

/-- The header's fields (R52). -/
def headerOf (base : W64) (l : List Byte) : Image :=
  { base := base, lines := le l 12 4, blockFirst := le l 16 4, blockCount := le l 20 4, relocFirst := le l 24 4, relocCount := le l 28 4,
    teamEntry := le l 32 4, launchRec := le l 36 4, manifest := le l 40 4, constFirst := le l 44 4, releasing := false }

/-- The checks of the header alone (R52). -/
def headerOk (l : List Byte) : Bool :=
  let im := headerOf 0 l
  le l 0 4 = 0xF8000000 && le l 4 4 = 0x51564E58 && le l 8 2 = 1 && (le l 10 2 = 1 || le l 10 2 = 5) && 1 ≤ im.lines &&
    im.lines ≤ 2 ^ 26 && im.blockCount ≤ 65536 && im.manifest % 64 = 0 && zeros l 48 16

/-- The line lies in the image, belongs to an engine and, where it must, carries ENTRY. -/
def lineIs (s : State) (c : Nat) (im : Image) (line engine : Nat) (entry : Bool) : Bool :=
  line < im.lines && (let l := checkLine s c im line; lineEngine l = engine && (!entry || lineEntry l))

/-- A pad line with END (R53). -/
def padLine (s : State) (c : Nat) (im : Image) (line : Nat) : Bool := lineIs s c im line 15 false && lineEnd (checkLine s c im line)

/-- The lines that a table of `n` entries occupies, `per` to a line (R53). -/
def tableLines (n per : Nat) : Nat := max 1 ((n + per - 1) / per)

/-- The placing of the tables, the launch record and the manifest (R53, R55). -/
def tablesOk (s : State) (c : Nat) (im : Image) : Bool :=
  let nb := tableLines im.blockCount 5
  let nr := tableLines im.relocCount 7
  let blank (line : Nat) : Bool := zeros (checkLine s c im line) 4 60
  im.relocFirst = im.blockFirst + nb && im.launchRec = im.relocFirst + nr && im.manifest = (im.launchRec + 64) / 64 * 64 &&
    im.lines = im.manifest + im.manifest / 64 &&
    ((List.range (im.lines - im.blockFirst)).all fun i => padLine s c im (im.blockFirst + i)) &&
    (im.blockCount ≠ 0 || blank im.blockFirst) && (im.relocCount ≠ 0 || blank im.relocFirst) &&
    ((List.range (im.manifest - im.launchRec - 1)).all fun i => blank (im.launchRec + 1 + i)) &&
    ((List.range (im.manifest / 64)).all fun i => zeros (checkLine s c im (im.manifest + i)) 36 28)

/-- The links of the constant chain from a line (R56): every line lies in the image and holds constant data. -/
def constLinks (s : State) (c : Nat) (im : Image) : Nat → Nat → Bool
  | 0, _ => false
  | fuel + 1, line =>
    lineIs s c im line 4 false && (let l := checkLine s c im line; lineEnd l || constLinks s c im fuel (lineNext l))

/-- The width of a relocated field (R57). -/
def Reloc.width (r : Reloc) : Nat := if r.form = 0 then 8 else 6

/-- A relocation entry keeps R57's table. -/
def relocOk (s : State) (c : Nat) (im : Image) (v : Nat) : Bool :=
  let r := relocOf v
  v % 2 ^ 27 = 0 && r.form ≤ 1 && 1 ≤ r.slot && r.lsb + r.width ≤ 32 && r.line < im.lines && lineEngine (checkLine s c im r.line) ≤ 4

/-- Every relocation entry, and the zero end of every relocation line. -/
def relocsOk (s : State) (c : Nat) (im : Image) : Bool :=
  ((List.range im.relocCount).all fun i => relocOk s c im (le (checkLine s c im (im.relocFirst + i / 7)) (4 + 8 * (i % 7)) 8)) &&
    (List.range (tableLines im.relocCount 7)).all fun i => zeros (checkLine s c im (im.relocFirst + i)) 60 4

/-- The image passes R52 to R57. -/
def imageOk (s : State) (c : Nat) (im : Image) : Bool :=
  tablesOk s c im && lineIs s c im im.teamEntry 0 true && relocsOk s c im &&
    (im.constFirst = 0 || (lineIs s c im im.constFirst 4 true && constLinks s c im im.lines im.constFirst))

/-- The loader reads the header when a launch first names the image (R52): the image with its fields, or none. -/
def readHeader (s : State) (c img : Nat) : State × Option Image :=
  match imageOf s c img with
  | none => (s, none)
  | some im =>
    if im.lines ≠ 0 then (s, some im)
    else
      match imageRead s (ioHand 0) c im.base.toNat 64 with
      | (s, .ok _, l) =>
        let h := { headerOf im.base l with releasing := im.releasing }
        if headerOk l && imageOk s c h then (s.updCtx c fun x => { x with images := x.images.set img h }, some h) else (s, none)
      | (s, _, _) => (s, none)

/-! ### Launch records (R54) -/

/-- The pool of a role on a lane group. -/
def poolOf (r : List Byte) (role lg : Nat) : Nat := le r (4 + 8 * role + lg) 1
/-- The binding word of a role. -/
def bindOf (r : List Byte) (role : Nat) : Nat := le r (8 + 8 * role) 4
/-- The declared roles. -/
def rolesOf (r : List Byte) : List Nat := (List.range 4).filter fun k => le r 36 1 / 2 ^ k % 2 = 1
/-- The accumulator budget. -/
def accBudgetOf (r : List Byte) : Nat := le r 37 1
/-- The units that a team needs on a lane group. -/
def unitsOf (r : List Byte) (lg : Nat) : Nat := (List.range 4).foldl (fun n k => n + poolOf r k lg) 0

/-- The record keeps R54's table. -/
def recordOk (r : List Byte) : Bool :=
  le r 36 1 < 16 && accBudgetOf r ≤ 32 && le r 38 1 ≤ 1 && zeros r 39 25 &&
    (List.range 4).all fun k =>
      (List.range 4).all (fun g => poolOf r k g ≤ 32) &&
        ((rolesOf r).contains k || (bindOf r k = 0 && (List.range 4).all fun g => poolOf r k g = 0))

/-! ### Placement maps (R58, R314, R315) -/

/-- The front end reads a record of `n` 64-byte units. -/
def feUnits (s : State) (c : Nat) (va : W64) : Nat → State × FeRes
  | 0 => (s, .ok [])
  | n + 1 =>
    match feRead s c va 64 with
    | (s, .ok bs) =>
      match feUnits s c (va + 64) n with
      | (s, .ok r) => (s, .ok (bs ++ r))
      | r => r
    | r => r

/-- What makes the front end try its access again later: no route, a copy's line, or a die that refuses it. -/
def FeRes.stop : FeRes → Option FeRes
  | .later => some .later
  | .offline d => some (.offline d)
  | _ => none

/-- What keeps the front end from reading a page of an image now (R372, R374), with the page's address. -/
def pageStop (s : State) (c : Nat) (im : Image) (page : Nat) : Option (W64 × FeRes) :=
  let va := im.base.toNat + 4096 * page
  match (imageRead s (ioHand 0) c va 64).2.1 with
  | .waits => some (BitVec.ofNat 64 va, .later)
  | .offline d => some (BitVec.ofNat 64 va, .offline d)
  | _ => none

/-- What keeps the front end from reading an image now. -/
def imageStop (s : State) (c img : Nat) : Option (W64 × FeRes) :=
  match imageOf s c img with
  | none => none
  | some im =>
    let l := checkLine s c im 0
    let lines := if im.lines ≠ 0 then im.lines else if headerOk l then (headerOf im.base l).lines else 1
    (List.range (lines / 64 + 1)).findSome? (pageStop s c im)

/-- What keeps the front end from reading an image and a launch's placement map now: the checks of the launch are made later. -/
def launchStop (s : State) (c : Nat) (p : List Byte) : Option (W64 × FeRes) :=
  if (imageOf s c (le p 8 4)).isNone then none
  else (imageStop s c (le p 8 4)).orElse fun _ => (feUnits s c (le64 p 40) 5).2.stop.map fun r => (le64 p 40, r)

/-- The map names only enabled hands of the context's tenant, on distinct dies, each on a die that is used. -/
def mapOk (s : State) (c : Nat) (m : List Byte) : Bool :=
  let dies := ((m.take 4).map (·.toNat)).filter (· ≠ 0xFF)
  zeros m 4 60 && dies.all (· < 4) && dies.dedup = dies &&
    (List.range 256).all fun i =>
      let v := le m (64 + i) 1
      v = 0xFF || (v < 64 && match mapNode m (i / 64) (i % 64) with
        | some h => s.enabled h && (s.hand h).tenant = tenantOf s c
        | none => false)

/-- A marked field names nodes that the placement has (R56, R58). -/
def relocPlaced (s : State) (c : Nat) (im : Image) (m : List Byte) (r : Reloc) : Bool :=
  let l := checkLine s c im r.line
  let v := (lineWord l r.slot).toNat / 2 ^ r.lsb % 2 ^ r.width
  if r.form = 0 then (mapNode m (v / 64) (v % 64)).isSome
  else if lineEngine l = 4 then (mapNode m 0 v).isSome
  else (List.range 4).all fun d => ((List.range 64).all fun n => (mapNode m d n).isNone) || (mapNode m d v).isSome

/-- The relocation entries of an image. -/
def relocList (s : State) (c : Nat) (im : Image) : List Reloc :=
  (List.range im.relocCount).map fun i => relocOf (le (checkLine s c im (im.relocFirst + i / 7)) (4 + 8 * (i % 7)) 8)

/-! ### Launches (R313, R314) -/

/-- A segment field of a packet (R117). -/
def segAt (bs : List Byte) (o seg : Nat) : Option Seg := segOf seg (le64 bs o) (le64 bs (o + 8))

/-- The launch that a packet or a template of its layout describes. `rec` is the launch record it takes. -/
def launchOf (q slot seq ctx : Nat) (compl : Bool) (p rec map : List Byte) : Launch :=
  { queue := q, slot := slot, seq := seq, compl := compl, ctx := ctx, img := le p 8 4, arg := le64 p 16, user := le64 p 24,
    gx := le p 32 2, gy := le p 34 2, gz := le p 36 2, tph := le p 38 1, gang := le p 12 1 % 2 = 1 || le rec 38 1 % 2 = 1,
    priv := le p 12 1 / 2 % 2 = 1, failover := le p 12 1 / 8 % 2 = 1, pageReq := le p 12 1 / 16 % 2 = 1, chain := false, map := map,
    wroot := le64 p 48 &&& ~~~7, eht := le64 p 56, esave := le64 p 64, cklog := le64 p 72, undoBase := le64 p 80,
    gseg := (segAt p 88 0).getD Seg.none, kseg := (segAt p 104 2).getD Seg.none, pseg := (segAt p 120 1).getD Seg.none,
    privBase := le64 p 136, privSize := (le64 p 144).setWidth 53, privPol := (le64 p 144).extractLsb' 62 2, slice := le p 152 4, lrec := rec,
    nextTeam := 0, streamFlag := false, sigFault := none, started := false, lastDone := false, posted := false, parents := [] }

/-- The fields that a LAUNCH and a template share keep their limits (R313). -/
def fieldsOk (p : List Byte) : Bool :=
  le p 12 4 < 32 && zeros p 39 1 && le p 40 8 % 64 = 0 && zeros p 156 8 && zeros p 224 32 && (segAt p 88 0).isSome &&
    (segAt p 104 2).isSome && (segAt p 120 1).isSome && bits (le64 p 144) 63 62 ≤ 1 && bits (le64 p 144) 61 53 = 0

/-- The grid of a LAUNCH keeps its limits. -/
def gridOk (p : List Byte) : Bool :=
  let n := le p 32 2 * le p 34 2 * le p 36 2
  1 ≤ n && n ≤ 2 ^ 24 && (le p 38 1 = 1 || le p 38 1 = 2)

/-- The launch record that a packet takes: its own bytes 164-223 in place of bytes 4-63, or the image's (R54, R313). -/
def packetRecord (s : State) (c : Nat) (im : Image) (p : List Byte) : List Byte :=
  if le p 12 1 / 4 % 2 = 1 then List.replicate 4 0 ++ (p.drop 164).take 60 else checkLine s c im im.launchRec

/-- A team of the launch fits an empty hand (R316). -/
def teamFits (rec : List Byte) : Bool := (List.range 4).all (fun g => unitsOf rec g ≤ 32) && accBudgetOf rec ≤ 32

/-- The checks of a launch in R314's order: the code that refuses it, or the launch. `grid` holds for a LAUNCH, whose grid counts;
a template's teams come one by one. -/
def checkLaunch (s : State) (q slot seq c : Nat) (compl priv grid : Bool) (p : List Byte) : State × Except Nat Launch :=
  if (imageOf s c (le p 8 4)).isNone then (s, .error 6)
  else
    match readHeader s c (le p 8 4) with
    | (s, none) => (s, .error 1)
    | (s, some im) =>
      let rec_ := packetRecord s c im p
      if !recordOk rec_ then (s, .error 1)
      else
        match feUnits s c (le64 p 40) 5 with
        | (s, .ok m) =>
          let l := launchOf q slot seq c compl p rec_ m
          let hands := (presentHands m).length
          let teams := l.gx * l.gy * l.gz
          if !mapOk s c m || !(relocList s c im).all (relocPlaced s c im m) then (s, .error 2)
          else if !teamFits rec_ || hands = 0 || (grid && l.gang && hands * l.tph < teams) then (s, .error 3)
          else if l.priv && !priv then (s, .error 4)
          else if !fieldsOk p || (grid && !gridOk p) then (s, .error 6)
          else (s, .ok l)
        | (s, _) => (s, .error 2)

/-- The lines of one engine of an image. -/
def engineLines (s : State) (c : Nat) (im : Image) (e : Nat) : Nat :=
  (List.range im.lines).countP fun i => lineEngine (checkLine s c im i) = e

/-- Check 5 of R314: the lines of one engine exceed its instruction memory (R12). -/
def imageTooBig (s : State) (c img : Nat) : Bool :=
  match imageOf s c img with
  | some im => 4096 < engineLines s c im 0 || 2048 < engineLines s c im 1 || 512 < engineLines s c im 2
  | none => true

/-- The number of teams of a grid, 1 for an OPCHAIN record's (R317). -/
def Launch.teams (l : Launch) : Nat := if l.chain then 1 else l.gx * l.gy * l.gz

/-- An accepted launch enters the device (R282, R313): the context takes its attributes. -/
def acceptLaunch (s : State) (l : Launch) : State × Nat :=
  let n := s.nextLaunch
  let s := s.updCtx l.ctx fun x =>
    { x with privileged := x.privileged || l.priv, pageReq := l.pageReq, failover := l.failover }
  ({ s with launches := s.launches.set n { l with nextTeam := l.teams }, nextLaunch := n + 1 }, n)

/-- The share of team `i` of a grid (R317). -/
def weightShare (teams i : Nat) : W64 :=
  BitVec.ofNat 64 (2 ^ 62 / teams + if i = 0 then 2 ^ 62 - teams * (2 ^ 62 / teams) else 0)

/-- GRIDPOS of team `i` (R285, R316). -/
def gridPos (l : Launch) (i : Nat) : W64 :=
  BitVec.ofNat 64 (i / (l.gx * l.gy) * 2 ^ 32 + i / l.gx % l.gy * 2 ^ 16 + i % l.gx)

/-- Team `i` of a LAUNCH, assigned to its present node (R316, R317). -/
def gridTeam (s : State) (n : Nat) (l : Launch) (i : Nat) : Waiting :=
  let nodes := presentHands l.map
  { launch := n, ctx := l.ctx, img := l.img,
    entry := (match imageOf s l.ctx l.img with | some im => im.teamEntry * 16 + 1 | none => 0),
    x := [l.arg + BitVec.ofNat 64 (32 * i)], teamNo := some i, gridpos := gridPos l i, wgt := weightShare l.teams i, wroot := l.wroot,
    evstack := [], hands := [nodes.getD (i / l.tph % nodes.length) 0], batch := none, gang := l.gang, out := none }

/-- The teams of a launch whose packet has started wait for their hands (R307, R316). -/
def placeTeams (s : State) (n : Nat) : State :=
  match s.launches.get? n with
  | none => s
  | some l => { s with waiting := s.waiting ++ (List.range l.teams).map (gridTeam s n l) }

/-! ### Where a team fits (R316, R328, R369) -/

/-- The resident teams of a hand. -/
def residents (s : State) (h : Nat) : List Team := [0, 1].filterMap fun k => s.teams.get? (h * 2 + k)

/-- The launch record of a team. -/
def recordOfTeam (s : State) (t : Team) : List Byte := match s.launches.get? t.launch with | some l => l.lrec | none => []

/-- The bank of a residency slot (R323). -/
def bankOf (s : State) (h k : Nat) : Bank := (s.hand h).banks.getD k ⟨[], false, 0, [], false⟩

/-- The mailbox of a residency slot (R319). -/
def mailboxAt (s : State) (h k : Nat) : List W64 := (s.hand h).mailbox.getD k (List.replicate 10 0)

/-- ARM of a mailbox: the team that it describes has not started. -/
def mailboxArmed (s : State) (h k : Nat) : Bool := ((mailboxAt s h k).getD 9 0).getLsbD 63

/-- The lowest residency slot that holds no team, whose shadow bank is not armed and whose mailbox is free (R319). -/
def freeSlot (s : State) (h : Nat) : Option Nat :=
  [0, 1].find? fun k => (s.teams.get? (h * 2 + k)).isNone && !(bankOf s h k).armed && !mailboxArmed s h k

/-- A team of a launch fits the hand (R316). -/
def fits (s : State) (h : Nat) (l : Launch) : Bool :=
  let rs := residents s h
  s.enabled h && (s.hand h).tenant = tenantOf s l.ctx && (s.die (dieOf h)).state = .online && routed s (dieOf h) 0 && rs.length < l.tph && (freeSlot s h).isSome &&
    (rs.all fun t => t.tph ≠ 1) &&
    ((List.range 4).all fun g => rs.foldl (fun n t => n + unitsOf (recordOfTeam s t) g) (unitsOf l.lrec g) ≤ 32) &&
    rs.foldl (fun n t => n + t.accBudget) (accBudgetOf l.lrec) ≤ 32

/-! ### The constant segment and the image's lines (R56, R318, R351) -/

/-- The payloads of the constant chain from a line: the lines as the loader delivers them for a placement (R56, R58), with the line that
stopped it. -/
def constChain (m : List Byte) (s : State) (h c img : Nat) : Nat → Nat → State × Loading × Nat × List Byte
  | 0, line => (s, .ok, line, [])
  | fuel + 1, line =>
    match lineUnder m s h c img line with
    | (s, .ok, l) =>
      if lineEnd l then (s, .ok, line, l.drop 4)
      else
        match constChain m s h c img fuel (lineNext l) with
        | (s, .ok, n, r) => (s, .ok, n, l.drop 4 ++ r)
        | r => r
    | (s, r, _) => (s, r, line, [])

/-- What keeps the loader from writing `n` bytes at a physical address for a hand now (R161, R372, R374). -/
def loaderStop (s : State) (h : Nat) (host : Bool) (pa n : Nat) : Option Chk :=
  if host then (if reachesHost s h then none else some .waits)
  else if !reaches s h (homeDie pa) || copyHolds s (.dev pa) n then some .waits
  else if dieRefuses s (homeDie pa) then some (.offline (homeDie pa))
  else none

/-- The loader writes the constant segment, page by page; it needs no permission. -/
def constWrite (c h : Nat) (base : Nat) (bs : List Byte) : List (Nat × Nat) → State → State × Chk
  | [], s => (s, .ok (.dev 0))
  | (o, n) :: ps, s =>
    match translate s c h true (base + o) with
    | (s, .format) => (s, .fault .pteFormat)
    | (s, .refused) => (s, .fault .pagePerm)
    | (s, .offline d) => (s, .offline d)
    | (s, .waits) => (s, .waits)
    | (s, .absent host) => notPresent s c (base + o) host
    | (s, .ok t) =>
      let pa := t.pa + (base + o - t.va)
      match loaderStop s h t.host pa n with
      | some ck => (s, ck)
      | none =>
        let part := (bs.drop o).take n
        let s :=
          if t.host then { s with hostMem := Memory.write s.hostMem pa part }
          else
            let s := (List.range (n / 128 + 2)).foldl (fun s i => recallLine s (alignDown (pa + 128 * i) 128)) s
            homeStore s c (part.zipIdx.map fun b => (pa + b.2, b.1))
        constWrite c h base bs ps s

/-- The constant segment of a launch is filled, once for all its teams (R56, R317); with the address and detail 2 of what stops it. -/
def fillConstants (s : State) (h : Nat) (l : Launch) : State × Loading × W64 × W64 :=
  match imageOf s l.ctx l.img with
  | none => (s, .ok, 0, 0)
  | some im =>
    if im.constFirst = 0 then (s, .ok, 0, 0)
    else
      match constChain l.map s h l.ctx l.img im.lines im.constFirst with
      | (s, .ok, _, bs) =>
        match constWrite l.ctx h l.kseg.base.toNat bs (pieces 4096 l.kseg.base.toNat bs.length) s with
        | (s, .ok _) => (s, .ok, 0, 0)
        | (s, ck) => (s, .stop ck, l.kseg.base, accDetail 64 2)
      | (s, r, n, _) => (s, r, im.base + BitVec.ofNat 64 (64 * n), accDetail 64 0)

/-- The page of an image is resident on a hand. -/
def pageResident (s : State) (h c img page : Nat) : Bool := (lineOf s h c img (64 * page)).isSome

/-- Pages of an image that the loader brings as a team starts (R319), where they are not resident: `false` where one failed its
verification, which has ended the context (R351). A page that it cannot read is left to the fetch that reaches it (R51, R318). -/
def loadPages (h c img : Nat) (m : List Byte) : List Nat → State → State × Bool
  | [], s => (s, true)
  | p :: ps, s =>
    if pageResident s h c img p then loadPages h c img m ps s
    else
      match loadPage s h c img p m with
      | (t, .ok) => loadPages h c img m ps t
      | (t, .ended) => (t, false)
      | _ => loadPages h c img m ps s

/-! ### The start of a team (R317, R319) -/

/-- The units of a lane group that the other teams of a hand hold. -/
def takenUnits (s : State) (h lg : Nat) : List Nat :=
  ((residents s h).flatMap fun t => t.roles.flatMap fun r => r.2.free.getD lg []) ++
    (s.groups.filter fun p => p.1 / 128 = h && p.2.lg = lg).flatMap fun p => p.2.units

/-- The units of the four roles on a lane group, drawn from those that no team holds. -/
def rolePools (s : State) (h : Nat) (rec : List Byte) (lg : Nat) : List (List Nat) :=
  let free := (List.range 32).filter fun u => !(takenUnits s h lg).contains u
  (List.range 4).map fun k =>
    (free.drop ((List.range k).foldl (fun n j => n + poolOf rec j lg) 0)).take (poolOf rec k lg)

/-- The role entries of a team. -/
def rolesAt (s : State) (h : Nat) (rec : List Byte) : Map Role :=
  (rolesOf rec).map fun k =>
    (k, { free := (List.range 4).map fun g => (rolePools s h rec g).getD k [],
          bind := (List.range 16).map fun i => bindOf rec k / 4 ^ i % 4 })

/-- The LSEG of agent `a` of a team (R317): limit 0 where it would pass the private area. -/
def privateSeg (l : Launch) (team a : Nat) : Seg :=
  { base := l.privBase + BitVec.ofNat 64 (l.privSize.toNat * (68 * team + a)), limit := if team < l.teams then l.privSize else 0,
    pol := l.privPol }

/-- The lowest hardware thread number of a hand that no thread has (R22; log entry 6). -/
def freeNumber (s : State) (h : Nat) : Nat :=
  let used := (s.threads.filter fun p => p.1 / 8 = h).map fun p => p.2.hw
  ((List.range 8).find? fun n => !used.contains n).getD 0

/-- A control thread as it starts (R317), with its hardware thread number; its first line is to carry ENTRY (R51). -/
def startThread (l : Launch) (w : Waiting) (hw team role : Nat) : Thread :=
  let x0 : Vector W64 32 := Vector.replicate 32 0
  { x := (((x0.set 1 (w.x.getD 0 0)).set 2 (w.x.getD 1 0)).set 3 (w.x.getD 2 0)).set 4 (w.x.getD 3 0),
    img := w.img, pc := w.entry, hw := hw, wait := .none, fpx := 0, fpxmask := 0, gseg := l.gseg, pseg := l.pseg, kseg := l.kseg,
    lseg := privateSeg l team role, esave := (l.esave + BitVec.ofNat 64 (512 * (4 * team + role))) &&& ~~~63, depth := 0, epc := 0,
    eopc := 0, einfo := 0, exa := 0, exb := 0, exd := 0, egrp := 0, windows := [], causes := [], buffer := [], arrival := [], holds := [],
    copyFaults := [], stepping := false, preempt := false, entering := true }

/-- A group index as a team starts (R182, R317). -/
def startGroup (l : Launch) (team role i : Nat) : Group :=
  { State.emptyGroup with gseg := l.gseg, pseg := l.pseg, kseg := l.kseg, lseg := privateSeg l team (4 + 16 * role + i) }

/-- The launch that numbers the teams of a launch: a bin's teams are numbered with those of the launch whose records they take. -/
def numbersOf (s : State) (n : Nat) : Nat :=
  match s.launches.get? n with
  | some l => (match l.parents.head? with | some p => if (s.launches.get? p).isSome then p else n | none => n)
  | none => n

/-- The TEAM number of a team that starts, and the state that has used it (R317). -/
def takeNumber (s : State) (w : Waiting) : State × Nat :=
  match w.teamNo with
  | some i => (s, i)
  | none =>
    let n := numbersOf s w.launch
    match s.launches.get? n with
    | some l => (s.updLaunch n fun l => { l with nextTeam := l.nextTeam + 1 }, l.nextTeam)
    | none => (s, 0)

/-- The team's record (R193, R240, R241, R249, R260, R285). -/
def startedTeam (s : State) (h : Nat) (l : Launch) (w : Waiting) (team : Nat) : Team :=
  { ctx := w.ctx, launch := w.launch, img := w.img, teamNo := BitVec.ofNat 32 team, gridpos := w.gridpos, wgt := w.wgt, wroot := w.wroot,
    roles := rolesAt s h l.lrec, accBudget := accBudgetOf l.lrec, tph := l.tph, gang := w.gang, bars := [], tagCfg := 0, ttop := 0, ttres := 0,
    rgop := 0, rgres := 0, tags := [], rings := [], stream := State.emptyStream, acc := [], evstack := w.evstack, ending := false,
    signals := w.signals, lastRec := w.lastRec, batch := w.batch, lastRole := 0, spawned := false, resolved := false, entry := w.entry,
    startX := w.x, startWgt := w.wgt,
    sliceLeft := l.slice }

/-- The register files given to a context are cleared (R183): the units of the new team's pools. -/
def clearUnits (s : State) (h : Nat) (roles : Map Role) : State :=
  let keys := (List.range 4).flatMap fun g =>
    roles.flatMap fun r => (r.2.free.getD g []).flatMap fun u => (List.range 8).map fun i => physKey g (u * 8 + i)
  s.updHand h fun x => { x with tiles := x.tiles.filter fun p => !keys.contains p.1 }

/-- The context takes the launch's attributes when its first team starts (R287, R290). -/
def firstStart (s : State) (n : Nat) (l : Launch) : State :=
  if l.started then s
  else
    let alone := (teamsOf s l.ctx).isEmpty
    let s := s.updCtx l.ctx fun x =>
      let x := { x with eht := if l.eht = 0 then x.eht else l.eht &&& ~~~63, cklog := l.cklog, undoBase := l.undoBase }
      if alone then { x with ckptCount := 0, ckptValid := false, undo := [], undoBytes := 0 } else x
    s.updLaunch n fun l => { l with started := true }

/-- The threads and groups of a new team (R22, R23, R182, R317). -/
def putAgents (s : State) (t : TeamRef) (l : Launch) (w : Waiting) (team : Nat) : State :=
  (rolesOf l.lrec).foldl (fun s r =>
    let s := { s with threads := s.threads.set (threadKey ⟨t.hand, t.slot, r⟩) (startThread l w (freeNumber s t.hand) team r) }
    (List.range 16).foldl (fun s i => { s with groups := s.groups.set (groupKey ⟨t.hand, t.slot, r, i⟩) (startGroup l team r i) }) s) s

/-- The team starts on a residency slot (R317). A launch record that declares no role is not refused (R54): its team has no thread, and
ends at once. DESIGN CHOICE (log entry 79). -/
def putTeam (s : State) (t : TeamRef) (w : Waiting) : State :=
  match s.launches.get? w.launch with
  | none => s
  | some l =>
    let s := firstStart s w.launch l
    let (s, team) := takeNumber s w
    let tm := startedTeam s t.hand l w team
    let s := clearUnits s t.hand tm.roles
    let s := { s with teams := s.teams.set (teamKey t) tm }
    let s := putAgents s t l w team
    if (rolesOf l.lrec).isEmpty then s.updTeam t fun x => { x with ending := true } else s

/-- A start that waits for a page (R56): the device holds the parked request, and the team waits on. -/
def parkStart (s : State) (c va : Nat) : State :=
  let v := BitVec.ofNat 64 va
  if s.ctxs.any fun p => p.2.parked.any fun k => k.agent = .device && k.va = v then s else parkAgent s c .device v none

/-- The start of a team fails: it parks, or the context ends (R56, R374); `addr` and `d2` are the record's. -/
def startStops (s : State) (h : Nat) (w : Waiting) (ck : Chk) (addr d2 : W64) : State :=
  let site : Site := { engine := 6, hand := h, img := w.img }
  match ck with
  | .park va => parkStart s w.ctx va
  | .fault f => fatal s w.ctx f site addr 0 d2
  | .offline d => feOffline s w.ctx site addr d
  | _ => s

/-- The start of a team on a slot (R318, R319): the constant segment is filled at the launch's first team, the image's lines are
brought, and the team starts with an acquire at .DV (R159). `false` where it has not started. -/
def bootTeam (s : State) (t : TeamRef) (w : Waiting) : State × Bool :=
  match s.launches.get? w.launch with
  | none => (s, false)
  | some l =>
    let s := useMap (useMap s t.hand l.ctx l.img l.map) t.hand w.ctx w.img l.map
    let r : State × Loading × W64 × W64 := if l.started then (s, .ok, 0, 0) else fillConstants s t.hand l
    match r with
    | (s, .ok, _) =>
      let pages := match imageOf s w.ctx w.img with | some im => List.range (im.lines / 64 + 1) | none => []
      match loadPages t.hand w.ctx w.img l.map pages s with
      | (s, true) => (putTeam (acquireAt s t.hand 3) t w, true)
      | r => r
    | (s, .stop ck, addr, d2) => (startStops s t.hand w ck addr d2, false)
    | (s, _) => (s, false)

/-! ### Teams that leave their slot and come back (R47, R320, R345) -/

/-- Agents take new names in what the device keeps about them: records, parked accesses, waits, requests to peers. -/
def renameAgents (s : State) (f : Agent → Agent) : State :=
  { s with
    ctxs := s.ctxs.map fun (p : Nat × Ctx) =>
      (p.1, { p.2 with unresolved := p.2.unresolved.map fun u => { u with agent := f u.agent },
                       parked := p.2.parked.map fun k => { k with agent := f k.agent },
                       denied := p.2.denied.map fun k => (f k.1, k.2) })
    waiters := s.waiters.map fun w => (w.1, f w.2)
    weave := { s.weave with reqs := s.weave.reqs.map fun r => { r with agent := f r.agent } } }

/-- The copies with given numbers move from a hand to another. -/
def Agent.rehand (ids : List Nat) (a b : Nat) : Agent → Agent
  | .copy h bulk n => .copy (if h = a && ids.contains n then b else h) bulk n
  | x => x

/-- Everything the device holds under a team's place moves to another place, which is empty: the team, its threads and groups,
and what is kept about them. A place on a hand from 256 on keeps a team that is off the hands. -/
def moveTeam (s : State) (a b : TeamRef) : State :=
  match s.team? a with
  | none => s
  | some tm =>
    let ths := (teamThreads s a).filterMap fun r => (s.thread? r).map fun th => (r.moved a b, th)
    let grs := (teamGroups s a).filterMap fun g => (s.group? g).map fun gr => ((⟨b.hand, b.slot, g.role, g.idx⟩ : GroupRef), gr)
    let s := (teamGroups s a).foldl (fun s g => { s with groups := s.groups.erase (groupKey g) }) s
    let s := (teamThreads s a).foldl (fun s r => { s with threads := s.threads.erase (threadKey r) }) s
    let s := { s with teams := (s.teams.erase (teamKey a)).set (teamKey b) tm }
    let s := ths.foldl (fun s p => { s with threads := s.threads.set (threadKey p.1) { p.2 with hw := freeNumber s b.hand } }) s
    let s := grs.foldl (fun s p => { s with groups := s.groups.set (groupKey p.1) p.2 }) s
    let locks := s.locks.map fun (p : Nat × Lock) => (p.1, { p.2 with holder := p.2.holder.map (·.moved a b), queue := p.2.queue.map (·.moved a b) })
    renameAgents { s with locks := locks } (Agent.moved a b)

/-- The physical tiles that a team's groups hold, with their keys. -/
def teamTileKeys (s : State) (t : TeamRef) : List (List Nat) :=
  (teamGroups s t).map fun g =>
    match s.group? g with
    | some gr => gr.units.flatMap fun u => (List.range 8).map fun i => physKey gr.lg (u * 8 + i)
    | none => []

/-- A thread as it is saved (R199, R248, R255, R347): a wait for a cell or in a lock's queue is left, and its instruction is
issued again. -/
def offThread (th : Thread) : Thread :=
  { th with wait := (match th.wait with | .cell _ => .none | .cellDone .. => .none | .lkacq .. => .none | w => w) }

/-- Team `a`'s agents leave the wait tables and lock queues (R248, R255). -/
def offWaits (s : State) (a : TeamRef) : State :=
  let s := (teamThreads s a).foldl (fun s r => s.updThread r offThread) s
  let s := (teamGroups s a).foldl (fun s g => s.updGroup g fun x =>
    { x with outst := x.outst.map fun o => { o with elems := o.elems.map fun e => { e with wait := false } } }) s
  { s with waiters := s.waiters.filter fun w => !w.2.ofTeam a,
           locks := s.locks.map fun (p : Nat × Lock) => (p.1, { p.2 with queue := p.2.queue.filter fun q => q.team ≠ a }) }

/-- A number from `base` on that no team off the hands uses. -/
def freeKept (s : State) (base : Nat) : Nat :=
  (((List.range (s.teams.length + 1)).map (base + ·)).find? fun v => !(s.teams.keys.contains (v * 2))).getD base

/-- A number for a team that a time slice puts off. -/
def offHand (s : State) : Nat := freeKept s 2048

/-- Team `a` leaves its hand and is kept under the number `v`, with the contents of its tiles and queued copies (R320, R345). -/
def takeOff (s : State) (a : TeamRef) (v : Nat) : State :=
  let s := keepLines (offWaits s a) a.hand
  let tiles := (teamTileKeys s a).flatten.map fun k => (k, (s.hand a.hand).tiles.getD k [])
  let mine (c : Copy) : Bool := c.slot = a.slot
  let keep : Hand := { State.emptyHand with
    tiles := tiles, near := (s.hand a.hand).near.filter mine, bulk := (s.hand a.hand).bulk.filter mine,
    active := ((s.hand a.hand).active.filter fun g => g.team = a).map fun g => ⟨v, 0, g.role, g.idx⟩,
    gather := (s.hand a.hand).gather.filter fun g => g.slot = a.slot }
  let s := s.updHand v fun _ => keep
  let s := s.updHand a.hand fun h =>
    { h with near := h.near.filter (fun c => !mine c), bulk := h.bulk.filter (fun c => !mine c), active := h.active.filter (fun g => g.team ≠ a),
             gather := h.gather.filter (fun g => g.slot ≠ a.slot), tiles := h.tiles.filter fun p => !(tiles.any fun q => q.1 = p.1) }
  moveTeam (renameAgents s (Agent.rehand ((keep.near ++ keep.bulk).map (·.id)) a.hand v)) a ⟨v, 0⟩

/-- New units for a returning team: those it held where no other team holds them, else free ones, unit by unit. -/
def renumber (taken : List Nat) (old : List Nat) : List (Nat × Nat) :=
  (old.foldl (fun (acc : List Nat × List (Nat × Nat)) u =>
    let v := if acc.1.contains u then ((List.range 32).find? fun v => !acc.1.contains v && !old.contains v).getD u else u
    (v :: acc.1, acc.2 ++ [(u, v)])) (taken, [])).2

/-- The numbers under which the teams of a gang that a die's reset switches out are kept: their scratchpad bytes are kept with them (R373). -/
def keepsScratch (v : Nat) : Bool := 2 ^ 19 ≤ v && v < 2 ^ 20

/-- The scratchpad bytes and poison that a kept team took with it return to a hand: all where no other team stays there, else those of its
ranges (R345, R355 step 5). -/
def returnScratch (s : State) (v h : Nat) (t : TeamRef) : State :=
  let alone := [0, 1].all fun k => ⟨h, k⟩ = t || (s.team? ⟨h, k⟩).isNone
  let mine (o : Nat) : Bool := alone || inRanges (teamRanges s t) o
  let kept := s.hand v
  if keepsScratch v then
    s.updHand h fun x =>
      { x with scratch := (kept.scratch.filter fun b => mine b.1).foldl (fun m b => Memory.put m b.1 b.2) (x.scratch.filter fun b => !mine b.1),
               scratchPoison := (x.scratchPoison.filter fun u => !mine (u * 64)) ++ kept.scratchPoison.filter fun u => mine (u * 64) }
  else s

/-- The team kept under `v` comes back to a slot of a hand (R320, R345): its units are mapped onto free ones, its tiles and copies
return, and its groups that were active take free positions. -/
def putBack (s : State) (v : Nat) (b : TeamRef) : State :=
  match s.team? ⟨v, 0⟩ with
  | none => s
  | some tm =>
    let kept := s.hand v
    let gs := (teamGroups s ⟨v, 0⟩).filterMap s.group?
    let held (lg : Nat) : List Nat := (tm.roles.flatMap fun r => r.2.free.getD lg []) ++ (gs.filter (·.lg = lg)).flatMap (·.units)
    let names := (List.range 4).map fun lg => renumber (takenUnits s b.hand lg) (held lg)
    let new (lg u : Nat) : Nat := match (names.getD lg []).find? fun p => p.1 = u with | some p => p.2 | none => u
    let s := (teamGroups s ⟨v, 0⟩).foldl (fun s g => s.updGroup g fun x => { x with units := x.units.map (new x.lg) }) s
    let s := s.updTeam ⟨v, 0⟩ fun t =>
      { t with roles := t.roles.map fun (p : Nat × Role) => (p.1, { p.2 with free := p.2.free.zipIdx.map fun f => f.1.map (new f.2) }) }
    let s := moveTeam (renameAgents s (Agent.rehand ((kept.near ++ kept.bulk).map (·.id)) v b.hand)) ⟨v, 0⟩ b
    let re (k : Nat) : Nat := physKey (k / 256) (new (k / 256) (k % 256 / 8) * 8 + k % 8)
    let s := s.updHand b.hand fun h =>
      { h with tiles := kept.tiles.foldl (fun m p => m.set (re p.1) p.2) h.tiles,
               near := h.near ++ kept.near.map fun c => { c with slot := b.slot },
               bulk := h.bulk ++ kept.bulk.map fun c => { c with slot := b.slot },
               gather := h.gather ++ kept.gather.map fun g => { g with slot := b.slot },
               active := h.active ++ (kept.active.map fun g => (⟨b.hand, b.slot, g.role, g.idx⟩ : GroupRef)).filter fun g =>
                 match s.group? g with
                 | some gr => (h.active.countP fun a => match s.group? a with | some x => x.lg = gr.lg | none => false) < 8
                 | none => false }
    let s := returnScratch s v b.hand b
    { s with hands := s.hands.erase v }

/-! ### TEAM_START (R47, R316, R319, R333) -/

/-- A gang launch that waits for its first start holds a hand against the teams of every later launch (R316); one that a time slice
has put off waits again and holds none (R320; log entry 92). -/
def gangHolds (s : State) (launch h : Nat) : Bool :=
  s.waiting.any fun w => w.gang && w.out.isNone && w.launch < launch && w.hands.contains h

/-- The mailbox as the front end writes it for a team (R319), with ARM already clear. -/
def mailboxOf (w : Waiting) (team : Nat) : List W64 :=
  [BitVec.ofNat 64 w.img, BitVec.ofNat 64 w.entry, w.x.getD 0 0, w.x.getD 1 0, w.x.getD 2 0, w.x.getD 3 0, BitVec.ofNat 64 team, w.gridpos, w.wgt,
    BitVec.ofNat 64 w.launch]

/-- The team takes a free slot of the hand: a team that comes back is put back, a new one is started through the mailbox. -/
def startOn (s : State) (h : Nat) (w : Waiting) : State × Bool :=
  match freeSlot s h with
  | none => (s, false)
  | some k =>
    match w.out with
    | some v =>
      let s := putBack s v ⟨h, k⟩
      let slice := match s.launches.get? w.launch with | some l => l.slice | none => 0
      (s.updTeam ⟨h, k⟩ fun t => { t with sliceLeft := slice }, true)
    | none =>
      match bootTeam s ⟨h, k⟩ w with
      | (s, true) =>
        let team := match s.team? ⟨h, k⟩ with | some t => t.teamNo.toNat | none => 0
        (s.updHand h fun x => { x with mailbox := x.mailbox.set k (mailboxOf w team) }, true)
      | r => r

/-- The first of a team's hands that it fits now, and that no earlier gang holds. -/
def handFor (s : State) (w : Waiting) : Option Nat :=
  match s.launches.get? w.launch with
  | none => none
  | some l =>
    let out := match s.ctx? w.ctx with | some x => x.out.isSome | none => true
    if out then none else w.hands.find? fun h => !gangHolds s w.launch h && fits s h l

/-- The teams of a gang start together (R47), from the state `s0`: `false` where one finds no room, which leaves `s0`, or where the
start of one parks or ends the context, which is all that happens. -/
def startAll (s0 : State) : List Waiting → State → State × Bool
  | [], s => (s, true)
  | w :: ws, s =>
    match handFor s w with
    | none => (s0, false)
    | some h =>
      match startOn s h w with
      | (s, true) => startAll s0 ws s
      | (_, false) => ((startOn s0 h w).1, false)

/-- The `n`-th waiting team starts where it fits, or its gang starts together (R47, R316, R333). -/
def tryStart (s : State) (n : Nat) : State :=
  match s.waiting[n]? with
  | none => s
  | some w =>
    if w.gang then
      match startAll s (s.waiting.filter fun x => x.gang && x.launch = w.launch) s with
      | (s, true) => { s with waiting := s.waiting.filter fun x => !(x.gang && x.launch = w.launch) }
      | (s, false) => s
    else
      match handFor s w with
      | none => s
      | some h =>
        match startOn s h w with
        | (s, true) => { s with waiting := s.waiting.eraseIdx n }
        | (s, false) => s

/-- TEAM_START (R316). -/
def execTeamStart (n : Nat) (s : State) : Res := .next (tryStart s n)

/-- The team that a mailbox describes (R319). -/
def mailboxTeam (h : Nat) (regs : List W64) (l : Launch) : Waiting :=
  let r (i : Nat) : W64 := regs.getD i 0
  { launch := bits (r 9) 31 0, ctx := l.ctx, img := (r 0).toNat % 2 ^ 32, entry := (r 1).toNat, x := [r 2, r 3, r 4, r 5],
    teamNo := some ((r 6).toNat % 2 ^ 32), gridpos := r 7, wgt := r 8, wroot := l.wroot, evstack := [], hands := [h],
    batch := none, gang := false, out := none }

/-- An armed mailbox starts its team on a slot that holds none and whose shadow bank is not armed; ARM clears once the threads have
started, or where no such launch is left (R319). -/
def serveMailbox (h slot : Nat) (s : State) : State :=
  let regs := mailboxAt s h slot
  let clear (s : State) : State := s.updHand h fun x => { x with mailbox := x.mailbox.set slot (regs.set 9 (regs.getD 9 0 &&& 0x7FFFFFFFFFFFFFFF)) }
  if !mailboxArmed s h slot || (s.teams.get? (h * 2 + slot)).isSome || (bankOf s h slot).armed || !handRuns s h then s
  else
    match s.launches.get? (bits (regs.getD 9 0) 31 0) with
    | none => clear s
    | some l =>
      match bootTeam s ⟨h, slot⟩ (mailboxTeam h regs l) with
      | (s, true) => clear s
      | (s, false) => s

/-- BOOT_MAILBOX_ARM (R319): register 9 of the slot's mailbox is written, and with ARM the team that the mailbox describes starts. -/
def execBootMailboxArm (h slot : Nat) (v : W64) (s : State) : Res :=
  let regs := (mailboxAt s h slot).set 9 (v &&& 0x80000000FFFFFFFF)
  .next (serveMailbox h slot (s.updHand h fun x => { x with mailbox := x.mailbox.set slot regs }))

/-- An armed mailbox is served again. -/
def execMailboxServe (h slot : Nat) (s : State) : Res := .next (serveMailbox h slot s)

/-! ### TEAM_END (R195, R249, R321, R324, R332, R349) -/

/-- The deals of the team's groups have retired, its copies have completed, and its stream stands between instructions. -/
def teamDrained (s : State) (t : TeamRef) (tm : Team) : Bool :=
  ((teamGroups s t).all fun g => match s.group? g with
    | some gr => gr.queue.isEmpty && gr.run.isNone && gr.hqueue.isEmpty && gr.hrun.isNone && gr.outst.isEmpty
    | none => true) &&
    (((s.hand t.hand).near ++ (s.hand t.hand).bulk).all fun c => c.slot ≠ t.slot) && tm.stream.mma.isNone

/-- What the return of a team's weight answers. -/
inductive WeightRes where
  | done | faulted | waits
  deriving DecidableEq, Repr

/-- Step 5 of R195: the AMO.ADD of WGT at WROOT, as by the team's last thread to exit. A page that it waits for is kept under the team's
stream. -/
def returnWeight (s : State) (t : TeamRef) (tm : Team) (k : Core) : State × WeightRes :=
  if tm.wroot = 0 then (s, .done)
  else
    match checkAccess s k.actor .atomic 0 3 8 8 false tm.wroot true with
    | (s, .ok g) =>
      if writeWaits s k.actor.owner g 8 then (s, .waits) else
      let busy : Bool := match g with | .dev pa => tagAt s pa ≠ 0 | _ => false
      let units := poisonedUnits s g 8
      if !units.isEmpty then (logPoison s k.actor g tm.wroot 0 1 units 0, .faulted)
      else if busy then (s, .faulted)
      else ((atomicTgt s k.actor g 0 64 tm.wgt.toNat 0 3 0).1, .done)
    | (s, .park va) => (parkAgent s tm.ctx (.stream t) (BitVec.ofNat 64 va) none, .waits)
    | (s, .waits) => (s, .waits)
    | (s, .offline d) =>
      if k.ctx.failover then
        (parkAgent (noteOffline s tm.ctx (threadSite k) tm.wroot d) tm.ctx (.stream t) tm.wroot (some d), .waits)
      else (s, .faulted)
    | (s, _) => (s, .faulted)

/-- The front end stores a value as a release at .DV; a store that fails posts a record of class I, engine 7 (R326). -/
def feSignal (s : State) (c : Nat) (addr v : W64) : State × Option Nat :=
  match feWrite (flushAll s) c addr (toBytes 8 v.toNat) with
  | (s, .fault f) =>
    let seq := s.errSeq
    (postFault s c (if f = .pagePerm then .pagePerm else .pageAbsent) .i { engine := 7, hand := 0 } addr 0 (accDetail 8 0), some seq)
  | (s, _) => (s, none)

/-- What keeps the front end from storing signals (addresses and values) now: the address, and why. -/
def signalStop (s : State) (c : Nat) (sigs : List (W64 × W64)) : Option (W64 × FeRes) :=
  sigs.findSome? fun p => match (fePlace s c .store p.1 8).2 with | .error r => r.stop.map fun x => (p.1, x) | .ok _ => none

/-- The front end tries an access again later; where a die refuses it, its record says so (R374). -/
def feStopped (s : State) (c : Nat) (va : W64) (r : FeRes) : State :=
  match r with
  | .offline d => feOffline s c { engine := 7, hand := 0 } va d
  | _ => s

/-- The SIGNAL steps of an operator's record (R324). -/
def teamSignals (s : State) (tm : Team) : State :=
  tm.signals.foldl (fun s p =>
    match feSignal s tm.ctx p.1 p.2 with
    | (s, some seq) => s.updLaunch tm.launch fun l => { l with sigFault := some (l.sigFault.getD seq) }
    | (s, none) => s) s

/-- The slots of a bin team's batch are freed (R332). -/
def freeBatch (s : State) (b : Option (Nat × Nat × Nat)) : State :=
  match b with
  | none => s
  | some (d, n, first) => s.updDie d fun x => { x with bins := x.bins.modify n fun y => { y with batches := y.batches.filter (·.1 ≠ first) } }

/-- Step 6 of R195 and what follows from a team's end: its sector fails where no RSLV came (R249), its batch is freed, its SIGNAL
steps store, images may be released, and the front end learns of it. -/
def teamGone (s : State) (t : TeamRef) (tm : Team) : State :=
  let s := freeBatch (freeTeam s t) tm.batch
  let s := match tm.evstack.getLast? with | some c => failCell s tm.ctx c.1 2 0 | none => s
  let s := teamSignals s tm
  let s := s.updLaunch tm.launch fun l =>
    { l with streamFlag := l.streamFlag || (tm.stream.running && !tm.stream.stopped), lastDone := l.lastDone || tm.lastRec }
  releaseImages { s with events := s.events ++ [.teamEnd tm.launch] } tm.ctx

/-- TEAM_END (R195): the end of a team whose last thread has exited, once its deals and copies are done and its signals can be stored. -/
def execTeamEnd (tm : TeamRef) (s : State) : Res :=
  match s.team? tm with
  | none => .next s
  | some x =>
    if !x.ending || !teamDrained s tm x || isParked s (.stream tm) || s.eventsFull then .next s
    else
      match signalStop s x.ctx x.signals with
      | some (va, r) => .next (feStopped s x.ctx va r)
      | none =>
        let s := flushAll s
        match s.coreOf ⟨tm.hand, tm.slot, x.lastRole⟩ with
        | none => .next (teamGone s tm x)
        | some k =>
          match returnWeight { s with cur := .stream tm } tm x k with
          | (u, .done) => .next (teamGone { u with cur := s.cur } tm x)
          | (u, .waits) => .next { u with cur := s.cur }
          | (u, .faulted) => .next (fatal { u with cur := s.cur } x.ctx .weightReturn (threadSite k) x.wroot x.wroot x.wgt)

end Sys2Proof.Machine
end

