-- ==== Sys2Proof/Machine/FrontEnd.lean ====
section
/-! DEFINITION. The front end: queues and packets (R301-R308, R326, R327), service rounds (R309-R312), operator chains and shadow
banks (R323-R325), bins (R330-R333), the completion of launches (R321). -/

namespace Sys2Proof.Machine

/-! ### Queues and their packets (R301-R305) -/

/-- The device writes bytes 32-47 of a queue record, in the PF's queue table (R301, R359). -/
def syncQueue (s : State) (q : Nat) : State :=
  match s.queues.get? q with
  | none => s
  | some x =>
    let table := (s.fn 0).qtBase.toNat
    if table = 0 then s
    else
      { s with hostMem := Memory.write s.hostMem (table + 64 * q + 32)
                (toBytes 8 x.d ++ toBytes 4 x.lastTaken.toNat ++ toBytes 4 (if x.stopped then 1 else 0)) }

/-- A queue error (R305): the queue stops with D unchanged, and its record waits for a slot. -/
def queueError (s : State) (q cause : Nat) (seq : BitVec 32) : State :=
  syncQueue (s.updQueue q fun x => { x with stopped := true, errs := x.errs ++ [(cause, seq, x.d)] }) q

/-- The address of unit `i` of a queue (R303). -/
def ringUnit (x : Queue) (i : Nat) : W64 := x.ring + BitVec.ofNat 64 (64 * (i % x.size))

/-- What stands at a queue's read index: nothing to check now, an error with its sequence number, a packet that A does not cover yet,
a packet, or an address that a die refuses (R374). -/
inductive Head where
  | nothing
  | error (cause : Nat) (seq : BitVec 32)
  | short
  | packet (p : List Byte)
  | refused (va : W64) (die : Nat)
  deriving DecidableEq, Repr

/-- The fields of a packet header (R304). -/
def pktSeq (p : List Byte) : BitVec 32 := BitVec.ofNat 32 (le p 4 4)
/-- The length in units. -/
def pktLen (p : List Byte) : Nat := le p 2 2
/-- The type. -/
def pktType (p : List Byte) : Nat := le p 0 1
/-- BAR; a SIGNAL behaves as if it were set (R326). -/
def pktBar (p : List Byte) : Bool := le p 1 1 % 2 = 1 || pktType p = 3
/-- COMPL. -/
def pktCompl (p : List Byte) : Bool := le p 1 1 / 2 % 2 = 1

/-- Steps 1 to 5 of R305 on a header: the queue error, or 0. -/
def headerError (x : Queue) (p : List Byte) : Nat :=
  if pktLen p = 0 then 4
  else if x.size < pktLen p then 6
  else if x.size < x.d % x.size + pktLen p then 5
  else if pktSeq p ≠ x.expected then 2
  else if 6 < pktType p then 3
  else 0

/-- The length that a type requires (R304). -/
def lengthOk (typ l : Nat) : Bool :=
  match typ with | 0 => true | 1 => l = 4 | 2 => 4 ≤ l | 6 => l = 2 | _ => l = 1

/-- Step 6 of R305: lengths, reserved header bits, the fields of the small packets, the reserved fields of a template. The fields
of a launch are refused, not a queue error (R314). -/
def packetOk (p : List Byte) : Bool :=
  le p 1 1 / 4 = 0 && lengthOk (pktType p) (pktLen p) &&
    match pktType p with
    | 2 => zeros p 32 7
    | 3 => le p 8 8 % 8 = 0
    | 4 => le p 8 8 % 8 = 0 && le p 24 1 ≤ 2
    | _ => true

/-- What a read of the front end that gives no bytes says of a queue's head: an ACCESS error, or it is made again later. -/
def headStop (va : W64) (seq : BitVec 32) : FeRes → Head
  | .later => .nothing
  | .offline d => .refused va d
  | _ => .error 8 seq

/-- What keeps a packet from being checked now: a launch reads its image and its map. -/
def packetStop (s : State) (c : Nat) (p : List Byte) : Option (W64 × FeRes) :=
  if pktType p = 1 || pktType p = 2 then launchStop s c p else none

/-- The head of a queue with the checks of R305. -/
def headOf (s : State) (q : Nat) : State × Head :=
  match s.queues.get? q with
  | none => (s, .nothing)
  | some x =>
    if !x.enabled || x.stopped || x.a ≤ x.d then (s, .nothing)
    else
      match feRead s x.ctx (ringUnit x x.d) 64 with
      | (s, .ok h) =>
        if headerError x h ≠ 0 then (s, .error (headerError x h) (pktSeq h))
        else if x.a < x.d + pktLen h then (s, .short)
        else
          (match feUnits s x.ctx (ringUnit x x.d) (pktLen h) with
           | (s, .ok p) =>
             (s, if !packetOk p then .error 7 (pktSeq p)
               else match packetStop s x.ctx p with | some (va, r) => headStop va (pktSeq p) r | none => .packet p)
           | (s, r) => (s, headStop (ringUnit x x.d) (pktSeq h) r))
      | (s, r) => (s, headStop (ringUnit x x.d) x.expected r)

/-- An OPCHAIN of the queue is only partly processed (R311). -/
def partlyDone (x : Queue) : Bool := x.pend.any fun p => p.typ = 2 && p.ofs < p.data.length

/-- The queue has a packet or record to process. -/
def hasPacket (s : State) (q : Nat) : Bool :=
  match s.queues.get? q with
  | none => false
  | some x =>
    partlyDone x || (match (headOf s q).2 with
      | .error .. => true | .packet _ => true | .refused va d => !feParked s x.ctx va d | _ => false)

/-- The queue has work (R311). -/
def hasWork (s : State) (q : Nat) : Bool :=
  hasPacket s q || (match s.queues.get? q with | some x => !x.errs.isEmpty | none => false)

/-- The slot that holds a queue. -/
def slotOf (s : State) (q : Nat) : Option Nat := ((s.slots.filter fun p => p.2.queue = some q).map (·.1)).head?

/-! ### The completion of packets and launches (R306, R321, R324) -/

/-- A packet completes: it leaves its queue, with its record. -/
def completePkt (s : State) (q : Nat) (p : Pkt) (status detail : Nat) : State :=
  let s := s.updQueue q fun x => { x with pend := x.pend.filter fun y => y.id ≠ p.id }
  if status ≠ 0 || p.compl then postCompletion s q p.slot p.seq status 0 p.user detail else s

/-- An event that will bring a team of launch `n`. -/
def FeEvent.brings (n : Nat) : FeEvent → Bool
  | .spawn w => w.launch = n
  | .evaluate w => w.launch = n
  | .binLaunch _ _ _ _ _ ws => ws.contains n
  | .timer _ _ _ _ _ ws => ws.contains n
  | _ => false

/-- A launch has teams that have not ended (R321): teams, waiting teams, requests, records in bins, launches of bins on its records,
armed banks and mailboxes, and what a rollback is to bring back. -/
def launchBusy (s : State) (n : Nat) : Bool :=
  (s.teams.any fun t => t.2.launch = n) || (s.waiting.any fun w => w.launch = n) || (s.events.any fun e => FeEvent.brings n e) ||
    (s.spill.any fun w => w.launch = n) ||
    (s.dies.any fun d => (d.2.restart.any fun w => w.launch = n) ||
      d.2.bins.any fun b => b.2.writers.contains (some n)) ||
    (s.launches.any fun l => l.2.parents.contains n) ||
    (match s.launches.get? n with | some l => (s.ctx? l.ctx).any (·.restoring.isSome) | none => false) ||
    s.hands.any fun h => (h.2.banks.any fun b => b.2.armed && b.2.launch = n) ||
      h.2.mailbox.any fun m => mailboxArmed s h.1 m.1 && bits (m.2.getD 9 0) 31 0 = n

/-- The packet of a launch, if it has one. -/
def packetOf (s : State) (l : Launch) (n : Nat) : Option Pkt :=
  match s.queues.get? l.queue with
  | some x => x.pend.find? fun p => p.launch = some n
  | none => none

/-- The record of a launch's packet: DONE with the stream flag, or FAULT with the record of a failed SIGNAL step (R306, R326). -/
def launchRecord (s : State) (n : Nat) (l : Launch) : State :=
  match packetOf s l n with
  | none => s.updLaunch n fun l => { l with posted := true }
  | some p =>
    let s := s.updLaunch n fun l => { l with posted := true }
    match l.sigFault with
    | some seq => completePkt s l.queue { p with user := l.user } 2 seq
    | none => completePkt s l.queue { p with user := l.user } 0 (if l.streamFlag then 1 else 0)

/-- A launch completes when its teams have ended; an OPCHAIN's packet as soon as the team of its last record has (R321, R324). -/
def settleLaunch (s : State) (n : Nat) : State :=
  match s.launches.get? n with
  | none => s
  | some l =>
    let begun := l.posted || (match packetOf s l n with | some p => p.started && p.data.length ≤ p.ofs | none => false)
    let done := begun && !launchBusy s n && (!l.chain || l.lastDone || l.posted)
    let s := if !l.posted && begun && (done || (l.chain && l.lastDone)) then launchRecord s n l else s
    if done then { s with launches := s.launches.erase n } else s

/-! ### Starting packets (R307, R326, R327, R331) -/

/-- A WAIT's comparison (R326). -/
def waitHolds (cmp v w : Nat) : Bool := match cmp with | 0 => w ≤ v | 1 => v = w | _ => v ≠ w

/-- A WAIT reads its location: it completes, goes on waiting, or stops the queue with ACCESS. -/
def tryWait (s : State) (q : Nat) (x : Queue) (p : Pkt) : State :=
  let keep (d : List Byte) (s : State) : State :=
    s.updQueue q fun x => { x with pend := x.pend.map fun y => if y.id = p.id then { y with started := true, data := d } else y }
  match feRead s x.ctx (le64 p.data 8) 8 with
  | (s, .ok bs) => if waitHolds (le p.data 24 1) (ofBytes bs) (le p.data 16 8) then completePkt s q p 0 0 else keep p.data s
  | (s, .fault _) => keep [] (queueError s q 8 p.seq)
  | (s, r) => keep p.data (feStopped s x.ctx (le64 p.data 8) r)

/-- An entry of a TLB overlaps the range of an INVAL (R327). -/
def Tlb.inRange (t : Tlb) (pasid start len : Nat) : Bool := t.pasid = pasid && (len = 0 || (t.va < start + len && start < t.va + t.size))

/-- The entries of a range leave every TLB, and what their holders own through them is released (R139, R327). -/
def dropTlbs (s : State) (gone : Tlb → Bool) : State :=
  let s := s.hands.foldl (fun s p => releaseGone s (· = p.1) (p.2.tlb.filter gone)) s
  let s := s.dies.foldl (fun s p => releaseGone s (copyOwner p.1) (p.2.tlb.filter gone)) s
  { s with hands := s.hands.map fun (p : Nat × Hand) => (p.1, { p.2 with tlb := p.2.tlb.filter fun t => !gone t }),
           dies := s.dies.map fun (p : Nat × Die) => (p.1, { p.2 with tlb := p.2.tlb.filter fun t => !gone t }) }

/-- Mark a packet as started. -/
def markStarted (s : State) (q : Nat) (p : Pkt) : State :=
  s.updQueue q fun x => { x with pend := x.pend.map fun y => if y.id = p.id then { y with started := true } else y }

/-- A LAUNCH starts (R307): check 5 of R314, then its teams wait for their hands. -/
def startLaunch (s : State) (q : Nat) (p : Pkt) : State :=
  match p.launch with
  | none => completePkt s q p 0 0
  | some n =>
    match s.launches.get? n with
    | none => completePkt s q p 0 0
    | some l =>
      if imageTooBig s l.ctx l.img then
        let s := s.updQueue q fun x => { x with pend := x.pend.filter fun y => y.id ≠ p.id }
        postCompletion { s with launches := s.launches.erase n } q p.slot p.seq 1 5 p.user 0
      else markStarted (placeTeams s n) q p

/-- The die and the bin of a NODE packet (R331). -/
def nodeBin (p : List Byte) : Nat × Nat := (le p 8 2 / 1024 % 4, le p 8 2 % 1024)

/-- What keeps a packet from starting now, with an address: a SIGNAL's store, a NODE's bin, whose die may refuse it or which is full
(R331, R374). -/
def pktStop (s : State) (c : Nat) (p : Pkt) : Option (W64 × FeRes) :=
  match p.typ with
  | 3 => signalStop s c [(le64 p.data 8, le64 p.data 16)]
  | 6 =>
    let (d, b) := nodeBin p.data
    if dieRefuses s d then some (0, .offline d)
    else
      match binStop s d b c with
      | some (.offline x) => some (binSlot s d b, .offline x)
      | some _ => some (0, .later)
      | none => none
  | _ => none

/-- A packet starts. -/
def startPkt (s : State) (q : Nat) (x : Queue) (p : Pkt) : State :=
  match p.typ with
  | 1 => startLaunch s q p
  | 2 => markStarted s q p
  | 3 =>
    match feSignal s x.ctx (le64 p.data 8) (le64 p.data 16) with
    | (s, none) => completePkt s q p 0 0
    | (s, some seq) => completePkt s q p 2 seq
  | 4 => tryWait s q x p
  | 5 => markStarted s q p
  | 6 => completePkt (binEnter (flushAll s) (nodeBin p.data).1 (nodeBin p.data).2 x.ctx none (p.data.drop 64)) q p 0 0
  | _ => completePkt s q p 0 0

/-- Packets behind it start only once it has completed: a WAIT, an INVAL, a NODE whose bin is full. -/
def Pkt.gates (p : Pkt) : Bool := 4 ≤ p.typ

/-- The first taken packet that may start now (R307) and that `can`: `first` where no packet stands before it. -/
def nextStart (can : Pkt → Bool) : Bool → List Pkt → Option Pkt
  | _, [] => none
  | first, p :: ps =>
    if !p.started && (first || !p.bar) && can p then some p
    else if p.gates then none
    else nextStart can false ps

/-- Taken packets of a queue start, one after another, as long as one may. -/
def advanceQueue (q : Nat) : Nat → State → State
  | 0, s => s
  | fuel + 1, s =>
    match s.queues.get? q with
    | none => s
    | some x =>
      match nextStart (fun p => (pktStop s x.ctx p).isNone) true x.pend with
      | some p => advanceQueue q fuel (startPkt s q x p)
      | none =>
        match (nextStart (fun _ => true) true x.pend).bind (pktStop s x.ctx) with
        | some (va, r) => feStopped s x.ctx va r
        | none => s

/-- Launches that have completed leave, the youngest first, and every queue's taken packets go on. -/
def settleAll (s : State) : State :=
  let s := s.launches.keys.foldr (fun n s => settleLaunch s n) s
  s.queues.foldl (fun s q => advanceQueue q.1 (q.2.pend.length + 1) s) s

/-! ### Taking a packet (R303, R305, R313, R324) -/

/-- A LAUNCH or the template of an OPCHAIN is checked as it is taken (R314): refused at once, or kept with its launch. -/
def takeLaunch (s : State) (q sl : Nat) (x : Queue) (k : Pkt) : State :=
  match checkLaunch s q sl k.seq.toNat x.ctx k.compl x.priv (k.typ = 1) k.data with
  | (s, .error code) => postCompletion s q sl k.seq 1 code k.user 0
  | (s, .ok l) =>
    let l := if k.typ = 2 then { l with chain := true, tph := 2 } else l
    let (s, n) := acceptLaunch s l
    s.updQueue q fun x => { x with pend := x.pend ++ [{ k with launch := some n }] }

/-- The packet at the head is taken through a slot: D passes it. -/
def takePacket (s : State) (q sl : Nat) (x : Queue) (p : List Byte) : State :=
  let typ := pktType p
  let k : Pkt := { id := 1 + (x.pend.map (·.id)).foldl max 0, seq := pktSeq p, typ := typ, slot := sl, bar := pktBar p, compl := pktCompl p,
                   user := if typ = 1 || typ = 2 then le64 p 24 else 0, started := false, data := p, launch := none,
                   ofs := if typ = 2 then 256 else p.length }
  let s := s.updQueue q fun x =>
    { x with d := x.d + pktLen p, expected := x.expected + 1, lastTaken := pktSeq p }
  let s := { s with slots := s.slots.modify sl fun y => { y with last := pktSeq p } }
  let s := syncQueue s q
  if typ = 1 || typ = 2 then takeLaunch s q sl x k
  else s.updQueue q fun x => { x with pend := x.pend ++ [k] }

/-- The head of a mapped queue is processed, where it is of the wanted type; `none` takes any, and its errors. -/
def takeHead (s : State) (q : Nat) (want : Option Nat) : State :=
  match slotOf s q, s.queues.get? q with
  | some sl, some x =>
    if partlyDone x then s
    else
      match headOf s q with
      | (s, .error c seq) => if want.isNone then queueError s q c seq else s
      | (s, .refused va d) => if want.isNone then feStopped s x.ctx va (.offline d) else s
      | (s, .packet p) => if want.all (· = pktType p) then settleAll (takePacket s q sl x p) else s
      | (s, _) => s
  | _, _ => s

/-! ### Operator chains (R323-R325) -/

/-- A step of a record (R324). -/
inductive OpStep where
  | write (i : Nat) (v : W64)
  | go
  | signal (v a : W64)
  deriving DecidableEq, Repr

/-- The step in 32 bytes. -/
def opStepOf (b : List Byte) : Option OpStep :=
  match le b 0 1 with
  | 0 => if le b 1 1 < 8 then some (.write (le b 1 1) (le64 b 8)) else none
  | 1 => some .go
  | 2 => if le b 16 8 % 8 = 0 then some (.signal (le64 b 8) (le64 b 16)) else none
  | _ => none

/-- `n` steps. -/
def opSteps : List Byte → Nat → Option (List OpStep)
  | _, 0 => some []
  | b, n + 1 =>
    match opStepOf b, opSteps (b.drop 32) n with
    | some x, some xs => some (x :: xs)
    | _, _ => none

/-- The WRITEs before the GO, and the SIGNALs after it; none where the record has another shape. -/
def opShape : List OpStep → Option (List (Nat × W64) × List (W64 × W64))
  | .write i v :: xs => (opShape xs).map fun r => ((i, v) :: r.1, r.2)
  | .go :: xs =>
    let sigs := xs.filterMap fun x => match x with | .signal v a => some (a, v) | _ => none
    if sigs.length = xs.length then some ([], sigs) else none
  | _ => none

/-- The record at the head of `b`: its length, its logical hand, its WRITEs and SIGNALs. -/
def opRecord (b : List Byte) : Option (Nat × Nat × List (Nat × W64) × List (W64 × W64)) :=
  let n := le b 0 2
  if n = 0 || 64 < n || b.length < 32 + 32 * n || !zeros b 3 29 then none
  else
    match (opSteps (b.drop 32) n).bind opShape with
    | some (ws, ss) => some (32 + 32 * n, le b 2 1, ws, ss)
    | none => none

/-- The residency slot whose bank a record takes (R324): slot 1 where slot 0 holds an operator of another launch. -/
def bankSlot (s : State) (h n : Nat) : Nat :=
  match s.teams.get? (h * 2) with
  | some t => (match s.launches.get? t.launch with | some l => if l.chain && t.launch ≠ n then 1 else 0 | none => 0)
  | none => 0

/-- Update one packet of a queue. -/
def updPkt (s : State) (q id : Nat) (f : Pkt → Pkt) : State :=
  s.updQueue q fun x => { x with pend := x.pend.map fun y => if y.id = id then f y else y }

/-- A record of another shape stops the queue (R324): the packet has posted its record, and its earlier records run on. -/
def chainError (s : State) (q n : Nat) (p : Pkt) : State :=
  let s := queueError s q 7 p.seq
  let s := s.updQueue q fun x => { x with pend := x.pend.filter fun y => y.id ≠ p.id }
  s.updLaunch n fun l => { l with posted := true }

/-- One record of a chain: every step of it, or none (R325). It waits while its bank is armed. -/
def chainRecord (s : State) (q n : Nat) (l : Launch) (p : Pkt) : State :=
  match opRecord (p.data.drop p.ofs) with
  | none => chainError s q n p
  | some (len, node, ws, sigs) =>
    match mapNode l.map (node / 64) (node % 64) with
    | none => chainError s q n p
    | some h =>
      let k := bankSlot s h n
      if (bankOf s h k).armed then s
      else
        let last := decide (p.data.length ≤ p.ofs + len)
        let bank : Bank := { regs := ws.foldl (fun m w => m.set w.1 w.2) [], armed := true, launch := n, sigs := sigs, lastRec := last }
        updPkt (s.updHand h fun x => { x with banks := x.banks.set k bank }) q p.id fun y => { y with ofs := y.ofs + len }

/-- The next record of the queue's partly processed OPCHAIN, once the packet has started. -/
def nextRecord (s : State) (q : Nat) : State :=
  match s.queues.get? q with
  | none => s
  | some x =>
    match x.pend.find? fun p => p.typ = 2 && p.ofs < p.data.length with
    | none => s
    | some p =>
      match p.launch with
      | none => s
      | some n =>
        match s.launches.get? n with
        | some l => if p.started then chainRecord s q n l p else s
        | none => s

/-- The operator that a bank describes, as a waiting team (R317, R323). -/
def bankTeam (s : State) (h : Nat) (b : Bank) (l : Launch) : Waiting :=
  let img := match b.regs.get? 0 with | some v => v.toNat % 2 ^ 32 | none => l.img
  { launch := b.launch, ctx := l.ctx, img := img,
    entry := (match b.regs.get? 1 with
      | some v => v.toNat
      | none => match imageOf s l.ctx img with | some im => im.teamEntry * 16 + 1 | none => 0),
    x := [b.regs.getD 2 l.arg, b.regs.getD 3 0], teamNo := (b.regs.get? 5).map fun v => v.toNat % 2 ^ 32, gridpos := b.regs.getD 4 0,
    wgt := weightShare 1 0, wroot := b.regs.getD 6 l.wroot &&& ~~~7, evstack := [], hands := [h], batch := none, gang := false, out := none,
    signals := b.sigs, lastRec := b.lastRec }

/-- SHADOW_BANK_ACTIVATE (R324): the slot's team has ended, and the operator that the armed bank describes starts. -/
def execShadowBankActivate (h slot : Nat) (s : State) : Res :=
  let b := bankOf s h slot
  if !b.armed || 2 ≤ slot || (s.teams.get? (h * 2 + slot)).isSome || mailboxArmed s h slot || gangHolds s b.launch h then .next s
  else
    match s.launches.get? b.launch with
    | none => .next s
    | some l =>
      match (b.regs.get? 0).bind fun v => imageStop s l.ctx (v.toNat % 2 ^ 32) with
      | some (va, r) => .next (feStopped s l.ctx va r)
      | none =>
      let s := match b.regs.get? 0 with | some v => (readHeader s l.ctx (v.toNat % 2 ^ 32)).1 | none => s
      let open_ := s.updHand h fun x => { x with banks := x.banks.erase slot }
      if !fits open_ h l then .next s
      else
        match bootTeam s ⟨h, slot⟩ (bankTeam s h b l) with
        | (s, false) => .next s
        | (s, true) =>
          let s := s.updLaunch b.launch fun l => match b.regs.get? 7 with | some v => { l with user := v } | none => l
          .next (s.updHand h fun x => { x with banks := x.banks.erase slot })

/-! ### Service rounds (R309-R312) -/

/-- A queue gains work from having none, and with it its base priority; or it has none left (R311). -/
def noteWork (s : State) (q : Nat) : State :=
  let work := hasWork s q
  let now := s.clock
  s.updQueue q fun x =>
    if work = x.busy then x else if work then { x with busy := true, pri := x.basePri, age := 0, since := now } else { x with busy := false }

/-- A queue with work grows older (R311). -/
def ageQueue (s : State) (mclk q : Nat) : State :=
  let quantum := max 1 s.quantum
  s.updQueue q fun x =>
    if x.busy then { x with pri := min (x.pri + (x.age + mclk) / quantum) 15, age := (x.age + mclk) % quantum } else x

/-- The better of two by an order. -/
def best {α : Type} (lt : α → α → Bool) : List α → Option α
  | [] => none
  | x :: xs => match best lt xs with | some y => some (if lt y x then y else x) | none => some x

/-- Unmapped queues with work. -/
def unmappedWork (s : State) : List (Nat × Queue) := s.queues.filter fun p => (slotOf s p.1).isNone && hasWork s p.1

/-- The head of the mapping order: highest priority, then waiting longest, then lowest number. -/
def mapHead (s : State) : Option (Nat × Queue) :=
  best (fun a b => a.2.pri > b.2.pri || (a.2.pri = b.2.pri && (a.2.since < b.2.since || (a.2.since = b.2.since && a.1 < b.1))))
    (unmappedWork s)

/-- A slot, free where it is not listed. -/
def slotAt (s : State) (k : Nat) : Slot := s.slots.getD k ⟨none, 0, 0, false, 0⟩

/-- The victim of a mapping: served since its mapping, priority at most the head's; lowest priority, then highest slot. A queue that
has been disabled counts as served (R312; log entry 91). -/
def victim (s : State) (pri : Nat) : Option Nat :=
  let cs := s.slots.filterMap fun p =>
    match p.2.queue with
    | some q => (match s.queues.get? q with | some x => if (p.2.served || !x.enabled) && x.pri ≤ pri then some (x.pri, p.1) else none | none => none)
    | none => none
  (best (fun a b => a.1 < b.1 || (a.1 = b.1 && a.2 > b.2)) cs).map (·.2)

/-- The queue takes the slot. -/
def mapInto (s : State) (q k : Nat) : State :=
  { s with slots := s.slots.set k { slotAt s k with queue := some q, served := false, at_ := s.clock } }

/-- The mapping step of a round. -/
def mapOne (s : State) : State :=
  match mapHead s with
  | none => s
  | some (q, x) =>
    match (List.range 512).find? fun k => (slotAt s k).queue.isNone with
    | some k => mapInto s q k
    | none => match victim s x.pri with | some k => mapInto s q k | none => s

/-- A slot has served its queue: the queue's priority falls to its base, and to 14 at most (R311). -/
def slotServed (s : State) (k q : Nat) : State :=
  let now := s.clock
  ({ s with slots := s.slots.modify k fun y => { y with served := true, at_ := now } }).updQueue q fun x => { x with pri := min x.basePri 14 }

/-- The queue-error records of mapped queues are posted (R305): that serves a queue without other work. -/
def postErrors (s : State) : State :=
  s.slots.foldl (fun s p =>
    match p.2.queue with
    | none => s
    | some q =>
      match s.queues.get? q with
      | none => s
      | some x =>
        if x.errs.isEmpty then s
        else
          let s := x.errs.foldl (fun s e => postCompletion s q p.1 e.2.1 4 e.1 0 e.2.2) s
          let s := s.updQueue q fun x => { x with errs := [] }
          if hasPacket s q then s else slotServed s p.1 q) s

/-- The slot that a round serves: highest priority, longest since served or mapped, lower slot. -/
def servedSlot (s : State) : Option (Nat × Nat) :=
  let cs := s.slots.filterMap fun p =>
    match p.2.queue with
    | some q => (match s.queues.get? q with | some x => if hasPacket s q then some (x.pri, p.2.at_, p.1, q) else none | none => none)
    | none => none
  (best (fun a b => a.1 > b.1 || (a.1 = b.1 && (a.2.1 < b.2.1 || (a.2.1 = b.2.1 && a.2.2.1 < b.2.2.1)))) cs).map fun c => c.2.2

/-- One packet or record of the served queue (R309, R310). -/
def serveOne (s : State) : State :=
  match servedSlot s with
  | none => s
  | some (k, q) =>
    let partly := match s.queues.get? q with | some x => partlyDone x | none => false
    slotServed (if partly then nextRecord s q else takeHead s q none) k q

/-- Every queue's having work is noted. -/
def noteAll (s : State) : State := s.queues.keys.foldl noteWork s

/-- A service round (R311). -/
def serviceRound (s : State) (mclk : Nat) : State :=
  let s := (noteAll s).queues.keys.foldl (ageQueue · mclk ·) (noteAll s)
  noteAll (settleAll (serveOne (postErrors (mapOne s))))

/-- A queue has work. -/
def anyWork (s : State) : Bool := s.queues.keys.any fun q => hasWork s q

/-- SERVICE_ROUND (R309, R311): a firmware core in service performs a round, while no event waits and some queue has work. -/
def execServiceRound (core mclk : Nat) (s : State) : Res :=
  if s.cores ≤ core || !s.events.isEmpty || !anyWork s then .next s else .next (serviceRound s mclk)

/-! ### Bins and evaluations (R249, R330-R333) -/

/-- The records of a bin that no batch holds yet. -/
def Bin.count (b : Bin) : Nat := b.entered - b.taken

/-- A batch of the oldest records leaves for a team (R332): the event of its trigger enters the event queue. -/
def takeBatch (s : State) (d b : Nat) (timer : Bool) : State :=
  let x := binOf s d b
  let n := min x.count (binField s d b 18 1)
  let ws := ((x.writers.take n).filterMap id).dedup
  let ev := if timer then FeEvent.timer d b x.taken n x.ctx ws else FeEvent.binLaunch d b x.taken n x.ctx ws
  let s := s.updDie d fun y =>
    { y with bins := y.bins.set b { x with taken := x.taken + n, batches := x.batches ++ [(x.taken, n)], writers := x.writers.drop n,
                                           timer := x.timer && n < x.count } }
  { s with events := s.events ++ [ev] }

/-- A bin is ready to launch a team on its records: it is enabled, not the evaluation bin, its die is ONLINE (R369), and the
event queue has room. -/
def binReady (s : State) (d b : Nat) : Bool :=
  b ≠ 1023 && (s.die d).state = .online && binField s d b 19 1 % 2 = 1 && 0 < min (binOf s d b).count (binField s d b 18 1) && !s.eventsFull

/-- BIN_LAUNCH (R332): the coalescing count has been reached. -/
def execBinLaunch (d b : Nat) (s : State) : Res :=
  .next (if binReady s d b && binField s d b 18 1 ≤ (binOf s d b).count then takeBatch s d b false else s)

/-- BIN_TIMER_EXPIRY (R332). -/
def execBinTimerExpiry (d b : Nat) (s : State) : Res :=
  .next (if binReady s d b && (binOf s d b).timer then takeBatch s d b true else s)

/-- BIN_RECORD_WRITE (R331): a record enters a bin that has room and whose backing store can be written, from the copy that the step serves.
The entry is a release. -/
def execBinRecordWrite (d b : Nat) (rec : List Byte) (s : State) : Res :=
  let writer : Option Nat × Nat :=
    match s.cur with
    | .copy h bulk n =>
      (match (if bulk then (s.hand h).bulk else (s.hand h).near).find? fun c => c.id = n with
       | some c => ((s.teams.get? (h * 2 + c.slot)).map (·.launch), c.ctx)
       | none => (none, (binOf s d b).ctx))
    | _ => (none, (binOf s d b).ctx)
  if (binStop s d b writer.2).isSome then .next s
  else .next (binEnter (flushAll s) d b writer.2 writer.1 ((rec ++ List.replicate 64 0).take 64))

/-- Read `n` bytes of a context's memory, page by page. -/
def feBytes (c : Nat) (va : W64) : List (Nat × Nat) → State → State × FeRes
  | [], s => (s, .ok [])
  | (o, n) :: ps, s =>
    match feRead s c (va + BitVec.ofNat 64 o) n with
    | (s, .ok bs) =>
      (match feBytes c va ps s with
       | (s, .ok r) => (s, .ok (bs ++ r))
       | r => r)
    | r => r

/-- The team of a bin's batch (R332). -/
def binTeam (s : State) (d b first count n : Nat) (l : Launch) : Waiting :=
  let backing := BitVec.ofNat 64 (binField s d b 8 8)
  let cap := binField s d b 16 2
  let hand := binField s d b 22 1
  { launch := n, ctx := l.ctx, img := l.img,
    entry := (if binField s d b 24 4 ≠ 0 then binField s d b 24 4
      else match imageOf s l.ctx l.img with | some im => im.teamEntry * 16 + 1 | none => 0),
    x := [backing + BitVec.ofNat 64 (64 * (first % max 1 cap)), BitVec.ofNat 64 count, backing, BitVec.ofNat 64 cap], teamNo := none,
    gridpos := 0, wgt := 0, wroot := l.wroot, evstack := [], hands := if hand = 0xFF then presentHands l.map else [hand],
    batch := some (d, b, first), gang := false, out := none }

/-- The template of a bin as a packet: its bytes, or why they cannot be read. -/
def binTemplate (s : State) (d b c : Nat) : State × FeRes :=
  let va := BitVec.ofNat 64 (binField s d b 0 8)
  match feBytes c va (pieces 4096 va.toNat 248) s with
  | (s, .ok t) => (s, .ok (List.replicate 8 0 ++ t))
  | r => r

/-- What keeps the front end from launching a bin's batch now (R372, R374). -/
def batchStop (s : State) (d b c : Nat) : Option (W64 × FeRes) :=
  match (binTemplate s d b c).2 with
  | .ok p => launchStop s c p
  | r => r.stop.map fun r => (BitVec.ofNat 64 (binField s d b 0 8), r)

/-- The front end handles a bin's request: its template becomes a launch without a packet, and the team waits for a hand. A template
that fails the checks starts nothing and frees the batch. -/
def launchBatch (s : State) (d b first count c : Nat) (ws : List Nat) : State :=
  match binTemplate s d b c with
  | (s, .ok p) =>
    let priv := match s.ctx? c with | some x => x.privileged | none => false
    (match checkLaunch s 65536 0 0 c false priv true p with
     | (s, .error _) => freeBatch s (some (d, b, first))
     | (s, .ok l) =>
       if imageTooBig s c l.img then freeBatch s (some (d, b, first))
       else
         let l := { l with posted := true, parents := ws.filter fun n => (s.launches.get? n).isSome, gang := false }
         let (s, n) := acceptLaunch s l
         { s with waiting := s.waiting ++ [binTeam s d b first count n l] })
  | (s, _) => freeBatch s (some (d, b, first))

/-- The evaluation bin of a sector's die launches evaluators: the die is ONLINE (R333, R369). -/
def evalOpen (s : State) (w : Waiting) : Bool := w.evstack.getLast?.all fun c => (s.die (homeDie c.1)).state = .online

/-- The evaluation bin handles a record (R249, R333): a bad handle fails the sector with cause 3, else the evaluator starts where it
fits or waits. While the bin's die is not ONLINE, or the image cannot be read, the record waits in the list in memory. -/
def startEvaluator (s : State) (w : Waiting) : State :=
  match w.evstack.getLast? with
  | none => s
  | some (pa, _) =>
    if !evalOpen s w then { s with spill := s.spill ++ [w] }
    else
      match imageStop s w.ctx w.img with
      | some (va, r) => feStopped { s with spill := s.spill ++ [w] } w.ctx va r
      | none =>
        match readHeader s w.ctx w.img with
        | (s, none) => failCell s w.ctx pa 3 0
        | (s, some im) =>
          if lineIs s w.ctx im (w.entry / 16) 0 true then tryStart { s with waiting := s.waiting ++ [w] } s.waiting.length
          else failCell s w.ctx pa 3 0

/-- A place in the event queue is free: the oldest record of the waiter list in memory that can be handled takes it (R333). -/
def unspill (s : State) : State :=
  match s.spill.find? fun w => evalOpen s w && (imageStop s w.ctx w.img).isNone with
  | none => s
  | some w => if s.eventsFull then s else { s with events := s.events ++ [.evaluate w], spill := s.spill.erase w }

/-- The front end handles a bin's event; one whose template or image cannot be read yet returns to the queue. -/
def binEvent (s : State) (e : FeEvent) (d b first count c : Nat) (ws : List Nat) : State :=
  match batchStop s d b c with
  | some (va, r) => feStopped { s with events := s.events ++ [e] } c va r
  | none => launchBatch s d b first count c ws

/-- What the front end does with an event (R309). -/
def handleEvent (s : State) (e : FeEvent) : State :=
  match e with
  | .writeIndex _ => s
  | .teamEnd _ => settleAll s
  | .spawn w => { s with waiting := s.waiting ++ [w] }
  | .evaluate w => startEvaluator s w
  | .binLaunch d b first count c ws => binEvent s e d b first count c ws
  | .timer d b first count c ws => binEvent s e d b first count c ws

/-- A core handles the oldest event and performs a service round (R309). How many mclk its clock has counted since the last round is
open: the round ages the queues by a free count (log entry 55). -/
def eventRound (s : State) (e : FeEvent) (es : List FeEvent) : State :=
  let (k, s) := (handleEvent (unspill { s with events := es }) e).draw
  serviceRound s (Config.choice k)

/-- EVALUATOR_START (R249, R309): a core takes the event queue's oldest event, where that is a record of the evaluation bin of a die. -/
def execEvaluatorStart (die : Nat) (s : State) : Res :=
  match s.events with
  | .evaluate w :: es =>
    if s.cores ≠ 0 && w.evstack.getLast?.any fun c => homeDie c.1 = die then .next (eventRound s (.evaluate w) es) else .next s
  | _ => .next s

/-- FRONT_END_EVENT (R309): a core takes the oldest event, handles it, and performs a service round. -/
def execFrontEndEvent (core : Nat) (s : State) : Res :=
  if s.cores ≤ core then .next s
  else
    match s.events with
    | [] => .next s
    | e :: es => .next (eventRound s e es)

/-! ### The rows of single packets -/

/-- The write-index register of a queue as a function reads it (R302, R358): 0 where the queue was never enabled, and for a VF where
the queue is not its own. -/
def readIndex (s : State) (fn q : Nat) : W64 :=
  match s.queues.get? q with
  | some x => if fn = 0 || x.fn = fn then BitVec.ofNat 64 x.a else 0
  | none => 0

/-- An agent of the device goes on with `f` after a release at .DV (R159): a thread's stores perform first, and a group's earlier accesses
have performed. -/
def agentRelease (s : State) (a : Agent) (f : State → State) : State :=
  match a with
  | .thread t => (match s.coreOf t with | some k => released s k 3 f | none => f s)
  | .group g => if accessesBefore s g (match s.group? g with | some gr => gr.outst.length | none => 0) then f (releaseAt s g.hand 3) else s
  | .stream t => f (releaseAt s t.hand 3)
  | .copy h _ _ => f (releaseAt s h 3)
  | .device => f s

/-- The writer reaches the register: a VF only that of a queue of its own (R358). -/
def IndexWriter.reaches (w : IndexWriter) (x : Queue) : Bool :=
  match w with | .host f => f = 0 || x.fn = f | .agent _ => true

/-- WRITE_INDEX (R303, R358): the host's write, or that of an agent of the device, which is a release (R159). -/
def execWriteIndex (q size ofs : Nat) (v : IndexWrite) (s : State) : Res :=
  match s.queues.get? q with
  | none => .next s
  | some x =>
    let w := v.data.toNat
    if !x.enabled || !IndexWriter.reaches v.who x then .next s
    else if size ≠ 8 || ofs % 8 ≠ 0 then .next (noteWork (queueError s q 1 x.expected) q)
    else if w = x.a then .next s
    else if w < x.a || x.size < w - x.d then .next (noteWork (queueError s q 1 x.expected) q)
    else
      let take (s : State) : State :=
        let s := noteWork (s.updQueue q fun x => { x with a := w }) q
        if s.events.contains (.writeIndex q) then s else { s with events := s.events ++ [.writeIndex q] }
      .next (match v.who with | .agent a => agentRelease s a take | .host _ => take s)

/-- PAD (R304). -/
def execPad (q : Nat) (s : State) : Res := .next (takeHead s q (some 0))
/-- LAUNCH (R313). -/
def execLaunch (q : Nat) (s : State) : Res := .next (takeHead s q (some 1))
/-- OPCHAIN (R324). -/
def execOpchain (q : Nat) (s : State) : Res := .next (takeHead s q (some 2))
/-- OPCHAIN_RECORD (R325). -/
def execOpchainRecord (q : Nat) (s : State) : Res := .next (settleAll (nextRecord s q))
/-- SIGNAL (R326). -/
def execSignal (q : Nat) (s : State) : Res := .next (takeHead s q (some 3))
/-- WAIT (R326). -/
def execWait (q : Nat) (s : State) : Res := .next (takeHead s q (some 4))
/-- INVAL (R327). -/
def execInval (q : Nat) (s : State) : Res := .next (takeHead s q (some 5))
/-- NODE (R331). -/
def execNode (q : Nat) (s : State) : Res := .next (takeHead s q (some 6))

/-- WAIT_RECHECK (R326): the started WAIT of the queue reads its location again. -/
def execWaitRecheck (q : Nat) (s : State) : Res :=
  match s.queues.get? q with
  | none => .next s
  | some x =>
    match x.pend.find? fun p => p.typ = 4 && p.started && !p.data.isEmpty with
    | some p => .next (settleAll (tryWait s q x p))
    | none => .next s

/-- INVAL_COMPLETE (R327): the entries go with what was owned through them, and the packet completes. -/
def execInvalComplete (q : Nat) (s : State) : Res :=
  match s.queues.get? q with
  | none => .next s
  | some x =>
    match x.pend.find? fun p => p.typ = 5 && p.started with
    | some p =>
      let pasid := pasidOf s x.ctx
      .next (settleAll (completePkt (dropTlbs s fun t => t.inRange pasid (le p.data 8 8) (le p.data 16 8)) q p 0 0))
    | none => .next s

/-- LAUNCH_COMPLETE (R321). -/
def execLaunchComplete (n : Nat) (s : State) : Res := .next (settleAll (settleLaunch s n))

end Sys2Proof.Machine
end

