-- ==== Sys2Proof/Machine/Log.lean ====
section
/-! DEFINITION. The Collar's management log, and what waits while the Collar restarts: R375, R379, R380. -/

namespace Sys2Proof.Machine

/-- The fields of a record after its number: kind, die, bytes 10-11, bytes 12-15, old and new clk and fclk, rail offsets, bytes 32-63. -/
structure LogRec where
  kind : Nat
  die  : Nat := 0xFF
  a    : Nat := 0xFF
  b    : Nat := 0xFF
  val  : Nat := 0
  clk  : Nat × Nat := (0, 0)
  fclk : Nat × Nat := (0, 0)
  rail : Nat × Nat := (0, 0)
  ext  : List Byte := []

/-- A record in its 64 bytes. -/
def LogRec.bytes (seq : Nat) (r : LogRec) : List Byte :=
  fit 64 (toBytes 8 seq ++ toBytes 1 r.kind ++ toBytes 1 r.die ++ toBytes 1 r.a ++ toBytes 1 r.b ++ toBytes 4 r.val ++
    toBytes 2 r.clk.1 ++ toBytes 2 r.clk.2 ++ toBytes 2 r.fclk.1 ++ toBytes 2 r.fclk.2 ++ toBytes 1 r.rail.1 ++ toBytes 1 r.rail.2 ++
    List.replicate 6 0 ++ r.ext)

/-- Update the Collar. -/
def State.updCollar (s : State) (f : Collar → Collar) : State := { s with collar := f s.collar }

/-- A record enters the log, over the oldest where the log is full. -/
def logWrite (s : State) (r : LogRec) : State :=
  s.updCollar fun c =>
    let log := c.log ++ [r.bytes c.nextLog]
    { c with log := log.drop (log.length - 2 ^ 20), nextLog := c.nextLog + 1 }

/-- While the Collar restarts, a request waits (R379). -/
def orWait (s : State) (i : CollarReq) (f : State) : State :=
  if s.collar.restarting then s.updCollar fun c => { c with pendingReq := c.pendingReq ++ [i] } else f

/-- The hands of the defect map that a reset of some dies disables now: a record names each (R369, R375). -/
def disableHands (s : State) (on : Nat → Bool) : State :=
  let new := s.collar.defectMap.filter fun h => on h && !s.defects.contains h
  new.foldl (fun s h => logWrite { s with defects := s.defects ++ [h] } { kind := 3, die := dieOf h, ext := toBytes 1 h }) s

/-- One UCIe link of a die after training with so many bad lanes: four at most are spared, with more it runs at half width; a change is
logged (R375). -/
def trainLink (die : Nat) (s : State) (l : Nat × Nat) : State :=
  let v := (min l.2 4, decide (4 < l.2))
  if s.collar.links.getD (8 * die + l.1) (0, false) = v then s
  else logWrite (s.updCollar fun c => { c with links := c.links.set (8 * die + l.1) v }) { kind := 3, die := die }

end Sys2Proof.Machine
end

