-- ==== Sys2Proof/Machine/Traps.lean ====
section
/-! DEFINITION. What reaches agents from outside their instructions: pre-emption and time slices (R45, R320, R344), page requests
(R350), page loads (R351), memory errors (R142, R144, R339), fatal removal and rollback (R354, R355), invalidations (R137), write
ownership (R139), lock allotments (R254), evaluators that end (R250). -/

namespace Sys2Proof.Machine

/-- PREEMPT (R45, R344): a thread stops at its boundary; a group at its next iteration boundary, its deal draining if so flagged. -/
def execPreempt (ag : Agent) (s : State) : Res :=
  match ag with
  | .thread r => .next (stopThread s r)
  | .group g => .next (s.updGroup g (preemptGroup true))
  | _ => .next s

/-- A team's threads and groups go on after a pre-emption (R344). -/
def releaseTeam (s : State) (t : TeamRef) : State :=
  let s := (teamGroups s t).foldl (fun s g => s.updGroup g (preemptGroup false)) s
  ((teamThreads s t).foldl resumeThread s).updTeam t fun x => { x with slicing := false }

/-- Every thread and group of a team is pre-empted (R45). -/
def preemptTeam (s : State) (t : TeamRef) : State :=
  (teamThreads s t).foldl stopThread ((teamGroups s t).foldl (fun s g => s.updGroup g (preemptGroup true)) s)

/-- A team is pre-empted as its time slice expires (R320). -/
def stopTeam (s : State) (t : TeamRef) : State := (preemptTeam s t).updTeam t fun x => { x with slicing := true }

/-- A pre-empted team waits for its hand again (R320): the number under which it is kept. -/
def waitAgain (t : TeamRef) (tm : Team) (v : Nat) : Waiting :=
  { launch := tm.launch, ctx := tm.ctx, img := tm.img, entry := tm.entry, x := tm.startX, teamNo := some tm.teamNo.toNat,
    gridpos := tm.gridpos, wgt := tm.wgt, wroot := tm.wroot, evstack := tm.evstack, hands := [t.hand], batch := tm.batch, gang := tm.gang,
    out := some v }

/-- A team leaves its hand and waits for it (R320). -/
def putOff (s : State) (t : TeamRef) : State :=
  match s.team? t with
  | none => s
  | some tm =>
    let v := offHand s
    let s := takeOff (releaseTeam s t) t v
    { s with waiting := s.waiting ++ [waitAgain t tm v] }

/-- The teams of a gang launch that stand on hands. -/
def gangTeams (s : State) (n : Nat) : List TeamRef :=
  (s.teams.filter fun p => p.2.launch = n && p.2.gang && p.1 < 512).map fun (p : Nat × Team) => (⟨p.1 / 2, p.1 % 2⟩ : TeamRef)

/-- The teams that are pre-empted with a team: those of its gang on the hands, else itself (R47). -/
def sliceTeams (s : State) (t : TeamRef) (tm : Team) : List TeamRef := if tm.gang then gangTeams s tm.launch else [t]

/-- A team of another launch of the same tenant waits for the hand (R320). -/
def wanted (s : State) (h launch : Nat) : Bool :=
  s.waiting.any fun w => w.launch ≠ launch && w.hands.contains h && tenantOf s w.ctx = (s.hand h).tenant

/-- TIME_SLICE_EXPIRY (R320): the team, with its gang, is pre-empted where another launch's team waits for its hand; it leaves once
it stands at its boundaries, and goes on where no such team waits any more, of a gang for none of its hands (R47). -/
def execTimeSliceExpiry (t : TeamRef) (s : State) : Res :=
  match s.team? t with
  | none => .next s
  | some tm =>
    let slice := match s.launches.get? tm.launch with | some l => l.slice | none => 0
    let ts := sliceTeams s t tm
    let due := wanted s t.hand tm.launch || (tm.slicing && ts.any fun u => wanted s u.hand tm.launch)
    if slice = 0 || 256 ≤ t.hand || tm.ending then .next s
    else if !due then .next (if tm.slicing then ts.foldl releaseTeam s else s)
    else
      if ts.all (teamQuiet s) then .next (ts.foldl putOff (flushAll s)) else .next (ts.foldl stopTeam s)

/-! ### Page requests and page loads (R350, R351) -/

/-- A parked agent goes on. -/
def wakeParked (s : State) (a : Agent) : State :=
  match a with
  | .thread t => s.updThread t fun th => { th with wait := if th.wait = .park then .none else th.wait }
  | .group g => s.updGroup g fun x => { x with parked := false }
  | _ => s

/-- The `n`-th parked request of a context leaves the park, and its agent makes its access again. -/
def unpark (s : State) (c n : Nat) (k : Parked) : State :=
  wakeParked (s.updCtx c fun x => { x with parked := x.parked.eraseIdx n }) k.agent

/-- Bit 1 of byte 6 of a context's entry (R360). -/
def setPageBit (s : State) (c : Nat) (on : Bool) : State :=
  let v := ctxField s c 6 1
  { s with hostMem := Memory.writeNat s.hostMem (ctxEntry s c + 6) 1 (v - v / 2 % 2 * 2 + if on then 2 else 0) }

/-- PRI_RESPONSE (R350): on Success the access is made again; on Invalid Request or Response Failure it faults with PAGE_ABSENT in
its agent's class, and after a Response Failure the context sends no further request. A request that waited for its turn is sent. -/
def execPriResponse (c n : Nat) (resp : PriResp) (s : State) : Res :=
  match s.ctx? c with
  | none => .next s
  | some x =>
    match x.parked[n]? with
    | none => .next s
    | some k =>
      if k.die.isSome || !k.sent then .next s
      else
        let s := unpark s c n k
        let deny (s : State) : State := s.updCtx c fun x => { x with denied := (k.agent, k.va.toNat) :: x.denied }
        .next (sendNext (match resp with
          | .success => s
          | .invalid => deny s
          | .failure => setPageBit ((deny s).updCtx c fun x => { x with priBlocked := true }) c false))

/-- PAGE_LOAD (R18, R351): the loader brings the lines of a page of an image that a hand does not hold. -/
def execPageLoad (h c img page : Nat) (s : State) : Res :=
  .next (if s.enabled h then (loadPage s h c img page (mapFor s h c img)).1 else s)

/-! ### Errors (R142, R144, R339) -/

/-- UNCORRECTABLE_ERROR (R142): the unit is poisoned where the error strikes, in memory, in a cache's copy or in scratchpad; a line of an instruction memory is refetched and logged (R144). -/
def execUncorrectableError (wh : MemPlace) (s : State) : Res :=
  match wh with
  | .device pa => .next (spoil s [pa / 64])
  | .cached p pa =>
    let la := alignDown pa 128
    match lineCopy s p la with
    | some l => .next (settleSlice (setLine s p la { l with marks := l.marks ||| BitVec.twoPow 2 (pa / 64 % 2) }) p la)
    | none => .next s
  | .scratch h o => .next (s.updHand h fun x => { x with scratchPoison := x.scratchPoison.insert (o / 64) })
  | .imem h e c img line =>
    match imageOf s c img, lineOf s h c img line with
    | some im, some _ =>
      let s := postPoison s c (im.base.toNat + 64 * line) 0 3 h e 0
      let s := s.updHand h fun x => { x with imem := x.imem.erase (imemKey c img line) }
      .next (loadPage s h c img (line / 64) (mapFor s h c img)).1
    | _, _ => .next s

/-- The number under which a die counts the corrected errors of a place: a pseudo-channel of a stack of HBM4E, or one of the L1s, cluster
caches, L2 slices or scratchpads of the die (R142). -/
def errorKey (level : ErrLevel) (n : Nat) : Nat :=
  match level with
  | .hbm stack => stack * 64 + n
  | .l1 => 2 ^ 16 + n
  | .cluster => 2 * 2 ^ 16 + n
  | .l2 => 3 * 2 ^ 16 + n
  | .scratch => 4 * 2 ^ 16 + n

/-- CORRECTED_ERROR (R142): counted for the management subsystem, at every level. -/
def execCorrectedError (die : Nat) (stack : ErrLevel) (pc : Nat) (s : State) : Res :=
  let k := errorKey stack pc
  .next (s.updDie die fun d => { d with corrected := d.corrected.set k (d.corrected.getD k 0 + 1) })

/-- The engine whose structure an error strikes (R339, code 64). -/
def structEngine (what : Nat) : Nat := match what with | 3 => 2 | 5 => 0 | _ => 1

/-- REGISTER_ECC_ERROR (R339): the fatal fault REG_ECC. -/
def execRegisterEccError (h slot what : Nat) (s : State) : Res :=
  match s.team? ⟨h, slot⟩ with
  | some tm =>
    .next (fatal s tm.ctx .regEcc { engine := structEngine what, hand := h, slot := slot, team := tm.teamNo.toNat } 0 (BitVec.ofNat 64 what) 0)
  | none => .next s

/-! ### The end of contexts (R354, R355) and of evaluators (R250) -/

/-- The context exists and has not ended. -/
def ctxLive (s : State) (c : Nat) : Bool := match s.ctx? c with | some x => !x.ended | none => false

/-- The checkpoint of a context may roll it back (R354). -/
def mayRollBack (s : State) (c : Nat) : Bool :=
  match s.ctx? c with | some x => x.ckptValid && !x.rolledBack && x.saved.isSome | none => false

/-- FATAL_REMOVAL (R355): with no checkpoint to go back to, the context is removed; its completion records carry FAULT and the last
record posted. -/
def execFatalRemoval (c : Nat) (s : State) : Res :=
  .next (if ctxLive s c && !mayRollBack s c then removeCtx s c 2 (s.errSeq - 1) else s)

/-- ROLLBACK (R354). -/
def execRollback (c : Nat) (s : State) : Res :=
  .next (if ctxLive s c && mayRollBack s c then rollbackCtx s c (s.errSeq - 1) else s)

/-- The first deferred cell fault that an operation of a group has met (R227, R250). -/
def cellFaultOf (s : State) (g : GroupRef) : Option (FaultCode × W64 × W64 × W64) :=
  match s.group? g with
  | some gr => (gr.outst.filterMap fun o => o.bad).find? fun b => b.1.ofCell
  | none => none

/-- EVALUATOR_CELL_FAULT (R250): a group of an evaluator team has met a cell fault, and the team ends, its sector failing with cause 1. A
thread's is met within its instruction. The end waits for room in the front end's queue (R308). -/
def execEvaluatorCellFault (t : TeamRef) (s : State) : Res :=
  match s.team? t with
  | none => .next s
  | some tm =>
    if tm.evstack.isEmpty || s.eventsFull then .next s
    else
      match (teamGroups s t).find? fun g => (cellFaultOf s g).isSome with
      | none => .next s
      | some g =>
        match s.group? g, cellFaultOf s g with
        | some gr, some b => .next (endEvaluator s t tm b.1 (groupSite s g gr) b.2.1 b.2.2.1 b.2.2.2)
        | _, _ => .next s

/-! ### Invalidations, ownership, allotments (R137, R139, R254) -/

/-- ATS_INVALIDATION (R137): host translations of a range leave every TLB, and the completion is sent. -/
def execAtsInvalidation (pasid va len : Nat) (s : State) : Res :=
  .next ((dropTlbs s fun t => t.host && t.inRange pasid va len).send (.atsDone pasid))

/-- OWNERSHIP_TRANSFER (R139): once the writes of the sub-page's owner have reached their home. -/
def execOwnershipTransfer (ag pa : Nat) (s : State) : Res :=
  .next (if ownerWrites s ag pa (fun _ => true) then s else acquireOwnership s ag pa)

/-- LOCK_ALLOTMENT (R254). -/
def execLockAllotment (c lk : Nat) (grant : Bool) (s : State) : Res :=
  .next ((ensureCtx s c).updCtx c fun x => { x with locks := if grant then x.locks.insert lk else x.locks.erase lk })

end Sys2Proof.Machine
end

