-- ==== Sys2Proof/Machine/Dies.lean ====
section
/-! DEFINITION. Host accesses to device memory (R358, R374) and the warm reset of a compute die: its states, the quiescing, the
readmission handshake, the replay and restart of what waited (R369-R374). -/

namespace Sys2Proof.Machine

/-! ### Host accesses through BAR2 (R160, R358, R374) -/

/-- The context whose PASID a VF's BAR2 translates in: the lowest valid entry of the function (R358 names a default PASID only). -/
def defaultCtx (s : State) (fn : Nat) : Option Nat :=
  (List.range 4096).find? fun c => ctxField s c 6 1 % 2 = 1 && fnOf s c = fn

/-- What a host address names: the PF's addresses are device physical ones, a VF's are translated. The access comes from I/O die N (R9). -/
def hostPlace (s : State) (fn addr : Nat) (wr : Bool) : State × Chk :=
  if fn = 0 then (s, if 2 ^ 40 ≤ addr then .fault .pageAbsent else devPlace s (ioHand 0) addr)
  else
    match defaultCtx s fn with
    | none => (s, .fault .pageAbsent)
    | some c =>
      if 2 ^ 36 ≤ addr then (s, .fault .pageAbsent) else checkVirtual s c (ioHand 0) false (if wr then .store else .load) addr false

/-- The place of one line of a host access, unless a copy that has issued owns the line (R161). -/
def hostLine (s : State) (x : HostHeld) (o n : Nat) : State × Chk :=
  match hostPlace s x.fn (x.addr + o) x.wr.isSome with
  | (s, .ok t) => (s, if copyHolds s t n then .waits else .ok t)
  | r => r

/-- A host access, line by line: what it reads, or what stops it. A write to the bin window has no effect. -/
def hostPieces (x : HostHeld) : List (Nat × Nat) → State → State × Except Chk (List Byte)
  | [], s => (s, .ok [])
  | (o, n) :: ps, s =>
    match hostLine s x o n with
    | (s, .ok t) =>
      let s := match t with | .dev pa => recallLine s (alignDown pa 128) | _ => s
      let bs := match t with | .dev pa => Memory.read s.mem pa n | .host a => Memory.read s.hostMem a n | _ => List.replicate n 0
      let s := match x.wr, t with
        | some d, .dev pa => homeStoreFe s 4096 ((((d ++ List.replicate x.len 0).drop o).take n).zipIdx.map fun (b : Byte × Nat) => (pa + b.2, b.1))
        | some d, .host a => { s with hostMem := Memory.write s.hostMem a (((d ++ List.replicate x.len 0).drop o).take n) }
        | _, _ => s
      match hostPieces x ps s with
      | (s, .ok r) => (s, .ok (bs ++ r))
      | r => r
    | (s, ck) => (s, .error ck)

/-- A die refuses some line of an access, no route leads to it, or it waits for a copy's line (R161, R372, R374). -/
def hostRefused (s : State) (x : HostHeld) : Bool :=
  (pieces 128 x.addr x.len).any fun p => match (hostLine s x p.1 p.2).2 with | .offline _ => true | .waits => true | _ => false

/-- A host access: held while a die refuses it or it waits, else performed; a read that cannot be translated ends as an abort. -/
def hostAccess (s : State) (x : HostHeld) : State :=
  if hostRefused s x then { s with hostHeld := s.hostHeld ++ [x] }
  else
    match hostPieces x (pieces 128 x.addr x.len) s with
    | (s, .ok bs) => if x.wr.isSome then s else s.send (.hostData bs)
    | (s, .error _) => if x.wr.isSome then s else s.send .hostAbort

/-- HOST_BAR2_ACCESS (R358): an access of an enabled function. -/
def execHostBar2Access (fn addr len : Nat) (wr : Option (List Byte)) (s : State) : Res :=
  onExposed s (if (s.fn fn).enabled then hostAccess s ⟨fn, addr, len, wr⟩ else s)

/-- BAR2_READ_TIMEOUT (R374): a held read ends as Completer Abort. -/
def execBar2ReadTimeout (n : Nat) (s : State) : Res :=
  match s.hostHeld[n]? with
  | some x => .next (if x.wr.isNone then { s with hostHeld := s.hostHeld.eraseIdx n }.send .hostAbort else s)
  | none => .next s

/-- Held accesses are tried again, in their order. -/
def hostReplay (s : State) : State := s.hostHeld.foldl hostAccess { s with hostHeld := [] }

/-! ### The states of a die (R369) -/

/-- The code of a reset state. -/
def DieState.code : DieState → Nat
  | .online => 0 | .quiescing => 1 | .drained => 2 | .resetting => 3 | .retraining => 4 | .readmitting => 5

/-- A state change posts a kind 2 event to every function (R362, R369). -/
def enterState (s : State) (d : Nat) (st : DieState) : State :=
  let s := s.updDie d fun x => { x with state := st }
  postEventAll s 2 (toBytes 1 d ++ toBytes 1 st.code ++ List.replicate 9 0 ++ toBytes 4 (s.die d).epoch)

/-- The teams resident on a die. -/
def teamsOnDie (s : State) (d : Nat) : List TeamRef :=
  (s.teams.filter fun p => p.1 < 512 && dieOf (p.1 / 2) = d).map fun (p : Nat × Team) => (⟨p.1 / 2, p.1 % 2⟩ : TeamRef)

/-- A team can be started again after a reset (R373). -/
def restartable (s : State) (tm : Team) : Bool :=
  (match s.launches.get? tm.launch with | some l => l.failover | none => false) && !tm.spawned && !(!tm.evstack.isEmpty && tm.resolved)

/-- A team that will start again, with its first state (R317, R373). -/
def startAgain (t : TeamRef) (tm : Team) : Waiting :=
  { waitAgain t tm 0 with wgt := tm.startWgt, out := none, signals := tm.signals, lastRec := tm.lastRec }

/-- The requests of a group from the `n`-th on that wait for nothing complete. -/
def finishFrom (k : Core) (g : GroupRef) : Nat → Nat → State → State
  | 0, _, s => s
  | fuel + 1, n, s =>
    match s.group? g with
    | none => s
    | some gr =>
      match gr.outst[n]? with
      | none => s
      | some o =>
        if outstReady g.hand gr n && (refusingDie s o).isNone then
          let t := finishOutst s k g n o
          let left := match t.group? g with | some x => x.outst.length | none => 0
          finishFrom k g fuel (if left < gr.outst.length then n else n + 1) t
        else finishFrom k g fuel (n + 1) s

/-- What the agents of a team have issued completes (R370 step 3). -/
def finishTeam (s : State) (t : TeamRef) : State :=
  let s := (teamThreads s t).foldl landBuffer s
  (teamGroups s t).foldl (fun s g =>
    match s.group? g, s.coreOf g.owner with
    | some gr, some k => finishFrom k g gr.outst.length 0 s
    | _, _ => s) s

/-- A team of the die stops and will restart: what it has issued completes, its queues and copies are discarded, its locks released
without write-back. -/
def haltTeam (s : State) (d : Nat) (t : TeamRef) (tm : Team) : State :=
  let s := finishTeam s t
  let s := freeTeam ((teamThreads s t).foldl dropLocks s) t
  s.updDie d fun x => { x with restart := x.restart ++ [startAgain t tm] }

/-- A team of a gang leaves its hand until OPEN: its tiles and queues are kept with the scratchpad bytes of its hand, which clear there, of a
hand that another team stays on those of its ranges (R345, R355 step 5, R373). -/
def parkTeam (s : State) (d : Nat) (t : TeamRef) (tm : Team) : State :=
  let v := freeKept s (2 ^ 19)
  let alone := (s.team? ⟨t.hand, 1 - t.slot⟩).isNone && !sharedHand s tm.ctx t.hand
  let mine (o : Nat) : Bool := alone || inRanges (teamRanges s t) o
  let old := s.hand t.hand
  let s := takeOff (releaseTeam s t) t v
  let s := s.updHand v fun x =>
    { x with scratch := old.scratch.filter fun b => mine b.1, scratchPoison := old.scratchPoison.filter fun u => mine (u * 64) }
  let s := s.updHand t.hand fun x =>
    { x with scratch := x.scratch.filter fun b => !mine b.1, scratchPoison := x.scratchPoison.filter fun u => !mine (u * 64) }
  s.updDie d fun x => { x with restart := x.restart ++ [waitAgain t tm v] }

/-- A gang launch that the reset of die `d` switches out leaves its hands together, in the order of R345: its teams are pre-empted; once they
stand where they can be saved, what is dirty is written back, the save area is written, and the hands are cleared (R373). -/
def gangLeave (d n : Nat) (s : State) : State :=
  let ts := gangTeams s n
  if !ts.all (teamQuiet s) then ts.foldl preemptTeam s
  else
    match teamsDrainStop s ts with
    | some x => drainRefused s x
    | none =>
      let s := flushAll (drainTeams s ts)
      let s := match ts.head?.bind s.team? with | some tm => writeSaveOf s tm.ctx (ts.map (·.hand)).dedup ts | none => s
      let s := ts.foldl (fun s t => match s.team? t with | some tm => parkTeam s d t tm | none => s) s
      s.updDie d fun x => { x with leaving := x.leaving.erase n }

/-- What QUIESCING does to a team of the die (R370 step 1, R373). -/
def quiesceTeam (d : Nat) (s : State) (t : TeamRef) : State :=
  match s.team? t with
  | none => s
  | some tm =>
    if !restartable s tm then
      fatal s tm.ctx .dieOffline { engine := 0, hand := t.hand, slot := t.slot, team := tm.teamNo.toNat, img := tm.img } 0
        (BitVec.ofNat 64 d) (BitVec.ofNat 64 (s.die d).epoch)
    else
      let s := haltTeam s d t tm
      if tm.gang then ((gangTeams s tm.launch).foldl preemptTeam s).updDie d fun x => { x with leaving := x.leaving.insert tm.launch } else s

/-- Die `e` no longer waits for the ACK of die `d`, which leaves ONLINE and has not sent it; with every other one received it sends OPEN
(R371). -/
def dropAck (d : Nat) (s : State) (e : Nat) : State :=
  let x := s.die e
  if x.route.contains d then s else
  let s := s.updDie e fun x => { x with acks := x.acks.erase d }
  if x.state = .readmitting && x.joined && x.acks = [d] then s.send (.open_ e (x.epoch + 1)) else s

/-- A die leaves ONLINE (R369-R371): its teams stop, and no other die's readmission waits for it. A context that a rollback has put
back on the die ends. -/
def startQuiesce (s : State) (d : Nat) : State :=
  let now := s.clock
  let s := enterState s d .quiescing
  let s := s.updDie d fun x => { x with leftAt := now }
  let s := (List.range 4).foldl (dropAck d) s
  let s := (teamsOnDie s d).foldl (quiesceTeam d) s
  (teamsOnDie s d).foldl (quiesceTeam d) s

/-- DIE_FAULT (R372): a fault that the Collar finds takes an ONLINE die into QUIESCING; on any other it is refused. -/
def execDieFault (d : Nat) (s : State) : Res := .next (if d < 4 && (s.die d).state = .online then startQuiesce s d else s)

/-! ### QUIESCING to DRAINED (R370, R372) -/

/-- The caching places of a die, narrowest first. -/
def placesOf (d : Nat) : List Nat :=
  (List.range 64).map (d * 64 + ·) ++ (List.range 16).map (256 + d * 16 + ·) ++ (List.range 64).map (l2Place d)

/-- A line of the die whose home does not answer is kept until that home's OPEN (R372). -/
def holdLine (d p : Nat) (s : State) (la : Nat) : State :=
  match lineCopy s p la with
  | none => s
  | some l =>
    if l.dirty ≠ 0 && dieRefuses s (homeDie la) then
      (dropLine s p la).updDie d fun x => { x with held := x.held ++ [(la, l)] }
    else evict s p la

/-- Step 2 of R370. -/
def drainCaches (s : State) (d : Nat) : State :=
  let s := (placesOf d).foldl (fun s p => ((s.caches.getD p []).keys).foldl (holdLine d p) s) s
  s.caches.foldl (fun s p => (p.2.keys.filter fun la => homeDie la = d).foldl (fun s la => evict s p.1 la) s) s

/-- An owner is an agent of the die (R138). -/
def ownerOn (d a : Nat) : Bool := if a < 512 then dieOf (a % 256) = d else a = 512 + d

/-- Step 4 of R370. -/
def releaseGrants (s : State) (d : Nat) : State :=
  let s := releaseOwnership s (ownerOn d) fun _ => true
  { s with granules := s.granules.filter fun g => homeDie (g.1 * 65536) ≠ d }

/-- QUIESCE_DONE (R370): once the gangs that it switches out have left their hands (R373). -/
def execQuiesceDone (d : Nat) (s : State) : Res :=
  .next (if (s.die d).state = .quiescing && (s.die d).leaving.isEmpty then enterState (releaseGrants (drainCaches s d) d) d .drained else s)

/-- A dirty line that has not reached its home in time: its units are poisoned there, and a record is logged (R370). -/
def abandonLine (p : Nat) (s : State) (la : Nat) : State :=
  match lineCopy s p la with
  | none => s
  | some l =>
    if l.dirty = 0 || dieRefuses s (homeDie la) then s
    else
      let units := ((dirtyBytes la l).map fun b => b.1 / 64).dedup
      units.foldl (fun s u => postPoison (spoil s [u]) l.ctx (u * 64) 0 0 (if p < 256 then p else 0) 0 0)
        (dropLine s p la)

/-- QUIESCE_TIMEOUT (R370): the write-backs of step 2 that have not reached their homes are abandoned, those of the die's caches and those
of lines homed on it that other dies hold, and QUIESCING ends. -/
def execQuiesceTimeout (d : Nat) (s : State) : Res :=
  if (s.die d).state ≠ .quiescing then .next s
  else
    let mine := placesOf d
    let s := s.caches.foldl (fun s p =>
      (p.2.keys.filter fun la => mine.contains p.1 || homeDie la = d).foldl (abandonLine p.1) s) s
    .next (enterState (releaseGrants (drainCaches s d) d) d .drained)

/-! ### DRAINED to READMITTING (R369, R372) -/

/-- Every die that left ONLINE before this one is ONLINE again (R372). -/
def firstToLeave (s : State) (d : Nat) : Bool :=
  (List.range 4).all fun e =>
    e = d || (s.die e).state = .online || (s.die d).leftAt < (s.die e).leftAt || ((s.die d).leftAt = (s.die e).leftAt && d < e)

/-- DRAIN_SAVE_DONE (R369): what the die saves stays in the state, and it enters RESETTING in its turn (R372). -/
def execDrainSaveDone (d : Nat) (s : State) : Res :=
  .next (if (s.die d).state = .drained && firstToLeave s d && (s.die d).held.isEmpty then enterState s d .resetting else s)

/-- The teams that armed banks and mailboxes of a die's hands describe and that have not started. -/
def armedTeams (s : State) (d : Nat) : List Waiting :=
  (s.hands.filter fun p => p.1 < 256 && dieOf p.1 = d).flatMap fun p =>
    ((p.2.banks.filter fun b => b.2.armed).filterMap fun b => (s.launches.get? b.2.launch).map (bankTeam s p.1 b.2)) ++
      (p.2.mailbox.filter fun m => mailboxArmed s p.1 m.1).filterMap fun m =>
        (s.launches.get? (bits (m.2.getD 9 0) 31 0)).map (mailboxTeam p.1 m.2)

/-- The register files, scratchpads, caches and TLBs of a die clear, the shadow banks and mailboxes of its hands too; the defect map applies
(R369, R375). The bins, locks, deques and the slot table were saved. A team that an armed bank or mailbox describes waits in the front
end for its hand. DEDUCED (log entry 111). -/
def clearDie (s : State) (d : Nat) : State :=
  let lost := armedTeams s d
  let hands := s.hands.map fun (p : Nat × Hand) =>
    if p.1 < 256 && dieOf p.1 = d then (p.1, { State.emptyHand with tenant := p.2.tenant, deque := p.2.deque }) else p
  let caches := s.caches.filter fun p => !(placesOf d).contains p.1
  let slices := s.homeL2.filter fun p => !(placesOf d).contains p.1
  let s := { s with hands := hands, caches := caches, homeL2 := slices, waiting := s.waiting ++ lost }
  (disableHands s fun h => dieOf h = d).updDie d fun x => { x with tlb := [] }

/-- RESET_DONE (R369). -/
def execResetDone (d : Nat) (s : State) : Res :=
  .next (if (s.die d).state = .resetting then enterState (clearDie s d) d .retraining else s)

/-- The links have trained, with lane repair: the saved state returns, and JOIN goes to the dies that take part and to the die's I/O die (4
for N, 5 for S). -/
def trainDone (s : State) (t : Training) : State :=
  let d := t.die
  if (s.die d).state ≠ .retraining then s
  else
    let s := enterState (t.lanes.foldl (trainLink d) s) d .readmitting
    let part := ((List.range 4).filter fun e => e ≠ d && ((s.die e).state = .online || (s.die e).state = .quiescing)) ++ [4 + ioOf d]
    let epoch := (s.die d).epoch + 1
    let s := s.updDie d fun x => { x with acks := part, route := [], joined := true }
    part.foldl (fun s e => s.send (.join d e epoch)) s

/-- TRAINING_DONE (R369, R371, R375); the sparing of lanes waits while the Collar restarts (R379). -/
def execTrainingDone (die : Training) (s : State) : Res := .next (orWait s (.training die) (trainDone s die))

/-! ### The handshake (R371) -/

/-- The die is being readmitted in the epoch that a message names. -/
def joining (s : State) (d epoch : Nat) : Bool :=
  (s.die d).state = .readmitting && (s.die d).joined && epoch = (s.die d).epoch + 1

/-- JOIN (R371): the receiver discards its routes and answers. -/
def execJoinMsg (d dst epoch : Nat) (s : State) : Res :=
  .next (if joining s d epoch && (s.die d).acks.contains dst && !(s.die d).route.contains dst then
    (s.updDie d fun x => { x with route := x.route ++ [dst] }).send (.ack d dst epoch) else s)

/-- ACK (R371): with the last one the die sends OPEN. -/
def execAckMsg (d src epoch : Nat) (s : State) : Res :=
  if joining s d epoch && (s.die d).acks.contains src && (s.die d).route.contains src then
    let s := s.updDie d fun x => { x with acks := x.acks.erase src }
    .next (if (s.die d).acks.isEmpty then s.send (.open_ d epoch) else s)
  else .next s

/-- The lines that other dies held for the die are written back (R372). -/
def returnHeld (s : State) (d : Nat) : State :=
  (List.range 4).foldl (fun s e =>
    let mine := (s.die e).held.filter fun h => homeDie h.1 = d
    let s := mine.foldl (fun s h => spoil (homeStore s h.2.ctx (dirtyBytes h.1 h.2)) (dirtyMarks h.1 h.2)) s
    s.updDie e fun x => { x with held := x.held.filter fun h => homeDie h.1 ≠ d }) s

/-- OPEN (R371): with every ACK received the epoch advances and the die is ONLINE; held write-backs and host accesses perform. -/
def execOpenMsg (d epoch : Nat) (s : State) : Res :=
  if joining s d epoch && (s.die d).acks.isEmpty then
    let s := s.updDie d fun x => { x with epoch := epoch, joined := false, route := [] }
    .next (hostReplay (returnHeld (enterState s d .online) d))
  else .next s

/-! ### What waited for OPEN (R373, R374) -/

/-- Requests parked by DIE_OFFLINE: context, place in its list, request. -/
def offlineParks (s : State) : List (Nat × Nat × Parked) :=
  s.ctxs.flatMap fun c => (c.2.parked.zipIdx.filter fun p => p.1.die.isSome).map fun p => (c.1, p.2, p.1)

/-- The die that a parked request waits for answers again, or a route leads to the peer. -/
def answers (s : State) (d : Nat) : Bool :=
  if d < 4 then (s.die d).state = .online else (s.weave.routes.get? (d - 2 ^ 31)).isSome

/-- PARKED_REPLAY (R374). -/
def execParkedReplay (n : Nat) (s : State) : Res :=
  match (offlineParks s)[n]? with
  | some (c, i, k) => .next (if answers s (k.die.getD 0) then unpark s c i k else s)
  | none => .next s

/-- A kind 3 event about a team that restarts (R362, R373). -/
def restartEvent (s : State) (d : Nat) (w : Waiting) : State :=
  match s.launches.get? w.launch with
  | none => s
  | some l =>
    postEvent s (fnOf s w.ctx) 3 (toBytes 1 d ++ toBytes 2 l.queue ++ toBytes 4 l.seq ++ toBytes 4 (w.teamNo.getD 0) ++
      toBytes 4 (s.die d).epoch)

/-- Teams that wait for the OPEN of their die: the die, and the team. -/
def restarts (s : State) : List (Nat × Waiting) := s.dies.flatMap fun d => d.2.restart.map fun w => (d.1, w)

/-- The teams of a die's list that go with a team: those of its gang, else itself. -/
def goesWith (w x : Waiting) : Bool := if w.gang then x.gang && x.launch = w.launch else x = w

/-- The dies that hold teams which go with a team of die `d`: of a gang all of them (R47). -/
def restartDies (s : State) (d : Nat) (w : Waiting) : List Nat :=
  if w.gang then (s.dies.filter fun p => p.2.restart.any (goesWith w) || p.2.leaving.contains w.launch).map (·.1) else [d]

/-- TEAM_RESTART (R373): a team restarts on its hand; the teams of a gang go together, once the dies of all are ONLINE and none is still on
its way out. -/
def execTeamRestart (n : Nat) (s : State) : Res :=
  match (restarts s)[n]? with
  | none => .next s
  | some (d, w) =>
    let ds := restartDies s d w
    if ds.any fun e => (s.die e).state ≠ .online || (w.gang && (s.die e).leaving.contains w.launch) then .next s
    else
      let ws := ds.flatMap fun e => ((s.die e).restart.filter (goesWith w)).map fun x => (e, x)
      let s := ds.foldl (fun s e => s.updDie e fun x => { x with restart := x.restart.filter fun y => !goesWith w y }) s
      let s := (ws.filter fun x => x.2.out.isNone).foldl (fun s x => restartEvent s x.1 x.2) s
      .next (tryStart { s with waiting := s.waiting ++ ws.map (·.2) } s.waiting.length)

end Sys2Proof.Machine
end

