-- ==== Sys2Proof/Machine/Save.lean ====
section
/-! DEFINITION. The context switch: off the hands into the save area, and back (R345). -/

namespace Sys2Proof.Machine

/-! ### The switch (R345) -/

/-- Where a switched-out team is kept. -/
def outTeam (c h slot : Nat) : Nat := 2 ^ 21 + (c * 256 + h) * 2 + slot
/-- Where the scratchpad and deque records of a hand are kept. -/
def outHand (c h : Nat) : Nat := 2 ^ 20 + c * 256 + h

/-- What a context holds on a hand is kept, and the hand is cleared within the limits of R355 step 5. The tiles of its groups and its
queued copies are kept with its teams. -/
def leaveHand (s : State) (c : Nat) (p : Nat × HandPart) : State :=
  let s := s.updHand (outHand c p.1) fun _ =>
    { State.emptyHand with scratch := p.2.scratch, scratchPoison := p.2.marks, deque := p.2.deque }
  clearHand s c p.1 p.2.ranges p.2.units

/-- A context switch out (R345): none while its agents, copies and token operations have not come to rest, or a buffered store of it cannot
perform. A team that a time slice has put off stays where it is kept. -/
def switchOut (s : State) (c : Nat) : State × Bool :=
  if !ctxQuiet s c then (preemptThreads (preemptGroups s c true) c true none, false)
  else
    match teamsDrainStop s (teamsOf s c) with
    | some x => (drainRefused s x, false)
    | none =>
      let s := saveNow s c
      let ts := onHands s c
      let hs := heldHands s c
      let parts := hs.map fun h => (h, handPart s c h)
      let s := ts.foldl (fun s t => takeOff s t (outTeam c t.hand t.slot)) s
      let s := parts.foldl (fun s p => leaveHand s c p) s
      (s.updCtx c fun x => { x with out := some hs }, true)

/-- The hand that takes the place of hand `h` of map `m` under map `m'`: the one of the same logical node. -/
def movedHand (m m' : List Byte) (h : Nat) : Option Nat :=
  match (List.range 256).find? fun i => mapNode m (i / 64) (i % 64) = some h with
  | some i => mapNode m' (i / 64) (i % 64)
  | none => none

/-- The switched-out teams of a context: number, old hand, launch. -/
def outTeams (s : State) (c : Nat) : List (Nat × Nat × Nat) :=
  (s.teams.filter fun p => 2 ^ 22 ≤ p.1 && (p.1 / 2 - 2 ^ 21) / 512 = c).map fun (p : Nat × Team) =>
    (p.1 / 2, (p.1 / 2 - 2 ^ 21) / 2 % 256, p.2.launch)

/-- The map of a launch. -/
def mapOf (s : State) (n : Nat) : List Byte := match s.launches.get? n with | some l => l.map | none => []

/-- Teams come back one after another to their new hands; none where one finds no room. -/
def bringBack (new : List Byte) : List (Nat × Nat × Nat) → State → Option State
  | [], s => some s
  | (v, h, n) :: ts, s =>
    match movedHand (mapOf s n) new h, s.launches.get? n with
    | some h', some l =>
      if !fits s h' l then none
      else
        match freeSlot s h' with
        | some k => bringBack new ts (putBack s v ⟨h', k⟩)
        | none => none
    | _, _ => none

/-- The teams of a context that a time slice has put off from hand `h`. -/
def putOffFrom (s : State) (c h : Nat) : List TeamRef := (teamsOf s c).filter fun t => 256 ≤ t.hand && standsOn s t = h

/-- What a context held on hand `h`, as it is kept. -/
def keptPart (s : State) (c h : Nat) : HandPart :=
  let x := s.hand (outHand c h)
  let ranges := (((outTeams s c).filter fun t => t.2.1 = h).flatMap fun t => teamRanges s ⟨t.1, 0⟩) ++ (putOffFrom s c h).flatMap (teamRanges s)
  { ranges := ranges, units := [], scratch := x.scratch, marks := x.scratchPoison, tiles := [], deque := x.deque, near := [], bulk := [] }

/-- The kept scratchpad and deque of hand `h` return on hand `h'`: none where its deque has no room for the records (R198). -/
def returnHand (s : State) (c h h' : Nat) : Option State :=
  let t := layBack s c h' (keptPart s c h)
  if 256 < (t.hand h').deque.length then none else some { t with hands := t.hands.erase (outHand c h) }

/-- The same for a list of hands and the hands that take their places. -/
def returnHands (c : Nat) (names : Nat → Nat) : List Nat → State → Option State
  | [], s => some s
  | h :: hs, s => match returnHand s c h (names h) with | some s => returnHands c names hs s | none => none

/-- The hand that takes the place of a hand of the context under a new map: by the map of a launch that names it; a hand that no launch of
the context names any more, where only its records lie, stays itself. DEDUCED (log entry 112). -/
def newHand (s : State) (c : Nat) (new : List Byte) (h : Nat) : Nat :=
  ((s.launches.filter fun p => p.2.ctx = c).findSome? fun p => movedHand p.2.map new h).getD h

/-- A waiting team's hands under a new map. -/
def movedHands (s : State) (new : List Byte) (w : Waiting) : List Nat := w.hands.filterMap (movedHand (mapOf s w.launch) new)

/-- A context switch in (R345): `none` where the hands have no room yet. HANDPOS and relocated fields follow the new map (R58). -/
def switchIn (s : State) (c : Nat) (new : List Byte) (hs : List Nat) : Option State :=
  let ts := outTeams s c
  match (returnHands c (newHand s c new) hs s).bind (bringBack new ts) with
  | none => none
  | some s' =>
    let ws := s'.waiting.map fun w => if w.ctx = c then { w with hands := movedHands s new w } else w
    let ls : Map Launch := s'.launches.map fun p => if p.2.ctx = c then (p.1, { p.2 with map := new }) else p
    let s' := { s' with waiting := ws, launches := ls }
    let imgs := match s'.ctx? c with | some x => x.images.keys | none => []
    let s' := imgs.foldl (fun s i => dropLines s c i) s'
    let s' := preemptThreads (preemptGroups s' c false) c false none
    some (s'.updCtx c fun x => { x with out := none })

/-- The conditions of PLACEMENT on a map for a context (R314): the map itself, the marked fields of its images, and a hand for every team,
those too that wait. -/
def placeable (s : State) (c : Nat) (new : List Byte) : Bool :=
  mapOk s c new && ((outTeams s c).all fun t => (movedHand (mapOf s t.2.2) new t.2.1).isSome) &&
    ((s.waiting.filter fun w => w.ctx = c).all fun w => w.hands.isEmpty || !(movedHands s new w).isEmpty) &&
    (match s.ctx? c with
     | some x => x.images.all fun i => i.2.lines = 0 || (relocList s c i.2).all (relocPlaced s c i.2 new)
     | none => false)

end Sys2Proof.Machine
end

