-- ==== Sys2Proof/Machine/Host.lean ====
section
/-! DEFINITION. What the host does to the device: function registers (R359), the command ring and its commands (R337, R345, R356,
R361), interrupts (R363), functions and their resets (R357), slot tables (R329). -/

namespace Sys2Proof.Machine

/-! ### Function registers (R359) -/

/-- A write of CMDBASE sets the ring and resets CMDWI and CMDRI. -/
def setCmdBase (s : State) (fn : Nat) (v : W64) : State := s.updFn fn fun f => { f with cmdBase := v, cmdWi := 0, cmdRi := 0 }

/-- CMDBASE_WRITE (R359). -/
def execCmdbaseWrite (fn : Nat) (v : W64) (s : State) : Res := onExposed s (if (s.fn fn).enabled then setCmdBase s fn v else s)

/-- CMDWI takes a value that does not fall back and does not pass the ring (R303, R359). -/
def setCmdWi (f : Fn) (v : W64) : Fn :=
  if v.toNat < f.cmdWi.toNat || ringSize f.cmdSize < v.toNat - f.cmdRi.toNat then f else { f with cmdWi := v }

/-- FUNCTION_REGISTER_WRITE (R359): 8 aligned bytes; other widths and offsets, the device's own registers, and a VF's PF-only ones
discard the write. A device that exposes no BAR takes none (R377). -/
def execFunctionRegisterWrite (fn ofs size : Nat) (v : W64) (s : State) : Res :=
  if size ≠ 8 || !(s.fn fn).enabled || !exposed s then .next s
  else
    let low : W64 := v &&& 0xFFFFFFFF
    .next <| match ofs with
      | 0x00 => setCmdBase s fn v
      | 0x08 => s.updFn fn fun f => { f with cmdSize := low }
      | 0x10 => s.updFn fn (setCmdWi · v)
      | 0x20 => s.updFn fn fun f => { f with evBase := v }
      | 0x28 => s.updFn fn fun f => { f with evSize := low }
      | 0x38 => s.updFn fn fun f => { f with evRi := v }
      | 0x40 => if fn = 0 then s.updFn fn fun f => { f with ctxBase := v } else s
      | 0x48 => if fn = 0 then s.updFn fn fun f => { f with qtBase := v } else s
      | _ => s

/-- What a function register reads (R359): a VF's PF-only ones, and every offset without a register, read 0. -/
def functionRegister (s : State) (fn ofs : Nat) : W64 :=
  let f := s.fn fn
  match ofs with
  | 0x00 => f.cmdBase | 0x08 => f.cmdSize | 0x10 => f.cmdWi | 0x18 => f.cmdRi
  | 0x20 => f.evBase | 0x28 => f.evSize | 0x30 => f.evWi | 0x38 => f.evRi
  | 0x40 => if fn = 0 then f.ctxBase else 0
  | 0x48 => if fn = 0 then f.qtBase else 0
  | 0x50 => match s.weave.devNum with | some d => BitVec.ofNat 64 (2 ^ 15 + d % 2 ^ 12) | none => 0
  | 0x58 => BitVec.ofNat 64 (ofBytes ((List.range 4).map fun d => BitVec.ofNat 8 (s.die d).state.code))
  | 0x60 => BitVec.ofNat 64 (s.die 0).epoch
  | 0x68 => BitVec.ofNat 64 (s.die 1).epoch
  | 0x70 => BitVec.ofNat 64 (s.die 2).epoch
  | 0x78 => BitVec.ofNat 64 (s.die 3).epoch
  | _ => 0

/-- The status of a slot in its 32 bytes (R364); a VF sees only the slots that hold queues of its own (R358). -/
def slotStatus (s : State) (fn k : Nat) : List Byte :=
  let x := slotAt s k
  let own : Bool := match x.queue with | some q => (match s.queues.get? q with | some y => y.fn = fn | none => false) | none => false
  if fn ≠ 0 && !own then List.replicate 32 0
  else
    toBytes 8 x.comp ++ toBytes 4 x.last.toNat ++ toBytes 2 (x.queue.getD 0xFFFF) ++ toBytes 1 (if x.queue.isSome then 1 else 0) ++
      List.replicate 17 0

/-- A read of `n` bytes at an offset of a function's BAR0 (R302, R358, R359). -/
def bar0Read (s : State) (fn ofs n : Nat) : List Byte :=
  if !(s.fn fn).enabled || !exposed s then List.replicate n 0
  else if 0xC0000 ≤ ofs then
    if n = 8 && ofs % 8 = 0 then toBytes 8 (functionRegister s fn (ofs - 0xC0000)).toNat else List.replicate n 0
  else
    (List.range n).map fun i =>
      let o := ofs + i
      if o < 0x80000 then (toBytes 8 (readIndex s fn (o / 8)).toNat).getD (o % 8) 0
      else if o < 0x80000 + 32 * 512 then (slotStatus s fn ((o - 0x80000) / 32)).getD (o % 32) 0
      else 0

/-! ### The command ring (R361) -/

/-- Where the next command of a function stands. -/
def commandAt (s : State) (fn : Nat) : Nat :=
  (s.fn fn).cmdBase.toNat + 64 * ((s.fn fn).cmdRi.toNat % ringSize (s.fn fn).cmdSize)

/-- The command that a function's ring holds next; a device in recovery accepts none (R377). -/
def nextCommand (s : State) (fn : Nat) : Option (List Byte) :=
  let f := s.fn fn
  if !f.enabled || !exposed s || ringSize f.cmdSize = 0 || f.cmdWi.toNat ≤ f.cmdRi.toNat then none
  else some (Memory.read s.hostMem (commandAt s fn) 64)

/-- A command completes: bytes 56-63, then CMDRI, then vector 0 (R361, R363). -/
def finishCommand (s : State) (fn status : Nat) : State :=
  let s := { s with hostMem := Memory.writeNat s.hostMem (commandAt s fn + 56) 8 (2 ^ 63 + status) }
  raiseVector (s.updFn fn fun f => { f with cmdRi := f.cmdRi + 1 }) fn 0

/-- The bytes from 16 on that a command's operands take. -/
def operandBytes (op : Nat) : Nat := match op with | 5 => 9 | 10 => 9 | 6 => 20 | 9 => 16 | 11 => 16 | _ => 8

/-- What gives status format: an unknown opcode, a nonzero reserved byte, an operand beyond its range. -/
def commandBad (c : List Byte) : Bool :=
  let op := le c 8 2
  let n := operandBytes op
  let v := le c 16 8
  op = 0 || 12 < op || !zeros c 10 6 || !zeros c (16 + n) (40 - n) || ([4, 7, 8, 9].contains op && 4095 < v) ||
    ([5, 6].contains op && 65535 < v) || ([11, 12].contains op && 3 < v) || (op = 5 && 1 < le c 24 1)

/-- What a command answers. -/
inductive CmdAns where
  | done (s : State)
  | refused
  | waits (s : State)

/-- The step of a command: the ring's next command is this one, or is malformed; a VF may name only what is its own. -/
def onCommand (s : State) (fn op : Nat) (mine : List Byte → Bool) (allowed : Bool) (f : CmdAns) : Res :=
  match nextCommand s fn with
  | none => .next s
  | some c =>
    if commandBad c && (le c 8 2 = op || le c 8 2 = 0 || 12 < le c 8 2) then .next (finishCommand s fn 2)
    else if le c 8 2 ≠ op || !mine c then .next s
    else if fn ≠ 0 && !allowed then .next (finishCommand s fn 1)
    else
      match f with
      | .done t => .next (finishCommand t fn 0)
      | .refused => .next (finishCommand s fn 1)
      | .waits t => .next t

/-- The operand at bytes 16-23. -/
def operandIs (v : Nat) (c : List Byte) : Bool := le c 16 8 = v

/-! ### Records that the driver answers (R337, R356) -/

/-- The unresolved record with a sequence number: its context and itself. -/
def findRecord (s : State) (seq : Nat) : Option (Nat × Unresolved) :=
  (s.ctxs.flatMap fun c => c.2.unresolved.map fun u => (c.1, u)).find? fun r => r.2.seq = seq

/-- The record's context belongs to the function. -/
def ownsRecord (s : State) (fn seq : Nat) : Bool := match findRecord s seq with | some r => fnOf s r.1 = fn | none => false

/-- The record is answered, and its agent goes on where nothing else holds it; `step` for one instruction or position. -/
def answerRecord (s : State) (c : Nat) (u : Unresolved) (step : Bool) : State :=
  let s := s.updCtx c fun x => { x with unresolved := x.unresolved.filter fun y => y.seq ≠ u.seq }
  match u.agent with
  | .thread r => s.updThread r fun th => { th with stepping := step }
  | .group g => (if held s (.group g) then s else thawGroup s g).updGroup g fun x => { x with stepping := step }
  | .stream t => s.updTeam t fun x => { x with stream := { x.stream with stopped := false } }
  | _ => s

/-- RESUME, SKIP and STEP; a record whose stream has been started anew is refused. -/
def answer (s : State) (seq : Nat) (ok : Unresolved → Bool) (step : Bool) : CmdAns :=
  match findRecord s seq with
  | some (c, u) => if u.dropped || !ok u then .refused else .done (answerRecord s c u step)
  | none => .refused

/-- RESUME (R337, R361). -/
def execResume (fn seq : Nat) (s : State) : Res :=
  onCommand s fn 1 (operandIs seq) (ownsRecord s fn seq) (answer s seq (fun _ => true) false)

/-- SKIP (R337, R361). -/
def execSkip (fn seq : Nat) (s : State) : Res :=
  onCommand s fn 2 (operandIs seq) (ownsRecord s fn seq)
    (answer s seq (fun u => u.code = .trap || u.code = .break_ || u.code = .step) false)

/-- STEP (R356): a thread or a group. -/
def execCmdStep (fn seq : Nat) (s : State) : Res :=
  onCommand s fn 3 (operandIs seq) (ownsRecord s fn seq)
    (answer s seq (fun u => match u.agent with | .thread _ => true | .group _ => true | _ => false) true)

/-- The record that a removal answers (R306, R337): the context's latest unresolved one, 0 where it has none. -/
def answeredRecord (s : State) (c : Nat) : Nat :=
  match s.ctx? c with
  | some x => (x.unresolved.getLast?.map (·.seq)).getD 0
  | none => 0

/-- REMOVE (R354, R355, R361). -/
def execRemove (fn c : Nat) (s : State) : Res :=
  onCommand s fn 4 (operandIs c) (fnOf s c = fn) (if ctxLive s c then .done (fatalEnd s c (answeredRecord s c)) else .refused)

/-! ### Queues (R301, R361) -/

/-- The queue record keeps R301. -/
def queueRecordOk (s : State) (r : List Byte) : Bool :=
  let size := le r 8 4
  let csize := le r 24 4
  let c := le r 12 2
  le r 0 8 % 4096 = 0 && ((List.range 15).any fun i => size = 2 ^ (i + 6)) && le r 14 1 < 16 && le r 15 1 < 4 &&
    (le r 15 1 % 2 = 0 || fnOf s c = 0) && le r 16 8 % 32 = 0 && ((List.range 32).any fun i => csize = 2 ^ i) && zeros r 30 2 &&
    zeros r 48 16

/-- The queue that a record describes, as it is enabled. -/
def queueOf (s : State) (r : List Byte) (old : Option Queue) : Queue :=
  { enabled := true, fn := fnOf s (le r 12 2), ring := le64 r 0, size := le r 8 4, ctx := le r 12 2, basePri := le r 14 1, pri := le r 14 1,
    age := 0, priv := le r 15 1 % 2 = 1, cbase := le64 r 16, csize := le r 24 4, vec := le r 28 2, a := 0, d := 0, expected := 1,
    lastTaken := 0, stopped := false, ccount := 0, errs := [], since := 0, busy := false,
    pend := match old with | some q => q.pend | none => [] }

/-- Where the record of queue `q` stands. -/
def queueRecordAt (s : State) (q : Nat) : Nat := (s.fn 0).qtBase.toNat + 64 * q

/-- The record of queue `q`. -/
def queueRecord (s : State) (q : Nat) : List Byte := Memory.read s.hostMem (queueRecordAt s q) 64

/-- The record cannot be read: a page of host memory that it lies in does not answer (R361). -/
def recordLost (s : State) (q : Nat) : Bool :=
  s.hostAbsent.contains (queueRecordAt s q / 4096) || s.hostAbsent.contains ((queueRecordAt s q + 63) / 4096)

/-- QENABLE with enable (R361). -/
def execQenable (fn q : Nat) (s : State) : Res :=
  let r := queueRecord s q
  let c := le r 12 2
  onCommand s fn 5 (fun b => operandIs q b && le b 24 1 = 1) (fnOf s c = fn)
    (if (s.fn 0).qtBase = 0 || recordLost s q || !queueRecordOk s r || 4095 < c || ctxField s c 6 1 % 2 = 0 then .refused
     else
       let s := ensureCtx s c
       .done (syncQueue { s with queues := s.queues.set q (queueOf s r (s.queues.get? q)) } q))

/-- The queue belongs to the function. -/
def ownsQueue (s : State) (fn q : Nat) : Bool := match s.queues.get? q with | some x => x.fn = fn | none => false

/-- QENABLE with disable (R361): the queue takes no more packets. -/
def execQdisable (fn q : Nat) (s : State) : Res :=
  onCommand s fn 5 (fun b => operandIs q b && le b 24 1 = 0) (ownsQueue s fn q) (.done (s.updQueue q fun x => { x with enabled := false }))

/-- QRESTART (R361): a WAIT that stopped the queue is left behind. -/
def execQrestart (fn q : Nat) (dNew : W64) (expSeq : Nat) (s : State) : Res :=
  onCommand s fn 6 (fun b => operandIs q b && le64 b 24 = dNew && le b 32 4 = expSeq) (ownsQueue s fn q)
    (match s.queues.get? q with
     | none => .refused
     | some x =>
       if !x.stopped || dNew.toNat < x.d || x.a < dNew.toNat then .refused
       else
         let s := s.updQueue q fun x =>
           { x with d := dNew.toNat, expected := BitVec.ofNat 32 expSeq, stopped := false,
                    pend := x.pend.filter fun p => !(p.typ = 4 && p.data.isEmpty) }
         .done (settleAll (syncQueue s q)))

/-! ### Contexts (R345, R350, R361) -/

/-- PRION (R350, R361). -/
def execPrion (fn c : Nat) (s : State) : Res :=
  onCommand s fn 7 (operandIs c) (fnOf s c = fn) (.done ((List.range 512).foldl (fun s _ => sendNext s)
    ((setPageBit s c true).updCtx c fun x => { x with priBlocked := false })))

/-- CTXOUT (R345): it completes once the context's agents have come to rest. -/
def execCtxout (fn c : Nat) (s : State) : Res :=
  onCommand s fn 8 (operandIs c) (fnOf s c = fn)
    (match s.ctx? c with
     | none => .refused
     | some x =>
       if x.ended || x.out.isSome then .refused
       else match switchOut s c with | (t, true) => .done t | (t, false) => .waits t)

/-- CTXIN (R345): refused with PLACEMENT's conditions; it completes once the map can be read and the hands have room. -/
def execCtxin (fn c : Nat) (map : W64) (s : State) : Res :=
  onCommand s fn 9 (fun b => operandIs c b && le64 b 24 = map) (fnOf s c = fn)
    (match s.ctx? c with
     | none => .refused
     | some x =>
       match x.out, feUnits s c map 5 with
       | some hs, (t, .ok m) =>
         if !placeable t c m then .refused else match switchIn t c m hs with | some t => .done t | none => .waits s
       | some _, (_, .later) => .waits s
       | some _, (_, .offline _) => .waits s
       | _, _ => .refused)

/-! ### The physical function's commands (R328, R329, R361, R369) -/

/-- ASSIGN (R328, R361). -/
def execAssign (fn h ten : Nat) (s : State) : Res :=
  onCommand s fn 10 (fun b => operandIs h b && le b 24 1 = ten) false
    (if !s.enabled h || (residents s h).any fun t => tenantOf s t.ctx ≠ ten then .refused
     else .done (s.updHand h fun x => { x with tenant := ten }))

/-- SLOTTBL (R329, R361): the table takes effect at the start of the die's next pass. -/
def execSlottbl (fn die : Nat) (addr : W64) (s : State) : Res :=
  onCommand s fn 11 (fun b => operandIs die b && le64 b 24 = addr) false
    (.done (s.updDie die fun d => { d with newSlots := some ((Memory.read s.hostMem addr.toNat 64).map (·.toNat)) }))

/-- DIERESET (R361, R369). -/
def execDiereset (fn die : Nat) (s : State) : Res :=
  onCommand s fn 12 (operandIs die) false
    (if (List.range 4).all fun d => (s.die d).state = .online then .done (startQuiesce s die) else .refused)

/-- SLOT_TABLE_ADVANCE (R329): the next slot; a new table comes in with entry 0. -/
def execSlotTableAdvance (die : Nat) (s : State) : Res :=
  .next (s.updDie die fun d =>
    if d.slot = 63 then { d with slot := 0, slots := d.newSlots.getD d.slots, newSlots := none } else { d with slot := d.slot + 1 })

/-! ### Interrupts (R363) -/

/-- MSIX_MASK. -/
def execMsixMask (fn vec : Nat) (s : State) : Res :=
  onExposed s (if vec < vectorCount fn then s.updFn fn fun f => { f with unmasked := f.unmasked.filter fun v => v ≠ vec } else s)

/-- MSIX_UNMASK: a pending bit sends one message. -/
def execMsixUnmask (fn vec : Nat) (s : State) : Res :=
  let due := !(s.fn fn).unmasked.contains vec && (s.fn fn).pendingV.contains vec
  if vec < vectorCount fn && exposed s then
    let s := s.updFn fn fun f => { f with unmasked := f.unmasked.insert vec, pendingV := f.pendingV.erase vec }
    .next (if due then raiseVector s fn vec else s)
  else .next s

/-- MSIX_WINDOW_EXPIRY (R363): the window of one vector ends; a flagged vector sends its message, and its next window begins. -/
def execMsixWindowExpiry (fn : MsixVec) (s : State) : Res :=
  let f := s.fn fn.fn
  let t := s.updFn fn.fn fun f => { f with window := f.window.erase fn.vec, flagged := f.flagged.filter fun v => v ≠ fn.vec }
  .next (if f.window.contains fn.vec then (if f.flagged.contains fn.vec then raiseVector t fn.fn fn.vec else t) else s)

/-! ### Functions (R357) -/

/-- The contexts of a function. -/
def contextsOf (s : State) (fn : Nat) : List Nat := (s.ctxs.filter fun p => !p.2.ended && fnOf s p.1 = fn).map (·.1)

/-- What an FLR does to one function: its contexts are removed, its queues disabled, its rings cleared. -/
def resetFn (s : State) (fn : Nat) : State :=
  let s := (contextsOf s fn).foldl (fun s c => removeCtx s c 2 0) s
  let qs : Map Queue := s.queues.map fun p => if p.2.fn = fn then (p.1, { p.2 with enabled := false }) else p
  ({ s with queues := qs }).updFn fn fun f =>
    { f with cmdBase := 0, cmdSize := 0, cmdWi := 0, cmdRi := 0, evBase := 0, evSize := 0, evWi := 0, evRi := 0 }

/-- FLR (R357): of a VF its own, of the PF every function and every context. -/
def execFlr (fn : Nat) (s : State) : Res :=
  onExposed s (if fn = 0 then (List.range 65).foldl resetFn s else resetFn s fn)

/-- VF_ENABLE (R357): the first `vfs` virtual functions are enabled; one that is disabled leaves nothing behind. -/
def execVfEnable (vfs : Nat) (s : State) : Res :=
  if 64 < vfs || !exposed s then .next s
  else
    .next ((List.range 64).foldl (fun s i =>
      if i < vfs then s.updFn (i + 1) fun f => { f with enabled := true }
      else if (s.fn (i + 1)).enabled then (resetFn s (i + 1)).updFn (i + 1) fun f => { f with enabled := false }
      else s) s)

end Sys2Proof.Machine
end

