-- ==== Sys2Proof/Machine/Weave.lean ====
section
/-! DEFINITION. The Weave side of the device: its domain, the export table, the flits that arrive and the routes (R9, R365-R368, R372). -/

namespace Sys2Proof

/-- The bytes that a request touches. -/
def DomainOp.size : DomainOp → Nat
  | .load n => n
  | .store d => d.length
  | .marked d _ => d.length
  | .atomic _ w _ _ => w / 8

/-- The access that a request is. -/
def DomainOp.acc : DomainOp → Machine.Acc
  | .load _ => .load
  | .store _ => .store
  | .marked _ _ => .store
  | .atomic .. => .atomic

end Sys2Proof

namespace Sys2Proof.Machine

/-- Update the Weave side. -/
def State.updWeave (s : State) (f : Weave → Weave) : State := { s with weave := f s.weave }

/-! ### Routes (R365, R367) -/

/-- A request to the device is on its way or unanswered: its path is not empty. -/
def pathBusy (s : State) (dev : Nat) : Bool := s.weave.reqs.any fun r => r.dev = dev && r.reply.isNone

/-- The route of a device changes, once its path holds nothing (R166, R367). -/
def setRoute (s : State) (dev port : Nat) : State :=
  s.updWeave fun w =>
    if pathBusy s dev then { w with changes := w.changes.set dev port } else { w with routes := w.routes.set dev port, changes := w.changes.erase dev }

/-- The route changes whose paths have become empty take effect. -/
def settleRoutes (s : State) : State :=
  (s.weave.changes.filter fun c => !pathBusy s c.1).foldl (fun s c => setRoute s c.1 c.2) s

/-- An entry of a routing table: a device of the domain, by a port that is in service. -/
def routeOk (s : State) (r : Nat × Nat) : Bool := r.1 < 2304 && s.weave.ports.contains r.2

/-- DOMAIN_FORMATION (R365, R367, R368): the device takes its number, 0 to 2303, and the routing table; the domain timeout lies from 2^20 to
2^30 fclk. -/
def execDomainFormation (dev : DomainSetup) (s : State) : Res :=
  .next (if dev.dev < 2304 then
    s.updWeave fun w =>
      { w with devNum := some dev.dev, routes := (dev.routes.filter (routeOk s)).foldl (fun m r => m.set r.1 r.2) [], changes := [],
               unreachable := [],
               timeout := if 2 ^ 20 ≤ dev.timeout && dev.timeout ≤ 2 ^ 30 then dev.timeout else w.timeout }
  else s)

/-- A kind 5 event to every function (R362). -/
def peerEvent (s : State) (dev : Nat) (up : Bool) : State :=
  postEventAll s 5 ([0] ++ toBytes 2 dev ++ [if up then 1 else 0])

/-- WEAVE_PORT_FAILURE (R367): the port leaves the routes with its replay buffer; devices that the new table reaches over another port take
that route, and events report those that become unreachable. -/
def execWeavePortFailure (port : PortLoss) (s : State) : Res :=
  let p := port.port
  if !s.weave.ports.contains p then .next s
  else
    let old := (s.weave.routes.filter fun r => r.2 = p).map (·.1)
    let s := s.updWeave fun w =>
      { w with ports := w.ports.erase p, routes := w.routes.filter fun r => r.2 ≠ p, changes := w.changes.filter fun r => r.2 ≠ p,
               buffer := w.buffer.filter fun f => f.port ≠ p }
    let again := port.reroute.filter fun r => old.contains r.1 && routeOk s r
    let lost := old.filter fun d => !(again.any fun r => r.1 = d)
    let s := s.updWeave fun w =>
      { w with routes := again.foldl (fun m r => m.set r.1 r.2) w.routes,
               unreachable := w.unreachable ++ lost.filter fun d => !w.unreachable.contains d }
    .next (lost.foldl (fun s d => peerEvent s d false) s)

/-- PEER_REACHABLE (R367): a route to the device is restored; to one that is reachable it is a route change. -/
def execPeerReachable (dev : PeerRoute) (s : State) : Res :=
  .next (if !routeOk s (dev.dev, dev.port) then s
    else if s.weave.unreachable.contains dev.dev then
      peerEvent (s.updWeave fun w => { w with unreachable := w.unreachable.erase dev.dev, routes := w.routes.set dev.dev dev.port }) dev.dev true
    else setRoute s dev.dev dev.port)

/-! ### Requests of the domain (R366) -/

/-- EXPORT_TABLE_WRITE (R366): one of 256 entries, with base and length multiples of 64 KiB in the 52-bit space. -/
def execExportTableWrite (n : Nat) (e : ExportEntry) (s : State) : Res :=
  onExposed s (if n < 256 && e.base % 65536 = 0 && e.len % 65536 = 0 && e.base + e.len ≤ 2 ^ 52 then
    s.updWeave fun w => { w with exports := w.exports.set n e } else s)

/-- The lowest entry that covers the request's addresses (R366). -/
def exportFor (s : State) (q : DomainReq) : Option ExportEntry :=
  (s.weave.exports.find? fun e => e.2.base ≤ q.addr && q.addr + q.op.size ≤ e.2.base + e.2.len).map (·.2)

/-- The entry lets the source and the access in: 0, or the code of the refusal. -/
def exportCheck (e : ExportEntry) (q : DomainReq) : Nat :=
  if !(e.source.getD q.src == q.src) then FaultCode.pageAbsent.code
  else
    let ok := match q.op.acc with | .load => e.r | .store => e.w | .atomic => e.a
    if ok then 0 else FaultCode.pagePerm.code

/-- The context of a PASID. -/
def ctxOfPasid (s : State) (pasid : Nat) : Option Nat := (s.ctxs.find? fun c => !c.2.ended && pasidOf s c.1 = pasid).map (·.1)

/-- The value of an atomic of a request: a function of R229's table, or from 16 on the sum in the float type of the rest, as a copy's
reduction sends it (R275; log entry 2). -/
def requestFn (fn w v b c : Nat) : Nat := if 16 ≤ fn then (fAdd (fmtOf (fn - 16)) 0 false v b).1 else atomicFn fn w v b c

/-- The units of a marked store that it writes from poisoned bytes (R144). -/
def markedDest (pa : Nat) (bad : List Bool) : List Nat := ((bad.zipIdx.filter (·.1)).map fun b => (pa + b.2) / 64).dedup

/-- A request performs at its home (R167): the reply's code and data. -/
def domainPerform (s : State) (c pa : Nat) (op : DomainOp) : State × Nat × List Byte :=
  let s := (List.range (op.size / 128 + 2)).foldl (fun s i => recallLine s (alignDown (pa + 128 * i) 128)) s
  let poisoned := !(poisonedUnits s (.dev pa) (max 1 op.size)).isEmpty
  match op with
  | .load n => (s, if poisoned then FaultCode.poison.code else 0, Memory.read s.mem pa n)
  | .store d => (homeStore s c (d.zipIdx.map fun b => (pa + b.2, b.1)), 0, [])
  | .marked d bad => (spoil (homeStore s c (d.zipIdx.map fun b => (pa + b.2, b.1))) (markedDest pa bad), 0, [])
  | .atomic fn w b cmp =>
    if poisoned then (s, FaultCode.poison.code, [])
    else if tagAt s pa ≠ 0 then (s, FaultCode.cellBusy.code, [])
    else
      let old := Memory.read s.mem pa (w / 8)
      let new := toBytes (w / 8) (requestFn fn w (ofBytes old) (b.toNat % 2 ^ w) (cmp.toNat % 2 ^ w))
      (homeStore s c (new.zipIdx.map fun b => (pa + b.2, b.1)), 0, old)

/-- What a request that arrives answers now, or that it waits: for a route between the port's I/O die and its home, or for a line that a
copy owns (R161, R372). -/
inductive Served where
  | reply (code : Nat) (data : List Byte)
  | waits

/-- A request that arrives over a port of I/O die `io` (R366): translated by the export table in the entry's PASID, without a page request. -/
def domainAnswer (s : State) (io : Nat) (q : DomainReq) : State × Served :=
  match exportFor s q with
  | none => (s, .reply FaultCode.pageAbsent.code [])
  | some e =>
    if exportCheck e q ≠ 0 then (s, .reply (exportCheck e q) [])
    else
      match ctxOfPasid s e.pasid with
      | none => (s, .reply FaultCode.pageAbsent.code [])
      | some c =>
        match checkVirtual s c (ioHand io) false q.op.acc (e.local_ + (q.addr - e.base)) false with
        | (s, .ok (.dev pa)) =>
          if copyHolds s (.dev pa) q.op.size then (s, .waits)
          else match domainPerform s c pa q.op with | (s, code, data) => (s, .reply code data)
        | (s, .waits) => (s, .waits)
        | (s, .fault .pagePerm) => (s, .reply FaultCode.pagePerm.code [])
        | (s, .offline _) => (s, .reply FaultCode.dieOffline.code [])
        | (s, _) => (s, .reply FaultCode.pageAbsent.code [])

/-- A request of the same source and hash lane waits already (R166). -/
def heldBefore (s : State) (q : DomainReq) : Bool :=
  s.weave.held.any fun h => h.2.2.src = q.src && h.2.2.addr / 2 ^ 11 % 16 = q.addr / 2 ^ 11 % 16

/-- Serve a request over I/O die `io`: the reply goes back under the request's number, or the request is held. -/
def domainServe (s : State) (io id : Nat) (q : DomainReq) : State :=
  let hold (s : State) : State := s.updWeave fun w => { w with held := w.held ++ [(io, id, q)] }
  if heldBefore s q then hold s
  else
    match domainAnswer s io q with
    | (s, .reply code data) => sendFlit s (s.weave.devNum.getD 0) q.src q.addr (.reply id code data)
    | (s, .waits) => hold s

/-- Held requests are tried again, in their order. -/
def serveHeld (s : State) : State :=
  s.weave.held.foldl (fun s h => domainServe s h.1 h.2.1 h.2.2) (s.updWeave fun w => { w with held := [] })

/-- The I/O die over which a device's flits come (R9). -/
def ioFrom (s : State) (dev : Nat) : Nat := match s.weave.routes.get? dev with | some p => portIo p | none => 0

/-- DOMAIN_REQUEST (R366): a request that arrives by the route of its source, under number 0. -/
def execDomainRequest (q : DomainReq) (s : State) : Res := .next (domainServe s (ioFrom s q.src) 0 q)

/-! ### Flits (R367, R368) -/

/-- The reply to a request of the device has come (R366). -/
def takeReply (s : State) (dev id code : Nat) (data : List Byte) : State :=
  settleRoutes (s.updWeave fun w =>
    { w with reqs := w.reqs.map fun r => if r.id = id && r.dev = dev && r.reply.isNone then { r with reply := some (code, data) } else r })

/-- The flits of a port's replay buffer go out again from a link number on, in their order (R367). -/
def resend (s : State) (port seq : Nat) : State :=
  ((s.weave.buffer.filter fun f => f.port = port).dropWhile fun f => f.seq ≠ seq).foldl (fun s f => s.send (.flit f)) s

/-- WEAVE_FLIT_RECEIVE (R367): a flit that fails its CRC is replayed from the number that is due; one out of its turn is dropped; the next
one is served here or sent on along its route, in its hash lane. -/
def execWeaveFlitReceive (f : Flit) (s : State) : Res :=
  let due := s.weave.expectSeq.getD f.port 0
  if !s.weave.ports.contains f.port then .next s
  else if !f.crcOk then .next (s.send (.replay f.port due))
  else
    match f.body with
    | .replay => .next (resend s f.port f.seq)
    | .request id q =>
      if f.seq % 4096 ≠ due then .next s
      else
        let s := s.updWeave fun w => { w with expectSeq := w.expectSeq.set f.port ((due + 1) % 4096) }
        .next (if s.weave.devNum = some f.dst then domainServe s (portIo f.port) id { q with src := f.src }
          else sendFlit s f.src f.dst (f.lane * 2 ^ 11) f.body)
    | .reply id code data =>
      if f.seq % 4096 ≠ due then .next s
      else
        let s := s.updWeave fun w => { w with expectSeq := w.expectSeq.set f.port ((due + 1) % 4096) }
        .next (if s.weave.devNum = some f.dst then takeReply s f.src id code data
          else sendFlit s f.src f.dst (f.lane * 2 ^ 11) f.body)

/-- The requests of the device's agents that no reply has answered. -/
def unanswered (s : State) : List PeerReq := s.weave.reqs.filter fun r => r.reply.isNone

/-- DOMAIN_TIMEOUT (R368): the `n`-th unanswered request is refused as DIE_OFFLINE; its agent takes the refusal where its access stands, with
the access's address (R374). -/
def execDomainTimeout (n : Nat) (s : State) : Res :=
  .next (match (unanswered s)[n]? with
    | some r => takeReply s r.dev r.id FaultCode.dieOffline.code []
    | none => s)

end Sys2Proof.Machine
end

