-- ==== Sys2Proof/Machine/Platform.lean ====
section
/-! DEFINITION. The Collar: boot, measurements, log, updates (R377-R381), sparing, margins, power and thermal limits (R375, R376,
R382-R385). -/

namespace Sys2Proof.Machine

/-! ### Components, updates and measurements (R377, R378, R381) -/

/-- A component, 0 the Collar firmware, 1 the front-end firmware, 2 the emulation library; one never written is empty (log entry 5). -/
def compOf (s : State) (n : Nat) : Component := s.collar.comps.getD n ⟨0, ⟨[], 0⟩, ⟨[], 0⟩, 0, ⟨[], 0⟩⟩

/-- The image in a slot. -/
def Component.slot (c : Component) (k : Nat) : FwImage := if k = 0 then c.slot0 else c.slot1

/-- The image in the active slot. -/
def Component.image (c : Component) : FwImage := c.slot c.active

/-- The verification of an image (R377). -/
def verifies (i : FwImage) (minimum : BitVec 32) : Bool := Config.signatureValid i.data && minimum ≤ i.version

/-- The slot that a boot takes: the active one, else the other; none where both fail. -/
def Component.boots (c : Component) : Option Nat :=
  if verifies c.image c.minimum then some c.active
  else if verifies (c.slot (1 - c.active)) c.minimum then some (1 - c.active)
  else none

/-- A kind 2 record of an update step (R381). -/
def updateRecord (s : State) (i : FwImage) : State :=
  logWrite s { kind := 2, val := i.version.toNat, ext := (Config.shake256 64 i.data).take 32 }

/-- The image in the inactive slot becomes `img`. -/
def Component.setInactive (c : Component) (img : FwImage) : Component :=
  if c.active = 0 then { c with slot1 := img } else { c with slot0 := img }

/-- Step 1 of R381: an image goes to the inactive slot. -/
def fillSlot (s : State) (comp : Nat) (img : FwImage) : State :=
  updateRecord (s.updCollar fun x => { x with comps := x.comps.set comp ((compOf s comp).setInactive img) }) img

/-- Step 2 of R381: the Collar verifies the image in the inactive slot, and discards one that fails. -/
def verifySlot (s : State) (comp : Nat) : State :=
  let c := compOf s comp
  let img := c.slot (1 - c.active)
  updateRecord (if verifies img c.minimum then s else s.updCollar fun x => { x with comps := x.comps.set comp (c.setInactive ⟨[], 0⟩) }) img

/-- An image is written to the inactive slot, and verified there; each step writes its record (R381). -/
def writeImage (s : State) (comp : Nat) (img : FwImage) : State := verifySlot (fillSlot s comp img) comp

/-- The active-slot flag is swapped, for the next cold boot (R381). -/
def activate (s : State) (comp : Nat) : State :=
  let c := compOf s comp
  let c := { c with active := 1 - c.active }
  updateRecord (s.updCollar fun x => { x with comps := x.comps.set comp c }) c.image

/-- The minimum rises to the active version, and never falls (R381). It writes a record as the three steps of an update do. DEDUCED (log entry
113). -/
def raiseMinimum (s : State) (comp : Nat) : State :=
  let c := compOf s comp
  let c := { c with minimum := if c.minimum ≤ c.image.version then c.image.version else c.minimum }
  updateRecord (s.updCollar fun x => { x with comps := x.comps.set comp c }) c.image

/-- FIRMWARE_IMAGE_WRITE (R381). -/
def execFirmwareImageWrite (comp : Nat) (img : FwImage) (s : State) : Res := .next (orWait s (.write comp img) (writeImage s comp img))
/-- ACTIVATION (R381). -/
def execActivation (comp : Nat) (s : State) : Res := .next (orWait s (.activate comp) (activate s comp))
/-- RAISE_FUSED_MINIMUM (R381), a command of the PF. -/
def execRaiseFusedMinimum (comp : Nat) (s : State) : Res := onExposed s (orWait s (.raiseMinimum comp) (raiseMinimum s comp))

/-- MRi as it stands; an unlisted register is zero. -/
def mrOf (s : State) (i : Nat) : List Byte := s.collar.mr.getD i (List.replicate 64 0)

/-- MRi := SHAKE256(MRi ∥ d), with d the digest of the item (R378). -/
def extendMr (s : State) (i : Nat) (item : List Byte) : State :=
  let v := Config.shake256 64 (mrOf s i ++ Config.shake256 64 item)
  s.updCollar fun c => { c with mr := c.mr.set i v }

/-- MR0 to MR7 and the digests of the current images, those that the last boot took, signed when asked (R378). -/
def measurements (s : State) (sign : Bool) : State :=
  let data := (List.range 8).flatMap (mrOf s) ++ (List.range 3).flatMap fun n => Config.shake256 64 (compOf s n).running.data
  s.send (.measurements data (if sign then Config.sign data else []))

/-- The records with a number from `seq` on, `count` of them (R380). -/
def readLog (s : State) (seq count : Nat) : State :=
  s.send (.log ((s.collar.log.filter fun r => seq ≤ ofBytes (r.take 8)).take count))

/-- GET_MEASUREMENTS (R378). -/
def execGetMeasurements (sign : Bool) (s : State) : Res := .next (orWait s (.measurements sign) (measurements s sign))
/-- LOG_READ (R380). -/
def execLogRead (seq count : Nat) (s : State) : Res := .next (orWait s (.log seq count) (readLog s seq count))

/-! ### Power, reset and boot (R377, R380, R384, R385) -/

/-- What a loss of power or a reset leaves: the log, the fuses, the maps and slots of the Collar, and the measurements until a cold boot; host
memory is not the device's. -/
def afterLoss (s : State) : State :=
  { State.reset with
    cur := s.cur, agenda := s.agenda, clock := s.clock, fresh := s.fresh, hostMem := s.hostMem, fuse := s.fuse, defects := s.defects,
    outbox := s.outbox,
    hostAbsent := s.hostAbsent,
    collar := { State.emptyCollar with mr := s.collar.mr, booted := false, unreported := s.collar.unreported, log := s.collar.log, nextLog := s.collar.nextLog, comps := s.collar.comps,
                                       defectMap := s.collar.defectMap, spared := s.collar.spared, romItem := s.collar.romItem } }

/-- PERST_ASSERT (R385): the device is held in reset. -/
def execPerstAssert (s : State) : Res := .next (s.updCollar fun c => { c with perst := true })

/-- POWER_LOSS (R380). -/
def execPowerLoss (s : State) : Res := .next ((afterLoss s).updCollar fun c => { c with railsOn := false })

/-- A component's item: its image, slot and version (R378). -/
def compItem (s : State) (n k : Nat) : List Byte :=
  let i := (compOf s n).slot k
  i.data ++ toBytes 1 k ++ toBytes 4 i.version.toNat

/-- A component is verified and measured; where both its slots fail, the device enters recovery. -/
def bootComponent (s : State) (n : Nat) : State :=
  match (compOf s n).boots with
  | some k =>
    let c := { compOf s n with active := k, running := (compOf s n).slot k }
    extendMr (s.updCollar fun x => { x with comps := x.comps.set n c }) (n + 1) (compItem s n k)
  | none => s.updCollar fun x => { x with recovery := true }

/-- The shutdowns that no boot has reported yet are reported, with their records (R384). -/
def reportShutdowns (s : State) : State :=
  let due := s.collar.unreported
  if due.isEmpty then s
  else (s.updCollar fun c => { c with unreported := [] }).send (.log (s.collar.log.filter fun r => due.contains (ofBytes (r.take 8))))

/-- COLD_BOOT (R377): PERST# is released or power applied. The components are verified and measured, the maps applied; then the boot is
logged, and configuration requests are answered. -/
def execColdBoot (s : State) : Res :=
  if !s.collar.perst && s.collar.railsOn then .next s
  else
    let s := (afterLoss s).updCollar fun c => { c with mr := [] }
    let s := extendMr s 0 s.collar.romItem
    let s := (List.range 3).foldl bootComponent s
    let s := disableHands s fun _ => true
    let s := extendMr s 4 ((s.fuse ++ s.defects).flatMap (toBytes 1))
    let s := logWrite s { kind := 1, ext := (Config.shake256 64 (compOf s 0).running.data).take 32 }
    .next ((reportShutdowns s).updCollar fun c => { c with booted := true })

/-! ### Sparing (R375) -/

/-- The pseudo-channel's contents start to be copied to its stack's one spare. -/
def spare (s : State) (stack pc : Nat) : State :=
  if (s.collar.spared ++ s.collar.copying).any fun p => p.1 = stack then s
  else
    logWrite (s.updCollar fun c => { c with copying := c.copying ++ [(stack, pc)] })
      { kind := 3, die := stack / 4 % 4, ext := toBytes 1 stack ++ toBytes 1 pc }

/-- HBM_SPARE (R375). -/
def execHbmSpare (stack pc : Nat) (s : State) : Res := .next (orWait s (.spare stack pc) (spare s stack pc))

/-- The copy to the spare is complete: the pseudo-channel's addresses are remapped; values and capacity are unchanged. -/
def spareDone (s : State) (stack pc : Nat) : State :=
  if s.collar.copying.contains (stack, pc) then
    s.updCollar fun c => { c with copying := c.copying.erase (stack, pc), spared := c.spared ++ [(stack, pc)] } else s

/-- HBM_SPARE_COPY_DONE (R375). -/
def execHbmSpareCopyDone (stack pc : Nat) (s : State) : Res := .next (orWait s (.copyDone stack pc) (spareDone s stack pc))

/-- A core leaves service, and the others are renumbered from 0; its record names no hand and no pseudo-channel (R375, R380). -/
def coreFailed (s : State) (core : Nat) : State :=
  if core < s.cores then logWrite { s with cores := s.cores - 1 } { kind := 3 } else s

/-- FRONT_END_CORE_FAILURE (R375). -/
def execFrontEndCoreFailure (core : Nat) (s : State) : Res := .next (orWait s (.coreFailed core) (coreFailed s core))

/-! ### Margins, power and temperature (R376, R382-R384) -/

/-- A die's clk: the lowest of its margin plan, its power plan and what its temperature allows (R382, R384). -/
def Die.clk (d : Die) : Nat := min d.clkPlan (min d.clkPow d.clkHot)
/-- Its fclk. -/
def Die.fclk (d : Die) : Nat := min d.fclkPlan (min d.fclkPow d.fclkHot)

/-- The next step of a margin re-plan: the rail first, then clk, then fclk; none where the limits are reached. -/
def Die.replan (d : Die) : Option Die :=
  if d.railMv + 5 ≤ 25 then some { d with railMv := d.railMv + 5 }
  else if 2400 ≤ d.clkPlan - 50 then some { d with clkPlan := d.clkPlan - 50 }
  else if 1600 ≤ d.fclkPlan - 50 then some { d with fclkPlan := d.fclkPlan - 50 }
  else none

/-- A margin sample below its threshold: one step of re-planning, logged and reported to the PF; a die that no step can restore is
warm-reset, with its failing hand in the defect map (R376). -/
def marginStep (s : State) (die cluster monitor ps hand : Nat) : State :=
  let d := s.die die
  match d.replan with
  | some d' =>
    let seq := s.collar.nextLog
    let s := logWrite (s.updDie die fun _ => d')
      { kind := 4, die := die, a := cluster, b := monitor, val := ps, clk := (d.clkPlan, d'.clkPlan), fclk := (d.fclkPlan, d'.fclkPlan),
        rail := (d.railMv, d'.railMv) }
    postEvent s 0 6 (toBytes 1 die ++ List.replicate 14 0 ++ toBytes 8 seq)
  | none =>
    let s := s.updCollar fun c => { c with defectMap := c.defectMap.insert hand }
    if d.state = .online then startQuiesce s die else s

/-- MARGIN_SAMPLE (R376). -/
def execMarginSample (die cluster monitor ps : Nat) (below : Bool) (hand : Nat) (s : State) : Res :=
  .next (if below then orWait s (.margin die cluster monitor ps hand) (marginStep s die cluster monitor ps hand) else s)

/-- The power plan lowers a die's clk by a step, down to 2.4 GHz (R382). -/
def Die.slowClk (d : Die) : Die := if 2400 ≤ d.clk - 50 then { d with clkPow := d.clk - 50 } else d
/-- It lowers fclk by a step, down to 1.6 GHz. -/
def Die.slowFclk (d : Die) : Die := if 1600 ≤ d.fclk - 50 then { d with fclkPow := d.fclk - 50 } else d
/-- It raises clk by a step, up to the planned value. -/
def Die.fastClk (d : Die) : Die := if d.clkPow + 50 ≤ d.clkPlan then { d with clkPow := d.clkPow + 50 } else d
/-- It raises fclk by a step. -/
def Die.fastFclk (d : Die) : Die := if d.fclkPow + 50 ≤ d.fclkPlan then { d with fclkPow := d.fclkPow + 50 } else d

/-- The step of the power plan for all dies: the first of two kinds of change that some die can still make (R382). -/
def powerStep (s : State) (f g : Die → Die) : Die → Die :=
  if (List.range 4).any fun n => decide (f (s.die n) ≠ s.die n) then f else g

/-- The record of a change of a die's clocks; `a` is the sensor of a thermal one. -/
def clockRec (kind val a n : Nat) (d d' : Die) (rail : Nat) : LogRec :=
  { kind := kind, die := n, a := a, val := val, clk := (d.clk, d'.clk), fclk := (d.fclk, d'.fclk), rail := (rail, rail) }

/-- The clocks of a die have changed. -/
def clocksMove (d d' : Die) : Bool := d.clk ≠ d'.clk || d.fclk ≠ d'.fclk

/-- The power plan of all dies changes: one record for the package where all four clocks change alike, else one for each die whose clocks
change (R380, R382). -/
def pacePower (f : Die → Die) (s : State) : State :=
  let old := (List.range 4).map s.die
  let pairs := old.map fun d => (d, f d)
  let alike := pairs.all fun p => clocksMove p.1 p.2 && decide ((p.1.clk, p.1.fclk, p.2.clk, p.2.fclk) =
    ((s.die 0).clk, (s.die 0).fclk, (f (s.die 0)).clk, (f (s.die 0)).fclk))
  let s' := (List.range 4).foldl (fun s n => s.updDie n f) s
  if alike then logWrite s' (clockRec 5 s.collar.cap 0xFF 0xFF (s.die 0) (f (s.die 0)) 0)
  else
    pairs.zipIdx.foldl (fun s p => if clocksMove p.1.1 p.1.2 then logWrite s (clockRec 5 s.collar.cap 0xFF p.2 p.1.1 p.1.2 0) else s) s'

/-- POWER_WINDOW (R382): above the cap clk of all dies goes down a step, then fclk; below 95 % of it they go up in the reverse order; a
restarting Collar holds them (R379). -/
def execPowerWindow (watts : Nat) (s : State) : Res :=
  .next (if s.collar.restarting then s
    else if s.collar.cap < watts then pacePower (powerStep s Die.slowClk Die.slowFclk) s
    else if watts * 100 < s.collar.cap * 95 then pacePower (powerStep s Die.fastFclk Die.fastClk) s
    else s)

/-- The cap of the package, from 8,000 W to 15,000 W. -/
def setCap (s : State) (watts : Nat) : State :=
  if 8000 ≤ watts && watts ≤ 15000 then s.updCollar fun c => { c with cap := watts } else s

/-- POWER_CAP_SET (R382), by the PF; while the Collar restarts the limits hold their last settings (R379). -/
def execPowerCapSet (watts : Nat) (s : State) : Res := onExposed s (orWait s (.cap watts) (setCap s watts))

/-- DROOP_DETECT (R383): clk edges are stretched, which lengthens only times in ns. -/
def execDroopDetect (die _cluster : Nat) (s : State) : Res := .next (s.updDie die fun d => { d with stretched := d.stretched + 1 })

/-- What temperature allows a die goes down a step: clk to no less than 2.4 GHz, then fclk to no less than 1.6 GHz (R384). -/
def Die.cooler (d : Die) : Die :=
  if 2400 ≤ d.clk - 50 then { d with clkHot := d.clk - 50 }
  else if 1600 ≤ d.fclk - 50 then { d with fclkHot := d.fclk - 50 }
  else d

/-- It comes back a step, in the reverse order, up to the nominal values (R14, R384). -/
def Die.warmer (d : Die) : Die :=
  if d.fclkHot + 50 ≤ 2400 then { d with fclkHot := d.fclkHot + 50 }
  else if d.clkHot + 50 ≤ 3600 then { d with clkHot := d.clkHot + 50 }
  else d

/-- The thermal limit of a die changes, with a record where its clocks do. -/
def paceHeat (temp sensor : Nat) (f : Die → Die) (s : State) (n : Nat) : State :=
  let d := s.die n
  let s' := s.updDie n f
  if clocksMove d (f d) then logWrite s' (clockRec 6 temp sensor n d (f d) d.railMv) else s'

/-- At 115 °C the core rails go off; the next boot reports the record (R384). -/
def shutDown (s : State) (die sensor temp : Nat) : State :=
  let n := s.collar.nextLog
  (logWrite s { kind := 6, die := die, a := sensor, val := temp }).updCollar fun c =>
    { c with railsOn := false, unreported := c.unreported ++ [n] }

/-- THERMAL_SAMPLE (R384), in tenths of a degree: at 115 °C the core rails go off; at 100 °C the die's clocks go down a step; below 95 °C,
with no other sensor of the die still hot, they come back a step. -/
def execThermalSample (die sensor temp : Nat) (s : State) : Res :=
  let cool := (s.die die).hot.filter fun x => x ≠ sensor
  .next (if s.collar.restarting then s
    else if 1150 ≤ temp then shutDown s die sensor temp
    else if 1000 ≤ temp then paceHeat temp sensor (fun d => { d.cooler with hot := d.hot.insert sensor }) s die
    else if 950 ≤ temp then s
    else paceHeat temp sensor (fun d => if cool.isEmpty then { d.warmer with hot := [] } else { d with hot := cool }) s die)

/-! ### The Collar's restart (R379) -/

/-- COLLAR_RESTART (R379): every agent runs on. -/
def execCollarRestart (s : State) : Res := .next ((logWrite s { kind := 7 }).updCollar fun c => { c with restarting := true })

/-- A request that waited for the Collar. -/
def servePending (s : State) (i : CollarReq) : State :=
  match i with
  | .margin d c m p h => marginStep s d c m p h
  | .spare st pc => spare s st pc
  | .measurements b => measurements s b
  | .log n c => readLog s n c
  | .write c i => writeImage s c i
  | .activate c => activate s c
  | .raiseMinimum c => raiseMinimum s c
  | .cap w => setCap s w
  | .copyDone st pc => spareDone s st pc
  | .coreFailed n => coreFailed s n
  | .training t => trainDone s t

/-- COLLAR_RESTART_DONE (R379): what waited proceeds, in order. -/
def execCollarRestartDone (s : State) : Res :=
  .next (s.collar.pendingReq.foldl servePending (s.updCollar fun c => { c with restarting := false, pendingReq := [] }))

end Sys2Proof.Machine
end

