-- ==== Sys2Proof/Machine/Dispatch.lean ====
section
/-! DEFINITION. One arm per row of the opcode table: each is one direct call of that row's meaning. -/

namespace Sys2Proof.Machine

/-- What one instruction, operation or event does to the machine, whole and indivisible (spec file 95). -/
def exec (i : Instr) (s : State) : Host.Outcome State Fault Refusal :=
  match i with
  | .nop => Sys2Proof.Machine.execNop s
  | .add d a b => Sys2Proof.Machine.execAdd d a b s
  | .sub d a b => Sys2Proof.Machine.execSub d a b s
  | .mul d a b => Sys2Proof.Machine.execMul d a b s
  | .mulh d a b => Sys2Proof.Machine.execMulh d a b s
  | .mulhn d a b => Sys2Proof.Machine.execMulhn d a b s
  | .div d a b => Sys2Proof.Machine.execDiv d a b s
  | .divn d a b => Sys2Proof.Machine.execDivn d a b s
  | .rem d a b => Sys2Proof.Machine.execRem d a b s
  | .remn d a b => Sys2Proof.Machine.execRemn d a b s
  | .and d a b => Sys2Proof.Machine.execAnd d a b s
  | .or d a b => Sys2Proof.Machine.execOr d a b s
  | .xor d a b => Sys2Proof.Machine.execXor d a b s
  | .shl d a b => Sys2Proof.Machine.execShl d a b s
  | .shr d a b => Sys2Proof.Machine.execShr d a b s
  | .sra d a b => Sys2Proof.Machine.execSra d a b s
  | .min d a b => Sys2Proof.Machine.execMin d a b s
  | .max d a b => Sys2Proof.Machine.execMax d a b s
  | .minn d a b => Sys2Proof.Machine.execMinn d a b s
  | .maxn d a b => Sys2Proof.Machine.execMaxn d a b s
  | .seq d a b => Sys2Proof.Machine.execSeq d a b s
  | .sne d a b => Sys2Proof.Machine.execSne d a b s
  | .slt d a b => Sys2Proof.Machine.execSlt d a b s
  | .sltn d a b => Sys2Proof.Machine.execSltn d a b s
  | .clz d a => Sys2Proof.Machine.execClz d a s
  | .popc d a => Sys2Proof.Machine.execPopc d a s
  | .brev d a b => Sys2Proof.Machine.execBrev d a b s
  | .sel d a b c => Sys2Proof.Machine.execSel d a b c s
  | .deal d a => Sys2Proof.Machine.execDeal d a s
  | .dset n a b => Sys2Proof.Machine.execDset n a b s
  | .spop d a c => Sys2Proof.Machine.execSpop d a c s
  | .speek d a c => Sys2Proof.Machine.execSpeek d a c s
  | .sgrp d a b => Sys2Proof.Machine.execSgrp d a b s
  | .cancel d a b => Sys2Proof.Machine.execCancel d a b s
  | .qstat d a => Sys2Proof.Machine.execQstat d a s
  | .spawn d a b => Sys2Proof.Machine.execSpawn d a b s
  | .exit => Sys2Proof.Machine.execExit s
  | .dqpush d a => Sys2Proof.Machine.execDqpush d a s
  | .dqpop d b => Sys2Proof.Machine.execDqpop d b s
  | .steal d a b => Sys2Proof.Machine.execSteal d a b s
  | .yield d a b => Sys2Proof.Machine.execYield d a b s
  | .mxgo d a => Sys2Proof.Machine.execMxgo d a s
  | .cpy a m => Sys2Proof.Machine.execCpy a m s
  | .cpcan d a => Sys2Proof.Machine.execCpcan d a s
  | .give d a b => Sys2Proof.Machine.execGive d a b s
  | .claim d a b => Sys2Proof.Machine.execClaim d a b s
  | .brk => Sys2Proof.Machine.execBrk s
  | .eret => Sys2Proof.Machine.execEret s
  | .emret a => Sys2Proof.Machine.execEmret a s
  | .ckpt d => Sys2Proof.Machine.execCkpt d s
  | .halt => Sys2Proof.Machine.execHalt s
  | .setseg t g a b => Sys2Proof.Machine.execSetseg t g a b s
  | .lkbind d a b => Sys2Proof.Machine.execLkbind d a b s
  | .mfs d r => Sys2Proof.Machine.execMfs d r s
  | .mts a r => Sys2Proof.Machine.execMts a r s
  | .trap num => Sys2Proof.Machine.execTrap num s
  | .fence k a sc => Sys2Proof.Machine.execFence k a sc s
  | .bari n a sc => Sys2Proof.Machine.execBari n a sc s
  | .bara n a sc => Sys2Proof.Machine.execBara n a sc s
  | .barw n sc => Sys2Proof.Machine.execBarw n sc s
  | .lkacq d a => Sys2Proof.Machine.execLkacq d a s
  | .lkrel a => Sys2Proof.Machine.execLkrel a s
  | .cellq d a => Sys2Proof.Machine.execCellq d a s
  | .addi d a imm => Sys2Proof.Machine.execAddi d a imm s
  | .andi d a imm => Sys2Proof.Machine.execAndi d a imm s
  | .ori d a imm => Sys2Proof.Machine.execOri d a imm s
  | .xori d a imm => Sys2Proof.Machine.execXori d a imm s
  | .slti d a imm => Sys2Proof.Machine.execSlti d a imm s
  | .shli d a sh => Sys2Proof.Machine.execShli d a sh s
  | .shri d a sh => Sys2Proof.Machine.execShri d a sh s
  | .srai d a sh => Sys2Proof.Machine.execSrai d a sh s
  | .bfx d a x wd p => Sys2Proof.Machine.execBfx d a x wd p s
  | .bfi d a wd p => Sys2Proof.Machine.execBfi d a wd p s
  | .jalr d a imm => Sys2Proof.Machine.execJalr d a imm s
  | .jr a imm => Sys2Proof.Machine.execJr a imm s
  | .jtab t idx n => Sys2Proof.Machine.execJtab t idx n s
  | .bz a p sl => Sys2Proof.Machine.execBz a p sl s
  | .bnz a p sl => Sys2Proof.Machine.execBnz a p sl s
  | .beq a b p sl => Sys2Proof.Machine.execBeq a b p sl s
  | .bne a b p sl => Sys2Proof.Machine.execBne a b p sl s
  | .blt a b p sl => Sys2Proof.Machine.execBlt a b p sl s
  | .bge a b p sl => Sys2Proof.Machine.execBge a b p sl s
  | .bltn a b p sl => Sys2Proof.Machine.execBltn a b p sl s
  | .bgen a b p sl => Sys2Proof.Machine.execBgen a b p sl s
  | .j p sl => Sys2Proof.Machine.execJ p sl s
  | .jal d p sl => Sys2Proof.Machine.execJal d p sl s
  | .loopz a b p sl => Sys2Proof.Machine.execLoopz a b p sl s
  | .li d imm => Sys2Proof.Machine.execLi d imm s
  | .addpc d imm => Sys2Proof.Machine.execAddpc d imm s
  | .ld d a ty m => Sys2Proof.Machine.execLd d a ty m s
  | .st a b ty m => Sys2Proof.Machine.execSt a b ty m s
  | .lda d a ty m => Sys2Proof.Machine.execLda d a ty m s
  | .stl a b ty m => Sys2Proof.Machine.execStl a b ty m s
  | .amo fn ty d a b m => Sys2Proof.Machine.execAmo fn ty d a b m s
  | .pfx a m => Sys2Proof.Machine.execPfx a m s
  | .susp d a b m => Sys2Proof.Machine.execSusp d a b m s
  | .rslv d a b m => Sys2Proof.Machine.execRslv d a b m s
  | .laneNop n => Sys2Proof.Machine.execLaneNop n s
  | .vadd f => Sys2Proof.Machine.execVadd f s
  | .vsub f => Sys2Proof.Machine.execVsub f s
  | .vmul f => Sys2Proof.Machine.execVmul f s
  | .vmulh f => Sys2Proof.Machine.execVmulh f s
  | .vmad f => Sys2Proof.Machine.execVmad f s
  | .vand f => Sys2Proof.Machine.execVand f s
  | .vor f => Sys2Proof.Machine.execVor f s
  | .vxor f => Sys2Proof.Machine.execVxor f s
  | .vshl f => Sys2Proof.Machine.execVshl f s
  | .vshr f => Sys2Proof.Machine.execVshr f s
  | .vsra f => Sys2Proof.Machine.execVsra f s
  | .vmin f => Sys2Proof.Machine.execVmin f s
  | .vmax f => Sys2Proof.Machine.execVmax f s
  | .vabs f => Sys2Proof.Machine.execVabs f s
  | .vneg f => Sys2Proof.Machine.execVneg f s
  | .vclz f => Sys2Proof.Machine.execVclz f s
  | .vpopc f => Sys2Proof.Machine.execVpopc f s
  | .vsel f => Sys2Proof.Machine.execVsel f s
  | .vmov f => Sys2Proof.Machine.execVmov f s
  | .viota f => Sys2Proof.Machine.execViota f s
  | .vcmp f => Sys2Proof.Machine.execVcmp f s
  | .vli f imm => Sys2Proof.Machine.execVli f imm s
  | .vavg f => Sys2Proof.Machine.execVavg f s
  | .vsad f => Sys2Proof.Machine.execVsad f s
  | .fadd fm f => Sys2Proof.Machine.execFadd fm f s
  | .fsub fm f => Sys2Proof.Machine.execFsub fm f s
  | .fmul fm f => Sys2Proof.Machine.execFmul fm f s
  | .ffma fm f => Sys2Proof.Machine.execFfma fm f s
  | .fmin fm f => Sys2Proof.Machine.execFmin fm f s
  | .fmax fm f => Sys2Proof.Machine.execFmax fm f s
  | .fabs fm f => Sys2Proof.Machine.execFabs fm f s
  | .fneg fm f => Sys2Proof.Machine.execFneg fm f s
  | .frcp fm f => Sys2Proof.Machine.execFrcp fm f s
  | .frsq fm f => Sys2Proof.Machine.execFrsq fm f s
  | .fexp2 fm f => Sys2Proof.Machine.execFexp2 fm f s
  | .flog2 fm f => Sys2Proof.Machine.execFlog2 fm f s
  | .fcmp fm f => Sys2Proof.Machine.execFcmp fm f s
  | .frcpa f => Sys2Proof.Machine.execFrcpa f s
  | .vcvt f => Sys2Proof.Machine.execVcvt f s
  | .vhist f => Sys2Proof.Machine.execVhist f s
  | .vqnt f => Sys2Proof.Machine.execVqnt f s
  | .vdq f => Sys2Proof.Machine.execVdq f s
  | .rrot f => Sys2Proof.Machine.execRrot f s
  | .crot f => Sys2Proof.Machine.execCrot f s
  | .rbc f => Sys2Proof.Machine.execRbc f s
  | .cbc f => Sys2Proof.Machine.execCbc f s
  | .rred f => Sys2Proof.Machine.execRred f s
  | .cred f => Sys2Proof.Machine.execCred f s
  | .rprm f => Sys2Proof.Machine.execRprm f s
  | .trn16 f => Sys2Proof.Machine.execTrn16 f s
  | .vshuf f => Sys2Proof.Machine.execVshuf f s
  | .mand f => Sys2Proof.Machine.execMand f s
  | .mor f => Sys2Proof.Machine.execMor f s
  | .mxor f => Sys2Proof.Machine.execMxor f s
  | .mnot f => Sys2Proof.Machine.execMnot f s
  | .mcnt f => Sys2Proof.Machine.execMcnt f s
  | .mrow f => Sys2Proof.Machine.execMrow f s
  | .show f => Sys2Proof.Machine.execShow f s
  | .showx f => Sys2Proof.Machine.execShowx f s
  | .vfence f => Sys2Proof.Machine.execVfence f s
  | .laneBari f => Sys2Proof.Machine.execLaneBari f s
  | .laneBara f => Sys2Proof.Machine.execLaneBara f s
  | .laneBarw f => Sys2Proof.Machine.execLaneBarw f s
  | .plk f => Sys2Proof.Machine.execPlk f s
  | .ptag f => Sys2Proof.Machine.execPtag f s
  | .pinv f => Sys2Proof.Machine.execPinv f s
  | .vld f m => Sys2Proof.Machine.execVld f m s
  | .vst f m => Sys2Proof.Machine.execVst f m s
  | .vldt f m => Sys2Proof.Machine.execVldt f m s
  | .vstt f m => Sys2Proof.Machine.execVstt f m s
  | .vatom f m => Sys2Proof.Machine.execVatom f m s
  | .vcas f m => Sys2Proof.Machine.execVcas f m s
  | .pld f m => Sys2Proof.Machine.execPld f m s
  | .pst f m => Sys2Proof.Machine.execPst f m s
  | .vldb f m => Sys2Proof.Machine.execVldb f m s
  | .matrixNop => Sys2Proof.Machine.execMatrixNop s
  | .mma w => Sys2Proof.Machine.execMma w s
  | .mmas w => Sys2Proof.Machine.execMmas w s
  | .mmat w => Sys2Proof.Machine.execMmat w s
  | .mzero w => Sys2Proof.Machine.execMzero w s
  | .mldc w => Sys2Proof.Machine.execMldc w s
  | .mstc w => Sys2Proof.Machine.execMstc w s
  | .rinit w => Sys2Proof.Machine.execRinit w s
  | .tadv w => Sys2Proof.Machine.execTadv w s
  | .hadv w => Sys2Proof.Machine.execHadv w s
  | .gath w => Sys2Proof.Machine.execGath w s
  | .matrixBara w => Sys2Proof.Machine.execMatrixBara w s
  | .matrixBarw w => Sys2Proof.Machine.execMatrixBarw w s
  | .mend w => Sys2Proof.Machine.execMend w s
  | .copyNop => Sys2Proof.Machine.execCopyNop s
  | .cpG2p w => Sys2Proof.Machine.execCpG2p w s
  | .cpP2g w => Sys2Proof.Machine.execCpP2g w s
  | .cpG2g w => Sys2Proof.Machine.execCpG2g w s
  | .cpP2p w => Sys2Proof.Machine.execCpP2p w s
  | .cpFill w imm => Sys2Proof.Machine.execCpFill w imm s
  | .cpRows w imm => Sys2Proof.Machine.execCpRows w imm s
  | .cpToring w imm => Sys2Proof.Machine.execCpToring w imm s
  | .cpReduce w imm => Sys2Proof.Machine.execCpReduce w imm s
  | .cpG2l w => Sys2Proof.Machine.execCpG2l w s
  | .dealStart g => Sys2Proof.Machine.execDealStart g s
  | .iterationStart g => Sys2Proof.Machine.execIterationStart g s
  | .dealRetire g => Sys2Proof.Machine.execDealRetire g s
  | .resultVisible g => Sys2Proof.Machine.execResultVisible g s
  | .tokenComplete g n => Sys2Proof.Machine.execTokenComplete g n s
  | .deferredFault g => Sys2Proof.Machine.execDeferredFault g s
  | .showEnqueue g n => Sys2Proof.Machine.execShowEnqueue g n s
  | .groupSwap g into => Sys2Proof.Machine.execGroupSwap g into s
  | .dealStallResume t => Sys2Proof.Machine.execDealStallResume t s
  | .spopResume t => Sys2Proof.Machine.execSpopResume t s
  | .barwWake ag => Sys2Proof.Machine.execBarwWake ag s
  | .yieldResume t why => Sys2Proof.Machine.execYieldResume t why s
  | .lockGrant lk => Sys2Proof.Machine.execLockGrant lk s
  | .hadvResume tm => Sys2Proof.Machine.execHadvResume tm s
  | .mmaRetire tm => Sys2Proof.Machine.execMmaRetire tm s
  | .gatherExecute h => Sys2Proof.Machine.execGatherExecute h s
  | .copyStart h bulk => Sys2Proof.Machine.execCopyStart h bulk s
  | .copyComplete h bulk n => Sys2Proof.Machine.execCopyComplete h bulk n s
  | .copyFaultStop h bulk n => Sys2Proof.Machine.execCopyFaultStop h bulk n s
  | .emulationEntry t => Sys2Proof.Machine.execEmulationEntry t s
  | .teamEnd tm => Sys2Proof.Machine.execTeamEnd tm s
  | .evaluatorStart die => Sys2Proof.Machine.execEvaluatorStart die s
  | .evaluatorCellFault tm => Sys2Proof.Machine.execEvaluatorCellFault tm s
  | .ownershipTransfer ag pa => Sys2Proof.Machine.execOwnershipTransfer ag pa s
  | .priResponse c n resp => Sys2Proof.Machine.execPriResponse c n resp s
  | .atsInvalidation pasid va len => Sys2Proof.Machine.execAtsInvalidation pasid va len s
  | .pageLoad h c img page => Sys2Proof.Machine.execPageLoad h c img page s
  | .uncorrectableError wh => Sys2Proof.Machine.execUncorrectableError wh s
  | .preempt ag => Sys2Proof.Machine.execPreempt ag s
  | .timeSliceExpiry tm => Sys2Proof.Machine.execTimeSliceExpiry tm s
  | .fatalRemoval c => Sys2Proof.Machine.execFatalRemoval c s
  | .rollback c => Sys2Proof.Machine.execRollback c s
  | .ttcfgWrite a => Sys2Proof.Machine.execTtcfgWrite a s
  | .ttopLookup a => Sys2Proof.Machine.execTtopLookup a s
  | .ttopIns a => Sys2Proof.Machine.execTtopIns a s
  | .ttopInsd a => Sys2Proof.Machine.execTtopInsd a s
  | .ttopEvc a => Sys2Proof.Machine.execTtopEvc a s
  | .ttopSetd a => Sys2Proof.Machine.execTtopSetd a s
  | .ttopClrd a => Sys2Proof.Machine.execTtopClrd a s
  | .ttopInvalidate a => Sys2Proof.Machine.execTtopInvalidate a s
  | .rgopRead a => Sys2Proof.Machine.execRgopRead a s
  | .rgopAdvance a => Sys2Proof.Machine.execRgopAdvance a s
  | .gfpxWrite a r => Sys2Proof.Machine.execGfpxWrite a r s
  | .writeIndex q size ofs v => Sys2Proof.Machine.execWriteIndex q size ofs v s
  | .frontEndEvent core => Sys2Proof.Machine.execFrontEndEvent core s
  | .serviceRound core mclk => Sys2Proof.Machine.execServiceRound core mclk s
  | .pad q => Sys2Proof.Machine.execPad q s
  | .launch q => Sys2Proof.Machine.execLaunch q s
  | .opchain q => Sys2Proof.Machine.execOpchain q s
  | .opchainRecord q => Sys2Proof.Machine.execOpchainRecord q s
  | .signal q => Sys2Proof.Machine.execSignal q s
  | .wait q => Sys2Proof.Machine.execWait q s
  | .waitRecheck q => Sys2Proof.Machine.execWaitRecheck q s
  | .inval q => Sys2Proof.Machine.execInval q s
  | .invalComplete q => Sys2Proof.Machine.execInvalComplete q s
  | .node q => Sys2Proof.Machine.execNode q s
  | .binRecordWrite die bin rec => Sys2Proof.Machine.execBinRecordWrite die bin rec s
  | .binLaunch die bin => Sys2Proof.Machine.execBinLaunch die bin s
  | .binTimerExpiry die bin => Sys2Proof.Machine.execBinTimerExpiry die bin s
  | .teamStart n => Sys2Proof.Machine.execTeamStart n s
  | .bootMailboxArm h slot v => Sys2Proof.Machine.execBootMailboxArm h slot v s
  | .shadowBankActivate h slot => Sys2Proof.Machine.execShadowBankActivate h slot s
  | .launchComplete n => Sys2Proof.Machine.execLaunchComplete n s
  | .msixWindowExpiry fn => Sys2Proof.Machine.execMsixWindowExpiry fn s
  | .msixUnmask fn vec => Sys2Proof.Machine.execMsixUnmask fn vec s
  | .slotTableAdvance die => Sys2Proof.Machine.execSlotTableAdvance die s
  | .cmdbaseWrite fn v => Sys2Proof.Machine.execCmdbaseWrite fn v s
  | .functionRegisterWrite fn ofs size v => Sys2Proof.Machine.execFunctionRegisterWrite fn ofs size v s
  | .resume fn seq => Sys2Proof.Machine.execResume fn seq s
  | .skip fn seq => Sys2Proof.Machine.execSkip fn seq s
  | .cmdStep fn seq => Sys2Proof.Machine.execCmdStep fn seq s
  | .remove fn c => Sys2Proof.Machine.execRemove fn c s
  | .qenable fn q => Sys2Proof.Machine.execQenable fn q s
  | .qdisable fn q => Sys2Proof.Machine.execQdisable fn q s
  | .qrestart fn q dNew expSeq => Sys2Proof.Machine.execQrestart fn q dNew expSeq s
  | .prion fn c => Sys2Proof.Machine.execPrion fn c s
  | .ctxout fn c => Sys2Proof.Machine.execCtxout fn c s
  | .ctxin fn c map => Sys2Proof.Machine.execCtxin fn c map s
  | .assign fn h ten => Sys2Proof.Machine.execAssign fn h ten s
  | .slottbl fn die addr => Sys2Proof.Machine.execSlottbl fn die addr s
  | .diereset fn die => Sys2Proof.Machine.execDiereset fn die s
  | .flr fn => Sys2Proof.Machine.execFlr fn s
  | .hostBar2Access fn addr len wr => Sys2Proof.Machine.execHostBar2Access fn addr len wr s
  | .domainRequest q => Sys2Proof.Machine.execDomainRequest q s
  | .weaveFlitReceive f => Sys2Proof.Machine.execWeaveFlitReceive f s
  | .weavePortFailure port => Sys2Proof.Machine.execWeavePortFailure port s
  | .domainTimeout n => Sys2Proof.Machine.execDomainTimeout n s
  | .dieFault die => Sys2Proof.Machine.execDieFault die s
  | .quiesceDone die => Sys2Proof.Machine.execQuiesceDone die s
  | .quiesceTimeout die => Sys2Proof.Machine.execQuiesceTimeout die s
  | .drainSaveDone die => Sys2Proof.Machine.execDrainSaveDone die s
  | .resetDone die => Sys2Proof.Machine.execResetDone die s
  | .trainingDone die => Sys2Proof.Machine.execTrainingDone die s
  | .joinMsg die dst epoch => Sys2Proof.Machine.execJoinMsg die dst epoch s
  | .ackMsg die src epoch => Sys2Proof.Machine.execAckMsg die src epoch s
  | .openMsg die epoch => Sys2Proof.Machine.execOpenMsg die epoch s
  | .parkedReplay n => Sys2Proof.Machine.execParkedReplay n s
  | .teamRestart n => Sys2Proof.Machine.execTeamRestart n s
  | .hbmSpare stack pc => Sys2Proof.Machine.execHbmSpare stack pc s
  | .frontEndCoreFailure core => Sys2Proof.Machine.execFrontEndCoreFailure core s
  | .marginSample die cluster monitor ps below hand => Sys2Proof.Machine.execMarginSample die cluster monitor ps below hand s
  | .powerWindow watts => Sys2Proof.Machine.execPowerWindow watts s
  | .droopDetect die cluster => Sys2Proof.Machine.execDroopDetect die cluster s
  | .thermalSample die sensor temp => Sys2Proof.Machine.execThermalSample die sensor temp s
  | .coldBoot => Sys2Proof.Machine.execColdBoot s
  | .collarRestart => Sys2Proof.Machine.execCollarRestart s
  | .getMeasurements sign => Sys2Proof.Machine.execGetMeasurements sign s
  | .logRead seq count => Sys2Proof.Machine.execLogRead seq count s
  | .firmwareImageWrite comp img => Sys2Proof.Machine.execFirmwareImageWrite comp img s
  | .activation comp => Sys2Proof.Machine.execActivation comp s
  | .raiseFusedMinimum comp => Sys2Proof.Machine.execRaiseFusedMinimum comp s
  | .correctedError die stack pc => Sys2Proof.Machine.execCorrectedError die stack pc s
  | .registerEccError h slot what => Sys2Proof.Machine.execRegisterEccError h slot what s
  | .accessComplete t n => Sys2Proof.Machine.execAccessComplete t n s
  | .bar2ReadTimeout n => Sys2Proof.Machine.execBar2ReadTimeout n s
  | .collarRestartDone => Sys2Proof.Machine.execCollarRestartDone s
  | .hbmSpareCopyDone stack pc => Sys2Proof.Machine.execHbmSpareCopyDone stack pc s
  | .peerReachable dev => Sys2Proof.Machine.execPeerReachable dev s
  | .domainFormation dev => Sys2Proof.Machine.execDomainFormation dev s
  | .exportTableWrite n e => Sys2Proof.Machine.execExportTableWrite n e s
  | .powerCapSet watts => Sys2Proof.Machine.execPowerCapSet watts s
  | .msixMask fn vec => Sys2Proof.Machine.execMsixMask fn vec s
  | .perstAssert => Sys2Proof.Machine.execPerstAssert s
  | .powerLoss => Sys2Proof.Machine.execPowerLoss s
  | .imageLoad c img base => Sys2Proof.Machine.execImageLoad c img base s
  | .imageRelease c img => Sys2Proof.Machine.execImageRelease c img s
  | .vfEnable vfs => Sys2Proof.Machine.execVfEnable vfs s
  | .lockAllotment c lk grant => Sys2Proof.Machine.execLockAllotment c lk grant s

end Sys2Proof.Machine
end

