-- ==== Sys2Proof/Machine/Turn.lean ====
section
/-! DEFINITION. One turn of each agent: what it meets where it stands, and the meaning that answers it: R33, R41, R46, R50, R51,
R172, R258, R274, R299, R356. An agent that waits, is parked, held or stopped changes nothing in its turn. -/

namespace Sys2Proof.Machine

/-! ### Debug steps (R356) -/

/-- The thread's instruction has retired: it neither waits for it nor has met a cause; `moved` asks that its place has changed. -/
def didRetire (a b : Thread) (moved : Bool) : Bool :=
  let place := b.pc ≠ a.pc || b.img ≠ a.img
  (match a.wait with | .yield .. => false | _ => true) && (match b.wait with | .none => true | .yield .. => true | .exited => true | _ => false) &&
    b.depth ≤ a.depth && (place || (!moved && b.causes.length ≤ a.causes.length))

/-- The thread stops with STEP, of class T (R339, R356). -/
def postStep (s : State) (t : ThreadRef) : State :=
  let s := s.updThread t fun th => { th with stepDue := false }
  match s.coreOf t with
  | some k => stopAgent s k.tm.ctx .step .t (.thread t) (threadSite k) 0 0 0
  | none => s

/-- A stepped thread that has retired its instruction stops with STEP; behind a waiting emulation cause or a pre-emption the stop stays
pending (R336, R356). -/
def stepStop (s : State) (t : ThreadRef) (moved : Bool) (s' : State) : State :=
  match s.thread? t, s'.thread? t with
  | some a, some b =>
    if a.stepping && !held s' (.thread t) && !isParked s' (.thread t) && didRetire a b moved && !(s' = s && s.eventsFull) then
      let s' := s'.updThread t fun th => { th with stepping := false, stepDue := true }
      if (nextCause b).isSome || b.preempt then s' else postStep s' t
    else s'
  | _, _ => s'

/-- A stepped group that has issued a position stops with STEP, of class G, or with a deferred fault that it has met (R356). -/
def stepStopGroup (s : State) (g : GroupRef) (s' : State) : State :=
  match s.group? g, s'.group? g, s'.team? g.team with
  | some a, some b, some tm =>
    if a.stepping && b.pos ≠ a.pos && !b.frozen && !held s' (.group g) then
      let s' := s'.updGroup g fun x => { x with stepping := false }
      match s'.laneOf g, b.outst.find? fun o => o.done && o.bad.isSome with
      | some l, some o => deferredFault s' l o
      | _, _ => stopAgent (freezeGroup s' g) tm.ctx .step .g (.group g) (groupSite s' g b) 0 0 (groupDetail b)
    else s'
  | _, _, _ => s'

/-- What follows an answer. -/
def Res.andThen (r : Res) (f : State → State) : Res :=
  match r with
  | .next s => .next (f s)
  | .fault x => .fault x
  | .refused x => .refused x

/-! ### Control threads -/

/-- The thread may be served: its hand runs, no record holds it, and it is not parked. -/
def threadRuns (s : State) (t : ThreadRef) : Bool := handRuns s t.hand && !held s (.thread t) && !isParked s (.thread t)

/-- The thread fetches and runs the instruction at its pc (R50, R51, R72); its first line carries ENTRY. -/
def threadFetch (s : State) (t : ThreadRef) (k : Core) : Res :=
  let begun (s : State) : State := if k.th.entering then s.updThread t fun th => { th with entering := false } else s
  match fetchAt s t.hand k.tm.ctx k.th.img k.th.pc .cc (edisOf s k.ctx) k.th.entering with
  | (s, .run i) => Res.andThen (exec i (begun s)) (stepStop s t false)
  | (s, .cause c ws n) => .next (threadCause (begun s) k c ws n)
  | (s, .skip pc) => .next ((begun s).updThread t fun th => { th with pc := pc })
  | (s, .endOfChain) => .next (threadFault s k .chainEnd 0 0 0)
  | (s, .stop (.fault f)) =>
    let d := fetchDetails s k.tm.ctx k.th.img f (k.th.pc / 16)
    .next (threadFault s k f d.1 d.2.1 d.2.2)
  | (s, .stop (.park va)) => .next (parkAt s k.tm.ctx (.thread t) (BitVec.ofNat 64 va) none true)
  | (s, .stop ck) => .next (threadRefused s k ck 0 0 0)
  | (s, .ended) => .next s

/-- A yielding thread resumes when its barrier's phase has changed, when its limit has elapsed, or without a barrier once the other threads
have had their slots (R199). Where it waits on, a turn takes one clk from what remains of its limit (log entry 1). -/
def yieldTurn (s : State) (t : ThreadRef) (k : Core) (d : R5) (cont : Nat) (b : W64) (phase : BitVec 32) (left : Nat) : Res :=
  let onBar := bits b 5 5 = 1
  if onBar && (barrierOf k.tm (bits b 4 0)).phase ≠ phase then execYieldResume t .phase s
  else if bits b 31 16 ≠ 0 && left = 0 then execYieldResume t .limit s
  else if !onBar && !(k.th.yields.any (decodable s)) then execYieldResume t .round s
  else .next (s.updThread t fun th => { th with wait := .yield d cont b phase (left - 1) })

/-- A failed cell's fault is due to the thread (R170). -/
def cellDue (th : Thread) : Bool := match th.wait with | .cellFailed .. => true | _ => false

/-- What a control thread does in its turn, in R336's order: its own fault, a cause to serve (R299), a pre-emption, a step stop, else
what it waits for or its next instruction. -/
def threadTurn (s : State) (t : ThreadRef) : Res :=
  match s.coreOf t with
  | none => .next s
  | some k =>
    if !threadRuns s t then .next s
    else if cellDue k.th then threadFetch s t k
    else if (nextCause k.th).isSome then execEmulationEntry t s
    else if k.th.preempt then .next s
    else if k.th.stepDue then .next (postStep s t)
    else
      match k.th.wait with
      | .deal _ _ => Res.andThen (execDealStallResume t s) (stepStop s t true)
      | .spop _ _ _ => Res.andThen (execSpopResume t s) (stepStop s t true)
      | .barw _ _ _ => Res.andThen (execBarwWake (.thread t) s) (stepStop s t true)
      | .yield d c b p n => yieldTurn s t k d c b p n
      | .lkacq _ lk => Res.andThen (execLockGrant lk s) (stepStop s t true)
      | .park => .next s
      | .cell _ => .next s
      | .exited => .next s
      | .none => threadFetch s t k
      | .cellDone _ _ => threadFetch s t k
      | .cellFailed .. => threadFetch s t k
      | .cpy => threadFetch s t k
      | .emret => threadFetch s t k

/-! ### Lane groups -/

/-- A fetch of a group that stops: the fault of its line, its park, or a die's refusal. -/
def laneStopped (s : State) (l : Lane) : Chk → State
  | .fault f => let d := fetchDetails s l.tm.ctx l.run.deal.img f (l.run.pc / 16); laneFault s l f d.1 d.2.1
  | .park va => parkAt s l.tm.ctx (.group l.ref) (BitVec.ofNat 64 va) none true
  | .offline d => dieOffline s l.tm.ctx (.group l.ref) (groupSite s l.ref l.gr) 0 d
  | _ => s

/-- A cause at the group's instruction: one whose stage is off is passed, and its awaits are kept (R33, R37, R73). Of an instruction whose
word 1 would lie past slot 15 no stage can be read, so its cause is met in every iteration. DESIGN CHOICE (log entry 81). -/
def laneCauseTurn (s : State) (g : GroupRef) (c : Cause) (ws : List W32) (n : Option Instr) : State :=
  let f := laneOf (ws.getD 0 0) (ws.getD 1 0)
  if 2 ≤ ws.length then issue s g f.stage f.await ws.length fun s l => laneCause s l c ws n
  else match s.laneOf g with | some l => laneCause (landDue s g l.gr.pos) l c ws n | none => s

/-- The group fetches and issues the instruction at its place in the body. -/
def laneFetch (s : State) (g : GroupRef) (l : Lane) : Res :=
  match fetchAt s g.hand l.tm.ctx l.run.deal.img l.run.pc .lane l.run.edis false with
  | (s, .run i) => Res.andThen (exec i s) (stepStopGroup s g)
  | (s, .cause c ws n) => .next (stepStopGroup s g (laneCauseTurn s g c ws n))
  | (s, .skip pc) => .next (updRun s l fun r => { r with pc := pc })
  | (s, .stop ck) => .next (laneStopped s l ck)
  | (s, .endOfChain) => .next s
  | (s, .ended) => .next s

/-- The turn of a group: its barrier, a deferred fault, the end of its deal or of an iteration, its next instruction, or its next
deal. -/
def groupTurn (s : State) (g : GroupRef) : Res :=
  if !handRuns s g.hand then .next s
  else
    match runningLane s g with
    | none => execDealStart g s
    | some l =>
      if l.gr.waitBar.isSome then Res.andThen (execBarwWake (.group g) s) (stepStopGroup s g)
      else if (deferredHere s l).isSome then execDeferredFault g s
      else if l.run.ended then execDealRetire g s
      else if l.run.atEnd then execIterationStart g s
      else laneFetch s g l

/-! ### Matrix streams -/

/-- A cause of the stream waits for its handler, or its handler runs (R73, R74). -/
def streamWaits (th : Thread) : Bool :=
  (th.causes.any fun c => c.engine = .matrix && c.cause ≠ .deprecated) || th.windows.any fun w => w.cause.engine = .matrix && w.cause.cause ≠ .deprecated

/-- A fetch of a stream that stops. -/
def streamStopped (s : State) (m : Mx) : Chk → State
  | .fault f => let d := fetchDetails s m.tm.ctx m.tm.stream.img f (m.tm.stream.pc / 16); streamFault s m.ref f d.1 d.2.1 d.2.2
  | .park va => parkAt s m.tm.ctx (.stream m.ref) (BitVec.ofNat 64 va) none true
  | .offline d => dieOffline s m.tm.ctx (.stream m.ref) (streamSite m.ref m.tm) 0 d
  | _ => s

/-- An MMA or MMAS. -/
def isMma : Instr → Bool
  | .mma .. => true
  | .mmas .. => true
  | _ => false

/-- The stream that a hand holds beside `t` has an MMA or MMAS ready (R258): the instruction at its head changes its team. -/
def otherMma (s : State) (t : TeamRef) : Bool :=
  let o : TeamRef := ⟨t.hand, 1 - t.slot⟩
  match s.mxOf o with
  | none => false
  | some m =>
    if !streamFree s o || streamWaits m.th || m.tm.stream.mma.isSome || m.tm.stream.waitBar.isSome || m.tm.stream.waitHadv.isSome then false
    else
      match fetchAt s o.hand m.tm.ctx m.tm.stream.img m.tm.stream.pc .matrix m.tm.stream.edis false with
      | (_, .run i) => isMma i && (match exec i { s with cur := .stream o } with | .next u => u.team? o ≠ s.team? o | _ => false)
      | _ => false

/-- The engine's turn for an MMA or MMAS is the other stream's (R258). -/
def yieldsMma (s : State) (t : TeamRef) (i : Instr) : Bool := isMma i && (s.hand t.hand).lastMma = some t.slot && otherMma s t

/-- The stream fetches and runs the instruction at its pc. -/
def streamFetch (s : State) (t : TeamRef) (m : Mx) : Res :=
  match fetchAt s t.hand m.tm.ctx m.tm.stream.img m.tm.stream.pc .matrix m.tm.stream.edis false with
  | (s, .run i) => if yieldsMma s t i then .next s else exec i s
  | (s, .cause c ws n) => .next (mxCause s m c ws n)
  | (s, .skip pc) => .next (updStream s t fun x => { x with pc := pc })
  | (s, .endOfChain) => .next (streamFault s t .chainEnd 0 0 0)
  | (s, .stop ck) => .next (streamStopped s m ck)
  | (s, .ended) => .next s

/-- The turn of a stream. -/
def streamTurn (s : State) (t : TeamRef) : Res :=
  match s.mxOf t with
  | none => .next s
  | some m =>
    if !streamFree s t || streamWaits m.th then .next s
    else if m.tm.stream.mma.isSome then execMmaRetire t s
    else if m.tm.stream.waitBar.isSome then execBarwWake (.stream t) s
    else if m.tm.stream.waitHadv.isSome then execHadvResume t s
    else streamFetch s t m

/-! ### Copies -/

/-- A thread of the context stands at CKPT, which waits for the copies of the context (R290). -/
def atCkpt (s : State) (c : Nat) : Bool :=
  (teamsOf s c).any fun t => (teamThreads s t).any fun r =>
    match s.thread? r with
    | none => false
    | some th =>
      !th.preempt && th.wait = .none &&
        match lineOf s r.hand c th.img (th.pc / 16) with
        | none => false
        | some l => match decodeSlot .cc 0 l (th.pc % 16) with | .run (.ckpt _) => true | _ => false

/-- An entry may start or go on: none begins for a thread that is pre-empted (R345), but for a checkpoint (R290). -/
def copyMay (s : State) (h : Nat) (bulk : Bool) (x : Copy) : Bool :=
  copyLive s h bulk x && mayGo s h bulk x &&
    (x.flying || (match s.thread? (x.ref h) with | some th => !th.preempt | none => false) || atCkpt s x.ctx)

/-- The turn of a copy or chain: its fault, its completion, its next command, or its command's work. -/
def copyAgentTurn (s : State) (h : Nat) (bulk : Bool) (id : Nat) : Res :=
  match copyOf? s h bulk id with
  | none => .next s
  | some x =>
    if !handRuns s h then .next s
    else if x.bad.isSome then execCopyFaultStop h bulk id s
    else if x.performed then execCopyComplete h bulk id s
    else if !copyMay s h bulk x then .next s
    else
      match x.chain, x.cmd with
      | some c, none =>
        match chainFetch s h x c with
        | (s, .run i) => exec i s
        | _ => .next (copyTurn s h bulk x)
      | _, some i => exec i s
      | none, none => .next s

/-! ### What the device does by itself -/

/-- The place of the first outstanding operation with a property. -/
def outstAt (gr : Group) (p : Nat → Outst → Bool) : Option Nat := (gr.outst.zipIdx.find? fun o => p o.2 o.1).map (·.2)

/-- The thread with a key. -/
def threadAt (k : Nat) : ThreadRef := ⟨k / 8, k / 4 % 2, k % 4⟩
/-- The team with a key. -/
def teamAt (k : Nat) : TeamRef := ⟨k / 2, k % 2⟩

/-- What may be done for a group beside its issue: operations complete, shows enter, results land, and it comes in for a group that
waits, or into a free position (R36, R42, R223, R226). -/
def groupDuties (s : State) (g : GroupRef) (gr : Group) : List (State → Res) :=
  (match outstAt gr fun n _ => outstReady g.hand gr n with | some n => [execTokenComplete g n] | none => []) ++
    (match outstAt gr fun _ o => o.show_.isSome with | some n => [execShowEnqueue g n] | none => []) ++
    (if gr.run.isNone && gr.hrun.isNone && !gr.coming.isEmpty then [execResultVisible g] else []) ++
    (if firstReady s g.hand gr.lg = some g then
      execGroupSwap g g :: (activeOf s g.hand gr.lg).map fun a => execGroupSwap a g
    else [])

/-- What waited and is tried again: rollbacks whose checkpoint could not return yet (R354), gangs that a die's reset switches out (R373),
host accesses to a die that did not answer (R374), completion records that could not be written (R364), requests of the domain and route
changes (R366, R367). -/
def waitingDuties (s : State) : List (State → Res) :=
  ((s.ctxs.filter fun c => c.2.restoring.isSome).map fun c s => .next (finishRollback s c.1)) ++
    (s.dies.flatMap fun d => d.2.leaving.map fun n s => .next (gangLeave d.1 n s)) ++
    (if s.hostHeld.isEmpty then [] else [fun s => .next (hostReplay s)]) ++
    (if s.unposted.isEmpty then [] else [fun s => .next (repost s)]) ++
    (if s.weave.held.isEmpty then [] else [fun s => .next (serveHeld s)]) ++
    (if s.weave.changes.isEmpty then [] else [fun s => .next (settleRoutes s)])

/-- The operations and events that the device performs on its own account, where something of them may be due. -/
def duties (s : State) : List (State → Res) :=
  [execFrontEndEvent 0, execServiceRound 0 1] ++
    ((List.range s.waiting.length).map execTeamStart) ++
    ((s.teams.filter fun p => p.2.ending).map fun p => execTeamEnd (teamAt p.1)) ++
    ((s.teams.filter fun p => p.2.slicing).map fun p => execTimeSliceExpiry (teamAt p.1)) ++
    (s.hands.flatMap fun p => (p.2.mailbox.filter fun m => mailboxArmed s p.1 m.1).map fun m => execMailboxServe p.1 m.1) ++
    [fun s => .next (sendNext s), fun s => .next (unspill s)] ++ waitingDuties s ++
    ((s.threads.filter fun p => !p.2.buffer.isEmpty).map fun p => execAccessComplete (threadAt p.1) 0) ++
    (s.groups.flatMap fun p => groupDuties s (groupAt p.1) p.2) ++
    ((s.hands.filter fun p => !p.2.gather.isEmpty).map fun p => execGatherExecute p.1) ++
    (s.hands.flatMap fun p => p.2.banks.map fun b => execShadowBankActivate p.1 b.1) ++
    (s.launches.map fun p => execLaunchComplete p.1) ++
    ((s.queues.filter fun p => p.2.pend.any fun x => x.started && x.typ = 4).map fun p => execWaitRecheck p.1) ++
    ((s.queues.filter fun p => p.2.pend.any fun x => x.started && x.typ = 5).map fun p => execInvalComplete p.1) ++
    (s.dies.flatMap fun p => p.2.bins.map fun b => execBinLaunch p.1 b.1) ++
    (s.dies.flatMap fun p => (p.2.bins.filter fun b => binField s p.1 b.1 20 2 = 0).map fun b => execBinTimerExpiry p.1 b.1) ++
    ((List.range (offlineParks s).length).map execParkedReplay) ++
    ((List.range (restarts s).length).map execTeamRestart)

/-! ### Which agent is served -/

/-- The agents that may have something to do. -/
def agents (s : State) : List Agent :=
  (s.threads.map fun p => Agent.thread (threadAt p.1)) ++
    ((s.groups.filter fun p => p.2.state ≠ .unset).map fun p => Agent.group (groupAt p.1)) ++
    ((s.teams.filter fun p => p.2.stream.running).map fun p => Agent.stream (teamAt p.1)) ++
    (s.hands.flatMap fun p =>
      (p.2.near.map fun x => Agent.copy p.1 false x.id) ++ p.2.bulk.map fun x => Agent.copy p.1 true x.id) ++ [Agent.device]

/-- The agent that an empty agenda serves: each in its turn (log entry 1). -/
def nextAgent (s : State) : Agent := (agents s).getD (s.clock % (agents s).length) .device

/-- The device's own turn: one of its duties, each in its turn as the rotation of the agents comes round (log entry 1). -/
def deviceTurn (s : State) : Res :=
  match (duties s)[s.clock / (agents s).length % (duties s).length]? with
  | some f => f s
  | none => .next s

/-! ### Turns in order (R41, R46) -/

/-- The thread's turn uses a decode slot (R46): it stands at an instruction. What resumes it or stops it takes none. -/
def usesSlot (s : State) (t : ThreadRef) : Bool :=
  match s.thread? t with
  | some th => th.decodes
  | none => false

/-- A decode slot would get the thread on: it changes the thread, or posts a record. -/
def gainsThread (s : State) (t : ThreadRef) : Bool :=
  usesSlot s t &&
    match threadTurn { s with cur := .thread t } t with
    | .next u => u.thread? t ≠ s.thread? t || u.errSeq ≠ s.errSeq
    | _ => false

/-- The group's turn uses an issue slot (R41): its next instruction, and not the start, an iteration or the end of a deal. -/
def groupIssues (s : State) (g : GroupRef) : Bool :=
  match runningLane s g with
  | some l => l.gr.waitBar.isNone && (deferredHere s l).isNone && !l.run.ended && !l.run.atEnd
  | none => false

/-- A turn would get the group on. -/
def gainsGroup (s : State) (g : GroupRef) : Bool :=
  match groupTurn { s with cur := .group g } g with
  | .next u => u.group? g ≠ s.group? g || u.errSeq ≠ s.errSeq
  | _ => false

/-- The places from `i` round to before `j`, of `n`. -/
def placesBefore (n i j : Nat) : List Nat := (List.range ((j + n - i % n) % n)).map fun d => (i + d) % n

/-- Thread `i` of a hand, in the order of slot and role. -/
def threadOf (h i : Nat) : ThreadRef := ⟨h, i / 4, i % 4⟩

/-- The decode slot is the thread's (R46): no thread of its hand between the one served last and it could use it. -/
def threadDue (s : State) (t : ThreadRef) : Bool :=
  (placesBefore 8 ((s.hand t.hand).lastThread + 1) (t.slot * 4 + t.role)).all fun i => !gainsThread s (threadOf t.hand i)

/-- The place at which the search for the next group of a lane group begins: after the one served last (R41). -/
def laneFrom (s : State) (h lg : Nat) : Nat := (s.hand h).lastLane.getD lg 0

/-- The issue slot is the group's (R41): no active group of its lane group between the one served last and it could use it. -/
def groupDue (s : State) (g : GroupRef) : Bool :=
  match s.group? g with
  | none => true
  | some gr =>
    let act := activeOf s g.hand gr.lg
    (placesBefore (max 1 act.length) (laneFrom s g.hand gr.lg) (act.idxOf g)).all fun i =>
      match act[i]? with | some x => x = g || !gainsGroup s x | none => true

/-- A place in a list follows the list as entries leave it; where as many stand in it, one has taken another's place. -/
def keptPlace (before after : List GroupRef) (n : Nat) : Nat :=
  if after.length = before.length then n else (before.take n).countP after.contains

/-- The place of a lane group's search after a step; `served` is the group that has issued. -/
def nextFrom (s s' : State) (h lg : Nat) (served : Option GroupRef) : Nat :=
  let act := activeOf s h lg
  let n := match served with | some g => if act.contains g then act.idxOf g + 1 else laneFrom s h lg | none => laneFrom s h lg
  keptPlace act (activeOf s' h lg) n

/-- The pending groups of a hand that are ready, those that were before first (R42). -/
def readyNow (s : State) (h : Nat) : List GroupRef :=
  let all := (List.range 4).flatMap (readyGroups s h)
  let old := (s.hand h).ready.filter all.contains
  old ++ all.filter fun g => !old.contains g

/-- The group has issued a position in the step (R41). -/
def issued (s : State) (g : GroupRef) (s' : State) : Bool :=
  groupIssues s g &&
    match s.group? g, s'.group? g with
    | some a, some b => a.pos ≠ b.pos
    | _, _ => false

/-- The thread has had its decode slot: no YIELD waits for it any more (R199). -/
def hadSlot (s : State) (t : ThreadRef) : State :=
  (teamThreads s ⟨t.hand, 0⟩ ++ teamThreads s ⟨t.hand, 1⟩).foldl
    (fun s r => s.updThread r fun th => if th.yields.contains t then { th with yields := th.yields.erase t } else th) s

/-- What the hands keep of a step's order: the thread and the groups that had the last slots, and which pending groups have been ready how
long. -/
def account (s : State) (a : Agent) (s' : State) : State :=
  let served : Option GroupRef := match a with | .group g => if issued s g s' then some g else none | _ => none
  let hands : Map Hand := s'.hands.map fun p =>
    let x : Hand := { p.2 with
      lastThread := (match a with
        | .thread t => if t.hand = p.1 && usesSlot s t && s'.thread? t ≠ s.thread? t then t.slot * 4 + t.role else p.2.lastThread
        | _ => p.2.lastThread)
      lastLane := (List.range 4).filterMap fun lg =>
        match nextFrom s s' p.1 lg (served.filter fun g => g.hand = p.1) with | 0 => none | n => some (lg, n)
      ready := readyNow s' p.1 }
    if p.1 < 256 then (p.1, x) else p
  { s' with hands := hands }

/-- The turn of an agent: a thread or a group that needs a slot waits for its own. -/
def serve (a : Agent) (s : State) : Res :=
  match a with
  | .device => Res.andThen (deviceTurn s) (account s a)
  | .thread t =>
    if !usesSlot s t then Res.andThen (threadTurn s t) (account s a)
    else if threadDue s t then Res.andThen (threadTurn s t) fun s' => hadSlot (account s a s') t
    else .next s
  | .group g => if !groupIssues s g || groupDue s g then Res.andThen (groupTurn s g) (account s a) else .next s
  | .stream t => Res.andThen (streamTurn s t) (account s a)
  | .copy h bulk n => Res.andThen (copyAgentTurn s h bulk n) (account s a)

/-! ### Events -/

/-- The device has power and is not held in reset (R384, R385). -/
def powered (s : State) : Bool := s.collar.railsOn && !s.collar.perst

/-- What the Collar still does without the rails, or while PERST# is asserted (R377-R381, R385). -/
def collarEvent : Instr → Bool
  | .coldBoot | .perstAssert | .powerLoss | .collarRestart | .collarRestartDone => true
  | .getMeasurements _ | .logRead _ _ | .firmwareImageWrite _ _ | .activation _ => true
  | _ => false

/-- An event arrives; threads that it lets retire an instruction under a debug step stop (R356). -/
def runEvent (i : Instr) (s : State) : Res :=
  if powered s || collarEvent i then
    Res.andThen (exec i s) fun s' =>
      account s .device (((s.threads.filter fun p => p.2.stepping).map fun p => threadAt p.1).foldl (fun s' t => stepStop s t true s') s')
  else .next s

/-! ### Where a word is put for the next step (R48, R172, R193, R258, R274) -/

/-- The image that a loaded word stands in: one page, four lines. -/
def wordImage : Image :=
  { base := 0, lines := 4, blockFirst := 0, blockCount := 0, relocFirst := 0, relocCount := 0, teamEntry := 1, launchRec := 0, manifest := 0,
    constFirst := 0, releasing := false }

/-- A context with that image as image 0; it is privileged, so that every row has its effect. -/
def wordCtx : Ctx :=
  { privileged := true, ended := false, pageReq := false, failover := false, images := [(0, wordImage)], locks := [], eht := 0, edis := 0,
    depcnt := 0, deplim := 0, ckptValid := false, ckptCount := 0, rolledBack := false, cklog := 0, undoBase := 0, undo := [],
    undoBytes := 0, saved := none, ptroot := 0, unresolved := [], parked := [], priBlocked := false, denied := [], out := none }

/-- A team with nothing but its stream; `run` says whether that runs. -/
def wordTeam (run : Bool) : Team :=
  { ctx := 0, launch := 0, img := 0, teamNo := 0, gridpos := 0, wgt := 0, wroot := 0, roles := [(0, ⟨[], List.replicate 16 0⟩)],
    accBudget := 8, tph := 1, gang := false, bars := [], tagCfg := 0, ttop := 0, ttres := 0, rgop := 0, rgres := 0, tags := [], rings := [],
    stream := { State.emptyStream with running := run, pc := 17 }, acc := [], evstack := [], ending := false, signals := [],
    lastRec := false, batch := none, lastRole := 0, spawned := false, resolved := false, entry := 17, startX := [0, 0, 0, 0], startWgt := 0,
    sliceLeft := 0 }

/-- A thread at the word, every register 0. -/
def wordThread : Thread :=
  { x := Vector.replicate 32 0, img := 0, pc := 17, hw := 0, wait := .none, fpx := 0, fpxmask := 0, gseg := Seg.none, pseg := Seg.none,
    kseg := Seg.none, lseg := Seg.none, esave := 0, depth := 0, epc := 0, eopc := 0, einfo := 0, exa := 0, exb := 0, exd := 0, egrp := 0,
    windows := [], causes := [], buffer := [], arrival := [], holds := [], copyFaults := [], stepping := false, preempt := false }

/-- A deal that runs the word's block, every stage on. -/
def wordRun : Run :=
  { deal := ⟨0, BitVec.allOnes 64, 0, 0, List.replicate 6 0, 1, false, 0⟩,
    blk := { entry := 1, stages := 8, rotSize := 0, rotBase := 0, budget := 64, win := false, bad := false },
    k := 1, inj := 1, trip := 1, s := 0xFF, rot := 0, pc := 17, idx := 0, stopped := false, pre := false, started := false, shows := 0,
    m0 := BitVec.allOnes 64, d := List.replicate 8 0, gseg := Seg.none, pseg := Seg.none, kseg := Seg.none, lseg := Seg.none, edis := 0 }

/-- A group that runs that deal on units 0 to 7. -/
def wordGroup : Group :=
  { State.emptyGroup with state := .live, units := List.range 8, queue := [wordRun.deal], nextSeq := 2, run := some wordRun }

/-- A chain at the word. -/
def wordCopy : Copy :=
  { id := 1, slot := 0, role := 0, ctx := 0, img := 0, pc := 17, cmd := none, arg := 0, chain := some ⟨17, false, false⟩, edis := 0,
    issued := false, ord := 0, rows := [], rowB := 0, pos := 0, owned := [], logged := [], performed := false, cancelled := false, bad := none }

/-- The first engine to which the words are an instruction, in the order of `decodeAny`; the control core where they are none. -/
def wordEngine (ws : List W32) : Engine :=
  if (decode .cc ws).isSome then .cc
  else if (decode .lane ws).isSome then .lane
  else if (decode .matrix ws).isSome then .matrix
  else if (decode .copy ws).isSome then .copy
  else .cc

/-- The line that holds the words from slot 1 on: the link word names the engine, with ENTRY and END (R48). -/
def wordLine (e : Engine) (bs : List Byte) : List Byte :=
  (toBytes 4 (engCode e * 2 ^ 28 + 2 ^ 27 + 2 ^ 26) ++ bs ++ List.replicate 64 0).take 64

/-- What the next step serves. -/
def wordAgent : Engine → Agent
  | .cc => .thread ⟨0, 0, 0⟩
  | .lane => .group ⟨0, 0, 0, 0⟩
  | .matrix => .stream ⟨0, 0⟩
  | .copy => .copy 0 false 1

/-- The machine in which the next step fetches and runs the words: they are loaded from outside into line 1 of an image of context 0,
and hand 0 holds a team at them, in place of what stood there (log entry 14). -/
def placeWord (s : State) (e : Engine) (bs : List Byte) : State :=
  let g : GroupRef := ⟨0, 0, 0, 0⟩
  let h := s.hand 0
  let cs : Map Ctx := s.ctxs.map fun c => (c.1, { c.2 with unresolved := [], parked := [] })
  { s with
    agenda := .agent (wordAgent e) :: s.agenda
    fuse := s.fuse.filter (· ≠ 0)
    defects := s.defects.filter (· ≠ 0)
    collar := { s.collar with railsOn := true, perst := false }
    dies := s.dies.set 0 { s.die 0 with state := .online }
    ctxs := cs.set 0 wordCtx
    teams := s.teams.set (teamKey g.team) (wordTeam (e = .matrix))
    threads := s.threads.set (threadKey g.owner) wordThread
    groups := if e = .lane then s.groups.set (groupKey g) wordGroup else s.groups
    hands := s.hands.set 0
      { h with imem := h.imem.set (imemKey 0 0 1) (wordLine e bs),
               active := if e = .lane then [g] else h.active,
               near := if e = .copy then [wordCopy] else h.near, lastThread := 7, lastLane := [], lastMma := none } }

end Sys2Proof.Machine
end

