-- ==== Sys2Proof/Machine/Step.lean ====
section
/-! DEFINITION. One step of the device, and where a word is stored for the next one. -/

namespace Sys2Proof.Machine

/-- The state in which a step serves `a`, with the rest of the agenda. -/
def State.turn (s : State) (rest : List Turn) (a : Agent) : State := { s with agenda := rest, cur := a, clock := s.clock + 1 }

/-- One step: the agenda's next turn, an event or an agent's; where the agenda is empty, each agent and the device's own
operations in rotation (log entry 1). Without power an agent does nothing. -/
def step (s : State) : Host.Outcome State Fault Refusal :=
  match s.agenda with
  | .event i :: rest => runEvent i (s.turn rest .device)
  | .agent a :: rest => if powered s then serve a (s.turn rest a) else .next (s.turn rest a)
  | [] => if powered s then serve (nextAgent s) (s.turn [] (nextAgent s)) else .next (s.turn [] .device)

/-- The state in which the next step fetches and runs the instruction whose bits are `w`, numbered as the opcode table numbers
them. -/
def State.withFetchWord (s : State) (nbits w : Nat) : State :=
  let bs := tableBytes nbits w
  placeWord s (wordEngine (wordsOfBytes 3 bs)) bs

end Sys2Proof.Machine
end

