-- ==== Sys2Proof/Safety.lean ====
section
/-! DEFINITION. The terms in which claims are stated: what an answer leaves unchanged, what a retired thread instruction, an issued
lane instruction, a completed stream instruction and a taken fault are, and when the state's memories are well formed. -/

namespace Sys2Proof.Machine

/-! ### Frames -/

/-- Every byte of memory reads as before: device memory, host memory, every scratchpad. -/
def sameBytes (s t : State) : Prop :=
  (∀ a, Memory.get t.mem a = Memory.get s.mem a) ∧ (∀ a, Memory.get t.hostMem a = Memory.get s.hostMem a) ∧
    ∀ h a, Memory.get (t.hand h).scratch a = Memory.get (s.hand h).scratch a

/-- Everything but the threads is as before, and so is every byte of memory. -/
structure OnlyThreads (s t : State) : Prop where
  bytes : sameBytes s t
  rest  : { t with threads := s.threads } = s

/-- Every thread but one is as before. -/
def otherThreads (s t : State) (r : ThreadRef) : Prop := ∀ q, threadKey q ≠ threadKey r → t.thread? q = s.thread? q
/-- Every team but one is as before. -/
def otherTeams (s t : State) (r : TeamRef) : Prop := ∀ q, teamKey q ≠ teamKey r → t.team? q = s.team? q
/-- Every group but one is as before. -/
def otherGroups (s t : State) (r : GroupRef) : Prop := ∀ q, groupKey q ≠ groupKey r → t.group? q = s.group? q
/-- Every context but one is as before. -/
def otherCtxs (s t : State) (c : Nat) : Prop := ∀ q, q ≠ c → t.ctx? q = s.ctx? q

/-! ### Threads -/

/-- Thread `b` is thread `a` at `pc`, waiting as `w` says, with new values in the registers listed (X0 keeps reading 0) and every
other register, flag and system register as before. -/
structure ThreadAt (a b : Thread) (pc : Nat) (w : Wait) (ds : List (R5 × W64)) : Prop where
  pc   : b.pc = pc
  wait : b.wait = w
  regs : ∀ n, b.rx n = if n = 0 then 0 else (ds.lookup n).getD (a.rx n)
  rest : { b with x := a.x, pc := a.pc, wait := a.wait } = a

/-- The served thread's instruction has retired: it stands at `pc` with the registers listed; other threads are as before. -/
structure Retired (s t : State) (k : Core) (pc : Nat) (ds : List (R5 × W64)) : Prop where
  thread : ∃ b, t.thread? k.ref = some b ∧ ThreadAt k.th b pc .none ds
  others : otherThreads s t k.ref

/-- It has retired and has changed nothing but its thread. -/
structure RetiredAlone (s t : State) (k : Core) (pc : Nat) (ds : List (R5 × W64)) : Prop where
  retired : Retired s t k pc ds
  rest    : OnlyThreads s t

/-- It has retired an instruction of `w` words that changes its own thread by `f` and nothing else. -/
structure RetiredWith (s t : State) (k : Core) (w : Nat) (f : Thread → Thread) : Prop where
  thread : t.thread? k.ref = some { f k.th with pc := k.next w, wait := .none }
  others : otherThreads s t k.ref
  rest   : OnlyThreads s t

/-- It has retired an instruction of one word that also makes its team `tm`; nothing else changes. -/
structure RetiredTeam (s t : State) (k : Core) (ds : List (R5 × W64)) (tm : Team) : Prop where
  retired : Retired s t k (k.next 1) ds
  team    : t.team? k.ref.team = some tm
  others  : otherTeams s t k.ref.team
  bytes   : sameBytes s t
  rest    : { t with threads := s.threads, teams := s.teams } = s

/-- It has retired an instruction of one word that also makes its context `x`; nothing else changes. -/
structure RetiredCtx (s t : State) (k : Core) (ds : List (R5 × W64)) (x : Ctx) : Prop where
  retired : Retired s t k (k.next 1) ds
  ctx     : t.ctx? k.tm.ctx = some x
  others  : otherCtxs s t k.tm.ctx
  bytes   : sameBytes s t
  rest    : { t with threads := s.threads, ctxs := s.ctxs } = s

/-- It has retired an instruction of one word that also makes the group `g` into `x`; nothing else changes. -/
structure RetiredGroup (s t : State) (k : Core) (ds : List (R5 × W64)) (g : GroupRef) (x : Group) : Prop where
  retired : Retired s t k (k.next 1) ds
  group   : t.group? g = some x
  others  : otherGroups s t g
  bytes   : sameBytes s t
  rest    : { t with threads := s.threads, groups := s.groups } = s

/-- The served thread has taken a precise fault (R44): one record with the next sequence number holds it, and it stands where it stood with
everything it holds. -/
structure ThreadFaulted (s t : State) (k : Core) (code : FaultCode) : Prop where
  record : ∃ x, t.ctx? k.tm.ctx = some x ∧ ⟨s.errSeq, code, .t, .thread k.ref, false⟩ ∈ x.unresolved
  held   : held t (.thread k.ref) = true
  count  : t.errSeq = s.errSeq + 1
  threads : t.threads = s.threads
  mem    : ∀ a, Memory.get t.mem a = Memory.get s.mem a

/-! ### Fetching -/

/-- The step serves `a`: it is the next turn of the agenda, or the agenda is empty and its turn has come round; `rest` is left. -/
def Serves (s : State) (a : Agent) (rest : List Turn) : Prop :=
  powered s = true ∧ (s.agenda = .agent a :: rest ∨ (s.agenda = [] ∧ rest = [] ∧ nextAgent s = a))

/-- A control thread that may fetch: its hand runs, no record holds it, no cause, pre-emption or step stop is due to it, and it waits for
nothing. -/
structure ThreadReady (s : State) (t : ThreadRef) (k : Core) : Prop where
  core  : s.coreOf t = some k
  runs  : threadRuns s t = true
  cause : nextCause k.th = none
  stay  : k.th.preempt = false
  due   : k.th.stepDue = false
  idle  : k.th.wait = .none

/-- The state in which the thread `th` runs its instruction: a starting team's entry is behind it (R51). -/
def State.begun (s : State) (t : ThreadRef) (th : Thread) : State :=
  if th.entering then s.updThread t fun x => { x with entering := false } else s

/-- The lines of an image that a hand holds are relocated for the team of the agent that the step serves (R58). -/
def Relocated (s : State) (h c img : Nat) : Prop := ∀ m, (s.hand h).maps.get? (imageKey c img) = some m → m = mapFor s h c img

/-- The words of the entry at a code address: its line lies in the image and is resident, relocated for the agent's team; its link word
names the engine, the rest of it is not fill, and the words, as many as word 0 says, fit in the line (R48, R49, R51, R58, R76). -/
def EntryAt (s : State) (h c img pc : Nat) (e : Engine) (ws : List W32) : Prop :=
  Relocated s h c img ∧ ∃ im l, imageOf s c img = some im ∧ pc / 16 < im.lines ∧ lineOf s h c img (pc / 16) = some l ∧ lineEngine l = engCode e ∧
    pc % 16 ≠ 0 ∧ isFill l (pc % 16) = false ∧ ws = lineWords l (pc % 16) (instrWords e (lineWord l (pc % 16))) ∧ pc % 16 + ws.length ≤ 16

/-! ### What accesses leave in memory -/

/-- A cache holds byte `v` dirty for the physical address `a`, in its copy of some line at some place. -/
def dirtyByte (s : State) (a : Nat) (v : Byte) : Prop :=
  ∃ p la l, lineCopy s p la = some l ∧ la ≤ a ∧ l.dirty.getLsbD (a - la) = true ∧ l.data[a - la]? = some v

/-- The address lies in the undo log of a context whose checkpoint is valid (R352). -/
def inLog (s : State) (a : Nat) : Prop :=
  ∃ c x, s.ctx? c = some x ∧ x.ckptValid = true ∧ x.undoBase.toNat ≤ a ∧ a < x.undoBase.toNat + x.cklog.toNat

/-- Between `s` and `t` the bytes `new` are written to device memory and nothing else is, but for what the device writes into undo logs: a
home or a dirty copy holds what a home or a dirty copy held for that address, or a byte of `new`. Host memory changes only by the records
that were posted; no scratchpad changes. -/
structure Flows (s t : State) (new : Nat → Byte → Prop) : Prop where
  home  : ∀ a, Memory.get t.mem a = Memory.get s.mem a ∨ dirtyByte s a (Memory.get t.mem a) ∨ new a (Memory.get t.mem a) ∨ inLog s a
  dirty : ∀ a v, dirtyByte t a v → dirtyByte s a v ∨ new a v
  logs  : ∀ a, inLog t a → inLog s a
  seq   : s.errSeq ≤ t.errSeq
  host  : t.errSeq = s.errSeq → t.hostMem = s.hostMem
  scratch : ∀ h, (t.hand h).scratch = (s.hand h).scratch

/-- Nothing is written between `s` and `t`; dirty bytes may have been written back. -/
def NoStore (s t : State) : Prop := Flows s t fun _ _ => False

/-- Every place narrower than a scope, as hand `h` sees it, holds no dirty byte: a release at the scope is done (R149). -/
def releasedAt (s : State) (h scope : Nat) : Prop := ∀ p ∈ narrower h scope, ∀ la l, lineCopy s p la = some l → l.dirty = 0

/-- Every place narrower than a scope holds no copy: an acquire at the scope is done (R149). -/
def acquiredAt (s : State) (h scope : Nat) : Prop := ∀ p ∈ narrower h scope, ∀ la, lineCopy s p la = none

/-- A hand but for what an access may change: its scratchpad and its TLB. -/
def Hand.core (h : Hand) : Hand := { h with scratch := [], scratchPoison := [], tlb := [] }
/-- A die but for its TLB. -/
def Die.core (d : Die) : Die := { d with tlb := [] }
/-- A context but for its undo log and the refusals it has consumed. -/
def Ctx.core (c : Ctx) : Ctx := { c with undo := [], undoBytes := 0, ckptValid := false, denied := [] }

/-- The parts of the state that neither an access nor a record changes. -/
def State.kept (s : State) : State :=
  { s with mem := [], hostMem := [], tags := [], poison := [], caches := [], homeL2 := [], granules := [], hands := [], dies := [], ctxs := [], fns := [],
           errSeq := 0, fresh := 0, outbox := [], weave := { s.weave with reqs := [], nextReq := 0, sendSeq := [], buffer := [] } }

/-- Between `s` and `t` only memories, tags, poison, caches, ownership, TLBs, undo logs, the host's records and the requests to peers
change. -/
structure MemOnly (s t : State) : Prop where
  kept  : t.kept = s.kept
  hands : ∀ h, (t.hand h).core = (s.hand h).core
  dies  : ∀ d, (t.die d).core = (s.die d).core
  ctxs  : ∀ c, (t.ctx? c).map Ctx.core = (s.ctx? c).map Ctx.core

/-- The served thread has become `th`; nothing else changes but memories and records. -/
structure Performed (s t : State) (k : Core) (th : Thread) : Prop where
  thread : t.thread? k.ref = some th
  others : otherThreads s t k.ref
  rest   : MemOnly s { t with threads := s.threads }

/-- Every line copy in a cache has its 128 bytes. -/
def CachesOk (s : State) : Prop := ∀ p ∈ s.caches, ∀ l ∈ p.2, l.2.data.length = 128

/-- The byte `v` stands at the physical address `a` in its home or dirty in a cache, or the address is one that the device itself writes or
skips: in an undo log, or in a sector that is not VAL (R253, R352). -/
def Holds (s t : State) (a : Nat) (v : Byte) : Prop :=
  Memory.get t.mem a = v ∨ dirtyByte t a v ∨ inLog s a ∨ tagAt s a ≠ 0

/-- Byte `v` is dirty for the physical address `a`, and no other copy of any line holds that address dirty. -/
def SoleDirty (s : State) (a : Nat) (v : Byte) : Prop :=
  ∃ p la l, lineCopy s p la = some l ∧ la ≤ a ∧ l.dirty.getLsbD (a - la) = true ∧ l.data[a - la]? = some v ∧
    ∀ q lb m, lineCopy s q lb = some m → lb ≤ a → m.dirty.getLsbD (a - lb) = true → q = p ∧ lb = la

/-- The bytes `data` are stored at the place `g`, and nothing is stored elsewhere; at a peer, which has
performed the store, only the request ends. -/
def Stored (s t : State) (g : Tgt) (data : List Byte) : Prop :=
  match g with
  | .dev pa =>
    Flows s t (fun a v => ∃ i, a = pa + i ∧ data[i]? = some v) ∧
      (CachesOk s → pa % 128 + data.length ≤ 128 → ∀ i v, data[i]? = some v → Holds s t (pa + i) v)
  | .host p => t.mem = s.mem ∧ t.caches = s.caches ∧ t.hostMem = Memory.write s.hostMem p data ∧ ∀ h, (t.hand h).scratch = (s.hand h).scratch
  | .scratch h o =>
    t.mem = s.mem ∧ t.caches = s.caches ∧ t.hostMem = s.hostMem ∧
      ∀ q, (t.hand q).scratch = if q = h then Memory.write (s.hand h).scratch o data else (s.hand q).scratch
  | .peer _ _ =>
    t.mem = s.mem ∧ t.caches = s.caches ∧ t.hostMem = s.hostMem ∧ (∀ h, (t.hand h).scratch = (s.hand h).scratch) ∧
      { t.weave with reqs := s.weave.reqs } = s.weave ∧ ∀ r, r ∈ t.weave.reqs → r ∈ s.weave.reqs
  | .bin _ _ => t.mem = s.mem ∧ t.caches = s.caches ∧ t.hostMem = s.hostMem ∧ ∀ h, (t.hand h).scratch = (s.hand h).scratch

/-! ### Lane groups -/

/-- The served group runs a deal whose stage predicate for `f` is on; no operation that `f` awaits is outstanding and none has met a deferred
fault (R33, R37, R227). In `u` the results due at the group's position have landed, and `l` is what the instruction reaches there. -/
structure Issues (s u : State) (f : LaneW) (l : Lane) : Prop where
  cur  : s.cur = .group l.ref
  old  : ∃ x, s.laneOf l.ref = some x ∧ x.run.s.getLsbD f.stage.toNat = true ∧ deferredOn x f.await = none ∧
    (∀ t < 8, f.await.getLsbD t = true → tokenCount x.gr t = 0) ∧ u = landDue s l.ref x.gr.pos
  lane : u.laneOf l.ref = some l

/-- The instruction of a lane ends with `P` where every tile it names lies in the allocation or a window; else the group faults with
TILE_RANGE (R205), with the first tile that does not in the record: which of several is named is log entry 24 (DEDUCED). -/
def LaneGives (s u : State) (l : Lane) (i : Instr) (ts : List Nat) (P : State → Prop) : Prop :=
  (badTile l ts = none → ∃ t, exec i s = .next t ∧ P t) ∧
    ∀ n, badTile l ts = some n → exec i s = .next (laneFault u l .tileRange 0 (BitVec.ofNat 64 n))

/-- The lane's deal stands behind its instruction of `w` words, which took `n` positions; besides, its group is `g`, and other groups are as
they were. -/
structure Passed (u t : State) (l : Lane) (w n : Nat) (g : Group) : Prop where
  group  : t.group? l.ref = some
    (let on := Option.map fun r : Run =>
      { r with pc := nextOf l.line r.pc w, idx := r.idx + 1, started := true }
     { g with pos := g.pos + n, run := if l.helper then g.run else on g.run, hrun := if l.helper then on g.hrun else g.hrun })
  others : otherGroups u t l.ref

/-- As `Passed`, and nothing else changes. -/
structure Issued (u t : State) (l : Lane) (w n : Nat) (g : Group) : Prop where
  passed : Passed u t l w n g
  bytes  : sameBytes u t
  rest   : { t with groups := u.groups } = u

/-- A result of the lane's instruction with latency `lat` (R36). -/
def Lane.result (l : Lane) (lat : Nat) (d : Dst) (act : Mask) (data : Tile) (bs : Mask) (fl : Flags) : Pending :=
  ⟨l.gr.pos + lat / 4, l.gr.pos, d, act, data, bs, fl⟩

/-- The lane's group with the results of an instruction whose elements are `vals`: to tile `vd`, or to its pair (R203). -/
def Lane.withTile (l : Lane) (lat : Nat) (wide : Bool) (vd : Nat) (act : Mask) (vals : List W64) (fl : Flags) : Group :=
  { l.gr with pend := l.gr.pend ++ l.result lat (l.dst vd) act (vals.map fun v => v.setWidth 32) 0 fl ::
    if wide then [l.result lat (l.dst (vd + 1)) act (vals.map fun v => v.extractLsb' 32 32) 0 0] else [] }

/-- The lane's group with the result of an instruction that writes mask `md`. -/
def Lane.withMask (l : Lane) (lat md : Nat) (act bs : Mask) (fl : Flags) : Group :=
  { l.gr with pend := l.gr.pend ++ [l.result lat (l.maskDst md) act [] bs fl] }

/-- Every sub-element of width `w` of `vals` is what `op` gives for that sub-element of three sources, and `fl` is the OR of the flags that it
gives on the active elements (R95, R112, R204). -/
def Elementwise (w : Nat) (act : Mask) (op : Nat → Nat → Nat → Nat × Flags) (a b c vals : List W64) (fl : Flags) : Prop :=
  let at_ (i j : Nat) : Nat × Flags := op (subAt w j (a.getD i 0)) (subAt w j (b.getD i 0)) (subAt w j (c.getD i 0))
  vals.length = 1024 ∧ (∀ i < 1024, ∀ j < perElem w, subAt w j (vals.getD i 0) = (at_ i j).1 % 2 ^ w) ∧
    ∀ k, fl.getLsbD k = true ↔ ∃ i < 1024, ∃ j < perElem w, act.getLsbD i = true ∧ (at_ i j).2.getLsbD k = true

/-- Every lane instruction of the fields `f` whose issue R33 and R37 govern, with its length in words. -/
def laneInstrs (f : LaneW) (m : MemW) (x : BitVec 32) : List (Instr × Nat) :=
  (([.vadd f, .vsub f, .vmul f, .vmulh f, .vmad f, .vand f, .vor f, .vxor f, .vshl f, .vshr f, .vsra f, .vmin f, .vmax f, .vabs f, .vneg f,
    .vclz f, .vpopc f, .vsel f, .vmov f, .viota f, .vcmp f, .vavg f, .vsad f, .frcpa f, .vcvt f, .vhist f, .vqnt f, .vdq f, .rrot f, .crot f,
    .rbc f, .cbc f, .rred f, .cred f, .rprm f, .trn16 f, .vshuf f, .mand f, .mor f, .mxor f, .mnot f, .mcnt f, .mrow f, .show f, .showx f,
    .vfence f, .laneBari f, .laneBara f, .laneBarw f, .plk f, .ptag f, .pinv f] : List Instr) ++
    [FFmt.f32, .f16, .bf16].flatMap fun fm =>
      ([.fadd fm f, .fsub fm f, .fmul fm f, .ffma fm f, .fmin fm f, .fmax fm f, .fabs fm f, .fneg fm f, .frcp fm f, .frsq fm f, .fexp2 fm f,
       .flog2 fm f, .fcmp fm f] : List Instr)).map (fun i => (i, 2)) ++
  ([.vli f x, .vld f m, .vst f m, .vldt f m, .vstt f m, .vatom f m, .vcas f m, .pld f m, .pst f m, .vldb f m] : List Instr).map fun i => (i, 3)

/-! ### Floats by their fields (R88, R89) -/

/-- The exponent and mantissa bits of FP32, FP16 and BF16, type codes 8 to 10. -/
def floatFields (ty : Nat) : Nat × Nat := match ty with | 9 => (5, 10) | 10 => (8, 7) | _ => (8, 23)
/-- The code of ±∞: an exponent of ones and no mantissa. -/
def floatInf (ty : Nat) (neg : Bool) : Nat :=
  let (eb, mb) := floatFields ty
  (2 ^ eb - 1) * 2 ^ mb + if neg then 2 ^ (eb + mb) else 0
/-- The code of ±0. -/
def floatZero (ty : Nat) (neg : Bool) : Nat := let (eb, mb) := floatFields ty; if neg then 2 ^ (eb + mb) else 0
/-- The code of the largest finite magnitude, with a sign. -/
def floatBig (ty : Nat) (neg : Bool) : Nat := floatInf ty neg - 1
/-- The canonical NaN: only the top mantissa bit. -/
def floatNan (ty : Nat) : Nat := floatInf ty false + 2 ^ ((floatFields ty).2 - 1)
/-- A code with an exponent of ones and a mantissa that is not 0. -/
def isFloatNan (ty v : Nat) : Prop :=
  let (eb, mb) := floatFields ty
  v / 2 ^ mb % 2 ^ eb = 2 ^ eb - 1 ∧ v % 2 ^ mb ≠ 0
/-- A signalling NaN: its top mantissa bit is 0. -/
def isFloatSnan (ty v : Nat) : Prop := isFloatNan ty v ∧ v.testBit ((floatFields ty).2 - 1) = false
/-- The sign bit. -/
def floatNeg (ty v : Nat) : Bool := let (eb, mb) := floatFields ty; v.testBit (eb + mb)

/-- Invalid, and nothing else, is raised where `c` holds. -/
def InvalidIff (fl : Flags) (c : Prop) : Prop := (c → fl = fInvalid) ∧ (¬c → fl = 0)

/-! ### Matrix streams -/

/-- The served stream runs, no MMA of it waits for its retirement, and no failed GATH of it has its fault still to come (R258, R266, R267). -/
structure StreamReady (s : State) (m : Mx) : Prop where
  cur   : s.cur = .stream m.ref
  here  : s.mxOf m.ref = some m
  idle  : m.tm.stream.mma = none
  clean : m.tm.stream.gathFaults = []

/-- The stream stands behind its instruction of `w` words; besides, its team is `tm`, and other teams are as they were. -/
structure StreamDone (s t : State) (m : Mx) (w : Nat) (tm : Team) : Prop where
  team   : t.team? m.ref = some { tm with
    stream := { tm.stream with pc := nextOf m.line tm.stream.pc w } }
  others : otherTeams s t m.ref

/-! ### Teams -/

/-- A team of launch `l` has started at `r` as `w` describes it, with TEAM number `num`: its threads stand at its entry with X1 to X4 and their
segments, its group indexes are unset, and its hand holds no copy that is older than its start (R159, R193, R285, R317). -/
structure TeamStarted (s t : State) (r : TeamRef) (w : Waiting) (l : Launch) (num : Nat) : Prop where
  number  : ∀ n, w.teamNo = some n → num = n
  team    : ∃ m, t.team? r = some m ∧ m.ctx = w.ctx ∧ m.launch = w.launch ∧ m.img = w.img ∧ m.teamNo = BitVec.ofNat 32 num ∧
    m.gridpos = w.gridpos ∧ m.wgt = w.wgt ∧ m.wroot = w.wroot ∧ m.evstack = w.evstack ∧ m.ending = (rolesOf l.lrec).isEmpty
  others  : otherTeams s t r
  threads : ∀ q ∈ rolesOf l.lrec, ∃ b, t.thread? ⟨r.hand, r.slot, q⟩ = some b ∧ b.img = w.img ∧ b.pc = w.entry ∧ b.wait = .none ∧ b.depth = 0 ∧
    b.entering = true ∧ b.fpx = 0 ∧ b.fpxmask = 0 ∧ b.gseg = l.gseg ∧ b.pseg = l.pseg ∧ b.kseg = l.kseg ∧ b.lseg = privateSeg l num q ∧
    b.esave = (l.esave + BitVec.ofNat 64 (512 * (4 * num + q))) &&& ~~~63 ∧
    ∀ n : R5, b.rx n = if 1 ≤ n.toNat ∧ n.toNat ≤ 4 then w.x.getD (n.toNat - 1) 0 else 0
  groups  : ∀ q ∈ rolesOf l.lrec, ∀ i < 16, ∃ g, t.group? ⟨r.hand, r.slot, q, i⟩ = some g ∧ g.state = .unset ∧
    g.lseg = privateSeg l num (4 + 16 * q + i)
  bytes   : l.started = true ∨ (∀ x, s.ctx? l.ctx = some x → x.ckptValid = false) → NoStore s t
  fresh   : r.hand < 256 → acquiredAt t r.hand 3

/-! ### Memory -/

/-- Device and host memory are in their canonical form, and every cached line is whole. -/
def MemOk (s : State) : Prop := Memory.wf s.mem ∧ Memory.wf s.hostMem ∧ CachesOk s

end Sys2Proof.Machine
end

