-- ==== Sys2Proof/Certificates/Slice0/Obligations.lean ====
section
/-! DEFINITION. The statements for the provers, one per obligation. -/

open Sys2Proof Sys2Proof.Machine

/-! ### Encoding and fetching (R48-R51, R71-R77, R83) -/

/-- R76. The length of an instruction follows from word 0 alone; op or major 0 is NOP, whose other bits are reserved except in the lane
group, where n is not. -/
def Obligations.InstructionLengths : Prop :=
  (∀ w : W32,
    (instrWords .cc w = if w.toNat < 0x30 * 2 ^ 26 then 1 else 2) ∧
    (instrWords .lane w = if w.toNat < 2 ^ 24 then 1 else if w.toNat < 0xC0 * 2 ^ 24 then 2 else 3) ∧
    (instrWords .matrix w = if w.toNat < 2 ^ 24 then 1 else 2) ∧
    (instrWords .copy w = if w.toNat < 2 ^ 24 then 1 else if w.toNat < 0x80 * 2 ^ 24 then 2 else 3)) ∧
  ∀ (w : W32) (edis : W64),
    (w.toNat < 2 ^ 26 → decodeFate .cc edis [w] = if w = 0 then .run .nop else .emulate .reservedField (some .nop)) ∧
    (w.toNat < 2 ^ 24 → decodeFate .matrix edis [w] = if w = 0 then .run .matrixNop else .emulate .reservedField (some .matrixNop)) ∧
    (w.toNat < 2 ^ 24 → decodeFate .copy edis [w] = if w = 0 then .run .copyNop else .emulate .reservedField (some .copyNop)) ∧
    (w.toNat < 2 ^ 6 → decodeFate .lane edis [w] = .run (.laneNop (BitVec.ofNat 6 w.toNat)))

/-- The worked encodings of the spec decode to the instructions they stand for. -/
def Obligations.WorkedEncodings : Prop :=
  decode .cc [0x04642801] = some (.add 3 4 5) ∧
  decode .cc [0x0CA80001] = some (.deal 5 8) ∧
  decode .cc [0x0D031803] = some (.spop 8 3 3) ∧
  decode .cc [0x14A00056] = some (.mfs 5 0x56) ∧
  decode .cc [0x20600304] = some (.barw 3 3) ∧
  decode .cc [0xC1800000, 0x00010000] = some (.li 12 0x000100000000) ∧
  decode .lane [0x0110503D, 0x38002230] = some (.vadd ⟨4, 5, 0, 61, 3, 1, 0, 0, 0, 2, 2, 0, 1, 2, 0⟩) ∧
  decode .lane [0xC0204000, 0x04000200, 0x4000] = some (.vld ⟨8, 4, 0, 0, 0, 0, 1, 0, 0, 0, 2, 0, 0, 0, 0⟩ ⟨0x40, 0, 0, 0⟩) ∧
  decode .matrix [0x01102000, 0] = some (.mma ⟨2, 0, 1, 0, 0, 0, 0, 0, 0, 0, 0, 0⟩) ∧
  decode .copy [0x82040000, 0x20, 2] = some (.cpToring ⟨4, 0, 0, 0, 0, 0, 0x20⟩ 2)

/-- Decode and encode agree: the encoder gives every well-formed instruction of the table the number of words that its word 0 says, and
decoding those words gives the instruction back, or, where EDIS disables its class and it is not retired, the cause disabled with it. -/
def Obligations.DecodeEncode : Prop :=
  ∀ (i : Instr) (e : Engine) (ws : List W32) (edis : W64), encode i = some (e, ws) → i.wf = true →
    ws.length = instrWords e (ws.getD 0 0) ∧
      decodeFate e edis ws = if i.retired = false ∧ i.disabledBy edis = true then .emulate .disabled (some i) else .run i

/-- Each word has one meaning: an instruction that is not retired decodes only from the words that the encoder gives it, so no bit of an
encoding is dropped and no reserved bit is passed over. -/
def Obligations.EncodeDecode : Prop :=
  ∀ (e : Engine) (ws : List W32) (edis : W64) (i : Instr), ws.length = instrWords e (ws.getD 0 0) →
    decodeFate e edis ws = .run i → i.retired = false → encode i = some (e, ws)

/-- R72, R86. The order of the checks of decode after the length: an unassigned encoding is undefined whatever EDIS holds, a retired one
goes to its own meaning whatever else it holds, a disabled one is disabled even where a field is reserved, and a reserved field or code
of any other is reserved-field. -/
def Obligations.DecodeOrder : Prop :=
  ∀ (e : Engine) (ws : List W32) (edis : W64),
    (decodeRaw e ws = none → decodeFate e edis ws = .emulate .undefined none) ∧
    ∀ i z, decodeRaw e ws = some (i, z) →
      let off : Prop := i.disabledBy edis = true ∨ (edis.getLsbD 0 = true ∧ namesDm i (ws.getD 0 0) = true)
      (i.retired = true → decodeFate e edis ws = .run i) ∧
      (i.retired = false → off → decodeFate e edis ws = .emulate .disabled (some i)) ∧
      (i.retired = false → ¬off → (z = false ∨ i.wf = false) → decodeFate e edis ws = .emulate .reservedField (some i))

/-- A step of a control thread runs the instruction at its pc: where the words there decode to an instruction, the step is exec of it in
the state that serves the thread (the agenda's turn taken, the clock on by one, a starting team's entry begun); under a debug step the
stop of R356 follows it. Then the hands keep which thread was served, and no YIELD waits for its slot any more (R199). A thread that stands
at an instruction and whose decode slot is another's (R46) changes nothing; a turn that needs no slot goes to its thread at once (log entry
1: the agenda and what a slot is are the model's). -/
def Obligations.StepRunsThread : Prop :=
  (∀ (s : State) (rest : List Turn) (t : ThreadRef), Serves s (.thread t) rest →
    let u := s.turn rest (.thread t)
    (usesSlot u t = true → threadDue u t = false → step s = .next u) ∧
    (usesSlot u t = false → step s = Res.andThen (threadTurn u t) (account u (.thread t)))) ∧
  (∀ (s : State) (t q : ThreadRef),
    { hadSlot s t with threads := s.threads } = s ∧
      ((hadSlot s t).thread? q).map (fun th => { th with yields := [] }) = (s.thread? q).map fun th => { th with yields := [] }) ∧
  ∀ (s : State) (rest : List Turn) (t : ThreadRef) (k : Core) (ws : List W32) (i : Instr),
    Serves s (.thread t) rest → threadDue (s.turn rest (.thread t)) t = true → ThreadReady s t k →
    EntryAt (s.turn rest (.thread t)) t.hand k.tm.ctx k.th.img k.th.pc .cc ws →
    (k.th.entering = true → ∀ l, lineOf s t.hand k.tm.ctx k.th.img (k.th.pc / 16) = some l → lineEntry l = true) →
    decodeFate .cc (edisOf s k.ctx) ws = .run i →
      let u := s.turn rest (.thread t)
      let then_ (x : State) : State := hadSlot (account u (.thread t) x) t
      step s = Res.andThen (Res.andThen (exec i (u.begun t k.th)) (stepStop u t false)) then_ ∧
      (k.th.stepping = false → step s = Res.andThen (exec i (u.begun t k.th)) then_)

/-- A step of a group, of a stream or of a chain runs the entry at its place: where the words there decode to an instruction, the step is
exec of it in the state that serves the agent; then the hands keep whose turn it was.
A step takes the next event of the agenda and runs it, wherever the device has power; with the rails off, or PERST# asserted, only the
Collar's own events have an effect (log entry 1: the agenda is the model's).
What the hands keep of a step is the thread and the groups served last and the pending groups that are ready, and nothing else. -/
def Obligations.StepRunsOthers : Prop :=
  (∀ (s : State) (rest : List Turn) (g : GroupRef) (l : Lane) (ws : List W32) (i : Instr),
    Serves s (.group g) rest → groupDue (s.turn rest (.group g)) g = true → handRuns s g.hand = true → runningLane s g = some l →
    l.gr.waitBar = none → deferredHere s l = none → l.run.atEnd = false → l.gr.stepping = false →
    EntryAt (s.turn rest (.group g)) g.hand l.tm.ctx l.run.deal.img l.run.pc .lane ws → decodeFate .lane l.run.edis ws = .run i →
      step s = Res.andThen (exec i (s.turn rest (.group g))) (account (s.turn rest (.group g)) (.group g))) ∧
  (∀ (s : State) (rest : List Turn) (t : TeamRef) (m : Mx) (ws : List W32) (i : Instr),
    Serves s (.stream t) rest → s.mxOf t = some m → streamFree s t = true → streamWaits m.th = false →
    m.tm.stream.mma = none → m.tm.stream.waitBar = none → m.tm.stream.waitHadv = none →
    EntryAt (s.turn rest (.stream t)) t.hand m.tm.ctx m.tm.stream.img m.tm.stream.pc .matrix ws → decodeFate .matrix m.tm.stream.edis ws = .run i →
    yieldsMma (s.turn rest (.stream t)) t i = false →
      step s = Res.andThen (exec i (s.turn rest (.stream t))) (account (s.turn rest (.stream t)) (.stream t))) ∧
  (∀ (s : State) (rest : List Turn) (h : Nat) (bulk : Bool) (n : Nat) (x : Copy) (c : Chain) (ws : List W32) (i : Instr),
    Serves s (.copy h bulk n) rest → handRuns s h = true → copyOf? s h bulk n = some x →
    copyMay s h bulk x = true → x.chain = some c → x.cmd = none → c.fresh = false →
    EntryAt (s.turn rest (.copy h bulk n)) h x.ctx x.img c.pc .copy ws → decodeFate .copy x.edis ws = .run i →
      step s = Res.andThen (exec i (s.turn rest (.copy h bulk n))) (account (s.turn rest (.copy h bulk n)) (.copy h bulk n))) ∧
  (∀ (s : State) (rest : List Turn) (i : Instr), s.agenda = .event i :: rest →
      (powered s = true ∨ collarEvent i = true → (∀ p ∈ s.threads, p.2.stepping = false) →
        step s = Res.andThen (exec i (s.turn rest .device)) (account (s.turn rest .device) .device)) ∧
      (powered s = false → collarEvent i = false → step s = .next (s.turn rest .device))) ∧
  ∀ (s t : State) (a : Agent), { account s a t with hands := t.hands } = t ∧
    ∀ h, { (account s a t).hand h with lastThread := (t.hand h).lastThread, lastLane := (t.hand h).lastLane, ready := (t.hand h).ready } = t.hand h

/-- R49-R51, R71. What a control thread finds where no instruction runs: the rest of a line that is fill is passed to the line that the
link word names, or to the end of the chain; a chain that has ended is CHAIN_END; an encoding that decode turns away is its cause; an
instruction that would pass slot 15 is undefined; a line of another engine, past the image's line count, or without ENTRY where a team
starts, is IMAGE_LINK. -/
def Obligations.FetchOutcomes : Prop :=
  ∀ (s : State) (rest : List Turn) (t : ThreadRef) (k : Core) (im : Image) (l : List Byte),
    Serves s (.thread t) rest → threadDue (s.turn rest (.thread t)) t = true → ThreadReady s t k →
    let u := s.turn rest (.thread t)
    let v := u.begun t k.th
    let ends (x : State) : Prop := step s = .next (hadSlot (account u (.thread t) x) t)
    (k.th.pc % 16 = 0 → ends (threadFault u k .chainEnd 0 0 0)) ∧
    (k.th.pc % 16 ≠ 0 → imageOf s k.tm.ctx k.th.img = some im → im.lines ≤ k.th.pc / 16 →
      ends (threadFault u k .imageLink 0 (BitVec.ofNat 64 (k.th.pc / 16)) 0)) ∧
    (k.th.pc % 16 ≠ 0 → imageOf s k.tm.ctx k.th.img = some im → k.th.pc / 16 < im.lines → Relocated u t.hand k.tm.ctx k.th.img →
      lineOf s t.hand k.tm.ctx k.th.img (k.th.pc / 16) = some l →
      (lineEngine l ≠ 0 ∨ (k.th.entering = true ∧ lineEntry l = false) →
        ends (threadFault u k .imageLink 0 (BitVec.ofNat 64 (k.th.pc / 16)) 0)) ∧
      (lineEngine l = 0 → (k.th.entering = true → lineEntry l = true) →
        (isFill l (k.th.pc % 16) = true →
          ends (v.updThread t fun th => { th with pc := if lineEnd l then k.th.pc / 16 * 16 else lineNext l * 16 + 1 })) ∧
        (isFill l (k.th.pc % 16) = false →
          let n := instrWords .cc (lineWord l (k.th.pc % 16))
          (16 < k.th.pc % 16 + n →
            ends (threadCause v k .undefined (lineWords l (k.th.pc % 16) (16 - k.th.pc % 16)) none)) ∧
          (k.th.pc % 16 + n ≤ 16 → ∀ c i, decodeFate .cc (edisOf s k.ctx) (lineWords l (k.th.pc % 16) n) = .emulate c i →
            ends (threadCause v k c (lineWords l (k.th.pc % 16) n) i)))))

/-! ### Reset, and the memories' canonical form -/

/-- After reset no team, thread, group, context, launch or queue exists; every hand's memories are clear, every die is ONLINE with epoch 1;
the functions' registers are 0; every sector is VAL and no unit poisoned; the device is outside a Weave domain; the Collar's measurement
registers and log are empty. -/
def Obligations.ResetState : Prop :=
  let s := State.reset
  (s.teams = [] ∧ s.threads = [] ∧ s.groups = [] ∧ s.ctxs = [] ∧ s.launches = [] ∧ s.waiting = [] ∧ s.queues = [] ∧ s.locks = []) ∧
  (∀ h, (s.hand h).scratch = [] ∧ (s.hand h).tiles = [] ∧ (s.hand h).deque = [] ∧ (s.hand h).imem = [] ∧ (s.hand h).near = [] ∧
    (s.hand h).bulk = [] ∧ (s.hand h).gather = [] ∧ (s.hand h).tlb = []) ∧
  (∀ d, (s.die d).state = .online ∧ (s.die d).epoch = 1 ∧ (s.die d).bins = [] ∧ (s.die d).tlb = []) ∧
  (∀ f, (s.fn f).cmdBase = 0 ∧ (s.fn f).cmdSize = 0 ∧ (s.fn f).cmdWi = 0 ∧ (s.fn f).cmdRi = 0 ∧ (s.fn f).evBase = 0 ∧
    (s.fn f).evSize = 0 ∧ (s.fn f).evWi = 0 ∧ (s.fn f).evRi = 0 ∧ (s.fn f).ctxBase = 0 ∧ (s.fn f).qtBase = 0) ∧
  (∀ a, tagAt s a = 0) ∧ s.poison = [] ∧ s.caches = [] ∧ s.granules = [] ∧ s.weave.devNum = none ∧ s.weave.exports = [] ∧
  s.collar.mr = [] ∧ s.collar.log = [] ∧ s.collar.nextLog = 1

/-- The memories are in canonical form after reset. -/
def Obligations.ResetMemOk : Prop := MemOk State.reset

/-- Every step keeps the memories in canonical form: addresses strictly rising, no entry equal to what an unlisted address reads as. -/
def Obligations.StepKeepsMemOk : Prop := ∀ s t : State, MemOk s → step s = .next t → MemOk t

/-! ### Control core: integer instructions, branches and jumps (R174-R181) -/

/-- R174, R175. Every register-register operation answers a next state in which X[d] holds the result of R174's table on integers, with the
boundary cases of R175; the thread goes on at next and nothing else changes. -/
def Obligations.RegisterOperations : Prop :=
  ∀ (s : State) (k : Core) (d a b : R5), s.core = some k →
    let x := k.th.rx a
    let y := k.th.rx b
    let gives (i : Instr) (v : W64) : Prop := ∃ t, exec i s = .next t ∧ RetiredAlone s t k (k.next 1) [(d, v)]
    gives (.add d a b) (BitVec.ofNat 64 (x.toNat + y.toNat)) ∧
    gives (.sub d a b) (BitVec.ofInt 64 (x.toInt - y.toInt)) ∧
    gives (.mul d a b) (BitVec.ofNat 64 (x.toNat * y.toNat)) ∧
    gives (.mulh d a b) (BitVec.ofInt 64 (x.toInt * y.toInt / 2 ^ 64)) ∧
    gives (.mulhn d a b) (BitVec.ofNat 64 (x.toNat * y.toNat / 2 ^ 64)) ∧
    gives (.div d a b) (if y = 0 then BitVec.allOnes 64 else BitVec.ofInt 64 (x.toInt.tdiv y.toInt)) ∧
    gives (.divn d a b) (if y = 0 then BitVec.allOnes 64 else BitVec.ofNat 64 (x.toNat / y.toNat)) ∧
    gives (.rem d a b) (if y = 0 then x else BitVec.ofInt 64 (x.toInt.tmod y.toInt)) ∧
    gives (.remn d a b) (if y = 0 then x else BitVec.ofNat 64 (x.toNat % y.toNat)) ∧
    gives (.and d a b) (x &&& y) ∧
    gives (.or d a b) (x ||| y) ∧
    gives (.xor d a b) (x ^^^ y) ∧
    gives (.shl d a b) (BitVec.ofNat 64 (x.toNat * 2 ^ (y.toNat % 64))) ∧
    gives (.shr d a b) (BitVec.ofNat 64 (x.toNat / 2 ^ (y.toNat % 64))) ∧
    gives (.sra d a b) (BitVec.ofInt 64 (x.toInt / 2 ^ (y.toNat % 64))) ∧
    gives (.min d a b) (if x.toInt ≤ y.toInt then x else y) ∧
    gives (.max d a b) (if x.toInt ≤ y.toInt then y else x) ∧
    gives (.minn d a b) (if x.toNat ≤ y.toNat then x else y) ∧
    gives (.maxn d a b) (if x.toNat ≤ y.toNat then y else x) ∧
    gives (.seq d a b) (if x = y then 1 else 0) ∧
    gives (.sne d a b) (if x = y then 0 else 1) ∧
    gives (.slt d a b) (if x.toInt < y.toInt then 1 else 0) ∧
    gives (.sltn d a b) (if x.toNat < y.toNat then 1 else 0) ∧
    gives (.clz d a) (BitVec.ofNat 64 (if x = 0 then 64 else 63 - x.toNat.log2)) ∧
    gives (.popc d a) (BitVec.ofNat 64 ((List.range 64).map fun i => x.toNat / 2 ^ i % 2).sum)

/-- R176-R178. The immediate operations, SEL, BFX, BFI, LI, ADDPC and NOP answer a next state in which X[d] holds their result (a field of
BFX or BFI that passes bit 63 is reserved-field and never reaches the meaning); the thread goes on at next and nothing else changes.
R86, R292. The retired BREV and LOOPZ raise the cause retired, which waits for the handler; where the context names no handler table and
the thread runs no handler and owes none, the library's default acts at once: BREV reverses the 64 bits of X[a]; LOOPZ subtracts 1 from
X[a] and branches where the result is not 0. -/
def Obligations.ImmediateOperations : Prop :=
  (∀ (s : State) (k : Core) (d a b c : R5) (imm : BitVec 16) (sh wd p : BitVec 6) (big : BitVec 48), s.core = some k →
      let x := k.th.rx a
      let gives (i : Instr) (w : Nat) (v : W64) : Prop := ∃ t, exec i s = .next t ∧ RetiredAlone s t k (k.next w) [(d, v)]
      let field := x.toNat / 2 ^ p.toNat % 2 ^ (wd.toNat + 1)
      gives (.addi d a imm) 1 (BitVec.ofInt 64 (x.toInt + imm.toInt)) ∧
      gives (.andi d a imm) 1 (BitVec.ofNat 64 (x.toNat &&& imm.toNat)) ∧
      gives (.ori d a imm) 1 (BitVec.ofNat 64 (x.toNat ||| imm.toNat)) ∧
      gives (.xori d a imm) 1 (BitVec.ofNat 64 (x.toNat ^^^ imm.toNat)) ∧
      gives (.slti d a imm) 1 (if x.toInt < imm.toInt then 1 else 0) ∧
      gives (.shli d a sh) 1 (BitVec.ofNat 64 (x.toNat * 2 ^ sh.toNat)) ∧
      gives (.shri d a sh) 1 (BitVec.ofNat 64 (x.toNat / 2 ^ sh.toNat)) ∧
      gives (.srai d a sh) 1 (BitVec.ofInt 64 (x.toInt / 2 ^ sh.toNat)) ∧
      gives (.sel d a b c) 1 (if k.th.rx c = 0 then k.th.rx b else x) ∧
      gives (.li d big) 2 (BitVec.ofInt 64 big.toInt) ∧
      gives (.addpc d big) 2 (BitVec.ofInt 64 (k.th.pc + big.toInt)) ∧
      (∃ t, exec .nop s = .next t ∧ RetiredAlone s t k (k.next 1) []) ∧
      (p.toNat + wd.toNat + 1 ≤ 64 →
        gives (.bfx d a 0 wd p) 1 (BitVec.ofNat 64 field) ∧
        gives (.bfx d a 1 wd p) 1 (BitVec.ofInt 64 (if field < 2 ^ wd.toNat then field else (field : Int) - 2 ^ (wd.toNat + 1))) ∧
        ∃ v, gives (.bfi d a wd p) 1 v ∧
          ∀ i < 64, v.getLsbD i = if p.toNat ≤ i ∧ i < p.toNat + wd.toNat + 1 then x.getLsbD (i - p.toNat) else (k.th.rx d).getLsbD i)) ∧
  (∀ (s u : State) (k : Core) (d a : R5) (p : BitVec 12) (sl : BitVec 4), s.core = some k →
      (k.ctx.eht.toNat < 64 → k.th.causes = [] → k.th.depth = 0 →
        (∃ t v, exec (.brev d a 0) s = .next t ∧ RetiredAlone s t k (k.next 1) [(d, v)] ∧
          ∀ i < 64, v.getLsbD i = (k.th.rx a).getLsbD (63 - i)) ∧
        (k.th.rx a = 1 → ∃ t, exec (.loopz a 0 p sl) s = .next t ∧ RetiredAlone s t k (k.next 1) [(a, 0)]) ∧
        (k.th.rx a ≠ 1 →
          let tgt : W64 := BitVec.ofInt 64 (((k.th.pc / 16 : Nat) + p.toInt) * 16 + sl.toNat)
          checkTarget s k.ref.hand k.tm.ctx k.th.img .cc false tgt = (u, .ok) →
            ∃ t, exec (.loopz a 0 p sl) s = .next t ∧ RetiredAlone u t k tgt.toNat [(a, k.th.rx a - 1)])) ∧
      (64 ≤ k.ctx.eht.toNat → ∀ i ∈ [Instr.brev d a 0, Instr.loopz a 0 p sl],
        exec i s = .next (threadCause s k .retired (wordsOf i) (some i))))

/-- R179, R60. A conditional branch whose condition fails goes on at next, whatever its target; one whose condition holds goes to
(line + displacement) × 16 + slot once that target passes its checks. Nothing but the pc changes. -/
def Obligations.ConditionalBranches : Prop :=
  ∀ (s u : State) (k : Core) (a b : R5) (p : BitVec 12) (sl : BitVec 4), s.core = some k →
    let x := k.th.rx a
    let y := k.th.rx b
    let tgt : W64 := BitVec.ofInt 64 (((k.th.pc / 16 : Nat) + p.toInt) * 16 + sl.toNat)
    let branches (i : Instr) (c : Prop) : Prop :=
      (¬c → ∃ t, exec i s = .next t ∧ RetiredAlone s t k (k.next 1) []) ∧
      (c → checkTarget s k.ref.hand k.tm.ctx k.th.img .cc false tgt = (u, .ok) →
        ∃ t, exec i s = .next t ∧ RetiredAlone u t k tgt.toNat [])
    branches (.bz a p sl) (x = 0) ∧ branches (.bnz a p sl) (x ≠ 0) ∧ branches (.beq a b p sl) (x = y) ∧
    branches (.bne a b p sl) (x ≠ y) ∧ branches (.blt a b p sl) (x.toInt < y.toInt) ∧ branches (.bge a b p sl) (y.toInt ≤ x.toInt) ∧
    branches (.bltn a b p sl) (x.toNat < y.toNat) ∧ branches (.bgen a b p sl) (y.toNat ≤ x.toNat)

/-- R180, R181, R60, R85, R300. The jumps go to their target once it passes its checks: J and JAL to (line + displacement) × 16 + slot,
JALR and JR to X[a] + imm, read before a link is written; JAL and JALR link next. JR is deprecated: DEPCNT rises by 1 (DEPLIM 0 here). JTAB
with an index below its length goes to the 32-bit entry that it loads from constant space.
R60, R181. A target of 2³⁰ or more, or one whose slot is 0, is BAD_TARGET, and JTAB's index at or above its length is JUMP_RANGE: the
thread stops at the instruction with its state unchanged, and a record is posted with the target, or with the index and the length. -/
def Obligations.Jumps : Prop :=
  (∀ (s u : State) (k : Core) (d a : R5) (imm : BitVec 16) (sl : BitVec 4), s.core = some k →
      let passes (v : State) (tgt : W64) : Prop := checkTarget v k.ref.hand k.tm.ctx k.th.img .cc false tgt = (u, .ok)
      let goes (i : Instr) (tgt : W64) (ds : List (R5 × W64)) : Prop := ∃ t, exec i s = .next t ∧ RetiredAlone u t k tgt.toNat ds
      let rel (disp : Int) : W64 := BitVec.ofInt 64 (((k.th.pc / 16 : Nat) + disp) * 16 + sl.toNat)
      let ind : W64 := BitVec.ofInt 64 ((k.th.rx a).toInt + imm.toInt)
      (∀ p : BitVec 22, passes s (rel p.toInt) → goes (.j p sl) (rel p.toInt) []) ∧
      (∀ p : BitVec 17, passes s (rel p.toInt) → goes (.jal d p sl) (rel p.toInt) [(d, BitVec.ofNat 64 (k.next 1))]) ∧
      (passes s ind → goes (.jalr d a imm) ind [(d, BitVec.ofNat 64 (k.next 1))]) ∧
      (passes s ind → ∀ x, u.ctx? k.tm.ctx = some x → x.deplim = 0 →
        ∃ t, exec (.jr a imm) s = .next t ∧ Retired u t k ind.toNat [] ∧ t.ctx? k.tm.ctx = some { x with depcnt := x.depcnt + 1 } ∧
          otherCtxs u t k.tm.ctx ∧ { t with threads := u.threads, ctxs := u.ctxs } = u) ∧
      (∀ (s₁ s₂ : State) (g : Tgt) (bs : List Byte), (∀ pa b, k.th.wait ≠ .cellDone pa b) →
        (∀ pa c q, k.th.wait ≠ .cellFailed pa c q) → (k.th.rx a).toNat < imm.toNat →
        let ofs := k.th.rx d + 4 * k.th.rx a
        ofs.toNat % 4 = 0 → checkAccess s k.actor .load 2 0 4 4 k.edis6 ofs true = (s₁, .ok g) →
        copyHolds s₁ g 4 = false → drainForStop s₁ k g 4 = none →
        loadTgt (drainFor s₁ k g 4) k.actor g ofs 4 2 0 0 0 = (s₂, .bytes bs) → ofBytes bs < 2 ^ 30 →
        passes s₂ (BitVec.ofNat 64 (ofBytes bs)) → goes (.jtab d a imm) (BitVec.ofNat 64 (ofBytes bs)) [])) ∧
  (∀ (s : State) (k : Core) (d a : R5) (imm : BitVec 16) (sl : BitVec 4), s.core = some k →
      let bad (tgt : W64) : Prop := 2 ^ 30 ≤ tgt.toNat ∨ tgt.toNat % 16 = 0
      let faults (i : Instr) (c : FaultCode) (d₁ d₂ : W64) : Prop :=
        exec i s = .next (threadFault s k c 0 d₁ d₂) ∧ ThreadFaulted s (threadFault s k c 0 d₁ d₂) k c
      let rel (disp : Int) : W64 := BitVec.ofInt 64 (((k.th.pc / 16 : Nat) + disp) * 16 + sl.toNat)
      let ind : W64 := BitVec.ofInt 64 ((k.th.rx a).toInt + imm.toInt)
      (∀ p : BitVec 22, bad (rel p.toInt) → faults (.j p sl) .badTarget (rel p.toInt) 0) ∧
      (∀ p : BitVec 17, bad (rel p.toInt) → faults (.jal d p sl) .badTarget (rel p.toInt) 0) ∧
      (bad ind → faults (.jalr d a imm) .badTarget ind 0 ∧ faults (.jr a imm) .badTarget ind 0) ∧
      (imm.toNat ≤ (k.th.rx a).toNat → faults (.jtab d a imm) .jumpRange (k.th.rx a) (BitVec.ofNat 64 imm.toNat)))

/-! ### System registers, traps, checkpoints, segments (R240, R263, R283-R291) -/

/-- R284-R287. MFS of an assigned register writes its value to X[d], reserved bits 0, and changes nothing else; the handler registers are
readable only while the thread runs a handler. -/
def Obligations.SystemRegisterReads : Prop :=
  ∀ (s : State) (k : Core) (d : R5), s.core = some k →
    let gives (n : BitVec 16) (v : W64) : Prop := ∃ t, exec (.mfs d n) s = .next t ∧ RetiredAlone s t k (k.next 1) [(d, v)]
    gives 0x00 (BitVec.ofNat 64 k.ref.role) ∧ gives 0x01 (BitVec.ofNat 64 k.tm.teamNo.toNat) ∧
    gives 0x02 (BitVec.ofNat 64 (k.ref.slot % 2 * 2 ^ 8 + k.ref.hand % 2 ^ 8)) ∧ gives 0x03 k.tm.gridpos ∧
    gives 0x04 (BitVec.ofNat 64 k.th.fpx.toNat) ∧ gives 0x05 (BitVec.ofNat 64 k.th.fpxmask.toNat) ∧ gives 0x06 k.tm.wgt ∧
    gives 0x07 k.tm.wroot ∧ gives 0x08 (BitVec.ofNat 64 k.tm.evstack.length) ∧
    (∀ i < 15, gives (BitVec.ofNat 16 (9 + i)) (match k.tm.evstack[i]? with | some c => BitVec.ofNat 64 c.2 | none => 0)) ∧
    gives 0x20 k.tm.tagCfg ∧ gives 0x21 k.tm.ttop ∧ gives 0x22 k.tm.ttres ∧ gives 0x23 k.tm.rgop ∧ gives 0x24 k.tm.rgres ∧
    (∀ i < 16, ∀ g, s.group? (k.ref.group i) = some g →
      gives (BitVec.ofNat 16 (0x30 + i)) (if g.state = .unset then 0 else BitVec.ofNat 64 g.fpx.toNat)) ∧
    gives 0x40 (BitVec.ofNat 64 k.tm.stream.fpx.toNat) ∧ gives 0x50 k.ctx.eht ∧ gives 0x51 k.th.esave ∧
    gives 0x52 (if s.weave.devNum = none then k.ctx.edis ||| 1 else k.ctx.edis) ∧ gives 0x53 k.ctx.depcnt ∧ gives 0x54 k.ctx.deplim ∧
    (0 < k.th.depth → gives 0x55 k.th.epc ∧ gives 0x56 k.th.eopc ∧ gives 0x57 k.th.einfo ∧ gives 0x58 k.th.exa ∧ gives 0x59 k.th.exb ∧
      gives 0x5A k.th.exd ∧ gives 0x5B k.th.egrp) ∧
    gives 0x60 (BitVec.ofNat 64 ((if k.ctx.ckptValid then 2 ^ 63 else 0) + k.ctx.ckptCount % 2 ^ 63)) ∧ gives 0x61 k.ctx.cklog ∧
    gives 0x70 k.ctx.ptroot

/-- R284-R287. MTS of a writable register, in a privileged context where the write is privileged, gives that register the value that its
Write column states and changes nothing else; on a device outside a Weave domain a 0 written to EDIS bit 0 leaves it (R83). EGRP is ignored for a lane cause, and for a matrix cause takes the index of a LIVE group (R296);
a group that the handler names for the first time starts with empty helper queues. That an index whose group is not LIVE changes nothing, and
that a group named before keeps its helper deals, are log entry 20 (DEDUCED). -/
def Obligations.SystemRegisterWrites : Prop :=
  ∀ (s : State) (k : Core) (a : R5), s.core = some k →
    let v := k.th.rx a
    let thread (n : BitVec 16) (f : Thread → Thread) : Prop := ∃ t, exec (.mts a n) s = .next t ∧ RetiredWith s t k 1 f
    let team (n : BitVec 16) (tm : Team) : Prop := ∃ t, exec (.mts a n) s = .next t ∧ RetiredTeam s t k [] tm
    let ctx (n : BitVec 16) (x : Ctx) : Prop := ∃ t, exec (.mts a n) s = .next t ∧ RetiredCtx s t k [] x
    let low6 := v.extractLsb' 0 6
    thread 0x04 (fun th => { th with fpx := low6 }) ∧ thread 0x05 (fun th => { th with fpxmask := low6 }) ∧
    team 0x40 { k.tm with stream := { k.tm.stream with fpx := low6 } } ∧
    (k.ctx.privileged = true →
      team 0x06 { k.tm with wgt := v } ∧ team 0x07 { k.tm with wroot := BitVec.ofNat 64 (v.toNat / 8 * 8) } ∧
      ctx 0x50 { k.ctx with eht := BitVec.ofNat 64 (v.toNat / 64 * 64) } ∧
      thread 0x51 (fun th => { th with esave := BitVec.ofNat 64 (v.toNat / 64 * 64) }) ∧
      ctx 0x52 { k.ctx with edis := BitVec.ofNat 64 (v.toNat % 256 ||| if s.weave.devNum = none then k.ctx.edis.toNat % 2 else 0) } ∧
      ctx 0x53 { k.ctx with depcnt := v } ∧
      ctx 0x54 { k.ctx with deplim := v } ∧ ctx 0x70 { k.ctx with ptroot := v }) ∧
    (0 < k.th.depth →
      thread 0x55 (fun th => { th with epc := v }) ∧ thread 0x58 (fun th => { th with exa := v }) ∧
      thread 0x59 (fun th => { th with exb := v }) ∧ thread 0x5A (fun th => { th with exd := v })) ∧
    (∀ i < 16, ∀ g, s.group? (k.ref.group i) = some g →
      ∀ j : Instr, (j = .mts a (BitVec.ofNat 16 (0x30 + i)) ∨ j = .gfpxWrite a (BitVec.ofNat 16 (0x30 + i))) →
        ∃ t, exec j s = .next t ∧
          RetiredGroup s t k [] (k.ref.group i) (if g.state = .unset then g else { g with fpx := low6 })) ∧
    (∃ t, exec (.gfpxWrite a 0x40) s = .next t ∧ RetiredTeam s t k [] { k.tm with stream := { k.tm.stream with fpx := low6 } }) ∧
    ∀ w ws, 0 < k.th.depth → k.th.windows = w :: ws →
      (w.cause.engine = .lane → thread 0x5B fun th => th) ∧
      (w.cause.engine = .cc ∨ w.cause.engine = .copy →
        exec (.mts a 0x5B) s = .next (threadCause s k .reservedField (wordsOf (.mts a 0x5B)) (some (.mts a 0x5B)))) ∧
      (w.cause.engine = .matrix → ∀ g, v.toNat ≤ 15 → s.group? (k.ref.group v.toNat) = some g →
        (g.state ≠ .live → thread 0x5B fun th => th) ∧
        (g.state = .live → ∃ t, exec (.mts a 0x5B) s = .next t ∧ otherGroups s t (k.ref.group v.toNat) ∧ otherThreads s t k.ref ∧
          t.group? (k.ref.group v.toNat) = some
            (if v.toNat ∈ w.groups then g else { g with hd := g.pendD, hnext := 1, hqueue := [], hshows := [] }) ∧
          t.thread? k.ref = some { k.th with
            egrp := v, pc := k.next 1, wait := .none,
            windows := { w with egrp := v, groups := if v.toNat ∈ w.groups then w.groups else w.groups ++ [v.toNat] } :: ws } ∧
          { t with threads := s.threads, groups := s.groups } = s))

/-- R283. MFS and MTS of an unassigned number, and MTS of a read-only one, raise the cause reserved-field; an MTS whose write is privileged
faults with PRIV in an unprivileged context; a handler register outside a handler faults with EMU_STATE. The first that applies decides. -/
def Obligations.SystemRegisterChecks : Prop :=
  ∀ (s : State) (k : Core) (a : R5) (n : BitVec 16), s.core = some k →
    let assigned : Prop := n.toNat ≤ 0x17 ∨ (0x20 ≤ n.toNat ∧ n.toNat ≤ 0x24) ∨ (0x30 ≤ n.toNat ∧ n.toNat ≤ 0x40) ∨
      (0x50 ≤ n.toNat ∧ n.toNat ≤ 0x5B) ∨ n = 0x60 ∨ n = 0x61 ∨ n = 0x70
    let readOnly : Prop := n.toNat ≤ 3 ∨ (8 ≤ n.toNat ∧ n.toNat ≤ 0x17) ∨ n = 0x22 ∨ n = 0x24 ∨ n = 0x56 ∨ n = 0x57 ∨ n = 0x60 ∨ n = 0x61
    let priv : Prop := n = 6 ∨ n = 7 ∨ (0x50 ≤ n.toNat ∧ n.toNat ≤ 0x54) ∨ n = 0x70
    let handler : Prop := 0x55 ≤ n.toNat ∧ n.toNat ≤ 0x5B
    (¬assigned → exec (.mfs a n) s = .next (threadCause s k .reservedField (wordsOf (.mfs a n)) (some (.mfs a n)))) ∧
    (assigned → handler → k.th.depth = 0 → exec (.mfs a n) s = .next (threadFault s k .emuState 0 (encDetail (.mfs a n)) 0)) ∧
    (¬assigned ∨ readOnly → exec (.mts a n) s = .next (threadCause s k .reservedField (wordsOf (.mts a n)) (some (.mts a n)))) ∧
    (assigned → ¬readOnly → priv → k.ctx.privileged = false →
      exec (.mts a n) s = .next (threadFault s k .priv 0 (encDetail (.mts a n)) 0)) ∧
    (assigned → ¬readOnly → handler → k.th.depth = 0 → exec (.mts a n) s = .next (threadFault s k .emuState 0 (encDetail (.mts a n)) 0))

/-- R125, R240, R263. The tag-table and ring registers: TTCFG sets base and line size and makes every entry of the team invalid; TTOP does
one tag-table operation on the address and leaves its result in TTRES (an invalid entry keeps its key and its dirty bit: log entry 28, DEDUCED); RGOP reads a valid ring's counters into RGRES, or advances its
tail, a release at .HD, where the ring has room. Each row answers as the MTS of its operand does. -/
def Obligations.TableRegisters : Prop :=
  ∀ (s : State) (k : Core) (a : R5), s.core = some k →
    let v := k.th.rx a
    let addr := v.toNat % 2 ^ 52
    let team (i : Instr) (tm : Team) : Prop := ∃ t, exec i s = .next t ∧ RetiredTeam s t k [] tm
    let cleared : Map TagEntry := k.tm.tags.map fun p => (p.1, { p.2 with valid := false })
    (v.toNat / 16 % 16 ≤ 8 → ∀ i ∈ [Instr.ttcfgWrite a, Instr.mts a 0x20],
      team i { k.tm with tags := cleared, tagCfg := BitVec.ofNat 64 (v.toNat / 2 ^ 8 % 2 ^ 14 * 2 ^ 8 + v.toNat / 2 ^ 4 % 2 ^ 4 * 2 ^ 4) }) ∧
    (v.toNat < 2 ^ 52 → v.toNat / 4 % 8 = 0 →
      let key := addr / 2 ^ tagL k.tm
      let way := tagSet k.tm key + v.toNat % 4
      let ins (dirty : Bool) : Map TagEntry :=
        (match tagFind k.tm key with
          | some m => if m = way then k.tm.tags else k.tm.tags.set m { tagAtSlot k.tm m with valid := false }
          | none => k.tm.tags).set way ⟨true, dirty, key⟩
      let op (n : Nat) (i : Instr) (m : Map TagEntry) (r : W64) : Prop :=
        v.toNat / 2 ^ 5 % 2 ^ 3 = n →
          team i { k.tm with tags := m, ttop := v, ttres := r } ∧ team (.mts a 0x21) { k.tm with tags := m, ttop := v, ttres := r }
      let old := tagWord k.tm (tagAtSlot k.tm way)
      op 0 (.ttopLookup a) k.tm.tags (match tagFind k.tm key with | some n => BitVec.ofNat 64 n | none => 0xFFFF) ∧
      op 1 (.ttopIns a) (ins false) old ∧ op 2 (.ttopInsd a) (ins true) old ∧
      op 3 (.ttopEvc a) (k.tm.tags.set way { tagAtSlot k.tm way with valid := false }) old ∧
      (∀ n, tagFind k.tm key = some n →
        op 4 (.ttopSetd a) (k.tm.tags.set n { tagAtSlot k.tm n with dirty := true }) (tagWord k.tm (tagAtSlot k.tm n)) ∧
        op 5 (.ttopClrd a) (k.tm.tags.set n { tagAtSlot k.tm n with dirty := false }) (tagWord k.tm (tagAtSlot k.tm n)) ∧
        op 6 (.ttopInvalidate a) (k.tm.tags.set n { tagAtSlot k.tm n with valid := false }) 0) ∧
      (tagFind k.tm key = none → op 4 (.ttopSetd a) k.tm.tags 0 ∧ op 5 (.ttopClrd a) k.tm.tags 0 ∧ op 6 (.ttopInvalidate a) k.tm.tags 0)) ∧
    (∀ (n : Nat) (r : Ring), v.toNat % 2 ^ 3 = n → k.tm.rings.get? n = some r → r.valid = true →
      (v.toNat / 2 ^ 3 = 0 → ∀ i ∈ [Instr.rgopRead a, Instr.mts a 0x23],
        team i { k.tm with rings := k.tm.rings.set n r, rgop := v, rgres := BitVec.ofNat 64 (r.t.toNat * 2 ^ 32 + r.h.toNat) }) ∧
      ∀ c, v.toNat = n + 2 ^ 4 + c * 2 ^ 16 → 0 < c → c < 2 ^ 16 → (r.t - r.h).toNat + c ≤ r.n → k.th.buffer = [] →
        let r' : Ring := { r with t := r.t + BitVec.ofNat 32 c }
        ∀ i ∈ [Instr.rgopAdvance a, Instr.mts a 0x23],
          team i { k.tm with rings := k.tm.rings.set n r', rgop := v, rgres := BitVec.ofNat 64 (r'.t.toNat * 2 ^ 32 + r'.h.toNat) })

/-- R288, R289. TRAP is major 7 with imm16 and no other field. TRAP and BRK stop the thread with TRAP, detail imm16, and with BREAK, the code address
of the instruction in the record; it goes on at next once it is resumed. HALT in a
privileged context removes the context with completion status HALT. -/
def Obligations.TrapsAndHalt : Prop :=
  (∀ (num : BitVec 16) (r : BitVec 10) (edis : W64), decodeFate .cc edis [BitVec.ofNat 32 (7 * 2 ^ 26 + r.toNat * 2 ^ 16 + num.toNat)] =
    if r = 0 then .run (.trap num) else .emulate .reservedField (some (.trap num))) ∧
  ∀ (s : State) (k : Core) (num : BitVec 16), s.core = some k →
    let stops (i : Instr) (c : FaultCode) (d₁ : W64) : Prop :=
      ∃ t x, exec i s = .next t ∧ t.thread? k.ref = some { k.th with pc := k.next 1 } ∧ otherThreads s t k.ref ∧
        held t (.thread k.ref) = true ∧ t.ctx? k.tm.ctx = some x ∧ ⟨s.errSeq, c, .t, .thread k.ref, false⟩ ∈ x.unresolved ∧
        { t with threads := s.threads } = threadFault s k c 0 d₁ 0
    stops (.trap num) .trap (BitVec.ofNat 64 num.toNat) ∧ stops .brk .break_ 0 ∧
    (k.ctx.privileged = true → exec .halt s = .next (removeCtx s k.tm.ctx 3 0) ∧
      ∀ t, exec .halt s = .next t → teamsOf t k.tm.ctx = [] ∧ ∀ x, t.ctx? k.tm.ctx = some x → x.ended = true ∧ x.unresolved = [])

/-- R290. CKPT without an undo log writes 0 and does nothing else. With one, once the context's groups and streams have stopped, its copies are done and its
buffered stores can perform (what a die that does not answer refuses is R374's): the count rises by 1 and is X[d]; the checkpoint is valid, the log empty, and the state saved; nothing dirty is left in a cache. -/
def Obligations.Checkpoints : Prop :=
  ∀ (s : State) (k : Core) (d : R5), s.core = some k →
    (k.ctx.cklog = 0 → ∃ t, exec (.ckpt d) s = .next t ∧ RetiredAlone s t k (k.next 1) [(d, 0)]) ∧
    (k.ctx.cklog ≠ 0 → ctxQuiet s k.tm.ctx = true → copiesDone s k.tm.ctx = true →
      teamsDrainStop s (teamsOf s k.tm.ctx) = none →
      ∃ t x th, exec (.ckpt d) s = .next t ∧ t.ctx? k.tm.ctx = some x ∧ x.ckptValid = true ∧ x.ckptCount = k.ctx.ckptCount + 1 ∧
        x.undo = [] ∧ x.undoBytes = 0 ∧ x.rolledBack = false ∧ x.saved.isSome = true ∧ t.thread? k.ref = some th ∧
        th.pc = k.next 1 ∧ th.wait = .none ∧ th.buffer = [] ∧
        (∀ n, th.rx n = if n = 0 then 0 else if n = d then BitVec.ofNat 64 ((k.ctx.ckptCount + 1) % 2 ^ 63) else k.th.rx n) ∧
        ∀ p la l, lineCopy t p la = some l → l.dirty = 0)

/-- R117, R291. SETSEG in a privileged context loads the named segment register of the thread, or of a group of its role that is set up,
with X[a] as its base and X[a+1] as its limit and policy, where no reserved field of the value is set; nothing else changes. -/
def Obligations.Segments : Prop :=
  ∀ (s : State) (k : Core) (a b : R5), s.core = some k → k.ctx.privileged = true →
    let lo := k.th.rx a
    let hi := k.th.rx (a + 1)
    hi.toNat / 2 ^ 53 % 2 ^ 9 = 0 → hi.toNat / 2 ^ 62 ≤ 1 →
      let v : Seg := ⟨lo, hi.extractLsb' 0 53, hi.extractLsb' 62 2⟩
      let thread (g : BitVec 2) (f : Thread → Thread) : Prop := ∃ t, exec (.setseg 0 g a 0) s = .next t ∧ RetiredWith s t k 1 f
      thread 0 (fun th => { th with gseg := v }) ∧ (lo.toNat < 2 ^ 22 → thread 1 (fun th => { th with pseg := v })) ∧
      thread 2 (fun th => { th with kseg := v }) ∧ thread 3 (fun th => { th with lseg := v }) ∧
      ∀ x, (k.th.rx b).toNat ≤ 15 → s.group? (k.ref.group (k.th.rx b).toNat) = some x → x.state ≠ .unset →
        let group (g : BitVec 2) (y : Group) : Prop :=
          ∃ t, exec (.setseg 1 g a b) s = .next t ∧ RetiredGroup s t k [] (k.ref.group (k.th.rx b).toNat) y
        group 0 { x with gseg := v } ∧ (lo.toNat < 2 ^ 22 → group 1 { x with pseg := v }) ∧ group 2 { x with kseg := v } ∧
        group 3 { x with lseg := v }

/-- R87. In an unprivileged context HALT, SETSEG and LKBIND fault with PRIV, words 0 and 1 of the encoding in the record, and have no other
effect; so does EMRET outside a handler. -/
def Obligations.PrivilegedInstructions : Prop :=
  ∀ (s : State) (k : Core) (i : Instr), s.core = some k → k.ctx.privileged = false →
    (i = .halt ∨ (∃ t g a b, i = .setseg t g a b) ∨ (∃ d a b, i = .lkbind d a b) ∨ (k.th.windows = [] ∧ ∃ a, i = .emret a)) →
      exec i s = .next (threadFault s k .priv 0 (encDetail i) 0) ∧ ThreadFaulted s (threadFault s k .priv 0 (encDetail i) 0) k .priv

/-! ### Loads, stores, atomics (R116, R119, R123, R148, R155, R228-R230) -/

/-- R228. A load of a thread that its checks admit and that finds its bytes retires with them in X[d], sign-extended for I types and
zero-extended for N types; LDA also acquires at its scope. Nothing is stored: the thread's own earlier stores to those bytes have performed
before, and while one of them cannot perform the load does not either (R161, R374). A load of a line that an issued copy holds waits (R161);
one of a peer waits for its reply, and faults with what the peer refuses (R366). Poison under FAULT faults (R143). (No wait for a suspended
cell stands; that case is in SuspendedCells.) -/
def Obligations.Loads : Prop :=
  ∀ (s s₁ : State) (k : Core) (d a : R5) (ty : BitVec 4) (m : MemW) (t : Tgt) (bs : List Byte),
    s.core = some k → ty.toNat < 8 → (∀ p b, k.th.wait ≠ .cellDone p b) → (∀ p c q, k.th.wait ≠ .cellFailed p c q) →
    let n := tyBytes ty
    let addr := k.th.rx a + k.th.rx (a + 1) + m.off.signExtend 64
    checkAccess s k.actor .load m.space.toNat m.scope.toNat n n k.edis6 addr true = (s₁, .ok t) →
    let both (u : State) : Prop := exec (.ld d a ty m) s = .next u ∧ exec (.lda d a ty m) s = .next u
    (copyHolds s₁ t n = true → both s₁) ∧
    (copyHolds s₁ t n = false → ∀ b ck, drainForStop s₁ k t n = some (b, ck) → both (storeRefused s₁ k b ck)) ∧
    let s₂ := drainFor s₁ k t n
    let r := loadTgt s₂ k.actor t addr n m.space.toNat m.scope.toNat m.hint.toNat 0
    (copyHolds s₁ t n = false → drainForStop s₁ k t n = none →
      (r.2 = .waits → both r.1) ∧
      (r.2 = .poisoned → both (threadFault r.1 k .poison addr 0 (BitVec.ofNat 64 (n + 256 * m.space.toNat)))) ∧
      ∀ c, r.2 = .refused c → both (threadFault r.1 k c addr 0 (BitVec.ofNat 64 (n + 256 * m.space.toNat)))) ∧
    (copyHolds s₁ t n = false → drainForStop s₁ k t n = none → r.2 = .bytes bs →
      let x : W64 := if ty.toNat < 4 then (BitVec.ofNat (8 * n) (ofBytes bs)).signExtend 64 else BitVec.ofNat 64 (ofBytes bs)
      ∃ buf, (buf = k.th.buffer ∨ buf = []) ∧
        let th : Thread := { k.th.wx d x with pc := k.next 2, wait := .none, buffer := buf }
        (∃ u, exec (.ld d a ty m) s = .next u ∧ Performed s u k th ∧ NoStore s₂ u) ∧
        ∃ u, exec (.lda d a ty m) s = .next u ∧ Performed s u k th ∧ NoStore s₂ u ∧
          (k.ref.hand < 256 → acquiredAt u k.ref.hand m.scope.toNat))

/-- R155, R228. ST and STL complete: a store whose checks pass retires, with its place and its low bytes of X[b] held in the thread, and
nothing is stored yet; ACCESS_COMPLETE performs it, unless an earlier store of the thread is ordered before it, it waits for a copy or for an
owner's writes (R139, R161), or its die or route does not take it (R372, R374). STL, where its store need not wait, releases at its scope,
then stores. A store to a peer retires once the peer has performed it, and faults with what the peer refuses (R167, R366; log entry 95). -/
def Obligations.Stores : Prop :=
  (∀ (s s₁ : State) (k : Core) (a b : R5) (ty : BitVec 4) (m : MemW) (t : Tgt), s.core = some k → ty.toNat < 8 →
    let n := tyBytes ty
    let addr := k.th.rx a + k.th.rx (a + 1) + m.off.signExtend 64
    let data := toBytes n (k.th.rx b).toNat
    checkAccess s k.actor .store m.space.toNat m.scope.toNat n n k.edis6 addr true = (s₁, .ok t) →
      let st : Store := ⟨m.space.toNat, m.scope.toNat, m.hint.toNat, k.actor.virtual m.space.toNat addr, t, data, k.th.img, k.th.pc⟩
      let th (buf : List Store) : Thread := { k.th with pc := k.next 2, wait := .none, buffer := buf }
      let asks (i : Instr) (v : State) (buf : List Store) : Prop :=
        let ask := peerAsk v k.actor t (.store data)
        (ask.2 = .waits → exec i s = .next ask.1) ∧
        (∀ c, ask.2 = .fault c → exec i s = .next (threadFault (peerDone ask.1 (.thread k.ref) 0) k c addr 0
          (if c = .cellBusy then 0 else BitVec.ofNat 64 n))) ∧
        (ask.2 = .offline → exec i s = .next (dieOffline (peerDone ask.1 (.thread k.ref) 0) k.tm.ctx (.thread k.ref) (threadSite k) addr
          (2 ^ 31 + addr.toNat / 2 ^ 52))) ∧
        ∀ p, ask.2 = .done p → ∃ u, exec i s = .next u ∧ Performed s u k (th buf) ∧ Stored v u t data
      ((∀ p q, t ≠ .peer p q) → ∃ u, exec (.st a b ty m) s = .next u ∧ NoStore s₁ u ∧ Performed s u k (th (k.th.buffer ++ [st]))) ∧
      (∀ p q, t = .peer p q → asks (.st a b ty m) s₁ k.th.buffer) ∧
      (writeWaits s₁ k.ref.hand t n = true → exec (.stl a b ty m) s = .next s₁) ∧
      (writeWaits s₁ k.ref.hand t n = false →
        (∀ x ck, drainStop s₁ k = some (x, ck) → exec (.stl a b ty m) s = .next (storeRefused s₁ k x ck)) ∧
        (drainStop s₁ k = none → asks (.stl a b ty m) (threadRelease s₁ k m.scope.toNat) [] ∧
          (k.ref.hand < 256 → releasedAt (threadRelease s₁ k m.scope.toNat) k.ref.hand m.scope.toNat)))) ∧
  ∀ (s : State) (t : ThreadRef) (k : Core) (n : Nat) (b : Store), s.coreOf t = some k → k.th.buffer[n]? = some b →
    (∀ ck, storeStop s t.hand b = some ck → exec (.accessComplete t n) s = .next (storeRefused s k b ck)) ∧
    (storeStop s t.hand b = none →
      (storeReady t.hand k.th.buffer n = true → writeWaits s t.hand b.tgt b.data.length = false →
        ∃ u, exec (.accessComplete t n) s = .next u ∧ Performed s u k { k.th with buffer := k.th.buffer.eraseIdx n } ∧
          Stored s u b.tgt b.data) ∧
      (storeReady t.hand k.th.buffer n = false ∨ writeWaits s t.hand b.tgt b.data.length = true →
        exec (.accessComplete t n) s = .next s))

/-- R156. A thread's device store is what its own next load of those bytes at the same scope and hint reads, wherever the line's sectors are
VAL, its cached copies are whole and no undo log lies there.
R127, R140, R149. A release and an acquire lose no dirty byte that one copy alone holds: it reaches a wider copy or its home. -/
def Obligations.LoadsSeeStores : Prop :=
  (∀ (s : State) (c h : Nat) (p : Site) (vofs : W64) (pa scope hint : Nat) (bs : List Byte), h < 256 → CachesOk s →
    lineVal s (alignDown pa 128) = true → pa % 128 + bs.length ≤ 128 → (∀ i < bs.length, ¬inLog s (pa + i)) →
      (readAt (writeAt s c h p vofs pa bs scope hint) h pa bs.length scope hint).2 = bs) ∧
  ∀ (s : State) (h scope a : Nat) (v : Byte), CachesOk s → SoleDirty s a v →
    Holds s (releaseAt s h scope) a v ∧ Holds s (acquireAt s h scope) a v

/-- R229. An AMO that its checks admit, on no poisoned unit and no sector that is not VAL, puts the old value in X[d], extended as for LD, and
stores the value of its function's row. POISON and CELL_BUSY come before any effect. The thread's earlier stores that are ordered before it
have performed (R156, R166). At a domain peer the request is sent there once, and the AMO completes with the old value of the peer's reply or
faults with what the peer refuses (R167, R366). -/
def Obligations.Atomics : Prop :=
  ∀ (s s₁ : State) (k : Core) (fn ty : BitVec 4) (d a b : R5) (m : MemW) (t : Tgt), s.core = some k → fn.toNat ≤ 9 →
    (ty = 2 ∨ ty = 3 ∨ ty = 6 ∨ ty = 7) →
    let n := tyBytes ty
    let addr := k.th.rx a + k.th.rx (a + 1) + m.off.signExtend 64
    let units := poisonedFor s₁ k.ref.hand t n (atomicScope m) m.hint.toNat
    let does (u : State) : Prop := exec (.amo fn ty d a b m) s = .next u
    checkAccess s k.actor .atomic m.space.toNat m.scope.toNat n n k.edis6 addr true = (s₁, .ok t) →
    (units ≠ [] →
      does (threadFault (logPoison s₁ k.actor t (k.actor.virtual m.space.toNat addr) m.space.toNat 1
        units 0) k .poison addr 0 (BitVec.ofNat 64 (n + 256 * m.space.toNat)))) ∧
    (∀ pa, t = .dev pa → units = [] → tagAt s₁ pa ≠ 0 → does (threadFault s₁ k .cellBusy addr (zext64 (tagAt s₁ pa)) 0)) ∧
    (units = [] → (∀ pa, t = .dev pa → tagAt s₁ pa = 0) →
      let home := atHome k.ref.hand t (atomicScope m) m.hint.toNat
      let s₂ := drainFor s₁ k t n home
      let x := BitVec.ofNat (8 * n) (k.th.rx b).toNat
      let c := BitVec.ofNat (8 * n) (k.th.rx d).toNat
      let th (v : BitVec (8 * n)) (buf : List Store) : Thread :=
        { k.th.wx d (if ty.toNat < 4 then v.signExtend 64 else v.setWidth 64) with pc := k.next 2, wait := .none, buffer := buf }
      (writeWaits s₁ k.ref.hand t n = true → does s₁) ∧
      (writeWaits s₁ k.ref.hand t n = false → ∀ b ck, drainForStop s₁ k t n home = some (b, ck) → does (storeRefused s₁ k b ck)) ∧
      (writeWaits s₁ k.ref.hand t n = false → drainForStop s₁ k t n home = none →
        ((∀ p q, t ≠ .peer p q) →
          let r := readTgt s₂ k.actor t n (atomicScope m) m.hint.toNat
          let v := BitVec.ofNat (8 * n) (ofBytes r.2)
          let new := match fn.toNat with
            | 0 => v + x | 1 => v &&& x | 2 => v ||| x | 3 => v ^^^ x
            | 4 => if x.slt v then x else v | 5 => if x.slt v then v else x
            | 6 => if x.ult v then x else v | 7 => if x.ult v then v else x
            | 8 => x | _ => if v = c then x else v
          ∃ u buf, does u ∧ (buf = k.th.buffer ∨ buf = []) ∧ Performed s u k (th v buf) ∧ NoStore s₂ r.1 ∧ Stored r.1 u t (toBytes n new.toNat)) ∧
        ∀ p q, t = .peer p q →
          let op : DomainOp := .atomic fn.toNat (8 * n) (BitVec.ofNat 64 x.toNat) (BitVec.ofNat 64 c.toNat)
          let ask := peerAsk s₁ k.actor t op
          (peerReq s₁ k.actor p q op = none → ∃ u id, does u ∧
            u.weave.reqs = s₁.weave.reqs ++ [⟨id, .thread k.ref, k.tm.ctx, 0, p, q, op, none⟩] ∧
            ∀ port, s₁.weave.routes.get? p = some port → ∃ f, u.outbox = s₁.outbox ++ [.flit f] ∧ f.port = port ∧ f.dst = p ∧
              f.body = .request id ⟨s₁.weave.devNum.getD 0, q, op⟩) ∧
          (ask.2 = .waits → does ask.1) ∧
          (ask.2 = .done true → does (threadFault (logPoison (peerDone ask.1 (.thread k.ref) 0) k.actor t addr 0 1 [q / 64] 0) k .poison addr 0
            (BitVec.ofNat 64 n))) ∧
          (∀ c, ask.2 = .fault c → does (threadFault (peerDone ask.1 (.thread k.ref) 0) k c addr 0
            (if c = .cellBusy then 0 else BitVec.ofNat 64 n))) ∧
          (ask.2 = .done false → ∃ u buf, does u ∧ (buf = k.th.buffer ∨ buf = []) ∧
            Performed s u k (th (BitVec.ofNat (8 * n) (ofBytes (peerData s₂ k.actor p q n op))) buf) ∧ Stored s₂ u t [])))

/-- R116, R118, R119, R123. The checks of a scratchpad access in their order: the form of the address, alignment, that the hand named is
enabled and the context resident there, the barrier and deque areas that no store may touch, and PSEG. (EDIS bit 6 is off; a control-core
access.)
R87, R119, R228, R339. A thread's access that a check stops has no other effect: the fault names the address, and the width and space as
detail 2; a disabled scratchpad access is its cause; a page miss parks the thread; without a route to its target it waits (R372). Checks store
nothing in device memory but the A bit of table entries. PFX retires whatever its address. -/
def Obligations.AccessFaults : Prop :=
  (∀ (s : State) (k : Core) (acc : Acc) (scope n : Nat) (addr : W64), s.core = some k → 0 < n →
      let r := checkAccess s k.actor acc 1 scope n n false addr true
      let o := addr.toNat % 2 ^ 22
      let h := if addr.toNat / 2 ^ 31 % 2 = 1 then addr.toNat / 2 ^ 23 % 2 ^ 8 else k.ref.hand
      let form : Prop := addr.toNat < 2 ^ 32 ∧ addr.toNat / 2 ^ 22 % 2 = 0 ∧ o + n ≤ 2 ^ 22 ∧
        (addr.toNat / 2 ^ 31 % 2 = 0 → addr.toNat / 2 ^ 23 % 2 ^ 8 = 0)
      let reach : Prop := s.enabled h = true ∧ (h = k.ref.hand ∨ s.resident k.tm.ctx h = true)
      (¬form → r = (s, .fault .addrForm)) ∧
      (form → o % n ≠ 0 → r = (s, .fault .align)) ∧
      (form → o % n = 0 → s.enabled h = false → r = (s, .fault .nodeAbsent)) ∧
      (form → o % n = 0 → s.enabled h = true → h ≠ k.ref.hand → s.resident k.tm.ctx h = false → r = (s, .fault .handOwner)) ∧
      (form → o % n = 0 → reach → acc ≠ .load → 0x3FD800 < o + n → o < 0x3FE000 → r = (s, .fault .barClobber)) ∧
      (form → o % n = 0 → reach → acc ≠ .load → 0x3FE000 ≤ o → r = (s, .fault .dequeClobber)) ∧
      (form → o % n = 0 → reach → (acc = .load ∨ o + n ≤ 0x3FD800) →
        r = (s, if k.th.pseg.base.toNat ≤ o ∧ o + n ≤ k.th.pseg.base.toNat + k.th.pseg.limit.toNat then .ok (.scratch h o)
          else .fault .segLimit))) ∧
  (∀ (s s₁ : State) (k : Core) (acc : Acc) (fn ty : BitVec 4) (d a b : R5) (m : MemW) (c : Chk) (i : Instr), s.core = some k →
      let n := tyBytes ty
      let addr := k.th.rx a + k.th.rx (a + 1) + m.off.signExtend 64
      (checkAccess s k.actor acc m.space.toNat m.scope.toNat n n k.edis6 addr true = (s₁, c) →
        (acc = .load ∧ (i = .ld d a ty m ∨ i = .lda d a ty m)) ∨ (acc = .store ∧ (i = .st a b ty m ∨ i = .stl a b ty m)) ∨
          (acc = .atomic ∧ i = .amo fn ty d a b m) →
        MemOnly s s₁ ∧
        (∀ q, Memory.get s₁.mem q = Memory.get s.mem q ∨ Memory.get s₁.mem q = Memory.get s.mem q ||| 0x40) ∧
        (∀ f, c = .fault f → exec i s = .next (threadFault s₁ k f addr 0 (BitVec.ofNat 64 (n % 256 + 256 * m.space.toNat)))) ∧
        (c = .disabled → exec i s = .next (threadCause s₁ k .disabled (wordsOf i) (some i))) ∧
        (∀ va, c = .park va → exec i s = .next (parkAgent s₁ k.tm.ctx (.thread k.ref) (BitVec.ofNat 64 va) none)) ∧
        (c = .waits → exec i s = .next s₁) ∧
        (∀ die, c = .offline die → exec i s = .next (dieOffline s₁ k.tm.ctx (.thread k.ref) (threadSite k) addr die))) ∧
      ∃ u, exec (.pfx a m) s = .next u ∧ Performed s u k { k.th with pc := k.next 2, wait := .none } ∧
        (NoStore s u ∨ NoStore (checkAccess s k.actor .load m.space.toNat 0 1 1 false addr false).1 u))

/-! ### Fences, barriers, cells, locks (R113, R149, R234, R241-R257) -/

/-- R113, R149, R234, R278. FENCE of kinds ACQ, REL, AR and SC at a scope: a release performs the thread's stores and writes back what is
narrower than the scope, an acquire drops what is narrower; RACQ releases the hand it names at .DV and acquires. FENCE, BARI, BARA and
BARW deliver first: a pending COPY_FAULT, then an enabled flag, faults instead, and FPX stays. A release whose buffered stores cannot all
perform waits, or its thread meets the refusal of the die (R161, R374). -/
def Obligations.Fences : Prop :=
  ∀ (s : State) (k : Core) (kd n a : R5) (sc : BitVec 3) (i : Instr), s.core = some k →
    (i = .fence kd a sc ∨ i = .bari n a sc ∨ i = .bara n a sc ∨ i = .barw n sc →
      (∀ c cs, k.th.copyFaults = c :: cs →
        exec i s = .next ((threadFault s k .copyFault 0 (BitVec.ofNat 64 c.code) c.seq).updThread k.ref fun th => { th with copyFaults := cs })) ∧
      (k.th.copyFaults = [] → k.th.fpx &&& k.th.fpxmask ≠ 0 →
        exec i s = .next (threadFault s k .fpxTrap 0 (zext64 k.th.fpx) (zext64 k.th.fpxmask)))) ∧
    (∀ b, k.th.buffer = [b] → Stored s (drain s k) b.tgt b.data) ∧
    (k.th.copyFaults = [] → k.th.fpx &&& k.th.fpxmask = 0 → ∀ b ck, drainStop s k = some (b, ck) →
      (∀ kd, (kd = 1 ∨ kd = 2 ∨ kd = 3) → exec (.fence kd a sc) s = .next (storeRefused s k b ck)) ∧
      ((k.th.rx a).toNat % 256 = k.ref.hand → exec (.fence 4 a sc) s = .next (storeRefused s k b ck))) ∧
    (k.th.copyFaults = [] → k.th.fpx &&& k.th.fpxmask = 0 →
      let at_ (buf : List Store) : Thread := { k.th with pc := k.next 1, wait := .none, buffer := buf }
      let h := (k.th.rx a).toNat % 256
      (∃ u, exec (.fence 0 a sc) s = .next u ∧ Performed s u k (at_ k.th.buffer) ∧ NoStore s u ∧
        (k.ref.hand < 256 → acquiredAt u k.ref.hand sc.toNat)) ∧
      (drainStop s k = none → ∃ u, exec (.fence 1 a sc) s = .next u ∧ Performed s u k (at_ []) ∧ NoStore (drain s k) u ∧
        (k.ref.hand < 256 → releasedAt u k.ref.hand sc.toNat)) ∧
      (∀ kd, (kd = 2 ∨ kd = 3) → drainStop s k = none → ∃ u, exec (.fence kd a sc) s = .next u ∧ Performed s u k (at_ []) ∧ NoStore (drain s k) u ∧
        (k.ref.hand < 256 → acquiredAt u k.ref.hand sc.toNat)) ∧
      (h = k.ref.hand → drainStop s k = none → ∃ u, exec (.fence 4 a sc) s = .next u ∧ Performed s u k (at_ []) ∧ NoStore (drain s k) u ∧
        acquiredAt u k.ref.hand 3) ∧
      (h ≠ k.ref.hand → s.enabled h = true → s.resident k.tm.ctx h = true →
        ∃ v u, exec (.fence 4 a sc) s = .next u ∧ Performed s u k (at_ k.th.buffer) ∧ NoStore s v ∧ releasedAt v h 3 ∧ NoStore v u ∧
          (k.ref.hand < 256 → acquiredAt u k.ref.hand 3)) ∧
      (h ≠ k.ref.hand → s.enabled h = false → exec (.fence 4 a sc) s = .next (threadFault s k .nodeAbsent (k.th.rx a) 0 0)) ∧
      (h ≠ k.ref.hand → s.enabled h = true → s.resident k.tm.ctx h = false →
        exec (.fence 4 a sc) s = .next (threadFault s k .handOwner (k.th.rx a) 0 0)))

/-- R242, R245. BARI sets a barrier's count and clears its arrivals and pending bytes; BARA releases, arrives and adds X[a] pending bytes, and
where that meets the count with nothing pending the phase goes on; BARW waits while the phase is the one of its arrival, then acquires;
BARW_WAKE ends the wait of a thread that may go on, or delivers a copy's fault (R278). Detail 2 of BAR_UNINIT and BAR_OVER, the expected count ×
2¹⁶ + the arrivals, is log entry 70 (DEDUCED). -/
def Obligations.ThreadBarriers : Prop :=
  (∀ (s : State) (k : Core) (n a : R5) (sc : BitVec 3), s.core = some k → k.th.copyFaults = [] → k.th.fpx &&& k.th.fpxmask = 0 →
    let b := barrierOf k.tm n.toNat
    let p := (k.th.arrival.get? n.toNat).getD b.phase
    let set (b : Barrier) : Team := { k.tm with bars := k.tm.bars.set n.toNat b }
    let full : Prop := b.arrivals + 1 = b.expected ∧ b.pending + k.th.rx a = 0
    let det := BitVec.ofNat 64 (b.expected.toNat * 2 ^ 16 + b.arrivals.toNat)
    (∃ t, exec (.bari n a sc) s = .next t ∧ RetiredTeam s t k [] (set ⟨0, (k.th.rx a).setWidth 16, b.phase, 0⟩)) ∧
    (b.expected = 0 → exec (.bara n a sc) s = .next (threadFault s k .barUninit 0 (BitVec.ofNat 64 n.toNat) det) ∧
      exec (.barw n sc) s = .next (threadFault s k .barUninit 0 (BitVec.ofNat 64 n.toNat) det)) ∧
    (b.expected ≠ 0 → b.arrivals = b.expected →
      exec (.bara n a sc) s = .next (threadFault s k .barOver 0 (BitVec.ofNat 64 n.toNat) det)) ∧
    (b.expected ≠ 0 → b.arrivals ≠ b.expected → ∀ x ck, drainStop s k = some (x, ck) →
      exec (.bara n a sc) s = .next (storeRefused s k x ck)) ∧
    (b.expected ≠ 0 → b.arrivals ≠ b.expected → drainStop s k = none →
      ∃ u, exec (.bara n a sc) s = .next u ∧
        u.thread? k.ref = some { k.th with pc := k.next 1, wait := .none, buffer := [], arrival := k.th.arrival.set n.toNat b.phase } ∧
        (full → u.team? k.ref.team = some (set ⟨0, b.expected, b.phase + 1, 0⟩)) ∧
        (¬full → u.team? k.ref.team = some (set ⟨b.arrivals + 1, b.expected, b.phase, b.pending + k.th.rx a⟩)) ∧
        otherThreads s u k.ref ∧ otherTeams s u k.ref.team ∧ MemOnly s { u with threads := s.threads, teams := s.teams } ∧
        NoStore (drain s k) u ∧ (k.ref.hand < 256 → releasedAt u k.ref.hand sc.toNat)) ∧
    (b.expected ≠ 0 → b.phase = p →
      exec (.barw n sc) s = .next (s.updThread k.ref fun th => { th with wait := .barw n.toNat sc.toNat p })) ∧
    (b.expected ≠ 0 → b.phase ≠ p →
      ∃ u, exec (.barw n sc) s = .next u ∧
        Performed s u k { k.th with pc := k.next 1, wait := .none, arrival := k.th.arrival.erase n.toNat } ∧
        NoStore s u ∧ (k.ref.hand < 256 → acquiredAt u k.ref.hand sc.toNat))) ∧
  ∀ (s : State) (t : ThreadRef) (k : Core) (n sc : Nat) (p : BitVec 32), s.coreOf t = some k → k.th.wait = .barw n sc p →
    (threadFree s t k.th = false → exec (.barwWake (.thread t)) s = .next s) ∧
    (threadFree s t k.th = true → ∀ c cs, k.th.copyFaults = c :: cs → exec (.barwWake (.thread t)) s =
      .next ((threadFault s k .copyFault 0 (BitVec.ofNat 64 c.code) c.seq).updThread t fun th => { th with copyFaults := cs, wait := .none })) ∧
    (threadFree s t k.th = true → k.th.copyFaults = [] → (barrierOf k.tm n).phase = p → exec (.barwWake (.thread t)) s = .next s) ∧
    (threadFree s t k.th = true → k.th.copyFaults = [] → (barrierOf k.tm n).phase ≠ p → ∃ u, exec (.barwWake (.thread t)) s = .next u ∧
      Performed s u k { k.th with pc := k.next 1, wait := .none, arrival := k.th.arrival.erase n } ∧
      NoStore s u ∧ (k.ref.hand < 256 → acquiredAt u k.ref.hand sc))

/-- R169, R170, R246-R252. SUSP makes a VAL or FAIL sector SUSP with the four registers as its bytes, and leaves an evaluated or suspended
one; RSLV makes any sector VAL with its bytes, and every thread that waits for it goes on with them; both give the old tag, and wait where a
copy holds the line. CELLQ gives the tag, and the cause of a failure. A load of a sector that is not VAL starts its evaluation, a release of
its issuer, waits, or faults; a load that waited for a sector that failed faults (R170), an evaluator's once the front end has room for its
failure. A buffered store that a die refuses makes SUSP and RSLV retry (R374). -/
def Obligations.SuspendedCells : Prop :=
  ∀ (s s₁ : State) (k : Core) (d a b : R5) (ty : BitVec 4) (m : MemW) (pa : Nat), s.core = some k →
    let addr := k.th.rx a + k.th.rx (a + 1) + m.off.signExtend 64
    let ws := [k.th.rx b, k.th.rx (b + 1), k.th.rx (b + 2), k.th.rx (b + 3)]
    let bytes := ws.flatMap fun w => toBytes 8 w.toNat
    let old := tagAt s₁ pa
    let th (buf : List Store) (w : Nat) (v : W64) : Thread := { k.th.wx d v with pc := k.next w, wait := .none, buffer := buf }
    (addr.toNat % 32 ≠ 0 → ∀ i, (i = .susp d a b m ∨ i = .rslv d a b m) → exec i s = .next (threadFault s k .align addr 0 32)) ∧
    (checkAccess s k.actor .store 0 3 32 32 false addr true = (s₁, .ok (.dev pa)) → addr.toNat % 32 = 0 →
      (suspensionOk ws = true → copyHolds s₁ (.dev pa) 32 = true → exec (.susp d a b m) s = .next s₁) ∧
      (suspensionOk ws = true → copyHolds s₁ (.dev pa) 32 = false → old = 0 ∨ old = 3 → drainStop s₁ k = none →
        ∃ u, exec (.susp d a b m) s = .next u ∧ Performed s u k (th [] 2 (old.setWidth 64)) ∧ tagAt u pa = 1 ∧
          (∀ q, q / 32 ≠ pa / 32 → tagAt u q = tagAt s₁ q) ∧ Memory.read u.mem pa 32 = bytes ∧
          Stored (threadRelease s₁ k 3) u (.dev pa) bytes) ∧
      (suspensionOk ws = true → copyHolds s₁ (.dev pa) 32 = false → old = 1 ∨ old = 2 →
        ∃ u, exec (.susp d a b m) s = .next u ∧ Performed s u k (th k.th.buffer 2 (old.setWidth 64)) ∧ u.tags = s₁.tags ∧ NoStore s₁ u) ∧
      (writeWaits s₁ k.ref.hand (.dev pa) 32 = true → exec (.rslv d a b m) s = .next s₁) ∧
      (∀ x die, drainStop s₁ k = some (x, .offline die) →
        (suspensionOk ws = true → copyHolds s₁ (.dev pa) 32 = false → old = 0 ∨ old = 3 →
          exec (.susp d a b m) s = .next (retryOffline s₁ k x.va die)) ∧
        (writeWaits s₁ k.ref.hand (.dev pa) 32 = false → exec (.rslv d a b m) s = .next (retryOffline s₁ k x.va die))) ∧
      (writeWaits s₁ k.ref.hand (.dev pa) 32 = false → drainStop s₁ k = none →
        ∃ u, exec (.rslv d a b m) s = .next u ∧ u.thread? k.ref = some (th [] 2 (old.setWidth 64)) ∧ tagAt u pa = 0 ∧
          (∀ q, q / 32 ≠ pa / 32 → tagAt u q = tagAt s₁ q) ∧
          (∃ v, Stored (threadRelease s₁ k 3) v (.dev pa) bytes ∧ Memory.read v.mem pa 32 = bytes ∧ NoStore v u) ∧
          (∀ w, w ∈ u.waiters ↔ w ∈ s.waiters ∧ w.1 ≠ pa / 32) ∧
          (∀ q, (pa / 32, Agent.thread q) ∈ s.waiters → threadKey q ≠ threadKey k.ref →
            u.thread? q = (s.thread? q).map fun x => { x with wait := .cellDone pa bytes }) ∧
          (k.tm.evstack.getLast?.map (·.1) = some pa → u.team? k.ref.team = some { k.tm with resolved := true }))) ∧
    (addr.toNat % 32 = 0 → suspensionOk ws = false →
      exec (.susp d a b m) s = .next (threadFault s k .cellFormat addr (BitVec.ofNat 64 ((k.th.rx (b + 2)).toNat % 2 ^ 32)) 0)) ∧
    (checkAccess s k.actor .load 0 3 32 32 false (k.th.rx a) true = (s₁, .ok (.dev pa)) → (k.th.rx a).toNat % 32 = 0 →
      (copyHolds s₁ (.dev pa) 32 = true → exec (.cellq d a) s = .next s₁) ∧
      (copyHolds s₁ (.dev pa) 32 = false → ∃ u, exec (.cellq d a) s = .next u ∧ NoStore s₁ u ∧
        Performed s u k (th k.th.buffer 1 (BitVec.ofNat 64 (old.toNat + if old = 3 then ofBytes (Memory.read s₁.mem (pa + 20) 4) % 2 ^ 16 * 256 else 0))) ∧
        (old = 0 ∨ old = 3 → k.ref.hand < 256 → acquiredAt u k.ref.hand 3))) ∧
    (∀ t, checkAccess s k.actor .load m.space.toNat m.scope.toNat (tyBytes ty) (tyBytes ty) k.edis6 addr true = (s₁, .ok t) →
      (∀ p v, k.th.wait ≠ .cellDone p v) → (∀ p c q, k.th.wait ≠ .cellFailed p c q) → copyHolds s₁ t (tyBytes ty) = false →
      drainForStop s₁ k t (tyBytes ty) = none →
      let s₂ := drainFor s₁ k t (tyBytes ty)
      (loadTgt s₂ k.actor t addr (tyBytes ty) m.space.toNat m.scope.toNat m.hint.toNat 0).2 = .cell pa →
      let pa := alignDown pa 32
      let depth := BitVec.ofNat 64 k.tm.evstack.length
      let waits (u : State) : Prop := u.waiters = s.waiters ++ [(pa / 32, .thread k.ref)] ∧ (u.thread? k.ref).map (·.wait) = some (.cell pa)
      (tagAt s₂ pa = 1 → 15 ≤ k.tm.evstack.length → exec (.ld d a ty m) s = .next (threadFault s₂ k .evalDepth addr depth 0)) ∧
      (tagAt s₂ pa = 1 → k.tm.evstack.length < 15 → ∀ x ck, drainStop s₂ k = some (x, ck) →
        exec (.ld d a ty m) s = .next (storeRefused s₂ k x ck)) ∧
      (tagAt s₂ pa = 1 → k.tm.evstack.length < 15 → drainStop s₂ k = none →
        ∃ u w, exec (.ld d a ty m) s = .next u ∧ tagAt u pa = 2 ∧ waits u ∧ w.ctx = k.tm.ctx ∧
          w.evstack = k.tm.evstack ++ [(pa, addr.toNat % 2 ^ 52 / 32 * 32)] ∧
          (s.eventsFull = false → u.events = s.events ++ [.evaluate w] ∧ u.spill = s.spill) ∧
          (s.eventsFull = true → u.events = s.events ∧ u.spill = s.spill ++ [w]) ∧
          (k.ref.hand < 256 → releasedAt u k.ref.hand 3)) ∧
      (tagAt s₂ pa = 2 → (k.tm.evstack.any fun c => c.1 = pa) = true →
        exec (.ld d a ty m) s = .next (threadFault s₂ k .selfDep addr depth 0)) ∧
      (tagAt s₂ pa = 2 → (k.tm.evstack.any fun c => c.1 = pa) = false → (pa / 32, Agent.thread k.ref) ∉ s.waiters →
        ∃ u, exec (.ld d a ty m) s = .next u ∧ waits u ∧ NoStore s₂ u) ∧
      (tagAt s₂ pa = 3 → ∃ c n, exec (.ld d a ty m) s = .next (threadFault s₂ k .cellFailed addr c n) ∧
        c = BitVec.ofNat 64 (ofBytes (Memory.read s₂.mem (pa + 20) 4)) ∧ n = BitVec.ofNat 64 (ofBytes (Memory.read s₂.mem (pa + 24) 8)))) ∧
    (∀ p v bs n, k.th.wait = .cellDone p v → n = tyBytes ty → bs = (v.drop (pa % 32)).take n → p / 32 = pa / 32 → 4 ≤ ty.toNat →
      checkAccess s k.actor .load m.space.toNat m.scope.toNat n n k.edis6 addr true = (s₁, .ok (.dev pa)) →
      ∃ u, exec (.ld d a ty m) s = .next u ∧ Performed s u k (th k.th.buffer 2 (BitVec.ofNat 64 (ofBytes bs)))) ∧
    ∀ p c q t n, k.th.wait = .cellFailed p c q → n = tyBytes ty →
      checkAccess s k.actor .load m.space.toNat m.scope.toNat n n k.edis6 addr true = (s₁, .ok t) →
      (k.tm.evstack = [] ∨ s₁.eventsFull = false →
        exec (.ld d a ty m) s = .next (threadFault (s₁.updThread k.ref fun x => { x with wait := .none }) k .cellFailed addr
          (BitVec.ofNat 64 c) (BitVec.ofNat 64 q))) ∧
      (k.tm.evstack ≠ [] → s₁.eventsFull = true → exec (.ld d a ty m) s = .next s₁)

/-- R168, R254-R257. LKACQ of a free lock with no one before the thread holds it under the next hold number, 1 after the largest, with a
bound device range copied into the scratchpad; of a held one it joins the queue, or with bit 16 gives 0; a bound range that a copy holds or that has no route makes
the thread wait, and one whose die does not answer makes it retry (R161, R372, R374). LKREL by the holder frees it.
LOCK_GRANT passes a free lock to the first of its queue, if that thread may go on. LKBIND binds a lock that is free and has no queue to the
ranges of its record, or unbinds it. LOCK_ALLOTMENT gives a context a lock or takes it. -/
def Obligations.Locks : Prop :=
  (∀ (s : State) (k : Core) (d a b : R5), s.core = some k →
    let lk := (k.th.rx a).toNat % 2 ^ 12
    let l := lockOf s lk
    let next : BitVec 32 := if l.count = 0xFFFFFFFF then 1 else l.count + 1
    (lk ∉ k.ctx.locks → ∀ i, (i = .lkacq d a ∨ i = .lkrel a ∨ (k.ctx.privileged = true ∧ i = .lkbind d a b)) →
      exec i s = .next (threadFault s k .lockRange 0 (BitVec.ofNat 64 lk) 0)) ∧
    (lk ∈ k.ctx.locks → dieRefuses s (lk / 1024 % 4) = false →
      (l.holder = some k.ref → exec (.lkacq d a) s = .next (threadFault s k .lockHeld 0 (BitVec.ofNat 64 lk) 0)) ∧
      (l.holder ≠ some k.ref → exec (.lkrel a) s = .next (threadFault s k .lockOwner 0 (BitVec.ofNat 64 lk) 0)) ∧
      (l.holder = none → l.queue = [] ∨ l.queue.head? = some k.ref → ∀ ck, bindStop s k.ref.hand l = some ck →
        (∀ die, ck = .offline die → exec (.lkacq d a) s =
          .next (retryOffline { s with locks := s.locks.set lk { l with queue := l.queue.filter fun q => q ≠ k.ref } } k 0 die)) ∧
        (ck = .waits → k.ref ∉ l.queue → exec (.lkacq d a) s = .next { s.updThread k.ref (fun th => { th with wait := .lkacq d lk }) with
          locks := s.locks.set lk { l with queue := l.queue ++ [k.ref] } })) ∧
      (l.holder = none → l.queue = [] ∨ l.queue.head? = some k.ref → bindStop s k.ref.hand l = none →
        ∃ u l', exec (.lkacq d a) s = .next u ∧
          u.thread? k.ref = some { k.th.wx d (next.setWidth 64) with pc := k.next 1, wait := .none, holds := k.th.holds.set lk next } ∧
          otherThreads s u k.ref ∧ MemOnly s { u with threads := s.threads, locks := s.locks } ∧ u.locks = s.locks.set lk l' ∧
          l' = { l with holder := some k.ref, queue := l.queue.filter fun q => q ≠ k.ref, count := next } ∧
          (l.bind = [] → NoStore s u) ∧ (k.ref.hand < 256 → acquiredAt u k.ref.hand 3) ∧
          (∀ pa off len, l.bind = [(.dev pa, off, len)] → ∃ v, NoStore s v ∧
            (u.hand k.ref.hand).scratch = Memory.write (s.hand k.ref.hand).scratch off (Memory.read v.mem pa len))) ∧
      (l.holder ≠ none → l.holder ≠ some k.ref →
        ((k.th.rx a).toNat / 2 ^ 16 % 2 = 1 → ∃ t, exec (.lkacq d a) s = .next t ∧ RetiredAlone s t k (k.next 1) [(d, 0)]) ∧
        ((k.th.rx a).toNat / 2 ^ 16 % 2 = 0 → k.ref ∉ l.queue →
          exec (.lkacq d a) s = .next { s.updThread k.ref (fun th => { th with wait := .lkacq d lk }) with
            locks := s.locks.set lk { l with queue := l.queue ++ [k.ref] } })) ∧
      (l.holder = some k.ref → bindStop s k.ref.hand l = some .waits → exec (.lkrel a) s = .next s) ∧
      (l.holder = some k.ref → bindStop s k.ref.hand l = none → drainStop s k = none → ∃ u l', exec (.lkrel a) s = .next u ∧
        u.thread? k.ref = some { k.th with pc := k.next 1, wait := .none, buffer := [], holds := k.th.holds.erase lk } ∧
        otherThreads s u k.ref ∧ MemOnly s { u with threads := s.threads, locks := s.locks } ∧ u.locks = s.locks.set lk l' ∧
        l' = { l with holder := none } ∧ (l.bind = [] → NoStore (drain s k) u) ∧ (k.ref.hand < 256 → releasedAt u k.ref.hand 3)) ∧
      (k.ctx.privileged = true →
        (l.holder ≠ none ∨ l.queue ≠ [] → ∃ t, exec (.lkbind d a b) s = .next t ∧ RetiredAlone s t k (k.next 1) [(d, 0)]) ∧
        (l.holder = none → l.queue = [] → k.th.rx b = 0 →
          exec (.lkbind d a b) s = .next { s.updThread k.ref (fun th => { th.wx d 1 with pc := k.next 1, wait := .none }) with
            locks := s.locks.set lk { l with bind := [] } }) ∧
        (∀ s₁ s₂ ws r, l.holder = none → l.queue = [] → k.th.rx b ≠ 0 → loadWords s k 3 (k.th.rx b) 8 = (s₁, .ok ws) →
          bindEntries s₁ k (pairs ws) 0 = (s₂, .ok r) → ∃ u buf, exec (.lkbind d a b) s = .next u ∧ (buf = k.th.buffer ∨ buf = []) ∧
            u.thread? k.ref = some { k.th.wx d 1 with pc := k.next 1, wait := .none, buffer := buf } ∧
            otherThreads s u k.ref ∧ MemOnly s { u with threads := s.threads, locks := s.locks } ∧ u.locks = s.locks.set lk { l with bind := r })))) ∧
  (∀ (s : State) (t : ThreadRef) (q : List ThreadRef) (k : Core) (lk n : Nat) (d : R5), (lockOf s lk).holder = none →
    (lockOf s lk).queue = t :: q → s.coreOf t = some k → k.th.wait = .lkacq d n →
    (threadFree s t k.th = false → exec (.lockGrant lk) s = .next s) ∧
    (threadFree s t k.th = true → bindStop s t.hand (lockOf s lk) = none → ∃ u x, exec (.lockGrant lk) s = .next u ∧ (lockOf u lk).holder = some t ∧ u.thread? t = some x ∧ x.wait = .none ∧ x.pc = k.next 1 ∧
      otherThreads s u t)) ∧
  ∀ (s : State) (x : Ctx) (c lk : Nat), s.ctx? c = some x → x.ended = false →
    (∃ u y, exec (.lockAllotment c lk true) s = .next u ∧ u.ctx? c = some { x with locks := y } ∧ lk ∈ y ∧ (∀ n, n ≠ lk → (n ∈ y ↔ n ∈ x.locks)) ∧
      otherCtxs s u c ∧ { u with ctxs := s.ctxs } = s) ∧
    (x.locks.Nodup → ∃ u y, exec (.lockAllotment c lk false) s = .next u ∧ u.ctx? c = some { x with locks := y } ∧ lk ∉ y ∧
      (∀ n, n ≠ lk → (n ∈ y ↔ n ∈ x.locks)) ∧ otherCtxs s u c ∧ { u with ctxs := s.ctxs } = s)

/-! ### Groups, deals, shows, deques, spawning (R26-R31, R182-R199) -/

/-- R28, R29, R31, R182, R184, R185. DEAL checks its word 0 in order (format, target, block), waits while the queue is full, and enqueues the
deal of four registers with the group's D2-D7 and next sequence number, which X[d] receives; the last flag closes the group.
A buffered store that cannot perform holds the DEAL, a release at .HD, up (R30,
R161). DEAL_STALL_RESUME is a waiting DEAL once more, if its thread may go on. DSET sets a pending Dn. In a handler the index of EGRP names the helper
queues. (The group state in a record about an index above 15 is the model's choice, log entry 80.) -/
def Obligations.Deals : Prop :=
  ∀ (s : State) (k : Core) (d a b n : R5) (gr : Group), s.coreOf k.ref = some k →
    let w0 := k.th.rx a
    let i := w0.toNat % 256
    let g := k.ref.group i
    let blocks := match imageOf s k.tm.ctx k.th.img with | some im => im.blockCount | none => 0
    let inHandler (i : Nat) : Prop := 0 < k.th.depth ∧ k.th.egrp.toNat = i
    let last : Prop := w0.toNat / 2 ^ 11 % 2 = 1
    let deal (ds : List W64) (q : BitVec 32) : Deal := ⟨w0, k.th.rx (a + 1), k.th.rx (a + 2), k.th.rx (a + 3), ds, q, false, k.th.img⟩
    let enqueued (u : State) (q : BitVec 32) (x : Group) : Prop :=
      u.thread? k.ref = some { k.th.wx d (q.setWidth 64) with pc := k.next 1, wait := .none, buffer := [] } ∧ u.group? g = some x ∧
        otherThreads s u k.ref ∧ otherGroups s u g ∧ MemOnly s { u with threads := s.threads, groups := s.groups } ∧ NoStore (drain s k) u
    let effect (r : Res) : Prop :=
      (∀ x ck, drainStop s k = some (x, ck) → (inHandler i ∧ gr.hqueue.length < 4) ∨ (¬inHandler i ∧ gr.queue.length < 64) →
        r = .next (storeRefused s k x ck)) ∧
      (¬inHandler i → gr.queue.length < 64 → drainStop s k = none → ∃ u, r = .next u ∧ (last → enqueued u gr.nextSeq
          { gr with queue := gr.queue ++ [deal gr.pendD gr.nextSeq], nextSeq := gr.nextSeq + 1, state := .closing }) ∧
        (¬last → enqueued u gr.nextSeq { gr with queue := gr.queue ++ [deal gr.pendD gr.nextSeq], nextSeq := gr.nextSeq + 1 })) ∧
      (inHandler i → gr.hqueue.length < 4 → drainStop s k = none → ∃ u, r = .next u ∧
        enqueued u gr.hnext { gr with hqueue := gr.hqueue ++ [deal gr.hd gr.hnext], hnext := gr.hnext + 1 }) ∧
      ((¬inHandler i ∧ 64 ≤ gr.queue.length) ∨ (inHandler i ∧ 4 ≤ gr.hqueue.length) →
        r = .next (s.updThread k.ref fun th => { th with wait := .deal d a }))
    let fault (f : FaultCode) : Prop :=
      exec (.deal d a) s = .next (threadFault s k f 0 w0 (if 15 < i then 0 else BitVec.ofNat 64 (groupOf s g).state.code))
    (s.cur = .thread k.ref →
      let form : Prop := w0.toNat / 2 ^ 12 % 2 ^ 4 = 0
      let target : Prop := i ≤ 15 ∧ (inHandler i → ¬last) ∧ (¬inHandler i → (groupOf s g).state = .live)
      (¬form → fault .dealFormat) ∧ (form → ¬target → fault .dealTarget) ∧
      (form → target → blocks ≤ w0.toNat / 2 ^ 48 → fault .dealBlock) ∧
      (form → target → w0.toNat / 2 ^ 48 < blocks → s.group? g = some gr → effect (exec (.deal d a) s)) ∧
      (∀ gn, 2 ≤ n.toNat → n.toNat ≤ 7 → (k.th.rx a).toNat ≤ 15 → s.group? (k.ref.group (k.th.rx a).toNat) = some gn →
        (¬inHandler (k.th.rx a).toNat → gn.state = .live → ∃ t, exec (.dset n a b) s = .next t ∧
          RetiredGroup s t k [] (k.ref.group (k.th.rx a).toNat) { gn with pendD := gn.pendD.set (n.toNat - 2) (k.th.rx b) }) ∧
        (inHandler (k.th.rx a).toNat → ∃ t, exec (.dset n a b) s = .next t ∧
          RetiredGroup s t k [] (k.ref.group (k.th.rx a).toNat) { gn with hd := gn.hd.set (n.toNat - 2) (k.th.rx b) }) ∧
        (¬inHandler (k.th.rx a).toNat → gn.state ≠ .live → exec (.dset n a b) s = .next
          (threadFault s k .dealTarget 0 (k.th.rx a) (BitVec.ofNat 64 gn.state.code)))) ∧
      (15 < (k.th.rx a).toNat → exec (.dset n a b) s = .next (threadFault s k .dealTarget 0 (k.th.rx a) 0))) ∧
    (k.th.wait = .deal d a → s.group? g = some gr →
      (threadFree s k.ref k.th = true → effect (exec (.dealStallResume k.ref) s)) ∧
      (threadFree s k.ref k.th = false → exec (.dealStallResume k.ref) s = .next s))

/-- R39, R186. SPOP takes the head show, its first words going to consecutive registers, and blocks while there is none; SPEEK reads it and
leaves it, or gives all ones; SPOP_RESUME is a blocked SPOP once more, if its thread may go on. An index above 15 or an UNSET group is GROUP_RANGE. -/
def Obligations.Shows : Prop :=
  ∀ (s : State) (k : Core) (d a c : R5) (gr : Group) (sh : Show) (rest : List Show), s.coreOf k.ref = some k → c.toNat < 8 → d ≠ 0 →
    d.toNat + c.toNat < 32 →
    let i := (k.th.rx a).toNat
    let g := k.ref.group i
    let handler : Prop := 0 < k.th.depth ∧ k.th.egrp.toNat = i
    let ds : List (R5 × W64) := (List.range (c.toNat + 1)).map fun j => (d + BitVec.ofNat 5 j, sh.getD j 0)
    let takes (r : Res) : Prop := s.group? g = some gr → sh.length = 8 →
      (¬handler → gr.shows = sh :: rest → ∃ t, r = .next t ∧ RetiredGroup s t k ds g { gr with shows := rest }) ∧
      (handler → gr.hshows = sh :: rest → ∃ t, r = .next t ∧ RetiredGroup s t k ds g { gr with hshows := rest }) ∧
      ((¬handler ∧ gr.shows = []) ∨ (handler ∧ gr.hshows = []) →
        r = .next (s.updThread k.ref fun th => { th with wait := .spop d a c }))
    (s.cur = .thread k.ref →
      (i ≤ 15 → (handler ∨ (groupOf s g).state ≠ .unset) →
        takes (exec (.spop d a c) s) ∧
        (s.group? g = some gr → sh.length = 8 →
          ((¬handler ∧ gr.shows = sh :: rest) ∨ (handler ∧ gr.hshows = sh :: rest) →
            ∃ t, exec (.speek d a c) s = .next t ∧ RetiredAlone s t k (k.next 1) ds) ∧
          ((¬handler ∧ gr.shows = []) ∨ (handler ∧ gr.hshows = []) →
            ∃ t, exec (.speek d a c) s = .next t ∧ RetiredAlone s t k (k.next 1) [(d, 0xFFFFFFFFFFFFFFFF)]))) ∧
      (15 < i ∨ (¬handler ∧ (groupOf s g).state = .unset) → ∀ j, (j = .spop d a c ∨ j = .speek d a c) →
        exec j s = .next (threadFault s k .groupRange 0 (k.th.rx a) 0))) ∧
    (k.th.wait = .spop d a c →
      (threadFree s k.ref k.th = true → takes (exec (.spopResume k.ref) s)) ∧
      (threadFree s k.ref k.th = false → exec (.spopResume k.ref) s = .next s))

/-- R25, R26, R182, R183, R188, R189. SGRP takes free units of the role's pool for an UNSET or CLOSED group and makes it LIVE with empty queues
and cleared operands, or gives 0 where the pool is short; GIVE and CLAIM move free units between two roles of the team; QSTAT reports a
group's queues. -/
def Obligations.GroupUnits : Prop :=
  ∀ (s : State) (k : Core) (d a b : R5), s.core = some k →
    let idx := k.th.rx a
    let cfg := k.th.rx b
    let g := k.ref.group idx.toNat
    let gr := groupOf s g
    let lg := match k.tm.roles.get? k.ref.role with | some r => r.bind.getD idx.toNat 0 | none => 0
    let free := freeUnits k.tm k.ref.role lg
    let n := cfg.toNat % 16
    let good : Prop := cfg.toNat < 2 ^ 32 ∧ cfg.toNat / 2 ^ 4 % 2 ^ 12 = 0 ∧ 1 ≤ n ∧ n ≤ 8
    let room : Prop := n ≤ free.length ∧ residentGroups s k.ref.hand lg < 16
    let fault (f : FaultCode) : Prop := exec (.sgrp d a b) s = .next (threadFault s k f 0 idx cfg)
    (15 < idx.toNat → fault .groupRange) ∧
    (idx.toNat ≤ 15 → gr.state = .live ∨ gr.state = .closing → fault .groupBusy) ∧
    (idx.toNat ≤ 15 → gr.state = .unset ∨ gr.state = .closed →
      (¬good → fault .sgrpFormat) ∧
      (good → ¬room → ∃ t, exec (.sgrp d a b) s = .next t ∧ RetiredAlone s t k (k.next 1) [(d, 0)]) ∧
      (good → room → ∃ t, exec (.sgrp d a b) s = .next t ∧ Retired s t k (k.next 1) [(d, 1)] ∧
        t.group? g = some { State.emptyGroup with
          state := .live, lg := lg, units := free.take n, swapThr := BitVec.ofNat 16 (cfg.toNat / 2 ^ 16),
          gseg := gr.gseg, pseg := gr.pseg, kseg := gr.kseg, lseg := gr.lseg } ∧
        t.team? k.ref.team = some (setFree k.tm k.ref.role lg (free.drop n)) ∧ otherGroups s t g ∧ otherTeams s t k.ref.team ∧ sameBytes s t ∧
        { t with threads := s.threads, teams := s.teams, groups := s.groups } = s)) ∧
    (let r := idx.toNat
     let lg := cfg.toNat % 4
     let n := cfg.toNat / 2 ^ 8 % 2 ^ 8
     let mine := freeUnits k.tm k.ref.role lg
     let theirs := freeUnits k.tm r lg
     let other : Prop := (k.tm.roles.get? r).isSome = true ∧ r ≠ k.ref.role
     (other → 1 ≤ n → n ≤ mine.length → ∃ t, exec (.give d a b) s = .next t ∧ RetiredTeam s t k [(d, BitVec.ofNat 64 n)]
       (setFree (setFree k.tm k.ref.role lg (mine.drop n)) r lg (theirs ++ mine.take n))) ∧
     (¬other ∨ n = 0 ∨ mine.length < n → ∃ t, exec (.give d a b) s = .next t ∧ RetiredAlone s t k (k.next 1) [(d, 0)]) ∧
     (other → 1 ≤ min n theirs.length → ∃ t, exec (.claim d a b) s = .next t ∧
       RetiredTeam s t k [(d, BitVec.ofNat 64 (min n theirs.length))]
         (setFree (setFree k.tm r lg (theirs.drop (min n theirs.length))) k.ref.role lg (mine ++ theirs.take (min n theirs.length)))) ∧
     (¬other ∨ min n theirs.length = 0 → ∃ t, exec (.claim d a b) s = .next t ∧ RetiredAlone s t k (k.next 1) [(d, 0)])) ∧
    (idx.toNat ≤ 15 → ¬(0 < k.th.depth ∧ k.th.egrp.toNat = idx.toNat) → gr.queue.length < 256 → gr.shows.length < 256 →
      ∃ t v, exec (.qstat d a) s = .next t ∧ RetiredAlone s t k (k.next 1) [(d, v)] ∧
        v.toNat / 2 ^ 32 = (if gr.state = .unset then 0 else gr.lastRet.toNat) ∧ v.toNat / 2 ^ 24 % 2 ^ 8 = gr.queue.length ∧
        v.toNat / 2 ^ 16 % 2 ^ 8 = gr.shows.length ∧
        v.toNat / 2 ^ 14 % 4 = (match gr.state with | .unset => 0 | .live => 1 | .closing => 2 | .closed => 3) ∧
        (v.toNat / 2 ^ 13 % 2 = 1 ↔ ∃ r, gr.run = some r ∧ r.started = true) ∧ v.toNat % 2 ^ 13 = 0) ∧
    (idx.toNat ≤ 15 → 0 < k.th.depth → k.th.egrp.toNat = idx.toNat → gr.state ≠ .unset → gr.hqueue.length < 256 → gr.hshows.length < 256 →
      ∃ t v, exec (.qstat d a) s = .next t ∧ RetiredAlone s t k (k.next 1) [(d, v)] ∧
        v.toNat / 2 ^ 32 = (gr.hnext - 1 - BitVec.ofNat 32 gr.hqueue.length).toNat ∧ v.toNat / 2 ^ 24 % 2 ^ 8 = gr.hqueue.length ∧
        v.toNat / 2 ^ 16 % 2 ^ 8 = gr.hshows.length ∧ (v.toNat / 2 ^ 13 % 2 = 1 ↔ ∃ r, gr.hrun = some r ∧ r.started = true)) ∧
    (15 < idx.toNat → exec (.qstat d a) s = .next (threadFault s k .groupRange 0 idx 0))

/-- R40, R187. CANCEL marks, in each LIVE or CLOSING group that X[a] selects and in the helper queue of a handler's own group, the waiting deals
that are cancellable and whose tag agrees under the mask, and stops a running one; X[d] is the number of deals it marked or stopped; groups not
selected, UNSET or CLOSED keep everything. -/
def Obligations.Cancels : Prop :=
  (∀ (s : State) (k : Core) (d a b : R5), s.core = some k →
    let v := (k.th.rx b).toNat % 2 ^ 8
    let m := (k.th.rx b).toNat / 2 ^ 8 % 2 ^ 8
    let handler (i : Nat) : Prop := 0 < k.th.depth ∧ k.th.egrp.toNat = i
    let live (x : Group) : Prop := x.state = .live ∨ x.state = .closing
    let main (x : Group) := cancelQueue v m x.queue x.run
    let help (x : Group) := cancelQueue v m x.hqueue x.hrun
    let count (i : Nat) : Nat :=
      let x := groupOf s (k.ref.group i)
      if (k.th.rx a).getLsbD i = false then 0 else if handler i then (help x).2.2 else if live x then (main x).2.2 else 0
    let after (i : Nat) (x : Group) : Group :=
      if (k.th.rx a).getLsbD i = false then x
      else if handler i then { x with hqueue := (help x).1, hrun := (help x).2.1 }
      else if live x then { x with queue := (main x).1, run := (main x).2.1 } else x
    ∃ t, exec (.cancel d a b) s = .next t ∧ Retired s t k (k.next 1) [(d, BitVec.ofNat 64 ((List.range 16).map count).sum)] ∧
      { t with threads := s.threads, groups := s.groups } = s ∧ sameBytes s t ∧
      (∀ i < 16, t.group? (k.ref.group i) = (s.group? (k.ref.group i)).map (after i)) ∧
      (∀ q, (∀ i < 16, groupKey q ≠ groupKey (k.ref.group i)) → t.group? q = s.group? q)) ∧
  ∀ (v m : Nat) (q : List Deal) (r : Option Run),
    let hit (x : Deal) : Bool := x.w0.toNat / 2 ^ 9 % 2 = 1 && !x.cancelled && (x.w0.toNat / 2 ^ 16 % 2 ^ 8 &&& m) = (v &&& m)
    let mark (x : Deal) : Deal := if hit x then { x with cancelled := true } else x
    (r = none → cancelQueue v m q r = (q.map mark, none, q.countP hit)) ∧
    (∀ y d ds, r = some y → y.started = true → q = d :: ds →
      let stop : Bool := !y.stopped && hit y.deal
      cancelQueue v m q r = (d :: ds.map mark, some (if stop then { y with stopped := true } else y), ds.countP hit + if stop then 1 else 0)) ∧
    ∀ y d ds, r = some y → y.started = false → q = d :: ds → ∃ z,
      cancelQueue v m q r = (q.map mark, some z, q.countP hit) ∧ (hit d = false → z = y) ∧ (hit d = true → z.stopped = true ∧ z.s = 0)

/-- R196, R198. DQPUSH adds a record of the context at the bottom of the hand's deque, or gives 0 where 256 stand there; DQPOP takes the
context's bottommost record, STEAL the context's topmost of another hand of its die, and each acquires at .DI. Where d is one of the record's
registers, the 1 stays in it (log entry 104, DESIGN CHOICE). -/
def Obligations.Deques : Prop :=
  ∀ (s : State) (k : Core) (d a b : R5) (h : Nat) (top bottom : List (Nat × List W64)) (ws : List W64), s.core = some k →
    let own := k.ref.hand
    let c := k.tm.ctx
    let taken (q : Nat) (u : State) : Prop :=
      Retired s u k (k.next 1) [(d, 1), (b, ws.getD 0 0), (b + 1, ws.getD 1 0), (b + 2, ws.getD 2 0), (b + 3, ws.getD 3 0)] ∧
        (∀ h, (u.hand h).core = if h = q then { (s.hand q).core with deque := top ++ bottom } else (s.hand h).core) ∧
        MemOnly s { u with threads := s.threads, hands := s.hands } ∧ NoStore s u ∧ (own < 256 → acquiredAt u own 2)
    let zero (i : Instr) : Prop := ∃ t, exec i s = .next t ∧ RetiredAlone s t k (k.next 1) [(d, 0)]
    (256 ≤ (s.hand own).deque.length → zero (.dqpush d a)) ∧
    ((s.hand own).deque.length < 256 → ∀ x ck, drainStop s k = some (x, ck) → exec (.dqpush d a) s = .next (storeRefused s k x ck)) ∧
    ((s.hand own).deque.length < 256 → drainStop s k = none → ∃ u, exec (.dqpush d a) s = .next u ∧
      u.thread? k.ref = some { k.th.wx d 1 with pc := k.next 1, wait := .none, buffer := [] } ∧ otherThreads s u k.ref ∧
      (∀ h, (u.hand h).core = if h = own then
        { (s.hand own).core with deque := (s.hand own).deque ++ [(c, [k.th.rx a, k.th.rx (a + 1), k.th.rx (a + 2), k.th.rx (a + 3)])] }
        else (s.hand h).core) ∧
      MemOnly s { u with threads := s.threads, hands := s.hands } ∧ NoStore (drain s k) u ∧ (own < 256 → releasedAt u own 2)) ∧
    ((∀ r ∈ (s.hand own).deque, r.1 ≠ c) → zero (.dqpop d b)) ∧
    (ws.length = 4 → (s.hand own).deque = top ++ (c, ws) :: bottom → (∀ r ∈ bottom, r.1 ≠ c) →
      ∃ u, exec (.dqpop d b) s = .next u ∧ taken own u) ∧
    (let v := (k.th.rx a).toNat % 256
     let anyHand : Prop := (k.th.rx a).toNat / 2 ^ 8 % 2 = 1
     let victim (x : Nat) : Prop := x < 256 ∧ clusterOf x = clusterOf own ∧ x ≠ own ∧ s.enabled x = true ∧ s.resident c x = true
     let fault (f : FaultCode) : Prop := exec (.steal d a b) s = .next (threadFault s k f 0 (k.th.rx a) 0)
     (¬anyHand → s.enabled v = false → fault .nodeAbsent) ∧
     (¬anyHand → s.enabled v = true → s.resident c v = false → fault .handOwner) ∧
     (¬anyHand → s.enabled v = true → s.resident c v = true → dieOf v ≠ dieOf own → fault .stealRange) ∧
     ((¬anyHand ∧ s.enabled v = true ∧ s.resident c v = true ∧ dieOf v = dieOf own ∧ h = v) ∨
       (anyHand ∧ victim h ∧ ∀ x, victim x → x < h → ∀ r ∈ (s.hand x).deque, r.1 ≠ c) →
      ws.length = 4 → (s.hand h).deque = top ++ (c, ws) :: bottom → (∀ r ∈ top, r.1 ≠ c) →
      ∃ u, exec (.steal d a b) s = .next u ∧ taken h u) ∧
     ((¬anyHand ∧ s.enabled v = true ∧ s.resident c v = true ∧ dieOf v = dieOf own ∧ (∀ r ∈ (s.hand v).deque, r.1 ≠ c)) ∨
       (anyHand ∧ ∀ x, victim x → ∀ r ∈ (s.hand x).deque, r.1 ≠ c) → zero (.steal d a b)))

/-- R190, R194, R195, R199. SPAWN halves the weight and sends a request for one child with its half, unless the weight is below 2; MXGO starts
the stream unless it runs; YIELD waits with its continuation, and YIELD_RESUME ends the wait for one of its three reasons, once that has come,
if the thread may go on; EXIT ends the thread, and the last of a team ends the team. A full event queue holds a SPAWN up (R308). Targets
have passed their check, and the buffered stores and held locks' ranges can move (R161, R374). -/
def Obligations.TeamWork : Prop :=
  (∀ (s s₁ : State) (k : Core) (d a b : R5), s.core = some k →
    let w := k.tm.wgt
    let phase := (barrierOf k.tm ((k.th.rx b).toNat % 32)).phase
    let left := 256 * ((k.th.rx b).toNat / 2 ^ 16 % 2 ^ 16)
    let det (f : FaultCode) := targetDetails s₁ k.tm.ctx k.th.img f (k.th.rx a)
    (checkTarget s k.ref.hand k.tm.ctx k.th.img .cc true (k.th.rx a) = (s₁, .ok) →
      (w.toNat < 2 → exec (.spawn d a b) s = .next (threadFault s₁ k .weightEmpty 0 w 0)) ∧
      (2 ≤ w.toNat → s₁.eventsFull = true → exec (.spawn d a b) s = .next s₁) ∧
      (2 ≤ w.toNat → s₁.eventsFull = false → drainStop s₁ k = none → ∃ u x, exec (.spawn d a b) s = .next u ∧
        u.thread? k.ref = some { k.th.wx d (BitVec.ofNat 64 (w.toNat / 2)) with pc := k.next 1, wait := .none, buffer := [] } ∧
        u.team? k.ref.team = some { k.tm with wgt := BitVec.ofNat 64 (w.toNat - w.toNat / 2), spawned := true } ∧
        u.events = s₁.events ++ [.spawn x] ∧ x.launch = k.tm.launch ∧ x.ctx = k.tm.ctx ∧ x.img = k.th.img ∧ x.entry = (k.th.rx a).toNat ∧
        x.x = [k.th.rx b, BitVec.ofNat 64 (w.toNat / 2)] ∧ x.wgt = BitVec.ofNat 64 (w.toNat / 2) ∧ x.wroot = k.tm.wroot ∧ x.gang = false ∧
        MemOnly s₁ { u with threads := s₁.threads, teams := s₁.teams, events := s₁.events } ∧ NoStore (drain s₁ k) u)) ∧
    (checkTarget s k.ref.hand k.tm.ctx k.th.img .matrix true (k.th.rx a) = (s₁, .ok) →
      (k.tm.stream.running = true → k.tm.stream.stopped = false → ∃ u, exec (.mxgo d a) s = .next u ∧
        RetiredAlone s₁ u k (k.next 1) [(d, 0)]) ∧
      (k.tm.stream.running = false ∨ k.tm.stream.stopped = true → drainStop s₁ k = none → ∃ u tm, exec (.mxgo d a) s = .next u ∧
        u.thread? k.ref = some { k.th.wx d 1 with pc := k.next 1, wait := .none, buffer := [] } ∧
        u.team? k.ref.team = some { k.tm with stream := tm } ∧ tm.running = true ∧ tm.stopped = false ∧ tm.img = k.th.img ∧
        tm.pc = (k.th.rx a).toNat ∧ tm.fpx = 0 ∧ tm.owner = k.ref.role ∧ tm.mma = none ∧ tm.waitBar = none ∧ tm.waitHadv = none ∧
        tm.arrival = k.tm.stream.arrival ∧ otherTeams s₁ u k.ref.team)) ∧
    (k.th.rx a = 0 → exec (.yield d a b) s =
      .next (s.updThread k.ref fun th => { th with wait := .yield d (k.next 1) (k.th.rx b) phase left, yields := siblings s k.ref })) ∧
    (k.th.rx a ≠ 0 → checkTarget s k.ref.hand k.tm.ctx k.th.img .cc false (k.th.rx a) = (s₁, .ok) → exec (.yield d a b) s =
      .next (s₁.updThread k.ref fun th =>
        { th with wait := .yield d (k.th.rx a).toNat (k.th.rx b) phase left, yields := siblings s₁ k.ref })) ∧
    (∀ f, checkTarget s k.ref.hand k.tm.ctx k.th.img .cc true (k.th.rx a) = (s₁, .stop (.fault f)) →
      exec (.spawn d a b) s = .next (threadFault s₁ k f (det f).1 (det f).2.1 (det f).2.2)) ∧
    (∀ f, checkTarget s k.ref.hand k.tm.ctx k.th.img .matrix true (k.th.rx a) = (s₁, .stop (.fault f)) →
      exec (.mxgo d a) s = .next (threadFault s₁ k f (det f).1 (det f).2.1 (det f).2.2)) ∧
    (∀ c cs, k.th.copyFaults = c :: cs → exec .exit s =
      .next ((threadFault s k .copyFault 0 (BitVec.ofNat 64 c.code) c.seq).updThread k.ref fun th => { th with copyFaults := cs })) ∧
    (k.th.copyFaults = [] → k.th.holds.keys.findSome? (fun lk => bindStop s k.ref.hand (lockOf s lk)) = none → drainStop s k = none →
      ∃ u, exec .exit s = .next u ∧
      u.thread? k.ref = some { k.th with wait := .exited, holds := [], buffer := [] } ∧ otherThreads s u k.ref ∧
      (∀ lk ∈ k.th.holds.keys, (lockOf u lk).holder = none) ∧
      ((teamThreads s k.ref.team).all (fun t => threadKey t = threadKey k.ref || (s.thread? t).map (·.wait) = some .exited) = true →
        u.team? k.ref.team = some { k.tm with ending := true, lastRole := k.ref.role }) ∧
      (∀ t ∈ teamThreads s k.ref.team, threadKey t ≠ threadKey k.ref → (s.thread? t).map (·.wait) ≠ some .exited →
        u.team? k.ref.team = some k.tm))) ∧
  ∀ (s : State) (t : ThreadRef) (k : Core) (d : R5) (cont : Nat) (b : W64) (phase : BitVec 32) (left : Nat), s.coreOf t = some k →
    k.th.wait = .yield d cont b phase left →
    let ends (why : YieldWhy) (v : W64) : Prop :=
      (threadFree s t k.th = true →
        exec (.yieldResume t why) s = .next (s.updThread t fun th => { th.wx d v with pc := cont, wait := .none, yields := [] })) ∧
      (threadFree s t k.th = false → exec (.yieldResume t why) s = .next s)
    let waits (why : YieldWhy) : Prop := exec (.yieldResume t why) s = .next s
    let bar : Prop := b.toNat / 2 ^ 5 % 2 = 1
    let moved : Prop := (barrierOf k.tm (b.toNat % 32)).phase ≠ phase
    let limit : Prop := b.toNat / 2 ^ 16 % 2 ^ 16 ≠ 0
    (bar → moved → ends .phase 1) ∧ (¬bar ∨ ¬moved → waits .phase) ∧ (limit → left = 0 → ends .limit 0) ∧ (¬limit ∨ 0 < left → waits .limit) ∧
    (¬bar → (∀ q ∈ k.th.yields, decodable s q = false) → ends .round 0) ∧
    (bar ∨ (∃ q ∈ k.th.yields, decodable s q = true) → waits .round)

/-! ### Emulation (R292-R299) -/

/-- R292-R294, R299. At its instruction boundary a thread that holds a cause of one of its own entries enters the handler that the table names
for it: DEPTH rises by 1, X16-X31 and the seven handler registers go to ESAVE + 256 (DEPTH - 1), EPC, EOPC and EINFO describe the entry, and
it goes on at the handler. An entry of 0 or no table gives the library's default; a third level is EMU_DEPTH. -/
def Obligations.HandlerEntry : Prop :=
  ∀ (s : State) (k : Core) (c : CauseRec), s.coreOf k.ref = some k → handRuns s k.ref.hand = true → held s (.thread k.ref) = false → isParked s (.thread k.ref) = false →
    nextCause k.th = some c → c.cause ≠ .deprecated →
    let step := exec (.emulationEntry k.ref) s
    let depth := k.th.depth + 1
    (2 ≤ k.th.depth → step = .next (emuFatal s k c .emuDepth)) ∧
    (k.th.depth < 2 → k.ctx.eht.toNat / 64 = 0 →
      (c.cause = .reservedField ∨ c.cause = .undefined → step = .next (emuFatal s k c .emuUnhandled))) ∧
    ∀ (s₁ s₂ s₃ : State) (e : W64), k.th.depth < 2 → k.ctx.eht.toNat / 64 ≠ 0 →
      loadWords s k 3 (k.ctx.eht + BitVec.ofNat 64 (8 * c.cause.code)) 1 = (s₁, .ok [e]) →
      (e = 0 → c.cause = .reservedField ∨ c.cause = .undefined → step = .next (emuFatal s₁ k c .emuUnhandled)) ∧
      (e ≠ 0 → e.toNat / 2 ^ 30 % 4 = 0 → c.engine = .cc → c.group = none →
        checkTarget s₁ k.ref.hand k.tm.ctx (e.toNat / 2 ^ 32) .cc true (BitVec.ofNat 64 (e.toNat % 2 ^ 30)) = (s₂, .ok) →
        drainStop s₂ k = none →
        storeWords (drain s₂ k) k (k.th.esave + BitVec.ofNat 64 (256 * k.th.depth))
          (((List.range 16).map fun i => k.th.x.toList.getD (16 + i) 0) ++
            [k.th.epc, k.th.eopc, k.th.einfo, k.th.exa, k.th.exb, k.th.exd, k.th.egrp] ++ List.replicate 9 0) = (s₃, .ok ()) →
        let f (n : Nat) : W64 := k.th.rx (BitVec.ofNat 5 ((c.word 0).toNat / 2 ^ n % 2 ^ 5))
        ∃ u w a b d, step = .next u ∧ w.cause = c ∧ w.outer = none ∧ w.egrp = 0xFF ∧ w.groups = [] ∧
          ((c.word 0).toNat / 2 ^ 26 < 0x20 → a = f 16 ∧ b = f 11 ∧ d = f 21) ∧
          u.thread? k.ref = some { k.th with
            depth := depth, epc := BitVec.ofNat 64 (c.img * 2 ^ 32 + c.pc), eopc := c.word 1 ++ c.word 0,
            einfo := BitVec.ofNat 64 ((c.word 2).toNat * 2 ^ 32 + c.cause.code * 2 ^ 26 + depth * 2 ^ 24), exa := a, exb := b, exd := d, egrp := 0xFF,
            windows := w :: k.th.windows, causes := k.th.causes.erase c, img := e.toNat / 2 ^ 32, pc := e.toNat % 2 ^ 30, wait := .none,
            buffer := [] } ∧
          otherThreads s u k.ref ∧ { u with threads := s₃.threads, waiters := s₃.waiters } = s₃)

/-- R297, R298. EMRET and ERET read the frame and give back X16-X31 and the handler registers of the outer level. For a cause of the control core
ERET goes on at EPC and writes nothing; EMRET writes EXD to the register that its operand names where bit 0 is 1, and goes on behind the
entry, or at EPC with bit 4. Outside a handler both fault. -/
def Obligations.HandlerReturn : Prop :=
  ∀ (s : State) (k : Core) (a : R5), s.core = some k →
    (k.th.windows = [] → exec .eret s = .next (threadFault s k .emuState 0 (encDetail .eret) 0) ∧
      (k.ctx.privileged = true → exec (.emret a) s = .next (threadFault s k .emuState 0 (encDetail (.emret a)) 0))) ∧
    ∀ (w : Window) (rest : List Window) (s₁ s₂ : State) (ws : List W64), k.th.windows = w :: rest → w.cause.engine = .cc →
      w.cause.cause ≠ .deprecated → w.groups = [] → ws.length = 23 →
      let v := k.th.rx a
      let frame := k.th.esave + BitVec.ofNat 64 (256 * (k.th.depth - 1))
      let target := checkTarget s k.ref.hand k.tm.ctx (k.th.epc.toNat / 2 ^ 32) .cc false (BitVec.ofNat 64 (k.th.epc.toNat % 2 ^ 32))
      let back (u : State) (img pc : Nat) (d : Option R5) : Prop :=
        (∃ th, u.thread? k.ref = some th ∧
          (∀ n : R5, th.rx n = if d = some n ∧ n ≠ 0 then k.th.exd else if 16 ≤ n.toNat then ws.getD (n.toNat - 16) 0 else k.th.rx n) ∧
          { th with x := k.th.x } = { k.th with
            img := img, pc := pc, wait := .none, depth := k.th.depth - 1, windows := rest, buffer := [], epc := ws.getD 16 0,
            eopc := ws.getD 17 0, einfo := ws.getD 18 0, exa := ws.getD 19 0, exb := ws.getD 20 0, exd := ws.getD 21 0, egrp := ws.getD 22 0 }) ∧
        otherThreads s u k.ref
      (target = (s₁, .ok) → drainStop s₁ k = none → loadWords s₁ k 0 frame 23 = (s₂, .ok ws) →
        (∃ u, exec .eret s = .next u ∧ back u (k.th.epc.toNat / 2 ^ 32) (k.th.epc.toNat % 2 ^ 30) none) ∧
        (v.getLsbD 4 = true → ∃ u, exec (.emret a) s = .next u ∧ back u (k.th.epc.toNat / 2 ^ 32) (k.th.epc.toNat % 2 ^ 30)
          (if v.getLsbD 0 = true then some (BitVec.ofNat 5 (v.toNat / 2 ^ 8 % 2 ^ 5)) else none))) ∧
      (v.getLsbD 4 = false → drainStop s k = none → loadWords s k 0 frame 23 = (s₂, .ok ws) →
        ∃ u, exec (.emret a) s = .next u ∧ back u w.cause.img
          (nextOf (linkedLine s₂ k.ref.hand k.tm.ctx w.cause.img (w.cause.pc / 16)) w.cause.pc (instrWords .cc (w.cause.word 0)))
          (if v.getLsbD 0 = true then some (BitVec.ofNat 5 (v.toNat / 2 ^ 8 % 2 ^ 5)) else none))

/-! ### Lane groups: issue and arithmetic (R33-R37, R201-R221) -/

/-- R33, R36, R37, R227. A lane instruction whose stage is off takes its position, at which the results due land, and has no other effect; one that
awaits a token waits until the token's operations are done; where one of those has met a deferred fault, the group faults instead. A lane
NOP takes as many positions as its field says, at least one, and the results due at them land. -/
def Obligations.LaneIssue : Prop :=
  ∀ (s : State) (l : Lane) (f : LaneW) (m : MemW) (x : BitVec 32), s.cur = .group l.ref → s.laneOf l.ref = some l →
    let landed (n : Nat) : State := landDue s l.ref (l.gr.pos + n - 1)
    let passes (i : Instr) (w n : Nat) : Prop :=
      ∃ t g, exec i s = .next t ∧ (landed n).group? l.ref = some g ∧ g.pos = l.gr.pos ∧ Issued (landed n) t l w n g
    (∀ n : BitVec 6, passes (.laneNop n) 1 (if n = 0 then 1 else n.toNat)) ∧
    ∀ p ∈ laneInstrs f m x,
      let on : Prop := l.run.s.getLsbD f.stage.toNat = true
      (¬on → passes p.1 p.2 1) ∧
      (∀ o, on → deferredOn l f.await = some o → exec p.1 s = .next (deferredFault s l o)) ∧
      ∀ n < 8, on → deferredOn l f.await = none → f.await.getLsbD n = true → tokenCount l.gr n ≠ 0 → exec p.1 s = .next s

/-- R94, R206, R207. The integer instructions on every sub-element of a type: sums, products and absolute values exact, then wrapped, or clamped with
the saturation flag under .SAT; logic, shifts by b mod w, minimum and maximum, leading zeros and one bits. The retired VAVG and VSAD
give the same where the library serves them, else raise their cause (R86). Which of several
tiles beyond the allocation TILE_RANGE names is log entry 24 (DEDUCED). -/
def Obligations.LaneInteger : Prop :=
  ∀ (s u : State) (f : LaneW) (l : Lane), Issues s u f l → f.ty.toNat < 8 →
    let w := tyWidth f.ty.toNat
    let wide : Bool := f.ty.toNat = 3 || f.ty.toNat = 7
    let signed : Bool := f.ty.toNat < 4
    let lo : Int := if signed then -2 ^ (w - 1) else 0
    let hi : Int := if signed then 2 ^ (w - 1) - 1 else 2 ^ w - 1
    let sval (x : Nat) : Int := if 2 ^ (w - 1) ≤ x then (x : Int) - 2 ^ w else x
    let val (x : Nat) : Int := if signed then sval x else x
    let wrap (x : Int) : Nat := (x % 2 ^ w).toNat
    let fit (x : Int) : Nat × Flags := if f.sat = 1 ∧ (x < lo ∨ hi < x) then (wrap (max lo (min hi x)), fSat) else (wrap x, 0)
    let d := pairOf wide f.vd
    let a := pairOf wide f.va
    let b := pairOf wide f.vb
    let c := flexTiles f wide
    let gives (i : Instr) (lat : Nat) (ts : List Nat) (op : Nat → Nat → Nat → Nat × Flags) : Prop :=
      LaneGives s u l i ts fun t => ∃ vals fl,
        Elementwise w (l.act f) op (l.src u wide f.va.toNat) (l.src u wide f.vb.toNat) (l.flex u f f.ty.toNat) vals fl ∧
          Issued u t l 2 1 (l.withTile lat wide f.vd.toNat (l.act f) vals fl)
    let bin (i : Instr) (l32 l64 : Nat) (op : Nat → Nat → Nat × Flags) : Prop :=
      gives i (if wide then l64 else l32) (d ++ a ++ c) fun x _ z => op x z
    let un (i : Instr) (op : Nat → Nat × Flags) : Prop := gives i (if wide then 8 else 4) (d ++ c) fun _ _ z => op z
    bin (.vadd f) 4 8 (fun x z => fit (val x + val z)) ∧ bin (.vsub f) 4 8 (fun x z => fit (val x - val z)) ∧
    bin (.vmul f) 8 16 (fun x z => fit (val x * val z)) ∧ bin (.vmulh f) 8 16 (fun x z => (wrap (val x * val z / 2 ^ w), 0)) ∧
    gives (.vmad f) (if wide then 16 else 8) (d ++ a ++ b ++ c) (fun x y z => fit (val x * val y + val z)) ∧
    bin (.vand f) 4 4 (fun x z => (x &&& z, 0)) ∧ bin (.vor f) 4 4 (fun x z => (x ||| z, 0)) ∧ bin (.vxor f) 4 4 (fun x z => (x ^^^ z, 0)) ∧
    bin (.vshl f) 4 8 (fun x z => (x <<< (z % w) % 2 ^ w, 0)) ∧ bin (.vshr f) 4 8 (fun x z => (x >>> (z % w), 0)) ∧
    bin (.vsra f) 4 8 (fun x z => (wrap (sval x / 2 ^ (z % w)), 0)) ∧
    bin (.vmin f) 4 8 (fun x z => (if val x ≤ val z then x else z, 0)) ∧ bin (.vmax f) 4 8 (fun x z => (if val x ≤ val z then z else x, 0)) ∧
    un (.vabs f) (fun z => fit |val z|) ∧ un (.vneg f) (fun z => fit (-val z)) ∧
    un (.vclz f) (fun z => (if z = 0 then w else w - 1 - Nat.log2 z, 0)) ∧
    un (.vpopc f) (fun z => ((List.range w).countP fun i => z.testBit i, 0)) ∧
    (libraryServes l.ctx l.th l.helper = true →
      gives (.vavg f) 4 (d ++ a ++ b) (fun x y _ => (wrap ((val x + val y + 1) / 2), 0)) ∧
      gives (.vsad f) 4 (d ++ a ++ b ++ c) (fun x y z => (wrap (val z + |val x - val y|), 0))) ∧
    (libraryServes l.ctx l.th l.helper = false →
      ∀ i ∈ [Instr.vavg f, .vsad f], exec i s = .next (laneCause u l .retired (wordsOf i) (some i)))

/-- R208, R209, R221. VSEL, VMOV, VLI and VIOTA write whole elements; VCMP writes one bit for each element, from the sub-element that vb names;
MAND to MROW combine mask registers, and MCNT counts the one bits of each mask row. Which of several
tiles beyond the allocation TILE_RANGE names is log entry 24 (DEDUCED). -/
def Obligations.LaneMoves : Prop :=
  ∀ (s u : State) (f : LaneW) (l : Lane) (imm : BitVec 32), Issues s u f l →
    let ty := f.ty.toNat
    let w := tyWidth ty
    let wide : Bool := w = 64
    let d := pairOf wide f.vd
    let c := flexTiles f wide
    let A := l.src u wide f.va.toNat
    let B := l.src u wide f.vb.toNat
    let C := l.flex u f ty
    let moves (i : Instr) (lat n : Nat) (wide : Bool) (ts : List Nat) (v : Nat → W64) : Prop :=
      LaneGives s u l i ts fun t => Issued u t l n 1 (l.withTile lat wide f.vd.toNat (l.act f) ((List.range 1024).map v) 0)
    let mask (n : BitVec 6) : Mask := l.mask (n.toNat % 16)
    let masks (i : Instr) (v : Mask) : Prop := ∃ t, exec i s = .next t ∧ Issued u t l 2 1 (l.withMask 4 (f.vd.toNat % 16) (l.act f) v 0)
    moves (.vsel f) 4 2 wide (d ++ pairOf wide f.va ++ pairOf wide f.vb)
      (fun i => if (mask f.vc).getLsbD i = true then A.getD i 0 else B.getD i 0) ∧
    moves (.vmov f) 4 2 wide (d ++ c) (fun i => C.getD i 0) ∧
    moves (.viota f) 4 2 false (f.vd.toNat :: flexTiles f false)
      (fun i => BitVec.ofNat 64 (((C.getD i 0).toNat + if f.op3 = 0 then i % 64 else if f.op3 = 1 then i / 64 else i) % 2 ^ 32)) ∧
    moves (.vli f imm) 4 3 wide d (fun _ => if f.ty = 3 then imm.signExtend 64 else imm.setWidth 64) ∧
    (ty < 8 →
      let val (x : Nat) : Int := if ty < 4 ∧ 2 ^ (w - 1) ≤ x then (x : Int) - 2 ^ w else x
      let j := if w < 32 then f.vb.toNat else 0
      let holds (x y : Int) : Prop :=
        match f.op3.toNat with | 0 => x = y | 1 => x ≠ y | 2 => x < y | 3 => x ≤ y | 4 => y < x | _ => y ≤ x
      LaneGives s u l (.vcmp f) (pairOf wide f.va ++ c) fun t => ∃ v : Mask,
        (∀ i < 1024, (v.getLsbD i = true ↔ holds (val (subAt w j (A.getD i 0))) (val (subAt w j (C.getD i 0))))) ∧
          Issued u t l 2 1 (l.withMask (if wide then 8 else 4) (f.vd.toNat % 16) (l.act f) v 0)) ∧
    masks (.mand f) (mask f.va &&& mask f.vb) ∧ masks (.mor f) (mask f.va ||| mask f.vb) ∧ masks (.mxor f) (mask f.va ^^^ mask f.vb) ∧
    masks (.mnot f) (~~~(mask f.va)) ∧
    (∃ v : Mask, masks (.mrow f) v ∧ ∀ i < 1024, v.getLsbD i = (mask f.va).getLsbD
      (64 * (if f.kind = 1 then (l.d f.vc.toNat).toNat % 16 else f.vc.toNat % 16) + i % 64)) ∧
    moves (.mcnt f) 8 2 false [f.vd.toNat]
      (fun i => BitVec.ofNat 64 ((List.range 64).countP fun n => (mask f.va).getLsbD (64 * (i / 64) + n)))

/-- R98, R100, R210-R212. The float instructions on every sub-element of their format, with the flags of the active ones; FCMP writes one bit for each
element. A deprecated F16 form executes and is counted (R85, R300); FRCPA.F32 is retired (R86). The functions used keep R96's signs of zero,
R97's overflow, R98's NaNs and R100's special cases, said here on the codes of R88. Which of several
tiles beyond the allocation TILE_RANGE names is log entry 24 (DEDUCED). -/
def Obligations.LaneFloat : Prop :=
  ∀ (s u : State) (f : LaneW) (l : Lane) (fm : FFmt), Issues s u f l →
    let ty := match fm with | .f32 => 8 | .f16 => 9 | .bf16 => 10
    let w := if fm = .f32 then 32 else 16
    let F := fmtOf ty
    let c := flexTiles f false
    let A := l.src u false f.va.toNat
    let B := l.src u false f.vb.toNat
    let C := l.flex u f ty
    let rnd := f.rnd.toNat
    let sat : Bool := f.sat = 1
    let add (x z : Nat) : Nat × Flags := roundOpt F rnd sat ((F.decode x).add rnd (F.decode z))
    let sub (x z : Nat) : Nat × Flags := roundOpt F rnd sat ((F.decode x).add rnd (F.decode z).neg)
    let mul (x z : Nat) : Nat × Flags := roundOpt F rnd sat ((F.decode x).mul (F.decode z))
    let ffma (x y z : Nat) : Nat × Flags :=
      match (F.decode x).mul (F.decode y) with | none => (F.nan, fInvalid) | some p => roundOpt F rnd sat (p.add rnd (F.decode z))
    let gives (i : Instr) (lat : Nat) (ts : List Nat) (op : Nat → Nat → Nat → Nat × Flags) : Prop :=
      LaneGives s u l i ts fun t => ∃ vals fl, Elementwise w (l.act f) op A B C vals fl ∧
        Issued u t l 2 1 (l.withTile lat false f.vd.toNat (l.act f) vals fl)
    let bin (i : Instr) (lat : Nat) (op : Nat → Nat → Nat × Flags) : Prop := gives i lat (f.vd.toNat :: f.va.toNat :: c) fun x _ z => op x z
    let un (i : Instr) (lat : Nat) (op : Nat → Nat × Flags) : Prop := gives i lat (f.vd.toNat :: c) fun _ _ z => op z
    (let nan := isFloatNan ty
     let snan := isFloatSnan ty
     let zero (n : Bool) : Nat := floatZero ty n
     let inf (n : Bool) : Nat := floatInf ty n
     let neg := floatNeg ty
     let is (r : Nat × Flags) (v : Nat) (fl : Flags) : Prop := r = (v, fl)
     let away (n : Bool) : Prop := rnd = 0 ∨ (rnd = 2 ∧ n = false) ∨ (rnd = 3 ∧ n = true)
     (∀ n : Bool,
       (sat = true → is (add (floatBig ty n) (floatBig ty n)) (floatBig ty n) (fSat ||| fInexact)) ∧
       (sat = false → away n → is (add (floatBig ty n) (floatBig ty n)) (inf n) (fOverflow ||| fInexact)) ∧
       (sat = false → ¬away n → is (add (floatBig ty n) (floatBig ty n)) (floatBig ty n) (fOverflow ||| fInexact)) ∧
       is (add (zero n) (zero n)) (zero n) 0 ∧ is (add (zero n) (zero !n)) (zero (rnd = 3)) 0 ∧ is (sub (zero n) (zero !n)) (zero n) 0 ∧
       is (add (inf n) (inf !n)) (floatNan ty) fInvalid ∧ is (sub (inf n) (inf n)) (floatNan ty) fInvalid ∧
       is (fMinMax F false (zero n) (zero !n)) (zero true) 0 ∧ is (fMinMax F true (zero n) (zero !n)) (zero false) 0 ∧
       is (fRcp F sat (zero n)) (inf n) fDivZero ∧ is (fRsq F sat (zero n)) (inf n) fDivZero ∧
       is (fExp2 F sat (zero n)) ((2 ^ ((floatFields ty).1 - 1) - 1) * 2 ^ (floatFields ty).2) 0 ∧ is (fLog2 F sat (zero n)) (inf true) fDivZero ∧
       is (fRcp F sat (inf n)) (zero n) 0) ∧
     is (fRsq F sat (inf false)) 0 0 ∧ is (fExp2 F sat (inf false)) (inf false) 0 ∧ is (fExp2 F sat (inf true)) 0 0 ∧
     is (fLog2 F sat (inf false)) (inf false) 0 ∧
     ∀ x < 2 ^ w, ∀ z < 2 ^ w,
       (nan x ∨ nan z → ∀ op ∈ [add, sub, mul], (op x z).1 = floatNan ty ∧ InvalidIff (op x z).2 (snan x ∨ snan z)) ∧
       (∀ y < 2 ^ w, nan x ∨ nan y ∨ nan z → (ffma x y z).1 = floatNan ty) ∧
       (x % 2 ^ (w - 1) < floatInf ty false →
         is (add x (x ^^^ 2 ^ (w - 1))) (zero (rnd = 3)) 0 ∧ is (mul x (zero (neg z))) (zero (neg x != neg z)) 0) ∧
       (∀ wantMax : Bool, ∀ r, r = fMinMax F wantMax x z →
         (nan x → nan z → r.1 = floatNan ty) ∧ (nan x → ¬nan z → r.1 = z) ∧ (¬nan x → nan z → r.1 = x) ∧
         (nan x ∨ nan z → InvalidIff r.2 (snan x ∨ snan z))) ∧
       (nan x → ∀ op ∈ [fRcp, fRsq, fExp2, fLog2], (op F sat x).1 = floatNan ty ∧ InvalidIff (op F sat x).2 (snan x)) ∧
       (¬nan x → neg x = true → x ≠ zero true → is (fRsq F sat x) (floatNan ty) fInvalid ∧ is (fLog2 F sat x) (floatNan ty) fInvalid)) ∧
    bin (.fadd fm f) 8 add ∧ bin (.fsub fm f) 8 sub ∧ bin (.fmul fm f) 8 mul ∧
    gives (.ffma fm f) 8 (f.vd.toNat :: f.va.toNat :: f.vb.toNat :: c) ffma ∧
    bin (.fmin fm f) 4 (fMinMax F false) ∧ bin (.fmax fm f) 4 (fMinMax F true) ∧
    un (.fabs fm f) 4 (fun z => (z % 2 ^ (w - 1), 0)) ∧ un (.fneg fm f) 4 (fun z => (z ^^^ 2 ^ (w - 1), 0)) ∧
    un (.frcp fm f) 16 (fRcp F sat) ∧ un (.frsq fm f) 16 (fRsq F sat) ∧
    (fm ≠ .f16 → un (.fexp2 fm f) 16 (fExp2 F sat) ∧ un (.flog2 fm f) 16 (fLog2 F sat)) ∧
    (fm = .f16 → badTile l (f.vd.toNat :: c) = none →
      ∀ p ∈ [(Instr.fexp2 fm f, fExp2 F sat), (Instr.flog2 fm f, fLog2 F sat)], ∃ t v x y,
        exec p.1 s = .next t ∧ s.ctx? l.tm.ctx = some x ∧ t.ctx? l.tm.ctx = some y ∧ y.depcnt = x.depcnt + 1 ∧
          (∃ vals fl, Elementwise w (l.act f) (fun _ _ z => p.2 z) A B C vals fl ∧
            Issued u v l 2 1 (l.withTile 16 false f.vd.toNat (l.act f) vals fl)) ∧
          t.groups = v.groups ∧ t.teams = v.teams ∧ ∀ h, t.hand h = v.hand h) ∧
    (let j := if fm = .f32 then 0 else f.vb.toNat % 2
     let at_ (i : Nat) : Bool × Flags := fCmp F f.op3.toNat (subAt w j (A.getD i 0)) (subAt w j (C.getD i 0))
     LaneGives s u l (.fcmp fm f) (f.va.toNat :: c) fun t => ∃ v fl, (∀ i < 1024, v.getLsbD i = (at_ i).1) ∧
       (∀ k, fl.getLsbD k = true ↔ ∃ i < 1024, (l.act f).getLsbD i = true ∧ (at_ i).2.getLsbD k = true) ∧
       Issued u t l 2 1 (l.withMask 4 (f.vd.toNat % 16) (l.act f) v fl)) ∧
    (libraryServes l.ctx l.th l.helper = true → fm = .f32 → un (.frcpa f) 4 (fRcp F sat)) ∧
    (libraryServes l.ctx l.th l.helper = false → exec (.frcpa f) s = .next (laneCause u l .retired (wordsOf (.frcpa f)) (some (.frcpa f))))

/-- R213-R217. VCVT converts sub-elements between types, part p of the narrower side; VHIST adds the counts of each block, a run of
32 sub-elements along a row, to row 0 of its accumulator;
VQNT gives each block of 32 active elements its scale and codes, and VDQ their values. Which of several
tiles beyond the allocation TILE_RANGE names is log entry 24 (DEDUCED). -/
def Obligations.LaneConvert : Prop :=
  ∀ (s u : State) (f : LaneW) (l : Lane), Issues s u f l →
    let ty := f.ty.toNat
    let rnd := f.rnd.toNat
    let sat : Bool := f.sat = 1
    let p := f.op3.toNat
    let vd := f.vd.toNat
    let act := l.act f
    let raised (fl : Flags) (g : Nat → Flags) : Prop :=
      ∀ k, fl.getLsbD k = true ↔ ∃ i < 1024, act.getLsbD i = true ∧ (g i).getLsbD k = true
    (p < cvtParts (f.vc.toNat % 16) ty →
      let sty := f.vc.toNat % 16
      let ws := tyWidth sty
      let wd := tyWidth ty
      let cs := perElem ws
      let cd := perElem wd
      let A := l.src u (ws = 64) f.va.toNat
      let old := l.src u (wd = 64) vd
      let k := min cs cd
      let first := if cd ≤ cs then 0 else p * k
      let one (i j : Nat) : Nat × Flags := convert sty ty rnd sat (subAt ws (if cd ≤ cs then p * k + j else j) (A.getD i 0))
      LaneGives s u l (.vcvt f) (pairOf (wd = 64) f.vd ++ pairOf (ws = 64) f.va) fun t => ∃ vals fl,
        vals.length = 1024 ∧
        (∀ i < 1024, ∀ j < cd, subAt wd j (vals.getD i 0) =
          if first ≤ j ∧ j < first + k then (one i (j - first)).1 % 2 ^ wd else subAt wd j (old.getD i 0)) ∧
        raised fl (fun i => orFlags ((List.range k).map fun j => (one i j).2)) ∧ Issued u t l 2 1 (l.withTile 8 (wd = 64) vd act vals fl)) ∧
    (let w := tyWidth ty
     let A := l.src u false f.va.toNat
     let c := perElem w
     let block (b : Nat) : List Machine.Num := (List.range 32).flatMap fun n =>
       let q := 32 * b + n
       if act.getLsbD (q / c) = true then [decodeTy ty (subAt w (q % c) (A.getD (q / c) 0))] else []
     LaneGives s u l (.vhist f) [vd, f.va.toNat] fun t => ∃ data : Tile,
       (∀ i < 32, data.getD i 0 = (l.tile u vd).getD i 0 + BitVec.ofNat 32 (((List.range (32 * c)).map fun b => (histBins (block b)).count i).sum)) ∧
         Issued u t l 2 1 { l.gr with pend := l.gr.pend ++ [l.result 12 (l.dst vd) (BitVec.ofNat 1024 (2 ^ 32 - 1)) data 0 0] }) ∧
    (11 ≤ ty → ty ≤ 13 → (ty = 13 ∨ p < 4) →
      let e := if ty = 13 then 8 else 4
      let w := 32 / e
      let per := 64 / e
      let D := l.d f.vc.toNat
      let byte := if ty = 13 then 2 * (D.toNat / 2 ^ 23 % 2) else D.toNat / 2 ^ 22 % 4
      let scaleOf (r h : Nat) : Nat := 64 * ((D.toNat / 2 ^ 16 % 16 + 2 * p + h) % 16) + 16 * (D.toNat / 2 ^ 20 % 4) + r
      let ts := [vd, f.va.toNat, f.vb.toNat]
      let A := l.src u false f.va.toNat
      let block (r h : Nat) := quantBlock ty (D.toNat % 2 ^ 16) ((List.range 32).map fun i =>
        if act.getLsbD (64 * r + 32 * h + i) = true then some (fmtF32.decode (A.getD (64 * r + 32 * h + i) 0).toNat) else none)
      let code (r c : Nat) : Option (Nat × Flags) := (block r (c / 32)).2.getD (c % 32) none
      LaneGives s u l (.vqnt f) ts (fun t => ∃ (m₁ m₂ : Mask) (new scales : Tile) (fl : Flags),
        (∀ r < 16, ∀ i < per, (m₁.getLsbD (64 * r + per * p + i) = true ↔ ∃ j < e, (code r (e * i + j)).isSome = true) ∧
          ∀ j < e, subAt w j (zext64 (new.getD (64 * r + per * p + i) 0)) = match code r (e * i + j) with
            | some x => x.1 % 2 ^ w | none => subAt w j (zext64 ((l.tile u vd).getD (64 * r + per * p + i) 0))) ∧
        (∀ r < 16, ∀ i < 64, i < per * p ∨ per * (p + 1) ≤ i → m₁.getLsbD (64 * r + i) = false) ∧
        (∀ r < 16, ∀ h < 2, match (block r h).1 with
          | none => m₂.getLsbD (scaleOf r h) = false
          | some (k, x) => m₂.getLsbD (scaleOf r h) = true ∧ subAt 8 byte (zext64 (scales.getD (scaleOf r h) 0)) = k % 256 ∧
            (ty = 13 → subAt 8 (byte + 1) (zext64 (scales.getD (scaleOf r h) 0)) = x % 256)) ∧
        (∀ k, fl.getLsbD k = true ↔ ∃ r < 16, ∃ c < 64, ∃ x, code r c = some x ∧ x.2.getLsbD k = true) ∧
        Issued u t l 2 1 { l.gr with pend := l.gr.pend ++ [l.result 16 (l.dst vd) m₁ new 0 fl, l.result 16 (l.dst f.vb.toNat) m₂ scales 0 0] }) ∧
      (let one (i : Nat) : Nat × Flags :=
         let v := (l.tile u f.va.toNat).getD (64 * (i / 64) + per * p + i % 64 / e) 0
         let sc := zext64 ((l.tile u f.vb.toNat).getD (scaleOf (i / 64) (i % 64 / 32)) 0)
         roundNum fmtF32 rnd sat (scaledValue ty (subAt w (i % 64 % e) (zext64 v)) (subAt 8 byte sc) (subAt 8 (byte + 1) sc))
       LaneGives s u l (.vdq f) ts fun t => ∃ fl, raised fl (fun i => (one i).2) ∧
         Issued u t l 2 1 (l.withTile 8 false vd act ((List.range 1024).map fun i => BitVec.ofNat 64 (one i).1) fl)))

/-- R218-R220. Rotations, broadcasts, permutation and transposition copy whole elements or pairs; RRED and CRED give every element of a row or a column
the reduction of its active elements, one sub-element position at a time, 0 where none is active; of floats, a sum that meets a NaN is the
canonical NaN, and a minimum or maximum is that of the elements that are none (R98). The retired VSHUF permutes rows (R86). Which of several
tiles beyond the allocation TILE_RANGE names is log entry 24 (DEDUCED). -/
def Obligations.LaneAxis : Prop :=
  ∀ (s u : State) (f : LaneW) (l : Lane), Issues s u f l →
    let ty := f.ty.toNat
    let w := tyWidth ty
    let wide : Bool := w = 64
    let vd := f.vd.toNat
    let act := l.act f
    let da := pairOf wide f.vd ++ pairOf wide f.va
    let A (i : Nat) : W64 := (l.src u wide f.va.toNat).getD i 0
    let count : Int := if f.kind = 1 then (((l.d f.vc.toNat).toNat % 2 ^ 32 : Nat) : Int) else f.vc.toInt
    let moves (i : Instr) (lat : Nat) (ts : List Nat) (v : Nat → Nat → W64) : Prop :=
      LaneGives s u l i ts fun t => Issued u t l 2 1 (l.withTile lat wide vd act ((List.range 1024).map fun i => v (i / 64) (i % 64)) 0)
    moves (.rrot f) 8 da (fun r c => A (64 * r + ((c - count) % 64).toNat)) ∧ moves (.crot f) 4 da (fun r c => A (64 * ((r - count) % 16).toNat + c)) ∧
    moves (.rbc f) 8 da (fun r _ => A (64 * r + (count % 64).toNat)) ∧ moves (.cbc f) 4 da (fun _ c => A (64 * (count % 16).toNat + c)) ∧
    moves (.rprm f) 16 (da ++ flexTiles f wide) (fun r c => A (64 * r + ((l.flex u f ty).getD (64 * r + c) 0).toNat % 64)) ∧
    moves (.trn16 f) 8 da (fun r c => A (64 * (c % 16) + 16 * (c / 16) + r)) ∧
    (libraryServes l.ctx l.th l.helper = true → moves (.vshuf f) 4 (da ++ pairOf wide f.vb)
      (fun r c => A (64 * r + ((l.src u wide f.vb.toNat).getD (64 * r + c) 0).toNat % 64))) ∧
    (libraryServes l.ctx l.th l.helper = false → exec (.vshuf f) s = .next (laneCause u l .retired (wordsOf (.vshuf f)) (some (.vshuf f)))) ∧
    (ty < 11 →
      let val (x : Nat) : Int := if ty < 4 ∧ 2 ^ (w - 1) ≤ x then (x : Int) - 2 ^ w else x
      let reduces (xs : List Nat) (v : Nat) : Prop :=
        (xs = [] → v = 0) ∧ (xs ≠ [] → (8 ≤ ty → ∃ key, v = (reduceSub f key xs).1 % 2 ^ w) ∧
          (8 ≤ ty → let nan := isFloatNan ty
            (∀ x, xs = [x] → ¬nan x → v = x) ∧ (f.op3 = 0 → (∃ x ∈ xs, nan x) → v = floatNan ty) ∧
            (1 ≤ f.op3.toNat → (∀ x ∈ xs, nan x) → v = floatNan ty) ∧
            (1 ≤ f.op3.toNat → (∃ x ∈ xs, ¬nan x) → v ∈ xs ∧ ¬nan v ∧ ∀ x ∈ xs, ¬nan x →
              if f.op3 = 1 then ((fmtOf ty).decode v).le ((fmtOf ty).decode x) = true else ((fmtOf ty).decode x).le ((fmtOf ty).decode v) = true)) ∧
          (ty < 8 →
            (f.op3 = 0 → f.sat = 0 → (v : Int) = (xs.map val).sum % 2 ^ w) ∧ (f.op3 = 1 → v ∈ xs ∧ ∀ x ∈ xs, val v ≤ val x) ∧
            (f.op3 = 2 → v ∈ xs ∧ ∀ x ∈ xs, val x ≤ val v) ∧
            (f.op3 = 3 → ∀ k < w, v.testBit k = true ↔ ∀ x ∈ xs, x.testBit k = true) ∧
            (f.op3 = 4 → ∀ k < w, v.testBit k = true ↔ ∃ x ∈ xs, x.testBit k = true) ∧
            (f.op3 = 5 → ∀ k < w, v.testBit k = true ↔ xs.countP (fun x => x.testBit k) % 2 = 1)))
      let lines (i : Instr) (lat : Nat) (place : Nat → List Nat) : Prop :=
        LaneGives s u l i da fun t => ∃ vals fl, vals.length = 1024 ∧
          (∀ i < 1024, ∀ j < perElem w,
            reduces (((place i).filter act.getLsbD).map fun n => subAt w j (A n)) (subAt w j (vals.getD i 0))) ∧
          Issued { u with fresh := u.fresh + 1 } t l 2 1 (l.withTile lat wide vd act vals fl)
      lines (.rred f) 12 (fun i => (List.range 64).map (64 * (i / 64) + ·)) ∧ lines (.cred f) 4 (fun i => (List.range 16).map (64 * · + i % 64)))

/-- R37, R120, R205, R224-R227, R231-R236. A lane memory instruction checks its active elements in ascending order and, where all pass, hands one
operation to the memory hierarchy, which counts on its token; where one fails, nothing is done but its fault. TOKEN_COMPLETE performs a
ready operation, one that no earlier operation of the group is ordered before (R156, R225): loads put each element into its tile, a store is
stored unless a copy or an owner's writes hold it up (R139, R161), VATOM and VCAS store their function's value and give the old one (R233), an
access of a peer waits for its reply (R366), and an operation with a bad element (CELL_BUSY, CELL_FAILED, POISON under FAULT) ends with a
deferred fault. VLDB is retired: served by the library it loads at once (R86). Which of several bad tiles is named is log entry 24 (DEDUCED). -/
def Obligations.LaneMemory : Prop :=
  (∀ (s u v : State) (f : LaneW) (m : MemW) (l : Lane) (es : List (Nat × W64 × Tgt)) (st : LaneStop), Issues s u f l →
    let w := tyWidth f.ty.toNat
    let wide : Bool := w = 64
    let n := if wide then 8 else 4
    let va := [f.va.toNat, f.va.toNat + 1]
    let addr (i : Nat) : W64 := (l.src u true f.va.toNat).getD i 0 + m.off.signExtend 64
    let active : List Nat := (List.range 1024).filter (l.act f).getLsbD
    let full : Prop := f.tokEn = 1 ∧ 63 ≤ tokenCount l.gr f.tok.toNat
    let C (i : Nat) : W64 := (l.flex u f f.ty.toNat).getD i 0
    let B (i : Nat) : W64 := (l.src u wide f.vb.toNat).getD i 0
    let hands (t : State) (dest : List Dst) (scope : Nat) (op : Nat → ElemOp) : Prop :=
      Issued v t l 3 1 { l.gr with outst := l.gr.outst ++ [
        { tok := if f.tokEn = 1 then some f.tok.toNat else none,
          elems := es.map fun e => ⟨e.1, l.actor.virtual m.space.toNat e.2.1, e.2.2, op e.1, false, none, none⟩,
          dest := dest, space := m.space.toNat, scope := scope, hint := m.hint.toNat, show_ := none, pc := l.run.pc, k := l.run.rot,
          ins := l.run.idx, seq := l.run.deal.seq.toNat, at_ := v.clock, helper := l.helper, fault := l.actor.faults m.space.toNat, done := false, bad := none }] }
    let accesses (i : Instr) (acc : Acc) (n : Nat) (ts : List Nat) (dest : List Dst) (scope : Nat) (addr : Nat → W64) (op : Nat → ElemOp) : Prop :=
      let check := checkElems u l.actor acc m n n (fun _ => none) (active.map fun j => (j, addr j))
      (badTile l ts = none → full → exec i s = .next u) ∧
      (badTile l ts = none → ¬full → check = (v, .error st) →
        exec i s = .next (laneRefused v l st (BitVec.ofNat 64 (256 * (st.1 / 64) + st.1 % 64)))) ∧
      (∀ n, badTile l ts = some n → exec i s = .next (laneFault u l .tileRange 0 (BitVec.ofNat 64 n))) ∧
      (badTile l ts = none → ¬full → check = (v, .ok es) → ∃ t, exec i s = .next t ∧ hands t dest scope op)
    let dst := (pairOf wide f.vd).map l.dst
    let sc := m.scope.toNat
    let asc := if m.space = 3 ∧ es ≠ [] then 0 else sc
    let d := pairOf wide f.vd
    let c := flexTiles f wide
    let signed : Bool := f.ty.toNat < 4
    accesses (.vld f m) .load (w / 8) (d ++ va) dst sc addr (fun _ => .load w signed) ∧
    accesses (.vst f m) .store (w / 8) (va ++ c) [] sc addr (fun i => .store w (C i)) ∧
    accesses (.vldt f m) .load n (d ++ va) dst sc (fun i => addr (64 * (i / 64)) + BitVec.ofNat 64 (n * (i % 64))) (fun _ => .load (8 * n) false) ∧
    accesses (.vstt f m) .store n (va ++ pairOf wide f.vc) [] sc (fun i => addr (64 * (i / 64)) + BitVec.ofNat 64 (n * (i % 64)))
      (fun i => .store (8 * n) ((l.src u wide f.vc.toNat).getD i 0)) ∧
    (f.op3.toNat < 7 → accesses (.vatom f m) .atomic (w / 8) (d ++ va ++ c) dst asc addr (fun i => .atomic
      (if f.op3 = 4 then (if signed then 4 else 6) else if f.op3 = 5 then (if signed then 5 else 7) else if f.op3 = 6 then 8 else f.op3.toNat)
      w (C i) 0)) ∧
    accesses (.vcas f m) .atomic (w / 8) (d ++ va ++ pairOf wide f.vb ++ c) dst asc addr (fun i => .atomic 9 w (C i) (B i)) ∧
    (let slots : List (Nat × Nat × W64) := active.map fun i =>
       (i, ((l.tile u f.va.toNat).getD i 0).toNat % 2 ^ 16, ((l.tile u (f.va.toNat + 1)).getD i 0).setWidth 64 + m.off.signExtend 64)
     let slot (i : Instr) (acc : Acc) (ts : List Nat) (dest : List Dst) (op : Nat → ElemOp) : Prop :=
       (∀ x, badTile l ts = none → ¬full → checkSlots u l acc m (w / 8) slots = (v, .error (st, x)) → exec i s = .next (laneRefused v l st x)) ∧
       (∀ n, badTile l ts = some n → exec i s = .next (laneFault u l .tileRange 0 (BitVec.ofNat 64 n))) ∧ (badTile l ts = none → full → exec i s = .next u) ∧
       (badTile l ts = none → ¬full → checkSlots u l acc m (w / 8) slots = (v, .ok es) → ∃ t, exec i s = .next t ∧ hands t dest sc op)
     slot (.pld f m) .load (d ++ va) dst (fun _ => .load w signed) ∧ slot (.pst f m) .store (va ++ c) [] (fun i => .store w (C i))) ∧
    (let check := checkElems u l.actor .load m 1 1 (fun _ => none) (active.map fun i => (i, addr (i % 64)))
     let ts := f.vd.toNat :: va
     (libraryServes l.ctx l.th l.helper = true → badTile l ts = none →
       (check = (v, .ok es) → (∀ e ∈ es, ∃ h a, e.2.2 = .scratch h a ∧ poisonedUnits v e.2.2 1 = []) → ∀ key, l.dst f.vd.toNat = .tile key →
         ∃ t, exec (.vldb f m) s = .next t ∧ Passed v t l 3 1 l.gr ∧
           (∀ i < 1024, (l.act f).getLsbD i = false → (tileAt t l.ref.hand key).getD i 0 = (tileAt v l.ref.hand key).getD i 0) ∧
           ∀ e ∈ es, ∀ h a, e.2.2 = .scratch h a → (tileAt t l.ref.hand key).getD e.1 0 = (scratchByte v l.tm.ctx h a).setWidth 32) ∧
       (check = (v, .error st) →
         exec (.vldb f m) s = .next (laneRefused v l st (BitVec.ofNat 64 (256 * (st.1 / 64) + st.1 % 64))))) ∧
     (libraryServes l.ctx l.th l.helper = false →
       exec (.vldb f m) s = .next (laneCause u l .retired (wordsOf (.vldb f m)) (some (.vldb f m)))))) ∧
  ∀ (s : State) (g : GroupRef) (gr : Group) (k : Core) (n : Nat) (o : Outst), s.group? g = some gr → s.coreOf g.owner = some k →
    gr.outst[n]? = some o → o.show_ = none →
    let step := exec (.tokenComplete g n) s
    let ready : Prop := o.done = false ∧ ∀ j < n, ∀ p, gr.outst[j]? = some p → p.done = true ∨ ordered g.hand p o = false
    let sign (b : Bool) (w v : Nat) : W32 := if b then (BitVec.ofNat w v).signExtend 32 else BitVec.ofNat 32 v
    let spent (t : State) : Prop := t.group? g = some { gr with outst := gr.outst.eraseIdx n } ∧ otherGroups s t g
    let lands (t : State) (key pos : Nat) (v : W32) : Prop :=
      ∀ i < 1024, (tileAt t g.hand key).getD i 0 = if i = pos then v else (tileAt s g.hand key).getD i 0
    let answers (e : Elem) : Prop := ∀ pa, e.tgt = .dev pa → dieRefuses s (homeDie pa) = false
    let cell (e : Elem) : Prop := ∃ pa, e.tgt = .dev pa ∧ tagAt s pa ≠ 0
    let local_ (e : Elem) : Prop := ∀ p q, e.tgt ≠ .peer p q
    let actor (e : Elem) : Actor := (outstActor s g o).onElem o e
    let plain (e : Elem) : Prop := ready ∧ o.elems = [e] ∧ e.val = none ∧ e.failed = none ∧ answers e
    let clean (e : Elem) : Prop := poisonedFor s g.hand e.tgt e.bytes o.scope o.hint = []
    let fails (e : Elem) (c : FaultCode) (d₁ d₂ : W64) : Prop :=
      ∃ t x, step = .next t ∧ sameBytes s t ∧ t.group? g = some { gr with outst := gr.outst.set n x } ∧ x.done = true ∧ x.tok = o.tok ∧
        x.bad = some (c, e.addr, d₁, d₂)
    (o.done = true ∨ (∃ j < n, ∃ p, gr.outst[j]? = some p ∧ p.done = false ∧ ordered g.hand p o = true) → step = .next s) ∧
    (ready →
      (∀ e ∈ o.elems, ∃ h a w b, e.tgt = .scratch h a ∧ e.op = .load w b ∧ w ≤ 32 ∧ (poisonedUnits s e.tgt (w / 8) = [] ∧ e.val = none ∧ e.failed = none)) →
      (o.elems.map (·.pos)).Nodup → (∀ e ∈ o.elems, e.pos < 1024) → ∀ key, o.dest = [.tile key] →
      ∃ t, step = .next t ∧
        t.group? g = some { gr with outst := gr.outst.eraseIdx n } ∧ otherGroups s t g ∧
        (∀ i < 1024, (∀ e ∈ o.elems, e.pos ≠ i) → (tileAt t g.hand key).getD i 0 = (tileAt s g.hand key).getD i 0) ∧
        (∀ e ∈ o.elems, ∀ h a w b, e.tgt = .scratch h a → e.op = .load w b → (tileAt t g.hand key).getD e.pos 0 =
          (if b then (BitVec.ofNat w (ofBytes ((List.range (w / 8)).map fun i => scratchByte s k.tm.ctx h (a + i)))).signExtend 32
           else BitVec.ofNat 32 (ofBytes ((List.range (w / 8)).map fun i => scratchByte s k.tm.ctx h (a + i)))))) ∧
    (∀ e w v, plain e → o.dest = [] → e.op = .store w v → local_ e →
      (writeWaitsFor s g.hand (fun x => x.at_ < o.at_) e.tgt (w / 8) = false →
        ∃ t, step = .next t ∧ t.group? g = some { gr with outst := gr.outst.eraseIdx n } ∧ otherGroups s t g ∧
          Stored s t e.tgt (toBytes (w / 8) v.toNat)) ∧
      (writeWaitsFor s g.hand (fun x => x.at_ < o.at_) e.tgt (w / 8) = true →
        ∃ t x, step = .next t ∧ t.group? g = some { gr with outst := gr.outst.set n x } ∧ x.done = false ∧ x.tok = o.tok ∧ NoStore s t)) ∧
    (∀ e w b key, plain e → local_ e → e.op = .load w b → w ≤ 32 → e.pos < 1024 → o.dest = [.tile key] → (o.space = 0 → ¬cell e) →
      (copyHolds s e.tgt (w / 8) = true → ∃ t x, step = .next t ∧ t.group? g = some { gr with outst := gr.outst.set n x } ∧ x.done = false ∧
        NoStore s t) ∧
      (copyHolds s e.tgt (w / 8) = false → clean e → ∃ t, step = .next t ∧ spent t ∧ NoStore s t ∧
        lands t key e.pos (sign b w (ofBytes (readTgt s (actor e) e.tgt (w / 8) o.scope o.hint).2))) ∧
      (copyHolds s e.tgt (w / 8) = false → ¬clean e → o.fault = true →
        fails e .poison (BitVec.ofNat 64 (256 * (e.pos / 64) + e.pos % 64)) 0)) ∧
    (∀ e fn w a h key, plain e → local_ e → e.op = .atomic fn w a h → (w = 8 ∨ w = 16 ∨ w = 32) → e.pos < 1024 → o.dest = [.tile key] →
      (¬clean e → fails e .poison (BitVec.ofNat 64 (256 * (e.pos / 64) + e.pos % 64)) 0) ∧
      (∀ pa, clean e → e.tgt = .dev pa → tagAt s pa ≠ 0 → fails e .cellBusy ((tagAt s pa).setWidth 64) 0) ∧
      (clean e → ¬cell e → writeWaitsFor s g.hand (fun x => x.at_ < o.at_) e.tgt (w / 8) = true →
        ∃ t x, step = .next t ∧ t.group? g = some { gr with outst := gr.outst.set n x } ∧ x.done = false ∧ NoStore s t) ∧
      (clean e → ¬cell e → writeWaitsFor s g.hand (fun x => x.at_ < o.at_) e.tgt (w / 8) = false → fn ≤ 9 →
        let r := readTgt s (actor e) e.tgt (w / 8) o.scope o.hint
        let v := BitVec.ofNat w (ofBytes r.2)
        let x := a.setWidth w
        let new : BitVec w := match fn with
          | 0 => v + x | 1 => v &&& x | 2 => v ||| x | 3 => v ^^^ x
          | 4 => if x.slt v then x else v | 5 => if x.slt v then v else x
          | 6 => if x.ult v then x else v | 7 => if x.ult v then v else x
          | 8 => x | _ => if v = h.setWidth w then x else v
        ∃ t, step = .next t ∧ spent t ∧ lands t key e.pos (v.setWidth 32) ∧ Stored r.1 t e.tgt (toBytes (w / 8) new.toNat))) ∧
    (∀ e c q, ready → o.elems = [e] → answers e → e.failed = some (c, q) →
      fails e .cellFailed (BitVec.ofNat 64 c) (BitVec.ofNat 64 q)) ∧
    ∀ e p q, plain e → e.tgt = .peer p q → (peerAsk s (actor e) e.tgt e.ask).2 = .waits →
      ∃ t x, step = .next t ∧ t.group? g = some { gr with outst := gr.outst.set n x } ∧ x.done = false ∧ NoStore s t ∧
        t.weave = (peerAsk s (actor e) e.tgt e.ask).1.weave

/-- R38, R113, R222, R223, R235, R237-R239, R243, R245. SHOW and SHOWX send a show once there is room; VFENCE waits for earlier accesses and fences at its
scope; the lane barrier instructions act as the threads' do, on the group's pending flags first; PLK, PTAG and PINV look up, change and
drop entries of the tag table, PTAG and PINV element by element in ascending order. That an invalid entry keeps its key and dirty bit is log
entry 28 (DEDUCED), which of several bad tiles is named log entry 24 (DEDUCED), and that an outstanding show of a frozen group completes
as an operation but enters its queue only once the group goes on log entry 87 (DEDUCED). -/
def Obligations.LaneSync : Prop :=
  (∀ (s u : State) (f : LaneW) (l : Lane), Issues s u f l →
    let vd := f.vd.toNat
    let fl := orFlags (l.gr.coming.map (·.flags))
    let fpx := l.gr.fpx ||| fl
    let clear (ps : List Pending) : List Pending := ps.map fun p => { p with flags := 0 }
    let spent (x : Group) : Group :=
      { x with fpx := x.fpx ||| fl, pend := clear x.pend, landing := if l.gr.frozen then x.landing else clear x.landing }
    let gr := spent l.gr
    let u' := u.updGroup l.ref spent
    let traps : Prop := fpx &&& l.th.fpxmask ≠ 0
    let trap (i : Instr) : Prop := exec i s = .next (laneFault u' l .fpxTrap 0 (fpx.setWidth 64))
    let h := l.ref.hand
    let writing : Prop := ∃ o ∈ l.gr.outst, o.done = false ∧ o.writes = true
    let loading : Prop := ∃ o ∈ l.gr.outst, o.done = false ∧ o.loads = true
    let fenced (t : State) (g : Group) : Prop := Passed u t l 2 1 g ∧ MemOnly u { t with groups := u.groups, teams := u.teams } ∧ NoStore u t
    let team (t : State) (tm : Team) : Prop := t.team? l.ref.team = some tm ∧ otherTeams u t l.ref.team
    let n := vd % 32
    let b := barrierOf l.tm n
    let v : W64 := if f.kind = 1 then l.d f.vc.toNat else f.vc.signExtend 64
    let set (b : Barrier) : Team := { l.tm with bars := l.tm.bars.set n b }
    let addr (i : Nat) : W64 := (l.src u true f.va.toNat).getD i 0
    let active : List Nat := (List.range 1024).filter (l.act f).getLsbD
    let va := [f.va.toNat, f.va.toNat + 1]
    -- VFENCE
    ((f.op3 ≠ 0 ∧ writing) ∨ loading → exec (.vfence f) s = .next u) ∧
    (¬((f.op3 ≠ 0 ∧ writing) ∨ loading) → (traps → trap (.vfence f)) ∧
      (¬traps → ∃ t, exec (.vfence f) s = .next t ∧ fenced t gr ∧ t.teams = u.teams ∧
        (h < 256 → f.op3 = 1 → releasedAt t h (vd % 8)) ∧ (h < 256 → f.op3 ≠ 1 → acquiredAt t h (vd % 8)))) ∧
    -- the barrier instructions
    (traps → trap (.laneBari f) ∧ (¬writing → ¬loading → trap (.laneBara f)) ∧ (l.gr.waitBar = none → trap (.laneBarw f))) ∧
    (writing ∨ loading → exec (.laneBara f) s = .next u) ∧
    (¬traps →
      (∃ t, exec (.laneBari f) s = .next t ∧ team t (set ⟨0, v.setWidth 16, b.phase, 0⟩) ∧ Issued { u with teams := t.teams } t l 2 1 gr) ∧
      (¬writing → ¬loading → b.expected = 0 → exec (.laneBara f) s = .next (laneFault u' l .barUninit 0 (BitVec.ofNat 64 n))) ∧
      (¬writing → ¬loading → b.expected ≠ 0 → b.arrivals = b.expected →
        exec (.laneBara f) s = .next (laneFault u' l .barOver 0 (BitVec.ofNat 64 n))) ∧
      (¬writing → ¬loading → b.expected ≠ 0 → b.arrivals ≠ b.expected → ∃ t, exec (.laneBara f) s = .next t ∧
        fenced t { gr with arrival := l.gr.arrival.set n b.phase } ∧ (h < 256 → releasedAt t h f.op3.toNat) ∧
        (b.arrivals + 1 = b.expected ∧ b.pending + v = 0 → team t (set ⟨0, b.expected, b.phase + 1, 0⟩)) ∧
        (¬(b.arrivals + 1 = b.expected ∧ b.pending + v = 0) → team t (set ⟨b.arrivals + 1, b.expected, b.phase, b.pending + v⟩))) ∧
      (l.gr.waitBar = none →
        let p := (l.gr.arrival.get? n).getD b.phase
        (b.expected = 0 → exec (.laneBarw f) s = .next (laneFault u' l .barUninit 0 (BitVec.ofNat 64 n))) ∧
        (b.expected ≠ 0 → b.phase = p → exec (.laneBarw f) s =
          .next ((updRun u' l fun r => { r with started := true }).updGroup l.ref fun x => { x with waitBar := some (n, f.op3.toNat, p) })) ∧
        (b.expected ≠ 0 → b.phase ≠ p → ∃ t, exec (.laneBarw f) s = .next t ∧ fenced t { gr with arrival := l.gr.arrival.erase n } ∧
          t.teams = u.teams ∧ (h < 256 → acquiredAt t h f.op3.toNat)))) ∧
    -- the tag table
    LaneGives s u l (.plk f) (vd :: va) (fun t => Issued u t l 2 1 (l.withTile 8 false vd (l.act f) ((List.range 1024).map fun i =>
      match tagFind l.tm ((addr i).toNat % 2 ^ 52 / 2 ^ tagL l.tm) with | some n => BitVec.ofNat 64 n | none => 0xFFFF) 0)) ∧
    LaneGives s u l (.ptag f) ([vd, vd + 1] ++ va ++ [f.vb.toNat]) (fun t =>
      let one (tm : Team) (i : Nat) := tagOp tm f.op3.toNat (addr i) (((l.tile u f.vb.toNat).getD i 0).toNat % 4)
      let after (is : List Nat) : Team := is.foldl (fun tm i => (one tm i).1) l.tm
      team t { l.tm with tags := (after active).tags } ∧ Issued { u with teams := t.teams } t l 2 1 (l.withTile 8 true vd (l.act f)
        ((List.range 1024).map fun i => if (l.act f).getLsbD i = true then (one (after (active.filter (· < i))) i).2 else 0) 0)) ∧
    LaneGives s u l (.pinv f) (if f.op3 = 1 then [] else va) (fun t => Issued { u with teams := t.teams } t l 2 1 l.gr ∧
      team t (if f.op3 = 1 then { l.tm with tags := l.tm.tags.map fun p => (p.1, { p.2 with valid := false }) }
        else (active.map addr).foldl tagInvalidate l.tm)) ∧
    -- shows
    (let taken := (if l.helper then l.gr.hshows.length else l.gr.shows.length) + l.gr.outst.countP fun o => o.show_.isSome && o.helper = l.helper
     let waits : Prop := (f.tokEn = 1 ∧ 63 ≤ tokenCount l.gr f.tok.toNat) ∨ (if l.helper then 4 else 32) ≤ taken
     let head (kind : Nat) : W64 := BitVec.ofNat 64 (l.run.deal.seq.toNat * 2 ^ 32 + l.run.deal.w0.toNat / 2 ^ 48 * 2 ^ 16 +
       l.run.deal.w0.toNat / 2 ^ 16 % 2 ^ 8 * 2 ^ 8 + kind)
     let pred (p : W64) : Prop := ∀ c < 64, p.getLsbD c = true ↔
       ∃ r < 16, (l.mask (f.va.toNat % 16)).getLsbD (64 * r + c) = true ∧ (l.act f).getLsbD (64 * r + c) = true
     let vc (i : Nat) : W32 := (l.tile u f.vc.toNat).getD i 0
     let scalar (x : W64) (m : Nat) : Prop := (l.run.m0 = 0 → x = 0) ∧ ∀ c < 64, l.run.m0.getLsbD c = true → (∀ j < c, l.run.m0.getLsbD j = false) →
       x = vc (64 * (m + 8) + c) ++ vc (64 * m + c)
     let sends (i : Instr) (ts : List Nat) (ok : Show → Prop) : Prop :=
       (badTile l ts = none → waits → exec i s = .next u) ∧
       LaneGives s u l i ts fun t => ¬waits → ∃ sh on, sh.length = 8 ∧ ok sh ∧ on = Option.map (fun r : Run => { r with shows := r.shows + 1 }) ∧
         Issued u t l 2 1 { l.gr with
           run := if l.helper then l.gr.run else on l.gr.run, hrun := if l.helper then on l.gr.hrun else l.gr.hrun,
           outst := l.gr.outst ++ [{ tok := if f.tokEn = 1 then some f.tok.toNat else none, elems := [], dest := [], space := 0, scope := 0,
                                     hint := 0, show_ := some sh, pc := l.run.pc, k := l.run.rot, ins := l.run.idx,
                                     seq := l.run.deal.seq.toNat, at_ := u.clock, helper := l.helper, fault := false, done := false, bad := none }] }
     sends (.show f) [f.vc.toNat] (fun sh => sh.getD 0 0 = head 0 ∧ pred (sh.getD 1 0) ∧ ∀ m < 6, scalar (sh.getD (2 + m) 0) m) ∧
     sends (.showx f) [f.vb.toNat, f.vc.toNat] (fun sh => sh.getD 0 0 = head 1 ∧ pred (sh.getD 1 0) ∧ (∀ m < 2, scalar (sh.getD (6 + m) 0) m) ∧
       ∀ i < 64, (sh.getD (2 + i / 16) 0).toNat / 2 ^ (4 * (i % 16)) % 16 =
         if (sh.getD 1 0).getLsbD i = true then ((l.tile u f.vb.toNat).getD i 0).toNat % 16 else 0))) ∧
  (∀ (s : State) (g : GroupRef) (gr : Group) (n : Nat) (o : Outst) (sh : Show), s.group? g = some gr → gr.outst[n]? = some o → o.show_ = some sh →
    let early : Prop := ∃ j < n, ∃ p, gr.outst[j]? = some p ∧
      if p.show_.isSome = true then p.helper = o.helper else p.done = false
    let stays : Prop := o.helper = false ∧ gr.frozen = true
    let full : Prop := if o.helper then 4 ≤ gr.hshows.length else 32 ≤ gr.shows.length
    let rest := gr.outst.eraseIdx n
    (early ∨ (¬stays ∧ full) → exec (.showEnqueue g n) s = .next s) ∧
    (¬early → stays → ∃ t, exec (.showEnqueue g n) s = .next t ∧ otherGroups s t g ∧ { t with groups := s.groups } = s ∧
      t.group? g = some { gr with outst := gr.outst.set n { o with done := true } }) ∧
    (¬early → ¬stays → ¬full → ∃ t, exec (.showEnqueue g n) s = .next t ∧ otherGroups s t g ∧ MemOnly s { t with groups := s.groups } ∧ NoStore s t ∧
      t.group? g = some (if o.helper then { gr with hshows := gr.hshows ++ [sh], outst := rest } else { gr with shows := gr.shows ++ [sh], outst := rest }) ∧
      (g.hand < 256 → releasedAt t g.hand 0))) ∧
  ∀ (s : State) (l : Lane) (n sc : Nat) (p : BitVec 32), runningLane s l.ref = some l → l.gr.waitBar = some (n, sc, p) →
    ((barrierOf l.tm n).phase = p → exec (.barwWake (.group l.ref)) s = .next s) ∧
    ((barrierOf l.tm n).phase ≠ p → ∃ t, exec (.barwWake (.group l.ref)) s = .next t ∧
      Passed s t l 2 1 { l.gr with arrival := l.gr.arrival.erase n, waitBar := none } ∧ MemOnly s { t with groups := s.groups } ∧
      NoStore s t ∧ (l.ref.hand < 256 → acquiredAt t l.ref.hand sc))

/-- R29-R36, R40-R42, R53, R227. A deal starts once its block passes its checks, with the loop's state cleared; an iteration starts while a stage is
on; the deal retires with the show it owes, and the last one closes its group and frees its units; results due at the position become
visible; a deferred fault stops the group; a swap puts the pending group that has been ready longest in place of one that waits or has no
deal. BLOCK_FORMAT for an entry line of another engine or without ENTRY is log entry 82 (DESIGN CHOICE between R51 and R53), a deal of trip
count 0 or cancelled starting unchecked log entry 24 (DEDUCED), the empty positions in which an idle group's results land log entry 30
(DEDUCED), the operands of GROUP_SWAP log entry 33 (DESIGN CHOICE), and a free position's place log entry 107 (DESIGN CHOICE). -/
def Obligations.LaneEvents : Prop :=
  (∀ (s : State) (g : GroupRef) (gr : Group) (tm : Team) (th : Thread) (c : Ctx) (d : Deal) (q : List Deal), s.group? g = some gr →
    s.team? g.team = some tm → s.thread? g.owner = some th → s.ctx? tm.ctx = some c →
    let free : Prop := handRuns s g.hand = true ∧ (s.hand g.hand).active.contains g = true ∧ gr.parked = false ∧ held s (.group g) = false
    let step := exec (.dealStart g) s
    let begins (s : State) (b : Block) : Prop := ∃ t x r, step = .next t ∧ t.group? g = some x ∧ x.run = some r ∧ x.queue = gr.queue ∧
      x.pend = [] ∧ x.shows = gr.shows ∧ r.deal = d ∧ r.blk = b ∧ r.trip = d.w0.toNat / 2 ^ 24 % 2 ^ 24 ∧ r.stopped = d.cancelled ∧ r.s = 0 ∧
      r.inj = 0 ∧ r.k = 0 ∧ r.shows = 0 ∧ r.started = false ∧ r.pc % 16 = 0 ∧ r.m0 = d.w1 ∧ r.d = d.w2 :: d.w3 :: d.d ∧
      [r.gseg, r.pseg, r.kseg, r.lseg] = [gr.gseg, gr.pseg, gr.kseg, gr.lseg] ∧ otherGroups s t g
    (¬free ∨ gr.hrun ≠ none → step = .next s) ∧
    (free → gr.hrun = none → gr.frozen = false → gr.run = none → gr.preempt = false → helperGroup th g = false →
      (gr.queue = [] → step = .next s) ∧
      (gr.queue = d :: q →
        let none_ : Prop := d.w0.toNat / 2 ^ 24 % 2 ^ 24 = 0 ∨ d.cancelled = true
        (none_ → begins s noBlock) ∧
        ∀ im s₁ s₂ bs b w1 ln, ¬none_ → imageOf s tm.ctx d.img = some im →
          readBlock s g.hand tm.ctx im (d.w0.toNat / 2 ^ 48) = (s₁, .ok bs, b, w1) →
          let fault (s : State) (c : FaultCode) : Prop := step = .next (startFault s g gr tm.ctx d false c (b.entry * 16 + 1) 0 (w1.setWidth 64))
          let fits : Prop := b.budget ≤ 8 * gr.units.length ∧ b.rotBase + b.rotSize ≤ b.budget ∧ 1 ≤ b.stages ∧ b.stages ≤ 8
          (b.bad = true ∨ b.win = true → fault s₁ .blockFormat) ∧
          (b.bad = false → b.win = false → ensureLine s₁ g.hand tm.ctx d.img b.entry = (s₂, .ok, ln) →
            (lineEngine ln ≠ 1 ∨ lineEntry ln = false → fault s₂ .blockFormat) ∧
            (lineEngine ln = 1 → lineEntry ln = true → (¬fits → fault s₂ .blockBudget) ∧ (fits → begins s₂ b)))))) ∧
  (∀ (s : State) (g : GroupRef) (l : Lane), runningLane s g = some l →
    let r := l.run
    let bit : Prop := r.inj < r.trip ∧ r.stopped = false ∧ r.pre = false
    let s' : BitVec 8 := BitVec.ofNat 8 (r.s.toNat * 2 + if bit then 1 else 0)
    let on : Prop := s'.toNat % 2 ^ r.blk.stages ≠ 0
    let set (x : Group) (r : Run) : Group := if l.helper then { x with hrun := some r } else { x with run := some r }
    let retire := exec (.dealRetire g) s
    (r.pc % 16 = 0 → on → ∃ t, exec (.iterationStart g) s = .next t ∧ otherGroups s t g ∧ { t with groups := s.groups } = s ∧
      t.group? g = some (set l.gr { r with
        s := s', inj := r.inj + (if bit then 1 else 0), rot := r.k, k := r.k + 1, pc := r.blk.entry * 16 + 1, idx := 0 })) ∧
    (r.pc % 16 ≠ 0 ∨ ¬on → exec (.iterationStart g) s = .next s) ∧
    (r.pc % 16 ≠ 0 ∨ on ∨ (∃ o ∈ l.gr.outst, o.helper = l.helper) → retire = .next s) ∧
    (∀ d q v x, l.helper = false → l.gr.queue = d :: q → r.pc % 16 = 0 → ¬on → (r.pre = false ∨ r.stopped = true ∨ r.trip ≤ r.inj) →
      (∀ o ∈ l.gr.outst, o.helper = true) → v = landDue s g l.gr.pos → v.group? g = some x →
      let wants : Prop := d.w0.toNat / 2 ^ 8 % 2 = 1
      let head (kind : Nat) : Show :=
        BitVec.ofNat 64 (d.seq.toNat * 2 ^ 32 + d.w0.toNat / 2 ^ 48 * 2 ^ 16 + d.w0.toNat / 2 ^ 16 % 2 ^ 8 * 2 ^ 8 + kind) :: List.replicate 7 0
      let shows := if wants then (if d.cancelled = true then [head 3] else if r.shows = 0 then [head 2] else []) else []
      let last : Prop := d.w0.toNat / 2 ^ 11 % 2 = 1
      (32 ≤ l.gr.shows.length → shows ≠ [] → retire = .next s) ∧
      (l.gr.shows.length < 32 ∨ shows = [] →
        (¬last → ∃ t, retire = .next t ∧ otherGroups v t g ∧ MemOnly v { t with groups := v.groups } ∧ NoStore v t ∧
          t.group? g = some { x with shows := l.gr.shows ++ shows, lastRet := d.seq, queue := q, run := none }) ∧
        (last → ∃ t x, retire = .next t ∧ t.group? g = some x ∧ x.state = .closed ∧ x.units = [] ∧ x.queue = q ∧ x.run = none ∧ x.pend = [] ∧
          x.shows = l.gr.shows ++ shows ∧ x.lastRet = d.seq ∧ (t.hand g.hand).active = (s.hand g.hand).active.erase g ∧
          t.team? g.team = some (setFree l.tm g.role l.gr.lg (freeUnits l.tm g.role l.gr.lg ++ l.gr.units)))))) ∧
  (∀ (s : State) (g : GroupRef) (gr : Group) (p : Pending), s.group? g = some gr → gr.pend = [p] → gr.landing = [] → p.data.length = 1024 →
    let shown (pos : Nat) (t : State) : Prop :=
      let x : Group := { gr with pos := pos, pend := [], fpx := gr.fpx ||| p.flags }
      (∀ key, p.dst = .tile key → t.group? g = some x ∧ (∀ h q i, i < 1024 →
        (tileAt t h q).getD i 0 = if h = g.hand ∧ q = key ∧ p.act.getLsbD i = true then p.data.getD i 0 else (tileAt s h q).getD i 0)) ∧
      (∀ n, p.dst = .mask n → t.group? g = some { x with m := gr.m.set n ((gr.m.getD n 0 &&& ~~~p.act) ||| (p.bits &&& p.act)) } ∧ t.hands = s.hands)
    (gr.run ≠ none ∨ gr.hrun ≠ none → p.vis ≤ gr.pos → ∃ t, exec (.resultVisible g) s = .next t ∧ shown gr.pos t ∧ otherGroups s t g) ∧
    (gr.run ≠ none ∨ gr.hrun ≠ none → gr.pos < p.vis → ∃ t, exec (.resultVisible g) s = .next t ∧ t.group? g = some gr ∧ otherGroups s t g ∧
      { t with groups := s.groups } = s) ∧
    (gr.run = none → gr.hrun = none → ∃ t, exec (.resultVisible g) s = .next t ∧ shown (max gr.pos p.vis) t ∧ otherGroups s t g)) ∧
  (∀ (s : State) (g : GroupRef) (l : Lane), runningLane s g = some l →
    (deferredHere s l = none → exec (.deferredFault g) s = .next s) ∧
    ∀ o code addr d1 d2, deferredHere s l = some o → o.bad = some (code, addr, d1, d2) → l.helper = false → l.tm.evstack = [] →
      exec (.deferredFault g) s = .next (stopAgent (freezeGroup (s.updGroup g fun x => { x with outst := x.outst.erase o }) g) l.tm.ctx code .d (.group g)
        { groupSite s g l.gr with pc := o.pc, k := o.k, ins := o.ins } addr d1 (groupDetail l.gr))) ∧
  ∀ (s : State) (g into : GroupRef) (gr gi : Group), s.group? g = some gr → s.group? into = some gi → g.hand = into.hand → gr.lg = gi.lg →
    let active := (s.hand g.hand).active
    let ready (x : GroupRef) : Prop := ∃ gx, s.group? x = some gx ∧ gx.lg = gr.lg ∧ x ∉ active ∧ (gx.state = .live ∨ gx.state = .closing) ∧
      (gx.queue ≠ [] ∨ gx.hqueue ≠ [])
    let longest (x : GroupRef) : Prop := ∃ as bs, (s.hand g.hand).ready = as ++ x :: bs ∧ (∀ y ∈ as, ¬ready y) ∧ ready x
    (¬ready into ∨ (∃ x, x ≠ into ∧ longest x) → exec (.groupSwap g into) s = .next s) ∧
    (longest into → g = into → (activeOf s g.hand gr.lg).length < 8 →
      exec (.groupSwap g into) s = .next (s.updHand g.hand fun h => { h with active := h.active ++ [g] })) ∧
    (longest into → g ≠ into → g ∈ active → gr.landing = [] → (gr.queue = [] ∧ gr.hqueue = []) ∨ swapWaits s g gr = true →
      exec (.groupSwap g into) s = .next (s.updHand g.hand fun h => { h with active := h.active.map fun x => if x = g then into else x }))

/-! ### Matrix streams and the gather unit (R107-R109, R244, R258-R272) -/

/-- R244, R245, R260-R262, R267, R270-R272. RINIT makes a ring from its record; TADV and HADV move a ring's tail and head, HADV waiting for the occupancy;
MZERO, MLDC and MSTC clear, load and store an accumulator; GATH passes its work to the gather unit; MEND ends the stream once that work is
done; the barrier instructions act as the threads' do, in units of 64 pending bytes. The fault of a failed GATH stops the stream before the next
instruction that names its ring, and before the next BARA, BARW or MEND (R267). That RINIT's shape check precedes RING_BUSY is log entry 35
(DEDUCED), and detail 2 of BAR_UNINIT and BAR_OVER, the expected count × 2¹⁶ + the arrivals, log entry 70 (DEDUCED). -/
def Obligations.MatrixRings : Prop :=
  (∀ (s : State) (m : Mx) (w : MatW), StreamReady s m →
    let h := m.ref.hand
    let o := w.imm.toNat * 64
    let n := w.ra.toNat
    let c := w.imm.toNat
    let r := ringOf m.tm n
    let occ := (r.t - r.h).toNat
    let reads (k : Nat) : Prop :=
      (∀ f, checkScratch s (m.actor .stream) .load k false (BitVec.ofNat 64 o) 1 ≠ .fault f) ∧ poisonedUnits s (.scratch h o) k = []
    let word (i : Nat) : Nat := ofBytes ((List.range 4).map fun j => scratchByte s m.tm.ctx h (o + 4 * i + j))
    let alone (i : Instr) (w : Nat) (tm : Team) : Prop := ∃ t, exec i s = .next t ∧ StreamDone s t m w tm ∧ sameBytes s t ∧ { t with teams := s.teams } = s
    let ring (r : Ring) : Team := { m.tm with rings := m.tm.rings.set n r }
    let fault (i : Instr) (f : FaultCode) (a b : Nat) : Prop := exec i s = .next (streamFault s m.ref f 0 (BitVec.ofNat 64 a) (BitVec.ofNat 64 b))
    let held : Prop := m.tm.accBudget ≤ w.acc.toNat
    let acc (l : List W32) : Team := { m.tm with acc := m.tm.acc.set w.acc.toNat l }
    alone .matrixNop 1 m.tm ∧
    -- RINIT
    (reads 16 →
      let good : Prop := word 0 < 2 ^ 22 ∧ word 0 % 64 = 0 ∧ 1 ≤ word 1 ∧ word 1 ≤ 1024 ∧ 1 ≤ word 2 ∧ word 2 ≤ 256 ∧ word 3 = 0 ∧
        word 0 + 64 * word 1 * word 2 ≤ 0x3FD800 ∧ m.th.pseg.admits (word 0) (64 * word 1 * word 2) = true
      (¬good → fault (.rinit w) .ringShape n (word 1)) ∧ (good → ringBusy s m.ref n = true → fault (.rinit w) .ringBusy n 0) ∧
      (good → ringBusy s m.ref n = false → alone (.rinit w) 2 (ring ⟨true, word 0, word 1, word 2, 0, 0⟩))) ∧
    -- TADV, HADV
    (r.valid = false → fault (.tadv w) .ringUninit n c ∧ fault (.hadv w) .ringUninit n c) ∧
    (r.valid = true → r.n < c → fault (.tadv w) .ringShape n c ∧ fault (.hadv w) .ringShape n c) ∧
    (r.valid = true → c ≤ r.n →
      (r.n < occ + c → fault (.tadv w) .ringOver n c) ∧
      (occ + c ≤ r.n → ∃ t, exec (.tadv w) s = .next t ∧ StreamDone s t m 2 (ring { r with t := r.t + BitVec.ofNat 32 c }) ∧
        MemOnly s { t with teams := s.teams } ∧ NoStore s t ∧ (h < 256 → releasedAt t h 0)) ∧
      (occ < c → exec (.hadv w) s = .next (updStream s m.ref fun x => { x with waitHadv := some (n, c) })) ∧
      (c ≤ occ → alone (.hadv w) 2 { ring { r with h := r.h + BitVec.ofNat 32 c } with stream := { m.tm.stream with waitHadv := none } })) ∧
    -- accumulators
    (held → fault (.mzero w) .accRange w.acc.toNat w.acc.toNat ∧ fault (.mldc w) .accRange w.acc.toNat w.acc.toNat ∧
      fault (.mstc w) .accRange w.acc.toNat w.acc.toNat) ∧
    (¬held → alone (.mzero w) 2 (acc (List.replicate 4096 0)) ∧
      (reads 16384 → alone (.mldc w) 2 (acc ((List.range 4096).map fun i => BitVec.ofNat 32 (word i)))) ∧
      (let raw : Prop := w.flags.getLsbD 3 = true
       let k := if raw then 4 else if w.fmt.toNat ≤ 1 then 2 else 1
       let elem (v : W32) : Nat × Flags :=
         if raw then (v.toNat, 0) else if w.fmt = 5 then intResult true 8 (w.flags.getLsbD 2) v.toInt
         else roundNum (fmtOf (match w.fmt.toNat with | 0 => 10 | 1 => 9 | 2 => 11 | 3 => 12 | 4 => 13 | _ => 0)) (w.flags.toNat % 4)
           (w.flags.getLsbD 2) (fmtF32.decode v.toNat)
       let es := (accOf m.tm w.acc.toNat).map elem
       let check := checkScratch s (m.actor .stream) .store (4096 * k) false (BitVec.ofNat 64 o) 1
       (∀ f, check = .fault f → exec (.mstc w) s =
         .next (streamFault s m.ref f (BitVec.ofNat 64 o) 0 (BitVec.ofNat 64 (4096 * k % 256 + 256)))) ∧
       ((∀ f, check ≠ .fault f) → ∃ t, exec (.mstc w) s = .next t ∧
         StreamDone s t m 2 { m.tm with stream := { m.tm.stream with fpx := m.tm.stream.fpx ||| orFlags (es.map (·.2)) } } ∧
         (∀ q, (t.hand q).scratch = if q = h then Memory.write (s.hand h).scratch o (es.flatMap fun e => toBytes k e.1) else (s.hand q).scratch) ∧
         { t with teams := s.teams, hands := s.hands } = s))) ∧
    -- GATH, MEND
    (let b := ringOf m.tm w.rb.toNat
     (b.valid = false → fault (.gath w) .ringUninit w.rb.toNat 0) ∧ (b.valid = true → b.z ≠ 136 → fault (.gath w) .ringShape w.rb.toNat b.z) ∧
     let work : Gather := { slot := m.ref.slot, ring := w.rb.toNat, fmt := w.fmt.toNat, off := o, img := m.tm.stream.img, pc := m.tm.stream.pc }
     (b.valid = true → b.z = 136 → ∃ t, exec (.gath w) s = .next t ∧ StreamDone s t m 2 m.tm ∧
       (∀ q, t.hand q = if q = h then { s.hand h with gather := (s.hand h).gather ++ [work] } else s.hand q) ∧
       { t with teams := s.teams, hands := s.hands } = s)) ∧
    ((∃ g ∈ (s.hand h).gather, g.slot = m.ref.slot) → exec (.mend w) s = .next s) ∧
    ((∀ g ∈ (s.hand h).gather, g.slot ≠ m.ref.slot) → exec (.mend w) s = .next (updStream s m.ref fun x => { x with running := false })) ∧
    -- barriers
    (let x := m.tm.stream
     let k := w.bar.toNat
     let b := barrierOf m.tm k
     let sc := w.flags.toNat % 8
     let d := BitVec.ofNat 64 (b.expected.toNat * 2 ^ 16 + b.arrivals.toNat)
     let stop (i : Instr) (f : FaultCode) : Prop := exec i s = .next (streamFault s m.ref f 0 (BitVec.ofNat 64 k) d)
     let fenced (t : State) : Prop := MemOnly s { t with teams := s.teams } ∧ NoStore s t
     (x.fpx &&& m.th.fpxmask ≠ 0 → x.waitBar = none → ∀ i ∈ [Instr.matrixBara w, .matrixBarw w],
       exec i s = .next (streamFault s m.ref .fpxTrap 0 (x.fpx.setWidth 64) (m.th.fpxmask.setWidth 64))) ∧
     (x.fpx &&& m.th.fpxmask = 0 →
       (b.expected = 0 → stop (.matrixBara w) .barUninit ∧ (x.waitBar = none → stop (.matrixBarw w) .barUninit)) ∧
       (b.expected ≠ 0 → b.arrivals = b.expected → stop (.matrixBara w) .barOver) ∧
       (b.expected ≠ 0 → b.arrivals ≠ b.expected →
         let v := b.pending + BitVec.ofNat 64 (64 * c)
         let full : Prop := b.arrivals + 1 = b.expected ∧ v = 0
         let b' : Barrier := ⟨if full then 0 else b.arrivals + 1, b.expected, if full then b.phase + 1 else b.phase, v⟩
         ∃ t, exec (.matrixBara w) s = .next t ∧ fenced t ∧ (h < 256 → releasedAt t h sc) ∧ StreamDone s t m 2
           { m.tm with bars := m.tm.bars.set k b', stream := { x with arrival := x.arrival.set k b.phase } }) ∧
       (x.waitBar = none → b.expected ≠ 0 →
         let p := (x.arrival.get? k).getD b.phase
         (b.phase = p → exec (.matrixBarw w) s = .next (updStream s m.ref fun x => { x with waitBar := some (k, sc, p) })) ∧
         (b.phase ≠ p → ∃ t, exec (.matrixBarw w) s = .next t ∧ fenced t ∧ (h < 256 → acquiredAt t h sc) ∧
           StreamDone s t m 2 { m.tm with stream := { x with arrival := x.arrival.erase k } }))))) ∧
  (∀ (s : State) (m : Mx) (w : MatW), s.cur = .stream m.ref → s.mxOf m.ref = some m → m.tm.stream.mma = none →
    let stops (i : Instr) (g : GathFault) : Prop := exec i s = .next (stopAgent
      (updStream s m.ref fun x => { x with gathFaults := x.gathFaults.erase g, running := true, stopped := true }) m.tm.ctx g.code .m (.stream m.ref)
      { streamSite m.ref m.tm with engine := 3, img := g.img, pc := g.pc } g.addr g.d1 g.d2)
    let first (p : GathFault → Prop) (g : GathFault) : Prop := ∃ as bs, m.tm.stream.gathFaults = as ++ g :: bs ∧ p g ∧ ∀ x ∈ as, ¬p x
    ∀ g, (first (fun x => x.ring = w.ra.toNat) g → ∀ i ∈ [Instr.rinit w, .tadv w, .hadv w], stops i g) ∧
      (first (fun x => x.ring = w.ra.toNat ∨ x.ring = w.rb.toNat) g → ∀ i ∈ [Instr.mma w, .mmas w, .mmat w], stops i g) ∧
      (first (fun x => x.ring = w.rb.toNat) g → stops (.gath w) g) ∧
      (first (fun _ => True) g → ∀ i ∈ [Instr.matrixBara w, .matrixBarw w, .mend w], stops i g)) ∧
  ∀ (s : State) (m : Mx), s.mxOf m.ref = some m → m.tm.stream.mma = none → m.tm.stream.gathFaults = [] → streamFree s m.ref = true →
    (∀ n c, m.tm.stream.waitHadv = some (n, c) →
      let r := ringOf m.tm n
      ((r.t - r.h).toNat < c → exec (.hadvResume m.ref) s = .next (updStream s m.ref fun x => { x with waitHadv := some (n, c) })) ∧
      (c ≤ (r.t - r.h).toNat → ∃ t, exec (.hadvResume m.ref) s = .next t ∧ { t with teams := s.teams } = s ∧
        StreamDone s t m 2 { m.tm with rings := m.tm.rings.set n { r with h := r.h + BitVec.ofNat 32 c },
                                       stream := { m.tm.stream with waitHadv := none } })) ∧
    ∀ n sc p, m.tm.stream.waitBar = some (n, sc, p) →
      ((barrierOf m.tm n).phase = p → exec (.barwWake (.stream m.ref)) s = .next s) ∧
      ((barrierOf m.tm n).phase ≠ p → ∃ t, exec (.barwWake (.stream m.ref)) s = .next t ∧
        StreamDone s t m 2 { m.tm with stream := { m.tm.stream with arrival := m.tm.stream.arrival.erase n, waitBar := none } } ∧
        MemOnly s { t with teams := s.teams } ∧ NoStore s t ∧ (m.ref.hand < 256 → acquiredAt t m.ref.hand sc))

/-- R86, R108, R109, R264-R269. MMA and MMAS check accumulator and rings, wait for their slots, and issue with C + A·B: for I8 the exact sum modulo 2^32, for
the float formats a result of R108 on the values of R92, scaled as R107 says where the instruction scales, with its flags; MMAT reads A by
columns. MMA_RETIRE writes the accumulator, pops the heads and raises the flags.
GATHER_EXECUTE reads the head GATH's record, waits for room, writes its slot and advances its ring's tail; a malformed record leaves a fault for
the stream: RING_SHAPE, which is log entry 35 (DEDUCED: R267 names no fault for the record). -/
def Obligations.MatrixProducts : Prop :=
  (∀ (s : State) (m : Mx) (w : MatW), StreamReady s m →
    let h := m.ref.hand
    let a := ringOf m.tm w.ra.toNat
    let b := ringOf m.tm w.rb.toNat
    let same : Prop := w.ra = w.rb
    let occ (r : Ring) : Nat := (r.t - r.h).toNat
    let fault (i : Instr) (f : FaultCode) (x y : Nat) : Prop := exec i s = .next (streamFault s m.ref f 0 (BitVec.ofNat 64 x) (BitVec.ofNat 64 y))
    let ok : Prop := w.acc.toNat < m.tm.accBudget ∧ a.valid = true ∧ b.valid = true
    let waits : Prop := occ a < (if same then 2 else 1) ∨ occ b < 1
    let sa := a.base + a.h.toNat % a.n * (64 * a.z)
    let sb := if same then a.base + (a.h + 1).toNat % a.n * (64 * a.z) else b.base + b.h.toNat % b.n * (64 * b.z)
    let byte (o : Nat) : Byte := scratchByte s m.tm.ctx h o
    let half (o : Nat) : Nat := ofBytes [byte o, byte (o + 1)]
    let C (i : Nat) : W32 := (accOf m.tm w.acc.toNat).getD i 0
    let clean (o n : Nat) : Prop := poisonedUnits s (.scratch h o) n = []
    let issues (i : Instr) (P : List W32 → Flags → Prop) : Prop := ∃ t data fl, exec i s = .next t ∧ data.length = 4096 ∧ P data fl ∧
      (let x : Mma := ⟨w.acc.toNat, data, fl, if same then [(w.ra.toNat, 2)] else [(w.ra.toNat, 1), (w.rb.toNat, 1)]⟩
       StreamDone s t m 2 { m.tm with stream := { m.tm.stream with mma := some x } }) ∧
      (∀ q, t.hand q = if q = h then { s.hand h with lastMma := some m.ref.slot } else s.hand q) ∧
      { t with teams := s.teams, hands := s.hands, fresh := s.fresh } = s
    -- the values of R92 and R107: element k at an offset, in row or column i
    let ty := match w.fmt.toNat with | 0 => 10 | 1 => 9 | 2 => 11 | 3 => 12 | _ => 13
    let K := match w.fmt.toNat with | 0 => 64 | 1 => 64 | 4 => 256 | _ => 128
    let code (o k : Nat) : Nat :=
      match w.fmt.toNat with | 0 => half (o + 2 * k) | 1 => half (o + 2 * k) | 4 => (byte (o + k / 2)).toNat / 16 ^ (k % 2) % 16 | _ => (byte (o + k)).toNat
    let val (T : Option Tile) (isB : Bool) (i k c : Nat) : Machine.Num :=
      match T with
      | some T =>
        let v := (T.getD (64 * (k / 32 + if isB then 8 else 0) + i) 0).toNat / 2 ^ (8 * w.sel.toNat)
        if w.fmt = 4 ∧ v / 2 ^ 8 % 2 ^ 7 = 0x7F then .nan false else scaledValue ty c (v % 2 ^ 8) (v / 2 ^ 8 % 2 ^ 8)
      | none => if w.fmt.toNat ≤ 1 then (fmtOf ty).decode c else scaledValue ty c 0x7F 0
    -- each output is a result of R108 on K terms, and the flags are theirs
    let sums (K : Nat) (terms : Nat → Nat → List (Machine.Num × Machine.Num)) (data : List W32) (fl : Flags) : Prop :=
      ∃ cand : Nat → Nat → Nat,
        let r (i j : Nat) : Nat × Flags := dotFloat (cand i j) K (fmtF32.decode (C (64 * i + j)).toNat) (terms i j)
        (∀ i < 64, ∀ j < 64, data.getD (64 * i + j) 0 = BitVec.ofNat 32 (r i j).1) ∧
          ∀ n, fl.getLsbD n = true ↔ ∃ i < 64, ∃ j < 64, (r i j).2.getLsbD n = true
    -- the checks
    (∀ i ∈ [Instr.mma w, .mmas w],
      (m.tm.accBudget ≤ w.acc.toNat → fault i .accRange w.acc.toNat w.acc.toNat) ∧
      (w.acc.toNat < m.tm.accBudget → a.valid = false → fault i .ringUninit w.ra.toNat 0) ∧
      (w.acc.toNat < m.tm.accBudget → a.valid = true → b.valid = false → fault i .ringUninit w.rb.toNat 0)) ∧
    (ok → a.z ≠ 128 → fault (.mma w) .ringShape w.ra.toNat a.z) ∧ (ok → a.z ≠ 512 → fault (.mmas w) .ringShape w.ra.toNat a.z) ∧
    (ok → a.z = 128 → b.z ≠ 128 → fault (.mma w) .ringShape w.rb.toNat b.z) ∧
    (ok → a.z = 512 → b.z ≠ 136 → fault (.mmas w) .ringShape w.rb.toNat b.z) ∧
    (ok → a.z = 128 → same → a.n < 2 → fault (.mma w) .ringShape w.ra.toNat a.n) ∧
    -- MMA, MMAT
    (ok → a.z = 128 → b.z = 128 → (same → 2 ≤ a.n) → (waits → exec (.mma w) s = .next s) ∧
      (¬waits → w.scaled = true → scaleTile s m w = none → fault (.mma w) .scaleSrc w.acc.toNat w.tile.toNat) ∧
      (¬waits → ∀ T, (if w.scaled = true then T ≠ none ∧ T = scaleTile s m w else T = none) → clean sa 8192 → clean sb 8192 →
        (w.fmt = 5 → T = none → issues (.mma w) fun data fl => fl = 0 ∧ ∀ i < 64, ∀ j < 64, data.getD (64 * i + j) 0 = C (64 * i + j) +
          ((List.range 128).map fun k => BitVec.ofInt 32 ((byte (sa + 128 * i + k)).toInt * (byte (sb + 128 * j + k)).toInt)).sum) ∧
        (w.fmt.toNat ≤ 4 → (w.fmt.toNat ≤ 1 → T = none) →
          issues (.mma w) (sums K fun i j => (List.range K).map fun k =>
            (val T false i k (code (sa + 128 * i) k), val T true j k (code (sb + 128 * j) k)))) ∧
        (w.fmt.toNat ≤ 1 → libraryServes m.ctx m.th false = true →
          issues (.mmat w) (sums K fun i j => (List.range K).map fun k =>
            (val none false i k (half (sa + 128 * k + 2 * i)), val none true j k (code (sb + 128 * j) k)))))) ∧
    (libraryServes m.ctx m.th false = false → exec (.mmat w) s = .next (mxCause s m .retired (wordsOf (.mmat w)) (some (.mmat w)))) ∧
    -- MMAS
    (ok → same → fault (.mmas w) .ringShape w.ra.toNat a.z) ∧
    (ok → a.z = 512 → b.z = 136 → w.fmt ≠ 4 → ¬same → (waits → exec (.mmas w) s = .next s) ∧
      (¬waits → clean sa 32768 → clean sb 8704 →
        let idx := ((List.range 256).map fun j => half (sb + 2 * j)).takeWhile (· ≠ 0xFFFF)
        let e := 128 / K
        (∀ i, idx.find? (fun i => 4 * K ≤ i) = some i → fault (.mmas w) .gatherRange w.rb.toNat i) ∧
        ((∀ i ∈ idx, i < 4 * K) → idx.length ≤ K →
          (w.fmt = 5 → issues (.mmas w) fun data fl => fl = 0 ∧ ∀ r < 64, ∀ c < 64,
            data.getD (64 * r + c) 0 = C (64 * r + c) + ((List.range idx.length).map fun j =>
              BitVec.ofInt 32 ((byte (sa + 512 * r + idx.getD j 0)).toInt * (byte (sb + 512 + 64 * j + c)).toInt)).sum) ∧
          (w.fmt.toNat < 4 → idx = [] → issues (.mmas w) fun data fl => fl = 0 ∧ ∀ i < 4096, data.getD i 0 = C i) ∧
          (w.fmt.toNat < 4 → idx ≠ [] → issues (.mmas w) (sums idx.length fun r c => (List.range idx.length).map fun j =>
            (val none false r 0 (code (sa + 512 * r) (idx.getD j 0)), val none true c 0 (code (sb + 512 + 64 * e * j) c)))))))) ∧
  (∀ (s : State) (t : TeamRef) (tm : Team) (x : Mma), s.team? t = some tm → tm.stream.mma = some x →
    ∃ u, exec (.mmaRetire t) s = .next u ∧ otherTeams s u t ∧ { u with teams := s.teams } = s ∧
      u.team? t = some (let tm := x.pops.foldl (fun t p => updRing t p.1 fun r => { r with h := r.h + BitVec.ofNat 32 p.2 }) tm
        { tm with acc := tm.acc.set x.acc x.data, stream := { tm.stream with mma := none, fpx := tm.stream.fpx ||| x.flags } })) ∧
  ∀ (s s₁ : State) (h : Nat) (g : Gather) (q : List Gather) (tm : Team) (c : Ctx) (th : Thread) (rec : List (Byte × Bool)),
    let t : TeamRef := ⟨h, g.slot⟩
    (s.hand h).gather = g :: q → s.team? t = some tm → s.ctx? tm.ctx = some c → s.thread? ⟨h, g.slot, tm.stream.owner⟩ = some th →
    isParked s (.stream t) = false → handRuns s h = true →
    let m : Mx := ⟨t, tm, c, th, none⟩
    let s' : State := { s with cur := .stream t }
    let r := ringOf tm g.ring
    let site := { streamSite t tm with engine := 3, img := g.img, pc := g.pc }
    let taken (s : State) : State := s.updHand h fun x => { x with gather := { g with record := some rec } :: x.gather.drop 1 }
    -- its record has been read, or is read now
    (g.record = some rec ∧ s₁ = s') ∨
      (g.record = none ∧ ∃ s₀, gatherRead s' (m.actor .gather) site 1 (BitVec.ofNat 64 g.off) 32 1 [] = (s₀, .ok (rec, [])) ∧ s₁ = taken s₀) →
    (∀ b ∈ rec, b.2 = false) →
    let f (o n : Nat) : Nat := ofBytes (((rec.map (·.1)).drop o).take n)
    let n := f 16 4
    let good : Prop := n ≤ fmtK g.fmt ∧ f 24 4 % 64 = 0 ∧ f 28 1 ≤ 1 ∧ f 29 3 = 0
    (¬good → ∃ u, exec (.gatherExecute h) s = .next u ∧ (u.hand h).gather = q ∧ otherTeams s u t ∧
      u.team? t = some { tm with stream := { tm.stream with gathFaults := tm.stream.gathFaults ++
        [⟨.ringShape, 0, BitVec.ofNat 64 g.ring, BitVec.ofNat 64 n, g.ring, g.img, g.pc⟩] } }) ∧
    (good → r.n ≤ (r.t - r.h).toNat → exec (.gatherExecute h) s = .next { s₁ with cur := s.cur }) ∧
    ∀ s₂ rows, good → (r.t - r.h).toNat < r.n →
      gatherRows (m.actor .gather) site g.ring g.fmt (f 20 4) (f 28 1) (f 24 4) (BitVec.ofNat 64 (f 0 8)) (BitVec.ofNat 64 (f 8 8)) (List.range n)
        [] s₁ = (s₂, .ok (rows, [])) →
      ∃ u, exec (.gatherExecute h) s = .next u ∧ (u.hand h).gather = q ∧ otherTeams s u t ∧
        u.team? t = some { tm with rings := tm.rings.set g.ring { r with t := r.t + 1 } } ∧
        ∀ k, (u.hand k).scratch = if k = h then Memory.write (s.hand h).scratch (r.base + r.t.toNat % r.n * (64 * r.z)) (gatheredSlot g.fmt rows)
          else (s.hand k).scratch

/-! ### Copies (R65, R73, R159-R164, R191, R192, R274-R280) -/

/-- R162, R164, R191, R192, R274, R278, R280. CPY queues one command, or a chain, and waits while the queue is full; CPCAN marks the team's commands
whose tag agrees, of a chain the one that has issued, and counts them; COPY_START begins the first entry that may; COPY_COMPLETE waits while the
command is parked, while its ring is full (R260) and while a peer has not answered a write (R366), whose refusal is the copy's fault; then it
releases, lowers its barrier's pending bytes, advances its ring and lets a chain go on; COPY_FAULT_STOP ends the entry and leaves COPY_FAULT to its
thread. That a retired command (CP.G2L) lowers no barrier is log entry 72 (DEDUCED: R279 makes no exception). -/
def Obligations.CopyQueues : Prop :=
  (∀ (s s₁ : State) (k : Core) (d a m : R5), s.core = some k →
    let h := k.ref.hand
    let v := k.th.rx a
    let arg := k.th.rx (a + 1)
    let ws := ([v.setWidth 32, 0, v.extractLsb' 32 32] : List W32).take (instrWords .copy (v.setWidth 32))
    let fate := decodeFate .copy (edisOf s k.ctx) ws
    let room (bulk : Bool) : Prop := if bulk then bulkHeld s h < 16 else (s.hand h).near.length < 64
    let queued (u : State) (old : State) (bulk : Bool) (cmd : Option Instr) (arg : W64) (chain : Option Chain) : Prop :=
      u.thread? k.ref = some { k.th with pc := k.next 1, wait := .none, buffer := [] } ∧ otherThreads s u k.ref ∧
      ∃ x : Copy, copyQueue u h bulk = copyQueue old h bulk ++ [x] ∧ copyQueue u h (!bulk) = copyQueue old h (!bulk) ∧ x.cmd = cmd ∧ x.arg = arg ∧
        x.chain = chain ∧ x.slot = k.ref.slot ∧ x.role = k.ref.role ∧ x.ctx = k.tm.ctx ∧ x.issued = false ∧ x.cancelled = false ∧ x.bad = none
    (m = 0 → fate = .run .copyNop → ∃ t, exec (.cpy a m) s = .next t ∧ RetiredAlone s t k (k.next 1) []) ∧
    (∀ i, m = 0 → fate = .run i → i ≠ .copyNop → i.retired = false →
      (¬room (bulkCmd i) → exec (.cpy a m) s = .next (s.updThread k.ref fun th => { th with wait := .cpy })) ∧
      (room (bulkCmd i) → ∀ y ck, drainStop s k = some (y, ck) → exec (.cpy a m) s = .next (storeRefused s k y ck)) ∧
      (room (bulkCmd i) → drainStop s k = none →
        ∃ u, exec (.cpy a m) s = .next u ∧ queued u s (bulkCmd i) (some i) arg none ∧ NoStore (drain s k) u)) ∧
    (∀ i, m = 0 → fate = .run i → i ≠ .copyNop → i.retired = true →
      (libraryServes k.ctx k.th true = false → exec (.cpy a m) s = .next (directCause s k .retired ws (some i) arg)) ∧
      (libraryServes k.ctx k.th true = true → exec (.cpy a m) s = .next (libraryCopy s k i arg))) ∧
    (∀ c i, m = 0 → fate = .emulate c i → exec (.cpy a m) s = .next (directCause s k c ws i arg)) ∧
    (m ≠ 0 → checkTarget s h k.tm.ctx k.th.img .copy true v = (s₁, .ok) → (s₁.hand h).near.length < 64 → drainStop s₁ k = none →
      ∃ u, exec (.cpy a m) s = .next u ∧ queued u s₁ false none arg (some ⟨v.toNat, true, false⟩) ∧ NoStore (drain s₁ k) u) ∧
    (m ≠ 0 → checkTarget s h k.tm.ctx k.th.img .copy true v = (s₁, .ok) → 64 ≤ (s₁.hand h).near.length →
      exec (.cpy a m) s = .next (s₁.updThread k.ref fun th => { th with wait := .cpy })) ∧
    let tag := v.toNat % 2 ^ 8
    let msk := v.toNat / 2 ^ 8 % 2 ^ 8
    let hit (x : Copy) : Bool := x.slot = k.ref.slot && !x.cancelled && x.bad.isNone && (x.chain.isNone || x.issued) &&
      (match x.cmd with | some i => ((copyWord i).tag.toNat &&& msk) = (tag &&& msk) | none => false)
    let after (x : Copy) : Copy := if hit x then { x with cancelled := true, performed := x.issued, owned := [] } else x
    ∃ u, exec (.cpcan d a) s = .next u ∧
      Retired s u k (k.next 1) [(d, BitVec.ofNat 64 (((s.hand h).near ++ (s.hand h).bulk).countP hit))] ∧ sameBytes s u ∧
      (u.hand h).near = (s.hand h).near.map after ∧ (u.hand h).bulk = (s.hand h).bulk.map after ∧
      { u with threads := s.threads, hands := s.hands, ctxs := s.ctxs, weave := { u.weave with reqs := s.weave.reqs } } = s) ∧
  (∀ (s : State) (h : Nat) (bulk : Bool),
    let q := copyQueue s h bulk
    let may (x : Copy) : Bool := !x.issued && copyLive s h bulk x && mayGo s h bulk x
    ((∀ x ∈ q, may x = false) → exec (.copyStart h bulk) s = .next s) ∧
    (∀ p x r, q = p ++ x :: r → may x = true → (∀ y ∈ p, may y = false) → exec (.copyStart h bulk) s = .next (copyTurn s h bulk x) ∧
      ∀ i, x.cmd = some i → engineOf s h bulk x i ≠ none → s.cur = .copy h bulk x.id → copyOf? s h bulk x.id = some x → (∃ w imm,
        i ∈ [Instr.cpG2p w, .cpP2g w, .cpG2g w, .cpP2p w, .cpG2l w, .cpFill w imm, .cpRows w imm, .cpToring w imm, .cpReduce w imm]) →
        exec (.copyStart h bulk) s = exec i s) ∧
    ∀ (x : Copy) (c : Chain) (n : Nat), s.cur = .copy h bulk n → copyOf? s h bulk n = some x → x.chain = some c → x.cmd = none →
      copyLive s h bulk x = true →
      let pc := nextOf (linkedLine s h x.ctx x.img (c.pc / 16)) c.pc 1
      ∃ u, exec .copyNop s = .next u ∧ { u with hands := s.hands } = s ∧
        (pc % 16 = 0 → copyQueue u h bulk = q.filter (·.id ≠ n)) ∧
        (pc % 16 ≠ 0 → ∃ y, copyOf? u h bulk n = some y ∧ y.chain = some ⟨pc, false, false⟩ ∧ y.cmd = none ∧ y.issued = false)) ∧
  ∀ (s : State) (h n : Nat) (bulk : Bool) (x : Copy) (i : Instr), copyOf? s h bulk n = some x → x.cmd = some i →
    let t : TeamRef := ⟨h, x.slot⟩
    let w := copyWord i
    let gone (u : State) : Prop := copyQueue u h bulk = (copyQueue s h bulk).filter (·.id ≠ n)
    let goesOn (u : State) (pc : Nat) : Prop := (pc % 16 = 0 → gone u) ∧
      (pc % 16 ≠ 0 → ∃ y, copyOf? u h bulk n = some y ∧ y.chain = some ⟨pc, false, false⟩ ∧ y.cmd = none ∧ y.issued = false)
    let full (tm : Team) : Prop := ∃ w imm, i = .cpToring w imm ∧ x.cancelled = false ∧
      let r := ringOf tm (imm.toNat % 8); r.valid = true ∧ r.n ≤ (r.t - r.h).toNat
    let waits (tm : Team) : Prop := full tm ∨ isParked s (.copy h bulk n) = true
    (x.performed = false ∨ x.bad ≠ none → exec (.copyComplete h bulk n) s = .next s) ∧
    (∀ tm th r, x.performed = true → x.bad = none → s.team? t = some tm → s.thread? ⟨h, x.slot, x.role⟩ = some th → ¬waits tm →
      copyAsks s (.copy h bulk n) = some r →
      (r.reply = none → exec (.copyComplete h bulk n) s = .next s) ∧
      (∀ c, r.says = .fault c → x.cancelled = false → ∃ u y d2, exec (.copyComplete h bulk n) s = .next u ∧ copyOf? u h bulk n = some y ∧
        y.bad = some (c, r.pointer, 0, d2) ∧ { u with hands := s.hands, weave := { u.weave with reqs := s.weave.reqs } } = s)) ∧
    (∀ tm, x.performed = true → x.bad = none → s.team? t = some tm → (waits tm → exec (.copyComplete h bulk n) s = .next s) ∧
      (¬waits tm → copyAsks s (.copy h bulk n) = none →
      let b := barrierOf tm w.bar.toNat
      let p := b.pending - BitVec.ofNat 64 (x.rowB * x.rows.length)
      let met : Prop := b.expected ≠ 0 ∧ b.arrivals = b.expected ∧ p = 0
      let bars := if w.barEn = 1 ∧ i.retired = false then tm.bars.set w.bar.toNat ⟨if met then 0 else b.arrivals, b.expected, if met then b.phase + 1 else b.phase, p⟩
        else tm.bars
      let rings := match i with
        | .cpToring _ imm => if x.cancelled then tm.rings
          else tm.rings.set (imm.toNat % 8) { ringOf tm (imm.toNat % 8) with t := (ringOf tm (imm.toNat % 8)).t + 1 }
        | _ => tm.rings
      ∃ u, exec (.copyComplete h bulk n) s = .next u ∧ u.team? t = some { tm with bars := bars, rings := rings } ∧ otherTeams s u t ∧
        NoStore s u ∧ (h < 256 → releasedAt u h w.scope.toNat) ∧
        (x.chain = none ∨ x.cancelled = true → gone u) ∧
        (∀ c, x.chain = some c → x.cancelled = false →
          goesOn u (nextOf (linkedLine s h x.ctx x.img (c.pc / 16)) c.pc (wordsOf i).length)))) ∧
    (x.bad = none → exec (.copyFaultStop h bulk n) s = .next s) ∧
    ∀ code addr d1 d2 tm th, x.bad = some (code, addr, d1, d2) → s.team? t = some tm → s.thread? ⟨h, x.slot, x.role⟩ = some th →
      (∃ r ∈ teamThreads s t, ∃ y, s.thread? r = some y ∧ y.wait ≠ .exited) →
      ∃ u, exec (.copyFaultStop h bulk n) s = .next u ∧ gone u ∧ u.errSeq = s.errSeq + 1 ∧ otherThreads s u ⟨h, x.slot, x.role⟩ ∧
        u.thread? ⟨h, x.slot, x.role⟩ = some { th with copyFaults := th.copyFaults ++ [⟨code.code, BitVec.ofNat 64 s.errSeq⟩] }

/-- R143, R159, R161, R164, R274-R277. A copy command issues with a release at its scope and its argument record, which gives its rows; a malformed
record or a row that fails its checks stops it, and it waits while another copy owns one of its destination lines; from its issue it owns
them. An issued command writes its rows line by line, each with the bytes of its source or of its pattern; a TORING writes the tail slot of
its ring and waits while that is full; a REDUCE adds; at a peer a line's write is a request (R162, R366). COPY_FORMAT's detail and the width of an
access in a record, the row's bytes up to 64, are log entry 38 (DEDUCED); that all lines that can be written are written within one turn is
entry 36 (DESIGN CHOICE). -/
def Obligations.CopyCommands : Prop :=
  ∀ (s : State) (h n : Nat) (bulk : Bool) (x : Copy) (i : Instr) (e : CopyRun) (w : CopyW) (imm : BitVec 32),
    i ∈ [Instr.cpG2p w, .cpP2g w, .cpG2g w, .cpP2p w, .cpG2l w, .cpFill w imm, .cpRows w imm, .cpToring w imm, .cpReduce w imm] →
    s.cur = .copy h bulk n → copyOf? s h bulk n = some x → x.cmd = some i → copyLive s h bulk x = true →
    mayGo s h bulk x = true → engineOf s h bulk x i = some e →
    -- issue
    (h < 256 → releasedAt (releaseAt s h w.scope.toNat) h w.scope.toNat) ∧
    (x.issued = false → x.cancelled = false → x.chain = none → ∀ (s₁ : State) (bs : List (Byte × Bool)),
      let addr := x.arg + w.off.setWidth 64
      rangeRead e.actor (copySite e) (copyFrom e 0) 0 w.scope.toNat 0 addr (pieces 64 addr.toNat 32) (releaseAt s h w.scope.toNat) = (s₁, .ok bs) →
      (∀ b ∈ bs, b.2 = false) →
      let f (o : Nat) : W64 := BitVec.ofNat 64 (ofBytes (((bs.drop o).take 8).map (·.1)))
      let src := f 0
      let dst := f 8
      let b := (f 16).toNat % 2 ^ 32
      let r := max 1 ((f 16).toNat / 2 ^ 32)
      let ss := if r = 1 then 0 else (f 24).toNat % 2 ^ 32
      let ds := if r = 1 then 0 else (f 24).toNat / 2 ^ 32
      let stops (v : State) (c : FaultCode) (addr d1 d2 : W64) : Prop := ∃ u y, exec i s = .next u ∧ copyOf? u h bulk n = some y ∧
        y.bad = some (c, addr, d1, d2) ∧ y.issued = false ∧ { u with hands := v.hands } = v
      let goes (v : State) (rows : List (W64 × W64)) : Prop :=
        (∀ c a sp, rowsFault v e b rows = some (c, a, sp) → stops v c a 0 (BitVec.ofNat 64 (min b 64 % 256 + 256 * sp))) ∧
        (rowsFault v e b rows = none →
          let t := linesTaken e (fragsOf i e.th.lseg.base b rows) v
          ((∃ l ∈ t.2, otherHolds t.1 n (.dev (l * 128)) 128 = true) → exec i s = .next s) ∧
          ((∀ l ∈ t.2, otherHolds t.1 n (.dev (l * 128)) 128 = false) → ∃ v y, exec i s = exec i v ∧ copyOf? v h bulk n = some y ∧
            y.issued = true ∧ y.rows = rows ∧ y.rowB = b ∧ y.pos = 0 ∧ y.owned = t.2 ∧ y.performed = false ∧ y.bad = none ∧
            { v with hands := t.1.hands, fresh := t.1.fresh, weave := { v.weave with reqs := t.1.weave.reqs } } = t.1))
      let row (k : Nat) : W64 × W64 :=
        match i with
        | .cpFill .. => (src, dst + BitVec.ofNat 64 (k * ds))
        | .cpToring .. => (src + BitVec.ofNat 64 (k * ss), BitVec.ofNat 64 (k * b))
        | _ => (src + BitVec.ofNat 64 (k * ss), dst + BitVec.ofNat 64 (k * ds))
      let rows := if b = 0 then [] else (List.range r).map row
      let word : W64 := zext64 (((wordsOf i).getD 0 0).extractLsb' 16 16)
      ((∀ imm, i ≠ .cpRows w imm ∧ i ≠ .cpToring w imm ∧ i ≠ .cpReduce w imm) → (i = .cpFill w imm → src.toNat ≤ 1 ∧ ss = 0) → goes s₁ rows) ∧
      (i = .cpFill w imm → 1 < src.toNat ∨ ss ≠ 0 → stops s₁ .copyFormat 0 word 0) ∧
      (let g := ringOf e.tm (imm.toNat % 8)
       let bad : Prop := dst ≠ 0 ∨ ds ≠ 0
       i = .cpToring w imm → (bad → stops s₁ .copyFormat 0 word 0) ∧
         (¬bad → g.valid = false → stops s₁ .ringUninit 0 (BitVec.ofNat 64 (imm.toNat % 8)) 0) ∧
         (¬bad → g.valid = true → 64 * g.z < b * r → stops s₁ .copyFormat 0 word 0) ∧
         (¬bad → g.valid = true → b * r ≤ 64 * g.z → goes s₁ rows)) ∧
      (let t := tyWidth (imm.toNat % 16) / 8
       let whole : Prop := b % t = 0 ∧ src.toNat % t = 0 ∧ dst.toNat % t = 0 ∧ ss % t = 0 ∧ ds % t = 0
       i = .cpReduce w imm → (¬whole → stops s₁ .copyFormat 0 word 0) ∧ (whole → goes s₁ rows)) ∧
      (let k := imm.toNat % 2 ^ 31
       let sp := if imm.getLsbD 31 then 1 else 0
       let form : Prop := copyForm s₁ e.actor w.scope.toNat sp (4 * k) true (f 24) ≠ some .addrForm
       i = .cpRows w imm → (b = 0 ∨ k = 0 → goes s₁ []) ∧
         (b ≠ 0 → k ≠ 0 → ¬form → stops s₁ .addrForm (f 24) 0 (BitVec.ofNat 64 (4 + 256 * sp))) ∧
         (b ≠ 0 → k ≠ 0 → form → (f 24).toNat % 4 ≠ 0 → stops s₁ .align (f 24) 0 (BitVec.ofNat 64 (4 + 256 * sp))) ∧
         (b ≠ 0 → k ≠ 0 → form → (f 24).toNat % 4 = 0 → ∀ s₂ ib, copyRead s₁ e sp (f 24) (4 * k) = (s₂, .ok ib) → (∀ b ∈ ib, b.2 = false) →
           goes s₂ ((List.range k).map fun j =>
             (src + BitVec.ofNat 64 (ofBytes (((ib.drop (4 * j)).take 4).map (·.1)) * ((f 16).toNat / 2 ^ 32)), dst + BitVec.ofNat 64 (j * b)))))) ∧
    -- the writes of an issued command: the next part, alone in its line, and how the command goes on
    (x.issued = true →
      let waits : Prop := ∃ r, i = .cpToring w r ∧ ((ringOf e.tm (r.toNat % 8)).n ≤ (ringOf e.tm (r.toNat % 8)).occ ∨
        ∃ y ∈ (s.hand h).near, y.id ≠ n ∧ y.toring x.slot (r.toNat % 8) = true ∧ y.issued = true ∧ y.ord < x.ord)
      (waits → exec i s = .next s) ∧
      (¬waits → (copyPieces e).drop x.pos = [] → ∃ u y, exec i s = .next u ∧ copyOf? u h bulk n = some y ∧ y.performed = true ∧ { u with hands := s.hands } = s) ∧
      ∀ (row : W64 × W64) (o m : Nat) (fs : List Frag) (s₁ s₂ : State) (t : Tgt) (bs : List (Byte × Bool)), ¬waits →
        (copyPieces e).drop x.pos = (row, o, m) :: fs → (∀ g ∈ fs.head?, fragLine i e.th.lseg.base g ≠ fragLine i e.th.lseg.base (row, o, m)) →
        fragTarget s e row o m = (s₁, .ok t) → (∀ d b, t ≠ .bin d b) → fragBytes s₁ e row o m = (s₂, .ok bs) → (∀ b ∈ bs, b.2 = false) →
        (∀ imm, i = .cpFill w imm → bs.map (·.1) = (List.range m).map fun j => imm.extractLsb' (8 * ((o + j) % 4)) 8) ∧
        (∀ imm, i = .cpToring w imm →
          rowDest s e row.2 = BitVec.ofNat 64 ((ringOf e.tm (imm.toNat % 8)).slotAt (ringOf e.tm (imm.toNat % 8)).t) + row.2) ∧
        (let lands (u : State) (data : List Byte) : Prop := match t with
           | .peer p q => sameBytes s₂ u ∧ ∃ r ∈ u.weave.reqs, r.agent = .copy h bulk n ∧ r.dev = p ∧ r.addr = q ∧ r.op = .store data ∧ r.reply = none
           | _ => Stored s₂ u t data
         let then_ (data : List Byte) : Prop := ∃ u y, lands u data ∧ copyOf? u h bulk n = some y ∧ y.pos = x.pos + 1 ∧ y.rows = x.rows ∧
           y.rowB = x.rowB ∧ y.issued = true ∧ y.bad = none ∧ (fs = [] → exec i s = .next u ∧ y.performed = true) ∧
           (fs ≠ [] → exec i s = exec i u ∧ y.performed = false)
         ((∀ imm, i ≠ .cpReduce w imm) → then_ (bs.map (·.1))) ∧
         ∀ (imm : BitVec 32) (k : Nat), i = .cpReduce w imm → k = tyWidth (imm.toNat % 16) / 8 → m = k → (∀ p q, t ≠ .peer p q) →
           partFault s₂ e ⟨row, rowDest s e row.2 + BitVec.ofNat 64 o, t, bs, row.1 + BitVec.ofNat 64 o, 0⟩ = none →
           let s₃ := match t with | .dev pa => recallLine s₂ (alignDown pa 128) | _ => s₂
           let old := ofBytes (readTgt s₃ e.actor t k 3 w.hint.toNat).2
           let v := ofBytes (bs.map (·.1))
           then_ (toBytes k (if imm.toNat % 16 < 8 then (old + v) % 2 ^ (8 * k) else (fAdd (fmtOf (imm.toNat % 16)) 0 false old v).1))))

/-! ### Teams (R45-R47, R193-R195, R249, R250, R316-R321, R324, R344) -/

/-- R45, R47, R195, R249, R250, R316, R317, R319-R321, R324. A waiting team starts on its hand, through the mailbox or from an armed bank, with
the state that R317 gives it, where its image is on the hand and its constants are filled. A drained team with no weight to return leaves its
slot, and the front end gets its event. A time slice takes a team off a hand that another waits for, once it stands at its boundaries;
pre-emption marks a thread or a group, its helper deal too. An evaluator starts from the oldest record of its die, which a core in service
takes and then performs a service round; it waits while its die is not ONLINE, and ends at a cell fault of a group. A launch whose teams have
ended posts its record and leaves. That an armed mailbox naming no launch clears ARM and starts nothing is log entry 92 (DEDUCED); that a
sliced team is kept under a number of 2048 or more is entry 57 (DESIGN CHOICE); that the round after an event counts a free number of
mclk is entry 55 (DESIGN CHOICE). -/
def Obligations.TeamLifecycle : Prop :=
  (∀ (s : State) (h k n : Nat) (w : Waiting) (l : Launch) (v : W64),
    let boots (w : Waiting) : Prop := s.launches.get? w.launch = some l ∧
      (l.started = true ∨ ∀ im, imageOf s l.ctx l.img = some im → im.constFirst = 0) ∧
      (s.hand h).maps.get? (imageKey l.ctx l.img) = some l.map ∧ (s.hand h).maps.get? (imageKey w.ctx w.img) = some l.map ∧
      ∀ im, imageOf s w.ctx w.img = some im → ∀ p ≤ im.lines / 64, pageResident s h w.ctx w.img p = true
    let starts (i : Instr) (w : Waiting) (P : State → Nat → Prop) : Prop :=
      ∃ t team, exec i s = .next t ∧ TeamStarted s t ⟨h, k⟩ w l team ∧ P t team
    (s.waiting[n]? = some w → w.gang = false → handFor s w = none → exec (.teamStart n) s = .next s) ∧
    (s.waiting[n]? = some w → w.gang = false → w.out = none → handFor s w = some h → freeSlot s h = some k → boots w →
      starts (.teamStart n) w fun t team => t.waiting = s.waiting.eraseIdx n ∧
        (team < 2 ^ 32 → (t.hand h).mailbox.get? k = some [BitVec.ofNat 64 w.img, BitVec.ofNat 64 w.entry, w.x.getD 0 0, w.x.getD 1 0, w.x.getD 2 0,
          w.x.getD 3 0, BitVec.ofNat 64 team, w.gridpos, w.wgt, BitVec.ofNat 64 w.launch])) ∧
    (let regs := mailboxAt s h k
     let r (i : Nat) : W64 := regs.getD i 0
     let written (x : W64) : State := s.updHand h fun y => { y with mailbox := y.mailbox.set k (regs.set 9 x) }
     let w : Waiting := { launch := bits v 31 0, ctx := l.ctx, img := (r 0).toNat % 2 ^ 32, entry := (r 1).toNat, x := [r 2, r 3, r 4, r 5],
                          teamNo := some ((r 6).toNat % 2 ^ 32), gridpos := r 7, wgt := r 8, wroot := l.wroot, evstack := [], hands := [h],
                          batch := none, gang := false, out := none }
     let idle : Prop := s.team? ⟨h, k⟩ = none ∧ (bankOf s h k).armed = false ∧ handRuns s h = true
     (v.getLsbD 63 = false ∨ ¬idle → exec (.bootMailboxArm h k v) s = .next (written (v &&& 0x80000000FFFFFFFF))) ∧
     (v.getLsbD 63 = true → idle → regs.length = 10 → boots w →
       starts (.bootMailboxArm h k v) w fun t _ => (t.hand h).mailbox.get? k = some (regs.set 9 (v &&& 0xFFFFFFFF))) ∧
     (v.getLsbD 63 = true → idle → regs.length = 10 → s.launches.get? (bits v 31 0) = none →
       ∃ t, exec (.bootMailboxArm h k v) s = .next t ∧ (t.hand h).mailbox.get? k = some (regs.set 9 (v &&& 0xFFFFFFFF)) ∧
         { t with hands := s.hands } = s)) ∧
    (let b := bankOf s h k
     (b.armed = false → exec (.shadowBankActivate h k) s = .next s) ∧
     (b.armed = true → gangHolds s b.launch h = true ∨ mailboxArmed s h k = true → exec (.shadowBankActivate h k) s = .next s) ∧
     (b.armed = true → k < 2 → s.team? ⟨h, k⟩ = none → mailboxArmed s h k = false → gangHolds s b.launch h = false → b.regs.get? 0 = none → boots (bankTeam s h b l) →
       fits (s.updHand h fun x => { x with banks := x.banks.erase k }) h l = true →
       starts (.shadowBankActivate h k) (bankTeam s h b l) fun t _ => (t.hand h).banks.get? k = none))) ∧
  (∀ (s : State) (t : TeamRef) (tm : Team), s.team? t = some tm →
    -- another team is as before but for the lines that its fetch keeps
    let same (u : State) (r : TeamRef) : Prop := (u.team? r).map (fun x => { x with kept := [] }) = (s.team? r).map fun x => { x with kept := [] }
    let gone (u : State) : Prop := u.team? t = none ∧ (∀ q < 4, u.thread? ⟨t.hand, t.slot, q⟩ = none) ∧
      (∀ q < 4, ∀ i < 16, u.group? ⟨t.hand, t.slot, q, i⟩ = none) ∧ u.events = s.events ++ [.teamEnd tm.launch] ∧
      ∀ r, teamKey r ≠ teamKey t → same u r
    (tm.ending = false ∨ teamDrained s t tm = false ∨ s.eventsFull = true → exec (.teamEnd t) s = .next s) ∧
    (tm.ending = true → teamDrained s t tm = true → isParked s (.stream t) = false → s.eventsFull = false → tm.wroot = 0 →
      tm.signals = [] → ∃ u, exec (.teamEnd t) s = .next u ∧ gone u) ∧
    (tm.evstack = [] ∨ s.eventsFull = true ∨ (∀ g ∈ teamGroups s t, cellFaultOf s g = none) → exec (.evaluatorCellFault t) s = .next s) ∧
    (tm.evstack ≠ [] → s.eventsFull = false → (∃ g ∈ teamGroups s t, (cellFaultOf s g).isSome = true) → ∃ u, exec (.evaluatorCellFault t) s = .next u ∧ gone u) ∧
    (∀ l, s.launches.get? tm.launch = some l →
      (l.slice = 0 ∨ 256 ≤ t.hand ∨ tm.ending = true → exec (.timeSliceExpiry t) s = .next s) ∧
      (l.slice ≠ 0 → t.hand < 256 → tm.ending = false → wanted s t.hand tm.launch = false →
        (tm.slicing = true → ∀ r ∈ sliceTeams s t tm, wanted s r.hand tm.launch = false) →
        exec (.timeSliceExpiry t) s = .next (if tm.slicing then (sliceTeams s t tm).foldl releaseTeam s else s)) ∧
      (l.slice ≠ 0 → t.hand < 256 → t.slot < 2 → tm.ending = false → wanted s t.hand tm.launch = true → tm.gang = false →
        (teamQuiet s t = false → ∃ u, exec (.timeSliceExpiry t) s = .next u ∧ u.team? t = some { tm with slicing := true } ∧
          otherTeams s u t ∧ sameBytes s u ∧
          (∀ q < 4, ∀ a, s.thread? ⟨t.hand, t.slot, q⟩ = some a → ∃ b, u.thread? ⟨t.hand, t.slot, q⟩ = some b ∧ b.preempt = true ∧ b.x = a.x ∧ b.pc = a.pc) ∧
          ∀ q < 4, ∀ i < 16, ∀ a, s.group? ⟨t.hand, t.slot, q, i⟩ = some a → ∃ b, u.group? ⟨t.hand, t.slot, q, i⟩ = some b ∧ b.preempt = true) ∧
        (teamQuiet s t = true → ∃ u v y, exec (.timeSliceExpiry t) s = .next u ∧ u.team? t = none ∧ 2048 ≤ v ∧
          u.team? ⟨v, 0⟩ = some { tm with slicing := false, kept := y } ∧ u.waiting = s.waiting ++ [waitAgain t tm v] ∧
          ∀ r, teamKey r ≠ teamKey t → teamKey r ≠ 2 * v → same u r)))) ∧
  (∀ (s : State) (r : ThreadRef) (a : Thread), s.thread? r = some a →
    ∃ u b, exec (.preempt (.thread r)) s = .next u ∧ u.thread? r = some b ∧ { b with wait := a.wait, was := a.was } = { a with preempt := true } ∧
      otherThreads s u r ∧ sameBytes s u ∧ { u with threads := s.threads, waiters := s.waiters, locks := s.locks } = s) ∧
  (∀ (s : State) (g : GroupRef) (a : Group), s.group? g = some a →
    ∃ u, exec (.preempt (.group g)) s = .next u ∧ otherGroups s u g ∧ { u with groups := s.groups } = s ∧
      let stops (x : Run) : Run := if bits x.deal.w0 10 10 = 1 then { x with pre := true } else x
      u.group? g = some { a with preempt := true, run := a.run.map stops, hrun := a.hrun.map stops }) ∧
  (∀ (s u : State) (es : List FeEvent) (w : Waiting) (d pa x : Nat),
    let mine (e : FeEvent) : Prop := ∃ w pa x, e = .evaluate w ∧ w.evstack.getLast? = some (pa, x) ∧ homeDie pa = d
    (s.cores = 0 ∨ (∀ e ∈ s.events.head?, ¬mine e) → exec (.evaluatorStart d) s = .next s) ∧
    (s.cores ≠ 0 → s.events = .evaluate w :: es → w.evstack.getLast? = some (pa, x) → homeDie pa = d →
      let s₁ := unspill { s with events := es }
      let ends (t : State) : Prop := exec (.evaluatorStart d) s = .next (serviceRound t.draw.2 (Config.choice t.draw.1))
      ((s.die d).state ≠ .online → ends { s₁ with spill := s₁.spill ++ [w] }) ∧
      (∀ va r, (s.die d).state = .online → imageStop s₁ w.ctx w.img = some (va, r) →
        ends (feStopped { s₁ with spill := s₁.spill ++ [w] } w.ctx va r)) ∧
      ((s.die d).state = .online → imageStop s₁ w.ctx w.img = none →
        (readHeader s₁ w.ctx w.img = (u, none) → ends (failCell u w.ctx pa 3 0)) ∧
        ∀ im, readHeader s₁ w.ctx w.img = (u, some im) →
          (lineIs u w.ctx im (w.entry / 16) 0 true = false → ends (failCell u w.ctx pa 3 0)) ∧
          (lineIs u w.ctx im (w.entry / 16) 0 true = true → ends (tryStart { u with waiting := u.waiting ++ [w] } u.waiting.length))))) ∧
  ∀ (s : State) (n : Nat) (l : Launch) (p : Pkt), s.launches.get? n = some l → packetOf s l n = some p → l.chain = false → l.posted = false →
    (launchBusy s n = true → exec (.launchComplete n) s = .next (settleAll s)) ∧
    (launchBusy s n = false → p.started = true → p.data.length ≤ p.ofs → l.sigFault = none →
      let t := (s.updLaunch n fun l => { l with posted := true }).updQueue l.queue fun x => { x with pend := x.pend.filter fun y => y.id ≠ p.id }
      let t := if p.compl then postCompletion t l.queue p.slot p.seq 0 0 l.user (if l.streamFlag then 1 else 0) else t
      exec (.launchComplete n) s = .next (settleAll { t with launches := t.launches.erase n }))

/-! ### The front end (R301-R313, R321-R333) -/

/-- R303-R305, R307, R313, R314, R324, R326, R327, R331. The packet at the head of a mapped queue is taken: D passes it, and the sequence number
that is due rises. With nothing else under way it starts at once: a PAD completes, a SIGNAL and a NODE complete unless what they write cannot be
written now, a WAIT completes or waits by its comparison, an INVAL starts (it drops its range as it completes, which FrontEndRounds states), a
LAUNCH is refused with its code or its teams wait for their hands, an OPCHAIN waits for its records. That a WAIT whose location cannot be read
stops its queue behind its own packet is log entry 54 (DEDUCED); that an INVAL's drop falls into its completing step is entry 59 (DESIGN
CHOICE). -/
def Obligations.Packets : Prop :=
  ∀ (s u : State) (q sl : Nat) (x : Queue) (p : List Byte),
    (slotOf s q = none → ∀ i ∈ [Instr.pad q, .launch q, .opchain q, .signal q, .wait q, .inval q, .node q], exec i s = .next s) ∧
    (slotOf s q = some sl → s.queues.get? q = some x → partlyDone x = false → headOf s q = (u, .packet p) →
      let t₀ := u.updQueue q fun y => { y with d := y.d + pktLen p, expected := y.expected + 1, lastTaken := pktSeq p }
      let t₀ := syncQueue { t₀ with slots := t₀.slots.modify sl fun y => { y with last := pktSeq p } } q
      let k : Pkt := { id := 1 + (x.pend.map (·.id)).foldl max 0, seq := pktSeq p, typ := pktType p, slot := sl, bar := pktBar p, compl := pktCompl p, user := 0, started := false,
                       data := p, launch := none, ofs := p.length }
      let t := t₀.updQueue q fun y => { y with pend := y.pend ++ [k] }
      let pends (v : State) (k : Pkt) : Prop := ∃ y, v.queues.get? q = some y ∧ y.pend = [k] ∧ y.d = x.d + pktLen p ∧ y.expected = x.expected + 1
      (∀ i, (pktType p, i) ∈ [(0, Instr.pad q), (3, .signal q), (4, .wait q), (5, .inval q), (6, .node q)] → exec i s = .next (settleAll t)) ∧
      (s.launches = [] → s.queues = [(q, x)] → x.pend = [] →
        (pktType p = 0 → exec (.pad q) s = .next (completePkt t q k 0 0)) ∧
        (∀ va r i, (pktType p, i) ∈ [(3, Instr.signal q), (6, .node q)] → pktStop t x.ctx k = some (va, r) →
          exec i s = .next (feStopped t x.ctx va r)) ∧
        (pktType p = 3 → pktStop t x.ctx k = none → ∀ t₁ e, feSignal t x.ctx (le64 p 8) (le64 p 16) = (t₁, e) →
          exec (.signal q) s = .next (match e with | none => completePkt t₁ q k 0 0 | some seq => completePkt t₁ q k 2 seq)) ∧
        (pktType p = 4 → ∀ t₁, (∀ bs, feRead t x.ctx (le64 p 8) 8 = (t₁, .ok bs) →
            let v := ofBytes bs
            let w := le p 16 8
            let holds : Prop := match le p 24 1 with | 0 => w ≤ v | 1 => v = w | _ => v ≠ w
            (holds → exec (.wait q) s = .next (completePkt t₁ q k 0 0)) ∧
            (¬holds → exec (.wait q) s = .next (t₁.updQueue q fun y => { y with pend := [{ k with started := true }] }))) ∧
          (∀ f, feRead t x.ctx (le64 p 8) 8 = (t₁, .fault f) → ∃ v y, exec (.wait q) s = .next v ∧ v.queues.get? q = some y ∧ y.stopped = true ∧
            y.errs = x.errs ++ [(8, pktSeq p, x.d + pktLen p)]) ∧
          (∀ r, feRead t x.ctx (le64 p 8) 8 = (t₁, r) → r = .later ∨ (∃ d, r = .offline d) →
            exec (.wait q) s = .next ((feStopped t₁ x.ctx (le64 p 8) r).updQueue q fun y =>
              { y with pend := y.pend.map fun z => if z.id = k.id then { z with started := true, data := p } else z }))) ∧
        (pktType p = 5 → exec (.inval q) s = .next (t.updQueue q fun y => { y with pend := [{ k with started := true }] })) ∧
        (pktType p = 6 → pktStop t x.ctx k = none → exec (.node q) s = .next (completePkt
          (binEnter (flushAll t) (le p 8 2 / 1024 % 4) (le p 8 2 % 1024) x.ctx none (p.drop 64)) q k 0 0)) ∧
        (pktType p = 1 → ∀ t₁,
          (∀ code, checkLaunch t₀ q sl (pktSeq p).toNat x.ctx (pktCompl p) x.priv true p = (t₁, .error code) →
            exec (.launch q) s = .next (postCompletion t₁ q sl (pktSeq p) 1 code (le64 p 24) 0)) ∧
          (∀ l, checkLaunch t₀ q sl (pktSeq p).toNat x.ctx (pktCompl p) x.priv true p = (t₁, .ok l) →
            let k : Pkt := { k with user := le64 p 24, launch := some t₁.nextLaunch }
            imageTooBig ((acceptLaunch t₁ l).1.updQueue q fun y => { y with pend := y.pend ++ [k] }) l.ctx l.img = false →
            ∃ v, exec (.launch q) s = .next v ∧ pends v { k with started := true } ∧
              v.waiting = s.waiting ++ (List.range (l.gx * l.gy * l.gz)).map (gridTeam v t₁.nextLaunch l))) ∧
        (pktType p = 2 → ∀ t₁ l, checkLaunch t₀ q sl (pktSeq p).toNat x.ctx (pktCompl p) x.priv false p = (t₁, .ok l) →
          ∃ v, exec (.opchain q) s = .next v ∧ v.waiting = s.waiting ∧
            pends v { k with user := le64 p 24, launch := some t₁.nextLaunch, ofs := 256, started := true } ∧
            v.launches.get? t₁.nextLaunch = some { l with chain := true, tph := 2, nextTeam := 1 })))

/-- R303, R305, R308, R309, R311, R324-R327, R330-R333. A write index advances A, or stops the queue; a core of those in service takes the oldest
event and performs a service round; a round serves one packet or record of one queue, as the packet's own row does, or the error at its head; that
queue's priority falls, and an idle round changes nothing. The next record of an OPCHAIN arms a bank; a WAIT reads its location again; an INVAL
completes; a record enters a bin with room; a ready bin launches a batch at its coalescing count or its timer. That the round after an
event counts a free number of mclk is log entry 55 (DESIGN CHOICE); that an INVAL's drop falls into its completing step is entry 59 (DESIGN
CHOICE). -/
def Obligations.FrontEndRounds : Prop :=
  (∀ (s : State) (q size ofs : Nat) (x : Queue) (v : W64) (who : IndexWriter) (f : Nat) (a : Agent), s.queues.get? q = some x →
    let stops : Prop := exec (.writeIndex q size ofs ⟨who, v⟩) s = .next (noteWork (queueError s q 1 x.expected) q)
    let reaches : Prop := ∀ f, who = .host f → f = 0 ∨ x.fn = f
    (x.enabled = false ∨ ¬reaches → exec (.writeIndex q size ofs ⟨who, v⟩) s = .next s) ∧
    (x.enabled = true → reaches → size ≠ 8 ∨ ofs % 8 ≠ 0 ∨ v.toNat < x.a ∨ (v.toNat ≠ x.a ∧ x.size < v.toNat - x.d) → stops) ∧
    (x.enabled = true → size = 8 → ofs % 8 = 0 → v.toNat = x.a → exec (.writeIndex q size ofs ⟨who, v⟩) s = .next s) ∧
    (x.enabled = true → size = 8 → ofs % 8 = 0 → x.a < v.toNat → v.toNat - x.d ≤ x.size →
      let n (g : GroupRef) : Nat := match s.group? g with | some gr => gr.outst.length | none => 0
      let ready : Prop := (∀ r k, a = .thread r → s.coreOf r = some k → drainStop s k = none) ∧ ∀ g, a = .group g → accessesBefore s g (n g) = true
      let rel : State := match a with
        | .thread r => (match s.coreOf r with | some k => threadRelease s k 3 | none => s)
        | .group g => releaseAt s g.hand 3 | .stream t => releaseAt s t.hand 3 | .copy h _ _ => releaseAt s h 3 | .device => s
      (∀ r k y ck, a = .thread r → s.coreOf r = some k → drainStop s k = some (y, ck) →
        exec (.writeIndex q size ofs ⟨.agent a, v⟩) s = .next (storeRefused s k y ck)) ∧
      (∀ g, a = .group g → accessesBefore s g (n g) = false → exec (.writeIndex q size ofs ⟨.agent a, v⟩) s = .next s) ∧
      (ready → rel.queues.get? q = some x →
        exec (.writeIndex q size ofs ⟨.agent a, v⟩) s = exec (.writeIndex q size ofs ⟨.host 0, v⟩) rel)) ∧
    (x.enabled = true → f = 0 ∨ x.fn = f → size = 8 → ofs % 8 = 0 → x.a < v.toNat → v.toNat - x.d ≤ x.size →
      ∃ t y, exec (.writeIndex q size ofs ⟨.host f, v⟩) s = .next t ∧
      t.queues.get? q = some y ∧ { y with busy := x.busy, pri := x.pri, age := x.age, since := x.since } = { x with a := v.toNat } ∧
      (y = { x with a := v.toNat, busy := false } ∨ (y.busy = true ∧ (x.busy = false → y.pri = x.basePri ∧ y.age = 0))) ∧ (∀ r, r ≠ q → t.queues.get? r = s.queues.get? r) ∧
      t.events = (if .writeIndex q ∈ s.events then s.events else s.events ++ [.writeIndex q]) ∧
      { t with queues := s.queues, events := s.events } = s)) ∧
  (∀ (s : State) (core mclk : Nat),
    (s.cores ≤ core → exec (.serviceRound core mclk) s = .next s ∧ exec (.frontEndEvent core) s = .next s) ∧
    (core < s.cores →
      (s.events = [] → exec (.frontEndEvent core) s = .next s) ∧
      (∀ e es, s.events = e :: es →
        let t := unspill { s with events := es }
        let batch (d b first count c : Nat) (ws : List Nat) : State := match batchStop t d b c with
          | some (va, r) => feStopped { t with events := t.events ++ [e] } c va r
          | none => launchBatch t d b first count c ws
        let t := match e with
          | .writeIndex _ => t
          | .teamEnd _ => settleAll t
          | .spawn w => { t with waiting := t.waiting ++ [w] }
          | .evaluate w => startEvaluator t w
          | .binLaunch d b first count c ws => batch d b first count c ws
          | .timer d b first count c ws => batch d b first count c ws
        exec (.frontEndEvent core) s = .next (serviceRound t.draw.2 (Config.choice t.draw.1))) ∧
      (s.events ≠ [] ∨ (∀ q, hasWork s q = false) → exec (.serviceRound core mclk) s = .next s) ∧
      (s.events = [] → (∃ q, hasWork s q = true) →
        let noted := noteAll s
        let t := postErrors (mapOne (noted.queues.keys.foldl (ageQueue · mclk ·) noted))
        (servedSlot t = none → exec (.serviceRound core mclk) s = .next (noteAll (settleAll t))) ∧
        ∀ k q, servedSlot t = some (k, q) → ∃ v, exec (.serviceRound core mclk) s = .next (noteAll (settleAll v)) ∧
          (∀ y, v.slots.get? k = some y → y.served = true ∧ y.at_ = v.clock) ∧
          (∀ y, v.queues.get? q = some y → y.pri = min y.basePri 14) ∧
          -- the packet, record or error that the round serves
          let ends (w : State) : Prop := v =
            ({ w with slots := w.slots.modify k fun y => { y with served := true, at_ := w.clock } }).updQueue q fun y => { y with pri := min y.basePri 14 }
          ∀ x u, t.queues.get? q = some x →
            (partlyDone x = true → ∃ w, exec (.opchainRecord q) t = .next (settleAll w) ∧ ends w) ∧
            (partlyDone x = false → (∀ c seq, headOf t q = (u, .error c seq) → ends (queueError u q c seq)) ∧
              (∀ va d, headOf t q = (u, .refused va d) → ends (feStopped u x.ctx va (.offline d))) ∧
              ∀ p i, headOf t q = (u, .packet p) → (pktType p, i) ∈ [(0, Instr.pad q), (1, .launch q), (2, .opchain q), (3, .signal q), (4, .wait q),
                (5, .inval q), (6, .node q)] → ∃ w, exec i t = .next w ∧ ends w)))) ∧
  (∀ (s t : State) (q n h len node : Nat) (x : Queue) (p : Pkt) (l : Launch) (ws : List (Nat × W64)) (gs : List (W64 × W64)) (bs : List Byte),
    s.queues.get? q = some x →
    (x.pend.find? (fun p => p.typ = 2 && p.ofs < p.data.length) = some p → p.launch = some n → s.launches.get? n = some l → p.started = true →
      (opRecord (p.data.drop p.ofs) = none → exec (.opchainRecord q) s = .next (settleAll (chainError s q n p))) ∧
      (opRecord (p.data.drop p.ofs) = some (len, node, ws, gs) → mapNode l.map (node / 64) (node % 64) = none →
        exec (.opchainRecord q) s = .next (settleAll (chainError s q n p))) ∧
      (opRecord (p.data.drop p.ofs) = some (len, node, ws, gs) → mapNode l.map (node / 64) (node % 64) = some h →
        let k := bankSlot s h n
        ((bankOf s h k).armed = true → exec (.opchainRecord q) s = .next (settleAll s)) ∧
        ((bankOf s h k).armed = false → ∃ u, exec (.opchainRecord q) s = .next (settleAll u) ∧
          (u.hand h).banks.get? k = some ⟨ws.foldl (fun m w => m.set w.1 w.2) [], true, n, gs, p.data.length ≤ p.ofs + len⟩ ∧
          u.queues.get? q = some { x with pend := x.pend.map fun y => if y.id = p.id then { y with ofs := y.ofs + len } else y }))) ∧
    (x.pend.find? (fun p => p.typ = 4 && p.started && !p.data.isEmpty) = some p → feRead s x.ctx (le64 p.data 8) 8 = (t, .ok bs) →
      (waitHolds (le p.data 24 1) (ofBytes bs) (le p.data 16 8) = true →
        exec (.waitRecheck q) s = .next (settleAll (completePkt t q p 0 0))) ∧
      (waitHolds (le p.data 24 1) (ofBytes bs) (le p.data 16 8) = false → ∃ u, exec (.waitRecheck q) s = .next (settleAll u) ∧
        u.queues.get? q = some { x with pend := x.pend.map fun y => if y.id = p.id then { y with started := true, data := p.data } else y } ∧
        { u with queues := t.queues } = t)) ∧
    (x.pend.find? (fun p => p.typ = 5 && p.started) = some p → 
      let left := dropTlbs s fun e => e.inRange (pasidOf s x.ctx) (le p.data 8 8) (le p.data 16 8)
      exec (.invalComplete q) s = .next (settleAll (completePkt left q p 0 0)) ∧
      (∀ h, ∀ e ∈ (left.hand h).tlb, e.inRange (pasidOf s x.ctx) (le p.data 8 8) (le p.data 16 8) = false) ∧
      ∀ d, ∀ e ∈ (left.die d).tlb, e.inRange (pasidOf s x.ctx) (le p.data 8 8) (le p.data 16 8) = false) ∧
    (x.pend = [] → ∀ i ∈ [Instr.waitRecheck q, .invalComplete q], exec i s = .next s)) ∧
  ∀ (s t : State) (d b : Nat) (rec : List Byte),
    let x := binOf s d b
    let n := min x.count (binField s d b 18 1)
    (binFull s d b = true → exec (.binRecordWrite d b rec) s = .next s) ∧
    ((∀ h bulk n, s.cur ≠ .copy h bulk n) → (binStop s d b x.ctx).isSome = true → exec (.binRecordWrite d b rec) s = .next s) ∧
    (binStop s d b x.ctx = none → (∀ h bulk n, s.cur ≠ .copy h bulk n) → b ≠ 1023 →
      let v := flushAll s
      binField v d b 19 1 % 2 = 1 →
      feWrite v x.ctx (BitVec.ofNat 64 (binField v d b 8 8 + 64 * (x.entered % max 1 (binField v d b 16 2))))
        ((rec ++ List.replicate 64 0).take 64) = (t, .ok []) →
      ∃ u, exec (.binRecordWrite d b rec) s = .next u ∧ (u.die d).bins.get? b = some { x with
        entered := x.entered + 1, timer := x.timer || x.entered = x.taken, writers := x.writers ++ [none] } ∧ { u with dies := t.dies } = t) ∧
    (binReady s d b = false → exec (.binLaunch d b) s = .next s ∧ exec (.binTimerExpiry d b) s = .next s) ∧
    (binReady s d b = true → let ws := ((x.writers.take n).filterMap id).dedup
      ∀ i e, (i = .binLaunch d b ∧ binField s d b 18 1 ≤ x.count ∧ e = FeEvent.binLaunch d b x.taken n x.ctx ws) ∨
          (i = .binTimerExpiry d b ∧ x.timer = true ∧ e = FeEvent.timer d b x.taken n x.ctx ws) →
      ∃ u, exec i s = .next u ∧ u.events = s.events ++ [e] ∧
        (u.die d).bins.get? b = some { x with
          taken := x.taken + n, batches := x.batches ++ [(x.taken, n)], writers := x.writers.drop n, timer := x.timer && n < x.count } ∧
        { u with dies := s.dies, events := s.events } = s)

/-! ### The host, the dies and the platform (R136, R142, R328, R329, R337-R339, R345, R350, R351, R354-R385) -/

/-- R303, R328, R329, R337, R345, R350, R355-R357, R359, R361, R363. A command completes with its status, its read index and vector 0; a malformed
one with status 2, a refused one with status 1, and with no command nothing happens. RESUME, SKIP and STEP let a record's agent go on; REMOVE ends a context;
QENABLE, QDISABLE, QRESTART, PRION, CTXOUT, CTXIN, ASSIGN, SLOTTBL and DIERESET act as R361 says. Function registers, vectors, slot tables and
functions act as R329, R357, R359 and R363 say, where the device is exposed (R377). That ASSIGN of a disabled hand and REMOVE of a context
that is not live are refused is log entry 60 (DEDUCED); that CTXIN waits unanswered for room is entry 58 (DEDUCED). -/
def Obligations.HostCommands : Prop :=
  (∀ (t : State) (fn st : Nat), st < 2 ^ 63 → let u := finishCommand t fn st
    Memory.readNat u.hostMem (commandAt t fn + 56) 8 = 2 ^ 63 + st ∧ (u.fn fn).cmdRi = (t.fn fn).cmdRi + 1 ∧
      { u with hostMem := t.hostMem, fns := t.fns, outbox := t.outbox } = t) ∧
  (∀ (s : State) (fn e : Nat) (c : List Byte),
    let op := le c 8 2
    let v := le c 16 8
    let w := le64 c 24
    let all := [(1, Instr.resume fn v), (2, .skip fn v), (3, .cmdStep fn v), (4, .remove fn v), (5, .qenable fn v), (5, .qdisable fn v),
      (6, .qrestart fn v w e), (7, .prion fn v), (8, .ctxout fn v), (9, .ctxin fn v w), (10, .assign fn v (le c 24 1)),
      (11, .slottbl fn v w), (12, .diereset fn v)]
    let ends (i : Instr) (t : State) (st : Nat) : Prop := exec i s = .next (finishCommand t fn st)
    (nextCommand s fn = none → ∀ p ∈ all, exec p.2 s = .next s) ∧
    (nextCommand s fn = some c → commandBad c = true → ∀ p ∈ all, p.1 = op → ends p.2 s 2) ∧
    (nextCommand s fn = some c → commandBad c = false → le c 32 4 = e →
      (fn ≠ 0 → ∀ p ∈ all, p.1 = op → 10 ≤ op → ends p.2 s 1) ∧
      (op = 1 ∨ op = 2 ∨ op = 3 → findRecord s v = none → ∀ p ∈ all, p.1 = op → ends p.2 s 1) ∧
      (∀ x u, findRecord s v = some (x, u) → (fn = 0 ∨ fnOf s x = fn) →
        let go (i : Instr) (may : Prop) (step : Bool) : Prop :=
          (u.dropped = true ∨ ¬may → ends i s 1) ∧
          (u.dropped = false → may → ∃ t, ends i t 0 ∧
            t.ctx? x = (s.ctx? x).map (fun y => { y with unresolved := y.unresolved.filter fun r => r.seq ≠ u.seq }) ∧
            (∀ r, u.agent = .thread r → t.thread? r = (s.thread? r).map (fun th => { th with stepping := step }) ∧ otherThreads s t r ∧
              { t with ctxs := s.ctxs, threads := s.threads } = s) ∧
            (∀ g, u.agent = .group g → ∃ f, t.group? g = (s.group? g).map (fun x => { f x with stepping := step }) ∧
              (f = id ∨ ∀ x, (f x).frozen = false) ∧ otherGroups s t g ∧ { t with ctxs := s.ctxs, groups := s.groups } = s) ∧
            (∀ m, u.agent = .stream m → ∀ tm, s.team? m = some tm → t.team? m = some { tm with stream := { tm.stream with stopped := false } }))
        (op = 1 → go (.resume fn v) True false) ∧
        (op = 2 → go (.skip fn v) (u.code = .trap ∨ u.code = .break_ ∨ u.code = .step) false) ∧
        (op = 3 → go (.cmdStep fn v) ((∃ r, u.agent = .thread r) ∨ ∃ g, u.agent = .group g) true)) ∧
      (fn = 0 ∨ fnOf s v = fn →
        (op = 4 → (ctxLive s v = true → ends (.remove fn v) (fatalEnd s v (answeredRecord s v)) 0) ∧ (ctxLive s v = false → ends (.remove fn v) s 1)) ∧
        (op = 7 → ends (.prion fn v) ((List.range 512).foldl (fun s _ => sendNext s) ((setPageBit s v true).updCtx v fun x => { x with priBlocked := false })) 0) ∧
        (op = 8 → (s.ctx? v = none → ends (.ctxout fn v) s 1) ∧ ∀ x, s.ctx? v = some x →
          (x.ended = true ∨ x.out ≠ none → ends (.ctxout fn v) s 1) ∧
          (x.ended = false → x.out = none →
            (ctxQuiet s v = false → exec (.ctxout fn v) s = .next (preemptThreads (preemptGroups s v true) v true none)) ∧
            (∀ k b ck, ctxQuiet s v = true → teamsDrainStop s (teamsOf s v) = some (k, b, ck) →
              exec (.ctxout fn v) s = .next (if isParked s (.thread k.ref) then s else storeRefused s k b ck)) ∧
            (ctxQuiet s v = true → teamsDrainStop s (teamsOf s v) = none → ∃ t y, ends (.ctxout fn v) t 0 ∧ t.ctx? v = some y ∧
              y.out = some (heldHands s v) ∧ onHands t v = []))) ∧
        (op = 9 → ∀ x, s.ctx? v = some x → (x.out = none → ends (.ctxin fn v w) s 1) ∧
          (∀ hs t r, x.out = some hs → feUnits s v w 5 = (t, r) → r = .later ∨ (∃ d, r = .offline d) → exec (.ctxin fn v w) s = .next s) ∧
          ∀ hs t m, x.out = some hs → feUnits s v w 5 = (t, .ok m) →
            (placeable t v m = false → ends (.ctxin fn v w) s 1) ∧
            (placeable t v m = true → (switchIn t v m hs = none → exec (.ctxin fn v w) s = .next s) ∧
              ∀ u, switchIn t v m hs = some u → ends (.ctxin fn v w) u 0))) ∧
      (op = 5 → le c 24 1 = 1 → let r := queueRecord s v
        (fn = 0 ∨ fnOf s (le r 12 2) = fn) →
        let ok : Prop := (s.fn 0).qtBase ≠ 0 ∧ (∀ p ∈ s.hostAbsent, ∀ i < 64, ((s.fn 0).qtBase.toNat + 64 * v + i) / 4096 ≠ p) ∧ queueRecordOk s r = true ∧ le r 12 2 < 4096 ∧ ctxField s (le r 12 2) 6 1 % 2 = 1
        (¬ok → ends (.qenable fn v) s 1) ∧
        (ok → ∃ t x, ends (.qenable fn v) t 0 ∧ t.queues.get? v = some x ∧ x.enabled = true ∧ x.ring = le64 r 0 ∧ x.size = le r 8 4 ∧
          x.ctx = le r 12 2 ∧ x.basePri = le r 14 1 ∧ x.pri = x.basePri ∧ x.priv = (le r 15 1 % 2 = 1) ∧ x.cbase = le64 r 16 ∧
          x.csize = le r 24 4 ∧ x.vec = le r 28 2 ∧ x.a = 0 ∧ x.d = 0 ∧ x.expected = 1 ∧ x.stopped = false)) ∧
      (fn = 0 ∨ ownsQueue s fn v = true →
        (op = 5 → le c 24 1 = 0 → ends (.qdisable fn v) (s.updQueue v fun x => { x with enabled := false }) 0) ∧
        (op = 6 → ∀ x, s.queues.get? v = some x →
          (x.stopped = false ∨ w.toNat < x.d ∨ x.a < w.toNat → ends (.qrestart fn v w e) s 1) ∧
          (x.stopped = true → x.d ≤ w.toNat → w.toNat ≤ x.a → ∃ t, ends (.qrestart fn v w e) (settleAll t) 0 ∧
            { t with queues := s.queues, hostMem := s.hostMem } = s ∧
            t.queues.get? v = some { x with d := w.toNat, expected := BitVec.ofNat 32 e, stopped := false,
                                            pend := x.pend.filter fun p => !(p.typ = 4 && p.data.isEmpty) }))) ∧
      (fn = 0 →
        (op = 10 →
          let ok : Prop := s.enabled v = true ∧ ∀ t ∈ residents s v, tenantOf s t.ctx = le c 24 1
          (¬ok → ends (.assign 0 v (le c 24 1)) s 1) ∧
          (ok → ends (.assign 0 v (le c 24 1)) (s.updHand v fun x => { x with tenant := le c 24 1 }) 0)) ∧
        (op = 11 → ends (.slottbl 0 v w)
          (s.updDie v fun d => { d with newSlots := some ((Memory.read s.hostMem w.toNat 64).map (·.toNat)) }) 0) ∧
        (op = 12 → ((∀ d < 4, (s.die d).state = .online) → ends (.diereset 0 v) (startQuiesce s v) 0) ∧
          ((∃ d < 4, (s.die d).state ≠ .online) → ends (.diereset 0 v) s 1))))) ∧
  ∀ (s : State) (fn ofs vec d : Nat) (v : W64),
    let f := s.fn fn
    let low : W64 := v &&& 0xFFFFFFFF
    let writes (g : Fn) : Prop := exec (.functionRegisterWrite fn ofs 8 v) s = .next (s.updFn fn fun _ => g)
    let open_ : Prop := exposed s = true
    (∀ size, size ≠ 8 ∨ f.enabled = false ∨ ¬open_ → exec (.functionRegisterWrite fn ofs size v) s = .next s) ∧
    (f.enabled = false ∨ ¬open_ → exec (.cmdbaseWrite fn v) s = .next s) ∧
    (¬open_ → ∀ i ∈ [Instr.msixMask fn vec, .msixUnmask fn vec, .flr fn, .vfEnable d], exec i s = .next s) ∧
    (f.enabled = true → open_ →
      exec (.cmdbaseWrite fn v) s = .next (s.updFn fn fun _ => { f with cmdBase := v, cmdWi := 0, cmdRi := 0 }) ∧
      (ofs = 0x00 → writes { f with cmdBase := v, cmdWi := 0, cmdRi := 0 }) ∧ (ofs = 0x08 → writes { f with cmdSize := low }) ∧
      (ofs = 0x10 → f.cmdWi.toNat ≤ v.toNat → v.toNat - f.cmdRi.toNat ≤ ringSize f.cmdSize → writes { f with cmdWi := v }) ∧
      (ofs = 0x10 → v.toNat < f.cmdWi.toNat ∨ ringSize f.cmdSize < v.toNat - f.cmdRi.toNat → writes f) ∧
      (ofs = 0x20 → writes { f with evBase := v }) ∧ (ofs = 0x28 → writes { f with evSize := low }) ∧ (ofs = 0x38 → writes { f with evRi := v }) ∧
      (ofs = 0x40 → fn = 0 → writes { f with ctxBase := v }) ∧ (ofs = 0x48 → fn = 0 → writes { f with qtBase := v }) ∧
      (ofs ∈ [0x18, 0x30] ∨ (ofs ∈ [0x40, 0x48] ∧ fn ≠ 0) → exec (.functionRegisterWrite fn ofs 8 v) s = .next s)) ∧
    (functionRegister s fn 0x10 = f.cmdWi ∧ functionRegister s fn 0x18 = f.cmdRi ∧ functionRegister s fn 0x30 = f.evWi ∧
      functionRegister s fn 0x40 = (if fn = 0 then f.ctxBase else 0) ∧
      functionRegister s fn 0x50 = (match s.weave.devNum with | some n => BitVec.ofNat 64 (2 ^ 15 + n % 2 ^ 12) | none => 0) ∧
      functionRegister s fn 0x68 = BitVec.ofNat 64 (s.die 1).epoch ∧
      (∀ q x, s.queues.get? q = some x → readIndex s fn q = if fn = 0 ∨ x.fn = fn then BitVec.ofNat 64 x.a else 0) ∧
      ∀ n, f.enabled = false ∨ ¬open_ → bar0Read s fn ofs n = List.replicate n 0) ∧
    (vec < vectorCount fn → open_ → ∃ t, exec (.msixMask fn vec) s = .next t ∧ vec ∉ (t.fn fn).unmasked ∧ (∀ n, n ≠ fn → t.fn n = s.fn n) ∧ { t with fns := s.fns } = s) ∧
    (vec < vectorCount fn → open_ → vec ∉ f.pendingV ∨ vec ∈ f.unmasked → exec (.msixUnmask fn vec) s =
      .next (s.updFn fn fun f => { f with unmasked := f.unmasked.insert vec, pendingV := f.pendingV.erase vec })) ∧
    (vectorCount fn ≤ vec → exec (.msixMask fn vec) s = .next s ∧ exec (.msixUnmask fn vec) s = .next s) ∧
    (vec ∈ f.pendingV → vec ∉ f.unmasked → vec ∉ f.window → vec < vectorCount fn → open_ →
      ∃ t, exec (.msixUnmask fn vec) s = .next t ∧ t.outbox = s.outbox ++ [.msix fn vec] ∧ vec ∈ (t.fn fn).unmasked ∧
        (t.fn fn).pendingV = f.pendingV.erase vec ∧ { t with fns := s.fns, outbox := s.outbox } = s) ∧
    (let ended (f : Fn) : Fn := { f with window := f.window.erase vec, flagged := f.flagged.filter fun v => v ≠ vec }
     (vec ∉ f.window → exec (.msixWindowExpiry ⟨fn, vec⟩) s = .next s) ∧
     (vec ∈ f.window → vec ∉ f.flagged → exec (.msixWindowExpiry ⟨fn, vec⟩) s = .next (s.updFn fn ended)) ∧
     (f.window.Nodup → vec ∈ f.window → vec ∈ f.flagged → vec < vectorCount fn → vec ∈ f.unmasked → ∃ t, exec (.msixWindowExpiry ⟨fn, vec⟩) s = .next t ∧
       t.outbox = s.outbox ++ [.msix fn vec] ∧ (t.fn fn).flagged = (ended f).flagged ∧ (∀ v, v ∈ (t.fn fn).window ↔ v ∈ f.window) ∧
       { t with fns := s.fns, outbox := s.outbox } = s)) ∧
    ((s.die d).slot = 63 → exec (.slotTableAdvance d) s = .next (s.updDie d fun x => { x with slot := 0, slots := x.newSlots.getD x.slots, newSlots := none })) ∧
    ((s.die d).slot ≠ 63 → exec (.slotTableAdvance d) s = .next (s.updDie d fun x => { x with slot := x.slot + 1 })) ∧
    (let cleared (t : State) (n : Nat) : Prop := (t.fn n).cmdBase = 0 ∧ (t.fn n).cmdSize = 0 ∧ (t.fn n).cmdWi = 0 ∧ (t.fn n).cmdRi = 0 ∧
       ∀ q x, t.queues.get? q = some x → x.fn = n → x.enabled = false
     (open_ → fn ≠ 0 → ∃ t, exec (.flr fn) s = .next t ∧ cleared t fn ∧ ∀ c x, t.ctx? c = some x → fnOf s c = fn → x.ended = true) ∧
     (open_ → ∃ t, exec (.flr 0) s = .next t ∧ ∀ n < 65, cleared t n) ∧
     (64 < d → exec (.vfEnable d) s = .next s) ∧
     (d ≤ 64 → open_ → ∃ t, exec (.vfEnable d) s = .next t ∧ ∀ i < 64, (t.fn (i + 1)).enabled = decide (i < d) ∧ (d ≤ i → (s.fn (i + 1)).enabled = true → cleared t (i + 1))))

/-- R137, R358, R369-R374. A die goes through its reset states in order and in no other state does an event move it: QUIESCING stops its teams
and ends with its caches written back, once the gangs that it switches out have left their hands, RESETTING clears its hands, READMITTING sends JOIN to the dies that take part, and the last ACK opens it. What waited
for OPEN goes on. A host access is held while its die does not answer, and else reads or writes memory. -/
def Obligations.Dies : Prop :=
  (∀ (s : State) (d src dst epoch : Nat),
    let x := s.die d
    let moves (i : Instr) (a b : DieState) (P : State → Prop) : Prop :=
      (x.state ≠ a → exec i s = .next s) ∧ (x.state = a → ∃ t, exec i s = .next t ∧ (t.die d).state = b ∧ P t)
    let drained (t : State) : Prop := (∀ p ∈ placesOf d, ∀ la, lineCopy t p la = none) ∧ (∀ p la, homeDie la = d → lineCopy t p la = none) ∧
      ∀ g ∈ t.granules, homeDie (g.1 * 65536) ≠ d
    let part := ((List.range 4).filter fun e => e ≠ d && ((s.die e).state = .online || (s.die e).state = .quiescing)) ++ [4 + ioOf d]
    (d < 4 → moves (.dieFault d) .online .quiescing fun t => (t.die d).leftAt = s.clock ∧
      (∀ r tm, teamsOnDie s d = [r] → s.team? r = some tm → restartable s tm = true → tm.gang = false →
        (∀ q < 4, ∀ th, s.thread? ⟨r.hand, r.slot, q⟩ = some th → th.buffer = []) →
        (∀ g ∈ teamGroups s r, ∀ gr, s.group? g = some gr → gr.outst = []) → t.team? r = none ∧ (t.die d).restart = x.restart ++ [startAgain r tm])) ∧
    (x.leaving = [] → moves (.quiesceDone d) .quiescing .drained drained) ∧ (x.leaving ≠ [] → exec (.quiesceDone d) s = .next s) ∧
    moves (.quiesceTimeout d) .quiescing .drained drained ∧
    (firstToLeave s d = true → x.held = [] → moves (.drainSaveDone d) .drained .resetting fun t => t.mem = s.mem) ∧
    (firstToLeave s d = false ∨ x.held ≠ [] → exec (.drainSaveDone d) s = .next s) ∧
    moves (.resetDone d) .resetting .retraining (fun t => (t.die d).tlb = [] ∧ (∀ p ∈ placesOf d, ∀ la, lineCopy t p la = none) ∧
      ∀ h < 256, dieOf h = d → let y := t.hand h
        y.scratch = [] ∧ y.imem = [] ∧ y.tiles = [] ∧ y.active = [] ∧ y.near = [] ∧ y.bulk = [] ∧ y.gather = [] ∧ y.tlb = [] ∧ y.maps = [] ∧
        y.banks = [] ∧ y.mailbox = [] ∧ y.deque = (s.hand h).deque) ∧
    (s.collar.restarting = false → ∀ lanes, moves (.trainingDone ⟨d, lanes⟩) .retraining .readmitting (fun t => (t.die d).acks = part ∧
      (t.die d).joined = true ∧ t.outbox = (enterState s d .readmitting).outbox ++ part.map fun e => .join d e (x.epoch + 1))) ∧
    (joining s d epoch = false → ∀ i ∈ [Instr.joinMsg d dst epoch, .ackMsg d src epoch, .openMsg d epoch], exec i s = .next s) ∧
    (joining s d epoch = true →
      (dst ∈ x.acks → dst ∉ x.route → exec (.joinMsg d dst epoch) s =
        .next ((s.updDie d fun x => { x with route := x.route ++ [dst] }).send (.ack d dst epoch))) ∧
      (src ∈ x.acks → src ∈ x.route → let t := s.updDie d fun x => { x with acks := x.acks.erase src }
        exec (.ackMsg d src epoch) s = .next (if x.acks.erase src = [] then t.send (.open_ d epoch) else t)) ∧
      (x.acks ≠ [] → exec (.openMsg d epoch) s = .next s) ∧
      (x.acks = [] → ∃ t, exec (.openMsg d epoch) s = .next t ∧ (t.die d).state = .online ∧ (t.die d).epoch = epoch ∧ (t.die d).joined = false ∧
        ∀ e < 4, ∀ h ∈ (t.die e).held, homeDie h.1 ≠ d))) ∧
  (∀ (s : State) (n : Nat),
    (offlineParks s = [] → exec (.parkedReplay n) s = .next s) ∧
    (∀ c i k, (offlineParks s)[n]? = some (c, i, k) →
      (answers s (k.die.getD 0) = false → exec (.parkedReplay n) s = .next s) ∧
      (answers s (k.die.getD 0) = true → ∃ t, exec (.parkedReplay n) s = .next t ∧
        t.ctx? c = (s.ctx? c).map (fun x => { x with parked := x.parked.eraseIdx i }) ∧
        (∀ r th, k.agent = .thread r → s.thread? r = some th → th.wait = .park → t.thread? r = some { th with wait := .none }) ∧
        ∀ g gr, k.agent = .group g → s.group? g = some gr → t.group? g = some { gr with parked := false })) ∧
    (∀ d w, (restarts s)[n]? = some (d, w) → w.gang = false → w.out = none →
      ((s.die d).state ≠ .online → exec (.teamRestart n) s = .next s) ∧
      ((s.die d).state = .online → (s.die d).restart.filter (fun y => decide (y = w)) = [w] →
        let t := restartEvent (s.updDie d fun x => { x with restart := x.restart.filter fun y => !decide (y = w) }) d w
        exec (.teamRestart n) s = .next (tryStart { t with waiting := s.waiting ++ [w] } s.waiting.length))) ∧
    (∀ x, s.hostHeld[n]? = some x → exec (.bar2ReadTimeout n) s =
      .next (if x.wr = none then { s with hostHeld := s.hostHeld.eraseIdx n, outbox := s.outbox ++ [.hostAbort] } else s))) ∧
  ∀ (s : State) (fn addr len : Nat) (wr : Option (List Byte)),
    ((s.fn fn).enabled = false ∨ exposed s = false → exec (.hostBar2Access fn addr len wr) s = .next s) ∧
    (hostRefused s ⟨fn, addr, len, wr⟩ = true → (s.fn fn).enabled = true → exposed s = true →
      exec (.hostBar2Access fn addr len wr) s = .next { s with hostHeld := s.hostHeld ++ [⟨fn, addr, len, wr⟩] }) ∧
    ((s.fn 0).enabled = true → exposed s = true → copyHolds s (.dev addr) len = false → addr + len ≤ binWindow → 0 < len → addr / 128 = (addr + len - 1) / 128 → dieRefuses s (homeDie addr) = false →
      routed s (homeDie addr) 0 = true → let u := recallLine s (alignDown addr 128)
      exec (.hostBar2Access 0 addr len none) s = .next (u.send (.hostData (Memory.read u.mem addr len))) ∧
      ∀ d : List Byte, d.length = len → (∀ i < len, tagAt s (addr + i) = 0) →
        ∃ t, exec (.hostBar2Access 0 addr len (some d)) s = .next t ∧ ∀ i < len, d[i]? = some (Memory.get t.mem (addr + i)))

/-- R363, R365-R368, R375-R385. The log gets a record for each kind of event; margins re-plan a die or reset it, windows of power and samples of
temperature pace the clocks, and a restarting Collar keeps requests waiting and then serves them in order. Images, slots and minimums change as
R381 says, measurements and the log are read, a cold boot leaves the log and starts the measurements anew. The Weave serves, holds, routes,
replays and drops flits, takes replies, and reports lost and restored devices; a domain timeout refuses an unanswered request as
DIE_OFFLINE, which its agent takes with the address of its own access (log entry 66, DEDUCED). That margins lower clk before fclk is log entry
65 (DEDUCED: R376 says clk or fclk); that the raise of a minimum writes a record is entry 113 (DEDUCED). -/
def Obligations.Platform : Prop :=
  (∀ (s : State) (r : LogRec), let t := logWrite s r
    t.collar.log = (s.collar.log ++ [r.bytes s.collar.nextLog]).drop (s.collar.log.length + 1 - 2 ^ 20) ∧
      t.collar.nextLog = s.collar.nextLog + 1 ∧ { t with collar := { t.collar with log := s.collar.log, nextLog := s.collar.nextLog } } = s) ∧
  (∀ (s : State) (die cl mon ps hand watts sensor temp stack pc core n : Nat) (e : ExportEntry) (ds : DomainSetup) (pl : PortLoss) (pr : PeerRoute),
    let d := s.die die
    let steps (d' : Die) : Prop := ∃ t, exec (.marginSample die cl mon ps true hand) s = .next t ∧ t.die die = d' ∧
      t.collar.nextLog = s.collar.nextLog + 1 ∧ t.hands = s.hands ∧ t.teams = s.teams
    let up := s.collar.restarting = false
    let full := (s.collar.spared ++ s.collar.copying).any fun p => p.1 = stack
    exec (.marginSample die cl mon ps false hand) s = .next s ∧
    (up → d.railMv ≤ 20 → steps { d with railMv := d.railMv + 5 }) ∧
    (up → 20 < d.railMv → 2450 ≤ d.clkPlan → steps { d with clkPlan := d.clkPlan - 50 }) ∧
    (up → 20 < d.railMv → d.clkPlan < 2450 → 1650 ≤ d.fclkPlan → steps { d with fclkPlan := d.fclkPlan - 50 }) ∧
    (up → 20 < d.railMv → d.clkPlan < 2450 → d.fclkPlan < 1650 → let t := s.updCollar fun c => { c with defectMap := c.defectMap.insert hand }
      exec (.marginSample die cl mon ps true hand) s = .next (if d.state = .online then startQuiesce t die else t)) ∧
    (¬up → exec (.powerWindow watts) s = .next s ∧ exec (.thermalSample die sensor temp) s = .next s) ∧
    (up → s.collar.cap * 95 ≤ watts * 100 → watts ≤ s.collar.cap → exec (.powerWindow watts) s = .next s) ∧
    -- a die's clk and fclk are the lowest of what its plan, the power cap and its temperature allow (R382, R384)
    let c (x : Die) : Nat := min x.clkPlan (min x.clkPow x.clkHot)
    let f (x : Die) : Nat := min x.fclkPlan (min x.fclkPow x.fclkHot)
    (up → s.collar.cap < watts → ∃ t, exec (.powerWindow watts) s = .next t ∧ ∀ n < 4, t.die n =
      let x := s.die n
      if [0, 1, 2, 3].any fun m => 2450 ≤ c (s.die m) then (if 2450 ≤ c x then { x with clkPow := c x - 50 } else x)
      else if 1650 ≤ f x then { x with fclkPow := f x - 50 } else x) ∧
    (up → watts * 100 < s.collar.cap * 95 → ∃ t, exec (.powerWindow watts) s = .next t ∧ ∀ n < 4, t.die n =
      let x := s.die n
      if [0, 1, 2, 3].any fun m => (s.die m).fclkPow + 50 ≤ (s.die m).fclkPlan then (if x.fclkPow + 50 ≤ x.fclkPlan then { x with fclkPow := x.fclkPow + 50 } else x)
      else if x.clkPow + 50 ≤ x.clkPlan then { x with clkPow := x.clkPow + 50 } else x) ∧
    (exposed s = false → exec (.powerCapSet watts) s = .next s) ∧
    (up → exposed s = true → exec (.powerCapSet watts) s =
      .next (if 8000 ≤ watts ∧ watts ≤ 15000 then s.updCollar fun c => { c with cap := watts } else s)) ∧
    (∃ t, exec (.droopDetect die cl) s = .next t ∧ t.die die = { d with stretched := d.stretched + 1 } ∧ { t with dies := s.dies } = s) ∧
    (up → 1150 ≤ temp → ∃ t, exec (.thermalSample die sensor temp) s = .next t ∧ t.collar.railsOn = false ∧ powered t = false ∧
      t.collar.unreported = s.collar.unreported ++ [s.collar.nextLog]) ∧
    (up → 1000 ≤ temp → temp < 1150 → ∃ t, exec (.thermalSample die sensor temp) s = .next t ∧ t.die die =
      let x := if 2450 ≤ c d then { d with clkHot := c d - 50 } else if 1650 ≤ f d then { d with fclkHot := f d - 50 } else d
      { x with hot := d.hot.insert sensor }) ∧
    (up → temp < 950 → ∃ t, exec (.thermalSample die sensor temp) s = .next t ∧
      let cool := d.hot.filter fun x => x ≠ sensor
      (cool ≠ [] → t.die die = { d with hot := cool }) ∧
      (cool = [] → t.die die =
        let x := if d.fclkHot + 50 ≤ 2400 then { d with fclkHot := d.fclkHot + 50 } else if d.clkHot + 50 ≤ 3600 then { d with clkHot := d.clkHot + 50 } else d
        { x with hot := [] })) ∧
    (up → 950 ≤ temp ∧ temp < 1000 → exec (.thermalSample die sensor temp) s = .next s) ∧
    (up → (full = true → exec (.hbmSpare stack pc) s = .next s) ∧
      (full = false → ∃ t, exec (.hbmSpare stack pc) s = .next t ∧ t.collar.copying = s.collar.copying ++ [(stack, pc)] ∧ t.mem = s.mem)) ∧
    (up → (stack, pc) ∉ s.collar.copying → exec (.hbmSpareCopyDone stack pc) s = .next s) ∧
    (up → (stack, pc) ∈ s.collar.copying → exec (.hbmSpareCopyDone stack pc) s = .next (s.updCollar fun c =>
      { c with copying := c.copying.erase (stack, pc), spared := c.spared ++ [(stack, pc)] })) ∧
    (up → s.cores ≤ core → exec (.frontEndCoreFailure core) s = .next s) ∧
    (up → core < s.cores → exec (.frontEndCoreFailure core) s = .next (logWrite { s with cores := s.cores - 1 } { kind := 3 })) ∧
    -- the Weave's domain, its routes and its export table
    let live (s : State) (r : Nat × Nat) : Prop := r.1 < 2304 ∧ r.2 ∈ s.weave.ports
    (2304 ≤ ds.dev → exec (.domainFormation ds) s = .next s) ∧
    (ds.dev < 2304 → ∃ t, exec (.domainFormation ds) s = .next t ∧ { t with weave := s.weave } = s ∧ t.weave.devNum = some ds.dev ∧
      t.weave.unreachable = [] ∧ t.weave.timeout = (if 2 ^ 20 ≤ ds.timeout ∧ ds.timeout ≤ 2 ^ 30 then ds.timeout else s.weave.timeout) ∧
      (∀ d p, t.weave.routes.get? d = some p → (d, p) ∈ ds.routes ∧ live s (d, p)) ∧
      ∀ r ∈ ds.routes, live s r → (t.weave.routes.get? r.1).isSome = true) ∧
    exec (.exportTableWrite n e) s = .next (if exposed s = true ∧ n < 256 ∧ e.base % 65536 = 0 ∧ e.len % 65536 = 0 ∧ e.base + e.len ≤ 2 ^ 52 then
      s.updWeave fun w => { w with exports := w.exports.set n e } else s) ∧
    (¬live s (pr.dev, pr.port) → exec (.peerReachable pr) s = .next s) ∧
    (live s (pr.dev, pr.port) → pr.dev ∈ s.weave.unreachable → ∃ t, exec (.peerReachable pr) s = .next t ∧
      t.weave = { s.weave with unreachable := s.weave.unreachable.erase pr.dev, routes := s.weave.routes.set pr.dev pr.port }) ∧
    (live s (pr.dev, pr.port) → pr.dev ∉ s.weave.unreachable →
      ((∃ r ∈ s.weave.reqs, r.dev = pr.dev ∧ r.reply = none) → exec (.peerReachable pr) s =
        .next (s.updWeave fun w => { w with changes := w.changes.set pr.dev pr.port })) ∧
      ((∀ r ∈ s.weave.reqs, r.dev = pr.dev → r.reply ≠ none) → exec (.peerReachable pr) s =
        .next (s.updWeave fun w => { w with routes := w.routes.set pr.dev pr.port, changes := w.changes.erase pr.dev }))) ∧
    (pl.port ∉ s.weave.ports → exec (.weavePortFailure pl) s = .next s) ∧
    (pl.port ∈ s.weave.ports → ∃ t, exec (.weavePortFailure pl) s = .next t ∧ t.weave.ports = s.weave.ports.erase pl.port ∧
      (∀ r ∈ t.weave.routes, (r ∈ s.weave.routes ∧ r.2 ≠ pl.port) ∨ (r ∈ pl.reroute ∧ live t r)) ∧ (∀ f ∈ t.weave.buffer, f.port ≠ pl.port) ∧
      ∀ r ∈ s.weave.routes, r.2 = pl.port → ((∃ q ∈ pl.reroute, q.1 = r.1 ∧ live t q) → (t.weave.routes.get? r.1).isSome = true) ∧
        ((∀ q ∈ pl.reroute, q.1 = r.1 → ¬live t q) → r.1 ∈ t.weave.unreachable))) ∧
  (∀ (s : State) (comp seq count : Nat) (img : FwImage) (sign : Bool) (hand ps stack : Nat) (lanes : Training),
    let c := compOf s comp
    let put (c' : Component) (s : State) : State := s.updCollar fun x => { x with comps := x.comps.set comp c' }
    let rec_ (img : FwImage) (s : State) : State := logWrite s { kind := 2, val := img.version.toNat, ext := (Config.shake256 64 img.data).take 32 }
    let slot (img : FwImage) : Component := if c.active = 0 then { c with slot1 := img } else { c with slot0 := img }
    (exposed s = false → exec (.raiseFusedMinimum comp) s = .next s) ∧
    (s.collar.restarting = false →
      (verifies img c.minimum = false → exec (.firmwareImageWrite comp img) s =
        .next (rec_ img (put (slot ⟨[], 0⟩) (rec_ img (put (slot img) s))))) ∧
      (verifies img c.minimum = true → exec (.firmwareImageWrite comp img) s = .next (rec_ img (rec_ img (put (slot img) s)))) ∧
      exec (.activation comp) s = .next (rec_ (c.slot (1 - c.active)) (put { c with active := 1 - c.active } s)) ∧
      (exposed s = true → exec (.raiseFusedMinimum comp) s = .next (rec_ c.image
        (put { c with minimum := if c.minimum.toNat ≤ c.image.version.toNat then c.image.version else c.minimum } s))) ∧
      (let data := (List.range 8).flatMap (mrOf s) ++ (List.range 3).flatMap fun n => Config.shake256 64 (compOf s n).running.data
       exec (.getMeasurements sign) s = .next (s.send (.measurements data (if sign then Config.sign data else [])))) ∧
      exec (.logRead seq count) s = .next (s.send (.log ((s.collar.log.filter fun r => seq ≤ ofBytes (r.take 8)).take count)))) ∧
    (s.collar.restarting = true → exposed s = true → ∀ p ∈ [(Instr.firmwareImageWrite comp img, CollarReq.write comp img), (.activation comp, .activate comp),
        (.raiseFusedMinimum comp, .raiseMinimum comp), (.getMeasurements sign, .measurements sign), (.logRead seq count, .log seq count),
        (.hbmSpare stack ps, .spare stack ps), (.hbmSpareCopyDone stack ps, .copyDone stack ps), (.frontEndCoreFailure count, .coreFailed count),
        (.powerCapSet count, .cap count), (.trainingDone lanes, .training lanes), (.marginSample comp seq count ps true hand, .margin comp seq count ps hand)],
      exec p.1 s = .next (s.updCollar fun c => { c with pendingReq := c.pendingReq ++ [p.2] })) ∧
    (∃ t, exec .collarRestart s = .next t ∧ t.collar.restarting = true ∧ t.teams = s.teams ∧ t.threads = s.threads ∧ t.dies = s.dies) ∧
    (s.collar.pendingReq = [] → exec .collarRestartDone s = .next (s.updCollar fun c => { c with restarting := false, pendingReq := [] })) ∧
    (∀ q, s.collar.pendingReq = [q] → exec .collarRestartDone s =
      .next (servePending (s.updCollar fun c => { c with restarting := false, pendingReq := [] }) q)) ∧
    (∃ t, exec .perstAssert s = .next t ∧ t.collar.perst = true ∧ powered t = false) ∧
    (∃ t, exec .powerLoss s = .next t ∧ powered t = false ∧ t.mem = [] ∧ t.teams = [] ∧ t.ctxs = [] ∧ t.collar.log = s.collar.log ∧ t.fuse = s.fuse) ∧
    (powered s = true → exec .coldBoot s = .next s) ∧
    (powered s = false → ∃ t, exec .coldBoot s = .next t ∧ powered t = true ∧ t.mem = [] ∧ t.teams = [] ∧ t.ctxs = [] ∧ t.queues = [] ∧
      t.hostMem = s.hostMem ∧ (∀ h ∈ s.collar.defectMap, h ∈ t.defects) ∧
      t.collar.nextLog = s.collar.nextLog + (s.collar.defectMap.filter fun h => h ∉ s.defects).length + 1 ∧ t.collar.booted = true ∧
      (s.collar.unreported ≠ [] → Msg.log (t.collar.log.filter fun r => s.collar.unreported.contains (ofBytes (r.take 8))) ∈ t.outbox) ∧
      (t.collar.recovery = true ↔ ∃ n < 3, (compOf s n).boots = none) ∧
      mrOf t 0 = Config.shake256 64 (List.replicate 64 0 ++ Config.shake256 64 s.collar.romItem))) ∧
  ∀ (s : State) (q : DomainReq) (f : Flit) (io id n code dev : Nat) (data : List Byte),
    -- a request that arrives over an I/O die
    let answers (c : Nat) (d : List Byte) (u : State) : Prop :=
      domainServe s io id q = sendFlit u (u.weave.devNum.getD 0) q.src q.addr (.reply id c d)
    let holds (u : State) : Prop := domainServe s io id q = u.updWeave fun w => { w with held := w.held ++ [(io, id, q)] }
    (heldBefore s q = true → holds s) ∧
    (heldBefore s q = false →
      (exportFor s q = none → answers FaultCode.pageAbsent.code [] s) ∧
      (∀ e, exportFor s q = some e → exportCheck e q ≠ 0 → answers (exportCheck e q) [] s) ∧
      ∀ e c u, exportFor s q = some e → exportCheck e q = 0 → ctxOfPasid s e.pasid = some c →
        let ck := checkVirtual s c (ioHand io) false q.op.acc (e.local_ + (q.addr - e.base)) false
        (ck = (u, .waits) → holds u) ∧ (ck = (u, .fault .pagePerm) → answers FaultCode.pagePerm.code [] u) ∧
        (∀ d, ck = (u, .offline d) → answers FaultCode.dieOffline.code [] u) ∧
        ∀ pa, ck = (u, .ok (.dev pa)) → (copyHolds u (.dev pa) q.op.size = true → holds u) ∧
          (copyHolds u (.dev pa) q.op.size = false →
            let r := domainPerform u c pa q.op
            domainServe s io id q = sendFlit r.1 (r.1.weave.devNum.getD 0) q.src q.addr (.reply id r.2.1 r.2.2))) ∧
    exec (.domainRequest q) s = .next (domainServe s (match s.weave.routes.get? q.src with | some p => if p < 18 then 0 else 1 | none => 0) 0 q) ∧
    -- a reply
    (let t := takeReply s dev id code data
     { t with weave := s.weave } = s ∧ { t.weave with reqs := s.weave.reqs, routes := s.weave.routes, changes := s.weave.changes } = s.weave ∧
       t.weave.reqs = s.weave.reqs.map fun r => if r.id = id ∧ r.dev = dev ∧ r.reply = none then { r with reply := some (code, data) } else r) ∧
    -- flits
    (let due := s.weave.expectSeq.getD f.port 0
     let t := s.updWeave fun w => { w with expectSeq := w.expectSeq.set f.port ((due + 1) % 4096) }
     let mine : Prop := s.weave.devNum = some f.dst
     (f.port ∉ s.weave.ports → exec (.weaveFlitReceive f) s = .next s) ∧
     (f.port ∈ s.weave.ports → f.crcOk = false → exec (.weaveFlitReceive f) s = .next (s.send (.replay f.port due))) ∧
     (f.port ∈ s.weave.ports → f.crcOk = true → f.body = .replay → exec (.weaveFlitReceive f) s =
       .next { s with outbox := s.outbox ++ (((s.weave.buffer.filter fun g => g.port = f.port).dropWhile fun g => g.seq ≠ f.seq).map .flit) }) ∧
     (f.port ∈ s.weave.ports → f.crcOk = true → f.body ≠ .replay → f.seq % 4096 ≠ due → exec (.weaveFlitReceive f) s = .next s) ∧
     (f.port ∈ s.weave.ports → f.crcOk = true → f.body ≠ .replay → f.seq % 4096 = due →
       (¬mine → exec (.weaveFlitReceive f) s = .next (sendFlit t f.src f.dst (f.lane * 2 ^ 11) f.body)) ∧
       (mine → f.body = .request id q → exec (.weaveFlitReceive f) s =
         .next (domainServe t (if f.port < 18 then 0 else 1) id { q with src := f.src })) ∧
       (mine → f.body = .reply id code data → exec (.weaveFlitReceive f) s = .next (takeReply t f.src id code data)))) ∧
    -- a domain timeout refuses its request
    ((s.weave.reqs.filter fun r => r.reply = none)[n]? = none → exec (.domainTimeout n) s = .next s) ∧
    ∀ r, (s.weave.reqs.filter fun r => r.reply = none)[n]? = some r →
      exec (.domainTimeout n) s = .next (takeReply s r.dev r.id FaultCode.dieOffline.code [])

/-- R58, R137, R139, R142, R144, R314, R339, R349-R351, R354, R355. What happens to contexts from outside: a page response wakes the parked access,
which is refused or made again; a loaded page stands on its hand; errors poison a unit, are counted, or are fatal; a context is removed, or goes back
once to its checkpoint, where its slots and units are free; invalidations clear the TLBs; ownership goes to the requester; images are loaded and
released. That an image load under a number already loaded has no effect is log entry 50 (DEDUCED); that removal and rollback are events of
their own is entry 62 (DESIGN CHOICE); that a rollback's second half waits for room is entry 100 (DESIGN CHOICE). -/
def Obligations.ContextEvents : Prop :=
  (∀ (s : State) (c n : Nat) (x : Ctx) (k : Parked), s.ctx? c = some x → x.parked[n]? = some k → k.die = none → k.sent = true →
    let after (resp : PriResp) (y : Ctx) : Prop := ∃ t, exec (.priResponse c n resp) s = .next (sendNext t) ∧ t.ctx? c = some y ∧ otherCtxs s t c ∧
      (∀ r th, k.agent = .thread r → s.thread? r = some th → th.wait = .park → t.thread? r = some { th with wait := .none }) ∧
      (∀ g gr, k.agent = .group g → s.group? g = some gr → t.group? g = some { gr with parked := false }) ∧ t.mem = s.mem ∧ t.caches = s.caches
    let y := { x with parked := x.parked.eraseIdx n }
    after .success y ∧ after .invalid { y with denied := (k.agent, k.va.toNat) :: y.denied } ∧
      after .failure { y with denied := (k.agent, k.va.toNat) :: y.denied, priBlocked := true }) ∧
  (∀ (s : State) (c n : Nat) (x : Ctx) (resp : PriResp), s.ctx? c = some x →
    (x.parked[n]? = none ∨ ∃ k, x.parked[n]? = some k ∧ (k.die ≠ none ∨ k.sent = false)) → exec (.priResponse c n resp) s = .next s) ∧
  (∀ (s u v : State) (h c img page : Nat) (im : Image) (t t' : Tgt) (bs m : List Byte),
    (s.enabled h = false → exec (.pageLoad h c img page) s = .next s) ∧
    (s.enabled h = true → imageOf s c img = some im → imageRead s h c (im.base.toNat + 4096 * page) 4096 = (u, .ok t, bs) → page < 2 ^ 20 →
    -- with room for a page in each instruction memory, no line leaves (R318)
    (∀ e < 3, ((s.hand h).imem.countP fun l => lineEngine l.2 = e) + 64 ≤ imemLines e) →
    let brings (v : State) : Prop :=
      (∀ w rs, relocTable h c im ((im.relocCount + 6) / 7) 0 v = (w, .ok rs) →
        ∃ x, exec (.pageLoad h c img page) s = .next x ∧ ∀ i < 64, lineOf x h c img (64 * page + i) =
          some ((lineOf s h c img (64 * page + i)).getD (rs.foldl (relocLine (mapFor s h c img) h (64 * page + i)) ((bs.drop (64 * i)).take 64)))) ∧
      ∀ w ck, relocTable h c im ((im.relocCount + 6) / 7) 0 v = (w, .error ck) → exec (.pageLoad h c img page) s = .next w
    (poisonedUnits u t 4096 = [] → im.manifest / 64 ≤ page → brings u) ∧
    (poisonedUnits u t 4096 = [] → page < im.manifest / 64 →
      imageRead u h c (im.base.toNat + 64 * (im.manifest + page)) 64 = (v, .ok t', m) →
      (Config.shake256 32 bs = (m.drop 4).take 32 → brings v) ∧
      (Config.shake256 32 bs ≠ (m.drop 4).take 32 → exec (.pageLoad h c img page) s = .next
        (fatal v c .codeHash { engine := 6, hand := h, img := img } 0 (BitVec.ofNat 64 img) (BitVec.ofNat 64 page)))) ∧
    (poisonedUnits u t 4096 ≠ [] → exec (.pageLoad h c img page) s = .next (fatal u c .fetchPoison { engine := 6, hand := h, img := img } 0 (BitVec.ofNat 64 img)
      (BitVec.ofNat 64 (64 * page + ((poisonedUnits u t 4096).headD 0 - t.base / 64))))))) ∧
  (∀ (s : State) (pa h o e c img line d st pc slot what : Nat),
    -- the line of a poisoned unit is stored raw, which may put other lines of its slice's set out (R131)
    (let v : State := { s with poison := s.poison ++ if pa / 64 ∈ s.poison then [] else [pa / 64] }
     (∃ t, exec (.uncorrectableError (.device pa)) s = .next t ∧ NoStore s t) ∧
     ((∀ x ∈ homeSet v (pa / 128 * 128), setFits v x.1 x.2 = true) → exec (.uncorrectableError (.device pa)) s = .next v)) ∧
    (∃ t, exec (.uncorrectableError (.scratch h o)) s = .next t ∧ (∀ u, u ∈ (t.hand h).scratchPoison ↔ u ∈ (s.hand h).scratchPoison ∨ u = o / 64) ∧
      { t with hands := s.hands } = s) ∧
    (let la := alignDown pa 128
     (lineCopy s slot la = none → exec (.uncorrectableError (.cached slot pa)) s = .next s) ∧
     ∀ l, lineCopy s slot la = some l → ∃ t m, exec (.uncorrectableError (.cached slot pa)) s = .next t ∧ NoStore s t ∧
       { m with marks := l.marks } = l ∧ (∀ i < 2, m.marks.getLsbD i = (l.marks.getLsbD i || pa / 64 % 2 = i)) ∧
       (slot < 512 ∨ setFits (setLine s slot la m) slot la = true → t = setLine s slot la m)) ∧
    (lineOf s h c img line = none → exec (.uncorrectableError (.imem h e c img line)) s = .next s) ∧
    (∀ im l, s.enabled h = true → imageOf s c img = some im → lineOf s h c img line = some l →
      let t := postPoison s c (im.base.toNat + 64 * line) 0 3 h e 0
      exec (.uncorrectableError (.imem h e c img line)) s =
        exec (.pageLoad h c img (line / 64)) (t.updHand h fun x => { x with imem := x.imem.erase (imemKey c img line) })) ∧
    (∀ p ∈ [(ErrLevel.hbm st, st * 64 + pc), (.l1, 2 ^ 16 + pc), (.cluster, 2 * 2 ^ 16 + pc), (.l2, 3 * 2 ^ 16 + pc), (.scratch, 4 * 2 ^ 16 + pc)],
      ∃ t, exec (.correctedError d p.1 pc) s = .next t ∧ { t with dies := s.dies } = s ∧ ∀ k, (t.die d).corrected.getD k 0 =
        (s.die d).corrected.getD k 0 + if k = p.2 then 1 else 0) ∧
    (∀ tm, s.team? ⟨h, slot⟩ = some tm → exec (.registerEccError h slot what) s = .next (fatal s tm.ctx .regEcc
      { engine := match what with | 3 => 2 | 5 => 0 | _ => 1, hand := h, slot := slot, team := tm.teamNo.toNat } 0 (BitVec.ofNat 64 what) 0)) ∧
    (s.team? ⟨h, slot⟩ = none → exec (.registerEccError h slot what) s = .next s)) ∧
  (∀ (s : State) (c : Nat) (x : Ctx), s.ctx? c = some x →
    let back : Prop := x.ckptValid = true ∧ x.rolledBack = false ∧ x.saved ≠ none
    (x.ended = true ∨ back → exec (.fatalRemoval c) s = .next s) ∧ (x.ended = true ∨ ¬back → exec (.rollback c) s = .next s) ∧
    (x.ended = false → ¬back → ∃ t y, exec (.fatalRemoval c) s = .next t ∧ t.ctx? c = some y ∧ y.ended = true ∧ y.images = [] ∧ y.parked = [] ∧
      ∀ p ∈ t.launches, p.2.ctx ≠ c) ∧
    -- what a return needs of the state once the context's agents have stopped
    let fits (v : Saved) (b : Bool) : Prop := let w := stopAll s c
      ∀ u : State, u.teams = w.teams → u.groups = w.groups → u.hands = w.hands → u.dies = w.dies → u.fuse = w.fuse → u.defects = w.defects →
        u.hostMem = w.hostMem → u.fns = w.fns →
        restoreFits u c v = b
    (∀ v, x.ended = false → back → x.saved = some v → fits v false → ∃ t y, exec (.rollback c) s = .next t ∧
      t.ctx? c = some y ∧ y.rolledBack = true ∧ y.ended = false ∧ y.restoring = some (s.errSeq - 1) ∧ teamsOf t c = []) ∧
    (∀ v, x.ended = false → back → x.saved = some v → fits v true → ∃ t y, exec (.rollback c) s = .next t ∧
      t.ctx? c = some y ∧ y.rolledBack = true ∧ y.undo = [] ∧ y.restoring = none ∧ y.ended = false ∧ s.errSeq < t.errSeq ∧
      (y.unresolved = v.unresolved ∧ y.parked = v.parked ∧ ∀ r th, (threadKey r, th) ∈ v.threads → (v.threads.countP fun p => p.1 = threadKey r) = 1 →
        t.thread? r = some { th with holds := [] }))) ∧
  (∀ (s : State) (pasid va len : Nat), ∃ t, exec (.atsInvalidation pasid va len) s = .next t ∧ t.outbox = s.outbox ++ [.atsDone pasid] ∧
    (∀ h, ∀ e ∈ (t.hand h).tlb, (e.host && e.inRange pasid va len) = false) ∧
    (∀ d, ∀ e ∈ (t.die d).tlb, (e.host && e.inRange pasid va len) = false) ∧ t.mem = s.mem ∧ t.caches = s.caches) ∧
  (∀ (s : State) (ag pa : Nat), let n := pa / 65536
    (ownerWrites s ag pa (fun _ => true) = true → exec (.ownershipTransfer ag pa) s = .next s) ∧
    (s.granules.get? n = none → ∃ t k, exec (.ownershipTransfer ag pa) s = .next t ∧ { t with granules := s.granules } = s ∧
      t.granules.get? n = some { owned := true, owner := ag, sub := [], wrote := [subPage pa], order := k }) ∧
    (∀ g, s.granules.get? n = some g → ownerWrites s ag pa (fun _ => true) = false →
      ∃ t, exec (.ownershipTransfer ag pa) s = .next t ∧ NoStore s t ∧ t.granules.get? n = some (g.take ag (subPage pa)) ∧
        (g.passes ag (subPage pa) = none → { t with granules := s.granules } = s))) ∧
  ∀ (s : State) (c img : Nat) (base : W64) (x : Ctx), s.ctx? c = some x → x.ended = false →
    (x.images.get? img ≠ none ∨ exposed s = false → exec (.imageLoad c img base) s = .next s) ∧
    (x.images.get? img = none → exposed s = true → ∃ t y im, exec (.imageLoad c img base) s = .next t ∧ t.ctx? c = some y ∧ y.images.get? img = some im ∧
      im.base = base ∧ im.releasing = false ∧ { y with images := x.images } = x ∧ { t with ctxs := s.ctxs } = s) ∧
    (imageInUse s c img = true → ∃ t y, exec (.imageRelease c img) s = .next t ∧ t.ctx? c = some y ∧
      y.images.get? img = (x.images.get? img).map fun i => { i with releasing := true }) ∧
    (imageInUse s c img = false → ∃ t y, exec (.imageRelease c img) s = .next t ∧ t.ctx? c = some y ∧ y.images.get? img = none ∧
      ∀ h line, line < 2 ^ 26 → lineOf t h c img line = none ∨ x.images.get? img = none)
end

