-- ==== Sys2Proof/Laws/Fields.lean ====
section
/-! SUPPORT. The fields of encoded words: what each field reader gives on the word that an encoding format builds (R59, R61, R63-R65). -/

namespace Sys2Proof

/-- The number that concatenated bits hold. -/
theorem toNat_app {m n : Nat} (x : BitVec m) (y : BitVec n) : (x ++ y).toNat = x.toNat * 2 ^ n + y.toNat := by
  rw [BitVec.toNat_append, ← Nat.shiftLeft_add_eq_or_of_lt y.isLt, Nat.shiftLeft_eq]

/-- The low part of concatenated bits. -/
theorem extract_app_lo {m n : Nat} (x : BitVec m) (y : BitVec n) : (x ++ y).extractLsb' 0 n = y := by
  apply BitVec.eq_of_toNat_eq
  rw [BitVec.extractLsb'_toNat, toNat_app, Nat.shiftRight_zero, Nat.mul_add_mod_of_lt y.isLt]

/-- The number in a field. -/
theorem fld_toNat (w : W32) (lo len : Nat) : (fld w lo len).toNat = w.toNat / 2 ^ lo % 2 ^ len := by
  rw [fld, BitVec.extractLsb'_toNat, Nat.shiftRight_eq_div_pow]

/-- A field holds the bits whose number its place shows. -/
theorem fld_eq {w : W32} {lo len : Nat} {x : BitVec len} (h : w.toNat / 2 ^ lo % 2 ^ len = x.toNat) : fld w lo len = x :=
  BitVec.eq_of_toNat_eq (by rw [fld_toNat, h])

/-- Class CR. -/
theorem encCR_fields (m : BitVec 6) (d a b : BitVec 5) (n : BitVec 11) :
    (encCR m d a b n).toNat / 2 ^ 26 = m.toNat ∧ fld (encCR m d a b n) 21 5 = d ∧ fld (encCR m d a b n) 16 5 = a ∧
      fld (encCR m d a b n) 11 5 = b ∧ fld (encCR m d a b n) 0 11 = n ∧
      (encCR m d a b n).toNat = m.toNat * 2 ^ 26 + d.toNat * 2 ^ 21 + a.toNat * 2 ^ 16 + b.toNat * 2 ^ 11 + n.toNat := by
  have h : (encCR m d a b n).toNat = m.toNat * 2 ^ 26 + d.toNat * 2 ^ 21 + a.toNat * 2 ^ 16 + b.toNat * 2 ^ 11 + n.toNat := by
    have h₁ := toNat_app (m ++ d ++ a ++ b) n
    have h₂ := toNat_app (m ++ d ++ a) b
    have h₃ := toNat_app (m ++ d) a
    have h₄ := toNat_app m d
    refine h₁.trans ?_
    omega
  have := d.isLt; have := a.isLt; have := b.isLt; have := n.isLt
  refine ⟨?_, fld_eq ?_, fld_eq ?_, fld_eq ?_, fld_eq ?_, h⟩ <;> omega

/-- Class CI. -/
theorem encCI_fields (m : BitVec 6) (d a : BitVec 5) (n : BitVec 16) :
    (encCI m d a n).toNat / 2 ^ 26 = m.toNat ∧ fld (encCI m d a n) 21 5 = d ∧ fld (encCI m d a n) 16 5 = a ∧
      fld (encCI m d a n) 0 16 = n ∧
      (encCI m d a n).toNat = m.toNat * 2 ^ 26 + d.toNat * 2 ^ 21 + a.toNat * 2 ^ 16 + n.toNat := by
  have h : (encCI m d a n).toNat = m.toNat * 2 ^ 26 + d.toNat * 2 ^ 21 + a.toNat * 2 ^ 16 + n.toNat := by
    have h₁ := toNat_app (m ++ d ++ a) n
    have h₂ := toNat_app (m ++ d) a
    have h₃ := toNat_app m d
    refine h₁.trans ?_
    omega
  have := d.isLt; have := a.isLt; have := n.isLt
  refine ⟨?_, fld_eq ?_, fld_eq ?_, fld_eq ?_, h⟩ <;> omega

/-- Class CB. -/
theorem encCB_fields (m : BitVec 6) (a b : BitVec 5) (p : BitVec 12) (sl : BitVec 4) :
    (encCB m a b p sl).toNat / 2 ^ 26 = m.toNat ∧ fld (encCB m a b p sl) 21 5 = a ∧ fld (encCB m a b p sl) 16 5 = b ∧
      fld (encCB m a b p sl) 4 12 = p ∧ fld (encCB m a b p sl) 0 4 = sl := by
  have h : (encCB m a b p sl).toNat = m.toNat * 2 ^ 26 + a.toNat * 2 ^ 21 + b.toNat * 2 ^ 16 + p.toNat * 2 ^ 4 + sl.toNat := by
    have h₁ := toNat_app (m ++ a ++ b ++ p) sl
    have h₂ := toNat_app (m ++ a ++ b) p
    have h₃ := toNat_app (m ++ a) b
    have h₄ := toNat_app m a
    refine h₁.trans ?_
    omega
  have := a.isLt; have := b.isLt; have := p.isLt; have := sl.isLt
  refine ⟨?_, fld_eq ?_, fld_eq ?_, fld_eq ?_, fld_eq ?_⟩ <;> omega

/-- Minor bits that hold a function and a scope. -/
theorem encCR_sync (m : BitVec 6) (d a b : BitVec 5) (sc : BitVec 3) (c : BitVec 8) :
    (fld (encCR m d a b (sc ++ c)) 0 8) = c ∧ fld (encCR m d a b (sc ++ c)) 8 3 = sc := by
  have h := (encCR_fields m d a b (sc ++ c)).2.2.2.2.2
  have h' := toNat_app sc c
  have h'' : (sc ++ c : BitVec 11).toNat = sc.toNat * 2 ^ 8 + c.toNat := h'
  have := c.isLt; have := sc.isLt
  refine ⟨fld_eq ?_, fld_eq ?_⟩ <;> omega

/-- The memory word (R63). -/
theorem memOf_encMem (m : MemW) : memOf (encMem m) = m := by
  obtain ⟨o, sc, sp, hi⟩ := m
  have h : (encMem ⟨o, sc, sp, hi⟩).toNat = o.toNat * 2 ^ 8 + sc.toNat * 2 ^ 5 + sp.toNat * 2 ^ 3 + hi.toNat := by
    have h₁ := toNat_app (o ++ sc ++ sp) hi
    have h₂ := toNat_app (o ++ sc) sp
    have h₃ := toNat_app o sc
    refine h₁.trans ?_
    omega
  have := o.isLt; have := sc.isLt; have := sp.isLt; have := hi.isLt
  unfold memOf
  rw [MemW.mk.injEq]
  refine ⟨fld_eq ?_, fld_eq ?_, fld_eq ?_, fld_eq ?_⟩ <;> omega

/-- Word 0 of class CM. -/
theorem encCM_fields (m : BitVec 6) (d a b : BitVec 5) (fn ty : BitVec 4) (x : MemW) :
    ∃ w, encCM m d a b fn ty x = [w, encMem x] ∧ w.toNat / 2 ^ 26 = m.toNat ∧ fld w 21 5 = d ∧ fld w 16 5 = a ∧ fld w 11 5 = b ∧
      fld w 7 4 = fn ∧ fld w 3 4 = ty ∧ fld w 0 3 = 0 := by
  refine ⟨_, rfl, ?_⟩
  have h : (m ++ d ++ a ++ b ++ fn ++ ty ++ (0 : BitVec 3) : W32).toNat =
      m.toNat * 2 ^ 26 + d.toNat * 2 ^ 21 + a.toNat * 2 ^ 16 + b.toNat * 2 ^ 11 + fn.toNat * 2 ^ 7 + ty.toNat * 2 ^ 3 := by
    have h₁ := toNat_app (m ++ d ++ a ++ b ++ fn ++ ty) (0 : BitVec 3)
    have h₂ := toNat_app (m ++ d ++ a ++ b ++ fn) ty
    have h₃ := toNat_app (m ++ d ++ a ++ b) fn
    have h₄ := toNat_app (m ++ d ++ a) b
    have h₅ := toNat_app (m ++ d) a
    have h₆ := toNat_app m d
    have h₇ : (0 : BitVec 3).toNat = 0 := rfl
    refine h₁.trans ?_
    omega
  have := d.isLt; have := a.isLt; have := b.isLt; have := fn.isLt; have := ty.isLt
  have h₇ : (0 : BitVec 3).toNat = 0 := rfl
  refine ⟨?_, fld_eq ?_, fld_eq ?_, fld_eq ?_, fld_eq ?_, fld_eq ?_, fld_eq ?_⟩ <;> omega

/-- The fields of an encoded lane-group instruction (R61). -/
theorem encLane_fields (op : BitVec 8) (f : LaneW) :
    (encLane0 op f).toNat / 2 ^ 24 = op.toNat ∧ laneOf (encLane0 op f) (encLane1 f) = f := by
  obtain ⟨vd, va, vb, vc, g, ng, te, tk, aw, st, ty, rn, sa, ki, o3⟩ := f
  have h : (encLane0 op ⟨vd, va, vb, vc, g, ng, te, tk, aw, st, ty, rn, sa, ki, o3⟩).toNat =
      op.toNat * 2 ^ 24 + vd.toNat * 2 ^ 18 + va.toNat * 2 ^ 12 + vb.toNat * 2 ^ 6 + vc.toNat := by
    have h₁ := toNat_app (op ++ vd ++ va ++ vb) vc
    have h₂ := toNat_app (op ++ vd ++ va) vb
    have h₃ := toNat_app (op ++ vd) va
    have h₄ := toNat_app op vd
    refine h₁.trans ?_
    omega
  have k : (encLane1 ⟨vd, va, vb, vc, g, ng, te, tk, aw, st, ty, rn, sa, ki, o3⟩).toNat =
      g.toNat * 2 ^ 28 + ng.toNat * 2 ^ 27 + te.toNat * 2 ^ 26 + tk.toNat * 2 ^ 23 + aw.toNat * 2 ^ 15 + st.toNat * 2 ^ 12 + ty.toNat * 2 ^ 8 +
        rn.toNat * 2 ^ 6 + sa.toNat * 2 ^ 5 + ki.toNat * 2 ^ 3 + o3.toNat := by
    have h₁ := toNat_app (g ++ ng ++ te ++ tk ++ aw ++ st ++ ty ++ rn ++ sa ++ ki) o3
    have h₂ := toNat_app (g ++ ng ++ te ++ tk ++ aw ++ st ++ ty ++ rn ++ sa) ki
    have h₃ := toNat_app (g ++ ng ++ te ++ tk ++ aw ++ st ++ ty ++ rn) sa
    have h₄ := toNat_app (g ++ ng ++ te ++ tk ++ aw ++ st ++ ty) rn
    have h₅ := toNat_app (g ++ ng ++ te ++ tk ++ aw ++ st) ty
    have h₆ := toNat_app (g ++ ng ++ te ++ tk ++ aw) st
    have h₇ := toNat_app (g ++ ng ++ te ++ tk) aw
    have h₈ := toNat_app (g ++ ng ++ te) tk
    have h₉ := toNat_app (g ++ ng) te
    have h₀ := toNat_app g ng
    refine h₁.trans ?_
    omega
  have := vd.isLt; have := va.isLt; have := vb.isLt; have := vc.isLt; have := g.isLt; have := ng.isLt; have := te.isLt
  have := tk.isLt; have := aw.isLt; have := st.isLt; have := ty.isLt; have := rn.isLt; have := sa.isLt; have := ki.isLt; have := o3.isLt
  refine ⟨by omega, ?_⟩
  unfold laneOf
  rw [LaneW.mk.injEq]
  refine ⟨fld_eq ?_, fld_eq ?_, fld_eq ?_, fld_eq ?_, fld_eq ?_, fld_eq ?_, fld_eq ?_, fld_eq ?_, fld_eq ?_, fld_eq ?_, fld_eq ?_,
    fld_eq ?_, fld_eq ?_, fld_eq ?_, fld_eq ?_⟩ <;> omega

/-- The fields of an encoded matrix-sequencer instruction (R64). -/
theorem encMat_fields (op : BitVec 8) (f : MatW) :
    ∃ w v, encMat op f = [w, v] ∧ w.toNat / 2 ^ 24 = op.toNat ∧ matOf w v = f := by
  refine ⟨_, _, rfl, ?_⟩
  obtain ⟨acc, ra, rb, fmt, bar, be, fl, ti, gr, se, re, im⟩ := f
  dsimp only
  have h : (op ++ acc ++ ra ++ rb ++ fmt ++ bar ++ be ++ fl : W32).toNat =
      op.toNat * 2 ^ 24 + acc.toNat * 2 ^ 19 + ra.toNat * 2 ^ 16 + rb.toNat * 2 ^ 13 + fmt.toNat * 2 ^ 10 + bar.toNat * 2 ^ 5 + be.toNat * 2 ^ 4 +
        fl.toNat := by
    have h₁ := toNat_app (op ++ acc ++ ra ++ rb ++ fmt ++ bar ++ be) fl
    have h₂ := toNat_app (op ++ acc ++ ra ++ rb ++ fmt ++ bar) be
    have h₃ := toNat_app (op ++ acc ++ ra ++ rb ++ fmt) bar
    have h₄ := toNat_app (op ++ acc ++ ra ++ rb) fmt
    have h₅ := toNat_app (op ++ acc ++ ra) rb
    have h₆ := toNat_app (op ++ acc) ra
    have h₇ := toNat_app op acc
    refine h₁.trans ?_
    omega
  have k : (ti ++ gr ++ se ++ re ++ im : W32).toNat = ti.toNat * 2 ^ 26 + gr.toNat * 2 ^ 22 + se.toNat * 2 ^ 20 + re.toNat * 2 ^ 16 + im.toNat := by
    have h₁ := toNat_app (ti ++ gr ++ se ++ re) im
    have h₂ := toNat_app (ti ++ gr ++ se) re
    have h₃ := toNat_app (ti ++ gr) se
    have h₄ := toNat_app ti gr
    refine h₁.trans ?_
    omega
  have := acc.isLt; have := ra.isLt; have := rb.isLt; have := fmt.isLt; have := bar.isLt; have := be.isLt; have := fl.isLt
  have := ti.isLt; have := gr.isLt; have := se.isLt; have := re.isLt; have := im.isLt
  refine ⟨by omega, ?_⟩
  unfold matOf
  rw [MatW.mk.injEq]
  refine ⟨fld_eq ?_, fld_eq ?_, fld_eq ?_, fld_eq ?_, fld_eq ?_, fld_eq ?_, fld_eq ?_, fld_eq ?_, fld_eq ?_, fld_eq ?_, fld_eq ?_,
    fld_eq ?_⟩ <;> omega

/-- The fields of an encoded copy command (R65). -/
theorem encCopy_fields (op : BitVec 8) (f : CopyW) :
    ∃ w v, encCopy op f = [w, v] ∧ w.toNat / 2 ^ 24 = op.toNat ∧ copyOf w v = f := by
  refine ⟨_, _, rfl, ?_⟩
  obtain ⟨tag, bar, be, sc, hi, re, off⟩ := f
  dsimp only
  have h : (op ++ tag ++ bar ++ be ++ sc ++ hi ++ re : W32).toNat =
      op.toNat * 2 ^ 24 + tag.toNat * 2 ^ 16 + bar.toNat * 2 ^ 11 + be.toNat * 2 ^ 10 + sc.toNat * 2 ^ 7 + hi.toNat * 2 ^ 4 + re.toNat := by
    have h₁ := toNat_app (op ++ tag ++ bar ++ be ++ sc ++ hi) re
    have h₂ := toNat_app (op ++ tag ++ bar ++ be ++ sc) hi
    have h₃ := toNat_app (op ++ tag ++ bar ++ be) sc
    have h₄ := toNat_app (op ++ tag ++ bar) be
    have h₅ := toNat_app (op ++ tag) bar
    have h₆ := toNat_app op tag
    refine h₁.trans ?_
    omega
  have := tag.isLt; have := bar.isLt; have := be.isLt; have := sc.isLt; have := hi.isLt; have := re.isLt
  refine ⟨by omega, ?_⟩
  unfold copyOf
  rw [CopyW.mk.injEq]
  refine ⟨fld_eq ?_, fld_eq ?_, fld_eq ?_, fld_eq ?_, fld_eq ?_, fld_eq ?_, rfl⟩ <;> omega

end Sys2Proof
end

