-- ==== Sys2Proof/Laws/State.lean ====
section
/-! SUPPORT. What each named update of the state leaves in each field. -/

namespace Sys2Proof.Machine.State

/-! `updThread` -/

@[simp] theorem updThread_cur (s : State) (r : ThreadRef) (f : Thread → Thread) : (s.updThread r f).cur = s.cur := rfl
@[simp] theorem updThread_agenda (s : State) (r : ThreadRef) (f : Thread → Thread) : (s.updThread r f).agenda = s.agenda := rfl
@[simp] theorem updThread_clock (s : State) (r : ThreadRef) (f : Thread → Thread) : (s.updThread r f).clock = s.clock := rfl
@[simp] theorem updThread_fresh (s : State) (r : ThreadRef) (f : Thread → Thread) : (s.updThread r f).fresh = s.fresh := rfl
@[simp] theorem updThread_mem (s : State) (r : ThreadRef) (f : Thread → Thread) : (s.updThread r f).mem = s.mem := rfl
@[simp] theorem updThread_hostMem (s : State) (r : ThreadRef) (f : Thread → Thread) : (s.updThread r f).hostMem = s.hostMem := rfl
@[simp] theorem updThread_tags (s : State) (r : ThreadRef) (f : Thread → Thread) : (s.updThread r f).tags = s.tags := rfl
@[simp] theorem updThread_poison (s : State) (r : ThreadRef) (f : Thread → Thread) : (s.updThread r f).poison = s.poison := rfl
@[simp] theorem updThread_caches (s : State) (r : ThreadRef) (f : Thread → Thread) : (s.updThread r f).caches = s.caches := rfl
@[simp] theorem updThread_homeL2 (s : State) (r : ThreadRef) (f : Thread → Thread) : (s.updThread r f).homeL2 = s.homeL2 := rfl
@[simp] theorem updThread_waiters (s : State) (r : ThreadRef) (f : Thread → Thread) : (s.updThread r f).waiters = s.waiters := rfl
@[simp] theorem updThread_granules (s : State) (r : ThreadRef) (f : Thread → Thread) : (s.updThread r f).granules = s.granules := rfl
@[simp] theorem updThread_fuse (s : State) (r : ThreadRef) (f : Thread → Thread) : (s.updThread r f).fuse = s.fuse := rfl
@[simp] theorem updThread_defects (s : State) (r : ThreadRef) (f : Thread → Thread) : (s.updThread r f).defects = s.defects := rfl
@[simp] theorem updThread_hands (s : State) (r : ThreadRef) (f : Thread → Thread) : (s.updThread r f).hands = s.hands := rfl
@[simp] theorem updThread_teams (s : State) (r : ThreadRef) (f : Thread → Thread) : (s.updThread r f).teams = s.teams := rfl
@[simp] theorem updThread_threads (s : State) (r : ThreadRef) (f : Thread → Thread) : (s.updThread r f).threads = s.threads.modify (threadKey r) f := rfl
@[simp] theorem updThread_groups (s : State) (r : ThreadRef) (f : Thread → Thread) : (s.updThread r f).groups = s.groups := rfl
@[simp] theorem updThread_dies (s : State) (r : ThreadRef) (f : Thread → Thread) : (s.updThread r f).dies = s.dies := rfl
@[simp] theorem updThread_locks (s : State) (r : ThreadRef) (f : Thread → Thread) : (s.updThread r f).locks = s.locks := rfl
@[simp] theorem updThread_ctxs (s : State) (r : ThreadRef) (f : Thread → Thread) : (s.updThread r f).ctxs = s.ctxs := rfl
@[simp] theorem updThread_queues (s : State) (r : ThreadRef) (f : Thread → Thread) : (s.updThread r f).queues = s.queues := rfl
@[simp] theorem updThread_slots (s : State) (r : ThreadRef) (f : Thread → Thread) : (s.updThread r f).slots = s.slots := rfl
@[simp] theorem updThread_events (s : State) (r : ThreadRef) (f : Thread → Thread) : (s.updThread r f).events = s.events := rfl
@[simp] theorem updThread_unposted (s : State) (r : ThreadRef) (f : Thread → Thread) : (s.updThread r f).unposted = s.unposted := rfl
@[simp] theorem updThread_spill (s : State) (r : ThreadRef) (f : Thread → Thread) : (s.updThread r f).spill = s.spill := rfl
@[simp] theorem updThread_cores (s : State) (r : ThreadRef) (f : Thread → Thread) : (s.updThread r f).cores = s.cores := rfl
@[simp] theorem updThread_quantum (s : State) (r : ThreadRef) (f : Thread → Thread) : (s.updThread r f).quantum = s.quantum := rfl
@[simp] theorem updThread_launches (s : State) (r : ThreadRef) (f : Thread → Thread) : (s.updThread r f).launches = s.launches := rfl
@[simp] theorem updThread_nextLaunch (s : State) (r : ThreadRef) (f : Thread → Thread) : (s.updThread r f).nextLaunch = s.nextLaunch := rfl
@[simp] theorem updThread_waiting (s : State) (r : ThreadRef) (f : Thread → Thread) : (s.updThread r f).waiting = s.waiting := rfl
@[simp] theorem updThread_fns (s : State) (r : ThreadRef) (f : Thread → Thread) : (s.updThread r f).fns = s.fns := rfl
@[simp] theorem updThread_errSeq (s : State) (r : ThreadRef) (f : Thread → Thread) : (s.updThread r f).errSeq = s.errSeq := rfl
@[simp] theorem updThread_hostHeld (s : State) (r : ThreadRef) (f : Thread → Thread) : (s.updThread r f).hostHeld = s.hostHeld := rfl
@[simp] theorem updThread_hostAbsent (s : State) (r : ThreadRef) (f : Thread → Thread) : (s.updThread r f).hostAbsent = s.hostAbsent := rfl
@[simp] theorem updThread_collar (s : State) (r : ThreadRef) (f : Thread → Thread) : (s.updThread r f).collar = s.collar := rfl
@[simp] theorem updThread_weave (s : State) (r : ThreadRef) (f : Thread → Thread) : (s.updThread r f).weave = s.weave := rfl
@[simp] theorem updThread_atsRefused (s : State) (r : ThreadRef) (f : Thread → Thread) : (s.updThread r f).atsRefused = s.atsRefused := rfl
@[simp] theorem updThread_outbox (s : State) (r : ThreadRef) (f : Thread → Thread) : (s.updThread r f).outbox = s.outbox := rfl
@[simp] theorem updThread_team_of (s : State) (r : ThreadRef) (f : Thread → Thread) (q : TeamRef) : (s.updThread r f).team? q = s.team? q := rfl
@[simp] theorem updThread_group_of (s : State) (r : ThreadRef) (f : Thread → Thread) (q : GroupRef) : (s.updThread r f).group? q = s.group? q := rfl
@[simp] theorem updThread_ctx_of (s : State) (r : ThreadRef) (f : Thread → Thread) (q : Nat) : (s.updThread r f).ctx? q = s.ctx? q := rfl
@[simp] theorem updThread_hand_of (s : State) (r : ThreadRef) (f : Thread → Thread) (q : Nat) : (s.updThread r f).hand q = s.hand q := rfl
@[simp] theorem updThread_die_of (s : State) (r : ThreadRef) (f : Thread → Thread) (q : Nat) : (s.updThread r f).die q = s.die q := rfl
@[simp] theorem updThread_fn_of (s : State) (r : ThreadRef) (f : Thread → Thread) (q : Nat) : (s.updThread r f).fn q = s.fn q := rfl

/-! `updTeam` -/

@[simp] theorem updTeam_cur (s : State) (r : TeamRef) (f : Team → Team) : (s.updTeam r f).cur = s.cur := rfl
@[simp] theorem updTeam_agenda (s : State) (r : TeamRef) (f : Team → Team) : (s.updTeam r f).agenda = s.agenda := rfl
@[simp] theorem updTeam_clock (s : State) (r : TeamRef) (f : Team → Team) : (s.updTeam r f).clock = s.clock := rfl
@[simp] theorem updTeam_fresh (s : State) (r : TeamRef) (f : Team → Team) : (s.updTeam r f).fresh = s.fresh := rfl
@[simp] theorem updTeam_mem (s : State) (r : TeamRef) (f : Team → Team) : (s.updTeam r f).mem = s.mem := rfl
@[simp] theorem updTeam_hostMem (s : State) (r : TeamRef) (f : Team → Team) : (s.updTeam r f).hostMem = s.hostMem := rfl
@[simp] theorem updTeam_tags (s : State) (r : TeamRef) (f : Team → Team) : (s.updTeam r f).tags = s.tags := rfl
@[simp] theorem updTeam_poison (s : State) (r : TeamRef) (f : Team → Team) : (s.updTeam r f).poison = s.poison := rfl
@[simp] theorem updTeam_caches (s : State) (r : TeamRef) (f : Team → Team) : (s.updTeam r f).caches = s.caches := rfl
@[simp] theorem updTeam_homeL2 (s : State) (r : TeamRef) (f : Team → Team) : (s.updTeam r f).homeL2 = s.homeL2 := rfl
@[simp] theorem updTeam_waiters (s : State) (r : TeamRef) (f : Team → Team) : (s.updTeam r f).waiters = s.waiters := rfl
@[simp] theorem updTeam_granules (s : State) (r : TeamRef) (f : Team → Team) : (s.updTeam r f).granules = s.granules := rfl
@[simp] theorem updTeam_fuse (s : State) (r : TeamRef) (f : Team → Team) : (s.updTeam r f).fuse = s.fuse := rfl
@[simp] theorem updTeam_defects (s : State) (r : TeamRef) (f : Team → Team) : (s.updTeam r f).defects = s.defects := rfl
@[simp] theorem updTeam_hands (s : State) (r : TeamRef) (f : Team → Team) : (s.updTeam r f).hands = s.hands := rfl
@[simp] theorem updTeam_teams (s : State) (r : TeamRef) (f : Team → Team) : (s.updTeam r f).teams = s.teams.modify (teamKey r) f := rfl
@[simp] theorem updTeam_threads (s : State) (r : TeamRef) (f : Team → Team) : (s.updTeam r f).threads = s.threads := rfl
@[simp] theorem updTeam_groups (s : State) (r : TeamRef) (f : Team → Team) : (s.updTeam r f).groups = s.groups := rfl
@[simp] theorem updTeam_dies (s : State) (r : TeamRef) (f : Team → Team) : (s.updTeam r f).dies = s.dies := rfl
@[simp] theorem updTeam_locks (s : State) (r : TeamRef) (f : Team → Team) : (s.updTeam r f).locks = s.locks := rfl
@[simp] theorem updTeam_ctxs (s : State) (r : TeamRef) (f : Team → Team) : (s.updTeam r f).ctxs = s.ctxs := rfl
@[simp] theorem updTeam_queues (s : State) (r : TeamRef) (f : Team → Team) : (s.updTeam r f).queues = s.queues := rfl
@[simp] theorem updTeam_slots (s : State) (r : TeamRef) (f : Team → Team) : (s.updTeam r f).slots = s.slots := rfl
@[simp] theorem updTeam_events (s : State) (r : TeamRef) (f : Team → Team) : (s.updTeam r f).events = s.events := rfl
@[simp] theorem updTeam_unposted (s : State) (r : TeamRef) (f : Team → Team) : (s.updTeam r f).unposted = s.unposted := rfl
@[simp] theorem updTeam_spill (s : State) (r : TeamRef) (f : Team → Team) : (s.updTeam r f).spill = s.spill := rfl
@[simp] theorem updTeam_cores (s : State) (r : TeamRef) (f : Team → Team) : (s.updTeam r f).cores = s.cores := rfl
@[simp] theorem updTeam_quantum (s : State) (r : TeamRef) (f : Team → Team) : (s.updTeam r f).quantum = s.quantum := rfl
@[simp] theorem updTeam_launches (s : State) (r : TeamRef) (f : Team → Team) : (s.updTeam r f).launches = s.launches := rfl
@[simp] theorem updTeam_nextLaunch (s : State) (r : TeamRef) (f : Team → Team) : (s.updTeam r f).nextLaunch = s.nextLaunch := rfl
@[simp] theorem updTeam_waiting (s : State) (r : TeamRef) (f : Team → Team) : (s.updTeam r f).waiting = s.waiting := rfl
@[simp] theorem updTeam_fns (s : State) (r : TeamRef) (f : Team → Team) : (s.updTeam r f).fns = s.fns := rfl
@[simp] theorem updTeam_errSeq (s : State) (r : TeamRef) (f : Team → Team) : (s.updTeam r f).errSeq = s.errSeq := rfl
@[simp] theorem updTeam_hostHeld (s : State) (r : TeamRef) (f : Team → Team) : (s.updTeam r f).hostHeld = s.hostHeld := rfl
@[simp] theorem updTeam_hostAbsent (s : State) (r : TeamRef) (f : Team → Team) : (s.updTeam r f).hostAbsent = s.hostAbsent := rfl
@[simp] theorem updTeam_collar (s : State) (r : TeamRef) (f : Team → Team) : (s.updTeam r f).collar = s.collar := rfl
@[simp] theorem updTeam_weave (s : State) (r : TeamRef) (f : Team → Team) : (s.updTeam r f).weave = s.weave := rfl
@[simp] theorem updTeam_atsRefused (s : State) (r : TeamRef) (f : Team → Team) : (s.updTeam r f).atsRefused = s.atsRefused := rfl
@[simp] theorem updTeam_outbox (s : State) (r : TeamRef) (f : Team → Team) : (s.updTeam r f).outbox = s.outbox := rfl
@[simp] theorem updTeam_thread_of (s : State) (r : TeamRef) (f : Team → Team) (q : ThreadRef) : (s.updTeam r f).thread? q = s.thread? q := rfl
@[simp] theorem updTeam_group_of (s : State) (r : TeamRef) (f : Team → Team) (q : GroupRef) : (s.updTeam r f).group? q = s.group? q := rfl
@[simp] theorem updTeam_ctx_of (s : State) (r : TeamRef) (f : Team → Team) (q : Nat) : (s.updTeam r f).ctx? q = s.ctx? q := rfl
@[simp] theorem updTeam_hand_of (s : State) (r : TeamRef) (f : Team → Team) (q : Nat) : (s.updTeam r f).hand q = s.hand q := rfl
@[simp] theorem updTeam_die_of (s : State) (r : TeamRef) (f : Team → Team) (q : Nat) : (s.updTeam r f).die q = s.die q := rfl
@[simp] theorem updTeam_fn_of (s : State) (r : TeamRef) (f : Team → Team) (q : Nat) : (s.updTeam r f).fn q = s.fn q := rfl

/-! `updGroup` -/

@[simp] theorem updGroup_cur (s : State) (r : GroupRef) (f : Group → Group) : (s.updGroup r f).cur = s.cur := rfl
@[simp] theorem updGroup_agenda (s : State) (r : GroupRef) (f : Group → Group) : (s.updGroup r f).agenda = s.agenda := rfl
@[simp] theorem updGroup_clock (s : State) (r : GroupRef) (f : Group → Group) : (s.updGroup r f).clock = s.clock := rfl
@[simp] theorem updGroup_fresh (s : State) (r : GroupRef) (f : Group → Group) : (s.updGroup r f).fresh = s.fresh := rfl
@[simp] theorem updGroup_mem (s : State) (r : GroupRef) (f : Group → Group) : (s.updGroup r f).mem = s.mem := rfl
@[simp] theorem updGroup_hostMem (s : State) (r : GroupRef) (f : Group → Group) : (s.updGroup r f).hostMem = s.hostMem := rfl
@[simp] theorem updGroup_tags (s : State) (r : GroupRef) (f : Group → Group) : (s.updGroup r f).tags = s.tags := rfl
@[simp] theorem updGroup_poison (s : State) (r : GroupRef) (f : Group → Group) : (s.updGroup r f).poison = s.poison := rfl
@[simp] theorem updGroup_caches (s : State) (r : GroupRef) (f : Group → Group) : (s.updGroup r f).caches = s.caches := rfl
@[simp] theorem updGroup_homeL2 (s : State) (r : GroupRef) (f : Group → Group) : (s.updGroup r f).homeL2 = s.homeL2 := rfl
@[simp] theorem updGroup_waiters (s : State) (r : GroupRef) (f : Group → Group) : (s.updGroup r f).waiters = s.waiters := rfl
@[simp] theorem updGroup_granules (s : State) (r : GroupRef) (f : Group → Group) : (s.updGroup r f).granules = s.granules := rfl
@[simp] theorem updGroup_fuse (s : State) (r : GroupRef) (f : Group → Group) : (s.updGroup r f).fuse = s.fuse := rfl
@[simp] theorem updGroup_defects (s : State) (r : GroupRef) (f : Group → Group) : (s.updGroup r f).defects = s.defects := rfl
@[simp] theorem updGroup_hands (s : State) (r : GroupRef) (f : Group → Group) : (s.updGroup r f).hands = s.hands := rfl
@[simp] theorem updGroup_teams (s : State) (r : GroupRef) (f : Group → Group) : (s.updGroup r f).teams = s.teams := rfl
@[simp] theorem updGroup_threads (s : State) (r : GroupRef) (f : Group → Group) : (s.updGroup r f).threads = s.threads := rfl
@[simp] theorem updGroup_groups (s : State) (r : GroupRef) (f : Group → Group) : (s.updGroup r f).groups = s.groups.modify (groupKey r) f := rfl
@[simp] theorem updGroup_dies (s : State) (r : GroupRef) (f : Group → Group) : (s.updGroup r f).dies = s.dies := rfl
@[simp] theorem updGroup_locks (s : State) (r : GroupRef) (f : Group → Group) : (s.updGroup r f).locks = s.locks := rfl
@[simp] theorem updGroup_ctxs (s : State) (r : GroupRef) (f : Group → Group) : (s.updGroup r f).ctxs = s.ctxs := rfl
@[simp] theorem updGroup_queues (s : State) (r : GroupRef) (f : Group → Group) : (s.updGroup r f).queues = s.queues := rfl
@[simp] theorem updGroup_slots (s : State) (r : GroupRef) (f : Group → Group) : (s.updGroup r f).slots = s.slots := rfl
@[simp] theorem updGroup_events (s : State) (r : GroupRef) (f : Group → Group) : (s.updGroup r f).events = s.events := rfl
@[simp] theorem updGroup_unposted (s : State) (r : GroupRef) (f : Group → Group) : (s.updGroup r f).unposted = s.unposted := rfl
@[simp] theorem updGroup_spill (s : State) (r : GroupRef) (f : Group → Group) : (s.updGroup r f).spill = s.spill := rfl
@[simp] theorem updGroup_cores (s : State) (r : GroupRef) (f : Group → Group) : (s.updGroup r f).cores = s.cores := rfl
@[simp] theorem updGroup_quantum (s : State) (r : GroupRef) (f : Group → Group) : (s.updGroup r f).quantum = s.quantum := rfl
@[simp] theorem updGroup_launches (s : State) (r : GroupRef) (f : Group → Group) : (s.updGroup r f).launches = s.launches := rfl
@[simp] theorem updGroup_nextLaunch (s : State) (r : GroupRef) (f : Group → Group) : (s.updGroup r f).nextLaunch = s.nextLaunch := rfl
@[simp] theorem updGroup_waiting (s : State) (r : GroupRef) (f : Group → Group) : (s.updGroup r f).waiting = s.waiting := rfl
@[simp] theorem updGroup_fns (s : State) (r : GroupRef) (f : Group → Group) : (s.updGroup r f).fns = s.fns := rfl
@[simp] theorem updGroup_errSeq (s : State) (r : GroupRef) (f : Group → Group) : (s.updGroup r f).errSeq = s.errSeq := rfl
@[simp] theorem updGroup_hostHeld (s : State) (r : GroupRef) (f : Group → Group) : (s.updGroup r f).hostHeld = s.hostHeld := rfl
@[simp] theorem updGroup_hostAbsent (s : State) (r : GroupRef) (f : Group → Group) : (s.updGroup r f).hostAbsent = s.hostAbsent := rfl
@[simp] theorem updGroup_collar (s : State) (r : GroupRef) (f : Group → Group) : (s.updGroup r f).collar = s.collar := rfl
@[simp] theorem updGroup_weave (s : State) (r : GroupRef) (f : Group → Group) : (s.updGroup r f).weave = s.weave := rfl
@[simp] theorem updGroup_atsRefused (s : State) (r : GroupRef) (f : Group → Group) : (s.updGroup r f).atsRefused = s.atsRefused := rfl
@[simp] theorem updGroup_outbox (s : State) (r : GroupRef) (f : Group → Group) : (s.updGroup r f).outbox = s.outbox := rfl
@[simp] theorem updGroup_thread_of (s : State) (r : GroupRef) (f : Group → Group) (q : ThreadRef) : (s.updGroup r f).thread? q = s.thread? q := rfl
@[simp] theorem updGroup_team_of (s : State) (r : GroupRef) (f : Group → Group) (q : TeamRef) : (s.updGroup r f).team? q = s.team? q := rfl
@[simp] theorem updGroup_ctx_of (s : State) (r : GroupRef) (f : Group → Group) (q : Nat) : (s.updGroup r f).ctx? q = s.ctx? q := rfl
@[simp] theorem updGroup_hand_of (s : State) (r : GroupRef) (f : Group → Group) (q : Nat) : (s.updGroup r f).hand q = s.hand q := rfl
@[simp] theorem updGroup_die_of (s : State) (r : GroupRef) (f : Group → Group) (q : Nat) : (s.updGroup r f).die q = s.die q := rfl
@[simp] theorem updGroup_fn_of (s : State) (r : GroupRef) (f : Group → Group) (q : Nat) : (s.updGroup r f).fn q = s.fn q := rfl

/-! `updHand` -/

@[simp] theorem updHand_cur (s : State) (n : Nat) (f : Hand → Hand) : (s.updHand n f).cur = s.cur := rfl
@[simp] theorem updHand_agenda (s : State) (n : Nat) (f : Hand → Hand) : (s.updHand n f).agenda = s.agenda := rfl
@[simp] theorem updHand_clock (s : State) (n : Nat) (f : Hand → Hand) : (s.updHand n f).clock = s.clock := rfl
@[simp] theorem updHand_fresh (s : State) (n : Nat) (f : Hand → Hand) : (s.updHand n f).fresh = s.fresh := rfl
@[simp] theorem updHand_mem (s : State) (n : Nat) (f : Hand → Hand) : (s.updHand n f).mem = s.mem := rfl
@[simp] theorem updHand_hostMem (s : State) (n : Nat) (f : Hand → Hand) : (s.updHand n f).hostMem = s.hostMem := rfl
@[simp] theorem updHand_tags (s : State) (n : Nat) (f : Hand → Hand) : (s.updHand n f).tags = s.tags := rfl
@[simp] theorem updHand_poison (s : State) (n : Nat) (f : Hand → Hand) : (s.updHand n f).poison = s.poison := rfl
@[simp] theorem updHand_caches (s : State) (n : Nat) (f : Hand → Hand) : (s.updHand n f).caches = s.caches := rfl
@[simp] theorem updHand_homeL2 (s : State) (n : Nat) (f : Hand → Hand) : (s.updHand n f).homeL2 = s.homeL2 := rfl
@[simp] theorem updHand_waiters (s : State) (n : Nat) (f : Hand → Hand) : (s.updHand n f).waiters = s.waiters := rfl
@[simp] theorem updHand_granules (s : State) (n : Nat) (f : Hand → Hand) : (s.updHand n f).granules = s.granules := rfl
@[simp] theorem updHand_fuse (s : State) (n : Nat) (f : Hand → Hand) : (s.updHand n f).fuse = s.fuse := rfl
@[simp] theorem updHand_defects (s : State) (n : Nat) (f : Hand → Hand) : (s.updHand n f).defects = s.defects := rfl
@[simp] theorem updHand_hands (s : State) (n : Nat) (f : Hand → Hand) : (s.updHand n f).hands = s.hands.set n (f (s.hand n)) := rfl
@[simp] theorem updHand_teams (s : State) (n : Nat) (f : Hand → Hand) : (s.updHand n f).teams = s.teams := rfl
@[simp] theorem updHand_threads (s : State) (n : Nat) (f : Hand → Hand) : (s.updHand n f).threads = s.threads := rfl
@[simp] theorem updHand_groups (s : State) (n : Nat) (f : Hand → Hand) : (s.updHand n f).groups = s.groups := rfl
@[simp] theorem updHand_dies (s : State) (n : Nat) (f : Hand → Hand) : (s.updHand n f).dies = s.dies := rfl
@[simp] theorem updHand_locks (s : State) (n : Nat) (f : Hand → Hand) : (s.updHand n f).locks = s.locks := rfl
@[simp] theorem updHand_ctxs (s : State) (n : Nat) (f : Hand → Hand) : (s.updHand n f).ctxs = s.ctxs := rfl
@[simp] theorem updHand_queues (s : State) (n : Nat) (f : Hand → Hand) : (s.updHand n f).queues = s.queues := rfl
@[simp] theorem updHand_slots (s : State) (n : Nat) (f : Hand → Hand) : (s.updHand n f).slots = s.slots := rfl
@[simp] theorem updHand_events (s : State) (n : Nat) (f : Hand → Hand) : (s.updHand n f).events = s.events := rfl
@[simp] theorem updHand_unposted (s : State) (n : Nat) (f : Hand → Hand) : (s.updHand n f).unposted = s.unposted := rfl
@[simp] theorem updHand_spill (s : State) (n : Nat) (f : Hand → Hand) : (s.updHand n f).spill = s.spill := rfl
@[simp] theorem updHand_cores (s : State) (n : Nat) (f : Hand → Hand) : (s.updHand n f).cores = s.cores := rfl
@[simp] theorem updHand_quantum (s : State) (n : Nat) (f : Hand → Hand) : (s.updHand n f).quantum = s.quantum := rfl
@[simp] theorem updHand_launches (s : State) (n : Nat) (f : Hand → Hand) : (s.updHand n f).launches = s.launches := rfl
@[simp] theorem updHand_nextLaunch (s : State) (n : Nat) (f : Hand → Hand) : (s.updHand n f).nextLaunch = s.nextLaunch := rfl
@[simp] theorem updHand_waiting (s : State) (n : Nat) (f : Hand → Hand) : (s.updHand n f).waiting = s.waiting := rfl
@[simp] theorem updHand_fns (s : State) (n : Nat) (f : Hand → Hand) : (s.updHand n f).fns = s.fns := rfl
@[simp] theorem updHand_errSeq (s : State) (n : Nat) (f : Hand → Hand) : (s.updHand n f).errSeq = s.errSeq := rfl
@[simp] theorem updHand_hostHeld (s : State) (n : Nat) (f : Hand → Hand) : (s.updHand n f).hostHeld = s.hostHeld := rfl
@[simp] theorem updHand_hostAbsent (s : State) (n : Nat) (f : Hand → Hand) : (s.updHand n f).hostAbsent = s.hostAbsent := rfl
@[simp] theorem updHand_collar (s : State) (n : Nat) (f : Hand → Hand) : (s.updHand n f).collar = s.collar := rfl
@[simp] theorem updHand_weave (s : State) (n : Nat) (f : Hand → Hand) : (s.updHand n f).weave = s.weave := rfl
@[simp] theorem updHand_atsRefused (s : State) (n : Nat) (f : Hand → Hand) : (s.updHand n f).atsRefused = s.atsRefused := rfl
@[simp] theorem updHand_outbox (s : State) (n : Nat) (f : Hand → Hand) : (s.updHand n f).outbox = s.outbox := rfl
@[simp] theorem updHand_thread_of (s : State) (n : Nat) (f : Hand → Hand) (q : ThreadRef) : (s.updHand n f).thread? q = s.thread? q := rfl
@[simp] theorem updHand_team_of (s : State) (n : Nat) (f : Hand → Hand) (q : TeamRef) : (s.updHand n f).team? q = s.team? q := rfl
@[simp] theorem updHand_group_of (s : State) (n : Nat) (f : Hand → Hand) (q : GroupRef) : (s.updHand n f).group? q = s.group? q := rfl
@[simp] theorem updHand_ctx_of (s : State) (n : Nat) (f : Hand → Hand) (q : Nat) : (s.updHand n f).ctx? q = s.ctx? q := rfl
@[simp] theorem updHand_die_of (s : State) (n : Nat) (f : Hand → Hand) (q : Nat) : (s.updHand n f).die q = s.die q := rfl
@[simp] theorem updHand_fn_of (s : State) (n : Nat) (f : Hand → Hand) (q : Nat) : (s.updHand n f).fn q = s.fn q := rfl

/-! `updDie` -/

@[simp] theorem updDie_cur (s : State) (n : Nat) (f : Die → Die) : (s.updDie n f).cur = s.cur := rfl
@[simp] theorem updDie_agenda (s : State) (n : Nat) (f : Die → Die) : (s.updDie n f).agenda = s.agenda := rfl
@[simp] theorem updDie_clock (s : State) (n : Nat) (f : Die → Die) : (s.updDie n f).clock = s.clock := rfl
@[simp] theorem updDie_fresh (s : State) (n : Nat) (f : Die → Die) : (s.updDie n f).fresh = s.fresh := rfl
@[simp] theorem updDie_mem (s : State) (n : Nat) (f : Die → Die) : (s.updDie n f).mem = s.mem := rfl
@[simp] theorem updDie_hostMem (s : State) (n : Nat) (f : Die → Die) : (s.updDie n f).hostMem = s.hostMem := rfl
@[simp] theorem updDie_tags (s : State) (n : Nat) (f : Die → Die) : (s.updDie n f).tags = s.tags := rfl
@[simp] theorem updDie_poison (s : State) (n : Nat) (f : Die → Die) : (s.updDie n f).poison = s.poison := rfl
@[simp] theorem updDie_caches (s : State) (n : Nat) (f : Die → Die) : (s.updDie n f).caches = s.caches := rfl
@[simp] theorem updDie_homeL2 (s : State) (n : Nat) (f : Die → Die) : (s.updDie n f).homeL2 = s.homeL2 := rfl
@[simp] theorem updDie_waiters (s : State) (n : Nat) (f : Die → Die) : (s.updDie n f).waiters = s.waiters := rfl
@[simp] theorem updDie_granules (s : State) (n : Nat) (f : Die → Die) : (s.updDie n f).granules = s.granules := rfl
@[simp] theorem updDie_fuse (s : State) (n : Nat) (f : Die → Die) : (s.updDie n f).fuse = s.fuse := rfl
@[simp] theorem updDie_defects (s : State) (n : Nat) (f : Die → Die) : (s.updDie n f).defects = s.defects := rfl
@[simp] theorem updDie_hands (s : State) (n : Nat) (f : Die → Die) : (s.updDie n f).hands = s.hands := rfl
@[simp] theorem updDie_teams (s : State) (n : Nat) (f : Die → Die) : (s.updDie n f).teams = s.teams := rfl
@[simp] theorem updDie_threads (s : State) (n : Nat) (f : Die → Die) : (s.updDie n f).threads = s.threads := rfl
@[simp] theorem updDie_groups (s : State) (n : Nat) (f : Die → Die) : (s.updDie n f).groups = s.groups := rfl
@[simp] theorem updDie_dies (s : State) (n : Nat) (f : Die → Die) : (s.updDie n f).dies = s.dies.set n (f (s.die n)) := rfl
@[simp] theorem updDie_locks (s : State) (n : Nat) (f : Die → Die) : (s.updDie n f).locks = s.locks := rfl
@[simp] theorem updDie_ctxs (s : State) (n : Nat) (f : Die → Die) : (s.updDie n f).ctxs = s.ctxs := rfl
@[simp] theorem updDie_queues (s : State) (n : Nat) (f : Die → Die) : (s.updDie n f).queues = s.queues := rfl
@[simp] theorem updDie_slots (s : State) (n : Nat) (f : Die → Die) : (s.updDie n f).slots = s.slots := rfl
@[simp] theorem updDie_events (s : State) (n : Nat) (f : Die → Die) : (s.updDie n f).events = s.events := rfl
@[simp] theorem updDie_unposted (s : State) (n : Nat) (f : Die → Die) : (s.updDie n f).unposted = s.unposted := rfl
@[simp] theorem updDie_spill (s : State) (n : Nat) (f : Die → Die) : (s.updDie n f).spill = s.spill := rfl
@[simp] theorem updDie_cores (s : State) (n : Nat) (f : Die → Die) : (s.updDie n f).cores = s.cores := rfl
@[simp] theorem updDie_quantum (s : State) (n : Nat) (f : Die → Die) : (s.updDie n f).quantum = s.quantum := rfl
@[simp] theorem updDie_launches (s : State) (n : Nat) (f : Die → Die) : (s.updDie n f).launches = s.launches := rfl
@[simp] theorem updDie_nextLaunch (s : State) (n : Nat) (f : Die → Die) : (s.updDie n f).nextLaunch = s.nextLaunch := rfl
@[simp] theorem updDie_waiting (s : State) (n : Nat) (f : Die → Die) : (s.updDie n f).waiting = s.waiting := rfl
@[simp] theorem updDie_fns (s : State) (n : Nat) (f : Die → Die) : (s.updDie n f).fns = s.fns := rfl
@[simp] theorem updDie_errSeq (s : State) (n : Nat) (f : Die → Die) : (s.updDie n f).errSeq = s.errSeq := rfl
@[simp] theorem updDie_hostHeld (s : State) (n : Nat) (f : Die → Die) : (s.updDie n f).hostHeld = s.hostHeld := rfl
@[simp] theorem updDie_hostAbsent (s : State) (n : Nat) (f : Die → Die) : (s.updDie n f).hostAbsent = s.hostAbsent := rfl
@[simp] theorem updDie_collar (s : State) (n : Nat) (f : Die → Die) : (s.updDie n f).collar = s.collar := rfl
@[simp] theorem updDie_weave (s : State) (n : Nat) (f : Die → Die) : (s.updDie n f).weave = s.weave := rfl
@[simp] theorem updDie_atsRefused (s : State) (n : Nat) (f : Die → Die) : (s.updDie n f).atsRefused = s.atsRefused := rfl
@[simp] theorem updDie_outbox (s : State) (n : Nat) (f : Die → Die) : (s.updDie n f).outbox = s.outbox := rfl
@[simp] theorem updDie_thread_of (s : State) (n : Nat) (f : Die → Die) (q : ThreadRef) : (s.updDie n f).thread? q = s.thread? q := rfl
@[simp] theorem updDie_team_of (s : State) (n : Nat) (f : Die → Die) (q : TeamRef) : (s.updDie n f).team? q = s.team? q := rfl
@[simp] theorem updDie_group_of (s : State) (n : Nat) (f : Die → Die) (q : GroupRef) : (s.updDie n f).group? q = s.group? q := rfl
@[simp] theorem updDie_ctx_of (s : State) (n : Nat) (f : Die → Die) (q : Nat) : (s.updDie n f).ctx? q = s.ctx? q := rfl
@[simp] theorem updDie_hand_of (s : State) (n : Nat) (f : Die → Die) (q : Nat) : (s.updDie n f).hand q = s.hand q := rfl
@[simp] theorem updDie_fn_of (s : State) (n : Nat) (f : Die → Die) (q : Nat) : (s.updDie n f).fn q = s.fn q := rfl

/-! `updFn` -/

@[simp] theorem updFn_cur (s : State) (n : Nat) (f : Fn → Fn) : (s.updFn n f).cur = s.cur := rfl
@[simp] theorem updFn_agenda (s : State) (n : Nat) (f : Fn → Fn) : (s.updFn n f).agenda = s.agenda := rfl
@[simp] theorem updFn_clock (s : State) (n : Nat) (f : Fn → Fn) : (s.updFn n f).clock = s.clock := rfl
@[simp] theorem updFn_fresh (s : State) (n : Nat) (f : Fn → Fn) : (s.updFn n f).fresh = s.fresh := rfl
@[simp] theorem updFn_mem (s : State) (n : Nat) (f : Fn → Fn) : (s.updFn n f).mem = s.mem := rfl
@[simp] theorem updFn_hostMem (s : State) (n : Nat) (f : Fn → Fn) : (s.updFn n f).hostMem = s.hostMem := rfl
@[simp] theorem updFn_tags (s : State) (n : Nat) (f : Fn → Fn) : (s.updFn n f).tags = s.tags := rfl
@[simp] theorem updFn_poison (s : State) (n : Nat) (f : Fn → Fn) : (s.updFn n f).poison = s.poison := rfl
@[simp] theorem updFn_caches (s : State) (n : Nat) (f : Fn → Fn) : (s.updFn n f).caches = s.caches := rfl
@[simp] theorem updFn_homeL2 (s : State) (n : Nat) (f : Fn → Fn) : (s.updFn n f).homeL2 = s.homeL2 := rfl
@[simp] theorem updFn_waiters (s : State) (n : Nat) (f : Fn → Fn) : (s.updFn n f).waiters = s.waiters := rfl
@[simp] theorem updFn_granules (s : State) (n : Nat) (f : Fn → Fn) : (s.updFn n f).granules = s.granules := rfl
@[simp] theorem updFn_fuse (s : State) (n : Nat) (f : Fn → Fn) : (s.updFn n f).fuse = s.fuse := rfl
@[simp] theorem updFn_defects (s : State) (n : Nat) (f : Fn → Fn) : (s.updFn n f).defects = s.defects := rfl
@[simp] theorem updFn_hands (s : State) (n : Nat) (f : Fn → Fn) : (s.updFn n f).hands = s.hands := rfl
@[simp] theorem updFn_teams (s : State) (n : Nat) (f : Fn → Fn) : (s.updFn n f).teams = s.teams := rfl
@[simp] theorem updFn_threads (s : State) (n : Nat) (f : Fn → Fn) : (s.updFn n f).threads = s.threads := rfl
@[simp] theorem updFn_groups (s : State) (n : Nat) (f : Fn → Fn) : (s.updFn n f).groups = s.groups := rfl
@[simp] theorem updFn_dies (s : State) (n : Nat) (f : Fn → Fn) : (s.updFn n f).dies = s.dies := rfl
@[simp] theorem updFn_locks (s : State) (n : Nat) (f : Fn → Fn) : (s.updFn n f).locks = s.locks := rfl
@[simp] theorem updFn_ctxs (s : State) (n : Nat) (f : Fn → Fn) : (s.updFn n f).ctxs = s.ctxs := rfl
@[simp] theorem updFn_queues (s : State) (n : Nat) (f : Fn → Fn) : (s.updFn n f).queues = s.queues := rfl
@[simp] theorem updFn_slots (s : State) (n : Nat) (f : Fn → Fn) : (s.updFn n f).slots = s.slots := rfl
@[simp] theorem updFn_events (s : State) (n : Nat) (f : Fn → Fn) : (s.updFn n f).events = s.events := rfl
@[simp] theorem updFn_unposted (s : State) (n : Nat) (f : Fn → Fn) : (s.updFn n f).unposted = s.unposted := rfl
@[simp] theorem updFn_spill (s : State) (n : Nat) (f : Fn → Fn) : (s.updFn n f).spill = s.spill := rfl
@[simp] theorem updFn_cores (s : State) (n : Nat) (f : Fn → Fn) : (s.updFn n f).cores = s.cores := rfl
@[simp] theorem updFn_quantum (s : State) (n : Nat) (f : Fn → Fn) : (s.updFn n f).quantum = s.quantum := rfl
@[simp] theorem updFn_launches (s : State) (n : Nat) (f : Fn → Fn) : (s.updFn n f).launches = s.launches := rfl
@[simp] theorem updFn_nextLaunch (s : State) (n : Nat) (f : Fn → Fn) : (s.updFn n f).nextLaunch = s.nextLaunch := rfl
@[simp] theorem updFn_waiting (s : State) (n : Nat) (f : Fn → Fn) : (s.updFn n f).waiting = s.waiting := rfl
@[simp] theorem updFn_fns (s : State) (n : Nat) (f : Fn → Fn) : (s.updFn n f).fns = s.fns.set n (f (s.fn n)) := rfl
@[simp] theorem updFn_errSeq (s : State) (n : Nat) (f : Fn → Fn) : (s.updFn n f).errSeq = s.errSeq := rfl
@[simp] theorem updFn_hostHeld (s : State) (n : Nat) (f : Fn → Fn) : (s.updFn n f).hostHeld = s.hostHeld := rfl
@[simp] theorem updFn_hostAbsent (s : State) (n : Nat) (f : Fn → Fn) : (s.updFn n f).hostAbsent = s.hostAbsent := rfl
@[simp] theorem updFn_collar (s : State) (n : Nat) (f : Fn → Fn) : (s.updFn n f).collar = s.collar := rfl
@[simp] theorem updFn_weave (s : State) (n : Nat) (f : Fn → Fn) : (s.updFn n f).weave = s.weave := rfl
@[simp] theorem updFn_atsRefused (s : State) (n : Nat) (f : Fn → Fn) : (s.updFn n f).atsRefused = s.atsRefused := rfl
@[simp] theorem updFn_outbox (s : State) (n : Nat) (f : Fn → Fn) : (s.updFn n f).outbox = s.outbox := rfl
@[simp] theorem updFn_thread_of (s : State) (n : Nat) (f : Fn → Fn) (q : ThreadRef) : (s.updFn n f).thread? q = s.thread? q := rfl
@[simp] theorem updFn_team_of (s : State) (n : Nat) (f : Fn → Fn) (q : TeamRef) : (s.updFn n f).team? q = s.team? q := rfl
@[simp] theorem updFn_group_of (s : State) (n : Nat) (f : Fn → Fn) (q : GroupRef) : (s.updFn n f).group? q = s.group? q := rfl
@[simp] theorem updFn_ctx_of (s : State) (n : Nat) (f : Fn → Fn) (q : Nat) : (s.updFn n f).ctx? q = s.ctx? q := rfl
@[simp] theorem updFn_hand_of (s : State) (n : Nat) (f : Fn → Fn) (q : Nat) : (s.updFn n f).hand q = s.hand q := rfl
@[simp] theorem updFn_die_of (s : State) (n : Nat) (f : Fn → Fn) (q : Nat) : (s.updFn n f).die q = s.die q := rfl

/-! `updCtx` -/

@[simp] theorem updCtx_cur (s : State) (n : Nat) (f : Ctx → Ctx) : (s.updCtx n f).cur = s.cur := rfl
@[simp] theorem updCtx_agenda (s : State) (n : Nat) (f : Ctx → Ctx) : (s.updCtx n f).agenda = s.agenda := rfl
@[simp] theorem updCtx_clock (s : State) (n : Nat) (f : Ctx → Ctx) : (s.updCtx n f).clock = s.clock := rfl
@[simp] theorem updCtx_fresh (s : State) (n : Nat) (f : Ctx → Ctx) : (s.updCtx n f).fresh = s.fresh := rfl
@[simp] theorem updCtx_mem (s : State) (n : Nat) (f : Ctx → Ctx) : (s.updCtx n f).mem = s.mem := rfl
@[simp] theorem updCtx_hostMem (s : State) (n : Nat) (f : Ctx → Ctx) : (s.updCtx n f).hostMem = s.hostMem := rfl
@[simp] theorem updCtx_tags (s : State) (n : Nat) (f : Ctx → Ctx) : (s.updCtx n f).tags = s.tags := rfl
@[simp] theorem updCtx_poison (s : State) (n : Nat) (f : Ctx → Ctx) : (s.updCtx n f).poison = s.poison := rfl
@[simp] theorem updCtx_caches (s : State) (n : Nat) (f : Ctx → Ctx) : (s.updCtx n f).caches = s.caches := rfl
@[simp] theorem updCtx_homeL2 (s : State) (n : Nat) (f : Ctx → Ctx) : (s.updCtx n f).homeL2 = s.homeL2 := rfl
@[simp] theorem updCtx_waiters (s : State) (n : Nat) (f : Ctx → Ctx) : (s.updCtx n f).waiters = s.waiters := rfl
@[simp] theorem updCtx_granules (s : State) (n : Nat) (f : Ctx → Ctx) : (s.updCtx n f).granules = s.granules := rfl
@[simp] theorem updCtx_fuse (s : State) (n : Nat) (f : Ctx → Ctx) : (s.updCtx n f).fuse = s.fuse := rfl
@[simp] theorem updCtx_defects (s : State) (n : Nat) (f : Ctx → Ctx) : (s.updCtx n f).defects = s.defects := rfl
@[simp] theorem updCtx_hands (s : State) (n : Nat) (f : Ctx → Ctx) : (s.updCtx n f).hands = s.hands := rfl
@[simp] theorem updCtx_teams (s : State) (n : Nat) (f : Ctx → Ctx) : (s.updCtx n f).teams = s.teams := rfl
@[simp] theorem updCtx_threads (s : State) (n : Nat) (f : Ctx → Ctx) : (s.updCtx n f).threads = s.threads := rfl
@[simp] theorem updCtx_groups (s : State) (n : Nat) (f : Ctx → Ctx) : (s.updCtx n f).groups = s.groups := rfl
@[simp] theorem updCtx_dies (s : State) (n : Nat) (f : Ctx → Ctx) : (s.updCtx n f).dies = s.dies := rfl
@[simp] theorem updCtx_locks (s : State) (n : Nat) (f : Ctx → Ctx) : (s.updCtx n f).locks = s.locks := rfl
@[simp] theorem updCtx_ctxs (s : State) (n : Nat) (f : Ctx → Ctx) : (s.updCtx n f).ctxs = s.ctxs.modify n f := rfl
@[simp] theorem updCtx_queues (s : State) (n : Nat) (f : Ctx → Ctx) : (s.updCtx n f).queues = s.queues := rfl
@[simp] theorem updCtx_slots (s : State) (n : Nat) (f : Ctx → Ctx) : (s.updCtx n f).slots = s.slots := rfl
@[simp] theorem updCtx_events (s : State) (n : Nat) (f : Ctx → Ctx) : (s.updCtx n f).events = s.events := rfl
@[simp] theorem updCtx_unposted (s : State) (n : Nat) (f : Ctx → Ctx) : (s.updCtx n f).unposted = s.unposted := rfl
@[simp] theorem updCtx_spill (s : State) (n : Nat) (f : Ctx → Ctx) : (s.updCtx n f).spill = s.spill := rfl
@[simp] theorem updCtx_cores (s : State) (n : Nat) (f : Ctx → Ctx) : (s.updCtx n f).cores = s.cores := rfl
@[simp] theorem updCtx_quantum (s : State) (n : Nat) (f : Ctx → Ctx) : (s.updCtx n f).quantum = s.quantum := rfl
@[simp] theorem updCtx_launches (s : State) (n : Nat) (f : Ctx → Ctx) : (s.updCtx n f).launches = s.launches := rfl
@[simp] theorem updCtx_nextLaunch (s : State) (n : Nat) (f : Ctx → Ctx) : (s.updCtx n f).nextLaunch = s.nextLaunch := rfl
@[simp] theorem updCtx_waiting (s : State) (n : Nat) (f : Ctx → Ctx) : (s.updCtx n f).waiting = s.waiting := rfl
@[simp] theorem updCtx_fns (s : State) (n : Nat) (f : Ctx → Ctx) : (s.updCtx n f).fns = s.fns := rfl
@[simp] theorem updCtx_errSeq (s : State) (n : Nat) (f : Ctx → Ctx) : (s.updCtx n f).errSeq = s.errSeq := rfl
@[simp] theorem updCtx_hostHeld (s : State) (n : Nat) (f : Ctx → Ctx) : (s.updCtx n f).hostHeld = s.hostHeld := rfl
@[simp] theorem updCtx_hostAbsent (s : State) (n : Nat) (f : Ctx → Ctx) : (s.updCtx n f).hostAbsent = s.hostAbsent := rfl
@[simp] theorem updCtx_collar (s : State) (n : Nat) (f : Ctx → Ctx) : (s.updCtx n f).collar = s.collar := rfl
@[simp] theorem updCtx_weave (s : State) (n : Nat) (f : Ctx → Ctx) : (s.updCtx n f).weave = s.weave := rfl
@[simp] theorem updCtx_atsRefused (s : State) (n : Nat) (f : Ctx → Ctx) : (s.updCtx n f).atsRefused = s.atsRefused := rfl
@[simp] theorem updCtx_outbox (s : State) (n : Nat) (f : Ctx → Ctx) : (s.updCtx n f).outbox = s.outbox := rfl
@[simp] theorem updCtx_thread_of (s : State) (n : Nat) (f : Ctx → Ctx) (q : ThreadRef) : (s.updCtx n f).thread? q = s.thread? q := rfl
@[simp] theorem updCtx_team_of (s : State) (n : Nat) (f : Ctx → Ctx) (q : TeamRef) : (s.updCtx n f).team? q = s.team? q := rfl
@[simp] theorem updCtx_group_of (s : State) (n : Nat) (f : Ctx → Ctx) (q : GroupRef) : (s.updCtx n f).group? q = s.group? q := rfl
@[simp] theorem updCtx_hand_of (s : State) (n : Nat) (f : Ctx → Ctx) (q : Nat) : (s.updCtx n f).hand q = s.hand q := rfl
@[simp] theorem updCtx_die_of (s : State) (n : Nat) (f : Ctx → Ctx) (q : Nat) : (s.updCtx n f).die q = s.die q := rfl
@[simp] theorem updCtx_fn_of (s : State) (n : Nat) (f : Ctx → Ctx) (q : Nat) : (s.updCtx n f).fn q = s.fn q := rfl

/-! `updQueue` -/

@[simp] theorem updQueue_cur (s : State) (n : Nat) (f : Queue → Queue) : (s.updQueue n f).cur = s.cur := rfl
@[simp] theorem updQueue_agenda (s : State) (n : Nat) (f : Queue → Queue) : (s.updQueue n f).agenda = s.agenda := rfl
@[simp] theorem updQueue_clock (s : State) (n : Nat) (f : Queue → Queue) : (s.updQueue n f).clock = s.clock := rfl
@[simp] theorem updQueue_fresh (s : State) (n : Nat) (f : Queue → Queue) : (s.updQueue n f).fresh = s.fresh := rfl
@[simp] theorem updQueue_mem (s : State) (n : Nat) (f : Queue → Queue) : (s.updQueue n f).mem = s.mem := rfl
@[simp] theorem updQueue_hostMem (s : State) (n : Nat) (f : Queue → Queue) : (s.updQueue n f).hostMem = s.hostMem := rfl
@[simp] theorem updQueue_tags (s : State) (n : Nat) (f : Queue → Queue) : (s.updQueue n f).tags = s.tags := rfl
@[simp] theorem updQueue_poison (s : State) (n : Nat) (f : Queue → Queue) : (s.updQueue n f).poison = s.poison := rfl
@[simp] theorem updQueue_caches (s : State) (n : Nat) (f : Queue → Queue) : (s.updQueue n f).caches = s.caches := rfl
@[simp] theorem updQueue_homeL2 (s : State) (n : Nat) (f : Queue → Queue) : (s.updQueue n f).homeL2 = s.homeL2 := rfl
@[simp] theorem updQueue_waiters (s : State) (n : Nat) (f : Queue → Queue) : (s.updQueue n f).waiters = s.waiters := rfl
@[simp] theorem updQueue_granules (s : State) (n : Nat) (f : Queue → Queue) : (s.updQueue n f).granules = s.granules := rfl
@[simp] theorem updQueue_fuse (s : State) (n : Nat) (f : Queue → Queue) : (s.updQueue n f).fuse = s.fuse := rfl
@[simp] theorem updQueue_defects (s : State) (n : Nat) (f : Queue → Queue) : (s.updQueue n f).defects = s.defects := rfl
@[simp] theorem updQueue_hands (s : State) (n : Nat) (f : Queue → Queue) : (s.updQueue n f).hands = s.hands := rfl
@[simp] theorem updQueue_teams (s : State) (n : Nat) (f : Queue → Queue) : (s.updQueue n f).teams = s.teams := rfl
@[simp] theorem updQueue_threads (s : State) (n : Nat) (f : Queue → Queue) : (s.updQueue n f).threads = s.threads := rfl
@[simp] theorem updQueue_groups (s : State) (n : Nat) (f : Queue → Queue) : (s.updQueue n f).groups = s.groups := rfl
@[simp] theorem updQueue_dies (s : State) (n : Nat) (f : Queue → Queue) : (s.updQueue n f).dies = s.dies := rfl
@[simp] theorem updQueue_locks (s : State) (n : Nat) (f : Queue → Queue) : (s.updQueue n f).locks = s.locks := rfl
@[simp] theorem updQueue_ctxs (s : State) (n : Nat) (f : Queue → Queue) : (s.updQueue n f).ctxs = s.ctxs := rfl
@[simp] theorem updQueue_queues (s : State) (n : Nat) (f : Queue → Queue) : (s.updQueue n f).queues = s.queues.modify n f := rfl
@[simp] theorem updQueue_slots (s : State) (n : Nat) (f : Queue → Queue) : (s.updQueue n f).slots = s.slots := rfl
@[simp] theorem updQueue_events (s : State) (n : Nat) (f : Queue → Queue) : (s.updQueue n f).events = s.events := rfl
@[simp] theorem updQueue_unposted (s : State) (n : Nat) (f : Queue → Queue) : (s.updQueue n f).unposted = s.unposted := rfl
@[simp] theorem updQueue_spill (s : State) (n : Nat) (f : Queue → Queue) : (s.updQueue n f).spill = s.spill := rfl
@[simp] theorem updQueue_cores (s : State) (n : Nat) (f : Queue → Queue) : (s.updQueue n f).cores = s.cores := rfl
@[simp] theorem updQueue_quantum (s : State) (n : Nat) (f : Queue → Queue) : (s.updQueue n f).quantum = s.quantum := rfl
@[simp] theorem updQueue_launches (s : State) (n : Nat) (f : Queue → Queue) : (s.updQueue n f).launches = s.launches := rfl
@[simp] theorem updQueue_nextLaunch (s : State) (n : Nat) (f : Queue → Queue) : (s.updQueue n f).nextLaunch = s.nextLaunch := rfl
@[simp] theorem updQueue_waiting (s : State) (n : Nat) (f : Queue → Queue) : (s.updQueue n f).waiting = s.waiting := rfl
@[simp] theorem updQueue_fns (s : State) (n : Nat) (f : Queue → Queue) : (s.updQueue n f).fns = s.fns := rfl
@[simp] theorem updQueue_errSeq (s : State) (n : Nat) (f : Queue → Queue) : (s.updQueue n f).errSeq = s.errSeq := rfl
@[simp] theorem updQueue_hostHeld (s : State) (n : Nat) (f : Queue → Queue) : (s.updQueue n f).hostHeld = s.hostHeld := rfl
@[simp] theorem updQueue_hostAbsent (s : State) (n : Nat) (f : Queue → Queue) : (s.updQueue n f).hostAbsent = s.hostAbsent := rfl
@[simp] theorem updQueue_collar (s : State) (n : Nat) (f : Queue → Queue) : (s.updQueue n f).collar = s.collar := rfl
@[simp] theorem updQueue_weave (s : State) (n : Nat) (f : Queue → Queue) : (s.updQueue n f).weave = s.weave := rfl
@[simp] theorem updQueue_atsRefused (s : State) (n : Nat) (f : Queue → Queue) : (s.updQueue n f).atsRefused = s.atsRefused := rfl
@[simp] theorem updQueue_outbox (s : State) (n : Nat) (f : Queue → Queue) : (s.updQueue n f).outbox = s.outbox := rfl
@[simp] theorem updQueue_thread_of (s : State) (n : Nat) (f : Queue → Queue) (q : ThreadRef) : (s.updQueue n f).thread? q = s.thread? q := rfl
@[simp] theorem updQueue_team_of (s : State) (n : Nat) (f : Queue → Queue) (q : TeamRef) : (s.updQueue n f).team? q = s.team? q := rfl
@[simp] theorem updQueue_group_of (s : State) (n : Nat) (f : Queue → Queue) (q : GroupRef) : (s.updQueue n f).group? q = s.group? q := rfl
@[simp] theorem updQueue_ctx_of (s : State) (n : Nat) (f : Queue → Queue) (q : Nat) : (s.updQueue n f).ctx? q = s.ctx? q := rfl
@[simp] theorem updQueue_hand_of (s : State) (n : Nat) (f : Queue → Queue) (q : Nat) : (s.updQueue n f).hand q = s.hand q := rfl
@[simp] theorem updQueue_die_of (s : State) (n : Nat) (f : Queue → Queue) (q : Nat) : (s.updQueue n f).die q = s.die q := rfl
@[simp] theorem updQueue_fn_of (s : State) (n : Nat) (f : Queue → Queue) (q : Nat) : (s.updQueue n f).fn q = s.fn q := rfl

/-! `updLaunch` -/

@[simp] theorem updLaunch_cur (s : State) (n : Nat) (f : Launch → Launch) : (s.updLaunch n f).cur = s.cur := rfl
@[simp] theorem updLaunch_agenda (s : State) (n : Nat) (f : Launch → Launch) : (s.updLaunch n f).agenda = s.agenda := rfl
@[simp] theorem updLaunch_clock (s : State) (n : Nat) (f : Launch → Launch) : (s.updLaunch n f).clock = s.clock := rfl
@[simp] theorem updLaunch_fresh (s : State) (n : Nat) (f : Launch → Launch) : (s.updLaunch n f).fresh = s.fresh := rfl
@[simp] theorem updLaunch_mem (s : State) (n : Nat) (f : Launch → Launch) : (s.updLaunch n f).mem = s.mem := rfl
@[simp] theorem updLaunch_hostMem (s : State) (n : Nat) (f : Launch → Launch) : (s.updLaunch n f).hostMem = s.hostMem := rfl
@[simp] theorem updLaunch_tags (s : State) (n : Nat) (f : Launch → Launch) : (s.updLaunch n f).tags = s.tags := rfl
@[simp] theorem updLaunch_poison (s : State) (n : Nat) (f : Launch → Launch) : (s.updLaunch n f).poison = s.poison := rfl
@[simp] theorem updLaunch_caches (s : State) (n : Nat) (f : Launch → Launch) : (s.updLaunch n f).caches = s.caches := rfl
@[simp] theorem updLaunch_homeL2 (s : State) (n : Nat) (f : Launch → Launch) : (s.updLaunch n f).homeL2 = s.homeL2 := rfl
@[simp] theorem updLaunch_waiters (s : State) (n : Nat) (f : Launch → Launch) : (s.updLaunch n f).waiters = s.waiters := rfl
@[simp] theorem updLaunch_granules (s : State) (n : Nat) (f : Launch → Launch) : (s.updLaunch n f).granules = s.granules := rfl
@[simp] theorem updLaunch_fuse (s : State) (n : Nat) (f : Launch → Launch) : (s.updLaunch n f).fuse = s.fuse := rfl
@[simp] theorem updLaunch_defects (s : State) (n : Nat) (f : Launch → Launch) : (s.updLaunch n f).defects = s.defects := rfl
@[simp] theorem updLaunch_hands (s : State) (n : Nat) (f : Launch → Launch) : (s.updLaunch n f).hands = s.hands := rfl
@[simp] theorem updLaunch_teams (s : State) (n : Nat) (f : Launch → Launch) : (s.updLaunch n f).teams = s.teams := rfl
@[simp] theorem updLaunch_threads (s : State) (n : Nat) (f : Launch → Launch) : (s.updLaunch n f).threads = s.threads := rfl
@[simp] theorem updLaunch_groups (s : State) (n : Nat) (f : Launch → Launch) : (s.updLaunch n f).groups = s.groups := rfl
@[simp] theorem updLaunch_dies (s : State) (n : Nat) (f : Launch → Launch) : (s.updLaunch n f).dies = s.dies := rfl
@[simp] theorem updLaunch_locks (s : State) (n : Nat) (f : Launch → Launch) : (s.updLaunch n f).locks = s.locks := rfl
@[simp] theorem updLaunch_ctxs (s : State) (n : Nat) (f : Launch → Launch) : (s.updLaunch n f).ctxs = s.ctxs := rfl
@[simp] theorem updLaunch_queues (s : State) (n : Nat) (f : Launch → Launch) : (s.updLaunch n f).queues = s.queues := rfl
@[simp] theorem updLaunch_slots (s : State) (n : Nat) (f : Launch → Launch) : (s.updLaunch n f).slots = s.slots := rfl
@[simp] theorem updLaunch_events (s : State) (n : Nat) (f : Launch → Launch) : (s.updLaunch n f).events = s.events := rfl
@[simp] theorem updLaunch_unposted (s : State) (n : Nat) (f : Launch → Launch) : (s.updLaunch n f).unposted = s.unposted := rfl
@[simp] theorem updLaunch_spill (s : State) (n : Nat) (f : Launch → Launch) : (s.updLaunch n f).spill = s.spill := rfl
@[simp] theorem updLaunch_cores (s : State) (n : Nat) (f : Launch → Launch) : (s.updLaunch n f).cores = s.cores := rfl
@[simp] theorem updLaunch_quantum (s : State) (n : Nat) (f : Launch → Launch) : (s.updLaunch n f).quantum = s.quantum := rfl
@[simp] theorem updLaunch_launches (s : State) (n : Nat) (f : Launch → Launch) : (s.updLaunch n f).launches = s.launches.modify n f := rfl
@[simp] theorem updLaunch_nextLaunch (s : State) (n : Nat) (f : Launch → Launch) : (s.updLaunch n f).nextLaunch = s.nextLaunch := rfl
@[simp] theorem updLaunch_waiting (s : State) (n : Nat) (f : Launch → Launch) : (s.updLaunch n f).waiting = s.waiting := rfl
@[simp] theorem updLaunch_fns (s : State) (n : Nat) (f : Launch → Launch) : (s.updLaunch n f).fns = s.fns := rfl
@[simp] theorem updLaunch_errSeq (s : State) (n : Nat) (f : Launch → Launch) : (s.updLaunch n f).errSeq = s.errSeq := rfl
@[simp] theorem updLaunch_hostHeld (s : State) (n : Nat) (f : Launch → Launch) : (s.updLaunch n f).hostHeld = s.hostHeld := rfl
@[simp] theorem updLaunch_hostAbsent (s : State) (n : Nat) (f : Launch → Launch) : (s.updLaunch n f).hostAbsent = s.hostAbsent := rfl
@[simp] theorem updLaunch_collar (s : State) (n : Nat) (f : Launch → Launch) : (s.updLaunch n f).collar = s.collar := rfl
@[simp] theorem updLaunch_weave (s : State) (n : Nat) (f : Launch → Launch) : (s.updLaunch n f).weave = s.weave := rfl
@[simp] theorem updLaunch_atsRefused (s : State) (n : Nat) (f : Launch → Launch) : (s.updLaunch n f).atsRefused = s.atsRefused := rfl
@[simp] theorem updLaunch_outbox (s : State) (n : Nat) (f : Launch → Launch) : (s.updLaunch n f).outbox = s.outbox := rfl
@[simp] theorem updLaunch_thread_of (s : State) (n : Nat) (f : Launch → Launch) (q : ThreadRef) : (s.updLaunch n f).thread? q = s.thread? q := rfl
@[simp] theorem updLaunch_team_of (s : State) (n : Nat) (f : Launch → Launch) (q : TeamRef) : (s.updLaunch n f).team? q = s.team? q := rfl
@[simp] theorem updLaunch_group_of (s : State) (n : Nat) (f : Launch → Launch) (q : GroupRef) : (s.updLaunch n f).group? q = s.group? q := rfl
@[simp] theorem updLaunch_ctx_of (s : State) (n : Nat) (f : Launch → Launch) (q : Nat) : (s.updLaunch n f).ctx? q = s.ctx? q := rfl
@[simp] theorem updLaunch_hand_of (s : State) (n : Nat) (f : Launch → Launch) (q : Nat) : (s.updLaunch n f).hand q = s.hand q := rfl
@[simp] theorem updLaunch_die_of (s : State) (n : Nat) (f : Launch → Launch) (q : Nat) : (s.updLaunch n f).die q = s.die q := rfl
@[simp] theorem updLaunch_fn_of (s : State) (n : Nat) (f : Launch → Launch) (q : Nat) : (s.updLaunch n f).fn q = s.fn q := rfl

/-! `send` -/

@[simp] theorem send_cur (s : State) (m : Msg) : (s.send m).cur = s.cur := rfl
@[simp] theorem send_agenda (s : State) (m : Msg) : (s.send m).agenda = s.agenda := rfl
@[simp] theorem send_clock (s : State) (m : Msg) : (s.send m).clock = s.clock := rfl
@[simp] theorem send_fresh (s : State) (m : Msg) : (s.send m).fresh = s.fresh := rfl
@[simp] theorem send_mem (s : State) (m : Msg) : (s.send m).mem = s.mem := rfl
@[simp] theorem send_hostMem (s : State) (m : Msg) : (s.send m).hostMem = s.hostMem := rfl
@[simp] theorem send_tags (s : State) (m : Msg) : (s.send m).tags = s.tags := rfl
@[simp] theorem send_poison (s : State) (m : Msg) : (s.send m).poison = s.poison := rfl
@[simp] theorem send_caches (s : State) (m : Msg) : (s.send m).caches = s.caches := rfl
@[simp] theorem send_homeL2 (s : State) (m : Msg) : (s.send m).homeL2 = s.homeL2 := rfl
@[simp] theorem send_waiters (s : State) (m : Msg) : (s.send m).waiters = s.waiters := rfl
@[simp] theorem send_granules (s : State) (m : Msg) : (s.send m).granules = s.granules := rfl
@[simp] theorem send_fuse (s : State) (m : Msg) : (s.send m).fuse = s.fuse := rfl
@[simp] theorem send_defects (s : State) (m : Msg) : (s.send m).defects = s.defects := rfl
@[simp] theorem send_hands (s : State) (m : Msg) : (s.send m).hands = s.hands := rfl
@[simp] theorem send_teams (s : State) (m : Msg) : (s.send m).teams = s.teams := rfl
@[simp] theorem send_threads (s : State) (m : Msg) : (s.send m).threads = s.threads := rfl
@[simp] theorem send_groups (s : State) (m : Msg) : (s.send m).groups = s.groups := rfl
@[simp] theorem send_dies (s : State) (m : Msg) : (s.send m).dies = s.dies := rfl
@[simp] theorem send_locks (s : State) (m : Msg) : (s.send m).locks = s.locks := rfl
@[simp] theorem send_ctxs (s : State) (m : Msg) : (s.send m).ctxs = s.ctxs := rfl
@[simp] theorem send_queues (s : State) (m : Msg) : (s.send m).queues = s.queues := rfl
@[simp] theorem send_slots (s : State) (m : Msg) : (s.send m).slots = s.slots := rfl
@[simp] theorem send_events (s : State) (m : Msg) : (s.send m).events = s.events := rfl
@[simp] theorem send_unposted (s : State) (m : Msg) : (s.send m).unposted = s.unposted := rfl
@[simp] theorem send_spill (s : State) (m : Msg) : (s.send m).spill = s.spill := rfl
@[simp] theorem send_cores (s : State) (m : Msg) : (s.send m).cores = s.cores := rfl
@[simp] theorem send_quantum (s : State) (m : Msg) : (s.send m).quantum = s.quantum := rfl
@[simp] theorem send_launches (s : State) (m : Msg) : (s.send m).launches = s.launches := rfl
@[simp] theorem send_nextLaunch (s : State) (m : Msg) : (s.send m).nextLaunch = s.nextLaunch := rfl
@[simp] theorem send_waiting (s : State) (m : Msg) : (s.send m).waiting = s.waiting := rfl
@[simp] theorem send_fns (s : State) (m : Msg) : (s.send m).fns = s.fns := rfl
@[simp] theorem send_errSeq (s : State) (m : Msg) : (s.send m).errSeq = s.errSeq := rfl
@[simp] theorem send_hostHeld (s : State) (m : Msg) : (s.send m).hostHeld = s.hostHeld := rfl
@[simp] theorem send_hostAbsent (s : State) (m : Msg) : (s.send m).hostAbsent = s.hostAbsent := rfl
@[simp] theorem send_collar (s : State) (m : Msg) : (s.send m).collar = s.collar := rfl
@[simp] theorem send_weave (s : State) (m : Msg) : (s.send m).weave = s.weave := rfl
@[simp] theorem send_atsRefused (s : State) (m : Msg) : (s.send m).atsRefused = s.atsRefused := rfl
@[simp] theorem send_outbox (s : State) (m : Msg) : (s.send m).outbox = s.outbox ++ [m] := rfl
@[simp] theorem send_thread_of (s : State) (m : Msg) (q : ThreadRef) : (s.send m).thread? q = s.thread? q := rfl
@[simp] theorem send_team_of (s : State) (m : Msg) (q : TeamRef) : (s.send m).team? q = s.team? q := rfl
@[simp] theorem send_group_of (s : State) (m : Msg) (q : GroupRef) : (s.send m).group? q = s.group? q := rfl
@[simp] theorem send_ctx_of (s : State) (m : Msg) (q : Nat) : (s.send m).ctx? q = s.ctx? q := rfl
@[simp] theorem send_hand_of (s : State) (m : Msg) (q : Nat) : (s.send m).hand q = s.hand q := rfl
@[simp] theorem send_die_of (s : State) (m : Msg) (q : Nat) : (s.send m).die q = s.die q := rfl
@[simp] theorem send_fn_of (s : State) (m : Msg) (q : Nat) : (s.send m).fn q = s.fn q := rfl

end Sys2Proof.Machine.State
end

