-- ==== Sys2Proof/Laws/Maps.lean ====
section
/-! SUPPORT. Sparse maps and byte memories: what a read gives after a write, and that every operation keeps the canonical form. -/

namespace Sys2Proof

namespace Map

variable {α : Type}

/-- What `modify` leaves at a key. -/
@[simp] theorem get?_modify (m : Map α) (k j : Nat) (f : α → α) :
    Map.get? (Map.modify m k f) j = if j = k then (Map.get? m j).map f else Map.get? m j := by
  induction m with
  | nil => simp [Map.modify, Map.get?]
  | cons p m ih =>
    obtain ⟨i, v⟩ := p
    simp only [Map.modify, List.map_cons] at ih ⊢
    by_cases h : i = k <;> by_cases h' : i = j <;> simp_all [Map.get?]

/-- What `set` leaves at its key. -/
@[simp] theorem get?_set_self (m : Map α) (k : Nat) (v : α) : Map.get? (Map.set m k v) k = some v := by
  induction m with
  | nil => simp [Map.set, Map.get?]
  | cons p m ih =>
    obtain ⟨i, w⟩ := p
    simp only [Map.set]
    split
    · simp [Map.get?]
    · split
      · simp [Map.get?]
      · rename_i h h'
        simp [Map.get?, ih]
        omega

/-- `set` leaves every other key alone. -/
theorem get?_set_ne (m : Map α) {k j : Nat} (v : α) (h : j ≠ k) : Map.get? (Map.set m k v) j = Map.get? m j := by
  induction m with
  | nil => simp [Map.set, Map.get?, Ne.symm h]
  | cons p m ih =>
    obtain ⟨i, w⟩ := p
    simp only [Map.set]
    split
    · simp [Map.get?, Ne.symm h]
    · split
      · rename_i h₂; subst h₂; simp [Map.get?, Ne.symm h]
      · simp [Map.get?, ih]

/-- What `set` leaves at a key. -/
theorem get?_set (m : Map α) (k j : Nat) (v : α) : Map.get? (Map.set m k v) j = if j = k then some v else Map.get? m j := by
  split
  · next h => subst h; simp
  · next h => exact get?_set_ne m v h

/-- `erase` leaves nothing at its key and every other key alone. -/
theorem get?_erase (m : Map α) (k j : Nat) : Map.get? (Map.erase m k) j = if j = k then none else Map.get? m j := by
  induction m with
  | nil => simp [Map.erase, Map.get?]
  | cons p m ih =>
    obtain ⟨i, w⟩ := p
    simp only [Map.erase, List.filter_cons] at ih ⊢
    by_cases h : i = k
    · subst h
      simp only [ne_eq, not_true_eq_false, decide_false, Bool.false_eq_true, if_false, ih, Map.get?]
      split
      · rfl
      · next h' => rw [if_neg (Ne.symm h')]
    · simp only [ne_eq, h, not_false_eq_true, decide_true, if_true, Map.get?, ih]
      split
      · next h' => subst h'; simp [h]
      · rfl

/-- The members of `set` are the new entry and old ones. -/
theorem mem_set {m : Map α} {k : Nat} {v : α} {p : Nat × α} (h : p ∈ Map.set m k v) : p = (k, v) ∨ p ∈ m := by
  induction m with
  | nil => simpa [Map.set] using h
  | cons q m ih =>
    obtain ⟨i, w⟩ := q
    simp only [Map.set] at h
    split at h
    · simpa using h
    · split at h
      · rcases List.mem_cons.1 h with h | h
        · exact .inl h
        · exact .inr (List.mem_cons_of_mem _ h)
      · rcases List.mem_cons.1 h with h | h
        · exact .inr (h ▸ List.mem_cons_self ..)
        · exact (ih h).imp id (List.mem_cons_of_mem _)

/-- `set` keeps the keys rising. -/
theorem set_ordered {m : Map α} (h : Map.Ordered m) (k : Nat) (v : α) : Map.Ordered (Map.set m k v) := by
  induction m with
  | nil => simp [Map.set, Map.Ordered]
  | cons p m ih =>
    obtain ⟨i, w⟩ := p
    obtain ⟨h₁, h₂⟩ := List.pairwise_cons.1 h
    simp only [Map.set]
    split
    · refine List.pairwise_cons.2 ⟨fun q hq => ?_, h⟩
      rcases List.mem_cons.1 hq with rfl | hq
      · assumption
      · exact lt_trans ‹k < i› (h₁ q hq)
    · split
      · next h' => subst h'; exact List.pairwise_cons.2 ⟨h₁, h₂⟩
      · refine List.pairwise_cons.2 ⟨fun q hq => ?_, ih h₂⟩
        rcases mem_set hq with rfl | hq
        · show i < k; omega
        · exact h₁ q hq

/-- `erase` keeps the keys rising. -/
theorem erase_ordered {m : Map α} (h : Map.Ordered m) (k : Nat) : Map.Ordered (Map.erase m k) := List.Pairwise.filter _ h

end Map

namespace Machine.Memory

/-- A byte after a write of one byte. -/
@[simp] theorem get_put (m : List Host.Cell) (a b : Nat) (v : Byte) : get (put m a v) b = if b = a then v else get m b := by
  unfold put get Map.getD
  split
  · next h => subst h; rw [Map.get?_erase]; split <;> simp
  · rw [Map.get?_set]; split <;> simp

/-- A write of one byte keeps the canonical form. -/
theorem put_wf {m : List Host.Cell} (h : wf m) (a : Nat) (v : Byte) : wf (put m a v) := by
  unfold put
  split
  · exact ⟨Map.erase_ordered h.1 a, fun c hc => h.2 c (List.mem_filter.1 hc).1⟩
  · next hv =>
    refine ⟨Map.set_ordered h.1 a v, fun c hc => ?_⟩
    rcases Map.mem_set hc with rfl | hc
    · exact hv
    · exact h.2 c hc

/-- A write of bytes keeps the canonical form. -/
theorem write_wf {m : List Host.Cell} (h : wf m) (a : Nat) (bs : List Byte) : wf (write m a bs) := by
  induction bs generalizing m a with
  | nil => exact h
  | cons b bs ih => exact ih (put_wf h a b) (a + 1)

/-- A write of a number keeps the canonical form. -/
theorem writeNat_wf {m : List Host.Cell} (h : wf m) (a n v : Nat) : wf (writeNat m a n v) := write_wf h a _

/-- A byte after a write of bytes: the byte written there, or the old one outside. -/
theorem get_write (m : List Host.Cell) (a b : Nat) (bs : List Byte) :
    get (write m a bs) b = if a ≤ b ∧ b < a + bs.length then bs.getD (b - a) 0 else get m b := by
  induction bs generalizing m a with
  | nil => simp [write]
  | cons c bs ih =>
    rw [write, ih, get_put]
    by_cases h₁ : b = a
    · subst h₁; simp
    · by_cases h₂ : a + 1 ≤ b ∧ b < a + 1 + bs.length
      · have : b - a = (b - (a + 1)) + 1 := by omega
        simp only [h₂, and_self, if_true, this, List.getD_cons_succ]
        rw [if_pos ⟨by omega, by simp only [List.length_cons]; omega⟩]
      · rw [if_neg h₂, if_neg h₁, if_neg (by simp only [List.length_cons]; omega)]

/-- Reset's memories are canonical. -/
theorem reset_wf : wf State.reset.mem ∧ wf State.reset.hostMem := by decide

end Machine.Memory

namespace Machine.State

/-- A thread after an update of one thread. -/
theorem thread?_updThread (s : State) (r q : ThreadRef) (f : Thread → Thread) :
    (s.updThread r f).thread? q = if threadKey q = threadKey r then (s.thread? q).map f else s.thread? q := by
  simp [thread?]

/-- A team after an update of one team. -/
theorem team?_updTeam (s : State) (r q : TeamRef) (f : Team → Team) :
    (s.updTeam r f).team? q = if teamKey q = teamKey r then (s.team? q).map f else s.team? q := by
  simp [team?]

/-- A group after an update of one group. -/
theorem group?_updGroup (s : State) (r q : GroupRef) (f : Group → Group) :
    (s.updGroup r f).group? q = if groupKey q = groupKey r then (s.group? q).map f else s.group? q := by
  simp [group?]

/-- A context after an update of one context. -/
theorem ctx?_updCtx (s : State) (c q : Nat) (f : Ctx → Ctx) :
    (s.updCtx c f).ctx? q = if q = c then (s.ctx? q).map f else s.ctx? q := by
  simp [ctx?]

/-- A hand after an update of one hand. -/
theorem hand_updHand (s : State) (h q : Nat) (f : Hand → Hand) :
    (s.updHand h f).hand q = if q = h then f (s.hand h) else s.hand q := by
  simp only [hand, updHand_hands, Map.getD, Map.get?_set]
  split <;> rfl

/-- A die after an update of one die. -/
theorem die_updDie (s : State) (d q : Nat) (f : Die → Die) : (s.updDie d f).die q = if q = d then f (s.die d) else s.die q := by
  simp only [die, updDie_dies, Map.getD, Map.get?_set]
  split <;> rfl

/-- A function after an update of one function. -/
theorem fn_updFn (s : State) (n q : Nat) (f : Fn → Fn) : (s.updFn n f).fn q = if q = n then f (s.fn n) else s.fn q := by
  simp only [fn, updFn_fns, Map.getD, Map.get?_set]
  split <;> rfl

end Machine.State

end Sys2Proof
end

