-- ==== Sys2Proof/Laws/Keeps.lean ====
section
/-! SUPPORT. What the memory hierarchy and the posting of records can do, said once for each operation: they change memories, tags,
poison, caches, ownership, TLBs, a context's log and the host's rings, keep the memories' canonical form, and touch nothing else. -/

namespace Sys2Proof.Machine

/-- `t` is `s` after accesses and records. -/
structure Keeps (s t : State) : Prop where
  kept  : t.kept = s.kept
  hands : ∀ h, (t.hand h).core = (s.hand h).core
  dies  : ∀ d, (t.die d).core = (s.die d).core
  ctxs  : ∀ c, (t.ctx? c).map Ctx.core = (s.ctx? c).map Ctx.core
  mem   : Memory.wf s.mem → Memory.wf t.mem
  host  : Memory.wf s.hostMem → Memory.wf t.hostMem

namespace Keeps

@[refl] theorem refl (s : State) : Keeps s s := ⟨rfl, fun _ => rfl, fun _ => rfl, fun _ => rfl, id, id⟩

@[trans] theorem trans {s t u : State} (h : Keeps s t) (g : Keeps t u) : Keeps s u :=
  ⟨g.kept.trans h.kept, fun x => (g.hands x).trans (h.hands x), fun x => (g.dies x).trans (h.dies x), fun x => (g.ctxs x).trans (h.ctxs x),
    fun x => g.mem (h.mem x), fun x => g.host (h.host x)⟩

theorem threads {s t : State} (h : Keeps s t) : t.threads = s.threads := by
  have e := congrArg State.threads h.kept; exact e
theorem teams {s t : State} (h : Keeps s t) : t.teams = s.teams := by
  have e := congrArg State.teams h.kept; exact e
theorem groups {s t : State} (h : Keeps s t) : t.groups = s.groups := by
  have e := congrArg State.groups h.kept; exact e
theorem cur {s t : State} (h : Keeps s t) : t.cur = s.cur := by
  have e := congrArg State.cur h.kept; exact e
theorem fuse {s t : State} (h : Keeps s t) : t.fuse = s.fuse := by
  have e := congrArg State.fuse h.kept; exact e

/-- A choice of two answers that keep. -/
theorem ite_fst {α : Type} {s : State} {c : Prop} [Decidable c] {a b : State × α} (ha : Keeps s a.1) (hb : Keeps s b.1) :
    Keeps s (if c then a else b).1 := by
  split
  · exact ha
  · exact hb

/-- A fold of steps that keep. -/
theorem foldl {α : Type} {f : State → α → State} (hf : ∀ s x, Keeps s (f s x)) (l : List α) (s : State) : Keeps s (l.foldl f s) := by
  induction l generalizing s with
  | nil => exact refl s
  | cons x l ih => exact (hf s x).trans (ih _)

/-- A fold over states paired with a result. -/
theorem foldl_fst {α β : Type} {f : State × β → α → State × β} (hf : ∀ p x, Keeps p.1 (f p x).1) (l : List α) (p : State × β) :
    Keeps p.1 (l.foldl f p).1 := by
  induction l generalizing p with
  | nil => exact refl p.1
  | cons x l ih => exact (hf p x).trans (ih _)

end Keeps

/-! ### Single updates -/

theorem keeps_send (s : State) (m : Msg) : Keeps s (s.send m) := ⟨rfl, fun _ => rfl, fun _ => rfl, fun _ => rfl, id, id⟩
theorem keeps_updFn (s : State) (n : Nat) (f : Fn → Fn) : Keeps s (s.updFn n f) := ⟨rfl, fun _ => rfl, fun _ => rfl, fun _ => rfl, id, id⟩
theorem keeps_caches (s : State) (m : Map (Map CLine)) : Keeps s { s with caches := m } :=
  ⟨rfl, fun _ => rfl, fun _ => rfl, fun _ => rfl, id, id⟩
theorem keeps_homeL2 (s : State) (m : Map (Map HLine)) : Keeps s { s with homeL2 := m } :=
  ⟨rfl, fun _ => rfl, fun _ => rfl, fun _ => rfl, id, id⟩
theorem keeps_granules (s : State) (m : Map Granule) : Keeps s { s with granules := m } :=
  ⟨rfl, fun _ => rfl, fun _ => rfl, fun _ => rfl, id, id⟩
theorem keeps_poison (s : State) (m : List Nat) : Keeps s { s with poison := m } :=
  ⟨rfl, fun _ => rfl, fun _ => rfl, fun _ => rfl, id, id⟩
theorem keeps_draw (s : State) : Keeps s s.draw.2 := ⟨rfl, fun _ => rfl, fun _ => rfl, fun _ => rfl, id, id⟩
theorem keeps_write (s : State) (a : Nat) (bs : List Byte) : Keeps s { s with mem := Memory.write s.mem a bs } :=
  ⟨rfl, fun _ => rfl, fun _ => rfl, fun _ => rfl, fun h => Memory.write_wf h _ _, id⟩
theorem keeps_hostWrite (s : State) (a : Nat) (bs : List Byte) : Keeps s { s with hostMem := Memory.write s.hostMem a bs } :=
  ⟨rfl, fun _ => rfl, fun _ => rfl, fun _ => rfl, id, fun h => Memory.write_wf h _ _⟩

theorem keeps_updHand (s : State) (n : Nat) (f : Hand → Hand) (h : (f (s.hand n)).core = (s.hand n).core) : Keeps s (s.updHand n f) :=
  ⟨rfl, fun q => by rw [State.hand_updHand]; split <;> simp_all, fun _ => rfl, fun _ => rfl, id, id⟩

theorem keeps_updDie (s : State) (n : Nat) (f : Die → Die) (h : (f (s.die n)).core = (s.die n).core) : Keeps s (s.updDie n f) :=
  ⟨rfl, fun _ => rfl, fun q => by rw [State.die_updDie]; split <;> simp_all, fun _ => rfl, id, id⟩

theorem keeps_updCtx (s : State) (n : Nat) (f : Ctx → Ctx) (h : ∀ c, (f c).core = c.core) : Keeps s (s.updCtx n f) := by
  refine ⟨rfl, fun _ => rfl, fun _ => rfl, fun q => ?_, id, id⟩
  rw [State.ctx?_updCtx]
  split
  · cases s.ctx? q <;> simp [h]
  · rfl

/-! ### Records and interrupts -/

theorem raiseVector_keeps (s : State) (fn vec : Nat) : Keeps s (raiseVector s fn vec) := by
  unfold raiseVector
  dsimp only
  split
  · split
    · exact keeps_updFn ..
    · split
      · exact keeps_updFn ..
      · exact (keeps_updFn ..).trans (keeps_send ..)
  · exact .refl s

theorem postEvent_keeps (s : State) (fn kind : Nat) (rest : List Byte) : Keeps s (postEvent s fn kind rest) := by
  unfold postEvent
  dsimp only
  split
  · exact keeps_updFn ..
  · exact (((keeps_updFn s fn _).trans (keeps_hostWrite _ _ _)).trans (keeps_updFn _ fn _)).trans (raiseVector_keeps ..)

theorem postEventAll_keeps (s : State) (kind : Nat) (rest : List Byte) : Keeps s (postEventAll s kind rest) :=
  .foldl (fun s f => postEvent_keeps s f kind rest) _ s

theorem postError_keeps (s : State) (c kind : Nat) (rec : List Byte) : Keeps s (postError s c kind rec) := by
  unfold postError
  dsimp only
  split
  · exact .refl s
  · split
    · exact ((keeps_hostWrite s _ _).trans (raiseVector_keeps ..)).trans (postEvent_keeps ..)
    · exact ((keeps_hostWrite s _ _).trans (keeps_hostWrite _ _ _)).trans (raiseVector_keeps ..)

theorem keeps_errSeq (s : State) (n : Nat) : Keeps s { s with errSeq := n } := ⟨rfl, fun _ => rfl, fun _ => rfl, fun _ => rfl, id, id⟩

theorem postFault_keeps (s : State) (c : Nat) (code : FaultCode) (cls : Class) (p : Site) (addr d1 d2 : W64) :
    Keeps s (postFault s c code cls p addr d1 d2) := (keeps_errSeq s _).trans (postError_keeps ..)

theorem postPoison_keeps (s : State) (c addr space outcome hand engine seq : Nat) : Keeps s (postPoison s c addr space outcome hand engine seq) :=
  (keeps_errSeq s _).trans (postError_keeps ..)

theorem postLock_keeps (s : State) (c lk team : Nat) : Keeps s (postLock s c lk team) := (keeps_errSeq s _).trans (postError_keeps ..)

/-! ### Homes and caches -/

theorem setTag_keeps (s : State) (pa : Nat) (t : BitVec 2) : Keeps s (setTag s pa t) := ⟨rfl, fun _ => rfl, fun _ => rfl, fun _ => rfl, id, id⟩

theorem undoAppend_keeps (s : State) (c unit : Nat) : Keeps s (undoAppend s c unit) := by
  unfold undoAppend
  split
  · exact .refl s
  · split
    · split
      · exact (keeps_updCtx s c (fun x => { x with ckptValid := false }) fun _ => rfl).trans (postFault_keeps ..)
      · exact (keeps_updCtx s c (fun x => { x with undo := _ :: x.undo, undoBytes := x.undoBytes + 128 }) fun _ => rfl).trans (keeps_write ..)
    · exact .refl s

theorem homeByte_keeps (s : State) (c pa : Nat) (b : Byte) : Keeps s (homeByte s c pa b) := by
  unfold homeByte
  split
  · exact (undoAppend_keeps s c (pa / 64)).trans ⟨rfl, fun _ => rfl, fun _ => rfl, fun _ => rfl, fun h => Memory.put_wf h _ _, id⟩
  · exact .refl s

theorem homeBytes_keeps (s : State) (c : Nat) (ws : List (Nat × Byte)) : Keeps s (homeBytes s c ws) := by
  induction ws generalizing s with
  | nil => exact .refl s
  | cons w ws ih => exact (homeByte_keeps s c w.1 w.2).trans (ih _)

theorem homeRaw_keeps (s : State) (c : Nat) (log : Bool) (p : Site) (vofs : W64) (ws : List (Nat × Byte)) : Keeps s (homeRaw s c log p vofs ws) := by
  unfold homeRaw
  exact ((Keeps.foldl (fun s k => postFault_keeps ..) _ s).trans (homeBytes_keeps ..)).trans (keeps_poison ..)

theorem poisonRaw_keeps (s : State) (us : List Nat) : Keeps s (poisonRaw s us) := keeps_poison ..

theorem setLine_keeps (s : State) (p la : Nat) (l : CLine) : Keeps s (setLine s p la l) := keeps_caches ..
theorem dropLine_keeps (s : State) (p la : Nat) : Keeps s (dropLine s p la) := keeps_caches ..

/-- Lines that leave a set keep what each departure keeps. -/
theorem shrink_keeps {out : State → Nat → State} (h : ∀ s v, Keeps s (out s v)) (p la n : Nat) (s : State) : Keeps s (shrink out p la n s) := by
  induction n generalizing s with
  | zero => exact .refl s
  | succ n ih =>
    unfold shrink
    split
    · exact .refl s
    · split
      · exact .refl s
      · exact (h s _).trans (ih _)

theorem sliceOut_keeps (p : Nat) (s : State) (v : Nat) : Keeps s (sliceOut p s v) := by
  unfold sliceOut
  split
  · exact ((homeRaw_keeps ..).trans (poisonRaw_keeps ..)).trans (dropLine_keeps ..)
  · exact keeps_homeL2 ..

theorem settleSets_keeps (n : Nat) (w : List (Nat × Nat)) (s : State) : Keeps s (settleSets n w s) := by
  induction n generalizing w s with
  | zero => exact .refl s
  | succ n ih =>
    cases w with
    | nil => exact .refl s
    | cons x w =>
      unfold settleSets
      split
      · exact ih w s
      · split
        · exact ih w s
        · exact (sliceOut_keeps ..).trans (ih ..)

theorem settleLines_keeps (w : List (Nat × Nat)) (s : State) : Keeps s (settleLines w s) := by
  unfold settleLines
  split
  · exact .refl s
  · exact settleSets_keeps ..

theorem settleHomes_keeps (las : List Nat) (s : State) : Keeps s (settleHomes las s) := settleLines_keeps ..

theorem homeStoreBy_keeps (s : State) (c : Nat) (p : Site) (vofs : W64) (ws : List (Nat × Byte)) : Keeps s (homeStoreBy s c p vofs ws) :=
  (homeRaw_keeps ..).trans (settleHomes_keeps ..)

theorem homeStoreFe_keeps (s : State) (c : Nat) (ws : List (Nat × Byte)) : Keeps s (homeStoreFe s c ws) :=
  (homeRaw_keeps ..).trans (settleHomes_keeps ..)

theorem homeStore_keeps (s : State) (c : Nat) (ws : List (Nat × Byte)) : Keeps s (homeStore s c ws) := homeStoreBy_keeps ..

theorem spoil_keeps (s : State) (us : List Nat) : Keeps s (spoil s us) := (poisonRaw_keeps ..).trans (settleHomes_keeps ..)

theorem settleSlice_keeps (s : State) (p la : Nat) : Keeps s (settleSlice s p la) := by
  unfold settleSlice
  split
  · exact .refl s
  · exact settleLines_keeps ..

theorem pushBytes_keeps (s : State) (c la : Nat) (ws : List (Nat × Byte)) (us ps : List Nat) : Keeps s (pushBytes s c la ws us ps) := by
  induction ps with
  | nil => exact (homeStore_keeps ..).trans (spoil_keeps ..)
  | cons p ps ih =>
    unfold pushBytes
    split
    · exact (setLine_keeps ..).trans (settleSlice_keeps ..)
    · exact ih

theorem writeBack_keeps (s : State) (p la : Nat) : Keeps s (writeBack s p la) := by
  unfold writeBack
  split
  · exact .refl s
  · split
    · exact .refl s
    · exact (setLine_keeps ..).trans (pushBytes_keeps ..)

theorem evict_keeps (s : State) (p la : Nat) : Keeps s (evict s p la) := (writeBack_keeps s p la).trans (dropLine_keeps ..)

theorem flushPlace_keeps (s : State) (inv : Bool) (p : Nat) : Keeps s (flushPlace s inv p) := by
  unfold flushPlace
  refine .foldl (fun s la => ?_) _ s
  split
  · exact evict_keeps ..
  · exact writeBack_keeps ..

theorem releaseAt_keeps (s : State) (h scope : Nat) : Keeps s (releaseAt s h scope) := .foldl (fun s p => flushPlace_keeps s false p) _ s
theorem acquireAt_keeps (s : State) (h scope : Nat) : Keeps s (acquireAt s h scope) := .foldl (fun s p => flushPlace_keeps s true p) _ s
theorem recallLine_keeps (s : State) (la : Nat) : Keeps s (recallLine s la) := .foldl (fun s p => evict_keeps s p la) _ s
theorem flushAll_keeps (s : State) : Keeps s (flushAll s) := .foldl (fun s p => flushPlace_keeps s true p) _ s

theorem leaveSet_keeps (p : Nat) (s : State) (v : Nat) : Keeps s (leaveSet p s v) := by
  unfold leaveSet
  split
  · exact evict_keeps ..
  · exact sliceOut_keeps ..

theorem fillAt_keeps (la hint : Nat) (s : State) (p : Nat) : Keeps s (fillAt la hint s p) := by
  unfold fillAt
  split
  · exact setLine_keeps ..
  · exact (setLine_keeps ..).trans (shrink_keeps (leaveSet_keeps p) ..)

theorem lineFill_keeps (s : State) (la hint : Nat) (ps : List Nat) : Keeps s (lineFill s la hint ps) := by
  unfold lineFill
  split
  · exact .foldl (fillAt_keeps la hint) _ s
  · exact .refl s

theorem homeFill_keeps (s : State) (la hint : Nat) : Keeps s (homeFill s la hint) := by
  unfold homeFill
  split
  · exact .refl s
  · exact (keeps_homeL2 s _).trans (shrink_keeps (leaveSet_keeps _) ..)

theorem allocate_keeps (s : State) (la hint : Nat) (ps : List Nat) : Keeps s (allocate s la hint ps) := by
  unfold allocate
  split
  · exact (homeFill_keeps ..).trans (lineFill_keeps ..)
  · exact lineFill_keeps ..

theorem descend_keeps (s : State) (h la scope hint : Nat) : Keeps s (descend s h la scope hint) := .foldl (fun s p => evict_keeps s p la) _ s

theorem readAt_keeps (s : State) (h pa n scope hint : Nat) : Keeps s (readAt s h pa n scope hint).1 :=
  (descend_keeps ..).trans (allocate_keeps ..)

theorem writeLine_keeps (s : State) (c h : Nat) (p : Site) (vofs : W64) (la : Nat) (ws : List (Nat × Byte)) (scope hint : Nat) :
    Keeps s (writeLine s c h p vofs la ws scope hint) := by
  unfold writeLine
  refine (descend_keeps s h la scope hint).trans ?_
  dsimp only
  split
  · exact (allocate_keeps ..).trans (pushBytes_keeps ..)
  · exact ((recallLine_keeps ..).trans (homeFill_keeps ..)).trans (homeStoreBy_keeps ..)

theorem writeAt_keeps (s : State) (c h : Nat) (p : Site) (vofs : W64) (pa : Nat) (bs : List Byte) (scope hint : Nat) :
    Keeps s (writeAt s c h p vofs pa bs scope hint) := writeLine_keeps ..

/-! ### Translation, ownership and checks -/

theorem keeps_writeNat (s : State) (a n v : Nat) : Keeps s { s with mem := Memory.writeNat s.mem a n v } := keeps_write ..
theorem keeps_hostWriteNat (s : State) (a n v : Nat) : Keeps s { s with hostMem := Memory.writeNat s.hostMem a n v } := keeps_hostWrite ..

theorem markUsed_keeps (s : State) (host : Bool) (level table va : Nat) : Keeps s (markUsed s host level table va) := by
  unfold markUsed
  dsimp only
  split
  · exact .refl s
  · split
    · exact keeps_hostWriteNat ..
    · exact keeps_writeNat ..

theorem walk_keeps (s : State) (h pasid va : Nat) (host : Bool) (fuel level table : Nat) : Keeps s (walk s h pasid va host fuel level table).1 := by
  induction fuel generalizing s host level table with
  | zero => exact .refl s
  | succ n ih =>
    unfold walk
    dsimp only
    refine .ite_fst (.refl s) (.ite_fst (.refl s) (.ite_fst (.refl s) (.ite_fst (markUsed_keeps ..) ?_)))
    exact (markUsed_keeps ..).trans (ih ..)

theorem releaseOwnership_keeps (s : State) (a inRange : Nat → Bool) : Keeps s (releaseOwnership s a inRange) := keeps_granules ..

theorem releaseGone_keeps (s : State) (a : Nat → Bool) (gone : List Tlb) : Keeps s (releaseGone s a gone) := by
  unfold releaseGone
  split
  · exact .refl s
  · exact releaseOwnership_keeps ..

theorem handFill_keeps (s : State) (h : Nat) (t : Tlb) : Keeps s (handFill s h t) :=
  (keeps_updHand s h (fun x => { x with tlb := t :: x.tlb.take 1023 }) rfl).trans (releaseGone_keeps ..)

theorem dieFill_keeps (s : State) (d : Nat) (t : Tlb) : Keeps s (dieFill s d t) :=
  (keeps_updDie s d (fun x => { x with tlb := t :: _ }) rfl).trans (releaseGone_keeps ..)

theorem translate_keeps (s : State) (c h : Nat) (own : Bool) (va : Nat) : Keeps s (translate s c h own va).1 := by
  have hf : ∀ (s : State) (t : Tlb), Keeps s (if own then handFill s h t else s) := fun s t => by
    split
    · exact handFill_keeps ..
    · exact .refl s
  unfold translate
  dsimp only
  split
  · exact .refl s
  · split
    · exact hf ..
    · split
      · next u t w =>
        obtain rfl : _ = u := congrArg Prod.fst w
        exact ((walk_keeps s h _ va false 4 0 _).trans (dieFill_keeps ..)).trans (hf ..)
      · exact walk_keeps s h _ va false 4 0 _

theorem flushPage_keeps (s : State) (pa : Nat) : Keeps s (flushPage s pa) :=
  .foldl (fun s p => .foldl (fun s la => writeBack_keeps s p la) _ s) _ s

theorem acquireOwnership_keeps (s : State) (a pa : Nat) : Keeps s (acquireOwnership s a pa) := by
  unfold acquireOwnership
  dsimp only
  split
  · exact keeps_granules ..
  · refine Keeps.trans (t := if _ then flushPage s pa else s) ?_ (keeps_granules ..)
    split
    · exact flushPage_keeps ..
    · exact .refl s

theorem notPresent_keeps (s : State) (c va : Nat) (request : Bool) : Keeps s (notPresent s c va request).1 := by
  unfold notPresent
  exact .ite_fst (.refl s) (keeps_updCtx s c _ fun _ => rfl)

theorem checkVirtual_keeps (s : State) (c h : Nat) (own : Bool) (acc : Acc) (va : Nat) (request : Bool) :
    Keeps s (checkVirtual s c h own acc va request).1 := by
  have ht := translate_keeps s c h own va
  unfold checkVirtual
  split
  · next e => rw [e] at ht; exact ht
  · next e => rw [e] at ht; exact ht
  · next e => rw [e] at ht; exact ht
  · next e => rw [e] at ht; exact ht
  · next e => rw [e] at ht; exact ht.trans (notPresent_keeps ..)
  · next e =>
    rw [e] at ht
    dsimp only
    repeat' split
    all_goals exact ht

theorem noBin_fst (acc : Acc) (r : State × Chk) : (noBin acc r).1 = r.1 := by
  unfold noBin
  split
  · split <;> rfl
  · rfl

theorem checkGlobal_keeps (s : State) (a : Actor) (acc : Acc) (n scope : Nat) (addr : W64) (algn : Nat) (request : Bool) :
    Keeps s (checkGlobal s a acc n scope addr algn request).1 := by
  unfold checkGlobal
  dsimp only
  refine .ite_fst (.ite_fst (.refl s) (.ite_fst (.refl s) (.refl s))) (.ite_fst (.refl s) (.ite_fst (.refl s) (.ite_fst (.refl s) ?_)))
  exact checkVirtual_keeps ..

theorem checkAccess_keeps (s : State) (a : Actor) (acc : Acc) (space scope n algn : Nat) (edis6 : Bool) (addr : W64) (request : Bool) :
    Keeps s (checkAccess s a acc space scope n algn edis6 addr request).1 := by
  unfold checkAccess
  split
  · rw [noBin_fst]; exact checkGlobal_keeps ..
  · exact .refl s
  · dsimp only
    refine .ite_fst (.refl s) (.ite_fst (.refl s) (.ite_fst (.refl s) ?_))
    rw [noBin_fst]; exact checkVirtual_keeps ..

/-! ### Performing -/

theorem logPoison_keeps (s : State) (a : Actor) (t : Tgt) (va : W64) (space outcome : Nat) (units : List Nat) (seq : Nat) :
    Keeps s (logPoison s a t va space outcome units seq) := .foldl (fun _ _ => postPoison_keeps ..) _ s

theorem scratchWrite_keeps (s : State) (h o : Nat) (bs : List Byte) : Keeps s (scratchWrite s h o bs) := keeps_updHand _ _ _ rfl

theorem keeps_reqs (s : State) (rs : List PeerReq) (n : Nat) (m : Map Nat) (fs : List Flit) :
    Keeps s { s with weave := { s.weave with reqs := rs, nextReq := n, sendSeq := m, buffer := fs } } :=
  ⟨rfl, fun _ => rfl, fun _ => rfl, fun _ => rfl, id, id⟩

theorem sendFlit_keeps (s : State) (src dst addr : Nat) (body : FlitBody) : Keeps s (sendFlit s src dst addr body) := by
  unfold sendFlit
  split
  · exact .refl s
  · exact (keeps_reqs s s.weave.reqs s.weave.nextReq _ _).trans (keeps_send ..)

theorem peerSend_keeps (s : State) (a : Actor) (dev addr : Nat) (op : DomainOp) : Keeps s (peerSend s a dev addr op) := by
  unfold peerSend
  exact (keeps_reqs s _ _ s.weave.sendSeq s.weave.buffer).trans (sendFlit_keeps ..)

theorem peerAsk_keeps (s : State) (a : Actor) (t : Tgt) (op : DomainOp) : Keeps s (peerAsk s a t op).1 := by
  unfold peerAsk
  split
  · split
    · exact peerSend_keeps ..
    · exact .refl s
  · exact .refl s

theorem peerDone_keeps (s : State) (a : Agent) (part : Nat) : Keeps s (peerDone s a part) :=
  keeps_reqs s _ s.weave.nextReq s.weave.sendSeq s.weave.buffer

theorem readTgt_keeps (s : State) (a : Actor) (t : Tgt) (n scope hint : Nat) : Keeps s (readTgt s a t n scope hint).1 := by
  unfold readTgt
  split
  · exact readAt_keeps ..
  · exact .refl s
  · exact .refl s
  · exact peerDone_keeps ..
  · exact .refl s

theorem writeTgt_keeps (s : State) (a : Actor) (t : Tgt) (bs : List Byte) (scope hint : Nat) : Keeps s (writeTgt s a t bs scope hint) := by
  unfold writeTgt
  split
  · exact (acquireOwnership_keeps ..).trans (writeAt_keeps ..)
  · exact keeps_hostWrite ..
  · exact scratchWrite_keeps ..
  · exact peerDone_keeps ..
  · exact .refl s

theorem atomicTgt_keeps (s : State) (a : Actor) (t : Tgt) (fn w b c scope hint : Nat) : Keeps s (atomicTgt s a t fn w b c scope hint).1 := by
  unfold atomicTgt
  split
  · exact peerDone_keeps ..
  · exact (readTgt_keeps ..).trans (writeTgt_keeps ..)

theorem loadPeer_keeps (s : State) (a : Actor) (d p : Nat) (addr : W64) (n space seq : Nat) : Keeps s (loadPeer s a d p addr n space seq).1 := by
  have h := peerAsk_keeps s a (.peer d p) (.load n)
  unfold loadPeer
  split
  · next e => rw [e] at h; exact h
  · next e => rw [e] at h; exact h.trans (peerDone_keeps ..)
  · next e => rw [e] at h; exact h.trans (peerDone_keeps ..)
  · next e => rw [e] at h; exact h.trans (peerDone_keeps ..)
  · next e => rw [e] at h; exact (h.trans (peerDone_keeps ..)).trans (logPoison_keeps ..)

theorem loadTgt_keeps (s : State) (a : Actor) (t : Tgt) (addr : W64) (n space scope hint seq : Nat) :
    Keeps s (loadTgt s a t addr n space scope hint seq).1 := by
  unfold loadTgt
  dsimp only
  split
  · exact loadPeer_keeps ..
  · exact .refl s
  · split
    · exact readTgt_keeps ..
    · split
      · exact logPoison_keeps ..
      · exact (logPoison_keeps ..).trans (readTgt_keeps ..)

theorem feTranslate_keeps (s : State) (c : Nat) (acc : Acc) (va : W64) : Keeps s (feTranslate s c acc va).1 := by
  unfold feTranslate
  split
  · exact .refl s
  · exact checkVirtual_keeps ..

theorem fePlace_keeps (s : State) (c : Nat) (acc : Acc) (va : W64) (n : Nat) : Keeps s (fePlace s c acc va n).1 := by
  have h := feTranslate_keeps s c acc va
  unfold fePlace
  split <;> next e => rw [e] at h; exact h

theorem feRead_keeps (s : State) (c : Nat) (va : W64) (n : Nat) : Keeps s (feRead s c va n).1 := by
  have h := fePlace_keeps s c .load va n
  unfold feRead
  split
  · next e => rw [e] at h; split <;> exact h
  all_goals next e => rw [e] at h; exact h

theorem feWrite_keeps (s : State) (c : Nat) (va : W64) (bs : List Byte) : Keeps s (feWrite s c va bs).1 := by
  have h := fePlace_keeps s c .store va bs.length
  unfold feWrite
  split
  · next e => rw [e] at h; exact (h.trans (recallLine_keeps ..)).trans (homeStoreFe_keeps ..)
  · next e => rw [e] at h; exact h.trans (keeps_hostWrite ..)
  all_goals next e => rw [e] at h; exact h

/-! ### The loader -/

theorem imageRead_keeps (s : State) (h c va n : Nat) : Keeps s (imageRead s h c va n).1 := by
  have ht := translate_keeps s c h (h < 256) va
  unfold imageRead
  split
  · next e => rw [e] at ht; exact ht
  · next e => rw [e] at ht; exact ht
  · next e => rw [e] at ht; exact ht
  · next e => rw [e] at ht; exact ht
  · next e => rw [e] at ht; exact ht.trans (notPresent_keeps ..)
  · next e =>
    rw [e] at ht
    dsimp only
    repeat' split
    all_goals exact ht

end Sys2Proof.Machine
end

