-- ==== Sys2Proof/Laws/NoStore.lean ====
section
/-! SUPPORT. What write-backs, fills, releases and acquires do to memory: they write nothing new; a byte that was dirty in a cache may reach
a wider copy or its home (R127, R140, R149). -/

namespace Sys2Proof.Machine

namespace Flows

theorem refl (s : State) (new : Nat → Byte → Prop) : Flows s s new :=
  ⟨fun _ => .inl rfl, fun _ _ h => .inl h, fun _ => id, le_rfl, fun _ => rfl, fun _ => rfl⟩

theorem trans {s t u : State} {new : Nat → Byte → Prop} (h : Flows s t new) (g : Flows t u new) : Flows s u new := by
  refine ⟨fun a => ?_, fun a v d => ?_, fun a x => h.logs a (g.logs a x), h.seq.trans g.seq, fun e => ?_,
    fun x => (g.scratch x).trans (h.scratch x)⟩
  · rcases g.home a with e | d | n | l
    · rw [e]; exact h.home a
    · exact .inr ((h.dirty a _ d).imp_right .inl)
    · exact .inr (.inr (.inl n))
    · exact .inr (.inr (.inr (h.logs a l)))
  · rcases g.dirty a v d with d | n
    · exact h.dirty a v d
    · exact .inr n
  · have h₁ := h.seq
    have h₂ := g.seq
    exact (g.host (by omega)).trans (h.host (by omega))

theorem mono {s t : State} {new new' : Nat → Byte → Prop} (h : Flows s t new) (hn : ∀ a v, new a v → new' a v) : Flows s t new' :=
  ⟨fun a => (h.home a).imp_right fun x => x.imp_right fun y => y.imp_left (hn a _), fun a v d => (h.dirty a v d).imp_right (hn a v), h.logs,
    h.seq, h.host, h.scratch⟩

theorem foldl {α : Type} {f : State → α → State} {new : Nat → Byte → Prop} (hf : ∀ s x, Flows s (f s x) new) (l : List α) (s : State) :
    Flows s (l.foldl f s) new := by
  induction l generalizing s with
  | nil => exact refl s new
  | cons x l ih => exact (hf s x).trans (ih _)

/-- A change outside memories, caches and contexts. -/
theorem of_eq {s t : State} {new : Nat → Byte → Prop} (h₁ : t.mem = s.mem) (h₂ : t.caches = s.caches) (h₀ : t.ctxs = s.ctxs)
    (h₃ : s.errSeq ≤ t.errSeq) (h₄ : t.errSeq = s.errSeq → t.hostMem = s.hostMem) (h₅ : ∀ h, (t.hand h).scratch = (s.hand h).scratch) :
    Flows s t new :=
  ⟨fun a => .inl (by rw [h₁]), fun a v d => .inl (by unfold dirtyByte lineCopy at *; rwa [h₂] at d),
    fun a d => by unfold inLog State.ctx? at *; rwa [h₀] at d, h₃, h₄, h₅⟩

/-- A context that keeps the place of its log, and does not become valid. -/
theorem of_ctx (s : State) (c : Nat) (f : Ctx → Ctx) (new : Nat → Byte → Prop)
    (h : ∀ x, (f x).undoBase = x.undoBase ∧ (f x).cklog = x.cklog ∧ ((f x).ckptValid = true → x.ckptValid = true)) :
    Flows s (s.updCtx c f) new := by
  refine ⟨fun a => .inl rfl, fun a v d => .inl d, fun a d => ?_, le_rfl, fun _ => rfl, fun _ => rfl⟩
  obtain ⟨n, x, e, v, h₁, h₂⟩ := d
  rw [State.ctx?_updCtx] at e
  split at e
  · cases e' : s.ctx? n with
    | none => rw [e'] at e; cases e
    | some y =>
      rw [e'] at e
      cases e
      obtain ⟨g₁, g₂, g₃⟩ := h y
      exact ⟨n, y, e', g₃ v, g₁ ▸ h₁, g₁ ▸ g₂ ▸ h₂⟩
  · exact ⟨n, x, e, v, h₁, h₂⟩

end Flows

theorem noStore_refl (s : State) : NoStore s s := Flows.refl s _

/-! ### Records -/

theorem raiseVector_mem (s : State) (fn vec : Nat) :
    (raiseVector s fn vec).mem = s.mem ∧ (raiseVector s fn vec).caches = s.caches ∧ (raiseVector s fn vec).errSeq = s.errSeq ∧
      (raiseVector s fn vec).hands = s.hands := by
  unfold raiseVector
  dsimp only
  split
  · split
    · exact ⟨rfl, rfl, rfl, rfl⟩
    · split <;> exact ⟨rfl, rfl, rfl, rfl⟩
  · exact ⟨rfl, rfl, rfl, rfl⟩

theorem postEvent_mem (s : State) (fn kind : Nat) (rest : List Byte) :
    (postEvent s fn kind rest).mem = s.mem ∧ (postEvent s fn kind rest).caches = s.caches ∧ (postEvent s fn kind rest).errSeq = s.errSeq ∧
      (postEvent s fn kind rest).hands = s.hands := by
  unfold postEvent
  dsimp only
  split
  · exact ⟨rfl, rfl, rfl, rfl⟩
  · simp only [raiseVector_mem]; exact ⟨rfl, rfl, rfl, rfl⟩

theorem postError_mem (s : State) (c kind : Nat) (rec : List Byte) :
    (postError s c kind rec).mem = s.mem ∧ (postError s c kind rec).caches = s.caches ∧ (postError s c kind rec).errSeq = s.errSeq ∧
      (postError s c kind rec).hands = s.hands := by
  unfold postError
  dsimp only
  split
  · exact ⟨rfl, rfl, rfl, rfl⟩
  · split
    · simp only [postEvent_mem, raiseVector_mem, and_self]
    · simp only [raiseVector_mem, and_self]

theorem raiseVector_ctxs (s : State) (fn vec : Nat) : (raiseVector s fn vec).ctxs = s.ctxs := by
  unfold raiseVector
  dsimp only
  split
  · split
    · rfl
    · split <;> rfl
  · rfl

theorem postEvent_ctxs (s : State) (fn kind : Nat) (rest : List Byte) : (postEvent s fn kind rest).ctxs = s.ctxs := by
  unfold postEvent
  dsimp only
  split
  · rfl
  · rw [raiseVector_ctxs]; rfl

theorem postError_ctxs (s : State) (c kind : Nat) (rec : List Byte) : (postError s c kind rec).ctxs = s.ctxs := by
  unfold postError
  dsimp only
  split
  · rfl
  · split
    · rw [postEvent_ctxs, raiseVector_ctxs]
    · rw [raiseVector_ctxs]

/-- A record changes host memory alone, and takes the next sequence number. -/
theorem postFault_flows (s : State) (c : Nat) (code : FaultCode) (cls : Class) (p : Site) (addr d1 d2 : W64) (new : Nat → Byte → Prop) :
    Flows s (postFault s c code cls p addr d1 d2) new := by
  unfold postFault
  refine .of_eq (postError_mem ..).1 (postError_mem ..).2.1 (postError_ctxs ..) ?_ (fun h => ?_) fun h => ?_
  · rw [(postError_mem ..).2.2.1]; exact Nat.le_succ _
  · rw [(postError_mem ..).2.2.1] at h; exact absurd h (Nat.succ_ne_self _)
  · unfold State.hand; rw [(postError_mem ..).2.2.2]

/-! ### Homes and caches -/

theorem setTag_flows (s : State) (pa : Nat) (t : BitVec 2) (new : Nat → Byte → Prop) : Flows s (setTag s pa t) new :=
  .of_eq rfl rfl rfl le_rfl (fun _ => rfl) fun _ => rfl

/-- An entry of the undo log has 128 bytes (R352). -/
theorem undo_bytes_length (u : Undo) (n : Nat) (h : u.old.length = 64) : (u.bytes n).length = 128 := by
  simp [Undo.bytes, toBytes, h]

theorem undoAppend_flows (s : State) (c unit : Nat) (new : Nat → Byte → Prop) : Flows s (undoAppend s c unit) new := by
  unfold undoAppend
  split
  · exact .refl s _
  · next x hx =>
    split
    · next hv =>
      have hv : x.ckptValid = true := by
        cases h : x.ckptValid
        · simp [h] at hv
        · rfl
      split
      · exact (Flows.of_ctx s c (fun x => { x with ckptValid := false }) _ fun x => ⟨rfl, rfl, fun h => by cases h⟩).trans (postFault_flows ..)
      · next hl =>
        refine ⟨fun a => ?_, fun a v d => .inl d, fun a d => ?_, le_rfl,
          fun _ => rfl, fun _ => rfl⟩
        swap
        · exact (Flows.of_ctx s c (fun x => { x with undo := ⟨unit, s.poison.contains unit, Memory.read s.mem (unit * 64) 64,
            [tagAt s (unit * 64), tagAt s (unit * 64 + 32)]⟩ :: x.undo, undoBytes := x.undoBytes + 128 }) new fun x => ⟨rfl, rfl, id⟩).logs a d
        by_cases ha : x.undoBase.toNat + x.undoBytes ≤ a ∧ a < x.undoBase.toNat + x.undoBytes + 128
        · exact .inr (.inr (.inr ⟨c, x, hx, hv, by omega, by omega⟩))
        · refine .inl ?_
          show Memory.get (Memory.write s.mem _ _) a = Memory.get s.mem a
          rw [Memory.get_write, if_neg]
          rwa [undo_bytes_length _ _ (by simp [Memory.read])]
    · exact .refl s _

theorem undoAppend_caches (s : State) (c unit : Nat) : (undoAppend s c unit).caches = s.caches := by
  unfold undoAppend
  split
  · rfl
  · split
    · split
      · exact (postError_mem ..).2.1
      · rfl
    · rfl

theorem homeByte_flows (s : State) (c pa : Nat) (b : Byte) (new : Nat → Byte → Prop) (h : new pa b) : Flows s (homeByte s c pa b) new := by
  unfold homeByte
  split
  · refine (undoAppend_flows s c (pa / 64) new).trans ⟨fun a => ?_, fun a v d => .inl d, fun _ => id, le_rfl, fun _ => rfl, fun _ => rfl⟩
    show Memory.get (Memory.put _ pa b) a = _ ∨ _ ∨ new a (Memory.get (Memory.put _ pa b) a) ∨ _
    rw [Memory.get_put]
    by_cases e : a = pa
    · subst e; rw [if_pos rfl]; exact .inr (.inr (.inl h))
    · rw [if_neg e]; exact .inl rfl
  · exact .refl s _

theorem homeBytes_flows (s : State) (c : Nat) (ws : List (Nat × Byte)) (new : Nat → Byte → Prop) (h : ∀ w ∈ ws, new w.1 w.2) :
    Flows s (homeBytes s c ws) new := by
  induction ws generalizing s with
  | nil => exact .refl s _
  | cons w ws ih =>
    exact (homeByte_flows s c w.1 w.2 new (h w List.mem_cons_self)).trans (ih _ fun x hx => h x (List.mem_cons_of_mem _ hx))

theorem poisonRaw_flows (s : State) (us : List Nat) (new : Nat → Byte → Prop) : Flows s (poisonRaw s us) new :=
  .of_eq rfl rfl rfl le_rfl (fun _ => rfl) fun _ => rfl

theorem homeRaw_flows (s : State) (c : Nat) (log : Bool) (p : Site) (vofs : W64) (ws : List (Nat × Byte)) (new : Nat → Byte → Prop)
    (h : ∀ w ∈ ws, new w.1 w.2) : Flows s (homeRaw s c log p vofs ws) new := by
  unfold homeRaw
  exact ((Flows.foldl (fun s k => postFault_flows ..) _ s).trans (homeBytes_flows _ _ _ _ h)).trans
    (.of_eq rfl rfl rfl le_rfl (fun _ => rfl) fun _ => rfl)

/-- The copy of a line at a place after one is set. -/
theorem lineCopy_setLine (s : State) (p la : Nat) (l : CLine) (q lb : Nat) :
    lineCopy (setLine s p la l) q lb = if q = p ∧ lb = la then some l else lineCopy s q lb := by
  unfold lineCopy setLine Map.getD
  dsimp only
  rw [Map.get?_set]
  by_cases hq : q = p
  · subst hq
    rw [if_pos rfl, Option.getD_some, Map.get?_set]
    by_cases hl : lb = la
    · rw [if_pos hl, if_pos ⟨rfl, hl⟩]
    · rw [if_neg hl, if_neg fun h => hl h.2]
  · rw [if_neg hq, if_neg fun h => hq h.1]

/-- The copies after a line is dropped. -/
theorem lineCopy_dropLine (s : State) (p la q lb : Nat) :
    lineCopy (dropLine s p la) q lb = if q = p ∧ lb = la then none else lineCopy s q lb := by
  unfold lineCopy dropLine Map.getD
  dsimp only
  rw [Map.get?_modify]
  by_cases hq : q = p
  · subst hq
    rw [if_pos rfl]
    cases h : Map.get? s.caches q with
    | none => simp [Map.get?]
    | some m =>
      simp only [Option.map_some, Option.getD_some, Map.get?_erase, true_and]
  · rw [if_neg hq, if_neg fun h => hq h.1]

/-- A line set at a place, whose dirty bytes are old dirty bytes of those addresses or new ones. -/
theorem setLine_flows (s : State) (p la : Nat) (l : CLine) (new : Nat → Byte → Prop)
    (h : ∀ i v, l.dirty.getLsbD i = true → l.data[i]? = some v → dirtyByte s (la + i) v ∨ new (la + i) v) : Flows s (setLine s p la l) new := by
  refine ⟨fun a => .inl rfl, fun a v d => ?_, fun _ => id, le_rfl, fun _ => rfl, fun _ => rfl⟩
  obtain ⟨q, lb, m, e, h₁, h₂, h₃⟩ := d
  rw [lineCopy_setLine] at e
  split at e
  · next hq =>
    obtain ⟨-, rfl⟩ := hq
    cases e
    have := h (a - lb) v h₂ h₃
    rwa [Nat.add_sub_cancel' h₁] at this
  · exact .inl ⟨q, lb, m, e, h₁, h₂, h₃⟩

/-- The bytes that a line's dirty bits select are dirty in it. -/
theorem mem_dirtyBytes {la : Nat} {l : CLine} {w : Nat × Byte} (h : w ∈ dirtyBytes la l) :
    ∃ i, w.1 = la + i ∧ l.dirty.getLsbD i = true ∧ l.data[i]? = some w.2 := by
  unfold dirtyBytes at h
  simp only [List.mem_map, List.mem_filter, List.mem_zipIdx_iff_getElem?] at h
  obtain ⟨⟨b, i⟩, ⟨h₁, h₂⟩, rfl⟩ := h
  exact ⟨i, rfl, h₂, h₁⟩

/-- The bytes that a merge leaves, its marks apart. -/
theorem mergeLine_fold (la c : Nat) (ws : List (Nat × Byte)) (l : CLine) (hw : ∀ w ∈ ws, la ≤ w.1) (i : Nat) (v : Byte) :
    let m := ws.foldl (fun l w => { l with data := l.data.set (w.1 - la) w.2, dirty := l.dirty ||| BitVec.twoPow 128 (w.1 - la), ctx := c }) l
    m.dirty.getLsbD i = true → m.data[i]? = some v →
      (l.dirty.getLsbD i = true ∧ l.data[i]? = some v) ∨ ∃ w ∈ ws, w.1 = la + i ∧ w.2 = v := by
  induction ws generalizing l with
  | nil => exact fun hd hv => .inl ⟨hd, hv⟩
  | cons w ws ih =>
    intro m hd hv
    rcases ih _ (fun x hx => hw x (List.mem_cons_of_mem _ hx)) hd hv with ⟨h₁, h₂⟩ | ⟨x, hx, h⟩
    · have hla := hw w List.mem_cons_self
      dsimp only at h₁ h₂
      by_cases e : i = w.1 - la
      · subst e
        rw [List.getElem?_set] at h₂
        simp only [if_true] at h₂
        split at h₂
        · cases h₂
          exact .inr ⟨w, List.mem_cons_self, by omega, rfl⟩
        · cases h₂
      · rw [List.getElem?_set_ne (Ne.symm e)] at h₂
        rw [BitVec.getLsbD_or, BitVec.getLsbD_twoPow] at h₁
        have : decide (w.1 - la = i) = false := by simpa using Ne.symm e
        rw [this, Bool.and_false, Bool.or_false] at h₁
        exact .inl ⟨h₁, h₂⟩
    · exact .inr ⟨x, List.mem_cons_of_mem _ hx, h⟩

/-- A merged line's dirty bytes are its own or those merged in. -/
theorem mergeLine_dirty (la c : Nat) (ws : List (Nat × Byte)) (us : List Nat) (l : CLine) (hw : ∀ w ∈ ws, la ≤ w.1) (i : Nat) (v : Byte)
    (hd : (mergeLine la c l ws us).dirty.getLsbD i = true) (hv : (mergeLine la c l ws us).data[i]? = some v) :
    (l.dirty.getLsbD i = true ∧ l.data[i]? = some v) ∨ ∃ w ∈ ws, w.1 = la + i ∧ w.2 = v :=
  mergeLine_fold la c ws l hw i v hd hv

/-- A flow whose new bytes were dirty in the first state writes nothing. -/
theorem noStore_of_dirty {s t : State} (h : Flows s t (dirtyByte s)) : NoStore s t :=
  ⟨fun a => (h.home a).imp_right fun x => x.elim .inl fun y => y.elim .inl fun z => .inr (.inr z),
    fun a v d => .inl ((h.dirty a v d).elim id id), h.logs, h.seq, h.host, h.scratch⟩

/-- What stores nothing is a flow of any bytes. -/
theorem NoStore.flows {s t : State} (h : NoStore s t) (new : Nat → Byte → Prop) : Flows s t new := h.mono fun _ _ => False.elim

theorem dropLine_noStore (s : State) (p la : Nat) : NoStore s (dropLine s p la) := by
  refine ⟨fun a => .inl rfl, fun a v d => .inl ?_, fun _ => id, le_rfl, fun _ => rfl, fun _ => rfl⟩
  obtain ⟨q, lb, m, e, h⟩ := d
  rw [lineCopy_dropLine] at e
  split at e
  · cases e
  · exact ⟨q, lb, m, e, h⟩

/-- The bytes of a copy that are dirty in it are dirty bytes of the state. -/
theorem dirtyByte_of_copy {s : State} {p la : Nat} {l : CLine} (e : lineCopy s p la = some l) {w : Nat × Byte} (hw : w ∈ dirtyBytes la l) :
    la ≤ w.1 ∧ dirtyByte s w.1 w.2 := by
  obtain ⟨i, h₁, h₂, h₃⟩ := mem_dirtyBytes hw
  exact ⟨by omega, p, la, l, e, by omega, by rwa [h₁, Nat.add_sub_cancel_left], by rwa [h₁, Nat.add_sub_cancel_left]⟩

theorem sliceOut_noStore (p : Nat) (s : State) (v : Nat) : NoStore s (sliceOut p s v) := by
  unfold sliceOut
  split
  · next l e =>
    exact noStore_of_dirty (((homeRaw_flows _ _ _ _ _ _ _ fun w hw => (dirtyByte_of_copy e hw).2).trans (poisonRaw_flows ..)).trans
      ((dropLine_noStore ..).flows _))
  · exact .of_eq rfl rfl rfl le_rfl (fun _ => rfl) fun _ => rfl

theorem settleSets_noStore (n : Nat) (w : List (Nat × Nat)) (s : State) : NoStore s (settleSets n w s) := by
  induction n generalizing w s with
  | zero => exact noStore_refl s
  | succ n ih =>
    cases w with
    | nil => exact noStore_refl s
    | cons x w =>
      unfold settleSets
      split
      · exact ih w s
      · split
        · exact ih w s
        · exact (sliceOut_noStore ..).trans (ih ..)

theorem settleLines_noStore (w : List (Nat × Nat)) (s : State) : NoStore s (settleLines w s) := by
  unfold settleLines
  split
  · exact noStore_refl s
  · exact settleSets_noStore ..

theorem settleHomes_noStore (las : List Nat) (s : State) : NoStore s (settleHomes las s) := settleLines_noStore ..

theorem spoil_flows (s : State) (us : List Nat) (new : Nat → Byte → Prop) : Flows s (spoil s us) new :=
  (poisonRaw_flows ..).trans ((settleHomes_noStore ..).flows _)

theorem homeStoreBy_flows (s : State) (c : Nat) (p : Site) (vofs : W64) (ws : List (Nat × Byte)) (new : Nat → Byte → Prop)
    (h : ∀ w ∈ ws, new w.1 w.2) : Flows s (homeStoreBy s c p vofs ws) new :=
  (homeRaw_flows _ _ _ _ _ _ _ h).trans ((settleHomes_noStore ..).flows _)

theorem homeStore_flows (s : State) (c : Nat) (ws : List (Nat × Byte)) (new : Nat → Byte → Prop) (h : ∀ w ∈ ws, new w.1 w.2) :
    Flows s (homeStore s c ws) new := homeStoreBy_flows _ _ _ _ _ _ h

/-- Lines that leave a set store nothing where no departure does. -/
theorem shrink_noStore {out : State → Nat → State} (h : ∀ s v, NoStore s (out s v)) (p la n : Nat) (s : State) : NoStore s (shrink out p la n s) := by
  induction n generalizing s with
  | zero => exact noStore_refl s
  | succ n ih =>
    unfold shrink
    split
    · exact noStore_refl s
    · split
      · exact noStore_refl s
      · exact (h s _).trans (ih _)

theorem settleSlice_noStore (s : State) (p la : Nat) : NoStore s (settleSlice s p la) := by
  unfold settleSlice
  split
  · exact noStore_refl s
  · exact settleLines_noStore ..

theorem pushBytes_flows (s : State) (c la : Nat) (ws : List (Nat × Byte)) (us : List Nat) (new : Nat → Byte → Prop)
    (h : ∀ w ∈ ws, la ≤ w.1 ∧ new w.1 w.2) (ps : List Nat) : Flows s (pushBytes s c la ws us ps) new := by
  induction ps with
  | nil => exact (homeStore_flows _ _ _ _ fun w hw => (h w hw).2).trans (spoil_flows ..)
  | cons p ps ih =>
    unfold pushBytes
    split
    · next l e =>
      refine (setLine_flows _ _ _ _ _ fun i v h₁ h₂ => ?_).trans ((settleSlice_noStore ..).flows _)
      rcases mergeLine_dirty la c ws us l (fun w hw => (h w hw).1) i v h₁ h₂ with ⟨h₃, h₄⟩ | ⟨w, hw, h₃, h₄⟩
      · exact .inl ⟨p, la, l, e, Nat.le_add_right _ _, by rwa [Nat.add_sub_cancel_left], by rwa [Nat.add_sub_cancel_left]⟩
      · exact .inr (h₃ ▸ h₄ ▸ (h w hw).2)
    · exact ih

theorem writeBack_noStore (s : State) (p la : Nat) : NoStore s (writeBack s p la) := by
  unfold writeBack
  split
  · exact noStore_refl s
  · next l e =>
    split
    · exact noStore_refl s
    · refine noStore_of_dirty ((setLine_flows s p la _ _ fun i v h _ => ?_).trans (pushBytes_flows _ _ _ _ _ _ (fun w hw => ?_) _))
      · simp at h
      · exact dirtyByte_of_copy e hw

theorem evict_noStore (s : State) (p la : Nat) : NoStore s (evict s p la) := (writeBack_noStore s p la).trans (dropLine_noStore ..)

theorem flushPlace_noStore (s : State) (inv : Bool) (p : Nat) : NoStore s (flushPlace s inv p) := by
  unfold flushPlace
  refine Flows.foldl (fun s la => ?_) _ s
  split
  · exact evict_noStore ..
  · exact writeBack_noStore ..

theorem releaseAt_noStore (s : State) (h scope : Nat) : NoStore s (releaseAt s h scope) := Flows.foldl (fun s p => flushPlace_noStore s false p) _ s
theorem acquireAt_noStore (s : State) (h scope : Nat) : NoStore s (acquireAt s h scope) := Flows.foldl (fun s p => flushPlace_noStore s true p) _ s
theorem recallLine_noStore (s : State) (la : Nat) : NoStore s (recallLine s la) := Flows.foldl (fun s p => evict_noStore s p la) _ s
theorem flushAll_noStore (s : State) : NoStore s (flushAll s) := Flows.foldl (fun s p => flushPlace_noStore s true p) _ s

theorem leaveSet_noStore (p : Nat) (s : State) (v : Nat) : NoStore s (leaveSet p s v) := by
  unfold leaveSet
  split
  · exact evict_noStore ..
  · exact sliceOut_noStore ..

theorem fillAt_noStore (la hint : Nat) (s : State) (p : Nat) : NoStore s (fillAt la hint s p) := by
  unfold fillAt
  split
  · next l e =>
    exact setLine_flows _ _ _ _ _ fun i v h₁ h₂ =>
      .inl ⟨p, la, l, e, Nat.le_add_right _ _, by rwa [Nat.add_sub_cancel_left], by rwa [Nat.add_sub_cancel_left]⟩
  · exact Flows.trans (setLine_flows _ _ _ _ _ fun i v h _ => by simp at h) (shrink_noStore (leaveSet_noStore p) ..)

theorem lineFill_noStore (s : State) (la hint : Nat) (ps : List Nat) : NoStore s (lineFill s la hint ps) := by
  unfold lineFill
  split
  · exact Flows.foldl (fillAt_noStore la hint) _ s
  · exact noStore_refl s

theorem homeFill_noStore (s : State) (la hint : Nat) : NoStore s (homeFill s la hint) := by
  unfold homeFill
  split
  · exact noStore_refl s
  · refine Flows.trans ?_ (shrink_noStore (leaveSet_noStore _) ..)
    exact .of_eq rfl rfl rfl le_rfl (fun _ => rfl) fun _ => rfl

theorem allocate_noStore (s : State) (la hint : Nat) (ps : List Nat) : NoStore s (allocate s la hint ps) := by
  unfold allocate
  split
  · exact (homeFill_noStore ..).trans (lineFill_noStore ..)
  · exact lineFill_noStore ..

theorem descend_noStore (s : State) (h la scope hint : Nat) : NoStore s (descend s h la scope hint) := Flows.foldl (fun s p => evict_noStore s p la) _ s

theorem readAt_noStore (s : State) (h pa n scope hint : Nat) : NoStore s (readAt s h pa n scope hint).1 :=
  (descend_noStore ..).trans (allocate_noStore ..)

/-! ### What a release and an acquire leave (R149) -/

/-- At place `q` line `lb` is as before, or no longer there. -/
def keptOrGone (s t : State) (q lb : Nat) : Prop := lineCopy t q lb = none ∨ lineCopy t q lb = lineCopy s q lb

theorem keptOrGone_trans {s t u : State} {q lb : Nat} (h : keptOrGone s t q lb) (g : keptOrGone t u q lb) : keptOrGone s u q lb :=
  g.elim .inl fun e => h.elim (fun x => .inl (e.trans x)) fun x => .inr (e.trans x)

theorem lineCopy_homeRaw (s : State) (c : Nat) (log : Bool) (p : Site) (vofs : W64) (ws : List (Nat × Byte)) (q lb : Nat) :
    lineCopy (homeRaw s c log p vofs ws) q lb = lineCopy s q lb := by
  have h₁ : ∀ (l : List Nat) (f : State → Nat → State), (∀ s k, (f s k).caches = s.caches) → ∀ s, (l.foldl f s).caches = s.caches := by
    intro l f hf
    induction l with
    | nil => intro s; rfl
    | cons x l ih => intro s; rw [List.foldl_cons, ih, hf]
  have h₂ : ∀ (c : Nat) (ws : List (Nat × Byte)) (s : State), (homeBytes s c ws).caches = s.caches := by
    intro c ws
    induction ws with
    | nil => intro s; rfl
    | cons w ws ih =>
      intro s
      unfold homeBytes
      rw [ih]
      unfold homeByte
      split
      · exact undoAppend_caches ..
      · rfl
  unfold lineCopy homeRaw
  dsimp only
  rw [h₂, h₁]
  exact fun s k => (postError_mem ..).2.1

theorem sliceOut_kept (p : Nat) (s : State) (v q lb : Nat) : keptOrGone s (sliceOut p s v) q lb := by
  unfold sliceOut
  split
  · unfold keptOrGone
    rw [lineCopy_dropLine]
    split
    · exact .inl rfl
    · exact .inr (lineCopy_homeRaw ..)
  · exact .inr rfl

theorem settleSets_kept (n : Nat) (w : List (Nat × Nat)) (s : State) (q lb : Nat) : keptOrGone s (settleSets n w s) q lb := by
  induction n generalizing w s with
  | zero => exact .inr rfl
  | succ n ih =>
    cases w with
    | nil => exact .inr rfl
    | cons x w =>
      unfold settleSets
      split
      · exact ih w s
      · split
        · exact ih w s
        · exact keptOrGone_trans (sliceOut_kept ..) (ih ..)

theorem settleLines_kept (w : List (Nat × Nat)) (s : State) (q lb : Nat) : keptOrGone s (settleLines w s) q lb := by
  unfold settleLines
  split
  · exact .inr rfl
  · exact settleSets_kept ..

theorem homeStore_kept (s : State) (c : Nat) (ws : List (Nat × Byte)) (q lb : Nat) : keptOrGone s (homeStore s c ws) q lb :=
  keptOrGone_trans (.inr (lineCopy_homeRaw ..)) (settleLines_kept ..)

theorem spoil_kept (s : State) (us : List Nat) (q lb : Nat) : keptOrGone s (spoil s us) q lb :=
  keptOrGone_trans (t := poisonRaw s us) (.inr rfl) (settleLines_kept ..)

theorem settleSlice_kept (s : State) (p la q lb : Nat) : keptOrGone s (settleSlice s p la) q lb := by
  unfold settleSlice
  split
  · exact .inr rfl
  · exact settleLines_kept ..

/-- A push changes no line at a place that is not among those it may reach; lines of a home's set may leave. -/
theorem pushBytes_kept (s : State) (c la : Nat) (ws : List (Nat × Byte)) (us ps : List Nat) (q lb : Nat) (h : q ∉ ps) :
    keptOrGone s (pushBytes s c la ws us ps) q lb := by
  induction ps with
  | nil => exact keptOrGone_trans (homeStore_kept ..) (spoil_kept ..)
  | cons p ps ih =>
    have hp : q ≠ p := fun e => h (e ▸ List.mem_cons_self)
    unfold pushBytes
    split
    · exact keptOrGone_trans (t := setLine s p la _) (.inr (by rw [lineCopy_setLine, if_neg fun e => hp e.1])) (settleSlice_kept ..)
    · exact ih fun hx => h (List.mem_cons_of_mem _ hx)

/-- The places wider than a place do not include it, nor a narrower one of the same hand. -/
theorem widerOf_gt (p la q : Nat) (h : q ∈ widerOf p la) : p < q ∧ 256 ≤ q ∧ (256 ≤ p → 512 ≤ q) := by
  unfold widerOf at h
  split at h
  · unfold pathOf l1Place clPlace l2Place at h
    split at h <;> simp at h <;> omega
  · split at h
    · unfold l2Place at h
      split at h <;> simp at h <;> omega
    · cases h

/-- A line after it was cleaned, or dropped. -/
def cleaned (inv : Bool) (l : Option CLine) : Option CLine := if inv then none else l.map fun l => { l with dirty := 0 }

/-- A write-back cleans its line; it touches wider places alone, where lines of a home's set may leave. -/
theorem lineCopy_writeBack (s : State) (p la q lb : Nat) (h : q ∉ widerOf p la) :
    lineCopy (writeBack s p la) q lb = none ∨
      lineCopy (writeBack s p la) q lb = if q = p ∧ lb = la then cleaned false (lineCopy s q lb) else lineCopy s q lb := by
  unfold writeBack
  split
  · next e =>
    refine .inr ?_
    split
    · next h' => obtain ⟨rfl, rfl⟩ := h'; rw [e]; rfl
    · rfl
  · next l e =>
    split
    · next h₀ =>
      refine .inr ?_
      split
      · next h' =>
        obtain ⟨rfl, rfl⟩ := h'
        unfold cleaned
        rw [e, if_neg Bool.false_ne_true, Option.map_some, ← h₀]
      · rfl
    · refine (pushBytes_kept _ _ _ _ _ _ _ _ h).imp_right fun x => x.trans ?_
      rw [lineCopy_setLine]
      split
      · next h' => obtain ⟨rfl, rfl⟩ := h'; rw [e]; rfl
      · rfl

theorem lineCopy_evict (s : State) (p la q lb : Nat) (h : q ∉ widerOf p la) :
    lineCopy (evict s p la) q lb = none ∨ lineCopy (evict s p la) q lb = if q = p ∧ lb = la then none else lineCopy s q lb := by
  unfold evict
  rw [lineCopy_dropLine]
  split
  · exact .inl rfl
  · next h' => exact (lineCopy_writeBack _ _ _ _ _ h).imp_right fun x => by rwa [if_neg h'] at x

/-- The same of either. -/
theorem lineCopy_flushed (inv : Bool) (s : State) (p la q lb : Nat) (h : q ∉ widerOf p la) :
    lineCopy (if inv then evict s p la else writeBack s p la) q lb = none ∨
      lineCopy (if inv then evict s p la else writeBack s p la) q lb =
        if q = p ∧ lb = la then cleaned inv (lineCopy s q lb) else lineCopy s q lb := by
  cases inv
  · exact lineCopy_writeBack _ _ _ _ _ h
  · exact lineCopy_evict _ _ _ _ _ h

theorem cleaned_cleaned (inv : Bool) (l : Option CLine) : cleaned inv (cleaned inv l) = cleaned inv l := by
  cases inv <;> cases l <;> rfl

theorem cleaned_none (inv : Bool) : cleaned inv none = none := by cases inv <;> rfl

/-- The lines that a place holds are among its keys. -/
theorem mem_keys_of_lineCopy {s : State} {p la : Nat} {l : CLine} (h : lineCopy s p la = some l) : la ∈ (s.caches.getD p []).keys := by
  unfold lineCopy at h
  generalize s.caches.getD p [] = m at h
  induction m with
  | nil => cases h
  | cons x m ih =>
    unfold Map.get? at h
    split at h
    · next e => subst e; exact List.mem_cons_self
    · exact List.mem_cons_of_mem _ (ih h)

/-- A flush changes, of the places not wider than its own, only its own lines: cleaned, or dropped; lines of a home's set may leave. -/
theorem lineCopy_flush_fold (inv : Bool) (p : Nat) (ks : List Nat) (s : State) (q lb : Nat) (h : ∀ la, q ∉ widerOf p la) :
    lineCopy (ks.foldl (fun s la => if inv then evict s p la else writeBack s p la) s) q lb = none ∨
      lineCopy (ks.foldl (fun s la => if inv then evict s p la else writeBack s p la) s) q lb =
        if q = p ∧ lb ∈ ks then cleaned inv (lineCopy s q lb) else lineCopy s q lb := by
  induction ks generalizing s with
  | nil => simp
  | cons k ks ih =>
    rw [List.foldl_cons]
    refine (ih _).elim .inl fun e => ?_
    rw [e]
    rcases lineCopy_flushed inv s p k q lb (h k) with e' | e' <;> rw [e']
    · rw [cleaned_none, ite_self]; exact .inl rfl
    · right
      by_cases hq : q = p <;> by_cases hk : lb = k <;> by_cases hm : lb ∈ ks <;> simp [hq, hk, hm, cleaned_cleaned]

/-- What a flush leaves at a place not wider than its own. -/
theorem lineCopy_flushPlace (s : State) (inv : Bool) (p q lb : Nat) (h : ∀ la, q ∉ widerOf p la) :
    lineCopy (flushPlace s inv p) q lb = none ∨
      lineCopy (flushPlace s inv p) q lb = if q = p then cleaned inv (lineCopy s q lb) else lineCopy s q lb := by
  unfold flushPlace
  refine (lineCopy_flush_fold inv p _ s q lb h).imp_right fun e => e.trans ?_
  by_cases hq : q = p
  · subst hq
    simp only [true_and, if_true]
    split
    · rfl
    · next hk =>
      cases e : lineCopy s q lb with
      | none => rw [cleaned_none]
      | some l => exact absurd (mem_keys_of_lineCopy e) hk
  · simp [hq]

/-- The narrower places of a hand, in order, each wider than those before it. -/
theorem narrower_sorted (h scope : Nat) (hh : h < 256) : (narrower h scope).Pairwise fun p q => ∀ la, p ∉ widerOf q la := by
  have hs : (narrower h scope).Pairwise (· < ·) := by
    have hc : clusterOf h < 256 := by unfold clusterOf dieOf; omega
    have hl : ((List.range 64).map (l2Place (dieOf h))).Pairwise (· < ·) :=
      List.pairwise_map.2 (List.pairwise_lt_range.imp fun {a b} x => by unfold l2Place; omega)
    have hm : ∀ q ∈ (List.range 64).map (l2Place (dieOf h)), 512 ≤ q := fun q hq => by
      obtain ⟨k, -, rfl⟩ := List.mem_map.1 hq
      unfold l2Place; omega
    unfold narrower
    simp only [List.pairwise_append, List.mem_append]
    refine ⟨⟨?_, ?_, fun a ha b hb => ?_⟩, ?_, fun a ha b hb => ?_⟩
    · split <;> simp
    · split <;> simp
    · split at ha <;> split at hb <;> simp [l1Place, clPlace] at ha hb; omega
    · split
      · exact hl
      · exact .nil
    · have hb : 512 ≤ b := by
        split at hb
        · exact hm b hb
        · cases hb
      rcases ha with ha | ha <;> split at ha <;> simp [l1Place, clPlace] at ha <;> omega
  exact hs.imp fun {p q} hpq la m => absurd (widerOf_gt _ _ _ m).1 (by omega)

theorem not_mem_widerOf_self (p la : Nat) : p ∉ widerOf p la := fun h => absurd (widerOf_gt p la p h).1 (Nat.lt_irrefl p)

/-- At place `q` nothing is dirty, and where lines were dropped nothing is left. -/
def flushedAt (inv : Bool) (s : State) (q : Nat) : Prop := ∀ la l, lineCopy s q la = some l → inv = false ∧ l.dirty = 0

theorem flushedAt_flushPlace (inv : Bool) (s : State) (p q : Nat) (hq : ∀ la, q ∉ widerOf p la) (h : q = p ∨ flushedAt inv s q) :
    flushedAt inv (flushPlace s inv p) q := by
  intro la l e
  rcases lineCopy_flushPlace s inv p q la hq with e' | e' <;> rw [e'] at e
  · cases e
  by_cases hp : q = p
  · rw [if_pos hp] at e
    cases inv
    · simp only [cleaned, Bool.false_eq_true, if_false, Option.map_eq_some_iff] at e
      obtain ⟨x, -, rfl⟩ := e
      exact ⟨rfl, rfl⟩
    · cases e
  · rw [if_neg hp] at e
    exact (h.resolve_left hp) la l e

theorem flushedAt_keep (inv : Bool) (q : Nat) (ps : List Nat) (s : State) (hq : ∀ p ∈ ps, ∀ la, q ∉ widerOf p la) (h : flushedAt inv s q) :
    flushedAt inv (ps.foldl (flushPlace · inv ·) s) q := by
  induction ps generalizing s with
  | nil => exact h
  | cons p ps ih =>
    exact ih _ (fun x hx => hq x (List.mem_cons_of_mem _ hx)) (flushedAt_flushPlace inv s p q (hq p List.mem_cons_self) (.inr h))

/-- Flushing places, each wider than those before it, leaves every one of them flushed. -/
theorem flushedAt_places (inv : Bool) (ps : List Nat) (hp : ps.Pairwise fun p q => ∀ la, p ∉ widerOf q la) (s : State) :
    ∀ q ∈ ps, flushedAt inv (ps.foldl (flushPlace · inv ·) s) q := by
  induction ps generalizing s with
  | nil => intro q hq; cases hq
  | cons p ps ih =>
    rw [List.pairwise_cons] at hp
    intro q hq
    rw [List.foldl_cons]
    rcases List.mem_cons.1 hq with rfl | hq
    · exact flushedAt_keep inv q ps _ hp.1 (flushedAt_flushPlace inv s q q (not_mem_widerOf_self q) (.inl rfl))
    · exact ih hp.2 _ q hq

/-- The release at a scope is done. -/
theorem releaseAt_released (s : State) (h scope : Nat) (hh : h < 256) : releasedAt (releaseAt s h scope) h scope := fun p hp la l e =>
  (flushedAt_places false _ (narrower_sorted h scope hh) s p hp la l e).2

/-- The acquire at a scope is done. -/
theorem acquireAt_acquired (s : State) (h scope : Nat) (hh : h < 256) : acquiredAt (acquireAt s h scope) h scope := fun p hp la => by
  cases e : lineCopy (acquireAt s h scope) p la with
  | none => rfl
  | some l => cases (flushedAt_places true _ (narrower_sorted h scope hh) s p hp la l e).1

end Sys2Proof.Machine
end

