-- ==== Sys2Proof/Laws/PerInstr.lean ====
section
/-! SUPPORT. The round trip of encoding and decoding, one lemma per instruction: the words that the encoder gives a well-formed instruction
have the length that their word 0 says (R76), and the opcode maps (R77-R82) read the same instruction from them, with every bit it does not
hold 0. -/

namespace Sys2Proof.Laws.RoundTrip

open Sys2Proof

/-- What is said of each instruction. -/
def Statement (i : Instr) : Prop :=
  ∀ e ws, encode i = some (e, ws) → i.wf = true → ws.length = instrWords e (ws.getD 0 0) ∧ decodeRaw e ws = some (i, true)

/-- The length of a control instruction from its major. -/
theorem words_cc {w : W32} {m : Nat} (h : w.toNat / 2 ^ 26 = m) : instrWords .cc w = if m < 0x30 then 1 else 2 := by
  unfold instrWords; rw [h]
/-- The length of an instruction of another engine from its op. -/
theorem words_op {w : W32} {o : Nat} (h : w.toNat / 2 ^ 24 = o) :
    instrWords .lane w = (if o = 0 then 1 else if o < 0xC0 then 2 else 3) ∧ instrWords .matrix w = (if o = 0 then 1 else 2) ∧
      instrWords .copy w = if o = 0 then 1 else if o < 0x80 then 2 else 3 := by
  subst h; exact ⟨rfl, rfl, rfl⟩

/-- One word of the control core. -/
theorem cc1 {i : Instr} {w : W32} (he : encode i = some (.cc, [w])) {m : Nat} (hm : w.toNat / 2 ^ 26 = m) (h : m < 0x30)
    (hd : ∀ v, decodeCC w v = some (i, true)) : Statement i := by
  intro e ws h' _
  rw [he] at h'
  cases h'
  exact ⟨((words_cc hm).trans (if_pos h)).symm, hd _⟩

/-- Two words of the control core. -/
theorem cc2 {i : Instr} {w v : W32} (he : encode i = some (.cc, [w, v])) {m : Nat} (hm : w.toNat / 2 ^ 26 = m) (h : 0x30 ≤ m)
    (hd : i.wf = true → decodeCC w v = some (i, true)) : Statement i := by
  intro e ws h' hw
  rw [he] at h'
  cases h'
  exact ⟨((words_cc hm).trans (if_neg (Nat.not_lt.2 h))).symm, hd hw⟩

/-- The control core's majors of the other classes. -/
theorem decodeCC_eq (w v : W32) {m : Nat} (h : w.toNat / 2 ^ 26 = m) (h3 : 0x38 ≤ m) : decodeCC w v = decodeMem w v := by
  unfold decodeCC
  rw [h]
  dsimp only
  split <;> first | omega | rfl

/-- A lane-group instruction of two words. -/
theorem lane2 {i : Instr} {op : BitVec 8} {f : LaneW} (he : encode i = some (.lane, encLane op f)) {o : Nat} (ho : op.toNat = o)
    (h : 0 < o ∧ o < 0xC0) (hd : ∀ w v, w.toNat / 2 ^ 24 = o → laneOf w v = f → decodeLane w v 0 = some (i, true)) : Statement i := by
  obtain ⟨h₁, h₂⟩ := encLane_fields op f
  rw [ho] at h₁
  intro e ws h' _
  rw [he] at h'
  cases h'
  refine ⟨?_, hd _ _ h₁ h₂⟩
  exact ((words_op h₁).1.trans (by rw [if_neg (Nat.pos_iff_ne_zero.1 h.1), if_pos h.2]; rfl)).symm

/-- A lane-group instruction of three words. -/
theorem lane3 {i : Instr} {op : BitVec 8} {f : LaneW} {u : W32} (he : encode i = some (.lane, [encLane0 op f, encLane1 f, u])) {o : Nat}
    (ho : op.toNat = o) (h : 0xC0 ≤ o) (hd : ∀ w v, w.toNat / 2 ^ 24 = o → laneOf w v = f → decodeLane w v u = some (i, true)) :
    Statement i := by
  obtain ⟨h₁, h₂⟩ := encLane_fields op f
  rw [ho] at h₁
  intro e ws h' _
  rw [he] at h'
  cases h'
  refine ⟨?_, hd _ _ h₁ h₂⟩
  exact ((words_op h₁).1.trans (by rw [if_neg (show o ≠ 0 by omega), if_neg (Nat.not_lt.2 h)]; rfl)).symm

/-- A matrix-sequencer instruction. -/
theorem mat2 {i : Instr} {op : BitVec 8} {f : MatW} (he : encode i = some (.matrix, encMat op f)) {o : Nat} (ho : op.toNat = o) (h : 0 < o)
    (hd : ∀ w v, w.toNat / 2 ^ 24 = o → matOf w v = f → decodeMatrix w v = some (i, true)) : Statement i := by
  obtain ⟨w, v, hw, h₁, h₂⟩ := encMat_fields op f
  rw [ho] at h₁
  intro e ws h' _
  rw [he, hw] at h'
  cases h'
  exact ⟨((words_op h₁).2.1.trans (if_neg (Nat.pos_iff_ne_zero.1 h))).symm, hd _ _ h₁ h₂⟩

/-- A copy command of two words. -/
theorem copy2 {i : Instr} {op : BitVec 8} {f : CopyW} (he : encode i = some (.copy, encCopy op f)) {o : Nat} (ho : op.toNat = o)
    (h : 0 < o ∧ o < 0x80) (hd : ∀ w v, w.toNat / 2 ^ 24 = o → copyOf w v = f → decodeCopy w v 0 = some (i, true)) : Statement i := by
  obtain ⟨w, v, hw, h₁, h₂⟩ := encCopy_fields op f
  rw [ho] at h₁
  intro e ws h' _
  rw [he, hw] at h'
  cases h'
  exact ⟨((words_op h₁).2.2.trans (by rw [if_neg (Nat.pos_iff_ne_zero.1 h.1), if_pos h.2]; rfl)).symm, hd _ _ h₁ h₂⟩

/-- A copy command of three words. -/
theorem copy3 {i : Instr} {op : BitVec 8} {f : CopyW} {u : W32} (he : encode i = some (.copy, encCopy op f ++ [u])) {o : Nat} (ho : op.toNat = o)
    (h : 0x80 ≤ o) (hd : ∀ w v, w.toNat / 2 ^ 24 = o → copyOf w v = f → decodeCopy w v u = some (i, true)) : Statement i := by
  obtain ⟨w, v, hw, h₁, h₂⟩ := encCopy_fields op f
  rw [ho] at h₁
  intro e ws h' _
  rw [he, hw] at h'
  cases h'
  exact ⟨((words_op h₁).2.2.trans (by rw [if_neg (show o ≠ 0 by omega), if_neg (Nat.not_lt.2 h)]; rfl)).symm, hd _ _ h₁ h₂⟩

/-- A float instruction, in each format. -/
theorem float2 {i : Instr} {fm : FFmt} {n : BitVec 4} {f : LaneW} (he : encode i = some (.lane, encFloat fm n f)) {k : Nat} (hk : n.toNat = k)
    (hd : decodeFloat k fm f = some (i, true)) : Statement i := by
  have ho := toNat_app fm.opBase n
  rw [hk] at ho
  have hn := n.isLt
  rw [hk] at hn
  obtain ⟨h₁, h₂⟩ : 32 ≤ fm.opBase.toNat * 2 ^ 4 + k ∧ fm.opBase.toNat * 2 ^ 4 + k < 80 := by
    have : 2 ≤ fm.opBase.toNat ∧ fm.opBase.toNat ≤ 4 := by cases fm <;> decide
    omega
  refine lane2 he ho ⟨by omega, by omega⟩ fun w v hw hf => ?_
  unfold decodeLane
  rw [hw, hf]
  dsimp only
  split
  all_goals try omega
  cases fm
  · rw [if_pos (show (FFmt.f32.opBase.toNat * 2 ^ 4 + k) / 16 = 2 by have : FFmt.f32.opBase.toNat = 2 := rfl; omega),
      show (FFmt.f32.opBase.toNat * 2 ^ 4 + k) % 16 = k by have : FFmt.f32.opBase.toNat = 2 := rfl; omega]
    exact hd
  · rw [if_neg (show ¬(FFmt.f16.opBase.toNat * 2 ^ 4 + k) / 16 = 2 by have : FFmt.f16.opBase.toNat = 3 := rfl; omega),
      if_pos (show (FFmt.f16.opBase.toNat * 2 ^ 4 + k) / 16 = 3 by have : FFmt.f16.opBase.toNat = 3 := rfl; omega),
      show (FFmt.f16.opBase.toNat * 2 ^ 4 + k) % 16 = k by have : FFmt.f16.opBase.toNat = 3 := rfl; omega]
    exact hd
  · rw [if_neg (show ¬(FFmt.bf16.opBase.toNat * 2 ^ 4 + k) / 16 = 2 by have : FFmt.bf16.opBase.toNat = 4 := rfl; omega),
      if_neg (show ¬(FFmt.bf16.opBase.toNat * 2 ^ 4 + k) / 16 = 3 by have : FFmt.bf16.opBase.toNat = 4 := rfl; omega),
      if_pos (show (FFmt.bf16.opBase.toNat * 2 ^ 4 + k) / 16 = 4 by have : FFmt.bf16.opBase.toNat = 4 := rfl; omega),
      show (FFmt.bf16.opBase.toNat * 2 ^ 4 + k) % 16 = k by have : FFmt.bf16.opBase.toNat = 4 := rfl; omega]
    exact hd

theorem nop : Statement (.nop) := cc1 (m := 0) rfl (by decide) (by decide) fun _ => rfl
theorem add (x0 : R5) (x1 : R5) (x2 : R5) : Statement (.add x0 x1 x2) := cc1 rfl (encCR_fields 1 x0 x1 x2 0x001).1 (by decide) fun _ => by
    obtain ⟨h₀, h₁, h₂, h₃, h₄, _⟩ := encCR_fields 1 x0 x1 x2 0x001
    generalize encCR 1 x0 x1 x2 0x001 = w at h₀ h₁ h₂ h₃ h₄ ⊢
    unfold decodeCC
    rw [h₀]
    simp only [decodeInt, h₁, h₂, h₃, h₄]
    try rfl
theorem sub (x0 : R5) (x1 : R5) (x2 : R5) : Statement (.sub x0 x1 x2) := cc1 rfl (encCR_fields 1 x0 x1 x2 0x002).1 (by decide) fun _ => by
    obtain ⟨h₀, h₁, h₂, h₃, h₄, _⟩ := encCR_fields 1 x0 x1 x2 0x002
    generalize encCR 1 x0 x1 x2 0x002 = w at h₀ h₁ h₂ h₃ h₄ ⊢
    unfold decodeCC
    rw [h₀]
    simp only [decodeInt, h₁, h₂, h₃, h₄]
    try rfl
theorem mul (x0 : R5) (x1 : R5) (x2 : R5) : Statement (.mul x0 x1 x2) := cc1 rfl (encCR_fields 1 x0 x1 x2 0x003).1 (by decide) fun _ => by
    obtain ⟨h₀, h₁, h₂, h₃, h₄, _⟩ := encCR_fields 1 x0 x1 x2 0x003
    generalize encCR 1 x0 x1 x2 0x003 = w at h₀ h₁ h₂ h₃ h₄ ⊢
    unfold decodeCC
    rw [h₀]
    simp only [decodeInt, h₁, h₂, h₃, h₄]
    try rfl
theorem mulh (x0 : R5) (x1 : R5) (x2 : R5) : Statement (.mulh x0 x1 x2) := cc1 rfl (encCR_fields 1 x0 x1 x2 0x004).1 (by decide) fun _ => by
    obtain ⟨h₀, h₁, h₂, h₃, h₄, _⟩ := encCR_fields 1 x0 x1 x2 0x004
    generalize encCR 1 x0 x1 x2 0x004 = w at h₀ h₁ h₂ h₃ h₄ ⊢
    unfold decodeCC
    rw [h₀]
    simp only [decodeInt, h₁, h₂, h₃, h₄]
    try rfl
theorem mulhn (x0 : R5) (x1 : R5) (x2 : R5) : Statement (.mulhn x0 x1 x2) := cc1 rfl (encCR_fields 1 x0 x1 x2 0x005).1 (by decide) fun _ => by
    obtain ⟨h₀, h₁, h₂, h₃, h₄, _⟩ := encCR_fields 1 x0 x1 x2 0x005
    generalize encCR 1 x0 x1 x2 0x005 = w at h₀ h₁ h₂ h₃ h₄ ⊢
    unfold decodeCC
    rw [h₀]
    simp only [decodeInt, h₁, h₂, h₃, h₄]
    try rfl
theorem div (x0 : R5) (x1 : R5) (x2 : R5) : Statement (.div x0 x1 x2) := cc1 rfl (encCR_fields 1 x0 x1 x2 0x006).1 (by decide) fun _ => by
    obtain ⟨h₀, h₁, h₂, h₃, h₄, _⟩ := encCR_fields 1 x0 x1 x2 0x006
    generalize encCR 1 x0 x1 x2 0x006 = w at h₀ h₁ h₂ h₃ h₄ ⊢
    unfold decodeCC
    rw [h₀]
    simp only [decodeInt, h₁, h₂, h₃, h₄]
    try rfl
theorem divn (x0 : R5) (x1 : R5) (x2 : R5) : Statement (.divn x0 x1 x2) := cc1 rfl (encCR_fields 1 x0 x1 x2 0x007).1 (by decide) fun _ => by
    obtain ⟨h₀, h₁, h₂, h₃, h₄, _⟩ := encCR_fields 1 x0 x1 x2 0x007
    generalize encCR 1 x0 x1 x2 0x007 = w at h₀ h₁ h₂ h₃ h₄ ⊢
    unfold decodeCC
    rw [h₀]
    simp only [decodeInt, h₁, h₂, h₃, h₄]
    try rfl
theorem rem (x0 : R5) (x1 : R5) (x2 : R5) : Statement (.rem x0 x1 x2) := cc1 rfl (encCR_fields 1 x0 x1 x2 0x008).1 (by decide) fun _ => by
    obtain ⟨h₀, h₁, h₂, h₃, h₄, _⟩ := encCR_fields 1 x0 x1 x2 0x008
    generalize encCR 1 x0 x1 x2 0x008 = w at h₀ h₁ h₂ h₃ h₄ ⊢
    unfold decodeCC
    rw [h₀]
    simp only [decodeInt, h₁, h₂, h₃, h₄]
    try rfl
theorem remn (x0 : R5) (x1 : R5) (x2 : R5) : Statement (.remn x0 x1 x2) := cc1 rfl (encCR_fields 1 x0 x1 x2 0x009).1 (by decide) fun _ => by
    obtain ⟨h₀, h₁, h₂, h₃, h₄, _⟩ := encCR_fields 1 x0 x1 x2 0x009
    generalize encCR 1 x0 x1 x2 0x009 = w at h₀ h₁ h₂ h₃ h₄ ⊢
    unfold decodeCC
    rw [h₀]
    simp only [decodeInt, h₁, h₂, h₃, h₄]
    try rfl
theorem and (x0 : R5) (x1 : R5) (x2 : R5) : Statement (.and x0 x1 x2) := cc1 rfl (encCR_fields 1 x0 x1 x2 0x00A).1 (by decide) fun _ => by
    obtain ⟨h₀, h₁, h₂, h₃, h₄, _⟩ := encCR_fields 1 x0 x1 x2 0x00A
    generalize encCR 1 x0 x1 x2 0x00A = w at h₀ h₁ h₂ h₃ h₄ ⊢
    unfold decodeCC
    rw [h₀]
    simp only [decodeInt, h₁, h₂, h₃, h₄]
    try rfl
theorem or (x0 : R5) (x1 : R5) (x2 : R5) : Statement (.or x0 x1 x2) := cc1 rfl (encCR_fields 1 x0 x1 x2 0x00B).1 (by decide) fun _ => by
    obtain ⟨h₀, h₁, h₂, h₃, h₄, _⟩ := encCR_fields 1 x0 x1 x2 0x00B
    generalize encCR 1 x0 x1 x2 0x00B = w at h₀ h₁ h₂ h₃ h₄ ⊢
    unfold decodeCC
    rw [h₀]
    simp only [decodeInt, h₁, h₂, h₃, h₄]
    try rfl
theorem xor (x0 : R5) (x1 : R5) (x2 : R5) : Statement (.xor x0 x1 x2) := cc1 rfl (encCR_fields 1 x0 x1 x2 0x00C).1 (by decide) fun _ => by
    obtain ⟨h₀, h₁, h₂, h₃, h₄, _⟩ := encCR_fields 1 x0 x1 x2 0x00C
    generalize encCR 1 x0 x1 x2 0x00C = w at h₀ h₁ h₂ h₃ h₄ ⊢
    unfold decodeCC
    rw [h₀]
    simp only [decodeInt, h₁, h₂, h₃, h₄]
    try rfl
theorem shl (x0 : R5) (x1 : R5) (x2 : R5) : Statement (.shl x0 x1 x2) := cc1 rfl (encCR_fields 1 x0 x1 x2 0x00D).1 (by decide) fun _ => by
    obtain ⟨h₀, h₁, h₂, h₃, h₄, _⟩ := encCR_fields 1 x0 x1 x2 0x00D
    generalize encCR 1 x0 x1 x2 0x00D = w at h₀ h₁ h₂ h₃ h₄ ⊢
    unfold decodeCC
    rw [h₀]
    simp only [decodeInt, h₁, h₂, h₃, h₄]
    try rfl
theorem shr (x0 : R5) (x1 : R5) (x2 : R5) : Statement (.shr x0 x1 x2) := cc1 rfl (encCR_fields 1 x0 x1 x2 0x00E).1 (by decide) fun _ => by
    obtain ⟨h₀, h₁, h₂, h₃, h₄, _⟩ := encCR_fields 1 x0 x1 x2 0x00E
    generalize encCR 1 x0 x1 x2 0x00E = w at h₀ h₁ h₂ h₃ h₄ ⊢
    unfold decodeCC
    rw [h₀]
    simp only [decodeInt, h₁, h₂, h₃, h₄]
    try rfl
theorem sra (x0 : R5) (x1 : R5) (x2 : R5) : Statement (.sra x0 x1 x2) := cc1 rfl (encCR_fields 1 x0 x1 x2 0x00F).1 (by decide) fun _ => by
    obtain ⟨h₀, h₁, h₂, h₃, h₄, _⟩ := encCR_fields 1 x0 x1 x2 0x00F
    generalize encCR 1 x0 x1 x2 0x00F = w at h₀ h₁ h₂ h₃ h₄ ⊢
    unfold decodeCC
    rw [h₀]
    simp only [decodeInt, h₁, h₂, h₃, h₄]
    try rfl
theorem min (x0 : R5) (x1 : R5) (x2 : R5) : Statement (.min x0 x1 x2) := cc1 rfl (encCR_fields 1 x0 x1 x2 0x010).1 (by decide) fun _ => by
    obtain ⟨h₀, h₁, h₂, h₃, h₄, _⟩ := encCR_fields 1 x0 x1 x2 0x010
    generalize encCR 1 x0 x1 x2 0x010 = w at h₀ h₁ h₂ h₃ h₄ ⊢
    unfold decodeCC
    rw [h₀]
    simp only [decodeInt, h₁, h₂, h₃, h₄]
    try rfl
theorem max (x0 : R5) (x1 : R5) (x2 : R5) : Statement (.max x0 x1 x2) := cc1 rfl (encCR_fields 1 x0 x1 x2 0x011).1 (by decide) fun _ => by
    obtain ⟨h₀, h₁, h₂, h₃, h₄, _⟩ := encCR_fields 1 x0 x1 x2 0x011
    generalize encCR 1 x0 x1 x2 0x011 = w at h₀ h₁ h₂ h₃ h₄ ⊢
    unfold decodeCC
    rw [h₀]
    simp only [decodeInt, h₁, h₂, h₃, h₄]
    try rfl
theorem minn (x0 : R5) (x1 : R5) (x2 : R5) : Statement (.minn x0 x1 x2) := cc1 rfl (encCR_fields 1 x0 x1 x2 0x012).1 (by decide) fun _ => by
    obtain ⟨h₀, h₁, h₂, h₃, h₄, _⟩ := encCR_fields 1 x0 x1 x2 0x012
    generalize encCR 1 x0 x1 x2 0x012 = w at h₀ h₁ h₂ h₃ h₄ ⊢
    unfold decodeCC
    rw [h₀]
    simp only [decodeInt, h₁, h₂, h₃, h₄]
    try rfl
theorem maxn (x0 : R5) (x1 : R5) (x2 : R5) : Statement (.maxn x0 x1 x2) := cc1 rfl (encCR_fields 1 x0 x1 x2 0x013).1 (by decide) fun _ => by
    obtain ⟨h₀, h₁, h₂, h₃, h₄, _⟩ := encCR_fields 1 x0 x1 x2 0x013
    generalize encCR 1 x0 x1 x2 0x013 = w at h₀ h₁ h₂ h₃ h₄ ⊢
    unfold decodeCC
    rw [h₀]
    simp only [decodeInt, h₁, h₂, h₃, h₄]
    try rfl
theorem seq (x0 : R5) (x1 : R5) (x2 : R5) : Statement (.seq x0 x1 x2) := cc1 rfl (encCR_fields 1 x0 x1 x2 0x014).1 (by decide) fun _ => by
    obtain ⟨h₀, h₁, h₂, h₃, h₄, _⟩ := encCR_fields 1 x0 x1 x2 0x014
    generalize encCR 1 x0 x1 x2 0x014 = w at h₀ h₁ h₂ h₃ h₄ ⊢
    unfold decodeCC
    rw [h₀]
    simp only [decodeInt, h₁, h₂, h₃, h₄]
    try rfl
theorem sne (x0 : R5) (x1 : R5) (x2 : R5) : Statement (.sne x0 x1 x2) := cc1 rfl (encCR_fields 1 x0 x1 x2 0x015).1 (by decide) fun _ => by
    obtain ⟨h₀, h₁, h₂, h₃, h₄, _⟩ := encCR_fields 1 x0 x1 x2 0x015
    generalize encCR 1 x0 x1 x2 0x015 = w at h₀ h₁ h₂ h₃ h₄ ⊢
    unfold decodeCC
    rw [h₀]
    simp only [decodeInt, h₁, h₂, h₃, h₄]
    try rfl
theorem slt (x0 : R5) (x1 : R5) (x2 : R5) : Statement (.slt x0 x1 x2) := cc1 rfl (encCR_fields 1 x0 x1 x2 0x016).1 (by decide) fun _ => by
    obtain ⟨h₀, h₁, h₂, h₃, h₄, _⟩ := encCR_fields 1 x0 x1 x2 0x016
    generalize encCR 1 x0 x1 x2 0x016 = w at h₀ h₁ h₂ h₃ h₄ ⊢
    unfold decodeCC
    rw [h₀]
    simp only [decodeInt, h₁, h₂, h₃, h₄]
    try rfl
theorem sltn (x0 : R5) (x1 : R5) (x2 : R5) : Statement (.sltn x0 x1 x2) := cc1 rfl (encCR_fields 1 x0 x1 x2 0x017).1 (by decide) fun _ => by
    obtain ⟨h₀, h₁, h₂, h₃, h₄, _⟩ := encCR_fields 1 x0 x1 x2 0x017
    generalize encCR 1 x0 x1 x2 0x017 = w at h₀ h₁ h₂ h₃ h₄ ⊢
    unfold decodeCC
    rw [h₀]
    simp only [decodeInt, h₁, h₂, h₃, h₄]
    try rfl
theorem clz (x0 : R5) (x1 : R5) : Statement (.clz x0 x1) := cc1 rfl (encCR_fields 1 x0 x1 0 0x018).1 (by decide) fun _ => by
    obtain ⟨h₀, h₁, h₂, h₃, h₄, _⟩ := encCR_fields 1 x0 x1 0 0x018
    generalize encCR 1 x0 x1 0 0x018 = w at h₀ h₁ h₂ h₃ h₄ ⊢
    unfold decodeCC
    rw [h₀]
    simp only [decodeInt, h₁, h₂, h₃, h₄]
    try rfl
theorem popc (x0 : R5) (x1 : R5) : Statement (.popc x0 x1) := cc1 rfl (encCR_fields 1 x0 x1 0 0x019).1 (by decide) fun _ => by
    obtain ⟨h₀, h₁, h₂, h₃, h₄, _⟩ := encCR_fields 1 x0 x1 0 0x019
    generalize encCR 1 x0 x1 0 0x019 = w at h₀ h₁ h₂ h₃ h₄ ⊢
    unfold decodeCC
    rw [h₀]
    simp only [decodeInt, h₁, h₂, h₃, h₄]
    try rfl
theorem brev (x0 : R5) (x1 : R5) (x2 : R5) : Statement (.brev x0 x1 x2) := cc1 rfl (encCR_fields 1 x0 x1 x2 0x01A).1 (by decide) fun _ => by
    obtain ⟨h₀, h₁, h₂, h₃, h₄, _⟩ := encCR_fields 1 x0 x1 x2 0x01A
    generalize encCR 1 x0 x1 x2 0x01A = w at h₀ h₁ h₂ h₃ h₄ ⊢
    unfold decodeCC
    rw [h₀]
    simp only [decodeInt, h₁, h₂, h₃, h₄]
    try rfl
theorem sel (x0 : R5) (x1 : R5) (x2 : R5) (x3 : R5) : Statement (.sel x0 x1 x2 x3) := cc1 rfl (encCR_fields 2 x0 x1 x2 (x3 ++ (0 : BitVec 6))).1 (by decide) fun _ => by
    have h₅ : fld (encCR 2 x0 x1 x2 (x3 ++ (0 : BitVec 6))) 6 5 = x3 ∧ fld (encCR 2 x0 x1 x2 (x3 ++ (0 : BitVec 6))) 0 6 = 0 := by
      have h := (encCR_fields 2 x0 x1 x2 (x3 ++ (0 : BitVec 6))).2.2.2.2.2
      have h' : (x3 ++ (0 : BitVec 6) : BitVec 11).toNat = x3.toNat * 2 ^ 6 + (0 : BitVec 6).toNat := toNat_app x3 (0 : BitVec 6)
      have h6 : (0 : BitVec 6).toNat = 0 := rfl
      have := x3.isLt
      exact ⟨fld_eq (by omega), fld_eq (by omega)⟩
    obtain ⟨h₀, h₁, h₂, h₃, h₄, _⟩ := encCR_fields 2 x0 x1 x2 (x3 ++ (0 : BitVec 6))
    generalize encCR 2 x0 x1 x2 (x3 ++ (0 : BitVec 6)) = w at h₀ h₁ h₂ h₃ h₄ h₅ ⊢
    unfold decodeCC
    rw [h₀]
    simp only [h₁, h₂, h₃, h₅]
    try rfl
theorem deal (x0 : R5) (x1 : R5) : Statement (.deal x0 x1) := cc1 rfl (encCR_fields 3 x0 x1 0 0x001).1 (by decide) fun _ => by
    obtain ⟨h₀, h₁, h₂, h₃, h₄, _⟩ := encCR_fields 3 x0 x1 0 0x001
    generalize encCR 3 x0 x1 0 0x001 = w at h₀ h₁ h₂ h₃ h₄ ⊢
    unfold decodeCC
    rw [h₀]
    simp only [decodeQueue, h₁, h₂, h₃, h₄]
    try rfl
theorem dset (x0 : R5) (x1 : R5) (x2 : R5) : Statement (.dset x0 x1 x2) := cc1 rfl (encCR_fields 3 x0 x1 x2 0x002).1 (by decide) fun _ => by
    obtain ⟨h₀, h₁, h₂, h₃, h₄, _⟩ := encCR_fields 3 x0 x1 x2 0x002
    generalize encCR 3 x0 x1 x2 0x002 = w at h₀ h₁ h₂ h₃ h₄ ⊢
    unfold decodeCC
    rw [h₀]
    simp only [decodeQueue, h₁, h₂, h₃, h₄]
    try rfl
theorem spop (x0 : R5) (x1 : R5) (x2 : R5) : Statement (.spop x0 x1 x2) := cc1 rfl (encCR_fields 3 x0 x1 x2 0x003).1 (by decide) fun _ => by
    obtain ⟨h₀, h₁, h₂, h₃, h₄, _⟩ := encCR_fields 3 x0 x1 x2 0x003
    generalize encCR 3 x0 x1 x2 0x003 = w at h₀ h₁ h₂ h₃ h₄ ⊢
    unfold decodeCC
    rw [h₀]
    simp only [decodeQueue, h₁, h₂, h₃, h₄]
    try rfl
theorem speek (x0 : R5) (x1 : R5) (x2 : R5) : Statement (.speek x0 x1 x2) := cc1 rfl (encCR_fields 3 x0 x1 x2 0x004).1 (by decide) fun _ => by
    obtain ⟨h₀, h₁, h₂, h₃, h₄, _⟩ := encCR_fields 3 x0 x1 x2 0x004
    generalize encCR 3 x0 x1 x2 0x004 = w at h₀ h₁ h₂ h₃ h₄ ⊢
    unfold decodeCC
    rw [h₀]
    simp only [decodeQueue, h₁, h₂, h₃, h₄]
    try rfl
theorem sgrp (x0 : R5) (x1 : R5) (x2 : R5) : Statement (.sgrp x0 x1 x2) := cc1 rfl (encCR_fields 3 x0 x1 x2 0x005).1 (by decide) fun _ => by
    obtain ⟨h₀, h₁, h₂, h₃, h₄, _⟩ := encCR_fields 3 x0 x1 x2 0x005
    generalize encCR 3 x0 x1 x2 0x005 = w at h₀ h₁ h₂ h₃ h₄ ⊢
    unfold decodeCC
    rw [h₀]
    simp only [decodeQueue, h₁, h₂, h₃, h₄]
    try rfl
theorem cancel (x0 : R5) (x1 : R5) (x2 : R5) : Statement (.cancel x0 x1 x2) := cc1 rfl (encCR_fields 3 x0 x1 x2 0x006).1 (by decide) fun _ => by
    obtain ⟨h₀, h₁, h₂, h₃, h₄, _⟩ := encCR_fields 3 x0 x1 x2 0x006
    generalize encCR 3 x0 x1 x2 0x006 = w at h₀ h₁ h₂ h₃ h₄ ⊢
    unfold decodeCC
    rw [h₀]
    simp only [decodeQueue, h₁, h₂, h₃, h₄]
    try rfl
theorem qstat (x0 : R5) (x1 : R5) : Statement (.qstat x0 x1) := cc1 rfl (encCR_fields 3 x0 x1 0 0x007).1 (by decide) fun _ => by
    obtain ⟨h₀, h₁, h₂, h₃, h₄, _⟩ := encCR_fields 3 x0 x1 0 0x007
    generalize encCR 3 x0 x1 0 0x007 = w at h₀ h₁ h₂ h₃ h₄ ⊢
    unfold decodeCC
    rw [h₀]
    simp only [decodeQueue, h₁, h₂, h₃, h₄]
    try rfl
theorem spawn (x0 : R5) (x1 : R5) (x2 : R5) : Statement (.spawn x0 x1 x2) := cc1 rfl (encCR_fields 3 x0 x1 x2 0x010).1 (by decide) fun _ => by
    obtain ⟨h₀, h₁, h₂, h₃, h₄, _⟩ := encCR_fields 3 x0 x1 x2 0x010
    generalize encCR 3 x0 x1 x2 0x010 = w at h₀ h₁ h₂ h₃ h₄ ⊢
    unfold decodeCC
    rw [h₀]
    simp only [decodeQueue, h₁, h₂, h₃, h₄]
    try rfl
theorem exit : Statement (.exit) := cc1 rfl (encCR_fields 3 0 0 0 0x011).1 (by decide) fun _ => by
    obtain ⟨h₀, h₁, h₂, h₃, h₄, _⟩ := encCR_fields 3 0 0 0 0x011
    generalize encCR 3 0 0 0 0x011 = w at h₀ h₁ h₂ h₃ h₄ ⊢
    unfold decodeCC
    rw [h₀]
    simp only [decodeQueue, h₁, h₂, h₃, h₄]
    try rfl
theorem dqpush (x0 : R5) (x1 : R5) : Statement (.dqpush x0 x1) := cc1 rfl (encCR_fields 3 x0 x1 0 0x012).1 (by decide) fun _ => by
    obtain ⟨h₀, h₁, h₂, h₃, h₄, _⟩ := encCR_fields 3 x0 x1 0 0x012
    generalize encCR 3 x0 x1 0 0x012 = w at h₀ h₁ h₂ h₃ h₄ ⊢
    unfold decodeCC
    rw [h₀]
    simp only [decodeQueue, h₁, h₂, h₃, h₄]
    try rfl
theorem dqpop (x0 : R5) (x1 : R5) : Statement (.dqpop x0 x1) := cc1 rfl (encCR_fields 3 x0 0 x1 0x013).1 (by decide) fun _ => by
    obtain ⟨h₀, h₁, h₂, h₃, h₄, _⟩ := encCR_fields 3 x0 0 x1 0x013
    generalize encCR 3 x0 0 x1 0x013 = w at h₀ h₁ h₂ h₃ h₄ ⊢
    unfold decodeCC
    rw [h₀]
    simp only [decodeQueue, h₁, h₂, h₃, h₄]
    try rfl
theorem steal (x0 : R5) (x1 : R5) (x2 : R5) : Statement (.steal x0 x1 x2) := cc1 rfl (encCR_fields 3 x0 x1 x2 0x014).1 (by decide) fun _ => by
    obtain ⟨h₀, h₁, h₂, h₃, h₄, _⟩ := encCR_fields 3 x0 x1 x2 0x014
    generalize encCR 3 x0 x1 x2 0x014 = w at h₀ h₁ h₂ h₃ h₄ ⊢
    unfold decodeCC
    rw [h₀]
    simp only [decodeQueue, h₁, h₂, h₃, h₄]
    try rfl
theorem yield (x0 : R5) (x1 : R5) (x2 : R5) : Statement (.yield x0 x1 x2) := cc1 rfl (encCR_fields 3 x0 x1 x2 0x015).1 (by decide) fun _ => by
    obtain ⟨h₀, h₁, h₂, h₃, h₄, _⟩ := encCR_fields 3 x0 x1 x2 0x015
    generalize encCR 3 x0 x1 x2 0x015 = w at h₀ h₁ h₂ h₃ h₄ ⊢
    unfold decodeCC
    rw [h₀]
    simp only [decodeQueue, h₁, h₂, h₃, h₄]
    try rfl
theorem mxgo (x0 : R5) (x1 : R5) : Statement (.mxgo x0 x1) := cc1 rfl (encCR_fields 3 x0 x1 0 0x020).1 (by decide) fun _ => by
    obtain ⟨h₀, h₁, h₂, h₃, h₄, _⟩ := encCR_fields 3 x0 x1 0 0x020
    generalize encCR 3 x0 x1 0 0x020 = w at h₀ h₁ h₂ h₃ h₄ ⊢
    unfold decodeCC
    rw [h₀]
    simp only [decodeQueue, h₁, h₂, h₃, h₄]
    try rfl
theorem cpy (x0 : R5) (x1 : R5) : Statement (.cpy x0 x1) := cc1 rfl (encCR_fields 3 0 x0 x1 0x021).1 (by decide) fun _ => by
    obtain ⟨h₀, h₁, h₂, h₃, h₄, _⟩ := encCR_fields 3 0 x0 x1 0x021
    generalize encCR 3 0 x0 x1 0x021 = w at h₀ h₁ h₂ h₃ h₄ ⊢
    unfold decodeCC
    rw [h₀]
    simp only [decodeQueue, h₁, h₂, h₃, h₄]
    try rfl
theorem cpcan (x0 : R5) (x1 : R5) : Statement (.cpcan x0 x1) := cc1 rfl (encCR_fields 3 x0 x1 0 0x022).1 (by decide) fun _ => by
    obtain ⟨h₀, h₁, h₂, h₃, h₄, _⟩ := encCR_fields 3 x0 x1 0 0x022
    generalize encCR 3 x0 x1 0 0x022 = w at h₀ h₁ h₂ h₃ h₄ ⊢
    unfold decodeCC
    rw [h₀]
    simp only [decodeQueue, h₁, h₂, h₃, h₄]
    try rfl
theorem give (x0 : R5) (x1 : R5) (x2 : R5) : Statement (.give x0 x1 x2) := cc1 rfl (encCR_fields 3 x0 x1 x2 0x030).1 (by decide) fun _ => by
    obtain ⟨h₀, h₁, h₂, h₃, h₄, _⟩ := encCR_fields 3 x0 x1 x2 0x030
    generalize encCR 3 x0 x1 x2 0x030 = w at h₀ h₁ h₂ h₃ h₄ ⊢
    unfold decodeCC
    rw [h₀]
    simp only [decodeQueue, h₁, h₂, h₃, h₄]
    try rfl
theorem claim (x0 : R5) (x1 : R5) (x2 : R5) : Statement (.claim x0 x1 x2) := cc1 rfl (encCR_fields 3 x0 x1 x2 0x031).1 (by decide) fun _ => by
    obtain ⟨h₀, h₁, h₂, h₃, h₄, _⟩ := encCR_fields 3 x0 x1 x2 0x031
    generalize encCR 3 x0 x1 x2 0x031 = w at h₀ h₁ h₂ h₃ h₄ ⊢
    unfold decodeCC
    rw [h₀]
    simp only [decodeQueue, h₁, h₂, h₃, h₄]
    try rfl
theorem brk : Statement (.brk) := cc1 rfl (encCR_fields 4 0 0 0 0x001).1 (by decide) fun _ => by
    obtain ⟨h₀, h₁, h₂, h₃, h₄, _⟩ := encCR_fields 4 0 0 0 0x001
    generalize encCR 4 0 0 0 0x001 = w at h₀ h₁ h₂ h₃ h₄ ⊢
    unfold decodeCC
    rw [h₀]
    simp only [decodeSys, h₁, h₂, h₃, h₄]
    try rfl
theorem eret : Statement (.eret) := cc1 rfl (encCR_fields 4 0 0 0 0x002).1 (by decide) fun _ => by
    obtain ⟨h₀, h₁, h₂, h₃, h₄, _⟩ := encCR_fields 4 0 0 0 0x002
    generalize encCR 4 0 0 0 0x002 = w at h₀ h₁ h₂ h₃ h₄ ⊢
    unfold decodeCC
    rw [h₀]
    simp only [decodeSys, h₁, h₂, h₃, h₄]
    try rfl
theorem emret (x0 : R5) : Statement (.emret x0) := cc1 rfl (encCR_fields 4 0 x0 0 0x003).1 (by decide) fun _ => by
    obtain ⟨h₀, h₁, h₂, h₃, h₄, _⟩ := encCR_fields 4 0 x0 0 0x003
    generalize encCR 4 0 x0 0 0x003 = w at h₀ h₁ h₂ h₃ h₄ ⊢
    unfold decodeCC
    rw [h₀]
    simp only [decodeSys, h₁, h₂, h₃, h₄]
    try rfl
theorem ckpt (x0 : R5) : Statement (.ckpt x0) := cc1 rfl (encCR_fields 4 x0 0 0 0x004).1 (by decide) fun _ => by
    obtain ⟨h₀, h₁, h₂, h₃, h₄, _⟩ := encCR_fields 4 x0 0 0 0x004
    generalize encCR 4 x0 0 0 0x004 = w at h₀ h₁ h₂ h₃ h₄ ⊢
    unfold decodeCC
    rw [h₀]
    simp only [decodeSys, h₁, h₂, h₃, h₄]
    try rfl
theorem halt : Statement (.halt) := cc1 rfl (encCR_fields 4 0 0 0 0x005).1 (by decide) fun _ => by
    obtain ⟨h₀, h₁, h₂, h₃, h₄, _⟩ := encCR_fields 4 0 0 0 0x005
    generalize encCR 4 0 0 0 0x005 = w at h₀ h₁ h₂ h₃ h₄ ⊢
    unfold decodeCC
    rw [h₀]
    simp only [decodeSys, h₁, h₂, h₃, h₄]
    try rfl
theorem setseg (x0 : BitVec 1) (x1 : BitVec 2) (x2 : R5) (x3 : R5) : Statement (.setseg x0 x1 x2 x3) := cc1 rfl (encCR_fields 4 ((0 : BitVec 2) ++ x0 ++ x1) x2 x3 0x006).1 (by decide) fun _ => by
    have h₅ : fld (encCR 4 ((0 : BitVec 2) ++ x0 ++ x1) x2 x3 0x006) 23 1 = x0 ∧ fld (encCR 4 ((0 : BitVec 2) ++ x0 ++ x1) x2 x3 0x006) 21 2 = x1 ∧ fld (encCR 4 ((0 : BitVec 2) ++ x0 ++ x1) x2 x3 0x006) 24 2 = 0 := by
      have h := (encCR_fields 4 ((0 : BitVec 2) ++ x0 ++ x1) x2 x3 0x006).2.2.2.2.2
      have h' : ((0 : BitVec 2) ++ x0 ++ x1 : BitVec 5).toNat = ((0 : BitVec 2) ++ x0).toNat * 2 ^ 2 + x1.toNat := toNat_app _ x1
      have h6 := toNat_app (0 : BitVec 2) x0
      have h7 : (0 : BitVec 2).toNat = 0 := rfl
      have h8 : (6 : BitVec 11).toNat = 6 := rfl
      have h9 : (4 : BitVec 6).toNat = 4 := rfl
      have := x0.isLt; have := x1.isLt; have := x2.isLt; have := x3.isLt
      exact ⟨fld_eq (by omega), fld_eq (by omega), fld_eq (by omega)⟩
    obtain ⟨h₀, h₁, h₂, h₃, h₄, _⟩ := encCR_fields 4 ((0 : BitVec 2) ++ x0 ++ x1) x2 x3 0x006
    generalize encCR 4 ((0 : BitVec 2) ++ x0 ++ x1) x2 x3 0x006 = w at h₀ h₁ h₂ h₃ h₄ h₅ ⊢
    unfold decodeCC
    rw [h₀]
    simp only [decodeSys, h₂, h₃, h₄, h₅]
    try rfl
theorem lkbind (x0 : R5) (x1 : R5) (x2 : R5) : Statement (.lkbind x0 x1 x2) := cc1 rfl (encCR_fields 4 x0 x1 x2 0x007).1 (by decide) fun _ => by
    obtain ⟨h₀, h₁, h₂, h₃, h₄, _⟩ := encCR_fields 4 x0 x1 x2 0x007
    generalize encCR 4 x0 x1 x2 0x007 = w at h₀ h₁ h₂ h₃ h₄ ⊢
    unfold decodeCC
    rw [h₀]
    simp only [decodeSys, h₁, h₂, h₃, h₄]
    try rfl
theorem mfs (x0 : R5) (x1 : BitVec 16) : Statement (.mfs x0 x1) := cc1 rfl (encCI_fields 5 x0 0 x1).1 (by decide) fun _ => by
    obtain ⟨h₀, h₁, h₂, h₃, _⟩ := encCI_fields 5 x0 0 x1
    generalize encCI 5 x0 0 x1 = w at h₀ h₁ h₂ h₃ ⊢
    unfold decodeCC
    rw [h₀]
    simp only [h₁, h₂, h₃]
    try rfl
theorem mts (x0 : R5) (x1 : BitVec 16) : Statement (.mts x0 x1) := cc1 rfl (encCI_fields 6 0 x0 x1).1 (by decide) fun _ => by
    obtain ⟨h₀, h₁, h₂, h₃, _⟩ := encCI_fields 6 0 x0 x1
    generalize encCI 6 0 x0 x1 = w at h₀ h₁ h₂ h₃ ⊢
    unfold decodeCC
    rw [h₀]
    simp only [h₁, h₂, h₃]
    try rfl
theorem trap (x0 : BitVec 16) : Statement (.trap x0) := cc1 rfl (encCI_fields 7 0 0 x0).1 (by decide) fun _ => by
    obtain ⟨h₀, h₁, h₂, h₃, _⟩ := encCI_fields 7 0 0 x0
    generalize encCI 7 0 0 x0 = w at h₀ h₁ h₂ h₃ ⊢
    unfold decodeCC
    rw [h₀]
    simp only [h₁, h₂, h₃]
    try rfl
theorem fence (x0 : R5) (x1 : R5) (x2 : BitVec 3) : Statement (.fence x0 x1 x2) := cc1 rfl (encCR_fields 8 x0 x1 0 (x2 ++ (0x01 : BitVec 8))).1 (by decide) fun _ => by
    obtain ⟨h₅, h₆⟩ := encCR_sync 8 x0 x1 0 x2 0x01
    obtain ⟨h₀, h₁, h₂, h₃, h₄, _⟩ := encCR_fields 8 x0 x1 0 (x2 ++ (0x01 : BitVec 8))
    generalize encCR 8 x0 x1 0 (x2 ++ (0x01 : BitVec 8)) = w at h₀ h₁ h₂ h₃ h₄ h₅ h₆ ⊢
    unfold decodeCC
    rw [h₀]
    simp only [decodeSync, h₁, h₂, h₃, h₅, h₆]
    try rfl
theorem bari (x0 : R5) (x1 : R5) (x2 : BitVec 3) : Statement (.bari x0 x1 x2) := cc1 rfl (encCR_fields 8 x0 x1 0 (x2 ++ (0x02 : BitVec 8))).1 (by decide) fun _ => by
    obtain ⟨h₅, h₆⟩ := encCR_sync 8 x0 x1 0 x2 0x02
    obtain ⟨h₀, h₁, h₂, h₃, h₄, _⟩ := encCR_fields 8 x0 x1 0 (x2 ++ (0x02 : BitVec 8))
    generalize encCR 8 x0 x1 0 (x2 ++ (0x02 : BitVec 8)) = w at h₀ h₁ h₂ h₃ h₄ h₅ h₆ ⊢
    unfold decodeCC
    rw [h₀]
    simp only [decodeSync, h₁, h₂, h₃, h₅, h₆]
    try rfl
theorem bara (x0 : R5) (x1 : R5) (x2 : BitVec 3) : Statement (.bara x0 x1 x2) := cc1 rfl (encCR_fields 8 x0 x1 0 (x2 ++ (0x03 : BitVec 8))).1 (by decide) fun _ => by
    obtain ⟨h₅, h₆⟩ := encCR_sync 8 x0 x1 0 x2 0x03
    obtain ⟨h₀, h₁, h₂, h₃, h₄, _⟩ := encCR_fields 8 x0 x1 0 (x2 ++ (0x03 : BitVec 8))
    generalize encCR 8 x0 x1 0 (x2 ++ (0x03 : BitVec 8)) = w at h₀ h₁ h₂ h₃ h₄ h₅ h₆ ⊢
    unfold decodeCC
    rw [h₀]
    simp only [decodeSync, h₁, h₂, h₃, h₅, h₆]
    try rfl
theorem barw (x0 : R5) (x1 : BitVec 3) : Statement (.barw x0 x1) := cc1 rfl (encCR_fields 8 x0 0 0 (x1 ++ (0x04 : BitVec 8))).1 (by decide) fun _ => by
    obtain ⟨h₅, h₆⟩ := encCR_sync 8 x0 0 0 x1 0x04
    obtain ⟨h₀, h₁, h₂, h₃, h₄, _⟩ := encCR_fields 8 x0 0 0 (x1 ++ (0x04 : BitVec 8))
    generalize encCR 8 x0 0 0 (x1 ++ (0x04 : BitVec 8)) = w at h₀ h₁ h₂ h₃ h₄ h₅ h₆ ⊢
    unfold decodeCC
    rw [h₀]
    simp only [decodeSync, h₁, h₂, h₃, h₅, h₆]
    try rfl
theorem lkacq (x0 : R5) (x1 : R5) : Statement (.lkacq x0 x1) := cc1 rfl (encCR_fields 8 x0 x1 0 0x305).1 (by decide) fun _ => by
    obtain ⟨h₅, h₆⟩ : fld (encCR 8 x0 x1 0 0x305) 0 8 = 5 ∧ fld (encCR 8 x0 x1 0 0x305) 8 3 = 3 := encCR_sync 8 x0 x1 0 3 5
    obtain ⟨h₀, h₁, h₂, h₃, h₄, _⟩ := encCR_fields 8 x0 x1 0 0x305
    generalize encCR 8 x0 x1 0 0x305 = w at h₀ h₁ h₂ h₃ h₄ h₅ h₆ ⊢
    unfold decodeCC
    rw [h₀]
    simp only [decodeSync, h₁, h₂, h₃, h₅, h₆]
    try rfl
theorem lkrel (x0 : R5) : Statement (.lkrel x0) := cc1 rfl (encCR_fields 8 0 x0 0 0x306).1 (by decide) fun _ => by
    obtain ⟨h₅, h₆⟩ : fld (encCR 8 0 x0 0 0x306) 0 8 = 6 ∧ fld (encCR 8 0 x0 0 0x306) 8 3 = 3 := encCR_sync 8 0 x0 0 3 6
    obtain ⟨h₀, h₁, h₂, h₃, h₄, _⟩ := encCR_fields 8 0 x0 0 0x306
    generalize encCR 8 0 x0 0 0x306 = w at h₀ h₁ h₂ h₃ h₄ h₅ h₆ ⊢
    unfold decodeCC
    rw [h₀]
    simp only [decodeSync, h₁, h₂, h₃, h₅, h₆]
    try rfl
theorem cellq (x0 : R5) (x1 : R5) : Statement (.cellq x0 x1) := cc1 rfl (encCR_fields 8 x0 x1 0 0x307).1 (by decide) fun _ => by
    obtain ⟨h₅, h₆⟩ : fld (encCR 8 x0 x1 0 0x307) 0 8 = 7 ∧ fld (encCR 8 x0 x1 0 0x307) 8 3 = 3 := encCR_sync 8 x0 x1 0 3 7
    obtain ⟨h₀, h₁, h₂, h₃, h₄, _⟩ := encCR_fields 8 x0 x1 0 0x307
    generalize encCR 8 x0 x1 0 0x307 = w at h₀ h₁ h₂ h₃ h₄ h₅ h₆ ⊢
    unfold decodeCC
    rw [h₀]
    simp only [decodeSync, h₁, h₂, h₃, h₅, h₆]
    try rfl
theorem addi (x0 : R5) (x1 : R5) (x2 : BitVec 16) : Statement (.addi x0 x1 x2) := cc1 rfl (encCI_fields 0x10 x0 x1 x2).1 (by decide) fun _ => by
    obtain ⟨h₀, h₁, h₂, h₃, _⟩ := encCI_fields 0x10 x0 x1 x2
    generalize encCI 0x10 x0 x1 x2 = w at h₀ h₁ h₂ h₃ ⊢
    unfold decodeCC
    rw [h₀]
    simp only [h₁, h₂, h₃]
    try rfl
theorem andi (x0 : R5) (x1 : R5) (x2 : BitVec 16) : Statement (.andi x0 x1 x2) := cc1 rfl (encCI_fields 0x11 x0 x1 x2).1 (by decide) fun _ => by
    obtain ⟨h₀, h₁, h₂, h₃, _⟩ := encCI_fields 0x11 x0 x1 x2
    generalize encCI 0x11 x0 x1 x2 = w at h₀ h₁ h₂ h₃ ⊢
    unfold decodeCC
    rw [h₀]
    simp only [h₁, h₂, h₃]
    try rfl
theorem ori (x0 : R5) (x1 : R5) (x2 : BitVec 16) : Statement (.ori x0 x1 x2) := cc1 rfl (encCI_fields 0x12 x0 x1 x2).1 (by decide) fun _ => by
    obtain ⟨h₀, h₁, h₂, h₃, _⟩ := encCI_fields 0x12 x0 x1 x2
    generalize encCI 0x12 x0 x1 x2 = w at h₀ h₁ h₂ h₃ ⊢
    unfold decodeCC
    rw [h₀]
    simp only [h₁, h₂, h₃]
    try rfl
theorem xori (x0 : R5) (x1 : R5) (x2 : BitVec 16) : Statement (.xori x0 x1 x2) := cc1 rfl (encCI_fields 0x13 x0 x1 x2).1 (by decide) fun _ => by
    obtain ⟨h₀, h₁, h₂, h₃, _⟩ := encCI_fields 0x13 x0 x1 x2
    generalize encCI 0x13 x0 x1 x2 = w at h₀ h₁ h₂ h₃ ⊢
    unfold decodeCC
    rw [h₀]
    simp only [h₁, h₂, h₃]
    try rfl
theorem slti (x0 : R5) (x1 : R5) (x2 : BitVec 16) : Statement (.slti x0 x1 x2) := cc1 rfl (encCI_fields 0x14 x0 x1 x2).1 (by decide) fun _ => by
    obtain ⟨h₀, h₁, h₂, h₃, _⟩ := encCI_fields 0x14 x0 x1 x2
    generalize encCI 0x14 x0 x1 x2 = w at h₀ h₁ h₂ h₃ ⊢
    unfold decodeCC
    rw [h₀]
    simp only [h₁, h₂, h₃]
    try rfl
theorem shli (x0 : R5) (x1 : R5) (x2 : BitVec 6) : Statement (.shli x0 x1 x2) := cc1 rfl (encCI_fields 0x15 x0 x1 ((0 : BitVec 10) ++ x2)).1 (by decide) fun _ => by
    have h₅ : fld (encCI 0x15 x0 x1 ((0 : BitVec 10) ++ x2)) 0 6 = x2 ∧ fld (encCI 0x15 x0 x1 ((0 : BitVec 10) ++ x2)) 6 10 = 0 := by
      have h := (encCI_fields 0x15 x0 x1 ((0 : BitVec 10) ++ x2)).2.2.2.2
      have h' : ((0 : BitVec 10) ++ x2 : BitVec 16).toNat = (0 : BitVec 10).toNat * 2 ^ 6 + x2.toNat := toNat_app _ x2
      have h6 : (0 : BitVec 10).toNat = 0 := rfl
      have := x2.isLt
      exact ⟨fld_eq (by omega), fld_eq (by omega)⟩
    obtain ⟨h₀, h₁, h₂, h₃, _⟩ := encCI_fields 0x15 x0 x1 ((0 : BitVec 10) ++ x2)
    generalize encCI 0x15 x0 x1 ((0 : BitVec 10) ++ x2) = w at h₀ h₁ h₂ h₃ h₅ ⊢
    unfold decodeCC
    rw [h₀]
    simp only [h₁, h₂, h₃, h₅]
    try rfl
theorem shri (x0 : R5) (x1 : R5) (x2 : BitVec 6) : Statement (.shri x0 x1 x2) := cc1 rfl (encCI_fields 0x16 x0 x1 ((0 : BitVec 10) ++ x2)).1 (by decide) fun _ => by
    have h₅ : fld (encCI 0x16 x0 x1 ((0 : BitVec 10) ++ x2)) 0 6 = x2 ∧ fld (encCI 0x16 x0 x1 ((0 : BitVec 10) ++ x2)) 6 10 = 0 := by
      have h := (encCI_fields 0x16 x0 x1 ((0 : BitVec 10) ++ x2)).2.2.2.2
      have h' : ((0 : BitVec 10) ++ x2 : BitVec 16).toNat = (0 : BitVec 10).toNat * 2 ^ 6 + x2.toNat := toNat_app _ x2
      have h6 : (0 : BitVec 10).toNat = 0 := rfl
      have := x2.isLt
      exact ⟨fld_eq (by omega), fld_eq (by omega)⟩
    obtain ⟨h₀, h₁, h₂, h₃, _⟩ := encCI_fields 0x16 x0 x1 ((0 : BitVec 10) ++ x2)
    generalize encCI 0x16 x0 x1 ((0 : BitVec 10) ++ x2) = w at h₀ h₁ h₂ h₃ h₅ ⊢
    unfold decodeCC
    rw [h₀]
    simp only [h₁, h₂, h₃, h₅]
    try rfl
theorem srai (x0 : R5) (x1 : R5) (x2 : BitVec 6) : Statement (.srai x0 x1 x2) := cc1 rfl (encCI_fields 0x17 x0 x1 ((0 : BitVec 10) ++ x2)).1 (by decide) fun _ => by
    have h₅ : fld (encCI 0x17 x0 x1 ((0 : BitVec 10) ++ x2)) 0 6 = x2 ∧ fld (encCI 0x17 x0 x1 ((0 : BitVec 10) ++ x2)) 6 10 = 0 := by
      have h := (encCI_fields 0x17 x0 x1 ((0 : BitVec 10) ++ x2)).2.2.2.2
      have h' : ((0 : BitVec 10) ++ x2 : BitVec 16).toNat = (0 : BitVec 10).toNat * 2 ^ 6 + x2.toNat := toNat_app _ x2
      have h6 : (0 : BitVec 10).toNat = 0 := rfl
      have := x2.isLt
      exact ⟨fld_eq (by omega), fld_eq (by omega)⟩
    obtain ⟨h₀, h₁, h₂, h₃, _⟩ := encCI_fields 0x17 x0 x1 ((0 : BitVec 10) ++ x2)
    generalize encCI 0x17 x0 x1 ((0 : BitVec 10) ++ x2) = w at h₀ h₁ h₂ h₃ h₅ ⊢
    unfold decodeCC
    rw [h₀]
    simp only [h₁, h₂, h₃, h₅]
    try rfl
theorem bfx (x0 : R5) (x1 : R5) (x2 : BitVec 1) (x3 : BitVec 6) (x4 : BitVec 6) : Statement (.bfx x0 x1 x2 x3 x4) := cc1 rfl (encCI_fields 0x18 x0 x1 ((0 : BitVec 3) ++ x2 ++ x3 ++ x4)).1 (by decide) fun _ => by
    have h₅ : fld (encCI 0x18 x0 x1 ((0 : BitVec 3) ++ x2 ++ x3 ++ x4)) 12 1 = x2 ∧ fld (encCI 0x18 x0 x1 ((0 : BitVec 3) ++ x2 ++ x3 ++ x4)) 6 6 = x3 ∧ fld (encCI 0x18 x0 x1 ((0 : BitVec 3) ++ x2 ++ x3 ++ x4)) 0 6 = x4 ∧ fld (encCI 0x18 x0 x1 ((0 : BitVec 3) ++ x2 ++ x3 ++ x4)) 13 3 = 0 := by
      have h := (encCI_fields 0x18 x0 x1 ((0 : BitVec 3) ++ x2 ++ x3 ++ x4)).2.2.2.2
      have h' : ((0 : BitVec 3) ++ x2 ++ x3 ++ x4 : BitVec 16).toNat = ((0 : BitVec 3) ++ x2 ++ x3).toNat * 2 ^ 6 + x4.toNat := toNat_app _ x4
      have h5 := toNat_app ((0 : BitVec 3) ++ x2) x3
      have h6 := toNat_app (0 : BitVec 3) x2
      have h7 : (0 : BitVec 3).toNat = 0 := rfl
      have := x2.isLt; have := x3.isLt; have := x4.isLt
      exact ⟨fld_eq (by omega), fld_eq (by omega), fld_eq (by omega), fld_eq (by omega)⟩
    obtain ⟨h₀, h₁, h₂, h₃, _⟩ := encCI_fields 0x18 x0 x1 ((0 : BitVec 3) ++ x2 ++ x3 ++ x4)
    generalize encCI 0x18 x0 x1 ((0 : BitVec 3) ++ x2 ++ x3 ++ x4) = w at h₀ h₁ h₂ h₃ h₅ ⊢
    unfold decodeCC
    rw [h₀]
    simp only [h₁, h₂, h₃, h₅]
    try rfl
theorem bfi (x0 : R5) (x1 : R5) (x2 : BitVec 6) (x3 : BitVec 6) : Statement (.bfi x0 x1 x2 x3) := cc1 rfl (encCI_fields 0x19 x0 x1 ((0 : BitVec 4) ++ x2 ++ x3)).1 (by decide) fun _ => by
    have h₅ : fld (encCI 0x19 x0 x1 ((0 : BitVec 4) ++ x2 ++ x3)) 6 6 = x2 ∧ fld (encCI 0x19 x0 x1 ((0 : BitVec 4) ++ x2 ++ x3)) 0 6 = x3 ∧ fld (encCI 0x19 x0 x1 ((0 : BitVec 4) ++ x2 ++ x3)) 12 4 = 0 := by
      have h := (encCI_fields 0x19 x0 x1 ((0 : BitVec 4) ++ x2 ++ x3)).2.2.2.2
      have h' : ((0 : BitVec 4) ++ x2 ++ x3 : BitVec 16).toNat = ((0 : BitVec 4) ++ x2).toNat * 2 ^ 6 + x3.toNat := toNat_app _ x3
      have h6 := toNat_app (0 : BitVec 4) x2
      have h7 : (0 : BitVec 4).toNat = 0 := rfl
      have := x2.isLt; have := x3.isLt
      exact ⟨fld_eq (by omega), fld_eq (by omega), fld_eq (by omega)⟩
    obtain ⟨h₀, h₁, h₂, h₃, _⟩ := encCI_fields 0x19 x0 x1 ((0 : BitVec 4) ++ x2 ++ x3)
    generalize encCI 0x19 x0 x1 ((0 : BitVec 4) ++ x2 ++ x3) = w at h₀ h₁ h₂ h₃ h₅ ⊢
    unfold decodeCC
    rw [h₀]
    simp only [h₁, h₂, h₃, h₅]
    try rfl
theorem jalr (x0 : R5) (x1 : R5) (x2 : BitVec 16) : Statement (.jalr x0 x1 x2) := cc1 rfl (encCI_fields 0x1A x0 x1 x2).1 (by decide) fun _ => by
    obtain ⟨h₀, h₁, h₂, h₃, _⟩ := encCI_fields 0x1A x0 x1 x2
    generalize encCI 0x1A x0 x1 x2 = w at h₀ h₁ h₂ h₃ ⊢
    unfold decodeCC
    rw [h₀]
    simp only [h₁, h₂, h₃]
    try rfl
theorem jr (x0 : R5) (x1 : BitVec 16) : Statement (.jr x0 x1) := cc1 rfl (encCI_fields 0x1B 0 x0 x1).1 (by decide) fun _ => by
    obtain ⟨h₀, h₁, h₂, h₃, _⟩ := encCI_fields 0x1B 0 x0 x1
    generalize encCI 0x1B 0 x0 x1 = w at h₀ h₁ h₂ h₃ ⊢
    unfold decodeCC
    rw [h₀]
    simp only [h₁, h₂, h₃]
    try rfl
theorem jtab (x0 : R5) (x1 : R5) (x2 : BitVec 16) : Statement (.jtab x0 x1 x2) := cc1 rfl (encCI_fields 0x1C x0 x1 x2).1 (by decide) fun _ => by
    obtain ⟨h₀, h₁, h₂, h₃, _⟩ := encCI_fields 0x1C x0 x1 x2
    generalize encCI 0x1C x0 x1 x2 = w at h₀ h₁ h₂ h₃ ⊢
    unfold decodeCC
    rw [h₀]
    simp only [h₁, h₂, h₃]
    try rfl
theorem bz (x0 : R5) (x1 : BitVec 12) (x2 : BitVec 4) : Statement (.bz x0 x1 x2) := cc1 rfl (encCB_fields 0x20 x0 0 x1 x2).1 (by decide) fun _ => by
    obtain ⟨h₀, h₁, h₂, h₃, h₄⟩ := encCB_fields 0x20 x0 0 x1 x2
    generalize encCB 0x20 x0 0 x1 x2 = w at h₀ h₁ h₂ h₃ h₄ ⊢
    unfold decodeCC
    rw [h₀]
    simp only [h₁, h₂, h₃, h₄]
    try rfl
theorem bnz (x0 : R5) (x1 : BitVec 12) (x2 : BitVec 4) : Statement (.bnz x0 x1 x2) := cc1 rfl (encCB_fields 0x21 x0 0 x1 x2).1 (by decide) fun _ => by
    obtain ⟨h₀, h₁, h₂, h₃, h₄⟩ := encCB_fields 0x21 x0 0 x1 x2
    generalize encCB 0x21 x0 0 x1 x2 = w at h₀ h₁ h₂ h₃ h₄ ⊢
    unfold decodeCC
    rw [h₀]
    simp only [h₁, h₂, h₃, h₄]
    try rfl
theorem beq (x0 : R5) (x1 : R5) (x2 : BitVec 12) (x3 : BitVec 4) : Statement (.beq x0 x1 x2 x3) := cc1 rfl (encCB_fields 0x22 x0 x1 x2 x3).1 (by decide) fun _ => by
    obtain ⟨h₀, h₁, h₂, h₃, h₄⟩ := encCB_fields 0x22 x0 x1 x2 x3
    generalize encCB 0x22 x0 x1 x2 x3 = w at h₀ h₁ h₂ h₃ h₄ ⊢
    unfold decodeCC
    rw [h₀]
    simp only [h₁, h₂, h₃, h₄]
    try rfl
theorem bne (x0 : R5) (x1 : R5) (x2 : BitVec 12) (x3 : BitVec 4) : Statement (.bne x0 x1 x2 x3) := cc1 rfl (encCB_fields 0x23 x0 x1 x2 x3).1 (by decide) fun _ => by
    obtain ⟨h₀, h₁, h₂, h₃, h₄⟩ := encCB_fields 0x23 x0 x1 x2 x3
    generalize encCB 0x23 x0 x1 x2 x3 = w at h₀ h₁ h₂ h₃ h₄ ⊢
    unfold decodeCC
    rw [h₀]
    simp only [h₁, h₂, h₃, h₄]
    try rfl
theorem blt (x0 : R5) (x1 : R5) (x2 : BitVec 12) (x3 : BitVec 4) : Statement (.blt x0 x1 x2 x3) := cc1 rfl (encCB_fields 0x24 x0 x1 x2 x3).1 (by decide) fun _ => by
    obtain ⟨h₀, h₁, h₂, h₃, h₄⟩ := encCB_fields 0x24 x0 x1 x2 x3
    generalize encCB 0x24 x0 x1 x2 x3 = w at h₀ h₁ h₂ h₃ h₄ ⊢
    unfold decodeCC
    rw [h₀]
    simp only [h₁, h₂, h₃, h₄]
    try rfl
theorem bge (x0 : R5) (x1 : R5) (x2 : BitVec 12) (x3 : BitVec 4) : Statement (.bge x0 x1 x2 x3) := cc1 rfl (encCB_fields 0x25 x0 x1 x2 x3).1 (by decide) fun _ => by
    obtain ⟨h₀, h₁, h₂, h₃, h₄⟩ := encCB_fields 0x25 x0 x1 x2 x3
    generalize encCB 0x25 x0 x1 x2 x3 = w at h₀ h₁ h₂ h₃ h₄ ⊢
    unfold decodeCC
    rw [h₀]
    simp only [h₁, h₂, h₃, h₄]
    try rfl
theorem bltn (x0 : R5) (x1 : R5) (x2 : BitVec 12) (x3 : BitVec 4) : Statement (.bltn x0 x1 x2 x3) := cc1 rfl (encCB_fields 0x26 x0 x1 x2 x3).1 (by decide) fun _ => by
    obtain ⟨h₀, h₁, h₂, h₃, h₄⟩ := encCB_fields 0x26 x0 x1 x2 x3
    generalize encCB 0x26 x0 x1 x2 x3 = w at h₀ h₁ h₂ h₃ h₄ ⊢
    unfold decodeCC
    rw [h₀]
    simp only [h₁, h₂, h₃, h₄]
    try rfl
theorem bgen (x0 : R5) (x1 : R5) (x2 : BitVec 12) (x3 : BitVec 4) : Statement (.bgen x0 x1 x2 x3) := cc1 rfl (encCB_fields 0x27 x0 x1 x2 x3).1 (by decide) fun _ => by
    obtain ⟨h₀, h₁, h₂, h₃, h₄⟩ := encCB_fields 0x27 x0 x1 x2 x3
    generalize encCB 0x27 x0 x1 x2 x3 = w at h₀ h₁ h₂ h₃ h₄ ⊢
    unfold decodeCC
    rw [h₀]
    simp only [h₁, h₂, h₃, h₄]
    try rfl
theorem j (x0 : BitVec 22) (x1 : BitVec 4) : Statement (.j x0 x1) := by
  have h : ((0x28 : BitVec 6) ++ x0 ++ x1 : W32).toNat / 2 ^ 26 = 0x28 ∧ fld ((0x28 : BitVec 6) ++ x0 ++ x1) 4 22 = x0 ∧ fld ((0x28 : BitVec 6) ++ x0 ++ x1) 0 4 = x1 := by
    have h : ((0x28 : BitVec 6) ++ x0 ++ x1 : W32).toNat = 0x28 * 2 ^ 26 + x0.toNat * 2 ^ 4 + x1.toNat := by
      have h₁ := toNat_app ((0x28 : BitVec 6) ++ x0) x1
      have h₂ := toNat_app (0x28 : BitVec 6) x0
      have h₃ : (0x28 : BitVec 6).toNat = 0x28 := rfl
      refine h₁.trans ?_
      omega
    have := x0.isLt; have := x1.isLt
    refine ⟨?_, fld_eq ?_, fld_eq ?_⟩ <;> omega
  refine cc1 rfl h.1 (by decide) fun _ => ?_
  obtain ⟨h₀, h₁⟩ := h
  generalize (0x28 : BitVec 6) ++ x0 ++ x1 = w at h₀ h₁ ⊢
  unfold decodeCC
  rw [h₀]
  simp only [h₁.1, h₁.2]
  try rfl
theorem jal (x0 : R5) (x1 : BitVec 17) (x2 : BitVec 4) : Statement (.jal x0 x1 x2) := by
  have h : ((0x29 : BitVec 6) ++ x0 ++ x1 ++ x2 : W32).toNat / 2 ^ 26 = 0x29 ∧ fld ((0x29 : BitVec 6) ++ x0 ++ x1 ++ x2) 21 5 = x0 ∧ fld ((0x29 : BitVec 6) ++ x0 ++ x1 ++ x2) 4 17 = x1 ∧ fld ((0x29 : BitVec 6) ++ x0 ++ x1 ++ x2) 0 4 = x2 := by
    have h : ((0x29 : BitVec 6) ++ x0 ++ x1 ++ x2 : W32).toNat = 0x29 * 2 ^ 26 + x0.toNat * 2 ^ 21 + x1.toNat * 2 ^ 4 + x2.toNat := by
      have h₁ := toNat_app ((0x29 : BitVec 6) ++ x0 ++ x1) x2
      have h₂ := toNat_app ((0x29 : BitVec 6) ++ x0) x1
      have h₄ := toNat_app (0x29 : BitVec 6) x0
      have h₃ : (0x29 : BitVec 6).toNat = 0x29 := rfl
      refine h₁.trans ?_
      omega
    have := x0.isLt; have := x1.isLt; have := x2.isLt
    refine ⟨?_, fld_eq ?_, fld_eq ?_, fld_eq ?_⟩ <;> omega
  refine cc1 rfl h.1 (by decide) fun _ => ?_
  obtain ⟨h₀, h₁⟩ := h
  generalize (0x29 : BitVec 6) ++ x0 ++ x1 ++ x2 = w at h₀ h₁ ⊢
  unfold decodeCC
  rw [h₀]
  simp only [h₁.1, h₁.2.1, h₁.2.2]
  try rfl
theorem loopz (x0 : R5) (x1 : R5) (x2 : BitVec 12) (x3 : BitVec 4) : Statement (.loopz x0 x1 x2 x3) := cc1 rfl (encCB_fields 0x2A x0 x1 x2 x3).1 (by decide) fun _ => by
    obtain ⟨h₀, h₁, h₂, h₃, h₄⟩ := encCB_fields 0x2A x0 x1 x2 x3
    generalize encCB 0x2A x0 x1 x2 x3 = w at h₀ h₁ h₂ h₃ h₄ ⊢
    unfold decodeCC
    rw [h₀]
    simp only [h₁, h₂, h₃, h₄]
    try rfl
theorem li (x0 : R5) (x1 : BitVec 48) : Statement (.li x0 x1) := cc2 rfl (encCI_fields 0x30 x0 0 (x1.extractLsb' 0 16)).1 (by decide) fun _ => by
    obtain ⟨h₀, h₁, h₂, h₃, _⟩ := encCI_fields 0x30 x0 0 (x1.extractLsb' 0 16)
    have h : (x1.extractLsb' 16 32 ++ x1.extractLsb' 0 16 : BitVec 48) = x1 := by
      apply BitVec.eq_of_toNat_eq
      refine (toNat_app _ _).trans ?_
      rw [BitVec.extractLsb'_toNat, BitVec.extractLsb'_toNat, Nat.shiftRight_eq_div_pow]
      have := x1.isLt
      omega
    generalize encCI 0x30 x0 0 (x1.extractLsb' 0 16) = w at h₀ h₁ h₂ h₃ ⊢
    unfold decodeCC
    rw [h₀]
    simp only [h₁, h₂, h₃, h]
    try rfl
theorem addpc (x0 : R5) (x1 : BitVec 48) : Statement (.addpc x0 x1) := cc2 rfl (encCI_fields 0x31 x0 0 (x1.extractLsb' 0 16)).1 (by decide) fun _ => by
    obtain ⟨h₀, h₁, h₂, h₃, _⟩ := encCI_fields 0x31 x0 0 (x1.extractLsb' 0 16)
    have h : (x1.extractLsb' 16 32 ++ x1.extractLsb' 0 16 : BitVec 48) = x1 := by
      apply BitVec.eq_of_toNat_eq
      refine (toNat_app _ _).trans ?_
      rw [BitVec.extractLsb'_toNat, BitVec.extractLsb'_toNat, Nat.shiftRight_eq_div_pow]
      have := x1.isLt
      omega
    generalize encCI 0x31 x0 0 (x1.extractLsb' 0 16) = w at h₀ h₁ h₂ h₃ ⊢
    unfold decodeCC
    rw [h₀]
    simp only [h₁, h₂, h₃, h]
    try rfl
theorem ld (x0 : R5) (x1 : R5) (x2 : BitVec 4) (x3 : MemW) : Statement (.ld x0 x1 x2 x3) := by
  obtain ⟨w, hw, h₀, h₁, h₂, h₃, h₄, h₅, h₆⟩ := encCM_fields 0x38 x0 x1 0 0 x2 x3
  refine cc2 (w := w) (v := encMem x3) (congrArg (fun x => some (Engine.cc, x)) hw) h₀ (by decide) fun hf => ?_
  rw [decodeCC_eq _ _ h₀ (by decide)]
  unfold decodeMem
  rw [h₀]
  simp [h₁, h₂, h₃, h₄, h₅, h₆, memOf_encMem]
theorem st (x0 : R5) (x1 : R5) (x2 : BitVec 4) (x3 : MemW) : Statement (.st x0 x1 x2 x3) := by
  obtain ⟨w, hw, h₀, h₁, h₂, h₃, h₄, h₅, h₆⟩ := encCM_fields 0x39 0 x0 x1 0 x2 x3
  refine cc2 (w := w) (v := encMem x3) (congrArg (fun x => some (Engine.cc, x)) hw) h₀ (by decide) fun hf => ?_
  rw [decodeCC_eq _ _ h₀ (by decide)]
  unfold decodeMem
  rw [h₀]
  simp [h₁, h₂, h₃, h₄, h₅, h₆, memOf_encMem]
theorem lda (x0 : R5) (x1 : R5) (x2 : BitVec 4) (x3 : MemW) : Statement (.lda x0 x1 x2 x3) := by
  obtain ⟨w, hw, h₀, h₁, h₂, h₃, h₄, h₅, h₆⟩ := encCM_fields 0x3A x0 x1 0 0 x2 x3
  refine cc2 (w := w) (v := encMem x3) (congrArg (fun x => some (Engine.cc, x)) hw) h₀ (by decide) fun hf => ?_
  rw [decodeCC_eq _ _ h₀ (by decide)]
  unfold decodeMem
  rw [h₀]
  simp [h₁, h₂, h₃, h₄, h₅, h₆, memOf_encMem]
theorem stl (x0 : R5) (x1 : R5) (x2 : BitVec 4) (x3 : MemW) : Statement (.stl x0 x1 x2 x3) := by
  obtain ⟨w, hw, h₀, h₁, h₂, h₃, h₄, h₅, h₆⟩ := encCM_fields 0x3B 0 x0 x1 0 x2 x3
  refine cc2 (w := w) (v := encMem x3) (congrArg (fun x => some (Engine.cc, x)) hw) h₀ (by decide) fun hf => ?_
  rw [decodeCC_eq _ _ h₀ (by decide)]
  unfold decodeMem
  rw [h₀]
  simp [h₁, h₂, h₃, h₄, h₅, h₆, memOf_encMem]
theorem amo (x0 : BitVec 4) (x1 : BitVec 4) (x2 : R5) (x3 : R5) (x4 : R5) (x5 : MemW) : Statement (.amo x0 x1 x2 x3 x4 x5) := by
  obtain ⟨w, hw, h₀, h₁, h₂, h₃, h₄, h₅, h₆⟩ := encCM_fields 0x3C x2 x3 x4 x0 x1 x5
  refine cc2 (w := w) (v := encMem x5) (congrArg (fun x => some (Engine.cc, x)) hw) h₀ (by decide) fun hf => ?_
  rw [decodeCC_eq _ _ h₀ (by decide)]
  unfold decodeMem
  rw [h₀]
  simp [h₁, h₂, h₃, h₄, h₅, h₆, memOf_encMem, show x0.toNat ≤ 9 by simp [Instr.wf] at hf; omega]
theorem pfx (x0 : R5) (x1 : MemW) : Statement (.pfx x0 x1) := by
  obtain ⟨w, hw, h₀, h₁, h₂, h₃, h₄, h₅, h₆⟩ := encCM_fields 0x3D 0 x0 0 0 0 x1
  refine cc2 (w := w) (v := encMem x1) (congrArg (fun x => some (Engine.cc, x)) hw) h₀ (by decide) fun hf => ?_
  rw [decodeCC_eq _ _ h₀ (by decide)]
  unfold decodeMem
  rw [h₀]
  simp [h₁, h₂, h₃, h₄, h₅, h₆, memOf_encMem]
theorem susp (x0 : R5) (x1 : R5) (x2 : R5) (x3 : MemW) : Statement (.susp x0 x1 x2 x3) := by
  obtain ⟨w, hw, h₀, h₁, h₂, h₃, h₄, h₅, h₆⟩ := encCM_fields 0x3E x0 x1 x2 0 0 x3
  refine cc2 (w := w) (v := encMem x3) (congrArg (fun x => some (Engine.cc, x)) hw) h₀ (by decide) fun hf => ?_
  rw [decodeCC_eq _ _ h₀ (by decide)]
  unfold decodeMem
  rw [h₀]
  simp [h₁, h₂, h₃, h₄, h₅, h₆, memOf_encMem]
theorem rslv (x0 : R5) (x1 : R5) (x2 : R5) (x3 : MemW) : Statement (.rslv x0 x1 x2 x3) := by
  obtain ⟨w, hw, h₀, h₁, h₂, h₃, h₄, h₅, h₆⟩ := encCM_fields 0x3F x0 x1 x2 0 0 x3
  refine cc2 (w := w) (v := encMem x3) (congrArg (fun x => some (Engine.cc, x)) hw) h₀ (by decide) fun hf => ?_
  rw [decodeCC_eq _ _ h₀ (by decide)]
  unfold decodeMem
  rw [h₀]
  simp [h₁, h₂, h₃, h₄, h₅, h₆, memOf_encMem]
theorem laneNop (x0 : BitVec 6) : Statement (.laneNop x0) := by
  have h : ((0 : BitVec 26) ++ x0 : W32).toNat = x0.toNat := by
    have h₁ := toNat_app (0 : BitVec 26) x0
    have h₂ : (0 : BitVec 26).toNat = 0 := rfl
    refine h₁.trans ?_
    omega
  have := x0.isLt
  intro e ws h' _
  cases h'
  have h₁ : fld ((0 : BitVec 26) ++ x0) 0 6 = x0 := fld_eq (by omega)
  have h₂ : fld ((0 : BitVec 26) ++ x0) 6 18 = 0 := fld_eq (by have h₃ : (0 : BitVec 18).toNat = 0 := rfl; omega)
  have h₃ : ((0 : BitVec 26) ++ x0 : W32).toNat / 2 ^ 24 = 0 := by omega
  refine ⟨by simp only [instrWords, List.getD_cons_zero, h₃]; rfl, ?_⟩
  show decodeLane ((0 : BitVec 26) ++ x0) 0 0 = _
  unfold decodeLane
  rw [h₃]
  simp only [h₁, h₂]
  rfl
theorem vadd (x0 : LaneW) : Statement (.vadd x0) := lane2 (o := 0x01) rfl rfl (by decide) fun w v h₁ h₂ => by unfold decodeLane; rw [h₁, h₂]; rfl
theorem vsub (x0 : LaneW) : Statement (.vsub x0) := lane2 (o := 0x02) rfl rfl (by decide) fun w v h₁ h₂ => by unfold decodeLane; rw [h₁, h₂]; rfl
theorem vmul (x0 : LaneW) : Statement (.vmul x0) := lane2 (o := 0x03) rfl rfl (by decide) fun w v h₁ h₂ => by unfold decodeLane; rw [h₁, h₂]; rfl
theorem vmulh (x0 : LaneW) : Statement (.vmulh x0) := lane2 (o := 0x04) rfl rfl (by decide) fun w v h₁ h₂ => by unfold decodeLane; rw [h₁, h₂]; rfl
theorem vmad (x0 : LaneW) : Statement (.vmad x0) := lane2 (o := 0x05) rfl rfl (by decide) fun w v h₁ h₂ => by unfold decodeLane; rw [h₁, h₂]; rfl
theorem vand (x0 : LaneW) : Statement (.vand x0) := lane2 (o := 0x06) rfl rfl (by decide) fun w v h₁ h₂ => by unfold decodeLane; rw [h₁, h₂]; rfl
theorem vor (x0 : LaneW) : Statement (.vor x0) := lane2 (o := 0x07) rfl rfl (by decide) fun w v h₁ h₂ => by unfold decodeLane; rw [h₁, h₂]; rfl
theorem vxor (x0 : LaneW) : Statement (.vxor x0) := lane2 (o := 0x08) rfl rfl (by decide) fun w v h₁ h₂ => by unfold decodeLane; rw [h₁, h₂]; rfl
theorem vshl (x0 : LaneW) : Statement (.vshl x0) := lane2 (o := 0x09) rfl rfl (by decide) fun w v h₁ h₂ => by unfold decodeLane; rw [h₁, h₂]; rfl
theorem vshr (x0 : LaneW) : Statement (.vshr x0) := lane2 (o := 0x0A) rfl rfl (by decide) fun w v h₁ h₂ => by unfold decodeLane; rw [h₁, h₂]; rfl
theorem vsra (x0 : LaneW) : Statement (.vsra x0) := lane2 (o := 0x0B) rfl rfl (by decide) fun w v h₁ h₂ => by unfold decodeLane; rw [h₁, h₂]; rfl
theorem vmin (x0 : LaneW) : Statement (.vmin x0) := lane2 (o := 0x0C) rfl rfl (by decide) fun w v h₁ h₂ => by unfold decodeLane; rw [h₁, h₂]; rfl
theorem vmax (x0 : LaneW) : Statement (.vmax x0) := lane2 (o := 0x0D) rfl rfl (by decide) fun w v h₁ h₂ => by unfold decodeLane; rw [h₁, h₂]; rfl
theorem vabs (x0 : LaneW) : Statement (.vabs x0) := lane2 (o := 0x0E) rfl rfl (by decide) fun w v h₁ h₂ => by unfold decodeLane; rw [h₁, h₂]; rfl
theorem vneg (x0 : LaneW) : Statement (.vneg x0) := lane2 (o := 0x0F) rfl rfl (by decide) fun w v h₁ h₂ => by unfold decodeLane; rw [h₁, h₂]; rfl
theorem vclz (x0 : LaneW) : Statement (.vclz x0) := lane2 (o := 0x10) rfl rfl (by decide) fun w v h₁ h₂ => by unfold decodeLane; rw [h₁, h₂]; rfl
theorem vpopc (x0 : LaneW) : Statement (.vpopc x0) := lane2 (o := 0x11) rfl rfl (by decide) fun w v h₁ h₂ => by unfold decodeLane; rw [h₁, h₂]; rfl
theorem vsel (x0 : LaneW) : Statement (.vsel x0) := lane2 (o := 0x12) rfl rfl (by decide) fun w v h₁ h₂ => by unfold decodeLane; rw [h₁, h₂]; rfl
theorem vmov (x0 : LaneW) : Statement (.vmov x0) := lane2 (o := 0x13) rfl rfl (by decide) fun w v h₁ h₂ => by unfold decodeLane; rw [h₁, h₂]; rfl
theorem viota (x0 : LaneW) : Statement (.viota x0) := lane2 (o := 0x14) rfl rfl (by decide) fun w v h₁ h₂ => by unfold decodeLane; rw [h₁, h₂]; rfl
theorem vcmp (x0 : LaneW) : Statement (.vcmp x0) := lane2 (o := 0x15) rfl rfl (by decide) fun w v h₁ h₂ => by unfold decodeLane; rw [h₁, h₂]; rfl
theorem vli (x0 : LaneW) (x1 : BitVec 32) : Statement (.vli x0 x1) := lane3 (o := 0xC8) rfl rfl (by decide) fun w v h₁ h₂ => by unfold decodeLane; rw [h₁, h₂]; rfl
theorem vavg (x0 : LaneW) : Statement (.vavg x0) := lane2 (o := 0x16) rfl rfl (by decide) fun w v h₁ h₂ => by unfold decodeLane; rw [h₁, h₂]; rfl
theorem vsad (x0 : LaneW) : Statement (.vsad x0) := lane2 (o := 0x17) rfl rfl (by decide) fun w v h₁ h₂ => by unfold decodeLane; rw [h₁, h₂]; rfl
theorem fadd (x0 : FFmt) (x1 : LaneW) : Statement (.fadd x0 x1) := float2 (k := 0) rfl rfl rfl
theorem fsub (x0 : FFmt) (x1 : LaneW) : Statement (.fsub x0 x1) := float2 (k := 1) rfl rfl rfl
theorem fmul (x0 : FFmt) (x1 : LaneW) : Statement (.fmul x0 x1) := float2 (k := 2) rfl rfl rfl
theorem ffma (x0 : FFmt) (x1 : LaneW) : Statement (.ffma x0 x1) := float2 (k := 3) rfl rfl rfl
theorem fmin (x0 : FFmt) (x1 : LaneW) : Statement (.fmin x0 x1) := float2 (k := 4) rfl rfl rfl
theorem fmax (x0 : FFmt) (x1 : LaneW) : Statement (.fmax x0 x1) := float2 (k := 5) rfl rfl rfl
theorem fabs (x0 : FFmt) (x1 : LaneW) : Statement (.fabs x0 x1) := float2 (k := 6) rfl rfl rfl
theorem fneg (x0 : FFmt) (x1 : LaneW) : Statement (.fneg x0 x1) := float2 (k := 7) rfl rfl rfl
theorem frcp (x0 : FFmt) (x1 : LaneW) : Statement (.frcp x0 x1) := float2 (k := 8) rfl rfl rfl
theorem frsq (x0 : FFmt) (x1 : LaneW) : Statement (.frsq x0 x1) := float2 (k := 9) rfl rfl rfl
theorem fexp2 (x0 : FFmt) (x1 : LaneW) : Statement (.fexp2 x0 x1) := float2 (k := 0xA) rfl rfl rfl
theorem flog2 (x0 : FFmt) (x1 : LaneW) : Statement (.flog2 x0 x1) := float2 (k := 0xB) rfl rfl rfl
theorem fcmp (x0 : FFmt) (x1 : LaneW) : Statement (.fcmp x0 x1) := float2 (k := 0xC) rfl rfl rfl
theorem frcpa (x0 : LaneW) : Statement (.frcpa x0) := lane2 (o := 0x2D) rfl rfl (by decide) fun w v h₁ h₂ => by
    unfold decodeLane
    rw [h₁, h₂]
    rfl
theorem vcvt (x0 : LaneW) : Statement (.vcvt x0) := lane2 (o := 0x50) rfl rfl (by decide) fun w v h₁ h₂ => by unfold decodeLane; rw [h₁, h₂]; rfl
theorem vhist (x0 : LaneW) : Statement (.vhist x0) := lane2 (o := 0x51) rfl rfl (by decide) fun w v h₁ h₂ => by unfold decodeLane; rw [h₁, h₂]; rfl
theorem vqnt (x0 : LaneW) : Statement (.vqnt x0) := lane2 (o := 0x52) rfl rfl (by decide) fun w v h₁ h₂ => by unfold decodeLane; rw [h₁, h₂]; rfl
theorem vdq (x0 : LaneW) : Statement (.vdq x0) := lane2 (o := 0x53) rfl rfl (by decide) fun w v h₁ h₂ => by unfold decodeLane; rw [h₁, h₂]; rfl
theorem rrot (x0 : LaneW) : Statement (.rrot x0) := lane2 (o := 0x60) rfl rfl (by decide) fun w v h₁ h₂ => by unfold decodeLane; rw [h₁, h₂]; rfl
theorem crot (x0 : LaneW) : Statement (.crot x0) := lane2 (o := 0x61) rfl rfl (by decide) fun w v h₁ h₂ => by unfold decodeLane; rw [h₁, h₂]; rfl
theorem rbc (x0 : LaneW) : Statement (.rbc x0) := lane2 (o := 0x62) rfl rfl (by decide) fun w v h₁ h₂ => by unfold decodeLane; rw [h₁, h₂]; rfl
theorem cbc (x0 : LaneW) : Statement (.cbc x0) := lane2 (o := 0x63) rfl rfl (by decide) fun w v h₁ h₂ => by unfold decodeLane; rw [h₁, h₂]; rfl
theorem rred (x0 : LaneW) : Statement (.rred x0) := lane2 (o := 0x64) rfl rfl (by decide) fun w v h₁ h₂ => by unfold decodeLane; rw [h₁, h₂]; rfl
theorem cred (x0 : LaneW) : Statement (.cred x0) := lane2 (o := 0x65) rfl rfl (by decide) fun w v h₁ h₂ => by unfold decodeLane; rw [h₁, h₂]; rfl
theorem rprm (x0 : LaneW) : Statement (.rprm x0) := lane2 (o := 0x66) rfl rfl (by decide) fun w v h₁ h₂ => by unfold decodeLane; rw [h₁, h₂]; rfl
theorem trn16 (x0 : LaneW) : Statement (.trn16 x0) := lane2 (o := 0x67) rfl rfl (by decide) fun w v h₁ h₂ => by unfold decodeLane; rw [h₁, h₂]; rfl
theorem vshuf (x0 : LaneW) : Statement (.vshuf x0) := lane2 (o := 0x68) rfl rfl (by decide) fun w v h₁ h₂ => by unfold decodeLane; rw [h₁, h₂]; rfl
theorem mand (x0 : LaneW) : Statement (.mand x0) := lane2 (o := 0x70) rfl rfl (by decide) fun w v h₁ h₂ => by unfold decodeLane; rw [h₁, h₂]; rfl
theorem mor (x0 : LaneW) : Statement (.mor x0) := lane2 (o := 0x71) rfl rfl (by decide) fun w v h₁ h₂ => by unfold decodeLane; rw [h₁, h₂]; rfl
theorem mxor (x0 : LaneW) : Statement (.mxor x0) := lane2 (o := 0x72) rfl rfl (by decide) fun w v h₁ h₂ => by unfold decodeLane; rw [h₁, h₂]; rfl
theorem mnot (x0 : LaneW) : Statement (.mnot x0) := lane2 (o := 0x73) rfl rfl (by decide) fun w v h₁ h₂ => by unfold decodeLane; rw [h₁, h₂]; rfl
theorem mcnt (x0 : LaneW) : Statement (.mcnt x0) := lane2 (o := 0x74) rfl rfl (by decide) fun w v h₁ h₂ => by unfold decodeLane; rw [h₁, h₂]; rfl
theorem mrow (x0 : LaneW) : Statement (.mrow x0) := lane2 (o := 0x75) rfl rfl (by decide) fun w v h₁ h₂ => by unfold decodeLane; rw [h₁, h₂]; rfl
theorem showx (x0 : LaneW) : Statement (.showx x0) := lane2 (o := 0x81) rfl rfl (by decide) fun w v h₁ h₂ => by unfold decodeLane; rw [h₁, h₂]; rfl
theorem vfence (x0 : LaneW) : Statement (.vfence x0) := lane2 (o := 0x82) rfl rfl (by decide) fun w v h₁ h₂ => by unfold decodeLane; rw [h₁, h₂]; rfl
theorem laneBari (x0 : LaneW) : Statement (.laneBari x0) := lane2 (o := 0x83) rfl rfl (by decide) fun w v h₁ h₂ => by unfold decodeLane; rw [h₁, h₂]; rfl
theorem laneBara (x0 : LaneW) : Statement (.laneBara x0) := lane2 (o := 0x84) rfl rfl (by decide) fun w v h₁ h₂ => by unfold decodeLane; rw [h₁, h₂]; rfl
theorem laneBarw (x0 : LaneW) : Statement (.laneBarw x0) := lane2 (o := 0x85) rfl rfl (by decide) fun w v h₁ h₂ => by unfold decodeLane; rw [h₁, h₂]; rfl
theorem plk (x0 : LaneW) : Statement (.plk x0) := lane2 (o := 0x86) rfl rfl (by decide) fun w v h₁ h₂ => by unfold decodeLane; rw [h₁, h₂]; rfl
theorem ptag (x0 : LaneW) : Statement (.ptag x0) := lane2 (o := 0x87) rfl rfl (by decide) fun w v h₁ h₂ => by unfold decodeLane; rw [h₁, h₂]; rfl
theorem pinv (x0 : LaneW) : Statement (.pinv x0) := lane2 (o := 0x88) rfl rfl (by decide) fun w v h₁ h₂ => by unfold decodeLane; rw [h₁, h₂]; rfl
theorem vld (x0 : LaneW) (x1 : MemW) : Statement (.vld x0 x1) := lane3 (o := 0xC0) rfl rfl (by decide) fun w v h₁ h₂ => by unfold decodeLane; rw [h₁, h₂, memOf_encMem]; rfl
theorem vst (x0 : LaneW) (x1 : MemW) : Statement (.vst x0 x1) := lane3 (o := 0xC1) rfl rfl (by decide) fun w v h₁ h₂ => by unfold decodeLane; rw [h₁, h₂, memOf_encMem]; rfl
theorem vldt (x0 : LaneW) (x1 : MemW) : Statement (.vldt x0 x1) := lane3 (o := 0xC2) rfl rfl (by decide) fun w v h₁ h₂ => by unfold decodeLane; rw [h₁, h₂, memOf_encMem]; rfl
theorem vstt (x0 : LaneW) (x1 : MemW) : Statement (.vstt x0 x1) := lane3 (o := 0xC3) rfl rfl (by decide) fun w v h₁ h₂ => by unfold decodeLane; rw [h₁, h₂, memOf_encMem]; rfl
theorem vatom (x0 : LaneW) (x1 : MemW) : Statement (.vatom x0 x1) := lane3 (o := 0xC4) rfl rfl (by decide) fun w v h₁ h₂ => by unfold decodeLane; rw [h₁, h₂, memOf_encMem]; rfl
theorem vcas (x0 : LaneW) (x1 : MemW) : Statement (.vcas x0 x1) := lane3 (o := 0xC5) rfl rfl (by decide) fun w v h₁ h₂ => by unfold decodeLane; rw [h₁, h₂, memOf_encMem]; rfl
theorem pld (x0 : LaneW) (x1 : MemW) : Statement (.pld x0 x1) := lane3 (o := 0xC6) rfl rfl (by decide) fun w v h₁ h₂ => by unfold decodeLane; rw [h₁, h₂, memOf_encMem]; rfl
theorem pst (x0 : LaneW) (x1 : MemW) : Statement (.pst x0 x1) := lane3 (o := 0xC7) rfl rfl (by decide) fun w v h₁ h₂ => by unfold decodeLane; rw [h₁, h₂, memOf_encMem]; rfl
theorem vldb (x0 : LaneW) (x1 : MemW) : Statement (.vldb x0 x1) := lane3 (o := 0xC9) rfl rfl (by decide) fun w v h₁ h₂ => by unfold decodeLane; rw [h₁, h₂, memOf_encMem]; rfl
theorem matrixNop : Statement (.matrixNop) := by
  intro e ws h _
  cases h
  exact ⟨by decide, by decide⟩
theorem mma (x0 : MatW) : Statement (.mma x0) := mat2 (o := 0x01) rfl rfl (by decide) fun w v h₁ h₂ => by unfold decodeMatrix; rw [h₁, h₂]; rfl
theorem mmas (x0 : MatW) : Statement (.mmas x0) := mat2 (o := 0x02) rfl rfl (by decide) fun w v h₁ h₂ => by unfold decodeMatrix; rw [h₁, h₂]; rfl
theorem mmat (x0 : MatW) : Statement (.mmat x0) := mat2 (o := 0x0D) rfl rfl (by decide) fun w v h₁ h₂ => by unfold decodeMatrix; rw [h₁, h₂]; rfl
theorem mzero (x0 : MatW) : Statement (.mzero x0) := mat2 (o := 0x03) rfl rfl (by decide) fun w v h₁ h₂ => by unfold decodeMatrix; rw [h₁, h₂]; rfl
theorem mldc (x0 : MatW) : Statement (.mldc x0) := mat2 (o := 0x04) rfl rfl (by decide) fun w v h₁ h₂ => by unfold decodeMatrix; rw [h₁, h₂]; rfl
theorem mstc (x0 : MatW) : Statement (.mstc x0) := mat2 (o := 0x05) rfl rfl (by decide) fun w v h₁ h₂ => by unfold decodeMatrix; rw [h₁, h₂]; rfl
theorem rinit (x0 : MatW) : Statement (.rinit x0) := mat2 (o := 0x06) rfl rfl (by decide) fun w v h₁ h₂ => by unfold decodeMatrix; rw [h₁, h₂]; rfl
theorem tadv (x0 : MatW) : Statement (.tadv x0) := mat2 (o := 0x07) rfl rfl (by decide) fun w v h₁ h₂ => by unfold decodeMatrix; rw [h₁, h₂]; rfl
theorem hadv (x0 : MatW) : Statement (.hadv x0) := mat2 (o := 0x08) rfl rfl (by decide) fun w v h₁ h₂ => by unfold decodeMatrix; rw [h₁, h₂]; rfl
theorem gath (x0 : MatW) : Statement (.gath x0) := mat2 (o := 0x09) rfl rfl (by decide) fun w v h₁ h₂ => by unfold decodeMatrix; rw [h₁, h₂]; rfl
theorem matrixBara (x0 : MatW) : Statement (.matrixBara x0) := mat2 (o := 0x0A) rfl rfl (by decide) fun w v h₁ h₂ => by unfold decodeMatrix; rw [h₁, h₂]; rfl
theorem matrixBarw (x0 : MatW) : Statement (.matrixBarw x0) := mat2 (o := 0x0B) rfl rfl (by decide) fun w v h₁ h₂ => by unfold decodeMatrix; rw [h₁, h₂]; rfl
theorem mend (x0 : MatW) : Statement (.mend x0) := mat2 (o := 0x0C) rfl rfl (by decide) fun w v h₁ h₂ => by unfold decodeMatrix; rw [h₁, h₂]; rfl
theorem copyNop : Statement (.copyNop) := by
  intro e ws h _
  cases h
  exact ⟨by decide, by decide⟩
theorem cpG2p (x0 : CopyW) : Statement (.cpG2p x0) := copy2 (o := 0x01) rfl rfl (by decide) fun w v h₁ h₂ => by unfold decodeCopy; rw [h₁, h₂]; rfl
theorem cpP2g (x0 : CopyW) : Statement (.cpP2g x0) := copy2 (o := 0x02) rfl rfl (by decide) fun w v h₁ h₂ => by unfold decodeCopy; rw [h₁, h₂]; rfl
theorem cpG2g (x0 : CopyW) : Statement (.cpG2g x0) := copy2 (o := 0x03) rfl rfl (by decide) fun w v h₁ h₂ => by unfold decodeCopy; rw [h₁, h₂]; rfl
theorem cpP2p (x0 : CopyW) : Statement (.cpP2p x0) := copy2 (o := 0x04) rfl rfl (by decide) fun w v h₁ h₂ => by unfold decodeCopy; rw [h₁, h₂]; rfl
theorem cpFill (x0 : CopyW) (x1 : BitVec 32) : Statement (.cpFill x0 x1) := copy3 (o := 0x80) rfl rfl (by decide) fun w v h₁ h₂ => by unfold decodeCopy; rw [h₁, h₂]; rfl
theorem cpRows (x0 : CopyW) (x1 : BitVec 32) : Statement (.cpRows x0 x1) := copy3 (o := 0x81) rfl rfl (by decide) fun w v h₁ h₂ => by unfold decodeCopy; rw [h₁, h₂]; rfl
theorem cpToring (x0 : CopyW) (x1 : BitVec 32) : Statement (.cpToring x0 x1) := copy3 (o := 0x82) rfl rfl (by decide) fun w v h₁ h₂ => by unfold decodeCopy; rw [h₁, h₂]; rfl
theorem cpReduce (x0 : CopyW) (x1 : BitVec 32) : Statement (.cpReduce x0 x1) := copy3 (o := 0x83) rfl rfl (by decide) fun w v h₁ h₂ => by unfold decodeCopy; rw [h₁, h₂]; rfl
theorem cpG2l (x0 : CopyW) : Statement (.cpG2l x0) := copy2 (o := 0x06) rfl rfl (by decide) fun w v h₁ h₂ => by unfold decodeCopy; rw [h₁, h₂]; rfl
theorem dealStart (x0 : GroupRef) : Statement (.dealStart x0) := fun _ _ h => nomatch h
theorem iterationStart (x0 : GroupRef) : Statement (.iterationStart x0) := fun _ _ h => nomatch h
theorem dealRetire (x0 : GroupRef) : Statement (.dealRetire x0) := fun _ _ h => nomatch h
theorem resultVisible (x0 : GroupRef) : Statement (.resultVisible x0) := fun _ _ h => nomatch h
theorem tokenComplete (x0 : GroupRef) (x1 : Nat) : Statement (.tokenComplete x0 x1) := fun _ _ h => nomatch h
theorem deferredFault (x0 : GroupRef) : Statement (.deferredFault x0) := fun _ _ h => nomatch h
theorem showEnqueue (x0 : GroupRef) (x1 : Nat) : Statement (.showEnqueue x0 x1) := fun _ _ h => nomatch h
theorem groupSwap (x0 : GroupRef) (x1 : GroupRef) : Statement (.groupSwap x0 x1) := fun _ _ h => nomatch h
theorem dealStallResume (x0 : ThreadRef) : Statement (.dealStallResume x0) := fun _ _ h => nomatch h
theorem spopResume (x0 : ThreadRef) : Statement (.spopResume x0) := fun _ _ h => nomatch h
theorem barwWake (x0 : Agent) : Statement (.barwWake x0) := fun _ _ h => nomatch h
theorem yieldResume (x0 : ThreadRef) (x1 : YieldWhy) : Statement (.yieldResume x0 x1) := fun _ _ h => nomatch h
theorem lockGrant (x0 : Nat) : Statement (.lockGrant x0) := fun _ _ h => nomatch h
theorem hadvResume (x0 : TeamRef) : Statement (.hadvResume x0) := fun _ _ h => nomatch h
theorem mmaRetire (x0 : TeamRef) : Statement (.mmaRetire x0) := fun _ _ h => nomatch h
theorem gatherExecute (x0 : Nat) : Statement (.gatherExecute x0) := fun _ _ h => nomatch h
theorem copyStart (x0 : Nat) (x1 : Bool) : Statement (.copyStart x0 x1) := fun _ _ h => nomatch h
theorem copyComplete (x0 : Nat) (x1 : Bool) (x2 : Nat) : Statement (.copyComplete x0 x1 x2) := fun _ _ h => nomatch h
theorem copyFaultStop (x0 : Nat) (x1 : Bool) (x2 : Nat) : Statement (.copyFaultStop x0 x1 x2) := fun _ _ h => nomatch h
theorem emulationEntry (x0 : ThreadRef) : Statement (.emulationEntry x0) := fun _ _ h => nomatch h
theorem teamEnd (x0 : TeamRef) : Statement (.teamEnd x0) := fun _ _ h => nomatch h
theorem evaluatorStart (x0 : Nat) : Statement (.evaluatorStart x0) := fun _ _ h => nomatch h
theorem evaluatorCellFault (x0 : TeamRef) : Statement (.evaluatorCellFault x0) := fun _ _ h => nomatch h
theorem ownershipTransfer (x0 : Nat) (x1 : Nat) : Statement (.ownershipTransfer x0 x1) := fun _ _ h => nomatch h
theorem priResponse (x0 : Nat) (x1 : Nat) (x2 : PriResp) : Statement (.priResponse x0 x1 x2) := fun _ _ h => nomatch h
theorem atsInvalidation (x0 : Nat) (x1 : Nat) (x2 : Nat) : Statement (.atsInvalidation x0 x1 x2) := fun _ _ h => nomatch h
theorem pageLoad (x0 : Nat) (x1 : Nat) (x2 : Nat) (x3 : Nat) : Statement (.pageLoad x0 x1 x2 x3) := fun _ _ h => nomatch h
theorem uncorrectableError (x0 : MemPlace) : Statement (.uncorrectableError x0) := fun _ _ h => nomatch h
theorem preempt (x0 : Agent) : Statement (.preempt x0) := fun _ _ h => nomatch h
theorem timeSliceExpiry (x0 : TeamRef) : Statement (.timeSliceExpiry x0) := fun _ _ h => nomatch h
theorem fatalRemoval (x0 : Nat) : Statement (.fatalRemoval x0) := fun _ _ h => nomatch h
theorem rollback (x0 : Nat) : Statement (.rollback x0) := fun _ _ h => nomatch h
theorem ttcfgWrite (x0 : R5) : Statement (.ttcfgWrite x0) := fun _ _ h => nomatch h
theorem ttopLookup (x0 : R5) : Statement (.ttopLookup x0) := fun _ _ h => nomatch h
theorem ttopIns (x0 : R5) : Statement (.ttopIns x0) := fun _ _ h => nomatch h
theorem ttopInsd (x0 : R5) : Statement (.ttopInsd x0) := fun _ _ h => nomatch h
theorem ttopEvc (x0 : R5) : Statement (.ttopEvc x0) := fun _ _ h => nomatch h
theorem ttopSetd (x0 : R5) : Statement (.ttopSetd x0) := fun _ _ h => nomatch h
theorem ttopClrd (x0 : R5) : Statement (.ttopClrd x0) := fun _ _ h => nomatch h
theorem ttopInvalidate (x0 : R5) : Statement (.ttopInvalidate x0) := fun _ _ h => nomatch h
theorem rgopRead (x0 : R5) : Statement (.rgopRead x0) := fun _ _ h => nomatch h
theorem rgopAdvance (x0 : R5) : Statement (.rgopAdvance x0) := fun _ _ h => nomatch h
theorem gfpxWrite (x0 : R5) (x1 : BitVec 16) : Statement (.gfpxWrite x0 x1) := fun _ _ h => nomatch h
theorem writeIndex (x0 : Nat) (x1 : Nat) (x2 : Nat) (x3 : IndexWrite) : Statement (.writeIndex x0 x1 x2 x3) := fun _ _ h => nomatch h
theorem frontEndEvent (x0 : Nat) : Statement (.frontEndEvent x0) := fun _ _ h => nomatch h
theorem serviceRound (x0 : Nat) (x1 : Nat) : Statement (.serviceRound x0 x1) := fun _ _ h => nomatch h
theorem pad (x0 : Nat) : Statement (.pad x0) := fun _ _ h => nomatch h
theorem launch (x0 : Nat) : Statement (.launch x0) := fun _ _ h => nomatch h
theorem opchain (x0 : Nat) : Statement (.opchain x0) := fun _ _ h => nomatch h
theorem opchainRecord (x0 : Nat) : Statement (.opchainRecord x0) := fun _ _ h => nomatch h
theorem signal (x0 : Nat) : Statement (.signal x0) := fun _ _ h => nomatch h
theorem wait (x0 : Nat) : Statement (.wait x0) := fun _ _ h => nomatch h
theorem waitRecheck (x0 : Nat) : Statement (.waitRecheck x0) := fun _ _ h => nomatch h
theorem inval (x0 : Nat) : Statement (.inval x0) := fun _ _ h => nomatch h
theorem invalComplete (x0 : Nat) : Statement (.invalComplete x0) := fun _ _ h => nomatch h
theorem node (x0 : Nat) : Statement (.node x0) := fun _ _ h => nomatch h
theorem binRecordWrite (x0 : Nat) (x1 : Nat) (x2 : List Byte) : Statement (.binRecordWrite x0 x1 x2) := fun _ _ h => nomatch h
theorem binLaunch (x0 : Nat) (x1 : Nat) : Statement (.binLaunch x0 x1) := fun _ _ h => nomatch h
theorem binTimerExpiry (x0 : Nat) (x1 : Nat) : Statement (.binTimerExpiry x0 x1) := fun _ _ h => nomatch h
theorem teamStart (x0 : Nat) : Statement (.teamStart x0) := fun _ _ h => nomatch h
theorem bootMailboxArm (x0 : Nat) (x1 : Nat) (x2 : W64) : Statement (.bootMailboxArm x0 x1 x2) := fun _ _ h => nomatch h
theorem shadowBankActivate (x0 : Nat) (x1 : Nat) : Statement (.shadowBankActivate x0 x1) := fun _ _ h => nomatch h
theorem launchComplete (x0 : Nat) : Statement (.launchComplete x0) := fun _ _ h => nomatch h
theorem msixWindowExpiry (x0 : MsixVec) : Statement (.msixWindowExpiry x0) := fun _ _ h => nomatch h
theorem msixUnmask (x0 : Nat) (x1 : Nat) : Statement (.msixUnmask x0 x1) := fun _ _ h => nomatch h
theorem slotTableAdvance (x0 : Nat) : Statement (.slotTableAdvance x0) := fun _ _ h => nomatch h
theorem cmdbaseWrite (x0 : Nat) (x1 : W64) : Statement (.cmdbaseWrite x0 x1) := fun _ _ h => nomatch h
theorem functionRegisterWrite (x0 : Nat) (x1 : Nat) (x2 : Nat) (x3 : W64) : Statement (.functionRegisterWrite x0 x1 x2 x3) := fun _ _ h => nomatch h
theorem resume (x0 : Nat) (x1 : Nat) : Statement (.resume x0 x1) := fun _ _ h => nomatch h
theorem skip (x0 : Nat) (x1 : Nat) : Statement (.skip x0 x1) := fun _ _ h => nomatch h
theorem cmdStep (x0 : Nat) (x1 : Nat) : Statement (.cmdStep x0 x1) := fun _ _ h => nomatch h
theorem remove (x0 : Nat) (x1 : Nat) : Statement (.remove x0 x1) := fun _ _ h => nomatch h
theorem qenable (x0 : Nat) (x1 : Nat) : Statement (.qenable x0 x1) := fun _ _ h => nomatch h
theorem qdisable (x0 : Nat) (x1 : Nat) : Statement (.qdisable x0 x1) := fun _ _ h => nomatch h
theorem qrestart (x0 : Nat) (x1 : Nat) (x2 : W64) (x3 : Nat) : Statement (.qrestart x0 x1 x2 x3) := fun _ _ h => nomatch h
theorem prion (x0 : Nat) (x1 : Nat) : Statement (.prion x0 x1) := fun _ _ h => nomatch h
theorem ctxout (x0 : Nat) (x1 : Nat) : Statement (.ctxout x0 x1) := fun _ _ h => nomatch h
theorem ctxin (x0 : Nat) (x1 : Nat) (x2 : W64) : Statement (.ctxin x0 x1 x2) := fun _ _ h => nomatch h
theorem assign (x0 : Nat) (x1 : Nat) (x2 : Nat) : Statement (.assign x0 x1 x2) := fun _ _ h => nomatch h
theorem slottbl (x0 : Nat) (x1 : Nat) (x2 : W64) : Statement (.slottbl x0 x1 x2) := fun _ _ h => nomatch h
theorem diereset (x0 : Nat) (x1 : Nat) : Statement (.diereset x0 x1) := fun _ _ h => nomatch h
theorem flr (x0 : Nat) : Statement (.flr x0) := fun _ _ h => nomatch h
theorem hostBar2Access (x0 : Nat) (x1 : Nat) (x2 : Nat) (x3 : Option (List Byte)) : Statement (.hostBar2Access x0 x1 x2 x3) := fun _ _ h => nomatch h
theorem domainRequest (x0 : DomainReq) : Statement (.domainRequest x0) := fun _ _ h => nomatch h
theorem weaveFlitReceive (x0 : Flit) : Statement (.weaveFlitReceive x0) := fun _ _ h => nomatch h
theorem weavePortFailure (x0 : PortLoss) : Statement (.weavePortFailure x0) := fun _ _ h => nomatch h
theorem domainTimeout (x0 : Nat) : Statement (.domainTimeout x0) := fun _ _ h => nomatch h
theorem dieFault (x0 : Nat) : Statement (.dieFault x0) := fun _ _ h => nomatch h
theorem quiesceDone (x0 : Nat) : Statement (.quiesceDone x0) := fun _ _ h => nomatch h
theorem quiesceTimeout (x0 : Nat) : Statement (.quiesceTimeout x0) := fun _ _ h => nomatch h
theorem drainSaveDone (x0 : Nat) : Statement (.drainSaveDone x0) := fun _ _ h => nomatch h
theorem resetDone (x0 : Nat) : Statement (.resetDone x0) := fun _ _ h => nomatch h
theorem trainingDone (x0 : Training) : Statement (.trainingDone x0) := fun _ _ h => nomatch h
theorem joinMsg (x0 : Nat) (x1 : Nat) (x2 : Nat) : Statement (.joinMsg x0 x1 x2) := fun _ _ h => nomatch h
theorem ackMsg (x0 : Nat) (x1 : Nat) (x2 : Nat) : Statement (.ackMsg x0 x1 x2) := fun _ _ h => nomatch h
theorem openMsg (x0 : Nat) (x1 : Nat) : Statement (.openMsg x0 x1) := fun _ _ h => nomatch h
theorem parkedReplay (x0 : Nat) : Statement (.parkedReplay x0) := fun _ _ h => nomatch h
theorem teamRestart (x0 : Nat) : Statement (.teamRestart x0) := fun _ _ h => nomatch h
theorem hbmSpare (x0 : Nat) (x1 : Nat) : Statement (.hbmSpare x0 x1) := fun _ _ h => nomatch h
theorem frontEndCoreFailure (x0 : Nat) : Statement (.frontEndCoreFailure x0) := fun _ _ h => nomatch h
theorem marginSample (x0 : Nat) (x1 : Nat) (x2 : Nat) (x3 : Nat) (x4 : Bool) (x5 : Nat) : Statement (.marginSample x0 x1 x2 x3 x4 x5) := fun _ _ h => nomatch h
theorem powerWindow (x0 : Nat) : Statement (.powerWindow x0) := fun _ _ h => nomatch h
theorem droopDetect (x0 : Nat) (x1 : Nat) : Statement (.droopDetect x0 x1) := fun _ _ h => nomatch h
theorem thermalSample (x0 : Nat) (x1 : Nat) (x2 : Nat) : Statement (.thermalSample x0 x1 x2) := fun _ _ h => nomatch h
theorem coldBoot : Statement (.coldBoot) := fun _ _ h => nomatch h
theorem collarRestart : Statement (.collarRestart) := fun _ _ h => nomatch h
theorem getMeasurements (x0 : Bool) : Statement (.getMeasurements x0) := fun _ _ h => nomatch h
theorem logRead (x0 : Nat) (x1 : Nat) : Statement (.logRead x0 x1) := fun _ _ h => nomatch h
theorem firmwareImageWrite (x0 : Nat) (x1 : FwImage) : Statement (.firmwareImageWrite x0 x1) := fun _ _ h => nomatch h
theorem activation (x0 : Nat) : Statement (.activation x0) := fun _ _ h => nomatch h
theorem raiseFusedMinimum (x0 : Nat) : Statement (.raiseFusedMinimum x0) := fun _ _ h => nomatch h
theorem correctedError (x0 : Nat) (x1 : ErrLevel) (x2 : Nat) : Statement (.correctedError x0 x1 x2) := fun _ _ h => nomatch h
theorem registerEccError (x0 : Nat) (x1 : Nat) (x2 : Nat) : Statement (.registerEccError x0 x1 x2) := fun _ _ h => nomatch h
theorem accessComplete (x0 : ThreadRef) (x1 : Nat) : Statement (.accessComplete x0 x1) := fun _ _ h => nomatch h
theorem bar2ReadTimeout (x0 : Nat) : Statement (.bar2ReadTimeout x0) := fun _ _ h => nomatch h
theorem collarRestartDone : Statement (.collarRestartDone) := fun _ _ h => nomatch h
theorem hbmSpareCopyDone (x0 : Nat) (x1 : Nat) : Statement (.hbmSpareCopyDone x0 x1) := fun _ _ h => nomatch h
theorem peerReachable (x0 : PeerRoute) : Statement (.peerReachable x0) := fun _ _ h => nomatch h
theorem domainFormation (x0 : DomainSetup) : Statement (.domainFormation x0) := fun _ _ h => nomatch h
theorem exportTableWrite (x0 : Nat) (x1 : ExportEntry) : Statement (.exportTableWrite x0 x1) := fun _ _ h => nomatch h
theorem powerCapSet (x0 : Nat) : Statement (.powerCapSet x0) := fun _ _ h => nomatch h
theorem msixMask (x0 : Nat) (x1 : Nat) : Statement (.msixMask x0 x1) := fun _ _ h => nomatch h
theorem perstAssert : Statement (.perstAssert) := fun _ _ h => nomatch h
theorem powerLoss : Statement (.powerLoss) := fun _ _ h => nomatch h
theorem imageLoad (x0 : Nat) (x1 : Nat) (x2 : W64) : Statement (.imageLoad x0 x1 x2) := fun _ _ h => nomatch h
theorem imageRelease (x0 : Nat) (x1 : Nat) : Statement (.imageRelease x0 x1) := fun _ _ h => nomatch h
theorem vfEnable (x0 : Nat) : Statement (.vfEnable x0) := fun _ _ h => nomatch h
theorem lockAllotment (x0 : Nat) (x1 : Nat) (x2 : Bool) : Statement (.lockAllotment x0 x1 x2) := fun _ _ h => nomatch h

end Sys2Proof.Laws.RoundTrip

open Sys2Proof.Laws.RoundTrip in
theorem Sys2Proof.Laws.RoundTrip.show (x0 : Sys2Proof.LaneW) : Statement (.show x0) := lane2 (o := 0x80) rfl rfl (by decide) fun w v h₁ h₂ => by unfold Sys2Proof.decodeLane; rw [h₁, h₂]; rfl
end

