-- ==== Sys2Proof/Laws/Threads.lean ====
section
/-! SUPPORT. What a retired control instruction leaves: the shared operations of the control core, once each. -/

namespace Sys2Proof.Machine

/-- The served core's thread is the one the state holds. -/
theorem coreOf_thread {s : State} {t : ThreadRef} {k : Core} (h : s.coreOf t = some k) : s.thread? k.ref = some k.th ∧ k.ref = t := by
  unfold State.coreOf at h
  split at h
  · split at h
    · simp only [Option.some.injEq] at h; subst h; exact ⟨by assumption, rfl⟩
    · cases h
  · cases h

/-- The served core's thread is the one the state holds. -/
theorem core_thread {s : State} {k : Core} (h : s.core = some k) : s.thread? k.ref = some k.th := by
  unfold State.core at h
  split at h
  · exact (coreOf_thread h).1
  · cases h

/-- The served core's team and context are those the state holds. -/
theorem core_team_ctx {s : State} {k : Core} (h : s.core = some k) : s.team? k.ref.team = some k.tm ∧ s.ctx? k.tm.ctx = some k.ctx := by
  unfold State.core at h
  split at h
  · unfold State.coreOf at h
    split at h
    · split at h
      · simp only [Option.some.injEq] at h; subst h; exact ⟨by assumption, by assumption⟩
      · cases h
    · cases h
  · cases h

/-- A register after a write of one register. -/
@[simp] theorem rx_wx (t : Thread) (d n : R5) (v : W64) : (t.wx d v).rx n = if n = 0 then 0 else if n = d then v else t.rx n := by
  unfold Thread.wx Thread.rx
  by_cases hn : n = 0
  · rw [if_pos hn, if_pos hn]
  · rw [if_neg hn, if_neg hn, if_neg hn]
    by_cases hd : d = 0
    · subst hd; rw [if_pos rfl, if_neg hn]
    · simp only [hd, if_false]
      rw [Vector.getElem_set]
      by_cases h : n = d
      · rw [if_pos h, if_pos (by rw [h])]
      · rw [if_neg h, if_neg fun e => h (BitVec.eq_of_toNat_eq e.symm)]

/-- X0 reads 0. -/
@[simp] theorem rx_zero (t : Thread) : t.rx 0 = 0 := rfl

/-- A served meaning is its function of the core. -/
theorem onCore_eq {s : State} {k : Core} (h : s.core = some k) (f : Core → State) : onCore s f = .next (f k) := by
  simp [onCore, h]

/-- What `retire` can do: the served thread is the update of it at `next`, waiting for nothing; other threads and everything else stay. -/
theorem retire_frame (s : State) (k : Core) (w : Nat) (f : Thread → Thread) :
    (retire s k w f).thread? k.ref = (s.thread? k.ref).map (fun th => { f th with pc := k.next w, wait := .none }) ∧
      otherThreads s (retire s k w f) k.ref ∧ OnlyThreads s (retire s k w f) := by
  refine ⟨?_, fun q hq => ?_, ⟨⟨fun _ => rfl, fun _ => rfl, fun _ _ => rfl⟩, rfl⟩⟩
  · simp [retire, State.thread?_updThread]
  · simp [retire, State.thread?_updThread, hq]

/-- A write of one register changes that register alone. -/
theorem threadAt_wx (a : Thread) (d : R5) (v : W64) (pc : Nat) (w : Wait) :
    ThreadAt a { a.wx d v with pc := pc, wait := w } pc w [(d, v)] := by
  refine ⟨rfl, rfl, fun n => ?_, ?_⟩
  · show (a.wx d v).rx n = _
    rw [rx_wx]
    by_cases hd : n = d
    · subst hd; simp
    · have : (n == d) = false := by simpa using hd
      simp [hd, List.lookup, this]
  · unfold Thread.wx; split <;> rfl

/-- A thread that changes its place alone. -/
theorem threadAt_id (a : Thread) (pc : Nat) (w : Wait) : ThreadAt a { a with pc := pc, wait := w } pc w [] := by
  refine ⟨rfl, rfl, fun n => ?_, rfl⟩
  show a.rx n = _
  split
  · next h => subst h; rfl
  · rfl

/-- An instruction that retires with one register written changes nothing else. -/
theorem retireX_alone {s : State} {k : Core} (h : s.thread? k.ref = some k.th) (w : Nat) (d : R5) (v : W64) :
    RetiredAlone s (retireX s k w d v) k (k.next w) [(d, v)] := by
  obtain ⟨h₁, h₂, h₃⟩ := retire_frame s k w fun th => th.wx d v
  rw [h] at h₁
  exact ⟨⟨⟨_, h₁, threadAt_wx _ _ _ _ _⟩, h₂⟩, h₃⟩

/-- An instruction that retires with no register written changes nothing but the pc. -/
theorem retire_alone {s : State} {k : Core} (h : s.thread? k.ref = some k.th) (w : Nat) :
    RetiredAlone s (retire s k w id) k (k.next w) [] := by
  obtain ⟨h₁, h₂, h₃⟩ := retire_frame s k w id
  rw [h] at h₁
  exact ⟨⟨⟨_, h₁, threadAt_id _ _ _⟩, h₂⟩, h₃⟩

/-- An ALU instruction answers the retired state with its value. -/
theorem alu_alone {s : State} {k : Core} (h : s.core = some k) (w : Nat) (d : R5) (f : Core → W64) :
    ∃ t, alu s w d f = .next t ∧ RetiredAlone s t k (k.next w) [(d, f k)] :=
  ⟨retireX s k w d (f k), onCore_eq h _, retireX_alone (core_thread h) w d (f k)⟩

end Sys2Proof.Machine
end

