-- ==== Sys2Proof/Tests/Slice0.lean ====
section
/-! SUPPORT. Tests: decodings written out from the spec, ill-formed terms, single steps with results worked out from the spec, and
witnesses of the statements' hypotheses. -/

namespace Sys2Proof.Tests

open Sys2Proof Sys2Proof.Machine

/-! ### Decoding: words written out from the spec's encodings -/

theorem test_decode_add : decodeTableWord 32 0x04642801 = some (.add 3 4 5) := by decide
theorem test_decode_deal : decode .cc [0x0CA80001] = some (.deal 5 8) := by decide
theorem test_decode_spop : decode .cc [0x0D031803] = some (.spop 8 3 3) := by decide
theorem test_decode_jtab : decode .cc [0x70E30005] = some (.jtab 7 3 5) := by decide
theorem test_decode_blt_back : decode .cc [0x9089FFF3] = some (.blt 4 9 (-1) 3) := by decide
theorem test_decode_li : decodeTableWord 64 0x00010000C1800000 = some (.li 12 0x000100000000) := by decide
theorem test_decode_ld : decode .cc [0xE0A60010, 0x00004000] = some (.ld 5 6 2 ⟨0x40, 0, 0, 0⟩) := by decide
theorem test_decode_amo : decode .cc [0xF1245010, 0x00000020] = some (.amo 0 2 9 4 10 ⟨0, 1, 0, 0⟩) := by decide
theorem test_decode_fence : decode .cc [0x20200301] = some (.fence 1 0 3) := by decide
theorem test_decode_mts : decode .cc [0x18070005] = some (.mts 7 5) := by decide
theorem test_decode_trap : decode .cc [0x1C000042] = some (.trap 0x42) := by decide
theorem test_decode_setseg : decode .cc [0x10A43006] = some (.setseg 1 1 4 6) := by decide
theorem test_decode_susp : decode .cc [0xFB588000, 0x00000060] = some (.susp 26 24 16 ⟨0, 3, 0, 0⟩) := by decide
theorem test_decode_vadd : decode .lane [0x0110503D, 0x38002230] = some (.vadd ⟨4, 5, 0, 61, 3, 1, 0, 0, 0, 2, 2, 0, 1, 2, 0⟩) := by decide
theorem test_decode_vcmp : decode .lane [0x150C1000, 0x00000214] = some (.vcmp ⟨3, 1, 0, 0, 0, 0, 0, 0, 0, 0, 2, 0, 0, 2, 4⟩) := by decide
theorem test_decode_vli : decode .lane [0xC8180000, 0x00000200, 0x3F800000] = some (.vli ⟨6, 0, 0, 0, 0, 0, 0, 0, 0, 0, 2, 0, 0, 0, 0⟩ 0x3F800000) := by
  decide
theorem test_decode_vqnt : decode .lane [0x52508783, 0x00000D0A] = some (.vqnt ⟨20, 8, 30, 3, 0, 0, 0, 0, 0, 0, 13, 0, 0, 1, 2⟩) := by decide
theorem test_decode_fadd : decode .lane [0x20248007, 0x00030000] = some (.fadd .f32 ⟨9, 8, 0, 7, 0, 0, 0, 0, 6, 0, 0, 0, 0, 0, 0⟩) := by decide
theorem test_decode_showx : decode .lane [0x8100228B, 0x04800000] = some (.showx ⟨0, 2, 10, 11, 0, 0, 1, 1, 0, 0, 0, 0, 0, 0, 0⟩) := by decide
theorem test_decode_vatom : decode .lane [0xC450401E, 0x05010200, 0x20] =
    some (.vatom ⟨20, 4, 0, 30, 0, 0, 1, 2, 2, 0, 2, 0, 0, 0, 0⟩ ⟨0, 1, 0, 0⟩) := by decide
theorem test_decode_mma : decode .matrix [0x01102000, 0] = some (.mma ⟨2, 0, 1, 0, 0, 0, 0, 0, 0, 0, 0, 0⟩) := by decide
theorem test_decode_mma_e2m1 : decode .matrix [0x012A7000, 0xA0600000] = some (.mma ⟨5, 2, 3, 4, 0, 0, 0, 40, 1, 2, 0, 0⟩) := by decide
theorem test_decode_matrix_bara : decode .matrix [0x0A0000B3, 0x00000004] = some (.matrixBara ⟨0, 0, 0, 0, 5, 1, 3, 0, 0, 0, 0, 4⟩) := by decide
theorem test_decode_g2p : decode .copy [0x01010C00, 0] = some (.cpG2p ⟨1, 1, 1, 0, 0, 0, 0⟩) := by decide
theorem test_decode_toring : decode .copy [0x82040000, 0x20, 2] = some (.cpToring ⟨4, 0, 0, 0, 0, 0, 0x20⟩ 2) := by decide

/-- Unassigned majors and ops of each engine decode to nothing (R75, R77-R82). -/
theorem test_decode_undefined : decode .cc [0xBC000000] = none ∧ decode .lane [0x18000000, 0] = none ∧ decode .matrix [0x0E000000, 0] = none ∧
    decode .copy [0x05000000, 0] = none := by decide

/-! ### Ill-formed terms, one for each check (R57-R65, R72 step 5) -/

/-- A lane word of type I32 with every other field 0. -/
def i32 : LaneW := ⟨0, 0, 0, 0, 0, 0, 0, 0, 0, 0, 2, 0, 0, 0, 0⟩
/-- A lane word with every field 0. -/
def lw : LaneW := ⟨0, 0, 0, 0, 0, 0, 0, 0, 0, 0, 0, 0, 0, 0, 0⟩
/-- A memory word with every field 0. -/
def mw : MemW := ⟨0, 0, 0, 0⟩
/-- A matrix word with every field 0. -/
def xw : MatW := ⟨0, 0, 0, 0, 0, 0, 0, 0, 0, 0, 0, 0⟩
/-- A copy word with every field 0. -/
def cw : CopyW := ⟨0, 0, 0, 0, 0, 0, 0⟩

/-- The control core's checks: each term is refused for one of them. -/
theorem test_wf_control : ([.bfx 1 2 0 63 1, .bfi 1 2 32 32, .jtab 1 2 0, .deal 5 9, .dset 1 2 3, .dset 8 2 3, .spop 8 3 8, .spop 0 3 0, .spop 30 3 2,
    .speek 0 3 0, .speek 8 3 9, .dqpush 1 2, .dqpop 1 0, .dqpop 1 6, .steal 1 2 0, .cpy 7 1, .cpy 6 2, .setseg 0 0 3 0, .setseg 0 0 2 1, .fence 5 0 0,
    .fence 1 0 5, .fence 4 0 0, .fence 0 1 0, .bari 0 0 5, .bara 0 0 6, .barw 0 7, .ld 1 3 2 mw, .ld 1 2 8 mw, .ld 1 2 2 ⟨0, 5, 0, 0⟩, .st 2 1 8 mw,
    .st 2 1 2 ⟨0, 0, 0, 6⟩, .lda 1 3 2 mw, .stl 3 1 2 mw, .amo 10 2 1 2 3 mw, .amo 0 1 1 2 3 mw, .amo 0 2 1 3 3 mw, .pfx 3 mw, .pfx 2 ⟨0, 1, 0, 0⟩,
    .susp 1 2 4 mw, .susp 1 2 5 ⟨0, 3, 0, 0⟩, .susp 1 2 4 ⟨0, 3, 1, 0⟩, .rslv 1 3 4 ⟨0, 3, 0, 0⟩] : List Instr).all (fun i => !i.wf) = true := by decide

/-- The lane group's checks. -/
theorem test_wf_lane : ([.vadd { i32 with neg := 1 }, .vadd { i32 with tokEn := 1 }, .vadd { i32 with ty := 8 }, .vadd { i32 with rnd := 1 },
    .vadd { i32 with op3 := 1 }, .vadd { i32 with vb := 1 }, .vadd { i32 with kind := 3 }, .vadd { i32 with kind := 1, vc := 8 },
    .vadd { i32 with ty := 3, vd := 1 }, .vmulh { i32 with sat := 1 }, .vabs { i32 with va := 1 }, .vsel { i32 with vc := 16 }, .vsel { i32 with sat := 1 },
    .vmov { i32 with ty := 11, kind := 2 }, .viota { i32 with ty := 1 }, .viota { i32 with op3 := 3 }, .vcmp { i32 with vd := 0 },
    .vcmp { i32 with vd := 1, op3 := 6 }, .vcmp { i32 with vd := 1, vb := 1 }, .vli { i32 with kind := 1 } 0, .fadd .f32 i32,
    .fadd .f32 { lw with op3 := 1 }, .fmin .f32 { lw with rnd := 1 }, .fabs .f32 { lw with va := 1 }, .frcp .f32 { lw with rnd := 1 },
    .fcmp .f32 { lw with vd := 1, vb := 1 }, .fcmp .f16 { lw with vd := 1, vb := 2 }, .vcvt { i32 with vc := 2 }, .vcvt { i32 with vc := 8, sat := 1 },
    .vcvt { i32 with vc := 1, rnd := 1 }, .vcvt { i32 with vc := 1, op3 := 2 }, .vhist i32, .vqnt { lw with ty := 13, kind := 1 }, .vdq { lw with ty := 10, kind := 1 },
    .rrot i32, .rprm { i32 with kind := 2 }, .rred { i32 with op3 := 6 }, .rred { i32 with rnd := 1 }, .cred { lw with ty := 8, op3 := 3 },
    .trn16 { i32 with vc := 1 }, .mand lw, .mand { lw with vd := 1, vb := 16 }, .mnot { lw with vd := 1, vb := 1 }, .mcnt { lw with va := 16 },
    .mrow { lw with vd := 1, kind := 2, vc := 16 }] : List Instr).all (fun i => !i.wf) = true := by decide

/-- The checks of shows, fences, barriers, tags and memory of the lane group. -/
theorem test_wf_lane_memory : ([.show { lw with vd := 1 }, .showx { lw with kind := 1 }, .vfence { lw with vd := 5 }, .vfence { lw with op3 := 4 },
    .laneBari { lw with kind := 2, vc := 32 }, .laneBara lw, .laneBarw { lw with guard := 1 }, .plk { lw with va := 1 }, .ptag { lw with vd := 1 },
    .ptag { lw with op3 := 5 }, .pinv { lw with op3 := 1, va := 2 }, .vld i32 mw, .vld { i32 with tokEn := 1, va := 1 } mw,
    .vld { i32 with tokEn := 1, ty := 13 } mw, .vst { i32 with vd := 1 } mw, .vldt { i32 with tokEn := 1, op3 := 1 } mw, .vstt { i32 with kind := 1 } mw,
    .vatom { i32 with tokEn := 1, ty := 1 } mw, .vatom { i32 with tokEn := 1, op3 := 7 } mw, .vcas { i32 with tokEn := 1, op3 := 1 } mw,
    .pld { i32 with tokEn := 1 } mw, .pst i32 mw] : List Instr).all (fun i => !i.wf) = true := by decide

/-- The checks of matrix streams and copies. -/
theorem test_wf_matrix_copy : ([.mma { xw with fmt := 6 }, .mma { xw with flags := 1 }, .mma { xw with tile := 1 }, .mma { xw with fmt := 4, sel := 1 },
    .mma { xw with barEn := 1 }, .mmas { xw with fmt := 4 }, .mzero { xw with ra := 1 }, .mldc { xw with fmt := 1 }, .mstc { xw with fmt := 4 },
    .mstc { xw with flags := 9 }, .mstc { xw with fmt := 5, flags := 1 }, .rinit { xw with acc := 1 }, .tadv xw, .hadv xw, .gath { xw with ra := 1 },
    .matrixBara xw, .matrixBara { xw with barEn := 1, flags := 5 }, .matrixBarw { xw with barEn := 1, imm := 1 }, .mend { xw with imm := 1 },
    .cpG2p { cw with scope := 5 }, .cpP2g { cw with hint := 6 }, .cpG2g { cw with res := 1 }, .cpP2p { cw with off := 16 }, .cpToring cw 8,
    .cpReduce cw 4] : List Instr).all (fun i => !i.wf) = true := by decide

/-! ### Single steps of a control thread -/

/-- A thread at a NOP, served. -/
def ccS : State := (State.reset.withFetchWord 32 0).turn [] (.thread ⟨0, 0, 0⟩)
theorem test_cc_core : ccS.core.isSome = true := by decide
/-- What that thread reaches. -/
def ccK : Core := ccS.core.get test_cc_core
theorem test_witness_core : ccS.core = some ccK := by simp [ccK]

/-- X[n] after one step of the placed word, with `xs` in the registers from X[1] on. -/
def regAfter (w : Nat) (xs : List W64) (n : R5) : Option W64 :=
  let s := (State.reset.withFetchWord 32 w).updThread ⟨0, 0, 0⟩ fun th =>
    { th with x := xs.zipIdx.foldl (fun x p => x.setIfInBounds (p.2 + 1) p.1) th.x }
  match step s with
  | .next t => (t.thread? ⟨0, 0, 0⟩).map (·.rx n)
  | _ => none

theorem test_step_add_wraps : regAfter 0x04611001 [0xFFFFFFFFFFFFFFFF, 2] 3 = some 1 := by decide
theorem test_step_sub_x0 : regAfter 0x04011002 [1, 2] 0 = some 0 := by decide
theorem test_step_div_zero : regAfter 0x04611006 [7, 0] 3 = some 0xFFFFFFFFFFFFFFFF := by decide
theorem test_step_div_rounds_to_zero : regAfter 0x04611006 [BitVec.ofInt 64 (-7), 2] 3 = some (BitVec.ofInt 64 (-3)) := by decide
theorem test_step_div_most_negative : regAfter 0x04611006 [0x8000000000000000, 0xFFFFFFFFFFFFFFFF] 3 = some 0x8000000000000000 := by decide
theorem test_step_rem_sign : regAfter 0x04611008 [BitVec.ofInt 64 (-7), 2] 3 = some (BitVec.ofInt 64 (-1)) := by decide
theorem test_step_rem_zero : regAfter 0x04611008 [7, 0] 3 = some 7 := by decide
theorem test_step_mulh_signed : regAfter 0x04611004 [0xFFFFFFFFFFFFFFFF, 2] 3 = some 0xFFFFFFFFFFFFFFFF := by decide
theorem test_step_mulhn_unsigned : regAfter 0x04611005 [0xFFFFFFFFFFFFFFFF, 2] 3 = some 1 := by decide
theorem test_step_sra_count_mod_64 : regAfter 0x0461100F [0x8000000000000000, 65] 3 = some 0xC000000000000000 := by decide
theorem test_step_clz_zero : regAfter 0x04610018 [0] 3 = some 64 := by decide
theorem test_step_slt_signed : regAfter 0x04611016 [0xFFFFFFFFFFFFFFFF, 0] 3 = some 1 := by decide

/-! ### Witnesses: states and operands that meet the hypotheses of the statements on control threads -/

/-- The served thread of `ccS`, with its thread, team, context and hand as given, and every low address mapped to itself. -/
def ccAt (f : Thread → Thread) (g : Team → Team := id) (x : Ctx → Ctx := id) (h : Hand → Hand := id) : State :=
  (((ccS.updThread ⟨0, 0, 0⟩ f).updTeam ⟨0, 0⟩ g).updCtx 0 x).updHand 0 fun y =>
    h { y with tlb := [⟨0, 0, 2 ^ 20, 0, false, true, true, true⟩] }

/-- `p` holds of what the served thread reaches. -/
def coreHas (s : State) (p : Core → Bool) : Bool := match s.core with | some k => p k | none => false
theorem test_coreHas {s : State} {p : Core → Bool} (h : coreHas s p = true) : ∃ k, s.core = some k ∧ p k = true := by
  unfold coreHas at h; split at h
  · exact ⟨_, ‹_›, h⟩
  · cases h
/-- Registers from X1 on. -/
def regs (xs : List W64) (th : Thread) : Thread := { th with x := xs.zipIdx.foldl (fun x p => x.setIfInBounds (p.2 + 1) p.1) th.x }
/-- A segment that admits the low addresses. -/
def lowSeg : Seg := ⟨0, 2 ^ 20, 0⟩
def segs (th : Thread) : Thread := { th with gseg := lowSeg, pseg := lowSeg, kseg := lowSeg, lseg := lowSeg }

theorem test_witness_InstructionLengths : (0x3FFFFFF : W32).toNat < 2 ^ 26 ∧ (0xFFFFFF : W32).toNat < 2 ^ 24 ∧ (0x3F : W32).toNat < 2 ^ 6 := by decide

theorem test_witness_DecodeEncode : (encode (.add 3 4 5)).isSome = true ∧ (Instr.add 3 4 5).wf = true ∧ (Instr.add 3 4 5).retired = false ∧
    (encode (.lkacq 1 2)).isSome = true ∧ (Instr.lkacq 1 2).wf = true ∧ (Instr.lkacq 1 2).disabledBy 0xFF = true := by decide

theorem test_witness_EncodeDecode : decodeFate .cc 0 [0x04642801] = .run (.add 3 4 5) ∧ (Instr.add 3 4 5).retired = false ∧
    instrWords .cc 0x04642801 = 1 := by decide

theorem test_witness_DecodeOrder : decodeRaw .cc [0xB0000000] = none ∧ (Instr.brev 1 2 0).retired = true ∧
    (decodeRaw .cc [0x0441001A]).isSome = true ∧
    (match encode (.lkacq 1 2) with | some (_, ws) => (decodeRaw .cc ws).isSome | none => false) = true ∧ (Instr.lkacq 1 2).disabledBy 0xFF = true ∧
    (match decodeRaw .cc [1] with | some (i, z) => !z && !i.retired && !i.disabledBy 0 | none => false) = true := by decide

/-- A thread about to fetch ADD X3, X2, X2, and its entry. -/
def addS : State := State.reset.withFetchWord 32 0x04611001
theorem test_entry : EntryAt (addS.turn [] (.thread ⟨0, 0, 0⟩)) 0 0 0 17 .cc [0x04611001] :=
  ⟨fun m h => (by have e : ((addS.turn [] (.thread ⟨0, 0, 0⟩)).hand 0).maps.get? (imageKey 0 0) = none := by decide
                  rw [e] at h; cases h), wordImage, wordLine .cc (toBytes 4 0x04611001), by decide⟩
/-- The same with a second thread of the team, the first having been served last, as it starts at its entry. -/
def dueS : State :=
  ({ addS with threads := addS.threads.set (threadKey ⟨0, 0, 1⟩) wordThread }.updHand 0 fun h => { h with lastThread := 0 }).updThread ⟨0, 0, 0⟩ fun th =>
    { th with entering := true }
theorem test_witness_StepRunsThread : Serves addS (.thread ⟨0, 0, 0⟩) [] ∧
    threadDue (addS.turn [] (.thread ⟨0, 0, 0⟩)) ⟨0, 0, 0⟩ = true ∧ usesSlot (dueS.turn [] (.thread ⟨0, 0, 0⟩)) ⟨0, 0, 0⟩ = true ∧
    usesSlot (addS.updThread ⟨0, 0, 0⟩ fun th => { th with wait := .park }) ⟨0, 0, 0⟩ = false ∧ threadDue (dueS.turn [] (.thread ⟨0, 0, 0⟩)) ⟨0, 0, 0⟩ = false ∧
    (lineOf dueS 0 0 0 1).any lineEntry = true ∧
    (match addS.coreOf ⟨0, 0, 0⟩ with
      | some k => threadRuns addS ⟨0, 0, 0⟩ && decide (nextCause k.th = none) && decide (k.th.wait = .none) && decide (k.th.stepping = false) && !k.th.preempt && !k.th.stepDue &&
          decide (k.tm.ctx = 0 ∧ k.th.img = 0 ∧ k.th.pc = 17) && decide (decodeFate .cc (edisOf addS k.ctx) [0x04611001] = .run (.add 3 1 2))
      | none => false) = true := ⟨⟨by decide, .inl (by decide)⟩, by decide +kernel⟩

theorem test_witness_StepRunsOthers :
    (let s := State.reset.withFetchWord 64 0x380022300110503D
     match runningLane s ⟨0, 0, 0, 0⟩ with
     | some l => handRuns s 0 && groupDue (s.turn [] (.group ⟨0, 0, 0, 0⟩)) ⟨0, 0, 0, 0⟩ && l.gr.waitBar.isNone && (deferredHere s l).isNone && !l.run.atEnd && !l.gr.stepping &&
         (match decodeFate .lane l.run.edis [0x0110503D, 0x38002230] with | .run _ => true | _ => false)
     | none => false) = true ∧
    (let s := placeWord State.reset .matrix (toBytes 8 0x01102000)
     match s.mxOf ⟨0, 0⟩ with
     | some m => streamFree s ⟨0, 0⟩ && !yieldsMma (s.turn [] (.stream ⟨0, 0⟩)) ⟨0, 0⟩ (.mma ⟨2, 0, 1, 0, 0, 0, 0, 0, 0, 0, 0, 0⟩) && !streamWaits m.th && m.tm.stream.mma.isNone && m.tm.stream.waitBar.isNone &&
         m.tm.stream.waitHadv.isNone && (match decodeFate .matrix m.tm.stream.edis [0x01102000, 0] with | .run _ => true | _ => false)
     | none => false) = true ∧
    (let s := State.reset.withFetchWord 96 0x000000020000002082040000
     match copyOf? s 0 false 1 with
     | some x => handRuns s 0 && copyMay s 0 false x && decide (x.chain = some ⟨17, false, false⟩) && x.cmd.isNone
     | none => false) = true ∧
    ({ State.reset with agenda := [.event .powerLoss] } : State).threads = [] ∧ powered State.reset = true := by decide

/-- A thread at a place of its line, in an image of one line fewer than the place's, or with another word there. -/
def atPlace (w pc : Nat) : State := (State.reset.withFetchWord 32 w).updThread ⟨0, 0, 0⟩ fun th => { th with pc := pc }
def fetches (s : State) (p : Core → Image → List Byte → Bool) : Bool :=
  threadDue (s.turn [] (.thread ⟨0, 0, 0⟩)) ⟨0, 0, 0⟩ &&
  match s.coreOf ⟨0, 0, 0⟩, imageOf s 0 0, lineOf s 0 0 0 1 with
  | some k, some im, some l => threadRuns s ⟨0, 0, 0⟩ && decide (nextCause k.th = none) && decide (k.th.wait = .none) && !k.th.preempt && !k.th.stepDue && decide ((s.hand 0).maps = []) && p k im l
  | _, _, _ => false
theorem test_witness_FetchOutcomes :
    fetches (atPlace 0 16) (fun k _ _ => k.th.pc % 16 = 0) = true ∧
    fetches (atPlace 0 65) (fun k im _ => im.lines ≤ k.th.pc / 16) = true ∧
    fetches ((State.reset.withFetchWord 64 0x380022300110503D).updThread ⟨0, 0, 0⟩ id) (fun k _ l => lineEngine l ≠ 0 && k.th.pc % 16 ≠ 0) = true ∧
    fetches ((atPlace 0x04611001 18).updHand 0 fun h => { h with imem := h.imem.set (imemKey 0 0 1) (toBytes 4 (2 ^ 26) ++ List.replicate 60 0) })
      (fun k _ l => lineEngine l = 0 && isFill l (k.th.pc % 16)) = true ∧
    fetches ((atPlace 0 31).updHand 0 fun h => { h with imem := h.imem.set (imemKey 0 0 1) (List.replicate 60 0 ++ toBytes 4 0xC1800000) })
      (fun k _ l => !isFill l (k.th.pc % 16) && 16 < k.th.pc % 16 + instrWords .cc (lineWord l (k.th.pc % 16))) = true ∧
    fetches (atPlace 0x04611021 17) (fun k _ l => match decodeFate .cc 0 (lineWords l 1 1) with | .emulate _ _ => !isFill l (k.th.pc % 16) | _ => false) = true ∧
    fetches (((atPlace 0 17).updHand 0 fun h => { h with imem := h.imem.set (imemKey 0 0 1) (toBytes 4 (2 ^ 27) ++ List.replicate 60 0) }).updThread ⟨0, 0, 0⟩ fun th =>
      { th with entering := true }) (fun k _ l => k.th.entering && !lineEntry l) = true := by
  decide +kernel

theorem test_witness_StepKeepsMemOk : MemOk State.reset ∧ (∃ t, step State.reset = .next t) :=
  ⟨⟨by decide, by decide, fun p hp => by cases hp⟩, by
    have h : (match step State.reset with | .next _ => true | _ => false) = true := by decide
    cases e : step State.reset with
    | next t => exact ⟨t, rfl⟩
    | fault f => exact nomatch f
    | refused r => rw [e] at h; cases h⟩

theorem test_witness_ImmediateOperations :
    coreHas ccS (fun k => k.ctx.eht.toNat < 64 && k.th.causes.isEmpty && decide (k.th.depth = 0) && decide (k.th.rx 1 ≠ 1) &&
      decide ((checkTarget ccS k.ref.hand k.tm.ctx k.th.img .cc false 17).2 = .ok)) = true ∧
    coreHas (ccAt (regs [1])) (fun k => decide (k.th.rx 1 = 1)) = true ∧
    coreHas (ccAt id id fun x => { x with eht := 64 }) (fun k => 64 ≤ k.ctx.eht.toNat) = true ∧ 32 + 31 + 1 ≤ 64 := by decide

theorem test_witness_ConditionalBranches : coreHas (ccAt (regs [0, 0xFFFFFFFFFFFFFFFF])) (fun k =>
    decide (k.th.rx 1 = 0) && decide (k.th.rx 2 ≠ 0) && decide ((k.th.rx 2).toInt < (k.th.rx 1).toInt) && decide ((k.th.rx 1).toNat < (k.th.rx 2).toNat) &&
      decide (BitVec.ofInt 64 (((k.th.pc / 16 : Nat) + 0) * 16 + 1) = (17 : W64)) &&
      decide ((checkTarget (ccAt (regs [0, 0xFFFFFFFFFFFFFFFF])) k.ref.hand k.tm.ctx k.th.img .cc false 17).2 = .ok)) = true := by decide

/-- A thread whose JTAB at index 1 of a table at 256 finds the entry 17 in constant space. -/
def jtabS : State := { ccAt (fun th => segs (regs [1, 256] th)) with mem := Memory.write [] 260 [17] }
theorem test_witness_Jumps :
    coreHas jtabS (fun k => decide ((k.th.rx 1).toNat < 2) && decide ((checkAccess jtabS k.actor .load 2 0 4 4 k.edis6 260 true).2 = .ok (.dev 260)) &&
      !copyHolds jtabS (.dev 260) 4 && decide (drainForStop jtabS k (.dev 260) 4 = none) &&
      decide ((loadTgt jtabS k.actor (.dev 260) 260 4 2 0 0 0).2 = .bytes [17, 0, 0, 0]) && (jtabS.ctx? k.tm.ctx).any (·.deplim = 0) &&
      decide ((checkTarget jtabS k.ref.hand k.tm.ctx k.th.img .cc false 17).2 = .ok)) = true ∧
    coreHas (ccAt (regs [2 ^ 30])) (fun k => decide (2 ^ 30 ≤ (k.th.rx 1).toNat)) = true ∧ (16 : W64).toNat % 16 = 0 ∧ (2 : BitVec 16).toNat ≤ (2 : W64).toNat := by
  decide

/-- A window of a handler that serves a cause of the engine, met at the thread's place. -/
def winOf (e : Engine) : Window :=
  { cause := { cause := .disabled, engine := e, words := [0x04611001], native := some (.add 3 1 2), pc := 17, img := 0, group := none, helper := false, copy := 0 },
    lo := [], hi := [], emask := 0, ta := [], tb := [], tc := [], addrLo := [], addrHi := [], dst := [], acc := 0, ra := 0, rb := 0,
    outer := none, backImg := 0, backPc := 17, back := .none }
/-- A thread that runs a handler of that window. -/
def inHandler (e : Engine) (th : Thread) : Thread := { segs th with depth := 1, windows := [winOf e], epc := 17, egrp := 0xFF, esave := 0x1000 }
/-- Group `i` of the served thread's role. -/
def withGroup (i : Nat) (g : Group) (s : State) : State := { s with groups := s.groups.set (groupKey ⟨0, 0, 0, i⟩) g }
def liveGroup : Group := { State.emptyGroup with state := .live }

theorem test_witness_SystemRegisterReads : coreHas (withGroup 15 liveGroup (ccAt (inHandler .cc))) (fun k =>
    0 < k.th.depth && (State.group? (withGroup 15 liveGroup (ccAt (inHandler .cc))) (k.ref.group 15)).isSome) = true := by decide

theorem test_witness_SystemRegisterWrites :
    coreHas (withGroup 15 liveGroup (ccAt fun th => regs [15] (inHandler .matrix th))) (fun k => k.ctx.privileged && (k.th.rx 1).toNat ≤ 15 &&
      k.th.windows.any (fun w => w.cause.engine = .matrix) &&
      decide ((groupOf (withGroup 15 liveGroup (ccAt fun th => regs [15] (inHandler .matrix th))) (k.ref.group 15)).state = .live)) = true ∧
    coreHas (ccAt (inHandler .lane)) (fun k => k.th.windows.any fun w => w.cause.engine = .lane) = true ∧
    coreHas (ccAt (inHandler .copy)) (fun k => k.th.windows.any fun w => w.cause.engine = .copy) = true := by decide

theorem test_witness_SystemRegisterChecks : coreHas (ccAt id id fun x => { x with privileged := false }) (fun k => !k.ctx.privileged && decide (k.th.depth = 0)) = true ∧
    ¬((0x18 : BitVec 16).toNat ≤ 0x17) ∧ (0x17 : BitVec 16).toNat ≤ 0x17 ∧ (0x5B : BitVec 16).toNat ≤ 0x5B := by decide

/-- A team with a tag of key 1 and a ring of 4 slots that holds 1. -/
def tagRing (tm : Team) : Team := { tm with tags := [(8, ⟨true, false, 1⟩)], rings := [(1, ⟨true, 0, 2, 4, 3, 4⟩)] }
theorem test_witness_TableRegisters :
    coreHas (ccAt (regs [0x80 + 0x20 * 4, 1 + 2 ^ 4 + 3 * 2 ^ 16]) tagRing) (fun k =>
      let v := k.th.rx 1
      decide (v.toNat / 16 % 16 ≤ 8 ∧ v.toNat < 2 ^ 52 ∧ v.toNat / 4 % 8 = 0 ∧ (k.th.rx 0).toNat / 2 ^ 5 % 2 ^ 3 = 0) &&
      (match k.tm.rings.get? 1 with
        | some r => r.valid && decide ((k.th.rx 2).toNat = 1 + 2 ^ 4 + 3 * 2 ^ 16 ∧ (r.t - r.h).toNat + 3 ≤ r.n) && k.th.buffer.isEmpty
        | none => false)) = true := by decide

theorem test_witness_TrapsAndHalt : coreHas ccS (fun k => k.ctx.privileged) = true ∧ (1023 : BitVec 10).toNat < 2 ^ 10 := by decide

theorem test_witness_Checkpoints : coreHas (ccAt id id fun x => { x with cklog := 64 }) (fun k =>
    decide (k.ctx.cklog ≠ 0) && ctxQuiet (ccAt id id fun x => { x with cklog := 64 }) k.tm.ctx && copiesDone (ccAt id id fun x => { x with cklog := 64 }) k.tm.ctx) = true ∧
    coreHas ccS (fun k => k.ctx.cklog = 0) = true := by decide

theorem test_witness_Segments : coreHas (withGroup 15 liveGroup (ccAt (regs [0x3FFFFF, 0x401FFFFFFFFFFFFF, 15]))) (fun k =>
    let hi := k.th.rx 2
    k.ctx.privileged && decide (hi.toNat / 2 ^ 53 % 2 ^ 9 = 0 ∧ hi.toNat / 2 ^ 62 ≤ 1 ∧ (k.th.rx 1).toNat < 2 ^ 22 ∧ (k.th.rx 3).toNat ≤ 15) &&
    ((withGroup 15 liveGroup (ccAt id)).group? (k.ref.group 15)).any (·.state ≠ .unset)) = true := by decide

theorem test_witness_PrivilegedInstructions :
    coreHas (ccAt id id fun x => { x with privileged := false }) (fun k => !k.ctx.privileged && k.th.windows.isEmpty) = true := by decide

/-- A thread with every segment open, X1 as address, X2 0, X3 to X6 as data. -/
def memS : State := ccAt fun th => segs (regs [256, 0, 7, 0, 0, 0] th)
/-- The same with an issued copy that holds the line at 256 until it completes. -/
def heldS : State := memS.updHand 0 fun h => { h with near := [{ wordCopy with owned := [2] }] }
/-- The same with older stores in the buffer: one to the line that the copy holds, one to 512. -/
def stuckS : State :=
  heldS.updThread ⟨0, 0, 0⟩ fun th => { th with buffer := [⟨0, 0, 0, 256, .dev 256, [1], 0, 17⟩, ⟨0, 0, 0, 512, .dev 512, [2], 0, 17⟩] }
/-- The address of peer 2's byte 8, and a thread that has asked it so, with the peer's reply. -/
def peerS (op : DomainOp) (reply : Option (Nat × List Byte)) : State :=
  { ccAt (fun th => segs (regs [0x0020000000000008, 0, 7, 0, 0, 0] th)) with
    weave := { State.reset.weave with devNum := some 1, routes := [(2, 0)], reqs := [⟨1, .thread ⟨0, 0, 0⟩, 0, 0, 2, 8, op, reply⟩], nextReq := 2 } }
/-- Peer 2 admits the access, and has answered a store so. -/
def peerStore (reply : Option (Nat × List Byte)) (p : PeerSays) : Bool :=
  coreHas (peerS (.store (toBytes 8 7)) reply) fun k =>
    decide ((checkAccess (peerS (.store (toBytes 8 7)) reply) k.actor .store 0 4 8 8 k.edis6 0x0020000000000008 true).2 = .ok (.peer 2 8)) &&
    decide ((peerAsk (peerS (.store (toBytes 8 7)) reply) k.actor (.peer 2 8) (.store (toBytes 8 7))).2 = p) &&
    decide (drainStop (peerS (.store (toBytes 8 7)) reply) k = none) && !writeWaits (peerS (.store (toBytes 8 7)) reply) 0 (.peer 2 8) 8
/-- What a load of peer 2's byte 8 gives under a reply. -/
def peerLoad (reply : Option (Nat × List Byte)) (r : Loaded) : Bool :=
  coreHas (peerS (.load 8) reply) fun k =>
    decide ((checkAccess (peerS (.load 8) reply) k.actor .load 0 4 8 8 k.edis6 0x0020000000000008 true).2 = .ok (.peer 2 8)) &&
    decide ((loadTgt (peerS (.load 8) reply) k.actor (.peer 2 8) 0x0020000000000008 8 0 4 0 0).2 = r)
theorem test_witness_Loads_peer : peerLoad none .waits = true ∧ peerLoad (some (0, List.replicate 8 5)) (.bytes (List.replicate 8 5)) = true ∧
    peerLoad (some (FaultCode.pageAbsent.code, [])) (.refused .pageAbsent) = true := by decide
theorem test_witness_Loads : copyHolds memS (.dev 256) 8 = false ∧ copyHolds heldS (.dev 256) 8 = true ∧
    coreHas memS (fun k => decide ((checkAccess memS k.actor .load 1 0 8 8 k.edis6 256 true).2 = .ok (.scratch 0 256)) &&
    decide ((checkAccess memS k.actor .load 0 3 8 8 k.edis6 256 true).2 = .ok (.dev 256)) && decide (k.th.wait = .none) && decide (k.ref.hand < 256) && decide (drainForStop memS k (.dev 256) 8 = none) &&
    decide ((loadTgt (drainFor memS k (.scratch 0 256) 8) k.actor (.scratch 0 256) 256 8 1 0 0 0).2 = .bytes (List.replicate 8 0))) = true ∧
    coreHas stuckS (fun k => !copyHolds stuckS (.dev 512) 1 && (match drainForStop stuckS k (.dev 512) 1 with
      | some (b, .waits) => decide (b.va = 256) | _ => false)) = true ∧
    coreHas memS (fun k => decide ((loadTgt { memS with poison := [4] } { k.actor with gseg := { k.actor.gseg with pol := 1 } } (.dev 256) 256 8 0 0 0 0).2 = .poisoned)) = true ∧ (7 : BitVec 4).toNat < 8 := by decide

theorem test_witness_Stores : coreHas memS (fun k => decide ((checkAccess memS k.actor .store 0 0 8 8 k.edis6 256 true).2 = .ok (.dev 256))) = true ∧
    storeReady 0 [⟨0, 0, 0, 256, .dev 256, [1], 0, 17⟩, ⟨0, 0, 0, 512, .dev 512, [2], 0, 17⟩] 1 = true ∧
    storeReady 0 [⟨0, 0, 0, 256, .dev 256, [1], 0, 17⟩, ⟨0, 0, 0, 256, .dev 256, [2], 0, 17⟩] 1 = false ∧
    storeStop memS 0 ⟨0, 0, 0, 256, .dev 256, [1], 0, 17⟩ = none ∧ storeStop heldS 0 ⟨0, 0, 0, 256, .dev 256, [1], 0, 17⟩ = some .waits ∧
    coreHas memS (fun k => decide (drainStop memS k = none)) = true ∧ coreHas stuckS (fun k => (drainStop stuckS k).isSome) = true ∧
    peerStore none .waits = true ∧ peerStore (some (0, [])) (.done false) = true ∧ peerStore (some (FaultCode.pagePerm.code, [])) (.fault .pagePerm) = true ∧
    peerStore (some (FaultCode.dieOffline.code, [])) .offline = true ∧
    writeWaits memS 0 (.dev 256) 8 = false ∧ writeWaits heldS 0 (.dev 256) 8 = true ∧
    ((ccAt fun th => { th with buffer := [⟨0, 0, 0, 256, .dev 256, [1], 0, 17⟩] }).coreOf ⟨0, 0, 0⟩).any (fun k => k.th.buffer[0]?.isSome) = true := by decide

theorem test_witness_LoadsSeeStores : CachesOk memS ∧ lineVal memS (alignDown 384 128) = true ∧ 384 % 128 + 128 ≤ 128 ∧ 255 < 256 ∧
    (memS.ctxs.all fun c => !c.2.ckptValid) = true :=
  ⟨fun p hp => (by cases hp), by decide⟩

/-- One line, in the cache of hand 0, whose byte 127 is dirty. -/
def dirtyS : State := { State.reset with caches := [(0, [(128, ⟨List.replicate 128 7, BitVec.twoPow 128 127, 0, 0, false, 0⟩)])] }
theorem test_witness_LoadsSeeStores_dirty : CachesOk dirtyS ∧ SoleDirty dirtyS 255 7 := by
  refine ⟨?_, 0, 128, ⟨List.replicate 128 7, BitVec.twoPow 128 127, 0, 0, false, 0⟩, by decide, by decide, by decide +kernel, by decide +kernel, ?_⟩
  · intro p hp l hl
    simp only [dirtyS, List.mem_singleton] at hp
    subst hp
    simp only [List.mem_singleton] at hl
    subst hl
    decide +kernel
  · intro q lb m h _ _
    have e : lineCopy dirtyS q lb = Map.get? (Map.getD dirtyS.caches q []) lb := rfl
    rw [e] at h
    simp only [dirtyS, Map.getD, Map.get?] at h
    split at h
    · simp only [Option.getD, Map.get?] at h
      split at h
      · omega
      · cases h
    · cases h

theorem test_witness_Atomics :
    coreHas memS (fun k => decide ((checkAccess memS k.actor .atomic 0 0 8 8 k.edis6 256 true).2 = .ok (.dev 256)) &&
      (poisonedFor memS 0 (.dev 256) 8 3 0).isEmpty && decide (tagAt memS 256 = 0) && !(poisonedFor { memS with poison := [4] } 0 (.dev 256) 8 3 0).isEmpty) = true ∧
    writeWaits memS 0 (.dev 256) 8 = false ∧ writeWaits heldS 0 (.dev 256) 8 = true ∧
    tagAt (setTag memS 256 1) 256 ≠ 0 := by decide

/-- Peer 2 has answered so an addition of 7 to its byte 8. -/
def peerAdd (reply : Option (Nat × List Byte)) (p : PeerSays) : Bool :=
  coreHas (peerS (.atomic 0 64 7 0) reply) fun k =>
    let s := peerS (.atomic 0 64 7 0) reply
    decide ((checkAccess s k.actor .atomic 0 4 8 8 k.edis6 0x0020000000000008 true).2 = .ok (.peer 2 8)) &&
      (poisonedFor s 0 (.peer 2 8) 8 3 0).isEmpty && decide (drainForStop s k (.peer 2 8) 8 true = none) && !writeWaits s 0 (.peer 2 8) 8 &&
      decide ((peerAsk s k.actor (.peer 2 8) (.atomic 0 64 7 0)).2 = p)
theorem test_witness_Atomics_peer : (9 : BitVec 4).toNat ≤ 9 ∧ peerAdd none .waits = true ∧ peerAdd (some (0, List.replicate 8 1)) (.done false) = true ∧
    peerAdd (some (FaultCode.poison.code, [])) (.done true) = true ∧ peerAdd (some (FaultCode.cellBusy.code, [])) (.fault .cellBusy) = true ∧
    coreHas (peerS (.load 8) none) (fun k => decide (peerReq (peerS (.load 8) none) k.actor 2 8 (.atomic 0 64 7 0) = none)) = true ∧
    coreHas stuckS (fun k => !writeWaits { stuckS with caches := [] } 0 (.dev 512) 1 && (drainForStop stuckS k (.dev 512) 1).isSome) = true := by decide

theorem test_witness_AccessFaults :
    -- every clause of the scratchpad checks, at the edges of its range
    (0x403FFFFF : W64).toNat / 2 ^ 22 % 2 = 0 ∧ (0x3FD7F8 : Nat) + 8 ≤ 0x3FD800 ∧ 0x3FD800 < 0x3FD7F9 + 8 ∧ 0x3FDFFF < 0x3FE000 ∧ 0x3FE000 % 8 = 0 ∧
    memS.enabled 0 = true ∧ (4 : Nat) % 8 ≠ 0 ∧ memS.resident 0 0 = true ∧ memS.resident 0 1 = false ∧ memS.enabled 1 = true ∧
    (List.range 256).any (fun h => !memS.enabled h) = true ∧
    coreHas memS (fun k =>
      let r (acc : Acc) (a : W64) := (checkAccess memS k.actor acc 1 0 8 8 k.edis6 a true).2
      decide (r .load 4 = .fault .align ∧ r .load 0x400000 = .fault .addrForm ∧ r .load 0x80800000 = .fault .handOwner ∧
        r .store 0x3FD800 = .fault .barClobber ∧ r .store 0x3FE000 = .fault .dequeClobber ∧ r .load 0x100000 = .fault .segLimit) &&
      decide ((checkAccess memS k.actor .load 1 0 8 8 true 0x80800000 true).2 = .disabled ∧ r .load 0x94800000 = .fault .nodeAbsent) &&
      decide ((checkAccess { memS with dies := memS.dies.set 0 { memS.die 0 with state := .drained } } k.actor .load 0 0 8 8 false 256 true).2 = .offline 0) &&
      -- host memory, for a hand of die 2, with dies 0 and 1 away from their links to I/O die N
      decide ((checkAccess { memS with
          dies := [(0, { State.emptyDie with state := .drained }), (1, { State.emptyDie with state := .drained }),
                   (2, { State.emptyDie with tlb := [⟨0, 0, 2 ^ 20, 0, true, true, true, true⟩] })] }
        { k.actor with hand := 128 } .load 0 0 8 8 false 256 true).2 = .waits)) = true := by
  decide +kernel

/-- A store to the home of die 1 is buffered, and die 1 does not answer. -/
def stuck (s : State) : State :=
  { s.updThread ⟨0, 0, 0⟩ fun th => { th with buffer := [⟨0, 0, 0, 2 ^ 38, .dev (2 ^ 38), [1], 0, 17⟩] } with
    dies := s.dies.set 1 { State.emptyDie with state := .drained } }
/-- The buffered stores can perform as the state stands, and not where they are `stuck`. -/
def storesMove (s : State) : Bool :=
  coreHas s (fun k => decide (drainStop s k = none)) &&
    coreHas (stuck s) (fun k => match drainStop (stuck s) k with | some (_, .offline d) => decide (d = 1) | _ => false)
theorem test_witness_Fences : storesMove memS = true ∧ coreHas memS (fun k => k.th.copyFaults.isEmpty && decide (k.th.fpx &&& k.th.fpxmask = 0) && decide (k.ref.hand < 256) &&
      decide ((k.th.rx 2).toNat % 256 = k.ref.hand) && decide ((k.th.rx 3).toNat % 256 ≠ k.ref.hand) && memS.enabled 7 && !memS.resident k.tm.ctx 7) = true ∧
    coreHas (ccAt fun th => { th with copyFaults := [⟨47, 1⟩] }) (fun k => !k.th.copyFaults.isEmpty) = true ∧
    coreHas (ccAt fun th => { th with fpx := 1, fpxmask := 1 }) (fun k => decide (k.th.fpx &&& k.th.fpxmask ≠ 0)) = true ∧
    ({ memS with teams := memS.teams.set (teamKey ⟨7, 0⟩) (wordTeam false) } : State).resident 0 7 = true := by decide

/-- Barrier 31 in a phase, and what the thread keeps of its arrival. -/
def barS (b : Barrier) (f : Thread → Thread) : State := ccAt f fun tm => { tm with bars := tm.bars.set 31 b }
theorem test_witness_ThreadBarriers : storesMove (barS ⟨1, 2, 5, 0⟩ id) = true ∧
    coreHas (barS ⟨1, 2, 5, 0⟩ id) (fun k => let b := barrierOf k.tm 31
      decide (b.expected ≠ 0 ∧ b.arrivals ≠ b.expected ∧ b.arrivals + 1 = b.expected ∧ b.pending + k.th.rx 1 = 0) &&
        decide (b.phase = (k.th.arrival.get? 31).getD b.phase) && k.th.copyFaults.isEmpty && decide (k.th.fpx &&& k.th.fpxmask = 0)) = true ∧
    coreHas (barS ⟨1, 2, 5, 0⟩ fun th => { th with arrival := [(31, 4)], wait := .barw 31 3 4 }) (fun k =>
      decide ((barrierOf k.tm 31).phase ≠ (k.th.arrival.get? 31).getD 5) && decide (k.th.wait = .barw 31 3 4) && threadFree memS ⟨0, 0, 0⟩ k.th && !threadFree memS ⟨0, 0, 0⟩ { k.th with preempt := true }) = true ∧
    coreHas (barS ⟨2, 2, 5, 0⟩ id) (fun k => decide ((barrierOf k.tm 31).arrivals = (barrierOf k.tm 31).expected)) = true ∧
    coreHas (barS ⟨0, 0, 5, 0⟩ id) (fun k => decide ((barrierOf k.tm 31).expected = 0)) = true := by decide

/-- The thread's evaluations so far. -/
def evals (n : Nat) (tm : Team) : Team := { tm with evstack := (List.range n).map fun i => (512 + 32 * i, 512 + 32 * i) }
def cellS (tag : BitVec 2) (n : Nat) : State := setTag (ccAt (fun th => segs (regs [256, 0, 7, 0, 0, 0] th)) (evals n)) 256 tag
def cellHas (tag : BitVec 2) (n : Nat) (p : Core → Bool) : Bool := coreHas (cellS tag n) fun k =>
  decide ((checkAccess (cellS tag n) k.actor .store 0 3 32 32 false 256 true).2 = .ok (.dev 256)) && decide (tagAt (cellS tag n) 256 = tag) &&
    decide ((loadTgt (cellS tag n) k.actor (.dev 256) 256 8 0 0 0 0).2 = if tag = 0 then .bytes (List.replicate 8 0) else .cell 256) && p k
theorem test_witness_SuspendedCells :
    storesMove (cellS 0 0) = true ∧ storesMove (cellS 1 14) = true ∧ copyHolds (cellS 0 0) (.dev 256) 32 = false ∧ copyHolds heldS (.dev 256) 32 = true ∧
    coreHas (cellS 1 14) (fun k => decide (drainForStop (cellS 1 14) k (.dev 256) 8 = none)) = true ∧
    coreHas ({ cellS 3 1 with events := List.replicate 4096 (.teamEnd 0) }.updThread ⟨0, 0, 0⟩ fun th => { th with wait := .cellFailed 256 2 7 })
      (fun k => decide (k.tm.evstack ≠ [] ∧ k.th.wait = .cellFailed 256 2 7)) = true ∧
    cellHas 0 0 (fun k => suspensionOk [k.th.rx 4, 0, 0, 0]) = true ∧
    cellHas 1 15 (fun k => 15 ≤ k.tm.evstack.length) = true ∧ cellHas 1 14 (fun k => k.tm.evstack.length < 15 && !(cellS 1 14).eventsFull) = true ∧
    coreHas (setTag (cellS 0 1) 512 2) (fun k => k.tm.evstack.any fun c => c.1 = 512) = true ∧ cellHas 3 1 (fun _ => true) = true ∧
    writeWaits (cellS 0 0) 0 (.dev 256) 32 = false ∧ writeWaits heldS 0 (.dev 256) 32 = true ∧ (cellS 2 0).waiters = [] ∧
    ({ cellS 1 0 with events := List.replicate 4096 (.teamEnd 0) } : State).eventsFull = true ∧
    coreHas (ccAt fun th => { segs (regs [256] th) with wait := .cellFailed 256 2 7 }) (fun k => decide (k.th.wait = .cellFailed 256 2 7)) = true ∧
    suspensionOk [0, 0, 0xC0000000, 0] = false ∧ (257 : W64).toNat % 32 ≠ 0 ∧
    coreHas (ccAt fun th => { segs (regs [256] th) with wait := .cellDone 256 (List.replicate 32 0) }) (fun k =>
      decide (k.th.wait = .cellDone 256 (List.replicate 32 0) ∧ 256 / 32 = 256 / 32)) = true := by decide +kernel

/-- A lock of the context in a state. -/
def lockS (l : Lock) (f : Thread → Thread) : State := { ccAt f id fun x => { x with locks := [4095] } with locks := [(4095, l)] }
/-- The range that the lock binds, where a copy holds its line, and where its die does not answer. -/
def bound (b : Lock) : Lock := { b with bind := [(.dev 256, 0, 64)] }
theorem test_witness_Locks :
    (let l := bound ⟨none, [], 0, []⟩
     bindStop memS 0 l = none ∧ bindStop heldS 0 l = some .waits ∧ bindStop (stuck memS) 0 { l with bind := [(.dev (2 ^ 38), 0, 64)] } = some (.offline 1)) ∧
    storesMove (lockS ⟨some ⟨0, 0, 0⟩, [], 1, []⟩ (regs [0xFFF])) = true ∧
    coreHas (lockS ⟨none, [], 0xFFFFFFFF, []⟩ (regs [0xFFFF])) (fun k => let lk := (k.th.rx 1).toNat % 2 ^ 12
      k.ctx.locks.contains lk && !dieRefuses memS (lk / 1024 % 4) && decide ((k.th.rx 1).toNat / 2 ^ 16 % 2 = 0) && k.ctx.privileged) = true ∧
    coreHas (lockS ⟨none, [⟨0, 0, 0⟩], 1, []⟩ (regs [0xFFF])) (fun k => (lockOf (lockS ⟨none, [⟨0, 0, 0⟩], 1, []⟩ id) 4095).queue.head? = some k.ref) = true ∧
    coreHas (lockS ⟨some ⟨0, 0, 0⟩, [], 1, []⟩ (regs [0xFFF])) (fun k => (lockOf (lockS ⟨some ⟨0, 0, 0⟩, [], 1, []⟩ id) 4095).holder = some k.ref) = true ∧
    coreHas (lockS ⟨some ⟨1, 0, 0⟩, [], 1, []⟩ (regs [0x10FFF])) (fun k => (k.th.rx 1).toNat / 2 ^ 16 % 2 = 1 &&
      decide ((lockOf (lockS ⟨some ⟨1, 0, 0⟩, [], 1, []⟩ id) 4095).holder ≠ some k.ref) && !k.ctx.locks.contains 0) = true ∧
    coreHas (lockS ⟨none, [⟨0, 0, 0⟩], 1, []⟩ fun th => { th with wait := .lkacq 1 4095 }) (fun k => decide (k.th.wait = .lkacq 1 4095) && threadFree memS k.ref k.th && !threadFree memS k.ref { k.th with preempt := true }) = true ∧
    -- the record of a binding at 256: the range of 64 bytes at 512, to offset 0
    (let s : State := { lockS ⟨none, [], 1, []⟩ (fun th => segs (regs [0xFFF, 256] th)) with mem := Memory.write [] 256 (toBytes 8 512 ++ toBytes 8 (64 * 2 ^ 32)) }
     coreHas s (fun k => decide (k.th.rx 2 ≠ 0) && (match loadWords s k 3 (k.th.rx 2) 8 with
       | (u, .ok ws) => (match bindEntries u k (pairs ws) 0 with | (_, .ok r) => decide (r = [(.dev 512, 0, 64)]) | _ => false)
       | _ => false)) = true) ∧
    (memS.ctx? 0).any (fun x => !x.ended && decide x.locks.Nodup) = true := by decide +kernel

/-- An image with one block. -/
def blocks (x : Ctx) : Ctx := { x with images := [(0, { wordImage with blockCount := 1 })] }
/-- The group 15 of the served thread with a queue of `n` deals, shows and helper queues. -/
def dealsS (n m : Nat) (st : GState) (f : Thread → Thread) : State :=
  withGroup 15 { State.emptyGroup with state := st, queue := List.replicate n wordRun.deal, hqueue := List.replicate m wordRun.deal,
                                       shows := [[1, 2, 3, 4, 5, 6, 7, 8]], hshows := [[8, 7, 6, 5, 4, 3, 2, 1]] } (ccAt f id blocks)
theorem test_witness_Deals : storesMove (dealsS 63 0 .live (regs [15])) = true ∧
    storesMove (dealsS 64 3 .live fun th => { th with depth := 1, egrp := 15 }) = true ∧
    coreHas (dealsS 63 0 .live (regs [15])) (fun k => let w0 := k.th.rx 1
      decide (w0.toNat / 2 ^ 12 % 2 ^ 4 = 0 ∧ w0.toNat % 256 ≤ 15 ∧ k.th.depth = 0) && decide ((dealsS 63 0 .live id).cur = .thread k.ref) &&
      (match imageOf (dealsS 63 0 .live id) k.tm.ctx k.th.img with | some im => w0.toNat / 2 ^ 48 < im.blockCount | none => false) &&
      ((dealsS 63 0 .live id).group? (k.ref.group 15)).any (fun g => g.queue.length < 64 && decide (g.state = .live))) = true ∧
    coreHas (dealsS 64 4 .live fun th => { th with depth := 1, egrp := 15, wait := .deal 1 2 }) (fun k =>
      0 < k.th.depth && decide (k.th.egrp.toNat = 15 ∧ k.th.wait = .deal 1 2) && threadFree memS k.ref k.th && !threadFree memS k.ref { k.th with preempt := true } && ((dealsS 64 4 .live id).group? (k.ref.group 15)).any (fun g => 64 ≤ g.queue.length && 4 ≤ g.hqueue.length)) = true ∧
    (0x1000 : W64).toNat / 2 ^ 12 % 2 ^ 4 ≠ 0 ∧ 15 < (16 : W64).toNat ∧ (7 : R5).toNat ≤ 7 ∧ (groupOf (dealsS 0 3 .closed id) ⟨0, 0, 0, 15⟩).state ≠ .live ∧
    1 ≤ (0x1000000000000 : W64).toNat / 2 ^ 48 := by decide

theorem test_witness_Shows :
    coreHas (dealsS 0 0 .live (regs [15])) (fun k => decide ((k.th.rx 1).toNat ≤ 15) && decide ((dealsS 0 0 .live id).cur = .thread k.ref) &&
      ((dealsS 0 0 .live id).group? (k.ref.group 15)).any (fun g => decide (g.shows.map (·.length) = [8] ∧ g.state ≠ .unset))) = true ∧
    coreHas (dealsS 0 0 .live fun th => { th with depth := 1, egrp := 15, wait := .spop 24 1 7 }) (fun k =>
      decide (k.th.wait = .spop 24 1 7 ∧ k.th.egrp.toNat = 15) && 0 < k.th.depth && threadFree memS k.ref k.th && !threadFree memS k.ref { k.th with preempt := true }) = true ∧
    (24 : R5).toNat + (7 : R5).toNat < 32 ∧ (groupOf memS ⟨0, 0, 0, 15⟩).state = .unset ∧ (State.emptyGroup).shows = [] := by decide

/-- A team of two roles with free units. -/
def pools (tm : Team) : Team := { tm with roles := [(0, ⟨[[0, 1], [], [], []], List.replicate 16 0⟩), (1, ⟨[[2], [], [], []], List.replicate 16 0⟩)] }
theorem test_witness_GroupUnits :
    coreHas (ccAt (regs [15, 2]) pools) (fun k =>
      let free := freeUnits k.tm k.ref.role 0
      decide ((k.th.rx 1).toNat ≤ 15 ∧ (k.th.rx 2).toNat % 16 = 2 ∧ 2 ≤ free.length ∧ residentGroups memS k.ref.hand 0 < 16) &&
        decide ((groupOf memS (k.ref.group 15)).state = .unset)) = true ∧
    coreHas (ccAt (regs [1, 0x200]) pools) (fun k => let n := (k.th.rx 2).toNat / 2 ^ 8 % 2 ^ 8
      (k.tm.roles.get? (k.th.rx 1).toNat).isSome && decide ((k.th.rx 1).toNat ≠ k.ref.role) && decide (1 ≤ n ∧ n ≤ (freeUnits k.tm k.ref.role 0).length) &&
        decide (1 ≤ min n (freeUnits k.tm 1 0).length)) = true ∧
    (groupOf (dealsS 3 0 .closing id) ⟨0, 0, 0, 15⟩).queue.length < 256 ∧ (groupOf (dealsS 3 0 .closing id) ⟨0, 0, 0, 15⟩).state = .closing := by decide

theorem test_witness_Cancels :
    coreHas (dealsS 2 1 .live (regs [0x8000, 0])) (fun k => decide ((k.th.rx 1).toNat % 2 ^ 16 = 2 ^ 15) && k.th.depth = 0 &&
      ((dealsS 2 1 .live id).group? (k.ref.group 15)).any (fun g => decide (g.state = .live))) = true ∧
    ({ wordRun with started := true } : Run).started = true ∧ ([wordRun.deal, { wordRun.deal with w0 := 0x200 }] : List Deal)[1]?.any (fun z =>
      z.w0.toNat / 2 ^ 9 % 2 = 1 && !z.cancelled) = true := by decide

/-- Deques of hands 0 and 1 with a record of the context, and a team of the context on hand 1. -/
def dequeS (n h : Nat) : State :=
  let s := ccAt id id id fun x => { x with deque := List.replicate n (0, [1, 2, 3, 4]) }
  { s.updHand h (fun x => { x with deque := [(9, [0, 0, 0, 0]), (0, [1, 2, 3, 4]), (0, [5, 6, 7, 8])] }) with teams := s.teams.set (teamKey ⟨h, 0⟩) (wordTeam false) }
theorem test_witness_Deques : storesMove (dequeS 255 1) = true ∧
    coreHas (dequeS 256 1) (fun k => decide (256 ≤ ((dequeS 256 1).hand k.ref.hand).deque.length)) = true ∧
    coreHas (dequeS 255 1) (fun k => decide (((dequeS 255 1).hand k.ref.hand).deque.length < 256 ∧ k.ref.hand < 256) && (dequeS 255 1).enabled 1 &&
      (dequeS 255 1).resident k.tm.ctx 1 && decide (dieOf 1 = dieOf k.ref.hand ∧ clusterOf 1 = clusterOf k.ref.hand ∧ 1 ≠ k.ref.hand) &&
      decide (((dequeS 255 1).hand 1).deque = [(9, [0, 0, 0, 0])] ++ (k.tm.ctx, [1, 2, 3, 4]) :: [(0, [5, 6, 7, 8])])) = true ∧
    dieOf 64 ≠ dieOf 0 ∧ (dequeS 0 64).enabled 64 = true ∧ (dequeS 0 64).resident 0 64 = true ∧ ((dequeS 0 1).hand 0).deque = [] := by decide +kernel

/-- A thread that names an entry line of its engine in X1, and its weight. -/
def workS (e : Engine) (wgt : W64) (run : Bool) : State :=
  ccAt (regs [33, 0x20]) (fun tm => { tm with wgt := wgt, stream := { tm.stream with running := run } }) id fun h =>
    { h with imem := h.imem.set (imemKey 0 0 2) (wordLine e []) }
theorem test_witness_TeamWork : storesMove (workS .cc 2 false) = true ∧ storesMove (workS .matrix 1 false) = true ∧
    bindStop memS 0 (lockOf memS 3) = none ∧ decodable memS ⟨0, 0, 1⟩ = false ∧ decodable memS ⟨0, 0, 0⟩ = true ∧
    coreHas (workS .cc 2 false) (fun k => decide ((checkTarget (workS .cc 2 false) k.ref.hand k.tm.ctx k.th.img .cc true (k.th.rx 1)).2 = .ok) &&
      decide (2 ≤ k.tm.wgt.toNat) && !(workS .cc 2 false).eventsFull && decide (k.th.rx 1 ≠ 0)) = true ∧
    coreHas (workS .cc 1 false) (fun k => decide (k.tm.wgt.toNat < 2 ∧ k.th.rx 0 = 0) && k.th.copyFaults.isEmpty) = true ∧
    coreHas (workS .matrix 1 true) (fun k => decide ((checkTarget (workS .matrix 1 true) k.ref.hand k.tm.ctx k.th.img .matrix true (k.th.rx 1)).2 = .ok) &&
      k.tm.stream.running && !k.tm.stream.stopped &&
      decide ((checkTarget (workS .matrix 1 true) k.ref.hand k.tm.ctx k.th.img .cc true (k.th.rx 1)).2 = .stop (.fault .imageLink))) = true ∧
    coreHas (workS .matrix 1 false) (fun k => !k.tm.stream.running) = true ∧
    ({ workS .cc 2 false with events := List.replicate 4096 (.teamEnd 0) } : State).eventsFull = true ∧
    coreHas (ccAt fun th => { th with wait := .yield 1 17 0x10020 4 0x100 }) (fun k => decide (k.th.wait = .yield 1 17 0x10020 4 0x100 ∧ (barrierOf k.tm 0).phase ≠ 4) && k.th.yields.isEmpty && threadFree memS k.ref k.th &&
      !threadFree memS k.ref { k.th with preempt := true }) = true ∧
    coreHas (workS .matrix 1 true) (fun k => ({ k.tm.stream with stopped := true } : Stream).stopped && decide
      ((checkTarget (workS .lane 1 true) k.ref.hand k.tm.ctx k.th.img .matrix true (k.th.rx 1)).2 = .stop (.fault .imageLink))) = true ∧
    coreHas (ccAt fun th => { th with copyFaults := [⟨47, 1⟩] }) (fun k => !k.th.copyFaults.isEmpty) = true ∧
    (teamThreads memS ⟨0, 0⟩).all (fun t => threadKey t = threadKey ⟨0, 0, 0⟩) = true := by decide +kernel

/-- A thread with a cause, and a handler table at 64 whose entry for it names address 17 of image 0. -/
def causeS : State :=
  { ccAt (fun th => { segs th with causes := [(winOf .cc).cause], esave := 0x1000 }) id fun x => { x with eht := 64 } with
    mem := Memory.write [] (64 + 8 * Cause.code .disabled) [17] }
theorem test_witness_HandlerEntry : storesMove causeS = true ∧
    (match causeS.coreOf ⟨0, 0, 0⟩ with
      | some k => handRuns causeS 0 && decide (nextCause k.th = some (winOf .cc).cause ∧ ((winOf .cc).cause.word 0).toNat / 2 ^ 26 < 0x20) && !held causeS (.thread k.ref) && !isParked causeS (.thread k.ref) && decide (k.th.depth < 2) &&
          decide (k.ctx.eht.toNat / 64 ≠ 0) &&
          (match loadWords causeS k 3 (k.ctx.eht + BitVec.ofNat 64 (8 * Cause.code .disabled)) 1 with | (_, .ok [e]) => decide (e = 17) | _ => false) &&
          decide ((checkTarget causeS k.ref.hand k.tm.ctx 0 .cc true 17).2 = .ok) &&
          (match storeWords causeS k 0x1000 (List.replicate 32 0) with | (_, .ok ()) => true | _ => false)
      | none => false) = true ∧
    coreHas (ccAt fun th => { th with causes := [{ (winOf .cc).cause with cause := .undefined }], depth := 2 }) (fun k => decide (2 ≤ k.th.depth)) = true := by decide

theorem test_witness_HandlerReturn : storesMove (ccAt fun th => regs [0x111] (inHandler .cc th)) = true ∧
    coreHas (ccAt fun th => regs [0x111] (inHandler .cc th)) (fun k =>
      let s := ccAt fun th => regs [0x111] (inHandler .cc th)
      decide (15 < k.th.egrp.toNat) && (k.th.rx 1).getLsbD 4 && !(k.th.rx 2).getLsbD 4 && k.th.windows.any (fun w => w.cause.engine = .cc && decide (w.cause.cause ≠ .deprecated ∧ w.groups = [])) &&
        decide ((checkTarget s k.ref.hand k.tm.ctx (k.th.epc.toNat / 2 ^ 32) .cc false (BitVec.ofNat 64 (k.th.epc.toNat % 2 ^ 32))).2 = .ok) &&
        (match loadWords s k 0 (k.th.esave + BitVec.ofNat 64 (256 * (k.th.depth - 1))) 23 with | (_, .ok ws) => decide (ws.length = 23) | _ => false)) = true := by decide

/-! ### Witnesses of the statements on groups -/

/-- A group that runs a deal, served, with its group, run, thread, team and context as given. -/
def laneAt (f : Group → Group) (r : Run → Run := id) (g : Thread → Thread := id) (x : Team → Team := id) (y : Ctx → Ctx := id) : State :=
  let s := (placeWord State.reset .lane (toBytes 8 0)).turn [] (.group ⟨0, 0, 0, 0⟩)
  ((((s.updGroup ⟨0, 0, 0, 0⟩ fun z => f { z with run := z.run.map r }).updThread ⟨0, 0, 0⟩ g).updTeam ⟨0, 0⟩ x).updCtx 0 y).updHand 0 fun z =>
    { z with tlb := [⟨0, 0, 2 ^ 20, 0, false, true, true, true⟩] }
def laneS : State := laneAt id
theorem test_lane : (laneS.laneOf ⟨0, 0, 0, 0⟩).isSome = true := by decide
/-- What it reaches. -/
def laneL : Lane := (laneS.laneOf ⟨0, 0, 0, 0⟩).get test_lane
/-- `p` holds of what the served group reaches. -/
def laneHas (s : State) (p : Lane → Bool) : Bool := match runningLane s ⟨0, 0, 0, 0⟩ with | some l => p l | none => false

/-- Every statement on an issued lane instruction has this premise. -/
theorem test_witness_Issues : Issues laneS (landDue laneS laneL.ref laneL.gr.pos) i32 laneL :=
  ⟨by decide, ⟨laneL, by decide +kernel, by decide, by decide, by decide, rfl⟩, by decide +kernel⟩

/-- An outstanding load of element 0 from the scratchpad on token 7, and one that has met a fault. -/
def loadO : Outst := ⟨some 7, [⟨0, 256, .scratch 0 256, .load 32 false, false, none, none⟩], [.tile 0], 1, 0, 0, none, false, 17, 1, 0, 1, 5, false, false, none⟩
def badO : Outst := { loadO with done := true, bad := some (.poison, 256, 0, 0) }
theorem test_witness_LaneIssue :
    laneHas (laneAt id fun r => { r with s := 0x7F }) (fun l => !l.run.s.getLsbD 7) = true ∧
    laneHas (laneAt fun g => { g with outst := [badO] }) (fun l => (deferredOn l 0x80).isSome && l.run.s.getLsbD 0) = true ∧
    laneHas (laneAt fun g => { g with outst := [loadO] }) (fun l => (deferredOn l 0x80).isNone && decide (tokenCount l.gr 7 ≠ 0)) = true := by decide

theorem test_witness_LaneInteger : (7 : BitVec 4).toNat < 8 ∧ badTile laneL [0, 1, 62, 63] = none ∧ badTile { laneL with gr := { laneL.gr with units := [0] } } [7, 8] = some 8 ∧
    libraryServes laneL.ctx laneL.th laneL.helper = true ∧
    laneHas (laneAt id id id id fun x => { x with eht := 64 }) (fun l => !libraryServes l.ctx l.th l.helper) = true := by decide

theorem test_witness_LaneMoves : (7 : BitVec 4).toNat < 8 ∧ badTile laneL (pairOf true 62) = none := by decide
theorem test_witness_LaneFloat : badTile laneL (0 :: flexTiles i32 false) = none ∧ FFmt.f32 ≠ .f16 ∧ (laneS.ctx? laneL.tm.ctx).isSome = true := by decide
theorem test_witness_LaneFloat_codes : isFloatNan 11 0x7F800001 ∧ isFloatSnan 11 0x7F800001 ∧ isFloatNan 9 0x7E00 ∧ ¬isFloatSnan 9 0x7E00 ∧ ¬isFloatNan 11 0xBF800000 ∧
    floatNeg 11 0xBF800000 = true ∧ (0xBF800000 : Nat) ≠ floatZero 11 true ∧ (0xBF800000 : Nat) % 2 ^ 31 < floatInf 11 false ∧ (0x7E00 : Nat) < 2 ^ 16 := by
  simp only [isFloatSnan, isFloatNan, floatFields]; decide
theorem test_witness_LaneConvert : (1 : BitVec 3).toNat < cvtParts 8 9 ∧ (3 : BitVec 3).toNat < 4 ∧ 11 ≤ (13 : BitVec 4).toNat ∧ badTile laneL [0, 1, 2] = none := by decide
theorem test_witness_LaneAxis : (10 : BitVec 4).toNat < 11 ∧ badTile laneL (pairOf false 0 ++ pairOf false 63) = none := by decide

/-- The group with its element 0 active under guard 3, and its memory operations. -/
def guardS (n : Nat) : State := laneAt (fun g => { g with m := g.m.set 3 1, outst := List.replicate n loadO })
  (fun r => { r with gseg := lowSeg, pseg := lowSeg, kseg := lowSeg, lseg := lowSeg }) id fun t => { t with tagCfg := 0x30 }
/-- A word under that guard, counted on token 7. -/
def g3 : LaneW := { i32 with guard := 3, tokEn := 1, tok := 7 }
theorem test_witness_LaneMemory :
    laneHas (guardS 0) (fun l => l.act g3 = 1 && !(63 ≤ tokenCount l.gr g3.tok.toNat) && (badTile l [0, 1, 62, 63]).isNone &&
      (match checkElems (guardS 0) l.actor .load { mw with space := 1 } 4 4 (fun _ => none) [(0, 256)] with
        | (_, .ok es) => decide (es = [(0, 256, .scratch 0 256)]) | _ => false) &&
      (match checkElems (guardS 0) l.actor .load { mw with space := 1 } 4 4 (fun _ => none) [(0, 257)] with
        | (_, .error st) => decide (st = (0, 257, .fault .align)) | _ => false) &&
      (match checkSlots (guardS 0) l .load { mw with space := 1 } 4 [(0, 0, 0)] with | (_, .ok es) => decide (es = [(0, 0, .scratch 0 0)]) | _ => false) &&
      (match checkSlots (guardS 0) l .load { mw with space := 1 } 4 [(0, 0, 2 ^ 20)] with | (_, .error _) => true | _ => false) &&
      libraryServes l.ctx l.th l.helper) = true ∧
    laneHas (guardS 63) (fun l => 63 ≤ tokenCount l.gr g3.tok.toNat) = true ∧
    ((guardS 1).group? ⟨0, 0, 0, 0⟩).any (fun g => g.outst[0]?.any fun o => !o.done && o.show_.isNone && decide ((o.elems.map (·.pos)).Nodup)) = true ∧
    ((guardS 1).coreOf ⟨0, 0, 0⟩).isSome = true ∧ (poisonedUnits (guardS 1) (.scratch 0 256) 4) = [] ∧
    ((guardS 2).group? ⟨0, 0, 0, 0⟩).any (fun g => g.outst[1]?.any fun o => conflicts 0 loadO { o with elems := [⟨0, 256, .scratch 0 256, .store 32 1, false, none, none⟩] }) = true ∧
    ((guardS 0).ctx? 0).isSome = true ∧ conflicts 0 loadO loadO = true ∧ writeWaitsFor (guardS 0) 0 (fun _ => true) (.dev 256) 4 = false ∧
    writeWaitsFor ((guardS 0).updHand 0 fun h => { h with near := [{ wordCopy with owned := [2] }] }) 0 (fun _ => true) (.dev 256) 4 = true ∧
    ((laneAt fun g => { g with outst := [{ loadO with space := 0, elems := [⟨0, 256, .dev 256, .atomic 0 32 1 0, false, none, none⟩] }] }).group? ⟨0, 0, 0, 0⟩).any
      (fun g => outstReady 0 g 0) = true ∧ poisonedFor (guardS 0) 0 (.dev 256) 4 0 0 = [] ∧
    ((laneAt fun g => { g with outst := [{ loadO with elems := [⟨0, 256, .scratch 0 256, .store 32 1, false, none, none⟩], dest := [] }] }).group? ⟨0, 0, 0, 0⟩).any
      (fun g => outstReady 0 g 0 && g.outst[0]?.any fun o => o.dest.isEmpty) = true ∧
    tagAt (setTag (guardS 0) 256 1) 256 ≠ 0 ∧ dieRefuses (guardS 0) (homeDie 256) = false := by decide +kernel

/-- An operation on one element at 256 of device memory, after those that are given. -/
def devS (before : List Outst) (op : ElemOp) (fault : Bool) (failed : Option (Nat × Nat) := none) : State :=
  laneAt fun g => { g with outst := before ++ [{ loadO with space := 0, fault := fault, elems := [⟨0, 256, .dev 256, op, false, none, failed⟩] }] }
/-- It is ready, plain where nothing has failed, and `p` holds of the state. -/
def devReady (before : List Outst) (op : ElemOp) (fault : Bool) (failed : Option (Nat × Nat)) (p : State → Bool) : Bool :=
  let s := devS before op fault failed
  p s && !dieRefuses s (homeDie 256) && (s.group? ⟨0, 0, 0, 0⟩).any fun g => outstReady 0 g before.length && g.outst[before.length]?.any fun o =>
    decide (o.dest = [.tile 0]) && (before ++ [o]).all fun p => p.show_.isNone
theorem test_witness_LaneMemory_device :
    devReady [] (.load 32 true) true none (fun s => decide (poisonedFor s 0 (.dev 256) 4 0 0 = [] ∧ tagAt s 256 = 0) && !copyHolds s (.dev 256) 4 &&
      !(poisonedFor { s with poison := [4] } 0 (.dev 256) 4 0 0).isEmpty &&
      copyHolds (s.updHand 0 fun h => { h with near := [{ wordCopy with owned := [2] }] }) (.dev 256) 4) = true ∧
    devReady [{ badO with bad := none }] (.atomic 9 32 1 0) false none (fun s => decide (tagAt s 256 = 0 ∧ tagAt (setTag s 256 1) 256 ≠ 0) &&
      !writeWaitsFor s 0 (fun x => x.at_ < 5) (.dev 256) 4 &&
      writeWaitsFor (s.updHand 0 fun h => { h with near := [{ wordCopy with owned := [2] }] }) 0 (fun x => x.at_ < 5) (.dev 256) 4) = true ∧
    devReady [] (.load 32 true) false (some (2, 7)) (fun _ => true) = true ∧
    ((laneAt fun g => { g with outst := [loadO, { loadO with elems := [⟨0, 512, .scratch 0 512, .store 32 1, false, none, none⟩] }] }).group? ⟨0, 0, 0, 0⟩).any
      (fun g => g.outst[0]?.any fun p => !p.done && g.outst[1]?.any fun o => ordered 0 p o && !conflicts 0 p o) = true ∧
    laneHas laneS (fun l => decide ((peerAsk laneS l.actor (.peer 2 8) (.load 4)).2 = .waits)) = true := by decide +kernel

/-- Barrier 31 of the group's team. -/
def laneBar (b : Barrier) (f : Group → Group) : State := laneAt f id id fun tm => { tm with bars := [(31, b)] }
def storeO : Outst := { loadO with elems := [⟨0, 256, .scratch 0 256, .store 32 1, false, none, none⟩], dest := [] }
def showO : Outst := { loadO with elems := [], dest := [], show_ := some (List.replicate 8 0) }
theorem test_witness_LaneSync : loadO.show_.isNone = true ∧ ({ showO with done := true } : Outst).show_.isSome = true ∧
    laneHas (laneBar ⟨1, 2, 5, 0⟩ id) (fun l => let b := barrierOf l.tm 31
      decide (b.expected ≠ 0 ∧ b.arrivals ≠ b.expected ∧ b.arrivals + 1 = b.expected ∧ b.pending + 0 = 0) && decide (l.gr.fpx &&& l.th.fpxmask = 0) &&
        l.gr.waitBar.isNone && l.gr.outst.isEmpty && decide (l.gr.shows.length < 32)) = true ∧
    laneHas (laneBar ⟨2, 2, 5, 0⟩ fun g => { g with arrival := [(31, 4)], outst := [storeO, loadO] }) (fun l =>
      decide ((barrierOf l.tm 31).arrivals = (barrierOf l.tm 31).expected ∧ (l.gr.arrival.get? 31).getD 5 ≠ 5) && l.gr.outst.any (fun o => !o.done && o.writes) &&
        l.gr.outst.any (fun o => !o.done && o.loads)) = true ∧
    laneHas (laneBar ⟨0, 0, 5, 0⟩ fun g => { g with waitBar := some (31, 3, 5) }) (fun l => decide (l.gr.waitBar = some (31, 3, 5) ∧ (barrierOf l.tm 31).phase = 5)) = true ∧
    -- a show with nothing before it and room, of the deal and of a helper deal
    ((laneAt fun g => { g with outst := [showO, { showO with helper := true }] }).group? ⟨0, 0, 0, 0⟩).any (fun g =>
      decide (g.shows.length < 32 ∧ g.hshows.length < 4) && (List.range 2).all fun n => g.outst[n]?.any fun o => o.show_.isSome && ((n = 0) || o.helper)) = true ∧
    -- a show of a frozen group
    ((laneAt fun g => { g with outst := [showO], frozen := true }).group? ⟨0, 0, 0, 0⟩).any (fun g => g.frozen && g.outst.any fun o => !o.helper) = true ∧
    laneHas (laneBar ⟨0, 0, 5, 0⟩ fun g => { g with waitBar := some (31, 3, 4) }) (fun l => decide ((barrierOf l.tm 31).expected = 0 ∧ (barrierOf l.tm 31).phase ≠ 4)) = true ∧
    laneHas (laneAt (fun g => { g with fpx := 1 }) id fun th => { th with fpxmask := 1 }) (fun l => decide (l.gr.fpx &&& l.th.fpxmask ≠ 0)) = true ∧
    laneHas (laneAt fun g => { g with shows := List.replicate 32 [], outst := [showO] }) (fun l => 32 ≤ l.gr.shows.length && l.gr.hrun.isNone && !l.gr.frozen) = true ∧
    ((laneAt fun g => { g with hrun := some wordRun, outst := [storeO, showO] }).group? ⟨0, 0, 0, 0⟩).any (fun g =>
      g.hrun.isSome && g.outst[1]?.any (·.show_.isSome) && g.outst[0]?.any fun p => !p.done && p.writes) = true := by decide

/-- A block table in line 2 whose block 0 has entry 1, `n` stages and a budget of 8 tiles. -/
def blockS (q : List Deal) (blk : List Byte) : State :=
  { laneAt (fun g => { g with run := none, queue := q }) id id id fun x => { x with images := [(0, { wordImage with blockFirst := 2, blockCount := 1 })] } with
    mem := Memory.write [] (64 * 2 + 4) blk }
def pendP (d : Dst) : Pending := ⟨4, 0, d, 1, List.replicate 1024 7, 1, 0⟩
theorem test_witness_LaneEvents_start :
    (let s := blockS [{ wordRun.deal with w0 := 0x1000000 }] [1]
     match s.group? ⟨0, 0, 0, 0⟩, s.thread? ⟨0, 0, 0⟩, imageOf s 0 0 with
     | some gr, some th, some im => handRuns s 0 && (s.hand 0).active.contains ⟨0, 0, 0, 0⟩ && !gr.parked && !held s (.group ⟨0, 0, 0, 0⟩) && gr.hrun.isNone &&
         !gr.frozen && gr.run.isNone && !gr.preempt && !helperGroup th ⟨0, 0, 0, 0⟩ &&
         (match readBlock s 0 0 im 0 with
           | (u, .ok _, b, _) => decide (b.entry = 1) && !b.win && !b.bad && (match ensureLine u 0 0 0 1 with | (_, .ok, ln) => decide (lineEngine ln = 1) && lineEntry ln | _ => false)
           | _ => false)
     | _, _, _ => false) = true ∧
    -- a descriptor of a window block; one whose entry line is not a lane line with ENTRY
    (let s := blockS [{ wordRun.deal with w0 := 0x1000000 }] [1, 0, 0, 0, 0, 0, 0, 0, 1]
     (imageOf s 0 0).any fun im => match readBlock s 0 0 im 0 with | (_, .ok _, b, _) => b.win || b.bad | _ => false) = true ∧
    (let s := blockS [{ wordRun.deal with w0 := 0x1000000 }] [1, 0, 0, 0, 0x80, 0, 0, 1]
     (imageOf s 0 0).any fun im => match readBlock s 0 0 im 0 with
       | (_, .ok _, b, _) => decide (b.budget = 8 ∧ b.stages = 1 ∧ b.rotBase + b.rotSize ≤ b.budget) && !b.win && !b.bad | _ => false) = true ∧
    (let s := blockS [{ wordRun.deal with w0 := 0x1000000 }] [0]
     (imageOf s 0 0).any fun im => match readBlock s 0 0 im 0 with
       | (u, .ok _, b, _) => !b.win && !b.bad && decide (b.entry = 0) && (match ensureLine u 0 0 0 0 with | (_, .ok, ln) => !lineEntry ln | _ => false)
       | _ => false) = true ∧
    (let s := blockS [wordRun.deal] []
     match s.group? ⟨0, 0, 0, 0⟩ with | some gr => gr.queue.any fun d => d.w0.toNat / 2 ^ 24 % 2 ^ 24 = 0 | none => false) = true ∧
    ((laneAt fun g => { g with hrun := some wordRun }).group? ⟨0, 0, 0, 0⟩).any (fun g => g.hrun ≠ none) = true := by decide +kernel

theorem test_witness_LaneEvents_run :
    laneHas (laneAt id fun r => { r with pc := 16, inj := 0 }) (fun l => l.run.pc % 16 = 0 && decide (l.run.inj < l.run.trip) && !l.run.stopped && !l.run.pre) = true ∧
    laneHas (laneAt id fun r => { r with pc := 16, s := 0x80 }) (fun l => l.run.pc % 16 = 0 && decide ((l.run.s.toNat * 2 % 256) % 2 ^ l.run.blk.stages = 0) &&
      decide (l.run.trip ≤ l.run.inj) && l.gr.outst.isEmpty && !l.gr.queue.isEmpty && !l.helper) = true ∧
    -- a last deal that owes a show, with and without room for it
    (∀ n ∈ [31, 32], laneHas (laneAt (fun g => { g with queue := [{ wordRun.deal with w0 := 0x900 }], shows := List.replicate n [] }) fun r => { r with pc := 16, s := 0 })
      (fun l => l.run.pc % 16 = 0 && decide (l.run.shows = 0 ∧ l.gr.shows.length = n) && l.gr.queue.any fun d => d.w0.toNat / 2 ^ 8 % 2 = 1 && d.w0.toNat / 2 ^ 11 % 2 = 1 && !d.cancelled) = true) ∧
    laneHas (laneAt fun g => { g with outst := [{ badO with tok := none }] }) (fun l => l.tm.evstack.isEmpty && !l.helper) = true ∧
    laneHas laneS (fun l => (deferredHere laneS l).isNone) = true ∧
    laneHas (laneAt (fun g => { g with outst := [badO] }) fun r => { r with pc := 16, s := 0 }) (fun l => (deferredHere (laneAt (fun g => { g with outst := [badO] }) fun r => { r with pc := 16, s := 0 }) l).any fun o => o.bad.isSome) = true ∧
    ((laneAt fun g => { g with pend := [pendP (.tile 0)], pos := 4 }).group? ⟨0, 0, 0, 0⟩).any (fun g => g.run.isSome && g.pend.all fun p => p.vis ≤ g.pos && p.data.length = 1024) = true ∧
    ((laneAt fun g => { g with pend := [pendP (.mask 15)], pos := 3 }).group? ⟨0, 0, 0, 0⟩).any (fun g => g.pend.all fun p => g.pos < p.vis) = true ∧
    ((laneAt fun g => { g with pend := [pendP (.mask 15)], run := none }).group? ⟨0, 0, 0, 0⟩).any (fun g => g.run.isNone && g.hrun.isNone) = true := by decide +kernel

/-- Group 1 pending and ready beside the active group 0, whose queue is empty. -/
def swapS (active : List GroupRef) : State :=
  (withGroup 1 { State.emptyGroup with state := .live, queue := [wordRun.deal] } (laneAt fun g => { g with queue := [], swapThr := 0 })).updHand 0 fun h =>
    { h with active := active, ready := [⟨0, 0, 0, 1⟩] }
theorem test_witness_LaneEvents_swap :
    (let s := swapS [⟨0, 0, 0, 0⟩]
     match s.group? ⟨0, 0, 0, 0⟩, s.group? ⟨0, 0, 0, 1⟩ with
     | some gr, some gi => decide (gr.lg = gi.lg) && gr.queue.isEmpty && gr.hqueue.isEmpty && gr.landing.isEmpty && decide (gi.state = .live) && !gi.queue.isEmpty &&
         (s.hand 0).active.contains ⟨0, 0, 0, 0⟩ && !(s.hand 0).active.contains ⟨0, 0, 0, 1⟩ && decide ((s.hand 0).ready = [] ++ ⟨0, 0, 0, 1⟩ :: []) &&
         decide ((activeOf s 0 gr.lg).length < 8)
     | _, _ => false) = true ∧ ((swapS []).hand 0).active = [] := by decide

/-! ### Witnesses of the statements on streams and copies -/

/-- A running stream, served. -/
def mxAt (f : Team → Team) (h : Hand → Hand := id) (x : Ctx → Ctx := id) (g : Thread → Thread := segs) : State :=
  ((((placeWord State.reset .matrix (toBytes 8 0)).turn [] (.stream ⟨0, 0⟩)).updTeam ⟨0, 0⟩ f).updThread ⟨0, 0, 0⟩ g).updCtx 0 x |>.updHand 0 h
def mxHas (s : State) (p : Mx → Bool) : Bool := match s.mxOf ⟨0, 0⟩ with | some m => p m | none => false
theorem test_mx : ((mxAt id).mxOf ⟨0, 0⟩).isSome = true := by decide
/-- Every statement on a stream's instruction has this premise. -/
theorem test_witness_StreamReady : StreamReady (mxAt id) (((mxAt id).mxOf ⟨0, 0⟩).get test_mx) := ⟨by decide, by decide +kernel, by decide, by decide⟩

/-- Rings 0 and 1: slots of 128 and 136 chunks at 0 and 0x80000, `n` of them holding one slot. -/
def rings (za zb n : Nat) (t : BitVec 32) (tm : Team) : Team :=
  { tm with rings := [(0, ⟨true, 0, za, n, 3, t⟩), (1, ⟨true, 0x80000, zb, n, 3, t⟩)] }
/-- The record of a ring at 64 with slots of 128 chunks. -/
def ringRec (h : Hand) : Hand := { h with scratch := Memory.write [] 64 (toBytes 4 64 ++ toBytes 4 1 ++ toBytes 4 2 ++ toBytes 4 0) }
theorem test_witness_MatrixRings :
    mxHas (mxAt id ringRec) (fun m =>
      let o := 64
      decide (checkScratch (mxAt id ringRec) (m.actor .stream) .load 16 false 64 1 = .ok (.scratch 0 64)) && (poisonedUnits (mxAt id ringRec) (.scratch 0 o) 16).isEmpty &&
        decide (ofBytes ((List.range 4).map fun j => scratchByte (mxAt id ringRec) m.tm.ctx 0 (o + j)) = 64) && !ringBusy (mxAt id ringRec) m.ref 0 &&
        m.th.pseg.admits 64 (64 * 1 * 2) && decide (8 ≤ m.tm.accBudget)) = true ∧
    mxHas (mxAt (rings 128 136 4 4)) (fun m => let r := ringOf m.tm 0
      r.valid && decide ((r.t - r.h).toNat = 1 ∧ 1 + 3 ≤ r.n ∧ r.n < 5 ∧ r.n < 1 + 4) && decide ((ringOf m.tm 1).z = 136) && !(ringOf m.tm 7).valid) = true ∧
    mxHas (mxAt id fun h => { h with gather := [⟨0, 0, 0, 0, 0, 17, none⟩] }) (fun m => ringBusy (mxAt id fun h => { h with gather := [⟨0, 0, 0, 0, 0, 17, none⟩] }) m.ref 0) = true ∧
    mxHas (mxAt id) (fun m => decide (checkScratch (mxAt id) (m.actor .stream) .load 16384 false 0 1 = .ok (.scratch 0 0) ∧
      checkScratch (mxAt id) (m.actor .stream) .store 4096 false 0x3FD000 1 = .fault .barClobber)) = true := by decide

/-- Failed GATHs on rings 1 and 2, oldest first. -/
def gathFault (r : Nat) : GathFault := ⟨.ringShape, 0, 1, 0, r, 0, 17⟩
theorem test_witness_MatrixRings_faults :
    mxHas (mxAt fun tm => { tm with stream := { tm.stream with gathFaults := [gathFault 1, gathFault 2] } }) (fun m =>
      decide (m.tm.stream.mma = none ∧ m.tm.stream.gathFaults = [] ++ gathFault 1 :: [gathFault 2] ∧
        m.tm.stream.gathFaults = [gathFault 1] ++ gathFault 2 :: [] ∧ (gathFault 1).ring ≠ 2)) = true ∧
    (mxAt id).cur = .stream ⟨0, 0⟩ := by decide

theorem test_witness_MatrixRings_waits :
    mxHas (mxAt fun tm => { rings 128 136 4 3 tm with stream := { tm.stream with waitHadv := some (0, 1), waitBar := some (31, 3, 4) }, bars := [(31, ⟨1, 2, 5, 0⟩)] })
      (fun m => decide (((ringOf m.tm 0).t - (ringOf m.tm 0).h).toNat < 1 ∧ (barrierOf m.tm 31).phase ≠ 4)) = true ∧
    mxHas (mxAt (fun tm => { rings 128 136 4 4 tm with stream := { tm.stream with fpx := 1, waitHadv := some (0, 1), waitBar := some (31, 3, 5) }, bars := [(31, ⟨1, 2, 5, 0⟩)] })
        id id fun th => { th with fpxmask := 1 })
      (fun m => decide (1 ≤ ((ringOf m.tm 0).t - (ringOf m.tm 0).h).toNat ∧ (barrierOf m.tm 31).phase = 5 ∧ m.tm.stream.fpx &&& m.th.fpxmask ≠ 0)) = true ∧
    mxHas (mxAt fun tm => { tm with bars := [(31, ⟨2, 2, 5, 0⟩), (30, ⟨1, 2, 5, 0 - 64⟩)] }) (fun m => decide ((barrierOf m.tm 31).arrivals = (barrierOf m.tm 31).expected ∧
      (barrierOf m.tm 30).arrivals + 1 = (barrierOf m.tm 30).expected ∧ (barrierOf m.tm 30).pending + BitVec.ofNat 64 (64 * 1) = 0) && m.tm.stream.waitBar.isNone) = true := by decide

theorem test_witness_MatrixProducts :
    mxHas (mxAt (rings 128 128 2 5)) (fun m => let a := ringOf m.tm 0; let b := ringOf m.tm 1
      decide (7 < m.tm.accBudget ∧ a.z = 128 ∧ b.z = 128 ∧ 2 ≤ a.n ∧ 2 ≤ (a.t - a.h).toNat ∧ 1 ≤ (b.t - b.h).toNat) && a.valid && b.valid && libraryServes m.ctx m.th false &&
        !({ xw with fmt := 5 } : MatW).scaled) = true ∧
    mxHas (mxAt (rings 512 136 2 4)) (fun m => decide ((ringOf m.tm 0).z = 512 ∧ (ringOf m.tm 1).z = 136) && (poisonedUnits (mxAt id) (.scratch 0 0) 32768).isEmpty) = true ∧
    mxHas (mxAt (rings 128 128 1 3) id fun x => { x with eht := 64 }) (fun m => decide ((ringOf m.tm 0).n < 2 ∧ ((ringOf m.tm 0).t - (ringOf m.tm 0).h).toNat < 1) &&
      !libraryServes m.ctx m.th false) = true ∧
    ((List.range 256).map fun _ => 0xFFFF).takeWhile (· ≠ 0xFFFF) = [] ∧ [512].find? (fun i => decide (512 ≤ i)) = some 512 := by decide +kernel

/-- Group 3 of role 1, whose tile 7 gives the scales of a stream's MMA. -/
def scaleS : State :=
  let s := mxAt fun tm => { rings 128 128 2 5 tm with roles := tm.roles.set 1 ⟨[], []⟩ }
  { s with groups := s.groups.set (groupKey ⟨0, 0, 1, 3⟩) { State.emptyGroup with state := .closing, units := [4] } }
theorem test_witness_MatrixProducts_floats :
    mxHas scaleS (fun m => ({ xw with fmt := 4, flags := 1, grp := 3, tile := 7 } : MatW).scaled && (scaleTile scaleS m { xw with grp := 3, tile := 7 }).isSome &&
      (scaleTile scaleS m { xw with grp := 3, tile := 8 }).isNone && (poisonedUnits scaleS (.scratch 0 0) 8192).isEmpty) = true ∧
    -- indices 0, 511 and the end; MMAS of E4M3 has 512 of them
    (((toBytes 2 0 ++ toBytes 2 511 ++ List.replicate 508 0xFF) : List Byte).length = 512) ∧
    (let idx := [0, 511, 0xFFFF].takeWhile (· ≠ 0xFFFF); idx = [0, 511] ∧ idx ≠ [] ∧ idx.length ≤ 128 ∧ ∀ i ∈ idx, i < 512) ∧
    mxHas (mxAt (rings 512 136 2 5)) (fun m => decide (7 < m.tm.accBudget) && (ringOf m.tm 0).valid) = true := by decide +kernel

theorem test_witness_MatrixProducts_retire :
    ((mxAt fun tm => { tm with stream := { tm.stream with mma := some ⟨7, [], 0, [(0, 2)]⟩ } }).team? ⟨0, 0⟩).any (·.stream.mma.isSome) = true := by decide

/-- A GATH whose record at 0 asks for no rows, its ring with room. -/
def gathS (t : BitVec 32) : State := mxAt (rings 128 136 4 t) fun h => { h with gather := [⟨0, 1, 5, 0, 0, 17, none⟩] }
theorem test_witness_MatrixProducts_gather :
    mxHas (gathS 4) (fun m => let site := { streamSite m.ref m.tm with engine := 3, img := 0, pc := 17 }
      (match gatherRead (gathS 4) (m.actor .gather) site 1 (BitVec.ofNat 64 0) 32 1 [] with
        | (u, .ok (r, ms)) => decide (r = List.replicate 32 (0, false)) && ms.isEmpty &&
            (match gatherRows (m.actor .gather) site 1 5 0 0 0 0 0 (List.range 0) [] u with | (_, .ok (rows, ms)) => decide (rows = []) && ms.isEmpty | _ => false)
        | _ => false) && handRuns (gathS 4) 0 && decide (((ringOf m.tm 1).t - (ringOf m.tm 1).h).toNat < (ringOf m.tm 1).n) && !isParked (gathS 4) (.stream m.ref)) = true ∧
    mxHas (gathS 7) (fun m => decide ((ringOf m.tm 1).n ≤ ((ringOf m.tm 1).t - (ringOf m.tm 1).h).toNat)) = true := by decide

/-- A command of hand 0's near or, for G2G and REDUCE, bulk queue, served. -/
def cpAt (i : Instr) (f : Copy → Copy) (g : Team → Team := id) : State :=
  let s := placeWord State.reset .copy (toBytes 12 0)
  let q := [f { wordCopy with cmd := some i, chain := none }]
  ((((s.turn [] (.copy 0 (bulkCmd i) 1)).updHand 0 fun h => { h with
    near := if bulkCmd i then [] else q, bulk := if bulkCmd i then q else [], tlb := [⟨0, 0, 2 ^ 20, 0, false, true, true, true⟩] }).updThread ⟨0, 0, 0⟩ fun th => { segs th with kseg := Seg.none }).updTeam ⟨0, 0⟩ g).updDie 0 fun d =>
    { d with tlb := [⟨0, 0, 2 ^ 20, 0, false, true, true, true⟩] }
def cpHas (s : State) (p : Copy → Instr → CopyRun → Bool) (b : Bool := false) : Bool :=
  match copyOf? s 0 b 1 with
  | some x => (match x.cmd with
    | some i => (match engineOf s 0 b x i with | some e => copyLive s 0 b x && mayGo s 0 b x && p x i e | none => false)
    | none => false)
  | none => false

theorem test_witness_CopyQueues : storesMove memS = true ∧ storesMove (workS .copy 1 false) = true ∧
    coreHas memS (fun k => decide (decodeFate .copy (edisOf memS k.ctx) [0, 0, 0] = .run .copyNop)) = true ∧
    (match decodeFate .copy 0 [0x01000000, 0, 0] with | .run i => !i.retired && !bulkCmd i && decide (i ≠ .copyNop) | _ => false) = true ∧
    (match decodeFate .copy 0 [0x7F000000, 0, 0] with | .emulate _ _ => true | _ => false) = true ∧ (memS.hand 0).near.length < 64 ∧ bulkHeld memS 0 < 16 ∧
    coreHas (workS .copy 1 false) (fun k => decide ((checkTarget (workS .copy 1 false) k.ref.hand k.tm.ctx k.th.img .copy true (k.th.rx 1)).2 = .ok)) = true := by decide

/-- A copy whose writes have performed but for one, of 64 bytes to peer 2, and that peer's answer. -/
def askS (reply : Option (Nat × List Byte)) : State :=
  { cpAt (.cpG2g cw) (fun x => { x with performed := true }) with
    weave := { State.reset.weave with reqs := [⟨5, .copy 0 true 1, 0, 3, 2, 64, .store (List.replicate 64 0), reply⟩] } }
theorem test_witness_CopyQueues_peer :
    (copyAsks (askS none) (.copy 0 true 1)).any (fun r => r.reply.isNone) = true ∧
    (copyAsks (askS (some (FaultCode.pagePerm.code, []))) (.copy 0 true 1)).any (fun r => decide (r.says = .fault .pagePerm)) = true ∧
    copyAsks (askS (some (0, []))) (.copy 0 true 1) = none ∧ isParked (askS none) (.copy 0 true 1) = false ∧
    ((askS none).thread? ⟨0, 0, 0⟩).isSome = true ∧
    isParked (parkAgent (askS none) 0 (.copy 0 true 1) 64 none) (.copy 0 true 1) = true := by decide
theorem test_witness_CopyQueues_entries :
    (let s := cpAt (.cpG2p cw) id
     (copyQueue s 0 false).any (fun x => !x.issued && copyLive s 0 false x && mayGo s 0 false x)) = true ∧
    (let s := cpAt (.cpToring cw 7) fun x => { x with performed := true, rows := [(0, 0)], rowB := 64 }
     (copyOf? s 0 false 1).any (fun x => x.performed && x.bad.isNone && x.chain.isNone && (s.team? ⟨0, x.slot⟩).isSome)) = true ∧
    (let s := cpAt (.cpToring cw 7) (fun x => { x with performed := true }) fun tm => { tm with rings := [(7, ⟨true, 0, 2, 4, 0, 4⟩)] }
     (s.team? ⟨0, 0⟩).any fun tm => (ringOf tm 7).valid && decide ((ringOf tm 7).n ≤ ((ringOf tm 7).t - (ringOf tm 7).h).toNat)) = true ∧
    (let s := cpAt (.cpG2p cw) fun x => { x with performed := true, chain := some ⟨17, false, false⟩ }
     (copyOf? s 0 false 1).any fun x => x.performed && x.chain.isSome && !x.cancelled && x.bad.isNone) = true ∧
    (cpAt (.cpG2p cw) fun x => { x with performed := true }).cur = .copy 0 false 1 ∧
    (let s := cpAt (.cpG2p cw) fun x => { x with bad := some (.poison, 0, 0, 0) }
     (copyOf? s 0 false 1).any (fun x => x.bad.isSome && (s.thread? ⟨0, x.slot, x.role⟩).any fun th => decide (th.wait ≠ .exited))) = true ∧
    (let s := placeWord State.reset .copy (toBytes 12 0)
     (copyOf? s 0 false 1).any (fun x => x.cmd.isNone && x.chain.isSome && copyLive s 0 false x)) = true := by decide

/-- A command whose argument record at 256 gives the words. -/
def argS (i : Instr) (ws : List Nat) : State := { cpAt i fun x => { x with arg := 256 } with mem := Memory.write [] 256 (ws.flatMap (toBytes 8)) }
/-- The record is read, and `p` holds of the state after it. -/
def argHas (i : Instr) (ws : List Nat) (p : State → Copy → CopyRun → Bool) : Bool :=
  cpHas (argS i ws) (fun x _ e => !x.issued && !x.cancelled && x.chain.isNone &&
    match rangeRead e.actor (copySite e) (copyFrom e 0) 0 (copyWord i).scope.toNat 0 256
        (pieces 64 256 32) (releaseAt (argS i ws) 0 (copyWord i).scope.toNat) with
    | (u, .ok bs) => decide (bs.map (·.1) = ws.flatMap (toBytes 8)) && (bs.all fun b => !b.2) && p u x e
    | _ => false) (bulkCmd i)
theorem test_witness_CopyCommands_issue :
    argHas (.cpG2p cw) [512, 1024, 64 + 2 ^ 32, 0] (fun u _ e => decide (rowsFault u e 64 [(512, 1024)] = none)) = true ∧
    argHas (.cpG2p cw) [512, 0x3FD800, 64 + 2 ^ 32, 0] (fun u _ e => decide (rowsFault u e 64 [(512, 0x3FD800)] ≠ none)) = true ∧
    argHas (.cpFill cw 7) [1, 1024, 64 + 2 ^ 32, 0] (fun u _ e => decide (rowsFault u e 64 [(1, 1024)] = none)) = true ∧
    argHas (.cpReduce cw 2) [512, 1024, 64 + 2 ^ 32, 0] (fun u _ e => decide (rowsFault u e 64 [(512, 1024)] = none) &&
      (match linesTaken e (fragsOf (.cpReduce cw 2) e.th.lseg.base 64 [(512, 1024)]) u with
        | (v, ls) => decide (ls = [8]) && !otherHolds v 1 (.dev 1024) 128 &&
            otherHolds (v.updHand 1 fun h => { h with near := [{ wordCopy with id := 7, owned := [8] }] }) 1 (.dev 1024) 128)) = true ∧
    argHas (.cpRows cw 1) [512, 1024, 64 + 64 * 2 ^ 32, 2 ^ 52] (fun u _ e => decide (copyForm u e.actor 0 0 4 true (2 ^ 52) = some .addrForm)) = true ∧
    argHas (.cpRows cw 1) [512, 1024, 64 + 64 * 2 ^ 32, 768] (fun u _ e => match copyRead u e 0 768 4 with
      | (v, .ok ib) => decide (ib.map (·.1) = [0, 0, 0, 0] ∧ rowsFault v e 64 [(512, 1024)] = none) | _ => false) = true := by decide +kernel

theorem test_witness_CopyCommands_toring :
    (let s := { cpAt (.cpToring cw 7) (fun x => { x with arg := 256 }) (fun tm => { tm with rings := [(7, ⟨true, 0, 2, 4, 0, 0⟩)] }) with
        mem := Memory.write [] 256 ([512, 0, 64 + 2 ^ 33, 64].flatMap (toBytes 8)) }
     cpHas s (fun _ _ e => let g := ringOf e.tm 7
       g.valid && decide (64 * 2 ≤ 64 * g.z ∧ 64 * g.z < 64 * 3) && decide (rowsFault s e 64 [(512, 0), (576, 64)] = none))) = true ∧
    cpHas (cpAt (.cpToring cw 6) id) (fun _ _ e => !(ringOf e.tm 6).valid) = true := by decide

/-- An issued command with one piece left. -/
def oneS (i : Instr) (g : Team → Team) : State := cpAt i (fun x => { x with issued := true, rows := [(512, 1024)], rowB := 64 }) g
theorem test_witness_CopyCommands_write :
    cpHas (oneS (.cpG2p cw) id) (fun x _ e => decide ((copyPieces e).drop x.pos = [((512, 1024), 0, 64)]) &&
      (match fragTarget (oneS (.cpG2p cw) id) e (512, 1024) 0 64 with
        | (u, .ok t) => decide (t = .scratch 0 1024) && (match fragBytes u e (512, 1024) 0 64 with | (_, .ok bs) => bs.all fun b => !b.2 | _ => false) | _ => false)) = true ∧
    cpHas (oneS (.cpReduce cw 2) id) (fun x _ e => decide ((copyPieces e).drop x.pos = [((512, 1024), 0, 64)]) &&
      (match fragTarget (oneS (.cpReduce cw 2) id) e (512, 1024) 0 64 with | (u, .ok (.dev _)) => (match fragBytes u e (512, 1024) 0 64 with | (_, .ok _) => true | _ => false) | _ => false)) true = true ∧
    -- one element of a REDUCE, alone in its line, that nothing forbids
    cpHas (cpAt (.cpReduce cw 2) fun x => { x with issued := true, rows := [(512, 1024)], rowB := 4 }) (fun x _ e =>
      let s := cpAt (.cpReduce cw 2) fun x => { x with issued := true, rows := [(512, 1024)], rowB := 4 }
      decide ((copyPieces e).drop x.pos = [((512, 1024), 0, 4)]) && (match fragTarget s e (512, 1024) 0 4 with
        | (u, .ok t) => (match fragBytes u e (512, 1024) 0 4 with
          | (v, .ok bs) => decide (t = .dev 1024 ∧ bs.length = 4 ∧ partFault v e ⟨(512, 1024), rowDest s e 1024, t, bs, 512, 0⟩ = none) && bs.all fun b => !b.2
          | _ => false)
        | _ => false)) true = true ∧
    cpHas (oneS (.cpToring cw 7) fun tm => { tm with rings := [(7, ⟨true, 0, 1, 2, 3, 5⟩)] }) (fun _ _ e => decide ((ringOf e.tm 7).n ≤ (ringOf e.tm 7).occ)) = true := by decide

/-! ### Witnesses of the statements on teams, the front end, the host, the dies and the platform -/

/-- The machine with context 0 on hand 0 and no team, every low address mapped to itself there and on die 0; context and hands are of tenant 0xFF. -/
def feS (mem : List Host.Cell) : State :=
  { State.reset with
    ctxs := [(0, wordCtx)], mem := mem, hostMem := [(5, 0xFF)], hands := [(0, { State.emptyHand with tlb := [⟨0, 0, 2 ^ 20, 0, false, true, true, true⟩] })],
    dies := [(0, { State.emptyDie with tlb := [⟨0, 0, 2 ^ 20, 0, false, true, true, true⟩] })] }
/-- A LAUNCH packet, or a template: image 0, one team, its launch record in the packet with role 0, its map at 0x8000. -/
def pktL (typ len : Nat) : List Byte :=
  toBytes 1 typ ++ toBytes 1 0 ++ toBytes 2 len ++ toBytes 4 1 ++ toBytes 4 0 ++ toBytes 4 4 ++ toBytes 8 5 ++ toBytes 8 6 ++
    (if typ = 1 then toBytes 2 1 ++ toBytes 2 1 ++ toBytes 2 1 ++ toBytes 1 1 else toBytes 7 0) ++ toBytes 1 0 ++ toBytes 8 0x8000 ++
    List.replicate (196 - 48) 0 ++ toBytes 1 1 ++ List.replicate (256 - 197) 0
/-- A placement map that names node 0 of each die for all its nodes (two logical nodes may name one hand, R315). -/
def mapL : List Byte := [0, 1, 2, 3] ++ List.replicate 316 0
/-- The launch of that packet. -/
def launchL : Launch := launchOf 0 0 1 0 false (pktL 1 4) (List.replicate 4 0 ++ ((pktL 1 4).drop 164).take 60) mapL
/-- A team of it that waits for hand 0. -/
def waitL : Waiting :=
  { launch := 0, ctx := 0, img := 0, entry := 17, x := [5], teamNo := some 3, gridpos := 0, wgt := 1, wroot := 0, evstack := [], hands := [0],
    batch := none, gang := false, out := none }
/-- The launch is under way and its team waits; the image's page is on the hand. -/
def startS : State :=
  { (feS []).updHand 0 fun h => { h with imem := [(imemKey 0 0 0, List.replicate 64 0)], maps := [(imageKey 0 0, mapL)] } with
    launches := [(0, launchL)], waiting := [waitL] }
theorem test_witness_TeamLifecycle_start :
    handFor startS waitL = some 0 ∧ (startS.hand 0).maps.get? (imageKey launchL.ctx launchL.img) = some launchL.map ∧ freeSlot startS 0 = some 0 ∧ (startS.launches.get? waitL.launch).isSome = true ∧
    (imageOf startS 0 0).any (fun im => im.constFirst = 0 && (List.range (im.lines / 64 + 1)).all fun p => pageResident startS 0 0 0 p) = true ∧
    startS.team? ⟨0, 1⟩ = none ∧ (bankOf startS 0 1).armed = false ∧ (0x8000000000000000 : W64).getLsbD 63 = true ∧
    handFor { startS with launches := [] } waitL = none ∧ handRuns startS 0 = true ∧ (mailboxAt startS 0 1).length = 10 ∧
    startS.launches.get? (bits (0x8000000000000005 : W64) 31 0) = none ∧ gangHolds startS 0 0 = false ∧ mailboxArmed startS 0 1 = false ∧
    gangHolds { startS with waiting := [{ waitL with gang := true }] } 1 0 = true ∧
    (let s := startS.updHand 0 fun h => { h with banks := [(1, ⟨[], true, 0, [], false⟩)] }
     (bankOf s 0 1).armed = true ∧ (bankOf s 0 1).regs.get? 0 = none ∧ s.team? ⟨0, 1⟩ = none ∧ fits (s.updHand 0 fun x => { x with banks := x.banks.erase 1 }) 0 launchL = true) := by decide +kernel

/-- A team of the launch on hand 0, another launch's waiting for the hand. -/
def teamS (f : Team → Team) (g : Group → Group) (slice : Nat) : State :=
  { withGroup 0 (g State.emptyGroup) (ccAt id f) with launches := [(0, { launchL with slice := slice })], waiting := [{ waitL with launch := 1 }],
                                                      hands := [(0, { State.emptyHand with tenant := 0 })] }
theorem test_witness_TeamLifecycle_end :
    (let s := teamS (fun tm => { tm with ending := true }) id 0
     (s.team? ⟨0, 0⟩).any (fun tm => tm.ending && teamDrained s ⟨0, 0⟩ tm && tm.wroot = 0 && tm.signals.isEmpty && tm.evstack.isEmpty) = true ∧
       isParked s (.stream ⟨0, 0⟩) = false ∧ s.eventsFull = false) ∧
    (let s := teamS (fun tm => { tm with evstack := [(256, 256)] }) (fun g => { g with outst := [{ badO with bad := some (.cellFailed, 0, 0, 0) }] }) 1
     (teamGroups s ⟨0, 0⟩).any (fun g => (cellFaultOf s g).isSome) = true ∧ wanted s 0 0 = true ∧
       (s.team? ⟨0, 0⟩).any (fun tm => !tm.ending && !tm.gang && !tm.evstack.isEmpty && !teamDrained s ⟨0, 0⟩ tm) = true) ∧
    ((teamS id id 1).launches.get? 0).any (fun l => l.slice ≠ 0) = true ∧ wanted { teamS id id 1 with waiting := [] } 0 0 = false ∧
    ((teamS (fun tm => { tm with slicing := true }) id 1).team? ⟨0, 0⟩).any (·.slicing) = true ∧
    teamQuiet (teamS id id 1) ⟨0, 0⟩ = true ∧ teamQuiet (teamS id (fun g => { g with run := some wordRun }) 1) ⟨0, 0⟩ = false := by decide +kernel

theorem test_witness_TeamLifecycle_rest :
    (memS.thread? ⟨0, 0, 0⟩).isSome = true ∧ (laneS.group? ⟨0, 0, 0, 0⟩).isSome = true ∧
    (let w : Waiting := { waitL with evstack := [(256, 256)] }
     homeDie 256 = 0 ∧ (readHeader { feS [] with events := [] } 0 0).2.isSome = true ∧ (readHeader { feS [] with events := [] } 0 1).2 = none ∧
       w.evstack.getLast? = some (256, 256) ∧ lineIs { feS [] with mem := Memory.write [] 64 (wordLine .cc []) } 0 wordImage (w.entry / 16) 0 true = true ∧
       lineIs (feS []) 0 wordImage 0 0 true = false) ∧
    State.reset.cores ≠ 0 ∧ imageStop (feS []) 0 0 = none ∧
    (imageStop { feS [] with dies := [(0, { State.emptyDie with state := .drained })] } 0 0).isSome = true ∧
    (let s : State := { State.reset with dies := [(0, { State.emptyDie with state := .resetting })] }; (s.die (homeDie 256)).state ≠ .online) ∧
    (teamS (fun tm => { tm with slicing := true }) id 1 |>.team? ⟨0, 0⟩).any (fun tm =>
      tm.slicing && (sliceTeams (teamS (fun tm => { tm with slicing := true }) id 1) ⟨0, 0⟩ tm).all fun r =>
        !wanted { teamS (fun tm => { tm with slicing := true }) id 1 with waiting := [] } r.hand tm.launch) = true := by decide +kernel

/-- Queue 0 of context 0, its ring at 0x4000, mapped to slot 2, with a packet of the type at its head. -/
def queueL (n : Nat) : Queue :=
  { enabled := true, fn := 0, ring := 0x4000, size := 64, ctx := 0, basePri := 3, pri := 3, age := 0, priv := true, cbase := 0x9000, csize := 16, vec := 0,
    a := n, d := 0, expected := 1, lastTaken := 0, stopped := false, ccount := 0, errs := [], since := 0, busy := false, pend := [] }
def pktS (typ len : Nat) (body : List Byte) : State :=
  let p := if typ = 1 || typ = 2 then pktL typ len else (toBytes 1 typ ++ toBytes 1 0 ++ toBytes 2 len ++ toBytes 4 1 ++ body ++ List.replicate 128 0).take (64 * len)
  { feS (Memory.write (Memory.write [] 0x4000 p) 0x8000 mapL) with queues := [(0, queueL len)], slots := [(2, ⟨some 0, 0, 0, false, 0⟩)] }
/-- The head of the queue is a packet of that type and `p` holds of the state after its reading. -/
def pktHas (s : State) (typ : Nat) (p : State → List Byte → Bool) : Bool :=
  decide (slotOf s 0 = some 2) && decide (s.launches = []) && (match s.queues with | [(0, x)] => !partlyDone x && x.pend.isEmpty | _ => false) &&
    match headOf s 0 with | (u, .packet b) => decide (pktType b = typ) && p u b | _ => false
/-- A packet as it is taken. -/
def pktN (typ : Nat) (data : List Byte) : Pkt :=
  { id := 1, seq := 1, typ := typ, slot := 2, bar := false, compl := false, user := 0, started := false, data := data, launch := none, ofs := 64 }
theorem test_witness_Packets :
    pktHas (pktS 0 1 []) 0 (fun _ _ => true) = true ∧ pktHas (pktS 3 1 (toBytes 8 0x100 ++ toBytes 8 7)) 3 (fun u b => (feSignal u 0 (le64 b 8) (le64 b 16)).2.isNone && decide (pktStop u 0 (pktN 3 b) = none)) = true ∧
    pktHas (pktS 4 1 (toBytes 8 0x100)) 4 (fun u b => match (feRead u 0 (le64 b 8) 8).2 with | .ok _ => true | _ => false) = true ∧
    pktHas (pktS 4 1 (toBytes 8 0x100000)) 4 (fun u b => match (feRead u 0 (le64 b 8) 8).2 with | .fault _ => true | _ => false) = true ∧
    pktHas (pktS 5 1 (toBytes 8 0 ++ toBytes 8 0x1000)) 5 (fun _ _ => true) = true ∧
    pktHas (pktS 6 2 (toBytes 2 0xFFF)) 6 (fun u b => decide (pktStop u 0 (pktN 6 b) = none)) = true ∧
    pktStop { feS [] with dies := [(3, { State.emptyDie with state := .drained })] } 0 (pktN 6 (List.replicate 8 0 ++ toBytes 2 0xC00)) = some (0, .offline 3) ∧
    pktStop { feS [] with dies := [(0, { State.emptyDie with state := .drained })] } 0 (pktN 3 (toBytes 8 0 ++ toBytes 8 256 ++ toBytes 8 7)) = some (256, .offline 0) ∧
    (let s := (feS []).updHand 0 fun h => { h with near := [{ wordCopy with owned := [2] }] }
     (feRead { s with cur := .device } 0 256 8).2 = .later) ∧
    slotOf (feS []) 0 = none := by decide +kernel

/-- A LAUNCH that passes its checks, and one refused with FIELD; the template of an OPCHAIN is checked by the first with no grid to count. -/
theorem test_witness_Packets_launch :
    pktHas (pktS 1 4 []) 1 (fun u b => match checkLaunch u 0 2 1 0 false true true b with
      | (v, .ok l) => !imageTooBig (acceptLaunch v l).1 0 0 | _ => false) = true ∧
    pktHas (pktS 2 4 []) 2 (fun _ _ => true) = true ∧
    pktHas { pktS 1 4 [] with ctxs := [(0, { wordCtx with images := [] })] } 1 (fun u b => match checkLaunch u 0 2 1 0 false true true b with | (_, .error c) => decide (c = 6) | _ => false) = true := by
  decide +kernel

/-- A packet that has started. -/
def pktP (typ : Nat) (data : List Byte) (n : Option Nat) (ofs : Nat) : Pkt :=
  { id := 1, seq := 1, typ := typ, slot := 2, bar := false, compl := false, user := 0, started := true, data := data, launch := n, ofs := ofs }
def pendS (p : Pkt) : State := { feS [] with queues := [(0, { queueL 4 with pend := [p] })], slots := [(2, ⟨some 0, 0, 0, false, 0⟩)], launches := [(0, launchL)] }
theorem test_witness_TeamLifecycle_complete : packetOf (pendS (pktP 1 (pktL 1 4) (some 0) 256)) launchL 0 = some (pktP 1 (pktL 1 4) (some 0) 256) ∧
    launchL.chain = false ∧ launchL.posted = false ∧ launchBusy (pendS (pktP 1 (pktL 1 4) (some 0) 256)) 0 = false ∧ launchBusy startS 0 = true ∧
    (pktL 1 4).length ≤ 256 ∧ launchL.sigFault = none := by decide +kernel

/-- A record of one GO step for logical hand 0. -/
def goRec : List Byte := toBytes 2 1 ++ List.replicate 30 0 ++ toBytes 1 1 ++ List.replicate 31 0
theorem test_witness_FrontEndRounds :
    (queueL 4).enabled = true ∧ (64 : W64).toNat - (queueL 4).d ≤ (queueL 4).size ∧ (queueL 4).a < (64 : W64).toNat ∧ (queueL 4).size < (65 : W64).toNat - (queueL 4).d ∧
    11 < State.reset.cores ∧ State.reset.cores ≤ 12 ∧ State.reset.events = [] ∧ hasWork (pktS 0 1 []) 0 = true ∧
    (let s := noteAll (pktS 0 1 [])
     servedSlot (postErrors (mapOne (s.queues.keys.foldl (ageQueue · 4096 ·) s))) = some (2, 0)) ∧ servedSlot (postErrors (mapOne (feS []))) = none ∧
    coreHas { memS with queues := [(0, queueL 4)] } (fun k => decide (drainStop memS k = none) &&
      decide ((threadRelease { memS with queues := [(0, queueL 4)] } k 3).queues.get? 0 = some (queueL 4))) = true ∧
    coreHas (stuck memS) (fun k => (drainStop (stuck memS) k).isSome) = true ∧
    accessesBefore laneS ⟨0, 0, 0, 0⟩ 0 = true ∧ accessesBefore (laneAt fun g => { g with outst := [storeO] }) ⟨0, 0, 0, 0⟩ 1 = false ∧
    (match headOf (pktS 0 1 []) 0 with | (_, .packet p) => decide (pktType p = 0) | _ => false) = true ∧
    (match headOf { pktS 0 1 [] with dies := [(0, { State.emptyDie with state := .drained })] } 0 with | (_, .refused _ d) => decide (d = 0) | _ => false) = true ∧
    (match headOf { pktS 0 1 [] with queues := [(0, { queueL 4 with expected := 2 })] } 0 with | (_, .error ..) => true | _ => false) = true ∧
    (opRecord goRec).isSome = true ∧ opRecord (List.replicate 64 0) = none ∧ mapNode launchL.map 0 0 = some 0 ∧
    (pendS (pktP 2 (pktL 2 5 ++ goRec) (some 0) 256)).queues.any (fun q => (q.2.pend.find? fun p => p.typ = 2 && p.ofs < p.data.length).isSome) = true ∧
    waitHolds 0 0 0 = true ∧ waitHolds 1 0 1 = false ∧ (feRead (pendS (pktP 4 (List.replicate 64 0) none 64)) 0 0 8).2 = .ok (List.replicate 8 0) := by decide +kernel

/-- Bin 5 of die 0 by its row of the bin table at 0: backing store 0x2000, capacity 4, coalescing count 2, enabled; with records. -/
def binS (n : Nat) : State :=
  { feS (Memory.write [] (32 * 5) (toBytes 8 0 ++ toBytes 8 0x2000 ++ toBytes 2 4 ++ toBytes 1 2 ++ toBytes 1 1)) with
    dies := [(0, { State.emptyDie with tlb := [⟨0, 0, 2 ^ 20, 0, false, true, true, true⟩], bins := [(5, ⟨n, 0, [], true, 0, List.replicate n none⟩)] })] }
theorem test_witness_FrontEndRounds_bins :
    binFull (binS 4) 0 5 = true ∧ binFull (binS 3) 0 5 = false ∧ binField (flushAll (binS 3)) 0 5 19 1 % 2 = 1 ∧ (feWrite (flushAll (binS 3)) 0 0x20C0 (List.replicate 64 0)).2 = .ok [] ∧
    binStop (binS 3) 0 5 0 = none ∧ binStop (binS 4) 0 5 0 = some .waits ∧
    binReady (binS 0) 0 5 = false ∧ binReady (binS 2) 0 5 = true ∧ binField (binS 2) 0 5 18 1 ≤ (binOf (binS 2) 0 5).count ∧ (binOf (binS 1) 0 5).timer = true ∧
    binReady (binS 1) 0 5 = true := by decide +kernel

/-- A command at the head of the physical function's ring at 0x100000: opcode, operand, the bytes behind it. Context 0 is valid in the table at 0. -/
def cmdS (op v : Nat) (rest : List Byte) (f : State → State) : State :=
  f { feS [] with
    hostMem := Memory.write (Memory.write [] 5 [0xFF, 1]) 0x100000 ((toBytes 8 0 ++ toBytes 8 op ++ toBytes 8 v ++ rest ++ List.replicate 64 0).take 64),
    fns := [(0, { State.emptyFn true with cmdBase := 0x100000, cmdSize := 16, cmdWi := 1, qtBase := 0x200000 })] }
def cmdHas (s : State) (op : Nat) (p : List Byte → Bool) : Bool :=
  match nextCommand s 0 with | some c => decide (le c 8 2 = op) && !commandBad c && p c | none => false
def recU (a : Agent) (c : FaultCode) : Unresolved := ⟨9, c, .t, a, false⟩
theorem test_witness_HostCommands_records :
    (let s := cmdS 1 9 [] fun s => { s with ctxs := [(0, { wordCtx with unresolved := [recU (.thread ⟨0, 0, 0⟩) .trap] })] }
     cmdHas s 1 (fun _ => true) = true ∧ findRecord s 9 = some (0, recU (.thread ⟨0, 0, 0⟩) .trap)) ∧
    cmdHas (cmdS 2 9 [] id) 2 (fun _ => true) = true ∧ findRecord (cmdS 3 9 [] id) 9 = none ∧ nextCommand State.reset 0 = none ∧
    (nextCommand (cmdS 13 0 [] id) 0).any commandBad = true := by decide +kernel

theorem test_witness_HostCommands_contexts :
    cmdHas (cmdS 4 0 [] id) 4 (fun _ => ctxLive (cmdS 4 0 [] id) 0) = true ∧ cmdHas (cmdS 7 1 [] id) 7 (fun _ => !ctxLive (cmdS 7 1 [] id) 1) = true ∧
    cmdHas (cmdS 8 0 [] id) 8 (fun _ => ctxQuiet (cmdS 8 0 [] id) 0 && decide (teamsDrainStop (cmdS 8 0 [] id) (teamsOf (cmdS 8 0 [] id) 0) = none) && ((cmdS 8 0 [] id).ctx? 0).any fun x => !x.ended && x.out.isNone) = true ∧
    (let s := cmdS 9 0 (toBytes 8 0x8000) fun s => { s with ctxs := [(0, { wordCtx with out := some [] })], mem := Memory.write [] 0x8000 mapL }
     cmdHas s 9 (fun _ => match feUnits s 0 0x8000 5 with | (t, .ok m) => placeable t 0 m && (switchIn t 0 m []).isSome | _ => false) = true) := by decide +kernel

theorem test_witness_HostCommands_queues :
    (let s := cmdS 5 0 [1] fun s => { s with hostMem := Memory.write s.hostMem 0x200000 (toBytes 8 0x4000 ++ toBytes 4 64 ++ toBytes 2 0 ++ toBytes 2 0 ++ toBytes 8 0x9000 ++ toBytes 4 16) }
     cmdHas s 5 (fun c => decide (le c 24 1 = 1) && queueRecordOk s (queueRecord s 0) && decide (ctxField s 0 6 1 % 2 = 1)) = true) ∧
    cmdHas (cmdS 5 0 [0] fun s => { s with queues := [(0, queueL 4)] }) 5 (fun c => decide (le c 24 1 = 0)) = true ∧
    (let s := cmdS 6 0 (toBytes 8 4 ++ toBytes 4 7) fun s => { s with queues := [(0, { queueL 4 with stopped := true })] }
     cmdHas s 6 (fun c => decide ((le64 c 24).toNat = 4 ∧ le c 32 4 = 7)) = true ∧ ownsQueue s 0 0 = true) ∧
    cmdHas (cmdS 10 0 [3] id) 10 (fun _ => (cmdS 10 0 [3] id).enabled 0) = true ∧ cmdHas (cmdS 11 3 [] id) 11 (fun _ => true) = true ∧
    cmdHas (cmdS 12 3 [] id) 12 (fun _ => true) = true ∧ (cmdS 12 0 [] fun s => { s with dies := [(1, { State.emptyDie with state := .drained })] }).dies.any (fun d => d.2.state ≠ .online) = true := by
  decide +kernel

theorem test_witness_HostCommands_waits :
    (let s := stuck (cmdS 8 0 [] fun s => { memS with hostMem := s.hostMem, fns := s.fns })
     ctxQuiet s 0 = true ∧ (teamsDrainStop s (teamsOf s 0)).isSome = true) ∧
    (let s := (cmdS 9 0 (toBytes 8 0x8000) fun s => { s with ctxs := [(0, { wordCtx with out := some [] })] }).updHand 0 fun h =>
       { h with near := [{ wordCopy with owned := [0x8000 / 128] }] }
     (s.ctx? 0).any (fun x => x.out.isSome) = true ∧ (feUnits s 0 0x8000 5).2 = .later) ∧
    ({ State.reset with hostAbsent := [0x200] } : State).hostAbsent.any (fun p => decide ((0x200000 + 64 * 0 + 0) / 4096 = p)) = true := by decide +kernel

theorem test_witness_HostCommands_functions : (State.reset.fn 0).enabled = true ∧ exposed State.reset = true ∧ exposed { State.reset with collar := { State.emptyCollar with recovery := true } } = false ∧
    ({ State.emptyFn true with window := [3], flagged := [3], unmasked := [3] } : Fn).window.Nodup ∧ (State.reset.fn 1).enabled = false ∧ ringSize 4096 = 4096 ∧
    (0 : W64).toNat ≤ (4096 : W64).toNat ∧ 4096 < (4097 : W64).toNat - (0 : W64).toNat ∧ 0 < vectorCount 0 ∧
    ({ State.emptyFn true with pendingV := [0], unmasked := [1], flagged := [1] } : Fn).unmasked.contains 0 = false ∧ (State.reset.die 3).slot ≠ 63 ∧
    ({ State.emptyDie with slot := 63 } : Die).slot = 63 := by decide

/-- Die 3 in a state, joining with epoch 2. -/
def dieS (x : DieState) (acks route : List Nat) : State :=
  { State.reset with dies := [(3, { State.emptyDie with state := x, joined := true, acks := acks, route := route })] }
theorem test_witness_Dies :
    ((dieS .quiescing [] []).die 3).state = .quiescing ∧ ((dieS .quiescing [] []).die 3).leaving = [] ∧ copyHolds State.reset (.dev 256) 8 = false ∧ firstToLeave (dieS .drained [] []) 3 = true ∧ ((dieS .drained [] []).die 3).held = [] ∧
    firstToLeave { State.reset with dies := [(3, { State.emptyDie with state := .drained }), (0, { State.emptyDie with state := .drained })] } 3 = false ∧
    joining (dieS .readmitting [4] []) 3 2 = true ∧ joining (dieS .readmitting [4] []) 3 1 = false ∧ ((dieS .readmitting [4] [4]).die 3).acks.erase 4 = [] ∧
    (let s : State := { State.reset with ctxs := [(0, { wordCtx with parked := [⟨.thread ⟨0, 0, 0⟩, 0, 0, some 3, false, true⟩] })] }
     (offlineParks s).length = 1 ∧ answers s 3 = true ∧ answers { s with dies := (dieS .drained [] []).dies } 3 = false) ∧
    (let s : State := { State.reset with dies := [(3, { State.emptyDie with restart := [waitL] })] }
     (restarts s)[0]? = some (3, waitL) ∧ (s.die 3).restart.filter (fun y => decide (y = waitL)) = [waitL]) ∧
    hostRefused (dieS .drained [] []) ⟨0, 3 * 2 ^ 38, 8, none⟩ = true ∧ dieRefuses State.reset (homeDie (2 ^ 39)) = false ∧
    (let s := { memS with launches := [(0, { launchL with failover := true })] }
     teamsOnDie s 0 = [⟨0, 0⟩] ∧ (s.team? ⟨0, 0⟩).any (fun tm => restartable s tm && !tm.gang) = true ∧ teamGroups s ⟨0, 0⟩ = [] ∧
       (s.thread? ⟨0, 0, 0⟩).any (·.buffer.isEmpty) = true) ∧ routed State.reset (homeDie (2 ^ 39)) 0 = true := by decide +kernel

/-- Which images a signature verifies is open (`Config.signatureValid`), so the clauses on both answers are met by one image or another. -/
theorem test_witness_Platform :
    State.reset.collar.restarting = false ∧ ({ State.emptyDie with railMv := 20, clkPlan := 2450 } : Die).railMv ≤ 20 ∧
    ({ State.emptyDie with railMv := 25, clkPlan := 2400, fclkPlan := 1650 } : Die).clkPlan < 2450 ∧ 20 < ({ State.emptyDie with railMv := 25, fclkPlan := 1600 } : Die).railMv ∧
    State.reset.collar.cap * 95 ≤ 14250 * 100 ∧ 15000 ≤ State.reset.collar.cap ∧ State.reset.collar.cap < 15001 ∧ 14249 * 100 < State.reset.collar.cap * 95 ∧
    11 < State.reset.cores ∧ (2303 : Nat) < 2304 ∧ 0 ∈ State.reset.weave.ports ∧ 35 ∈ State.reset.weave.ports ∧ 36 ∉ State.reset.weave.ports ∧
    powered State.reset = true ∧ powered { State.reset with collar := { State.emptyCollar with railsOn := false } } = false ∧
    (let e : ExportEntry := ⟨0x10000, 0x10000, 0, 0, true, false, false, some 7⟩
     let s := { feS [] with weave := { State.reset.weave with devNum := some 1, exports := [(0, e)] } }
     exportFor s ⟨7, 0x10000, .load 8⟩ = some e ∧ exportCheck e ⟨7, 0x10000, .load 8⟩ = 0 ∧ exportCheck e ⟨6, 0x10000, .load 8⟩ ≠ 0 ∧ ctxOfPasid s 0 = some 0 ∧
       (checkVirtual s 0 (ioHand 0) false .load 0 false).2 = .ok (.dev 0) ∧ heldBefore s ⟨7, 0x10000, .load 8⟩ = false ∧
       heldBefore { s with weave := { s.weave with held := [(0, 3, ⟨7, 0x10008, .load 8⟩)] } } ⟨7, 0x10000, .load 8⟩ = true ∧ copyHolds s (.dev 0) 8 = false ∧
       (checkVirtual { s with dies := [(0, { State.emptyDie with state := .drained }), (1, { State.emptyDie with state := .drained })] } 0 (ioHand 0) false .load 0 false).2 ≠ .ok (.dev 0) ∧ exportFor s ⟨7, 0x1FFF9, .load 8⟩ = none) := by decide +kernel

/-- A request of peer 2 that nobody has answered, and its flits. -/
def askedS (reply : Option (Nat × List Byte)) : State :=
  { State.reset with weave := { State.reset.weave with
      devNum := some 1, routes := [(2, 0)], unreachable := [3], reqs := [⟨5, .thread ⟨0, 0, 0⟩, 0, 0, 2, 64, .load 8, reply⟩],
      buffer := [⟨0, 1, 2, 0, 7, true, .request 5 ⟨1, 64, .load 8⟩⟩] } }
theorem test_witness_Platform_weave :
    ((askedS none).weave.reqs.filter fun r => r.reply = none)[0]?.isSome = true ∧
    ((askedS none).weave.reqs.filter fun r => r.reply = none)[1]? = none ∧ ((askedS (some (0, []))).weave.reqs.all fun r => r.dev ≠ 2 || decide (r.reply ≠ none)) = true ∧
    (askedS none).weave.reqs.any (fun r => r.dev = 2 && decide (r.reply = none)) = true ∧ (3 : Nat) ∈ (askedS none).weave.unreachable ∧
    (askedS none).weave.expectSeq.getD 0 0 = 0 ∧ (askedS none).weave.devNum = some 1 ∧
    (⟨0, 2, 1, 0, 7, true, .replay⟩ : Flit).body = .replay ∧ (⟨0, 2, 1, 0, 4096, true, .reply 5 0 []⟩ : Flit).seq % 4096 = 0 ∧
    (⟨0, 2, 1, 0, 0, true, .request 9 ⟨2, 0, .load 8⟩⟩ : Flit).body ≠ .replay ∧ (2 ^ 20 ≤ 2 ^ 30) ∧
    exposed State.reset = true ∧ exposed { State.reset with collar := { State.emptyCollar with recovery := true } } = false ∧
    ({ State.emptyCollar with unreported := [4] } : Collar).unreported ≠ [] ∧ ({ State.emptyCollar with copying := [(3, 63)] } : Collar).copying.contains (3, 63) = true ∧
    State.emptyCollar.pendingReq = [] ∧ ({ State.emptyDie with clkPow := 3550, fclkPow := 2350, hot := [7] } : Die).hot.filter (fun x => x ≠ 7) = [] := by decide

theorem test_witness_ContextEvents_loads :
    (∀ e < 3, (((feS []).hand 0).imem.countP fun l => lineEngine l.2 = e) + 64 ≤ imemLines e) ∧
    (match relocTable 0 0 wordImage 0 0 (feS []) with | (_, .ok rs) => decide (rs = []) | _ => false) = true ∧
    (match relocTable 0 0 { wordImage with relocCount := 1 } 1 0 { feS [] with dies := [(0, { State.emptyDie with state := .drained })] } with
      | (_, .error ck) => decide (ck = .offline 0) | _ => false) = true ∧
    ((homeSet { feS [] with poison := [4] } 256).all fun x => setFits { feS [] with poison := [4] } x.1 x.2) = true ∧
    setFits (setLine dirtyS 0 128 ⟨List.replicate 128 7, 0, 0, 1, false, 0⟩) 0 128 = true := by decide +kernel

/-- A context whose checkpoint saved no team goes back as it is; one whose team's slot is taken by another context's waits. -/
theorem test_witness_ContextEvents_rollback :
    (∀ u : State, restoreFits u 0 ⟨[], [], [], [], [], [], [], [], []⟩ = true) ∧
    (let s := { memS with ctxs := memS.ctxs.set 1 wordCtx }
     let v := saveCtx memS 0
     let w := stopAll s 1
     ((v.teams.head?.any fun p => (w.teams.get? p.1).isSome) = true) ∧ ∀ u : State, u.teams = w.teams → restoreFits u 1 v = false) := by
  refine ⟨fun u => rfl, by decide +kernel, fun u h => ?_⟩
  have e : ((saveCtx memS 0).teams.all fun p => ((stopAll { memS with ctxs := memS.ctxs.set 1 wordCtx } 1).teams.get? p.1).isNone) = false := by decide +kernel
  rw [Bool.eq_false_iff] at e ⊢
  intro r
  refine e ?_
  simp only [restoreFits, Bool.and_eq_true, List.all_eq_true, h] at r
  simpa only [List.all_eq_true] using fun p hp => (r.1 p hp).1

theorem test_witness_ContextEvents :
    (let s : State := { State.reset with ctxs := [(0, { wordCtx with parked := [⟨.thread ⟨0, 0, 0⟩, 0, 256, none, false, true⟩] })] }
     (s.ctx? 0).any (fun x => x.parked[0]?.any fun k => k.die.isNone && k.sent) = true) ∧
    (let s := feS []
     (imageOf s 0 0).any (fun im => im.manifest / 64 ≤ 0 &&
       (match imageRead s 0 0 (im.base.toNat + 4096 * 0) 4096 with | (u, .ok t, _) => (poisonedUnits u t 4096).isEmpty | _ => false)) = true) ∧
    (let s := { feS [] with poison := [63] }
     (match imageRead s 0 0 0 4096 with | (u, .ok t, _) => decide (poisonedUnits u t 4096 ≠ []) | _ => false) = true) ∧
    lineOf memS 0 0 0 1 ≠ none ∧ lineOf memS 0 0 0 2 = none ∧ memS.team? ⟨0, 0⟩ ≠ none ∧ memS.team? ⟨0, 1⟩ = none ∧
    (memS.ctx? 0).any (fun x => !x.ended && !x.ckptValid && (x.images.get? 1).isNone && (x.images.get? 0).isSome) = true ∧
    (let x := { wordCtx with ckptValid := true, saved := some (saveCtx memS 0) }
     x.ckptValid = true ∧ x.rolledBack = false ∧ x.saved ≠ none) ∧
    imageInUse memS 0 0 = true ∧ imageInUse (feS []) 0 0 = false ∧ State.reset.granules.get? 0 = none ∧
    (feS []).enabled 0 = true ∧ (lineCopy dirtyS 0 128).isSome = true ∧ (readHeader (unspill { feS [] with events := [] }) 0 0).2.isSome = true ∧
    ({ feS [] with events := [.evaluate { waitL with evstack := [(256, 256)] }] } : State).events = .evaluate { waitL with evstack := [(256, 256)] } :: [] ∧
    -- a sub-page of hand 0 that hand 1 asks for, with and without a write of hand 0 to come
    (∀ b ∈ [true, false], ownerWrites { (ccAt fun th => { th with buffer := if b then [⟨0, 0, 0, 256, .dev 256, [1], 0, 17⟩] else [] }) with
      granules := [(0, ⟨true, 0, [], [0], 1⟩)] } 1 256 (fun _ => true) = b) := by decide +kernel

end Sys2Proof.Tests
end

section
/-! The reset state: a hand, die, function or sector that the machine's maps do not list holds its empty value. -/

namespace Sys2Proof

/-- A key of the empty map reads as the default. -/
@[simp] theorem Map.getD_nil {α : Type} (k : Nat) (d : α) : Map.getD ([] : Map α) k d = d := rfl

namespace Machine

namespace State

/-- R345, R369. After reset each hand is cleared. -/
@[simp] theorem hand_reset (h : Nat) : reset.hand h = emptyHand := Map.getD_nil h emptyHand

/-- R369, R371. After reset each die is as the boot leaves it. -/
@[simp] theorem die_reset (d : Nat) : reset.die d = emptyDie := Map.getD_nil d emptyDie

/-- R357, R359. After reset each function's ring and table registers read 0, and only the PF is enabled. -/
@[simp] theorem fn_reset (f : Nat) : reset.fn f = emptyFn (f = 0) := Map.getD_nil f (emptyFn (f = 0))

end State

/-- R246. After reset each sector is VAL (the tag 0). -/
@[simp] theorem tagAt_reset (a : Nat) : tagAt State.reset a = 0 := Map.getD_nil (a / 32) 0

/-- Settles O9: the reset state lists no hand, die, function or sector tag, so each of them reads as its empty value; the other
clauses are fields of the reset state itself. The model's own choices behind the clauses: an export table
that is invalid until written (log entry 5), and tiles that read 0 and are unlisted until written (log entry 3). -/
theorem resetState : Obligations.ResetState := by
  unfold Obligations.ResetState
  intro s
  refine ⟨?lists, fun h => ?hand, fun d => ?die, fun f => ?fn, tagAt_reset, ?fields⟩
  case lists => simp [s, State.reset]
  case hand => simp [s, State.hand_reset, State.emptyHand]
  case die => simp [s, State.die_reset, State.emptyDie]
  case fn => simp [s, State.fn_reset, State.emptyFn]
  case fields => simp [s, State.reset, State.emptyCollar]

end Machine

end Sys2Proof
end

section
/-! Support for the queue instructions: what accesses keep beside a change of threads and groups, the release of a thread, and what a
retired instruction that changes a group leaves. -/

namespace Sys2Proof.Machine

/-! ### Bit fields by division -/

/-- A field of a 64-bit word, by division. -/
theorem bits_eq (v : W64) (hi lo : Nat) : bits v hi lo = v.toNat / 2 ^ lo % 2 ^ (hi + 1 - lo) := by
  rw [bits, Nat.shiftRight_eq_div_pow]

/-! ### Accesses, seen beside the threads and groups that change with them -/

namespace Keeps

theorem withThreads {s t : State} (h : Keeps s t) (m : Map Thread) : Keeps { s with threads := m } { t with threads := m } :=
  ⟨congrArg (fun x : State => { x with threads := m }) h.kept, h.hands, h.dies, h.ctxs, h.mem, h.host⟩

theorem withGroups {s t : State} (h : Keeps s t) (m : Map Group) : Keeps { s with groups := m } { t with groups := m } :=
  ⟨congrArg (fun x : State => { x with groups := m }) h.kept, h.hands, h.dies, h.ctxs, h.mem, h.host⟩

theorem updThread {s t : State} (h : Keeps s t) (r : ThreadRef) (f : Thread → Thread) : Keeps (s.updThread r f) (t.updThread r f) :=
  ⟨congrArg (fun x : State => x.updThread r f) h.kept, h.hands, h.dies, h.ctxs, h.mem, h.host⟩

/-- What only accesses changed, changed memories only. -/
theorem memOnly {s t : State} (h : Keeps s t) : MemOnly s t := ⟨h.kept, h.hands, h.dies, h.ctxs⟩

end Keeps

/-! ### A thread's buffered stores and releases (R149, R155) -/

/-- The thread's buffered stores performed, before they leave its buffer. -/
def storesPerformed (s : State) (k : Core) : State := k.th.buffer.foldl (fun s b => performStore s k b) s

theorem storesPerformed_keeps (s : State) (k : Core) : Keeps s (storesPerformed s k) :=
  .foldl (fun _ _ => writeTgt_keeps ..) _ s

theorem drain_eq {s : State} {k : Core} (h : s.thread? k.ref = some k.th) :
    drain s k = (storesPerformed s k).updThread k.ref fun th => { th with buffer := [] } := by
  simp only [drain, h, storesPerformed]

/-- A release of a thread empties its buffer and otherwise only accesses memory. -/
theorem threadRelease_keeps {s : State} {k : Core} (h : s.thread? k.ref = some k.th) (scope : Nat) :
    Keeps (s.updThread k.ref fun th => { th with buffer := [] }) (threadRelease s k scope) := by
  rw [threadRelease, drain_eq h]
  exact ((storesPerformed_keeps s k).updThread ..).trans (releaseAt_keeps ..)

/-- Where a buffered store cannot perform, a release does not come about. -/
theorem released_stop {s : State} {k : Core} {x : Store} {ck : Chk} (h : drainStop s k = some (x, ck)) (scope : Nat) (f : State → State) :
    released s k scope f = storeRefused s k x ck := by
  simp only [released, h]

/-- Else the thread goes on after it. -/
theorem released_go {s : State} {k : Core} (h : drainStop s k = none) (scope : Nat) (f : State → State) :
    released s k scope f = f (threadRelease s k scope) := by
  simp only [released, h]

/-! ### A served thread that also changes a group -/

/-- An instruction of the served thread that changes a group by `f` and retires with its thread changed by `w`. -/
def retireGroup (s : State) (k : Core) (g : GroupRef) (f : Group → Group) (w : Thread → Thread) : State :=
  retire (s.updGroup g f) k 1 w

/-- What it leaves of the thread, the group, the other threads and groups, and the rest. -/
theorem retireGroup_frame {s : State} {k : Core} {g : GroupRef} {gr : Group} (hg : s.group? g = some gr) (f : Group → Group)
    (w : Thread → Thread) :
    (retireGroup s k g f w).thread? k.ref = (s.thread? k.ref).map (fun th => { w th with pc := k.next 1, wait := .none }) ∧
      (retireGroup s k g f w).group? g = some (f gr) ∧ otherThreads s (retireGroup s k g f w) k.ref ∧
      otherGroups s (retireGroup s k g f w) g ∧ sameBytes s (retireGroup s k g f w) ∧
      { retireGroup s k g f w with threads := s.threads, groups := s.groups } = s := by
  obtain ⟨h₁, h₂, h₃⟩ := retire_frame (s.updGroup g f) k 1 w
  refine ⟨h₁, ?_, h₂, fun q hq => ?_, h₃.bytes, rfl⟩
  · show (s.updGroup g f).group? g = _
    rw [State.group?_updGroup, if_pos rfl, hg]; rfl
  · show (s.updGroup g f).group? q = _
    rw [State.group?_updGroup, if_neg hq]

/-- It has retired with the registers that `w` writes, and has changed the group alone. -/
theorem retireGroup_retired {s : State} {k : Core} {g : GroupRef} {gr : Group} (hk : s.thread? k.ref = some k.th) (hg : s.group? g = some gr)
    (f : Group → Group) {w : Thread → Thread} {ds : List (R5 × W64)}
    (hw : ThreadAt k.th { w k.th with pc := k.next 1, wait := .none } (k.next 1) .none ds) :
    RetiredGroup s (retireGroup s k g f w) k ds g (f gr) := by
  obtain ⟨ht, hg', hts, hgs, hb, hr⟩ := retireGroup_frame (k := k) hg f w
  rw [hk] at ht
  exact ⟨⟨⟨_, ht, hw⟩, hts⟩, hg', hgs, hb, hr⟩

end Sys2Proof.Machine
end

section
/-! Deals (R28-R31, R184, R185). -/

namespace Sys2Proof.Machine

/-- The deal that four registers hold, by its fields. -/
theorem dealOf_rx4 (th : Thread) (a : R5) (ds : List W64) (q : BitVec 32) (img : Nat) :
    dealOf (th.rx4 a) ds q img = ⟨th.rx a, th.rx (a + 1), th.rx (a + 2), th.rx (a + 3), ds, q, false, img⟩ := rfl

theorem groupOf_eq {s : State} {g : GroupRef} {gr : Group} (h : s.group? g = some gr) : groupOf s g = gr := by
  simp only [groupOf, h, Option.getD_some]

theorem onHelper_iff (k : Core) (i : Nat) : onHelper k i = true ↔ 0 < k.th.depth ∧ k.th.egrp.toNat = i := by
  simp [onHelper]

theorem retireGroup_noStore (s : State) (k : Core) (g : GroupRef) (f : Group → Group) (w : Thread → Thread) :
    NoStore s (retireGroup s k g f w) := .of_eq rfl rfl rfl le_rfl (fun _ => rfl) fun _ => rfl

theorem threadRelease_noStore (s : State) (k : Core) (scope : Nat) : NoStore (drain s k) (threadRelease s k scope) := releaseAt_noStore ..

/-- The thread and its group after a release and the retirement of an instruction that changes the group (R30, R184). -/
theorem retireGroup_released {s : State} {k : Core} {g : GroupRef} {gr : Group} (hk : s.thread? k.ref = some k.th)
    (hg : s.group? g = some gr) (scope : Nat) (f : Group → Group) (w : Thread → Thread) (u : State)
    (hu : u = retireGroup (threadRelease s k scope) k g f w) :
    u.thread? k.ref = some { w { k.th with buffer := [] } with pc := k.next 1, wait := .none } ∧ u.group? g = some (f gr) ∧
      otherThreads s u k.ref ∧ otherGroups s u g ∧ MemOnly s { u with threads := s.threads, groups := s.groups } ∧ NoStore (drain s k) u := by
  subst hu
  have hkeeps := threadRelease_keeps hk scope
  have hthread (q : ThreadRef) : (threadRelease s k scope).thread? q = (s.updThread k.ref fun th => { th with buffer := [] }).thread? q := by
    rw [State.thread?, hkeeps.threads]; rfl
  have hgroup (q : GroupRef) : (threadRelease s k scope).group? q = s.group? q := by rw [State.group?, hkeeps.groups]; rfl
  obtain ⟨ht, hg', hts, hgs, -, -⟩ := retireGroup_frame (s := threadRelease s k scope) (k := k) ((hgroup g).trans hg) f w
  refine ⟨?thread, hg', fun q hq => ?others, fun q hq => (hgs q hq).trans (hgroup q), ?memOnly, ?noStore⟩
  case thread => rw [ht, hthread, State.thread?_updThread, if_pos rfl, hk]; rfl
  case others => rw [hts q hq, hthread, State.thread?_updThread, if_neg hq]
  case memOnly => exact ((hkeeps.withThreads s.threads).withGroups s.groups).memOnly
  case noStore => exact (threadRelease_noStore s k scope).trans (retireGroup_noStore ..)

/-- DEAL's checks of word 0 in order (R28): format, target, block. -/
theorem dealFault_eq (s : State) (k : Core) (w0 : W64) :
    let i := w0.toNat % 256
    let blocks := match imageOf s k.tm.ctx k.th.img with | some im => im.blockCount | none => 0
    let inHandler : Prop := 0 < k.th.depth ∧ k.th.egrp.toNat = i
    let form : Prop := w0.toNat / 2 ^ 12 % 2 ^ 4 = 0
    let target : Prop := i ≤ 15 ∧ (inHandler → ¬w0.toNat / 2 ^ 11 % 2 = 1) ∧ (¬inHandler → (groupOf s (k.ref.group i)).state = .live)
    (¬form → dealFault s k w0 = some .dealFormat) ∧ (form → ¬target → dealFault s k w0 = some .dealTarget) ∧
      (form → target → blocks ≤ w0.toNat / 2 ^ 48 → dealFault s k w0 = some .dealBlock) ∧
      (form → target → w0.toNat / 2 ^ 48 < blocks → dealFault s k w0 = none) := by
  intro i blocks inHandler form target
  have h₁ : bits w0 15 12 = w0.toNat / 2 ^ 12 % 2 ^ 4 := bits_eq ..
  have h₂ : bits w0 7 0 = i := by rw [bits_eq]; simp [i]
  have h₃ : bits w0 11 11 = w0.toNat / 2 ^ 11 % 2 := bits_eq ..
  have h₄ : bits w0 63 48 = w0.toNat / 2 ^ 48 := by rw [bits_eq]; have := w0.isLt; omega
  unfold dealFault
  simp only [h₁, h₂, h₃, h₄, onHelper_iff]
  change (¬form → _) ∧ (form → ¬target → _) ∧ (form → target → blocks ≤ _ → _) ∧ (form → target → _ < blocks → _)
  by_cases hh : inHandler
  · have ht : target ↔ i ≤ 15 ∧ ¬w0.toNat / 2 ^ 11 % 2 = 1 := by simp [target, hh]
    rw [ht, if_pos hh]
    grind
  · have ht : target ↔ i ≤ 15 ∧ (groupOf s (k.ref.group i)).state = .live := by simp [target, hh]
    rw [ht, if_neg hh]
    grind

/-- The group whose queue a deal of the registers `ws` has entered; the last one closes it (R29). -/
def Group.enqueue (ws : List W64) (img : Nat) (last : Prop) [Decidable last] (x : Group) : Group :=
  { x with queue := x.queue ++ [dealOf ws x.pendD x.nextSeq img], nextSeq := x.nextSeq + 1, state := if last then .closing else x.state }

/-- The group whose helper queue a deal has entered (R296). -/
def Group.enqueueHelper (ws : List W64) (img : Nat) (x : Group) : Group :=
  { x with hqueue := x.hqueue ++ [dealOf ws x.hd x.hnext img], hnext := x.hnext + 1 }

theorem Group.enqueue_last {last : Prop} [Decidable last] (h : last) (ws : List W64) (img : Nat) (x : Group) :
    x.enqueue ws img last =
      { x with queue := x.queue ++ [dealOf ws x.pendD x.nextSeq img], nextSeq := x.nextSeq + 1, state := .closing } := by
  rw [enqueue, if_pos h]

theorem Group.enqueue_more {last : Prop} [Decidable last] (h : ¬last) (ws : List W64) (img : Nat) (x : Group) :
    x.enqueue ws img last = { x with queue := x.queue ++ [dealOf ws x.pendD x.nextSeq img], nextSeq := x.nextSeq + 1 } := by
  rw [enqueue, if_neg h]

/-! What DEAL does once its checks have passed (R29, R30, R184). -/

section
variable {s : State} {k : Core} {a : R5} {gr : Group} (hg : s.group? (k.ref.group ((k.th.rx a).toNat % 256)) = some gr)
include hg

/-- With room in the helper queue, a deal with the helper's D registers enters it. -/
theorem dealEffect_helper (hh : onHelper k ((k.th.rx a).toNat % 256) = true) (hroom : gr.hqueue.length < 4) (d : R5) :
    dealEffect s k d a = released s k 0 fun s =>
      retireGroup s k (k.ref.group ((k.th.rx a).toNat % 256))
        (Group.enqueueHelper (k.th.rx4 a) k.th.img)
        fun th => th.wx d (zext64 gr.hnext) := by
  have hi : bits ((k.th.rx4 a).getD 0 0) 7 0 = (k.th.rx a).toNat % 256 := by rw [bits_eq]; simp [Thread.rx4]
  simp only [dealEffect, hi, hh, groupOf_eq hg, if_pos, if_neg (Nat.not_le.2 hroom), retireGroup, retireX]
  rfl

/-- With room in the queue, a deal with the pending D registers enters it; the last one closes the group. -/
theorem dealEffect_queue (hh : ¬onHelper k ((k.th.rx a).toNat % 256) = true) (hroom : gr.queue.length < 64) (d : R5) :
    dealEffect s k d a = released s k 0 fun s =>
      retireGroup s k (k.ref.group ((k.th.rx a).toNat % 256))
        (Group.enqueue (k.th.rx4 a) k.th.img ((k.th.rx a).toNat / 2 ^ 11 % 2 = 1))
        fun th => th.wx d (zext64 gr.nextSeq) := by
  have hi : bits ((k.th.rx4 a).getD 0 0) 7 0 = (k.th.rx a).toNat % 256 := by rw [bits_eq]; simp [Thread.rx4]
  have hl : bits ((k.th.rx4 a).getD 0 0) 11 11 = (k.th.rx a).toNat / 2 ^ 11 % 2 := by rw [bits_eq]; simp [Thread.rx4]
  simp only [dealEffect, hi, hl, groupOf_eq hg, if_neg hh, if_neg (Nat.not_le.2 hroom), retireGroup, retireX]
  rfl

/-- With its queue full, DEAL waits. -/
theorem dealEffect_full
    (hfull : if onHelper k ((k.th.rx a).toNat % 256) = true then 4 ≤ gr.hqueue.length else 64 ≤ gr.queue.length) (d : R5) :
    dealEffect s k d a = stall s k (.deal d a) := by
  have hi : bits ((k.th.rx4 a).getD 0 0) 7 0 = (k.th.rx a).toNat % 256 := by rw [bits_eq]; simp [Thread.rx4]
  simp only [dealEffect, hi, groupOf_eq hg]
  split at hfull
  · next hh => rw [if_pos hh, if_pos hfull]
  · next hh => rw [if_neg hh, if_pos hfull]

end

/-- A register write does not touch the buffer. -/
theorem wx_emptied (th : Thread) (d : R5) (v : W64) : ({ th with buffer := [] } : Thread).wx d v = { th.wx d v with buffer := [] } := by
  unfold Thread.wx; split <;> rfl

theorem core_of_cur {s : State} {k : Core} (hc : s.coreOf k.ref = some k) (h : s.cur = .thread k.ref) : s.core = some k := by
  rw [State.core, h]; exact hc

theorem execDeal_fault {s : State} {k : Core} {a : R5} {f : FaultCode} (hk : s.core = some k) (h : dealFault s k (k.th.rx a) = some f) (d : R5) :
    exec (.deal d a) s = .next (threadFault s k f 0 (k.th.rx a) (dealState s k ((k.th.rx a).toNat % 256))) := by
  have hi : bits (k.th.rx a) 7 0 = (k.th.rx a).toNat % 256 := by rw [bits_eq]; simp
  rw [← hi]
  show execDeal d a s = _
  rw [execDeal, onCore_eq hk]
  simp only [h]

theorem execDeal_go {s : State} {k : Core} {a : R5} (hk : s.core = some k) (h : dealFault s k (k.th.rx a) = none) (d : R5) :
    exec (.deal d a) s = .next (dealEffect s k d a) := by
  show execDeal d a s = _
  rw [execDeal, onCore_eq hk]
  simp only [h]

theorem execDealStallResume_eq {s : State} {k : Core} {d a : R5} (hk : s.coreOf k.ref = some k) (hw : k.th.wait = .deal d a) :
    exec (.dealStallResume k.ref) s = .next (if threadFree s k.ref k.th then dealEffect s k d a else s) := by
  show execDealStallResume k.ref s = _
  simp only [execDealStallResume, hk, hw]

/-- DSET on a group of a handler's helper deals, or of a LIVE group. -/
theorem execDset_eq {s : State} {k : Core} {a : R5} {gr : Group} (hk : s.core = some k) (hi : (k.th.rx a).toNat ≤ 15)
    (hg : s.group? (k.ref.group (k.th.rx a).toNat) = some gr) (n b : R5) :
    exec (.dset n a b) s = .next (
      if onHelper k (k.th.rx a).toNat then
        retireGroup s k (k.ref.group (k.th.rx a).toNat) (fun x => { x with hd := x.hd.set (n.toNat - 2) (k.th.rx b) }) id
      else if gr.state ≠ .live then threadFault s k .dealTarget 0 (k.th.rx a) (BitVec.ofNat 64 gr.state.code)
      else retireGroup s k (k.ref.group (k.th.rx a).toNat) (fun x => { x with pendD := x.pendD.set (n.toNat - 2) (k.th.rx b) }) id) := by
  show execDset n a b s = _
  rw [execDset, onCore_eq hk]
  simp only [if_neg (Nat.not_lt.2 hi), groupOf_eq hg, retireGroup]

theorem execDset_range {s : State} {k : Core} {a : R5} (hk : s.core = some k) (hi : 15 < (k.th.rx a).toNat) (n b : R5) :
    exec (.dset n a b) s = .next (threadFault s k .dealTarget 0 (k.th.rx a) 0) := by
  show execDset n a b s = _
  rw [execDset, onCore_eq hk]
  simp only [if_pos hi]

/-- Settles O33: the checks of word 0 are `dealFault_eq`; an enqueued deal is a group change that retires behind a release. -/
theorem deals : Obligations.Deals := by
  unfold Obligations.Deals
  intro s k d a b n gr hc w0 i g blocks inHandler last deal enqueued effect fault
  have hth := (coreOf_thread hc).1
  have henq (hg : s.group? g = some gr) (f : Group → Group) (q : BitVec 32) :
      enqueued (retireGroup (threadRelease s k 0) k g f fun th => th.wx d (zext64 q)) q (f gr) := by
    obtain ⟨h₁, h₂, h₃, h₄, h₅, h₆⟩ := retireGroup_released hth hg 0 f (fun th => th.wx d (zext64 q)) _ rfl
    rw [wx_emptied] at h₁
    exact ⟨h₁, h₂, h₃, h₄, h₅, h₆⟩
  have heffect (hg : s.group? g = some gr) : effect (.next (dealEffect s k d a)) := by
    refine ⟨fun x ck hs hroom => ?stop, fun hh hroom hs => ?queue, fun hh hroom hs => ?helper, fun hfull => ?full⟩
    case stop =>
      rcases hroom with ⟨hh, hroom⟩ | ⟨hh, hroom⟩
      · rw [dealEffect_helper hg ((onHelper_iff k i).2 hh) hroom, released_stop hs]
      · rw [dealEffect_queue hg (mt (onHelper_iff k i).1 hh) hroom, released_stop hs]
    case queue =>
      refine ⟨_, congrArg _ ((dealEffect_queue hg (mt (onHelper_iff k i).1 hh) hroom d).trans (released_go hs ..)), fun hl => ?_, fun hl => ?_⟩
      · have h := henq hg (Group.enqueue (k.th.rx4 a) k.th.img last) gr.nextSeq
        rwa [Group.enqueue_last hl] at h
      · have h := henq hg (Group.enqueue (k.th.rx4 a) k.th.img last) gr.nextSeq
        rwa [Group.enqueue_more hl] at h
    case helper =>
      exact ⟨_, congrArg _ ((dealEffect_helper hg ((onHelper_iff k i).2 hh) hroom d).trans (released_go hs ..)),
        henq hg (Group.enqueueHelper (k.th.rx4 a) k.th.img) gr.hnext⟩
    case full =>
      refine congrArg _ (dealEffect_full hg ?_ d)
      rcases hfull with ⟨hh, hfull⟩ | ⟨hh, hfull⟩
      · rwa [if_neg (mt (onHelper_iff k i).1 hh)]
      · rwa [if_pos ((onHelper_iff k i).2 hh)]
  refine ⟨fun hcur => ?issue, fun hw hg => ⟨fun hf => ?resume, fun hf => ?wait⟩⟩
  case resume => rw [execDealStallResume_eq hc hw, if_pos hf]; exact heffect hg
  case wait => rw [execDealStallResume_eq hc hw, if_neg (by simp [hf])]
  case issue =>
    have hk := core_of_cur hc hcur
    obtain ⟨hform, htarget, hblock, hgo⟩ := dealFault_eq s k w0
    intro form target
    refine ⟨fun h => execDeal_fault hk (hform h) d, fun h h' => execDeal_fault hk (htarget h h') d,
      fun h h' hb => execDeal_fault hk (hblock h h' hb) d, fun h h' hb hg => ?go, fun gn _ _ hi hgn => ?dset,
      fun hi => execDset_range hk hi n b⟩
    case go => rw [execDeal_go hk (hgo h h' hb) d]; exact heffect hg
    case dset =>
      rw [execDset_eq hk hi hgn]
      refine ⟨fun hh hl => ?live, fun hh => ?helper, fun hh hl => ?dead⟩
      case live =>
        rw [if_neg (mt (onHelper_iff ..).1 hh), if_neg (not_not.2 hl)]
        exact ⟨_, rfl, retireGroup_retired hth hgn _ (threadAt_id ..)⟩
      case helper =>
        rw [if_pos ((onHelper_iff ..).2 hh)]
        exact ⟨_, rfl, retireGroup_retired hth hgn _ (threadAt_id ..)⟩
      case dead => rw [if_neg (mt (onHelper_iff ..).1 hh), if_pos hl]

end Sys2Proof.Machine
end

section
/-! Shows at the thread: SPOP, SPEEK and SPOP_RESUME (R39, R186). -/

namespace Sys2Proof.Machine

/-! ### Consecutive registers (R172) -/

/-- Consecutive registers from `d` with the values they are given. -/
def regPairs (d : R5) : List W64 → List (R5 × W64)
  | [] => []
  | v :: vs => (d, v) :: regPairs (d + 1) vs

/-- The next register's number, where it does not wrap. -/
theorem toNat_succ_reg {d : R5} (h : d.toNat + 1 < 32) : (d + 1).toNat = d.toNat + 1 := by
  rw [BitVec.toNat_add]; exact Nat.mod_eq_of_lt h

/-- Registers that do not wrap name none below the first. -/
theorem lookup_regPairs_below {d n : R5} (vs : List W64) (h : d.toNat + vs.length ≤ 32) (hn : n.toNat < d.toNat) :
    (regPairs d vs).lookup n = none := by
  induction vs generalizing d with
  | nil => rfl
  | cons v vs ih =>
    have hne : (n == d) = false := beq_false_of_ne (ne_of_apply_ne BitVec.toNat (Nat.ne_of_lt hn))
    rw [regPairs, List.lookup, hne]
    cases vs with
    | nil => rfl
    | cons w vs =>
      simp only [List.length_cons] at h ih
      have hs := toNat_succ_reg (d := d) (by omega)
      exact ih (by omega) (by omega)

/-- What consecutive writes that do not wrap leave in each register. -/
theorem rx_wxs (th : Thread) {d : R5} (vs : List W64) (h : d.toNat + vs.length ≤ 32) {n : R5} (hn : n ≠ 0) :
    (th.wxs d vs).rx n = ((regPairs d vs).lookup n).getD (th.rx n) := by
  induction vs generalizing th d with
  | nil => rfl
  | cons v vs ih =>
    simp only [List.length_cons] at h
    have hw : (th.wx d v).rx n = if n = d then v else th.rx n := by rw [rx_wx, if_neg hn]
    have hi : ((th.wx d v).wxs (d + 1) vs).rx n = ((regPairs (d + 1) vs).lookup n).getD ((th.wx d v).rx n) := by
      cases vs with
      | nil => rfl
      | cons w vs =>
        simp only [List.length_cons] at h
        have hs := toNat_succ_reg (d := d) (by omega)
        exact ih _ (by simp only [List.length_cons]; omega)
    rw [Thread.wxs, regPairs, hi, hw]
    by_cases hd : n = d
    · subst hd
      have hnone : (regPairs (n + 1) vs).lookup n = none := by
        cases vs with
        | nil => rfl
        | cons w vs =>
          simp only [List.length_cons] at h
          have hs := toNat_succ_reg (d := n) (by omega)
          exact lookup_regPairs_below _ (by simp only [List.length_cons]; omega) (by omega)
      rw [hnone, if_pos rfl, List.lookup, beq_self_eq_true]; rfl
    · rw [if_neg hd, List.lookup, beq_false_of_ne hd]

theorem wxs_rest (th : Thread) (d : R5) (vs : List W64) : { th.wxs d vs with x := th.x } = th := by
  induction vs generalizing th d with
  | nil => rfl
  | cons v vs ih =>
    have h := ih (th.wx d v) (d + 1)
    have h' : { th.wx d v with x := th.x } = th := by unfold Thread.wx; split <;> rfl
    rw [Thread.wxs]
    calc { (th.wx d v).wxs (d + 1) vs with x := th.x }
        = { ({ (th.wx d v).wxs (d + 1) vs with x := (th.wx d v).x } : Thread) with x := th.x } := rfl
      _ = { th.wx d v with x := th.x } := by rw [h]
      _ = th := h'

/-- A write of consecutive registers changes those registers alone. -/
theorem threadAt_wxs (th : Thread) {d : R5} (vs : List W64) (h : d.toNat + vs.length ≤ 32) (pc : Nat) (w : Wait) :
    ThreadAt th { th.wxs d vs with pc := pc, wait := w } pc w (regPairs d vs) :=
  ⟨rfl, rfl, fun n => by split; · next hn => subst hn; rfl
                         · next hn => exact rx_wxs th vs h hn,
    congrArg (fun x : Thread => { x with pc := th.pc, wait := th.wait }) (wxs_rest th d vs)⟩

/-- The registers and words of a show's first words. -/
theorem regPairs_eq_map (d : R5) (vs : List W64) :
    regPairs d vs = (List.range vs.length).map fun j => (d + BitVec.ofNat 5 j, vs.getD j 0) := by
  induction vs generalizing d with
  | nil => rfl
  | cons v vs ih =>
    rw [regPairs, ih, List.length_cons, List.range_succ_eq_map, List.map_cons, List.map_map]
    congr 1
    · simp
    · refine List.map_congr_left fun j _ => ?_
      have : d + 1 + BitVec.ofNat 5 j = d + BitVec.ofNat 5 (j + 1) := by
        rw [Nat.add_comm j 1, BitVec.ofNat_add, ← BitVec.add_assoc]; rfl
      rw [this]; rfl

theorem regPairs_take (d : R5) {vs : List W64} {n : Nat} (h : n ≤ vs.length) :
    regPairs d (vs.take n) = (List.range n).map fun j => (d + BitVec.ofNat 5 j, vs.getD j 0) := by
  rw [regPairs_eq_map, List.length_take, Nat.min_eq_left h]
  refine List.map_congr_left fun j hj => ?_
  have hj := List.mem_range.1 hj
  simp [hj]

/-! ### SPOP and SPEEK -/

/-- The thread with the first words of a show in its registers (R186). -/
def Thread.takeShow (d c : R5) (sh : Show) (th : Thread) : Thread := th.wxs d (sh.take (c.toNat + 1))


section
variable {s : State} {k : Core} {a : R5} {gr : Group} (hg : s.group? (k.ref.group (k.th.rx a).toNat) = some gr)
include hg

/-- A blocked SPOP, or one that takes the head of its queue. -/
theorem spopEffect_eq (d c : R5) :
    spopEffect s k d a c =
      match if onHelper k (k.th.rx a).toNat then gr.hshows else gr.shows with
      | [] => stall s k (.spop d a c)
      | sh :: rest =>
        retireGroup s k (k.ref.group (k.th.rx a).toNat)
          (fun x => if onHelper k (k.th.rx a).toNat then { x with hshows := rest } else { x with shows := rest })
          (Thread.takeShow d c sh) := by
  simp only [spopEffect, groupOf_eq hg]
  split <;> simp_all [retireGroup] <;> rfl

end

theorem execSpop_eq {s : State} {k : Core} (hk : s.core = some k) (d a c : R5) :
    exec (.spop d a c) s = .next (if showGroupOk s k (k.th.rx a).toNat then spopEffect s k d a c
      else threadFault s k .groupRange 0 (k.th.rx a) 0) := onCore_eq hk _

theorem execSpeek_eq {s : State} {k : Core} {a : R5} (hk : s.core = some k) (d c : R5) :
    exec (.speek d a c) s = .next (
      if showGroupOk s k (k.th.rx a).toNat then
        match if onHelper k (k.th.rx a).toNat then (groupOf s (k.ref.group (k.th.rx a).toNat)).hshows
            else (groupOf s (k.ref.group (k.th.rx a).toNat)).shows with
        | [] => retireX s k 1 d (BitVec.allOnes 64)
        | sh :: _ => retire s k 1 (Thread.takeShow d c sh)
      else threadFault s k .groupRange 0 (k.th.rx a) 0) := onCore_eq hk _

theorem execSpopResume_eq {s : State} {k : Core} {d a c : R5} (hk : s.coreOf k.ref = some k) (hw : k.th.wait = .spop d a c) :
    exec (.spopResume k.ref) s = .next (if threadFree s k.ref k.th then spopEffect s k d a c else s) := by
  show execSpopResume k.ref s = _
  simp only [execSpopResume, hk, hw]

theorem showGroupOk_iff (s : State) (k : Core) (i : Nat) :
    showGroupOk s k i = true ↔ i ≤ 15 ∧ ((0 < k.th.depth ∧ k.th.egrp.toNat = i) ∨ (groupOf s (k.ref.group i)).state ≠ .unset) := by
  simp [showGroupOk, onHelper_iff]

/-- The queue of shows that an instruction on index `i` works on (R186, R296). -/
theorem showQueue_eq {k : Core} {i : Nat} {gr : Group} {q : List Show}
    (h : (¬(0 < k.th.depth ∧ k.th.egrp.toNat = i) ∧ gr.shows = q) ∨ ((0 < k.th.depth ∧ k.th.egrp.toNat = i) ∧ gr.hshows = q)) :
    (if onHelper k i then gr.hshows else gr.shows) = q := by
  rcases h with ⟨hh, hq⟩ | ⟨hh, hq⟩
  · rw [if_neg (mt (onHelper_iff k i).1 hh), hq]
  · rw [if_pos ((onHelper_iff k i).2 hh), hq]

/-- Settles O34: SPOP is a group change that retires with the head show's first words in its registers, SPEEK retires alone. -/
theorem shows : Obligations.Shows := by
  unfold Obligations.Shows
  intro s k d a c gr sh rest hc hc8 hd hdc i g handler ds takes
  have hth := (coreOf_thread hc).1
  have hat (hlen : sh.length = 8) : ThreadAt k.th { k.th.takeShow d c sh with pc := k.next 1, wait := .none } (k.next 1) .none ds := by
    have h := threadAt_wxs k.th (d := d) (sh.take (c.toNat + 1)) (by rw [List.length_take]; omega) (k.next 1) .none
    rwa [regPairs_take d (by omega)] at h
  have htakes : takes (.next (spopEffect s k d a c)) := by
    intro hg hlen
    refine ⟨fun hh hq => ?queue, fun hh hq => ?helper, fun hempty => ?block⟩
    case queue =>
      refine ⟨_, congrArg _ ?_, retireGroup_retired hth hg (fun x => { x with shows := rest }) (w := Thread.takeShow d c sh) (hat hlen)⟩
      have hh' : ¬onHelper k (k.th.rx a).toNat = true := mt (onHelper_iff k i).1 hh
      rw [spopEffect_eq hg, showQueue_eq (.inl ⟨hh, hq⟩)]
      simp only [if_neg hh']
      rfl
    case helper =>
      refine ⟨_, congrArg _ ?_, retireGroup_retired hth hg (fun x => { x with hshows := rest }) (w := Thread.takeShow d c sh) (hat hlen)⟩
      have hh' : onHelper k (k.th.rx a).toNat = true := (onHelper_iff k i).2 hh
      rw [spopEffect_eq hg, showQueue_eq (.inr ⟨hh, hq⟩)]
      simp only [if_pos hh']
      rfl
    case block => exact congrArg _ (by rw [spopEffect_eq hg, showQueue_eq hempty]; rfl)
  refine ⟨fun hcur => ⟨fun hi hok => ⟨?spop, fun hg hlen => ⟨fun hq => ?speek, fun hq => ?none⟩⟩, fun hbad j hj => ?range⟩,
    fun hw => ⟨fun hf => ?resume, fun hf => ?wait⟩⟩
  case resume => rw [execSpopResume_eq hc hw, if_pos hf]; exact htakes
  case wait => rw [execSpopResume_eq hc hw, if_neg (by simp [hf])]
  all_goals have hk := core_of_cur hc hcur
  case range =>
    have hno : ¬showGroupOk s k i = true := by
      rw [showGroupOk_iff]
      rintro ⟨h₁, h₂⟩
      rcases hbad with h | ⟨h, h'⟩
      · omega
      · exact h₂.elim h fun h₃ => h₃ h'
    rcases hj with rfl | rfl
    · rw [execSpop_eq hk, if_neg hno]
    · rw [execSpeek_eq hk, if_neg hno]
  all_goals have hyes : showGroupOk s k i = true := (showGroupOk_iff s k i).2 ⟨hi, hok⟩
  case spop => rw [execSpop_eq hk, if_pos hyes]; exact htakes
  all_goals rw [execSpeek_eq hk, if_pos hyes, groupOf_eq hg]
  case speek =>
    obtain ⟨h₁, h₂, h₃⟩ := retire_frame s k 1 (Thread.takeShow d c sh)
    rw [hth] at h₁
    refine ⟨_, ?_, ⟨⟨_, h₁, hat hlen⟩, h₂⟩, h₃⟩
    rw [showQueue_eq hq]
  case none =>
    refine ⟨_, ?_, retireX_alone hth 1 d _⟩
    rw [showQueue_eq hq]
    rfl

end Sys2Proof.Machine
end

section
/-! The units of groups: SGRP, GIVE, CLAIM and QSTAT (R25, R26, R183, R188, R189). -/

namespace Sys2Proof.Machine

/-! ### A served thread that also changes its team -/

/-- What an instruction leaves that changes its team by `f` and retires with one register written. -/
theorem retireTeam_frame {s : State} {k : Core} (hk : s.core = some k) (f : Team → Team) (d : R5) (v : W64) :
    RetiredTeam s (retireX (s.updTeam k.ref.team f) k 1 d v) k [(d, v)] (f k.tm) := by
  obtain ⟨h₁, h₂, h₃⟩ := retire_frame (s.updTeam k.ref.team f) k 1 fun th => th.wx d v
  have ht : (s.updTeam k.ref.team f).thread? k.ref = some k.th := by rw [State.updTeam_thread_of, core_thread hk]
  rw [ht] at h₁
  refine ⟨⟨⟨_, h₁, threadAt_wx ..⟩, h₂⟩, ?_, fun q hq => ?_, h₃.bytes, rfl⟩
  · show (s.updTeam k.ref.team f).team? k.ref.team = _
    rw [State.team?_updTeam, if_pos rfl, (core_team_ctx hk).1]; rfl
  · show (s.updTeam k.ref.team f).team? q = _
    rw [State.team?_updTeam, if_neg hq]

/-- The free units of one role are not touched by a change of another's (R25). -/
theorem freeUnits_setFree_ne (tm : Team) {role other : Nat} (h : other ≠ role) (lg lg' : Nat) (us : List Nat) :
    freeUnits (setFree tm role lg us) other lg' = freeUnits tm other lg' := by
  simp only [freeUnits, setFree, Map.get?_modify, if_neg h]

/-- Units move between two roles (R26). -/
theorem moveUnits_retired {s : State} {k : Core} (hk : s.core = some k) (d : R5) {src dst : Nat} (h : dst ≠ src) (lg n : Nat) :
    RetiredTeam s (moveUnits s k d src dst lg n) k [(d, BitVec.ofNat 64 n)]
      (setFree (setFree k.tm src lg ((freeUnits k.tm src lg).drop n)) dst lg (freeUnits k.tm dst lg ++ (freeUnits k.tm src lg).take n)) := by
  have hm := retireTeam_frame hk (fun t =>
    setFree (setFree t src lg ((freeUnits k.tm src lg).drop n)) dst lg
      (freeUnits (setFree t src lg ((freeUnits k.tm src lg).drop n)) dst lg ++ (freeUnits k.tm src lg).take n)) d (BitVec.ofNat 64 n)
  rwa [freeUnits_setFree_ne k.tm h] at hm

theorem execGive_eq {s : State} {k : Core} (hk : s.core = some k) (d a b : R5) :
    exec (.give d a b) s = .next (
      let r := (k.th.rx a).toNat
      let lg := (k.th.rx b).toNat % 4
      let n := (k.th.rx b).toNat / 2 ^ 8 % 2 ^ 8
      if (k.tm.roles.get? r).isNone || r = k.ref.role || n = 0 || (freeUnits k.tm k.ref.role lg).length < n then retireX s k 1 d 0
      else moveUnits s k d k.ref.role r lg n) := by
  have h₁ : bits (k.th.rx b) 1 0 = (k.th.rx b).toNat % 4 := by rw [bits_eq]; simp
  have h₂ : bits (k.th.rx b) 15 8 = (k.th.rx b).toNat / 2 ^ 8 % 2 ^ 8 := bits_eq ..
  show execGive d a b s = _
  rw [execGive, onCore_eq hk, h₁, h₂]

theorem execClaim_eq {s : State} {k : Core} (hk : s.core = some k) (d a b : R5) :
    exec (.claim d a b) s = .next (
      let r := (k.th.rx a).toNat
      let lg := (k.th.rx b).toNat % 4
      let n := min ((k.th.rx b).toNat / 2 ^ 8 % 2 ^ 8) (freeUnits k.tm r lg).length
      if (k.tm.roles.get? r).isNone || r = k.ref.role || n = 0 then retireX s k 1 d 0 else moveUnits s k d r k.ref.role lg n) := by
  have h₁ : bits (k.th.rx b) 1 0 = (k.th.rx b).toNat % 4 := by rw [bits_eq]; simp
  have h₂ : bits (k.th.rx b) 15 8 = (k.th.rx b).toNat / 2 ^ 8 % 2 ^ 8 := bits_eq ..
  show execClaim d a b s = _
  rw [execClaim, onCore_eq hk, h₁, h₂]

/-! ### SGRP (R183) -/

theorem execSgrp_eq {s : State} {k : Core} (hk : s.core = some k) (d a b : R5) :
    exec (.sgrp d a b) s = .next (
      let idx := k.th.rx a
      let cfg := k.th.rx b
      let gr := groupOf s (k.ref.group idx.toNat)
      let n := cfg.toNat % 16
      let lg := match k.tm.roles.get? k.ref.role with | some r => r.bind.getD idx.toNat 0 | none => 0
      let free := freeUnits k.tm k.ref.role lg
      if 15 < idx.toNat then threadFault s k .groupRange 0 idx cfg
      else if gr.state = .live ∨ gr.state = .closing then threadFault s k .groupBusy 0 idx cfg
      else if ¬(cfg.toNat < 2 ^ 32 ∧ cfg.toNat / 2 ^ 4 % 2 ^ 12 = 0 ∧ 1 ≤ n ∧ n ≤ 8) then threadFault s k .sgrpFormat 0 idx cfg
      else if ¬(n ≤ free.length ∧ residentGroups s k.ref.hand lg < 16) then retireX s k 1 d 0
      else
        let s := s.updTeam k.ref.team fun t => setFree t k.ref.role lg (free.drop n)
        let x := freshGroup gr lg (free.take n) (BitVec.ofNat 16 (cfg.toNat / 2 ^ 16))
        retireX { s with groups := s.groups.set (groupKey (k.ref.group idx.toNat)) x } k 1 d 1) := by
  have hlt := (k.th.rx b).isLt
  have h₁ : bits (k.th.rx b) 3 0 = (k.th.rx b).toNat % 16 := by rw [bits_eq]; simp
  have h₂ : bits (k.th.rx b) 15 4 = (k.th.rx b).toNat / 2 ^ 4 % 2 ^ 12 := bits_eq ..
  have h₃ : bits (k.th.rx b) 63 32 = 0 ↔ (k.th.rx b).toNat < 2 ^ 32 := by rw [bits_eq]; omega
  have h₄ : BitVec.ofNat 16 (bits (k.th.rx b) 31 16) = BitVec.ofNat 16 ((k.th.rx b).toNat / 2 ^ 16) := by
    rw [bits_eq]; apply BitVec.eq_of_toNat_eq; simp
  show execSgrp d a b s = _
  rw [execSgrp, onCore_eq hk]
  simp only [h₁, h₂, h₄, Bool.or_eq_true, decide_eq_true_eq]
  have hform : (((bits (k.th.rx b) 63 32 ≠ 0 ∨ (k.th.rx b).toNat / 2 ^ 4 % 2 ^ 12 ≠ 0) ∨ (k.th.rx b).toNat % 16 = 0) ∨
      8 < (k.th.rx b).toNat % 16) ↔ ¬((k.th.rx b).toNat < 2 ^ 32 ∧ (k.th.rx b).toNat / 2 ^ 4 % 2 ^ 12 = 0 ∧
        1 ≤ (k.th.rx b).toNat % 16 ∧ (k.th.rx b).toNat % 16 ≤ 8) := by rw [ne_eq, h₃]; omega
  have hroom (x y : Nat) : (x < (k.th.rx b).toNat % 16 ∨ 16 ≤ y) ↔ ¬((k.th.rx b).toNat % 16 ≤ x ∧ y < 16) := by omega
  simp only [hform, hroom] <;> rfl

/-- What SGRP leaves where it sets a group up. -/
theorem sgrp_frame {s : State} {k : Core} (hk : s.core = some k) (f : Team → Team) (g : GroupRef) (x : Group) (d : R5) (v : W64) :
    let t := retireX { s.updTeam k.ref.team f with groups := s.groups.set (groupKey g) x } k 1 d v
    Retired s t k (k.next 1) [(d, v)] ∧ t.group? g = some x ∧ t.team? k.ref.team = some (f k.tm) ∧ otherGroups s t g ∧
      otherTeams s t k.ref.team ∧ sameBytes s t ∧ { t with threads := s.threads, teams := s.teams, groups := s.groups } = s := by
  intro t
  obtain ⟨hr, ht, hts, hb, -⟩ := retireTeam_frame hk f d v
  refine ⟨⟨hr.thread, hr.others⟩, Map.get?_set_self .., ht, fun q hq => Map.get?_set_ne _ _ hq, hts, hb, rfl⟩

/-! ### QSTAT (R188) -/

theorem execQstat_eq {s : State} {k : Core} (hk : s.core = some k) (d a : R5) :
    exec (.qstat d a) s = .next (
      if 15 < (k.th.rx a).toNat then threadFault s k .groupRange 0 (k.th.rx a) 0
      else retireX s k 1 d (qstatWord (groupOf s (k.ref.group (k.th.rx a).toNat)) (onHelper k (k.th.rx a).toNat))) := onCore_eq hk _

theorem GState.code_lt (g : GState) : g.code < 4 := by cases g <;> decide

/-- The fields of QSTAT's word, of a queue and shows of fewer than 256. -/
theorem word_fields {l q n c : Nat} (b : Bool) (hl : l < 2 ^ 32) (hq : q < 256) (hn : n < 256) (hc : c < 4) :
    let v : W64 := BitVec.ofNat 64 (l * 2 ^ 32 + q % 256 * 2 ^ 24 + n % 256 * 2 ^ 16 + c * 2 ^ 14 + (if b then 2 ^ 13 else 0))
    v.toNat / 2 ^ 32 = l ∧ v.toNat / 2 ^ 24 % 2 ^ 8 = q ∧ v.toNat / 2 ^ 16 % 2 ^ 8 = n ∧ v.toNat / 2 ^ 14 % 4 = c ∧
      (v.toNat / 2 ^ 13 % 2 = 1 ↔ b = true) ∧ v.toNat % 2 ^ 13 = 0 := by
  intro v
  have hv : v.toNat = l * 2 ^ 32 + q % 256 * 2 ^ 24 + n % 256 * 2 ^ 16 + c * 2 ^ 14 + (if b then 2 ^ 13 else 0) := by
    rw [BitVec.toNat_ofNat, Nat.mod_eq_of_lt]; split <;> omega
  rw [hv]
  cases b <;> simp only [Bool.false_eq_true, if_true, if_false, iff_true, iff_false] <;> omega

/-- A run has started. -/
def Run.begun (r : Option Run) : Bool := match r with | some r => r.started | none => false

theorem Run.begun_iff (r : Option Run) : Run.begun r = true ↔ ∃ x, r = some x ∧ x.started = true := by
  cases r <;> simp [Run.begun]

theorem qstatWord_eq (gr : Group) : qstatWord gr false =
    BitVec.ofNat 64 ((if gr.state = .unset then 0 else gr.lastRet : BitVec 32).toNat * 2 ^ 32 + gr.queue.length % 256 * 2 ^ 24 +
      gr.shows.length % 256 * 2 ^ 16 + gr.state.code * 2 ^ 14 + (if Run.begun gr.run then 2 ^ 13 else 0)) := by
  unfold qstatWord Run.begun
  rfl

theorem qstatWord_helper_eq {gr : Group} (h : gr.state ≠ .unset) : qstatWord gr true =
    BitVec.ofNat 64 ((gr.hnext - 1 - BitVec.ofNat 32 gr.hqueue.length).toNat * 2 ^ 32 + gr.hqueue.length % 256 * 2 ^ 24 +
      gr.hshows.length % 256 * 2 ^ 16 + gr.state.code * 2 ^ 14 + (if Run.begun gr.hrun then 2 ^ 13 else 0)) := by
  unfold qstatWord Run.begun
  simp only [if_neg h, if_true] <;> rfl

/-- The fields of QSTAT's word for a group's own queue. -/
theorem qstatWord_fields (gr : Group) (hq : gr.queue.length < 256) (hn : gr.shows.length < 256) :
    let v := qstatWord gr false
    v.toNat / 2 ^ 32 = (if gr.state = .unset then (0 : BitVec 32).toNat else gr.lastRet.toNat) ∧ v.toNat / 2 ^ 24 % 2 ^ 8 = gr.queue.length ∧
      v.toNat / 2 ^ 16 % 2 ^ 8 = gr.shows.length ∧ v.toNat / 2 ^ 14 % 4 = gr.state.code ∧
      (v.toNat / 2 ^ 13 % 2 = 1 ↔ ∃ r, gr.run = some r ∧ r.started = true) ∧ v.toNat % 2 ^ 13 = 0 := by
  rw [← Run.begun_iff]
  rw [← apply_ite BitVec.toNat, qstatWord_eq]
  exact word_fields _ (BitVec.isLt _) hq hn gr.state.code_lt

/-- The fields of QSTAT's word for a handler's helper queue (R296). -/
theorem qstatWord_helper_fields (gr : Group) (hs : gr.state ≠ .unset) (hq : gr.hqueue.length < 256) (hn : gr.hshows.length < 256) :
    let v := qstatWord gr true
    v.toNat / 2 ^ 32 = (gr.hnext - 1 - BitVec.ofNat 32 gr.hqueue.length).toNat ∧ v.toNat / 2 ^ 24 % 2 ^ 8 = gr.hqueue.length ∧
      v.toNat / 2 ^ 16 % 2 ^ 8 = gr.hshows.length ∧ (v.toNat / 2 ^ 13 % 2 = 1 ↔ ∃ r, gr.hrun = some r ∧ r.started = true) := by
  rw [← Run.begun_iff]
  rw [qstatWord_helper_eq hs]
  obtain ⟨h₁, h₂, h₃, -, h₅, -⟩ := word_fields (Run.begun gr.hrun) (BitVec.isLt (gr.hnext - 1 - BitVec.ofNat 32 gr.hqueue.length)) hq hn
    gr.state.code_lt
  exact ⟨h₁, h₂, h₃, h₅⟩

/-- Settles O35: each instruction's checks in order, then the frame of a team's or a group's change; QSTAT's word by its fields. -/
theorem groupUnits : Obligations.GroupUnits := by
  unfold Obligations.GroupUnits
  intro s k d a b hk idx cfg g gr lg free n good room fault
  have hth := core_thread hk
  have hsgrp := execSgrp_eq hk d a b
  have hqstat := execQstat_eq hk d a
  refine ⟨fun hi => ?range, fun hi hs => ?busy, fun hi hs => ?unset, ?move,
    fun hi hh hq hn => ?stat, fun hi hd he hs hq hn => ?hstat, fun hi => ?statRange⟩
  case range => exact hsgrp.trans (congrArg _ (if_pos hi))
  case busy => exact hsgrp.trans (congrArg _ ((if_neg (Nat.not_lt.2 hi)).trans (if_pos hs)))
  case unset =>
    have hidle : ¬(gr.state = .live ∨ gr.state = .closing) := by rcases hs with h | h <;> simp [h]
    have hsgrp := hsgrp.trans (congrArg _ ((if_neg (Nat.not_lt.2 hi)).trans (if_neg hidle)))
    have hframe := sgrp_frame hk (fun t => setFree t k.ref.role lg (free.drop n)) g
      (freshGroup gr lg (free.take n) (BitVec.ofNat 16 (cfg.toNat / 2 ^ 16))) d 1
    refine ⟨fun hg => hsgrp.trans (congrArg _ (if_pos hg)), fun hg hr => ⟨_, ?_, retireX_alone hth 1 d 0⟩, fun hg hr => ⟨_, ?_, hframe⟩⟩
    · exact hsgrp.trans (congrArg _ ((if_neg (not_not.2 hg)).trans (if_pos hr)))
    · exact hsgrp.trans (congrArg _ ((if_neg (not_not.2 hg)).trans (if_neg (not_not.2 hr))))
  case move =>
    intro r lg n mine theirs other
    have hgive := execGive_eq hk d a b
    have hclaim := execClaim_eq hk d a b
    have hno : ((k.tm.roles.get? r).isNone || decide (r = k.ref.role)) = true ↔ ¬other := by
      cases h : k.tm.roles.get? r <;> simp [other, h]
    have hgive_no : ((k.tm.roles.get? r).isNone || decide (r = k.ref.role) || decide (n = 0) || decide (mine.length < n)) = true ↔
        ¬other ∨ n = 0 ∨ mine.length < n := by rw [Bool.or_eq_true, Bool.or_eq_true, hno]; simp [or_assoc]
    have hclaim_no : ((k.tm.roles.get? r).isNone || decide (r = k.ref.role) || decide (min n theirs.length = 0)) = true ↔
        ¬other ∨ min n theirs.length = 0 := by rw [Bool.or_eq_true, hno, decide_eq_true_eq]
    refine ⟨fun ho h₁ h₂ => ⟨_, hgive.trans (congrArg _ (if_neg fun h => ?_)), moveUnits_retired hk d ho.2 lg n⟩,
      fun h => ⟨_, hgive.trans (congrArg _ (if_pos (hgive_no.2 h))), retireX_alone hth 1 d 0⟩,
      fun ho h₁ => ⟨_, hclaim.trans (congrArg _ (if_neg fun h => ?_)), moveUnits_retired hk d (Ne.symm ho.2) lg _⟩,
      fun h => ⟨_, hclaim.trans (congrArg _ (if_pos (hclaim_no.2 h))), retireX_alone hth 1 d 0⟩⟩
    · rcases hgive_no.1 h with h | h | h
      · exact h ho
      · omega
      · omega
    · rcases hclaim_no.1 h with h | h
      · exact h ho
      · omega
  case stat =>
    have hhelp : onHelper k idx.toNat = false := Bool.eq_false_iff.2 (mt (onHelper_iff ..).1 hh)
    refine ⟨_, _, hqstat.trans (congrArg _ (if_neg (Nat.not_lt.2 hi))), retireX_alone hth 1 d _, ?_⟩
    rw [hhelp]
    exact qstatWord_fields gr hq hn
  case hstat =>
    have hhelp : onHelper k idx.toNat = true := (onHelper_iff ..).2 ⟨hd, he⟩
    refine ⟨_, _, hqstat.trans (congrArg _ (if_neg (Nat.not_lt.2 hi))), retireX_alone hth 1 d _, ?_⟩
    rw [hhelp]
    exact qstatWord_helper_fields gr hs hq hn
  case statRange => rw [hqstat, if_pos hi]

end Sys2Proof.Machine
end

section
/-! Cancellation of deals (R40, R187). -/

namespace Sys2Proof.Machine

/-- A state that differs in its groups alone has the same memory. -/
theorem sameBytes_of_groups {s t : State} (h : { t with groups := s.groups } = s) : sameBytes s t := by
  rw [← h]; exact ⟨fun _ => rfl, fun _ => rfl, fun _ _ => rfl⟩

/-! ### One queue -/

theorem dealMatches_eq (v m : Nat) (x : Deal) :
    dealMatches v m x = (decide (x.w0.toNat / 2 ^ 9 % 2 = 1) && !x.cancelled && decide ((x.w0.toNat / 2 ^ 16 % 2 ^ 8 &&& m) = (v &&& m))) := by
  rw [dealMatches, bits_eq, bits_eq]; rfl

theorem cancelQueue_idle (v m : Nat) (q : List Deal) : cancelQueue v m q none = (markDeals v m q, none, q.countP (dealMatches v m)) := rfl

/-- A running deal is stopped; those behind it are marked. -/
theorem cancelQueue_running (v m : Nat) (d : Deal) (ds : List Deal) {y : Run} (h : y.started = true) :
    cancelQueue v m (d :: ds) (some y) =
      (d :: markDeals v m ds, some (if !y.stopped && dealMatches v m y.deal then { y with stopped := true } else y),
        ds.countP (dealMatches v m) + if !y.stopped && dealMatches v m y.deal then 1 else 0) := by
  simp [cancelQueue, runMatches, h]

/-- A deal that has not taken its first slot is marked with the others, and its run ends at once. -/
theorem cancelQueue_waiting (v m : Nat) (d : Deal) (ds : List Deal) {y : Run} (h : y.started = false) :
    cancelQueue v m (d :: ds) (some y) =
      (markDeals v m (d :: ds), some (if dealMatches v m d then { y with stopped := true, s := 0, pc := 0 } else y),
        (d :: ds).countP (dealMatches v m)) := by
  simp [cancelQueue, h]

/-! ### The groups of a role -/

/-- What CANCEL makes of the group at index `i` of the thread's role. -/
def cancelled (k : Core) (sel : W64) (v m i : Nat) (x : Group) : Group :=
  if sel.getLsbD i = false then x
  else if onHelper k i then { x with hqueue := (cancelQueue v m x.hqueue x.hrun).1, hrun := (cancelQueue v m x.hqueue x.hrun).2.1 }
  else if x.state = .live ∨ x.state = .closing then { x with queue := (cancelQueue v m x.queue x.run).1, run := (cancelQueue v m x.queue x.run).2.1 }
  else x

/-- How many deals of it CANCEL marks or stops. -/
def cancelCount (k : Core) (sel : W64) (v m i : Nat) (x : Group) : Nat :=
  if sel.getLsbD i = false then 0
  else if onHelper k i then (cancelQueue v m x.hqueue x.hrun).2.2
  else if x.state = .live ∨ x.state = .closing then (cancelQueue v m x.queue x.run).2.2
  else 0

/-- One index of CANCEL's loop. -/
def cancelStep (k : Core) (sel : W64) (v m : Nat) (acc : State × Nat) (i : Nat) : State × Nat :=
  if sel.getLsbD i then cancelGroup k v m acc i else acc

theorem groupKey_group_inj {t : ThreadRef} {i j : Nat} : groupKey (t.group i) = groupKey (t.group j) ↔ i = j := by
  simp [groupKey, ThreadRef.group]

theorem groupOf_emptyGroup {s : State} {g : GroupRef} (h : s.group? g = none) : groupOf s g = State.emptyGroup := by
  simp only [groupOf, h, Option.getD_none]

/-- One index changes its own group, where there is one, and counts its deals. -/
theorem cancelStep_spec (k : Core) (sel : W64) (v m : Nat) (acc : State × Nat) (i : Nat) :
    (∀ q, (cancelStep k sel v m acc i).1.group? q =
      if groupKey q = groupKey (k.ref.group i) then (acc.1.group? q).map (cancelled k sel v m i) else acc.1.group? q) ∧
    (cancelStep k sel v m acc i).2 = acc.2 + cancelCount k sel v m i (groupOf acc.1 (k.ref.group i)) ∧
    ∀ gs, { (cancelStep k sel v m acc i).1 with groups := gs } = { acc.1 with groups := gs } := by
  have hsame (q : GroupRef) (hq : groupKey q = groupKey (k.ref.group i)) : acc.1.group? q = acc.1.group? (k.ref.group i) := by
    simp only [State.group?, hq]
  have hupd (f : Group → Group) (hf : ∀ x, acc.1.group? (k.ref.group i) = some x → f x = cancelled k sel v m i x) (q : GroupRef) :
      (acc.1.updGroup (k.ref.group i) f).group? q =
        if groupKey q = groupKey (k.ref.group i) then (acc.1.group? q).map (cancelled k sel v m i) else acc.1.group? q := by
    rw [State.group?_updGroup]
    split
    · next hq =>
      rw [hsame q hq]
      cases hx : acc.1.group? (k.ref.group i) with
      | none => rfl
      | some x => simp [hf x hx]
    · rfl
  have hkeep (h : ∀ x, acc.1.group? (k.ref.group i) = some x → cancelled k sel v m i x = x) (q : GroupRef) :
      acc.1.group? q = if groupKey q = groupKey (k.ref.group i) then (acc.1.group? q).map (cancelled k sel v m i) else acc.1.group? q := by
    split
    · next hq =>
      rw [hsame q hq]
      cases hx : acc.1.group? (k.ref.group i) with
      | none => rfl
      | some x => simp [h x hx]
    · rfl
  unfold cancelStep
  by_cases hs : sel.getLsbD i = true
  · rw [if_pos hs]
    unfold cancelGroup
    dsimp only
    by_cases hh : onHelper k i = true
    · rw [if_pos hh]
      refine ⟨hupd _ fun x hx => ?_, ?_, fun _ => rfl⟩
      · simp [cancelled, hs, hh, groupOf_eq hx]
      · simp [cancelCount, hs, hh]
    · rw [if_neg hh]
      by_cases hl : (groupOf acc.1 (k.ref.group i)).state = .live ∨ (groupOf acc.1 (k.ref.group i)).state = .closing
      · rw [if_pos (by simpa using hl)]
        refine ⟨hupd _ fun x hx => ?_, ?_, fun _ => rfl⟩
        · rw [groupOf_eq hx] at hl; simp [cancelled, hs, hh, groupOf_eq hx, hl]
        · simp [cancelCount, hs, hh, hl]
      · rw [if_neg (by simpa using hl)]
        refine ⟨hkeep fun x hx => ?_, ?_, fun _ => rfl⟩
        · rw [groupOf_eq hx] at hl; simp [cancelled, hh, hl]
        · simp [cancelCount, hh, hl]
  · rw [if_neg hs]
    refine ⟨hkeep fun x _ => ?_, ?_, fun _ => rfl⟩
    · simp [cancelled, Bool.eq_false_iff.2 hs]
    · simp [cancelCount, Bool.eq_false_iff.2 hs]

/-- CANCEL's loop over distinct indices: each group of one of them changes once, and the counts add up. -/
theorem cancel_fold (k : Core) (sel : W64) (v m : Nat) (is : List Nat) (h : is.Nodup) (acc : State × Nat) :
    (∀ i ∈ is, (is.foldl (cancelStep k sel v m) acc).1.group? (k.ref.group i) = (acc.1.group? (k.ref.group i)).map (cancelled k sel v m i)) ∧
    (∀ q, (∀ i ∈ is, groupKey q ≠ groupKey (k.ref.group i)) → (is.foldl (cancelStep k sel v m) acc).1.group? q = acc.1.group? q) ∧
    (is.foldl (cancelStep k sel v m) acc).2 = acc.2 + (is.map fun i => cancelCount k sel v m i (groupOf acc.1 (k.ref.group i))).sum ∧
    ∀ gs, { (is.foldl (cancelStep k sel v m) acc).1 with groups := gs } = { acc.1 with groups := gs } := by
  induction is generalizing acc with
  | nil => exact ⟨fun _ h => absurd h (List.not_mem_nil), fun _ _ => rfl, rfl, fun _ => rfl⟩
  | cons i is ih =>
    obtain ⟨hi, hn⟩ := List.nodup_cons.1 h
    obtain ⟨hg, hc, hr⟩ := cancelStep_spec k sel v m acc i
    obtain ⟨ihg, ihq, ihc, ihr⟩ := ih hn (cancelStep k sel v m acc i)
    have hother {j : Nat} (hj : j ≠ i) : (cancelStep k sel v m acc i).1.group? (k.ref.group j) = acc.1.group? (k.ref.group j) := by
      rw [hg, if_neg (mt groupKey_group_inj.1 hj)]
    refine ⟨fun j hj => ?_, fun q hq => ?_, ?_, fun gs => (ihr gs).trans (hr gs)⟩
    · rcases List.mem_cons.1 hj with rfl | hj
      · rw [List.foldl_cons, ihq _ fun x hx => mt groupKey_group_inj.1 (ne_of_mem_of_not_mem hx hi).symm, hg, if_pos rfl]
      · rw [List.foldl_cons, ihg j hj, hother (ne_of_mem_of_not_mem hj hi)]
    · rw [List.foldl_cons, ihq q fun x hx => hq x (List.mem_cons_of_mem _ hx), hg, if_neg (hq i List.mem_cons_self)]
    · have hmap : (is.map fun j => cancelCount k sel v m j (groupOf (cancelStep k sel v m acc i).1 (k.ref.group j))) =
          is.map fun j => cancelCount k sel v m j (groupOf acc.1 (k.ref.group j)) :=
        List.map_congr_left fun j hj => by rw [groupOf, groupOf, hother (ne_of_mem_of_not_mem hj hi)]
      rw [List.foldl_cons, ihc, hc, hmap, List.map_cons, List.sum_cons, Nat.add_assoc]

/-- CANCEL's loop over the sixteen indices, and its count. -/
def cancelLoop (k : Core) (sel : W64) (v m : Nat) (s : State) : State × Nat := (List.range 16).foldl (cancelStep k sel v m) (s, 0)

theorem cancelLoop_spec (k : Core) (sel : W64) (v m : Nat) (s : State) :
    (∀ i < 16, (cancelLoop k sel v m s).1.group? (k.ref.group i) = (s.group? (k.ref.group i)).map (cancelled k sel v m i)) ∧
    (∀ q, (∀ i < 16, groupKey q ≠ groupKey (k.ref.group i)) → (cancelLoop k sel v m s).1.group? q = s.group? q) ∧
    (cancelLoop k sel v m s).2 = ((List.range 16).map fun i => cancelCount k sel v m i (groupOf s (k.ref.group i))).sum ∧
    ∀ gs, { (cancelLoop k sel v m s).1 with groups := gs } = { s with groups := gs } := by
  obtain ⟨hg, hq, hc, hr⟩ := cancel_fold k sel v m (List.range 16) List.nodup_range (s, 0)
  exact ⟨fun i hi => hg i (List.mem_range.2 hi), fun q h => hq q fun i hi => h i (List.mem_range.1 hi), hc.trans (Nat.zero_add _), hr⟩

/-- The loop writes no memory. -/
theorem cancelLoop_bytes (k : Core) (sel : W64) (v m : Nat) (s : State) : sameBytes s (cancelLoop k sel v m s).1 :=
  sameBytes_of_groups ((cancelLoop_spec k sel v m s).2.2.2 s.groups)

theorem execCancel_eq {s : State} {k : Core} (hk : s.core = some k) (d a b : R5) :
    exec (.cancel d a b) s = .next (
      let r := cancelLoop k (k.th.rx a) ((k.th.rx b).toNat % 2 ^ 8) ((k.th.rx b).toNat / 2 ^ 8 % 2 ^ 8) s
      retireX r.1 k 1 d (BitVec.ofNat 64 r.2)) := by
  have h₁ : bits (k.th.rx b) 7 0 = (k.th.rx b).toNat % 2 ^ 8 := by rw [bits_eq]; simp
  have h₂ : bits (k.th.rx b) 15 8 = (k.th.rx b).toNat / 2 ^ 8 % 2 ^ 8 := bits_eq ..
  show execCancel d a b s = _
  rw [execCancel, onCore_eq hk, h₁, h₂]
  simp only [List.foldl_filter]
  rfl

/-- Settles O36: the loop over the sixteen indices is `cancel_fold`, one queue is `cancelQueue` by cases of its run. -/
theorem cancels : Obligations.Cancels := by
  unfold Obligations.Cancels
  refine ⟨fun s k d a b hk => ?groups, fun v m q r => ?queue⟩
  case groups =>
    intro v m handler live main help count after
    obtain ⟨hg, hq, hc, hr⟩ := cancelLoop_spec k (k.th.rx a) v m s
    have hths : (cancelLoop k (k.th.rx a) v m s).1.threads = s.threads := by have e := congrArg State.threads (hr []); exact e
    have hth : (cancelLoop k (k.th.rx a) v m s).1.thread? k.ref = some k.th := by rw [State.thread?, hths]; exact core_thread hk
    obtain ⟨⟨hthread, hothers⟩, -⟩ := retireX_alone hth 1 d (BitVec.ofNat 64 (cancelLoop k (k.th.rx a) v m s).2)
    have hcount : (cancelLoop k (k.th.rx a) v m s).2 = ((List.range 16).map count).sum := by
      rw [hc]
      refine congrArg List.sum (List.map_congr_left fun i _ => ?_)
      simp only [cancelCount, onHelper_iff]
      rfl
    have he : exec (.cancel d a b) s = .next (retireX (cancelLoop k (k.th.rx a) v m s).1 k 1 d (BitVec.ofNat 64 (cancelLoop k (k.th.rx a) v m s).2)) :=
      execCancel_eq hk d a b
    rw [hcount] at hthread hothers he
    have hafter (i : Nat) : cancelled k (k.th.rx a) v m i = after i := by
      funext x
      simp only [cancelled, onHelper_iff]
      rfl
    refine ⟨_, he, ⟨hthread, fun q hq => (hothers q hq).trans ?others⟩, ?rest, ?bytes, fun i hi => ?group, hq⟩
    case others => rw [State.thread?, hths]; rfl
    case rest => exact congrArg (fun x : State => { x with threads := s.threads }) (hr s.groups)
    case bytes => exact cancelLoop_bytes k (k.th.rx a) v m s
    case group => rw [← hafter]; exact hg i hi
  case queue =>
    intro hit mark
    have hhit : dealMatches v m = hit := funext fun x => dealMatches_eq v m x
    have hmark (q : List Deal) : markDeals v m q = q.map mark := by rw [markDeals, hhit]
    refine ⟨fun hr => ?_, fun y d ds hr hy hq => ?_, fun y d ds hr hy hq => ?_⟩
    · rw [hr, cancelQueue_idle, hhit, hmark]
    · rw [hr, hq, cancelQueue_running v m d ds hy, hhit, hmark]
    · refine ⟨_, by rw [hr, hq, cancelQueue_waiting v m d ds hy, hhit, hmark], fun h => if_neg (by simp [h]), fun h => ?_⟩
      rw [if_pos h]; exact ⟨rfl, rfl⟩

end Sys2Proof.Machine
end

section
/-! Lane groups: what a lane reaches, what results that land leave, and the issue of lane instructions (R33, R36, R37). -/

namespace Sys2Proof.Machine

/-! ### The lane of a group -/

/-- What a lane reaches is what the state holds: its group, team, owner and context, and the deal that the group runs. -/
structure LaneAt (s : State) (l : Lane) : Prop where
  group  : s.group? l.ref = some l.gr
  team   : s.team? l.ref.team = some l.tm
  thread : s.thread? l.ref.owner = some l.th
  ctx    : s.ctx? l.tm.ctx = some l.ctx
  run    : if l.helper then l.gr.hrun = some l.run else l.gr.hrun = none ∧ l.gr.run = some l.run
  line   : l.line = linkedLine s l.ref.hand l.tm.ctx l.run.deal.img (l.run.pc / 16)

theorem laneOf_spec {s : State} {g : GroupRef} {l : Lane} (h : s.laneOf g = some l) : l.ref = g ∧ LaneAt s l := by
  unfold State.laneOf at h
  split at h
  · next gr tm th hg ht hth =>
    split at h
    · next c hc =>
      dsimp only at h
      split at h
      · next r hr => cases h; exact ⟨rfl, hg, ht, hth, hc, by rw [if_pos rfl]; exact hr, rfl⟩
      · next r hr hr' => cases h; exact ⟨rfl, hg, ht, hth, hc, by rw [if_neg (by simp)]; exact ⟨hr, hr'⟩, rfl⟩
      · cases h
    · cases h
  · cases h

/-- The deal that a lane runs, changed in its group. -/
def Lane.withRun (l : Lane) (f : Run → Run) (g : Group) : Group :=
  if l.helper then { g with hrun := g.hrun.map f } else { g with run := g.run.map f }

theorem updRun_eq (s : State) (l : Lane) (f : Run → Run) : updRun s l f = s.updGroup l.ref (l.withRun f) := rfl

/-- The group at an update of its own. -/
theorem group?_updGroup_self {s : State} {g : GroupRef} {x : Group} (h : s.group? g = some x) (f : Group → Group) :
    (s.updGroup g f).group? g = some (f x) := by
  rw [State.group?_updGroup, if_pos rfl, h]; rfl

theorem otherGroups_updGroup (s : State) (g : GroupRef) (f : Group → Group) : otherGroups s (s.updGroup g f) g := fun q hq => by
  rw [State.group?_updGroup, if_neg hq]

theorem otherGroups_refl (s : State) (g : GroupRef) : otherGroups s s g := fun _ _ => rfl

theorem otherGroups_trans {s t u : State} {g : GroupRef} (h : otherGroups s t g) (h' : otherGroups t u g) : otherGroups s u g :=
  fun q hq => (h' q hq).trans (h q hq)

/-- An instruction that advances its lane from `v`, where the group is `g`, stands behind it. -/
theorem advance_passed {u v : State} {l : Lane} {g : Group} (hg : v.group? l.ref = some g) (ho : otherGroups u v l.ref) (w n : Nat) :
    Passed u (advance v l w n) l w n g := by
  refine ⟨?_, otherGroups_trans ho (otherGroups_trans (otherGroups_updGroup v l.ref _) (otherGroups_updGroup _ l.ref _))⟩
  unfold advance
  rw [updRun_eq, group?_updGroup_self (group?_updGroup_self hg _)]
  unfold Lane.withRun
  cases l.helper <;> rfl

/-- Where only its group changed before, nothing else has changed. -/
theorem advance_issued {u v : State} {l : Lane} {g : Group} (hg : v.group? l.ref = some g) (ho : otherGroups u v l.ref)
    (hr : { v with groups := u.groups } = u) (w n : Nat) : Issued u (advance v l w n) l w n g :=
  ⟨advance_passed hg ho w n, sameBytes_of_groups (t := advance v l w n) hr, hr⟩

/-! ### Results that land (R36) -/

/-- A group after results have landed: only its flags, its masks and the results themselves have changed. -/
def SameBut (a b : Group) : Prop := { b with fpx := a.fpx, m := a.m, pend := a.pend, landing := a.landing } = a

theorem SameBut.eq {a b : Group} (h : SameBut a b) : { b with fpx := a.fpx, m := a.m, pend := a.pend, landing := a.landing } = a := h

theorem SameBut.pos {a b : Group} (h : SameBut a b) : b.pos = a.pos := by
  have e := congrArg Group.pos h.eq; exact e

theorem SameBut.refl (a : Group) : SameBut a a := rfl

theorem SameBut.trans {a b c : Group} (h : SameBut a b) (h' : SameBut b c) : SameBut a c := by
  unfold SameBut at *
  rw [← h, ← h']

/-- Results that land at a group change nothing else of the groups. -/
structure Lands (s t : State) (g : GroupRef) : Prop where
  group  : ∀ x, s.group? g = some x → ∃ y, t.group? g = some y ∧ SameBut x y
  others : otherGroups s t g

namespace Lands

theorem refl (s : State) (g : GroupRef) : Lands s s g := ⟨fun x h => ⟨x, h, .refl x⟩, otherGroups_refl s g⟩

theorem trans {s t u : State} {g : GroupRef} (h : Lands s t g) (h' : Lands t u g) : Lands s u g := by
  refine ⟨fun x hx => ?_, otherGroups_trans h.others h'.others⟩
  obtain ⟨y, hy, hxy⟩ := h.group x hx
  obtain ⟨z, hz, hyz⟩ := h'.group y hy
  exact ⟨z, hz, hxy.trans hyz⟩

theorem of_groups {s t : State} {g : GroupRef} (h : t.groups = s.groups) : Lands s t g :=
  ⟨fun x hx => ⟨x, by rw [State.group?, h]; exact hx, .refl x⟩, fun q _ => by rw [State.group?, State.group?, h]⟩

theorem updGroup (s : State) (g : GroupRef) {f : Group → Group} (h : ∀ x, SameBut x (f x)) : Lands s (s.updGroup g f) g :=
  ⟨fun x hx => ⟨f x, group?_updGroup_self hx f, h x⟩, otherGroups_updGroup s g f⟩

end Lands

theorem writeChunk_groups (s : State) (t : ThreadRef) (i : Nat) (b : Bool) (j : Nat) (act : Mask) (data : Tile) :
    (writeChunk s t i b j act data).groups = s.groups := by
  unfold writeChunk
  split
  · split <;> rfl
  · rfl

theorem land_lands (s : State) (g : GroupRef) (d : Dst) (act : Mask) (data : Tile) (bs : Mask) : Lands s (land s g d act data bs) g := by
  cases d with
  | mask n => exact .updGroup s g fun _ => rfl
  | chunk b j => exact .of_groups (writeChunk_groups ..)
  | _ => exact .of_groups rfl

theorem landResult_lands (s : State) (g : GroupRef) (p : Pending) : Lands s (landResult s g p) g :=
  (Lands.updGroup s g (f := fun x => { x with fpx := x.fpx ||| p.flags }) fun _ => rfl).trans (land_lands _ g p.dst p.act p.data p.bits)

theorem landDue_lands (s : State) (g : GroupRef) (q : Nat) : Lands s (landDue s g q) g := by
  unfold landDue
  split
  · exact .refl s g
  · next gr _ =>
    have hfold (ps : List Pending) (s : State) : Lands s (ps.foldl (fun s p => landResult s g p) s) g := by
      induction ps generalizing s with
      | nil => exact .refl s g
      | cons p ps ih => exact (landResult_lands s g p).trans (ih _)
    exact (hfold _ s).trans (.updGroup _ g fun _ => rfl)

/-! ### Issue (R33, R37, R227) -/

theorem landDue_pos {s : State} {g : GroupRef} {x : Group} (h : s.group? g = some x) (q : Nat) :
    ∃ y, (landDue s g q).group? g = some y ∧ y.pos = x.pos := by
  obtain ⟨y, hy, hxy⟩ := (landDue_lands s g q).group x h
  exact ⟨y, hy, hxy.pos⟩

/-- The lane instructions of `w` words that R33 and R37 govern: each issues with its stage and await set. -/
def IssuesAs (i : Instr) (f : LaneW) (w : Nat) : Prop := ∃ body, ∀ s, exec i s = onLane s f w body

section
variable {s : State} {l : Lane} {f : LaneW} {i : Instr} {w : Nat} (hc : s.cur = .group l.ref) (hl : s.laneOf l.ref = some l)
  (hi : IssuesAs i f w)
include hc hl hi

/-- With its stage off it takes its position. -/
theorem exec_stage_off (h : ¬l.run.s.getLsbD f.stage.toNat = true) : exec i s = .next (advance (landDue s l.ref l.gr.pos) l w 1) := by
  obtain ⟨body, hb⟩ := hi
  simp only [hb, onLane, hc, issue, hl, stageOn, Bool.not_eq_true', Bool.eq_false_iff.2 h, if_true]

/-- With an awaited operation that has met a deferred fault, the group faults. -/
theorem exec_deferred (h : l.run.s.getLsbD f.stage.toNat = true) {o : Outst} (ho : deferredOn l f.await = some o) :
    exec i s = .next (deferredFault s l o) := by
  obtain ⟨body, hb⟩ := hi
  simp only [hb, onLane, hc, issue, hl, stageOn, h, ho, Bool.not_true, Bool.false_eq_true, if_false]

/-- With an awaited operation outstanding, it waits. -/
theorem exec_awaits (h : l.run.s.getLsbD f.stage.toNat = true) (ho : deferredOn l f.await = none) {n : Nat} (hn : n < 8)
    (ha : f.await.getLsbD n = true) (ht : tokenCount l.gr n ≠ 0) : exec i s = .next s := by
  obtain ⟨body, hb⟩ := hi
  have hany : ((List.range 8).any fun t => f.await.getLsbD t && tokenCount l.gr t ≠ 0) = true :=
    List.any_eq_true.2 ⟨n, List.mem_range.2 hn, by simp [ha, ht]⟩
  simp only [hb, onLane, hc, issue, hl, stageOn, h, ho, Bool.not_true, Bool.false_eq_true, if_false, hany, if_true]

end

/-- Each instruction of `laneInstrs` issues so. -/
theorem issuesAs_of_mem (f : LaneW) (m : MemW) (x : BitVec 32) : ∀ p ∈ laneInstrs f m x, IssuesAs p.1 f p.2 := by
  simp only [laneInstrs, List.map_cons, List.map_nil, List.flatMap_cons, List.flatMap_nil, List.append_nil, List.cons_append,
    List.nil_append, List.forall_mem_cons]
  and_intros
  on_goal 102 => exact fun _ h => absurd h List.not_mem_nil
  all_goals exact ⟨_, fun _ => rfl⟩

theorem execLaneNop_eq {s : State} {l : Lane} (hc : s.cur = .group l.ref) (hl : s.laneOf l.ref = some l) (n : BitVec 6) :
    exec (.laneNop n) s = .next (advance (landDue s l.ref (l.gr.pos + max 1 n.toNat - 1)) l 1 (max 1 n.toNat)) := by
  show execLaneNop n s = _
  simp only [execLaneNop, hc, hl]

/-- Settles O41: a lane NOP and an instruction whose stage is off advance behind the results due; an await holds the others. -/
theorem laneIssue : Obligations.LaneIssue := by
  unfold Obligations.LaneIssue
  intro s l f m x hc hl landed passes
  have hgroup := (laneOf_spec hl).2.group
  have hpass (n : Nat) (i : Instr) (w : Nat) (h : exec i s = .next (advance (landed n) l w n)) : passes i w n := by
    obtain ⟨y, hy, hp⟩ := landDue_pos hgroup (l.gr.pos + n - 1)
    exact ⟨_, y, h, hy, hp, advance_issued hy (otherGroups_refl _ _) rfl w n⟩
  refine ⟨fun n => hpass _ _ _ ?nop, fun p hp => ⟨fun h => hpass 1 p.1 p.2 ?off, fun o h ho => ?deferred, fun n hn h ho ha ht => ?awaits⟩⟩
  case nop =>
    have hn : max 1 n.toNat = if n = 0 then 1 else n.toNat := by
      split
      · next h => subst h; rfl
      · next h => exact Nat.max_eq_right (Nat.pos_of_ne_zero fun e => h (BitVec.eq_of_toNat_eq e))
    rw [← hn]
    exact execLaneNop_eq hc hl n
  case off => exact exec_stage_off hc hl (issuesAs_of_mem f m x p hp) h
  case deferred => exact exec_deferred hc hl (issuesAs_of_mem f m x p hp) h ho
  case awaits => exact exec_awaits hc hl (issuesAs_of_mem f m x p hp) h ho hn ha ht

end Sys2Proof.Machine
end

section
/-! Lane groups: what an instruction does once it issues, the delivery of flags (R113), tile names (R205), results (R36, R112), and the
elements that a name supplies (R201-R203). -/

namespace Sys2Proof.Machine

/-! ### Issue -/

namespace Issues

variable {s u : State} {f : LaneW} {l : Lane}

theorem laneAt (h : Issues s u f l) : LaneAt u l := (laneOf_spec h.lane).2

/-- An instruction that issues acts by its body on the state in which the results due have landed. -/
theorem onLane_eq (h : Issues s u f l) (w : Nat) (body : State → Lane → State) : onLane s f w body = .next (body u l) := by
  obtain ⟨hc, ⟨x, hx, hon, hdef, htok, hu⟩, hlane⟩ := h
  have hany : ((List.range 8).any fun t => f.await.getLsbD t && tokenCount x.gr t ≠ 0) = false := by
    refine List.any_eq_false.2 fun t ht => ?_
    cases ha : f.await.getLsbD t
    · simp
    · simp [htok t (List.mem_range.1 ht) ha]
  subst hu
  simp only [onLane, hc, issue, hx, stageOn, hon, hdef, hany, hlane, Bool.not_true, Bool.false_eq_true, if_false]

end Issues

/-! ### Tile names -/

theorem withTiles_ok {l : Lane} {ts : List Nat} (h : badTile l ts = none) (u v : State) : withTiles u l ts v = v := by
  simp only [withTiles, h]

theorem withTiles_bad {l : Lane} {ts : List Nat} {n : Nat} (h : badTile l ts = some n) (u v : State) :
    withTiles u l ts v = laneFault u l .tileRange 0 (BitVec.ofNat 64 n) := by
  simp only [withTiles, h]

/-- An instruction that checks its tiles gives what it does where they pass. -/
theorem withTiles_gives {s u v : State} {l : Lane} {i : Instr} {ts : List Nat} {P : State → Prop}
    (hi : exec i s = .next (withTiles u l ts v)) (hP : badTile l ts = none → P v) : LaneGives s u l i ts P :=
  ⟨fun h => ⟨v, by rw [hi, withTiles_ok h], hP h⟩, fun n h => by rw [hi, withTiles_bad h]⟩

/-- A fixed-latency instruction gives what its body does and the advance behind it. -/
theorem fixed_gives {s u : State} {f : LaneW} {l : Lane} (h : Issues s u f l) {i : Instr} {w : Nat} {ts : List Nat} {body : State → Lane → State}
    {P : State → Prop} (hi : exec i s = fixed s f w ts body) (hP : P (advance (body u l) l w 1)) : LaneGives s u l i ts P :=
  withTiles_gives (v := advance (body u l) l w 1) (by rw [hi, fixed, h.onLane_eq]) fun _ => hP

/-! ### Results -/

/-- A lane with the group's result of a pending destination. -/
theorem pendDst_group? {v : State} {l : Lane} {g : Group} (hg : v.group? l.ref = some g) (hp : g.pos = l.gr.pos) (lat : Nat) (d : Dst)
    (act : Mask) (data : Tile) (bs : Mask) (fl : Flags) :
    (pendDst v l lat d act data bs fl).group? l.ref = some { g with pend := g.pend ++ [l.result lat d act data bs fl] } := by
  rw [pendDst, group?_updGroup_self hg, hp]
  rfl

/-- The results of elements leave the lane's group with them pending. -/
theorem pendTile_group? {v : State} {l : Lane} (hg : v.group? l.ref = some l.gr) (lat : Nat) (wide : Bool) (vd : Nat) (act : Mask)
    (vals : List (W64 × Flags)) :
    (pendTile v l lat wide vd act vals).group? l.ref =
      some (l.withTile lat wide vd act (vals.map (·.1)) (activeFlags act (vals.map (·.2)))) := by
  cases wide
  · simp only [pendTile, Bool.false_eq_true, if_false, pendDst_group? hg rfl, Lane.withTile, List.map_map, Function.comp_def]
  · rw [pendTile, if_pos rfl, pendDst_group? (pendDst_group? hg rfl ..) rfl]
    simp only [Lane.withTile, List.append_assoc, List.cons_append, List.nil_append, if_true, List.map_map, Function.comp_def]

theorem pendTile_groups (v : State) (l : Lane) (lat : Nat) (wide : Bool) (vd : Nat) (act : Mask) (vals : List (W64 × Flags)) :
    { pendTile v l lat wide vd act vals with groups := v.groups } = v ∧ otherGroups v (pendTile v l lat wide vd act vals) l.ref := by
  cases wide
  · exact ⟨rfl, otherGroups_updGroup v l.ref _⟩
  · exact ⟨rfl, otherGroups_trans (otherGroups_updGroup v l.ref _) (otherGroups_updGroup _ l.ref _)⟩

/-- An instruction whose only effect is the results of its elements has issued. -/
theorem pendTile_issued {v : State} {l : Lane} (hg : v.group? l.ref = some l.gr) (lat : Nat) (wide : Bool) (vd : Nat) (act : Mask)
    (vals : List (W64 × Flags)) (w : Nat) :
    Issued v (advance (pendTile v l lat wide vd act vals) l w 1) l w 1
      (l.withTile lat wide vd act (vals.map (·.1)) (activeFlags act (vals.map (·.2)))) :=
  advance_issued (pendTile_group? hg ..) (pendTile_groups ..).2 (pendTile_groups ..).1 w 1

/-- No element raises a flag where each has the flags 0. -/
theorem activeFlags_zero (act : Mask) (xs : List Flags) (h : ∀ x ∈ xs, x = 0) : activeFlags act xs = 0 := by
  have hz : ∀ x ∈ List.zipWith (fun b f => if b then f else (0 : Flags)) (maskBits act) xs, x = 0 := fun x hx => by
    obtain ⟨i, hi, rfl⟩ := List.getElem_of_mem hx
    rw [List.getElem_zipWith]
    split
    · exact h _ (List.getElem_mem _)
    · rfl
  have hfold (ys : List Flags) (hy : ∀ y ∈ ys, y = 0) : orFlags ys = 0 := by
    rw [orFlags]
    induction ys with
    | nil => rfl
    | cons y ys ih => rw [List.foldl_cons, hy y (List.mem_cons_self ..)]; exact ih fun z hz => hy z (List.mem_cons_of_mem _ hz)
  exact hfold _ hz

/-! ### Elements -/

@[simp] theorem Tile.full_length (t : Tile) : t.full.length = 1024 := by
  simp only [Tile.full, List.length_take, List.length_append, List.length_replicate]
  omega

@[simp] theorem tileAt_length (s : State) (h key : Nat) : (tileAt s h key).length = 1024 := Tile.full_length _

theorem windowTile_length (s : State) (l : Lane) (n : Nat) : (windowTile s l n).length = 1024 := by
  unfold windowTile
  split
  · exact List.length_replicate
  · split
    · exact Tile.full_length _
    · split
      · exact Tile.full_length _
      · split
        · exact tileAt_length ..
        · exact Tile.full_length _
        · exact Tile.full_length _
        · exact Tile.full_length _
        · exact List.length_replicate

/-- A tile has 1024 elements. -/
@[simp] theorem Lane.tile_length (s : State) (l : Lane) (n : Nat) : (l.tile s n).length = 1024 := by
  unfold Lane.tile
  split
  · exact windowTile_length ..
  · exact tileAt_length ..

/-- A name supplies 1024 elements. -/
@[simp] theorem Lane.src_length (s : State) (l : Lane) (wide : Bool) (n : Nat) : (l.src s wide n).length = 1024 := by
  cases wide <;> simp [Lane.src]

/-- A list of `n` items is its items in order. -/
theorem map_range_getD {α : Type} {n : Nat} {xs : List α} (h : xs.length = n) (d : α) : (List.range n).map (xs.getD · d) = xs := by
  refine List.ext_getElem (by simp [h]) fun i h₁ h₂ => ?_
  simp [List.getD_eq_getElem?_getD, List.getElem?_eq_getElem h₂]

/-- The active items of 1024, by their positions. -/
theorem activeItems_eq {α : Type} (act : Mask) {xs : List α} (h : xs.length = 1024) (d : α) :
    activeItems act xs = ((List.range 1024).filter act.getLsbD).map fun i => (i, xs.getD i d) := by
  have hz : (List.zip (maskBits act) xs).zipIdx = (List.range 1024).map fun i => ((act.getLsbD i, xs.getD i d), i) := by
    refine List.ext_getElem (by simp [maskBits, h]) fun i h₁ h₂ => ?_
    have hi : i < xs.length := by simp at h₂; omega
    simp [maskBits, List.getD_eq_getElem?_getD, List.getElem?_eq_getElem hi]
  rw [activeItems, hz, List.filter_map, List.map_map]
  rfl

/-! ### Delivery (R113) -/

/-- The flags that the lane's results have still to deliver. -/
def Lane.flags (l : Lane) : Flags := orFlags (l.gr.coming.map (·.flags))

/-- A group whose results have delivered their flags early. -/
def Lane.spent (l : Lane) (x : Group) : Group :=
  { x with fpx := x.fpx ||| l.flags, pend := x.pend.map fun p => { p with flags := 0 },
           landing := if l.gr.frozen then x.landing else x.landing.map fun p => { p with flags := 0 } }

/-- Enabled flags stop the instruction. -/
theorem deliverLane_traps {l : Lane} (h : (l.gr.fpx ||| l.flags) &&& l.th.fpxmask ≠ 0) (u : State) (f : State → State) :
    deliverLane u l f = laneFault (u.updGroup l.ref l.spent) l .fpxTrap 0 ((l.gr.fpx ||| l.flags).setWidth 64) := if_pos h

/-- Else it goes on, the flags delivered. -/
theorem deliverLane_goes {l : Lane} (h : ¬(l.gr.fpx ||| l.flags) &&& l.th.fpxmask ≠ 0) (u : State) (f : State → State) :
    deliverLane u l f = f (u.updGroup l.ref l.spent) := if_neg h

theorem spent_group? {u : State} {l : Lane} (h : u.group? l.ref = some l.gr) : (u.updGroup l.ref l.spent).group? l.ref = some (l.spent l.gr) :=
  group?_updGroup_self h _

/-! ### Accesses beside the groups and teams that change with them -/

theorem Keeps.group? {s t : State} (h : Keeps s t) (g : GroupRef) : t.group? g = s.group? g := by
  rw [State.group?, State.group?, h.groups]

theorem Keeps.team? {s t : State} (h : Keeps s t) (r : TeamRef) : t.team? r = s.team? r := by
  rw [State.team?, State.team?, h.teams]

theorem Keeps.updGroup {s t : State} (h : Keeps s t) (g : GroupRef) (f : Group → Group) : Keeps (s.updGroup g f) (t.updGroup g f) :=
  ⟨congrArg (fun x : State => x.updGroup g f) h.kept, h.hands, h.dies, h.ctxs, h.mem, h.host⟩

theorem Keeps.otherGroups {s t : State} (h : Keeps s t) (g : GroupRef) : otherGroups s t g := fun q _ => h.group? q

/-- Accesses between two states whose groups and teams alone differ from those of `u` and `t`. -/
theorem Keeps.memOnly_but {s t u v : State} (h : Keeps s t) (hu : { s with groups := u.groups, teams := u.teams } = u)
    (hv : { v with groups := t.groups, teams := t.teams } = t) : MemOnly u { v with groups := u.groups, teams := u.teams } := by
  have h' : Keeps { s with groups := u.groups, teams := u.teams } { t with groups := u.groups, teams := u.teams } :=
    ⟨congrArg (fun x : State => { x with groups := u.groups, teams := u.teams }) h.kept, h.hands, h.dies, h.ctxs, h.mem, h.host⟩
  rw [hu, ← hv] at h'
  exact h'.memOnly

/-- A change of groups and teams writes no byte. -/
theorem noStore_of_groups {s t : State} (h : { t with groups := s.groups, teams := s.teams } = s) : NoStore s t := by
  have hm := congrArg State.mem h
  have hc := congrArg State.caches h
  have hx := congrArg State.ctxs h
  have he := congrArg State.errSeq h
  have hh := congrArg State.hostMem h
  have hs := congrArg State.hands h
  exact Flows.of_eq hm hc hx he.ge (fun _ => hh) fun q => by rw [State.hand, State.hand]; exact congrArg (fun m => (Map.getD m q State.emptyHand).scratch) hs

end Sys2Proof.Machine
end

section
/-! Fences and barriers of a lane group (R113, R235, R243, R245). -/

namespace Sys2Proof.Machine

/-! ### Fences -/

theorem writesDone_iff (gr : Group) : writesDone gr = true ↔ ¬∃ o ∈ gr.outst, o.done = false ∧ o.writes = true := by
  simp only [writesDone, Bool.not_eq_true', List.any_eq_false, Bool.and_eq_true, not_and, not_exists]

theorem loadsDone_iff (gr : Group) : loadsDone gr = true ↔ ¬∃ o ∈ gr.outst, o.done = false ∧ o.loads = true := by
  simp only [loadsDone, Bool.not_eq_true', List.any_eq_false, Bool.and_eq_true, not_and, not_exists]

/-- The lane stands behind its instruction as group `g`; beside that, and what changes in the teams, only memory was accessed. -/
structure Fenced (u t : State) (l : Lane) (g : Group) : Prop where
  passed : Passed u t l 2 1 g
  mem    : MemOnly u { t with groups := u.groups, teams := u.teams }
  store  : NoStore u t

/-- Accesses, then a change of the lane's group and of teams, then the advance. -/
theorem fenced_of_keeps {u v w x : State} {l : Lane} {g : Group} (hu : { v with groups := u.groups, teams := u.teams } = u)
    (ho : otherGroups u v l.ref) (hk : Keeps v w) (hs : NoStore v w) (hx : { x with groups := w.groups, teams := w.teams } = w)
    (hox : otherGroups w x l.ref) (hg : x.group? l.ref = some g) : Fenced u (advance x l 2 1) l g where
  passed := advance_passed hg (otherGroups_trans ho (otherGroups_trans (hk.otherGroups l.ref) hox)) 2 1
  mem := hk.memOnly_but (v := advance x l 2 1) hu hx
  store := (noStore_of_groups hu).trans (hs.trans (noStore_of_groups (t := advance x l 2 1) hx))

/-- What a fence of kind `k` does at its scope once it may: a release but for ACQ, an acquire but for REL. -/
def fencedAt (s : State) (h k sc : Nat) : State :=
  if k = 1 then releaseAt s h sc else acquireAt (if k = 0 then s else releaseAt s h sc) h sc

theorem fencedAt_keeps (s : State) (h k sc : Nat) : Keeps s (fencedAt s h k sc) := by
  unfold fencedAt
  split
  · exact releaseAt_keeps ..
  · refine .trans ?_ (acquireAt_keeps ..)
    split
    · exact .refl s
    · exact releaseAt_keeps ..

theorem fencedAt_noStore (s : State) (h k sc : Nat) : NoStore s (fencedAt s h k sc) := by
  unfold fencedAt
  split
  · exact releaseAt_noStore ..
  · refine .trans ?_ (acquireAt_noStore ..)
    split
    · exact noStore_refl s
    · exact releaseAt_noStore ..

theorem fencedAt_released {h : Nat} (hh : h < 256) (s : State) (sc : Nat) : releasedAt (fencedAt s h 1 sc) h sc :=
  releaseAt_released s h sc hh

theorem fencedAt_acquired {h k : Nat} (hh : h < 256) (hk : k ≠ 1) (s : State) (sc : Nat) : acquiredAt (fencedAt s h k sc) h sc := by
  rw [fencedAt, if_neg hk]
  exact acquireAt_acquired _ h sc hh

theorem execVfence_eq {s u : State} {f : LaneW} {l : Lane} (h : Issues s u f l) : exec (.vfence f) s = .next
    (if (f.op3.toNat ≠ 0 && !writesDone l.gr) || !loadsDone l.gr then u
     else deliverLane u l fun v => advance (fencedAt v l.ref.hand f.op3.toNat (f.vd.toNat % 8)) l 2 1) := by
  show execVfence f s = _
  rw [execVfence, h.onLane_eq]
  refine congrArg _ (if_congr Iff.rfl rfl (congrArg _ (funext fun v => ?_)))
  unfold fencedAt
  by_cases h1 : f.op3.toNat = 1
  · simp only [h1, if_true, one_ne_zero, if_false]
  · simp only [h1, if_false]

theorem fenced_vfence {u : State} {l : Lane} (hl : LaneAt u l) (k sc : Nat) :
    Fenced u (advance (fencedAt (u.updGroup l.ref l.spent) l.ref.hand k sc) l 2 1) l (l.spent l.gr) := by
  have hk := fencedAt_keeps (u.updGroup l.ref l.spent) l.ref.hand k sc
  exact fenced_of_keeps (v := u.updGroup l.ref l.spent) rfl (otherGroups_updGroup u l.ref _) hk (fencedAt_noStore ..) rfl
    (otherGroups_refl _ _)
    (by rw [hk.group?]; exact spent_group? hl.group)

/-! ### Barriers -/

theorem team?_updTeam_self {v : State} {r : TeamRef} {tm : Team} (h : v.team? r = some tm) (f : Team → Team) :
    (v.updTeam r f).team? r = some (f tm) := by
  rw [State.team?_updTeam, if_pos rfl, h]; rfl

theorem otherTeams_updTeam (v : State) (r : TeamRef) (f : Team → Team) : otherTeams v (v.updTeam r f) r := fun q hq => by
  rw [State.team?_updTeam, if_neg hq]

/-- A team with a barrier of its own set. -/
def Team.withBar (tm : Team) (n : Nat) (b : Barrier) : Team := { tm with bars := tm.bars.set n b }

theorem updBarrier_team {v : State} {r : TeamRef} {tm : Team} (h : v.team? r = some tm) (n : Nat) (f : Barrier → Barrier) :
    (updBarrier v r n f).team? r = some (tm.withBar n (f (barrierOf tm n))) := team?_updTeam_self h _

theorem updBarrier_others (v : State) (r : TeamRef) (n : Nat) (f : Barrier → Barrier) : otherTeams v (updBarrier v r n f) r :=
  otherTeams_updTeam v r _

@[simp] theorem advance_team? (v : State) (l : Lane) (w n : Nat) (q : TeamRef) : (advance v l w n).team? q = v.team? q := rfl

/-- Where only its group and teams changed before, nothing else has changed. -/
theorem advance_issued_teams {u v : State} {l : Lane} {g : Group} (hg : v.group? l.ref = some g) (ho : otherGroups u v l.ref)
    (hr : { v with groups := u.groups, teams := u.teams } = u) (w n : Nat) :
    Issued { u with teams := (advance v l w n).teams } (advance v l w n) l w n g :=
  advance_issued (u := { u with teams := v.teams }) hg ho (congrArg (fun x : State => { x with teams := v.teams }) hr) w n

/-- An arrival that completes a barrier. -/
theorem arrive_full {b : Barrier} {v : W64} (h0 : b.expected ≠ 0) (h : b.arrivals + 1 = b.expected ∧ b.pending + v = 0) :
    b.arrive v = ⟨0, b.expected, b.phase + 1, 0⟩ := by
  simp only [Barrier.arrive, Barrier.test, h.1, h.2, ne_eq, h0, not_false_eq_true, decide_true, Bool.and_self, if_true]

/-- One that does not. -/
theorem arrive_open {b : Barrier} {v : W64} (h : ¬(b.arrivals + 1 = b.expected ∧ b.pending + v = 0)) :
    b.arrive v = ⟨b.arrivals + 1, b.expected, b.phase, b.pending + v⟩ := by
  rw [Barrier.arrive, Barrier.test, if_neg]
  intro hb
  simp only [Bool.and_eq_true, decide_eq_true_eq] at hb
  exact h ⟨hb.1.2, hb.2⟩

/-- LANE_BARI's state once its flags are delivered to `v`. -/
def laneBariAt (v : State) (l : Lane) (f : LaneW) : State :=
  advance (updBarrier v l.ref.team (f.vd.toNat % 32) fun b => b.init ((barOperand l f).setWidth 16)) l 2 1

theorem execLaneBari_eq {s u : State} {f : LaneW} {l : Lane} (h : Issues s u f l) :
    exec (.laneBari f) s = .next (deliverLane u l fun v => laneBariAt v l f) := by
  show execLaneBari f s = _
  rw [execLaneBari, h.onLane_eq]
  rfl

/-- LANE_BARA's state once its flags are delivered to `v`. -/
def laneBaraAt (v : State) (l : Lane) (f : LaneW) : State :=
  advance ((updBarrier (releaseAt v l.ref.hand f.op3.toNat) l.ref.team (f.vd.toNat % 32) fun b => b.arrive (barOperand l f)).updGroup l.ref
    fun x => { x with arrival := x.arrival.set (f.vd.toNat % 32) (barrierOf l.tm (f.vd.toNat % 32)).phase }) l 2 1

/-- Its fault there, or that state. -/
def laneBaraOr (v : State) (l : Lane) (f : LaneW) : State :=
  match araFault (barrierOf l.tm (f.vd.toNat % 32)) with
  | some c => laneFault v l c 0 (BitVec.ofNat 64 (f.vd.toNat % 32))
  | none => laneBaraAt v l f

theorem execLaneBara_eq {s u : State} {f : LaneW} {l : Lane} (h : Issues s u f l) : exec (.laneBara f) s = .next
    (if !writesDone l.gr || !loadsDone l.gr then u else deliverLane u l fun v => laneBaraOr v l f) := by
  show execLaneBara f s = _
  rw [execLaneBara, h.onLane_eq]
  rfl

/-- LANE_BARW's state once its flags are delivered to `v`, for a group that waits at no barrier. -/
def laneBarwAt (v : State) (l : Lane) (f : LaneW) (p : BitVec 32) : State :=
  let n := f.vd.toNat % 32
  if (barrierOf l.tm n).expected = 0 then laneFault v l .barUninit 0 (BitVec.ofNat 64 n)
  else if (barrierOf l.tm n).phase ≠ p then laneBarwDone v l n f.op3.toNat
  else (updRun v l fun r => { r with started := true }).updGroup l.ref fun x => { x with waitBar := some (n, f.op3.toNat, p) }

theorem execLaneBarw_eq {s u : State} {f : LaneW} {l : Lane} (h : Issues s u f l) (hw : l.gr.waitBar = none) :
    exec (.laneBarw f) s = .next (deliverLane u l fun v =>
      laneBarwAt v l f ((l.gr.arrival.get? (f.vd.toNat % 32)).getD (barrierOf l.tm (f.vd.toNat % 32)).phase)) := by
  show execLaneBarw f s = _
  rw [execLaneBarw, h.onLane_eq]
  simp only [hw]
  rfl

section
variable {u : State} {l : Lane} (hl : LaneAt u l)
include hl

theorem laneBariAt_gives (f : LaneW) : ∃ t, laneBariAt (u.updGroup l.ref l.spent) l f = t ∧
    t.team? l.ref.team = some (l.tm.withBar (f.vd.toNat % 32)
      ⟨0, (barOperand l f).setWidth 16, (barrierOf l.tm (f.vd.toNat % 32)).phase, 0⟩) ∧
    otherTeams u t l.ref.team ∧ Issued { u with teams := t.teams } t l 2 1 (l.spent l.gr) := by
  have ht : (u.updGroup l.ref l.spent).team? l.ref.team = some l.tm := hl.team
  have hb := updBarrier_team ht (f.vd.toNat % 32) fun b => b.init ((barOperand l f).setWidth 16)
  have ho := updBarrier_others (u.updGroup l.ref l.spent) l.ref.team (f.vd.toNat % 32) fun b => b.init ((barOperand l f).setWidth 16)
  unfold laneBariAt
  have hg : (updBarrier (u.updGroup l.ref l.spent) l.ref.team (f.vd.toNat % 32) fun b => b.init ((barOperand l f).setWidth 16)).group? l.ref
      = some (l.spent l.gr) := spent_group? hl.group
  exact ⟨_, rfl, hb, ho, advance_issued_teams hg (otherGroups_updGroup u l.ref l.spent) rfl 2 1⟩

theorem laneBaraAt_gives (f : LaneW) : ∃ t, laneBaraAt (u.updGroup l.ref l.spent) l f = t ∧
    Fenced u t l { l.spent l.gr with
      arrival := l.gr.arrival.set (f.vd.toNat % 32) (barrierOf l.tm (f.vd.toNat % 32)).phase } ∧
    (l.ref.hand < 256 → releasedAt t l.ref.hand f.op3.toNat) ∧
    t.team? l.ref.team = some (l.tm.withBar (f.vd.toNat % 32) ((barrierOf l.tm (f.vd.toNat % 32)).arrive (barOperand l f))) ∧
    otherTeams u t l.ref.team := by
  have hk := releaseAt_keeps (u.updGroup l.ref l.spent) l.ref.hand f.op3.toNat
  have hs := releaseAt_noStore (u.updGroup l.ref l.spent) l.ref.hand f.op3.toNat
  have hr := releaseAt_released (u.updGroup l.ref l.spent) l.ref.hand f.op3.toNat
  unfold laneBaraAt
  generalize releaseAt (u.updGroup l.ref l.spent) l.ref.hand f.op3.toNat = w at hk hs hr ⊢
  have ht : w.team? l.ref.team = some l.tm := by rw [hk.team?]; exact hl.team
  have hg : w.group? l.ref = some (l.spent l.gr) := by rw [hk.group?]; exact spent_group? hl.group
  have hb := updBarrier_team ht (f.vd.toNat % 32) fun b => b.arrive (barOperand l f)
  have ho := updBarrier_others w l.ref.team (f.vd.toNat % 32) fun b => b.arrive (barOperand l f)
  have hg' : (updBarrier w l.ref.team (f.vd.toNat % 32) fun b => b.arrive (barOperand l f)).group? l.ref = some (l.spent l.gr) := hg
  refine ⟨_, rfl, ?fenced, hr, hb, fun q hq => (ho q hq).trans (hk.team? q)⟩
  exact fenced_of_keeps (v := u.updGroup l.ref l.spent) rfl (otherGroups_updGroup u l.ref _) hk hs rfl
    (otherGroups_updGroup (updBarrier w l.ref.team _ _) l.ref _) (group?_updGroup_self hg' _)

end

/-- A BARW that completes from `v`. -/
theorem laneBarwDone_gives {u v : State} {l : Lane} {g : Group} (hv : { v with groups := u.groups } = u) (ho : otherGroups u v l.ref)
    (hg : v.group? l.ref = some g) (n sc : Nat) : ∃ t, laneBarwDone v l n sc = t ∧
    Fenced u t l { g with arrival := g.arrival.erase n, waitBar := none } ∧ t.teams = u.teams ∧
    (l.ref.hand < 256 → acquiredAt t l.ref.hand sc) := by
  have hk := acquireAt_keeps v l.ref.hand sc
  have hs := acquireAt_noStore v l.ref.hand sc
  have hr := acquireAt_acquired v l.ref.hand sc
  unfold laneBarwDone
  generalize acquireAt v l.ref.hand sc = w at hk hs hr ⊢
  have ht : v.teams = u.teams := by have e := congrArg State.teams hv; exact e
  have hw : w.group? l.ref = some g := by rw [hk.group?]; exact hg
  have hv' : { v with groups := u.groups, teams := u.teams } = u := by rw [← ht]; exact hv
  refine ⟨_, rfl, ?fenced, hk.teams.trans ht, hr⟩
  exact fenced_of_keeps hv' ho hk hs rfl (otherGroups_updGroup w l.ref _) (group?_updGroup_self hw _)

end Sys2Proof.Machine
end

section
/-! The tag table (R237-R239) and shows (R222, R223) of a lane group. -/

namespace Sys2Proof.Machine

/-! ### The tag table -/

theorem tagKey_eq (tm : Team) (a : W64) : tagKey tm a = a.toNat % 2 ^ 52 / 2 ^ tagL tm := by
  rw [tagKey, bits_eq, pow_zero, Nat.div_one]

/-- PTAG over positions in ascending order: each active one acts on the table that the active ones before it leave. -/
theorem ptagElems_eq (op : Nat) (act : Nat → Bool) (addr : Nat → W64) (way : Nat → W32) {is : List Nat} (h : is.Pairwise (· < ·)) (tm : Team) :
    ptagElems tm op (is.map fun i => (act i, addr i, way i)) =
      ((is.filter act).foldl (fun tm i => (tagOp tm op (addr i) ((way i).toNat % 4)).1) tm,
       is.map fun i => if act i = true then
         (tagOp (((is.filter act).filter (· < i)).foldl (fun tm i => (tagOp tm op (addr i) ((way i).toNat % 4)).1) tm) op (addr i)
           ((way i).toNat % 4)).2 else 0) := by
  induction is generalizing tm with
  | nil => rfl
  | cons a is ih =>
    obtain ⟨ha, his⟩ := List.pairwise_cons.1 h
    have hnone : (is.filter act).filter (· < a) = [] :=
      List.filter_eq_nil_iff.2 fun x hx => by have := ha x (List.mem_of_mem_filter hx); simp; omega
    cases hact : act a
    · simp only [List.map_cons, ptagElems, hact, Bool.false_eq_true, if_false, ih his, List.filter_cons]
    · simp only [List.map_cons, ptagElems, hact, if_true, ih his, List.filter_cons, List.foldl_cons, lt_irrefl, decide_false,
        Bool.false_eq_true, if_false, hnone, List.foldl_nil, Prod.mk.injEq, List.cons.injEq, true_and]
      refine List.map_congr_left fun i hi => ?_
      simp only [ha i hi, decide_true, if_true, List.foldl_cons]

section
variable {s u : State} {f : LaneW} {l : Lane} (h : Issues s u f l)
include h

theorem plk_gives : LaneGives s u l (.plk f) [f.vd.toNat, f.va.toNat, f.va.toNat + 1] fun t =>
    Issued u t l 2 1 (l.withTile 8 false f.vd.toNat (l.act f)
      ((List.range 1024).map fun i => tagLookup l.tm ((l.src u true f.va.toNat).getD i 0)) 0) := by
  refine fixed_gives h rfl ?_
  have hi := pendTile_issued h.laneAt.group 8 false f.vd.toNat (l.act f) ((l.src u true f.va.toNat).map fun a => (tagLookup l.tm a, 0)) 2
  have hv : ((l.src u true f.va.toNat).map fun a => (tagLookup l.tm a, (0 : Flags))).map (·.1) =
      (List.range 1024).map fun i => tagLookup l.tm ((l.src u true f.va.toNat).getD i 0) := by
    conv_lhs => rw [← map_range_getD (Lane.src_length u l true f.va.toNat) 0]
    simp only [List.map_map, Function.comp_def]
  rw [hv, activeFlags_zero _ _ (by simp)] at hi
  exact hi

end

/-- The elements of PTAG by position. -/
theorem ptagItems_eq (u : State) (l : Lane) (f : LaneW) :
    List.zip (maskBits (l.act f)) (List.zip (l.src u true f.va.toNat) (l.tile u f.vb.toNat)) = (List.range 1024).map fun i =>
      ((l.act f).getLsbD i, (l.src u true f.va.toNat).getD i 0, (l.tile u f.vb.toNat).getD i 0) := by
  conv_lhs => rw [← map_range_getD (Lane.src_length u l true f.va.toNat) 0, ← map_range_getD (Lane.tile_length u l f.vb.toNat) 0, maskBits]
  simp only [List.zip_map']

/-- An instruction that changes its team alone has issued beside that. -/
theorem updTeam_issued {u : State} {l : Lane} (hl : LaneAt u l) (F : Team → Team) :
    Issued { u with teams := (advance (u.updTeam l.ref.team F) l 2 1).teams } (advance (u.updTeam l.ref.team F) l 2 1) l 2 1 l.gr ∧
      (advance (u.updTeam l.ref.team F) l 2 1).team? l.ref.team = some (F l.tm) ∧
      otherTeams u (advance (u.updTeam l.ref.team F) l 2 1) l.ref.team := by
  have hg : (u.updTeam l.ref.team F).group? l.ref = some l.gr := hl.group
  exact ⟨advance_issued_teams (u := u) hg (otherGroups_refl u l.ref) rfl 2 1, team?_updTeam_self hl.team F, otherTeams_updTeam u l.ref.team F⟩

section
variable {s u : State} {f : LaneW} {l : Lane} (h : Issues s u f l)
include h

theorem ptag_gives {tm : Team} {vs : List W64} (hv : ptagElems l.tm f.op3.toNat ((List.range 1024).map fun i =>
      ((l.act f).getLsbD i, (l.src u true f.va.toNat).getD i 0, (l.tile u f.vb.toNat).getD i 0)) = (tm, vs)) :
    LaneGives s u l (.ptag f) ([f.vd.toNat, f.vd.toNat + 1] ++ [f.va.toNat, f.va.toNat + 1] ++ [f.vb.toNat]) fun t =>
      (t.team? l.ref.team = some { l.tm with tags := tm.tags } ∧ otherTeams u t l.ref.team) ∧
      Issued { u with teams := t.teams } t l 2 1 (l.withTile 8 true f.vd.toNat (l.act f) vs 0) := by
  refine fixed_gives h rfl ?_
  simp only [ptagItems_eq, hv]
  generalize tm.tags = tags
  have hg : (u.updTeam l.ref.team fun t => { t with tags := tags }).group? l.ref = some l.gr := h.laneAt.group
  have hp := pendTile_group? hg 8 true f.vd.toNat (l.act f) (vs.map fun v => (v, 0))
  rw [activeFlags_zero _ _ (by simp), List.map_map, Function.comp_def, List.map_id'] at hp
  obtain ⟨hr, ho⟩ := pendTile_groups (u.updTeam l.ref.team fun t => { t with tags := tags }) l 8 true f.vd.toNat (l.act f)
    (vs.map fun v => (v, 0))
  refine ⟨⟨?team, ?others⟩, advance_issued_teams (u := u) hp ho ?rest 2 1⟩
  case team => exact team?_updTeam_self h.laneAt.team fun t => { t with tags := tags }
  case others => exact otherTeams_updTeam u l.ref.team fun t => { t with tags := tags }
  case rest => exact congrArg (fun x : State => { x with teams := u.teams }) hr

/-- PTAG's table and values by the step `one` of an element and the table `after` some of them. -/
theorem ptag_gives_steps {one : Team → Nat → Team × W64} {after : List Nat → Team} {active : List Nat}
    (hone : ∀ tm i, one tm i = tagOp tm f.op3.toNat ((l.src u true f.va.toNat).getD i 0) (((l.tile u f.vb.toNat).getD i 0).toNat % 4))
    (hafter : ∀ is, after is = is.foldl (fun tm i => (one tm i).1) l.tm) (hactive : active = (List.range 1024).filter (l.act f).getLsbD) :
    LaneGives s u l (.ptag f) ([f.vd.toNat, f.vd.toNat + 1] ++ [f.va.toNat, f.va.toNat + 1] ++ [f.vb.toNat]) fun t =>
      (t.team? l.ref.team = some { l.tm with tags := (after active).tags } ∧ otherTeams u t l.ref.team) ∧
      Issued { u with teams := t.teams } t l 2 1 (l.withTile 8 true f.vd.toNat (l.act f)
        ((List.range 1024).map fun i => if (l.act f).getLsbD i = true then (one (after (active.filter (· < i))) i).2 else 0) 0) := by
  refine ptag_gives h ?_
  rw [ptagElems_eq _ _ _ _ List.pairwise_lt_range, hactive]
  simp only [hafter, hone]

theorem pinv_gives : LaneGives s u l (.pinv f) (if f.op3 = 1 then [] else [f.va.toNat, f.va.toNat + 1]) fun t =>
    Issued { u with teams := t.teams } t l 2 1 l.gr ∧
    t.team? l.ref.team = some (if f.op3 = 1 then tagClear l.tm
      else (((List.range 1024).filter (l.act f).getLsbD).map fun i => (l.src u true f.va.toNat).getD i 0).foldl tagInvalidate l.tm) ∧
    otherTeams u t l.ref.team := by
  refine fixed_gives h rfl ?_
  simp only [activeItems_eq _ (Lane.src_length u l true f.va.toNat) 0, List.map_map, Function.comp_def]
  exact updTeam_issued h.laneAt _

end

/-! ### The words of a show (R38, R222) -/

theorem showHead_eq (d : Deal) (kind : Nat) : showHead d kind = BitVec.ofNat 64 (d.seq.toNat * 2 ^ 32 + d.w0.toNat / 2 ^ 48 * 2 ^ 16 +
    d.w0.toNat / 2 ^ 16 % 2 ^ 8 * 2 ^ 8 + kind) := by
  have h : bits d.w0 63 48 = d.w0.toNat / 2 ^ 48 := by
    rw [bits_eq]
    exact Nat.mod_eq_of_lt (Nat.div_lt_of_lt_mul (by simpa using d.w0.isLt))
  rw [showHead, h, bits_eq]
  simp only [Nat.reduceAdd, Nat.reduceSub, Nat.reducePow]

/-- A bit of an OR of words. -/
theorem getLsbD_foldl_or {α : Type} (g : α → W64) (xs : List α) (p : W64) (c : Nat) :
    (xs.foldl (fun p r => p ||| g r) p).getLsbD c = true ↔ p.getLsbD c = true ∨ ∃ r ∈ xs, (g r).getLsbD c = true := by
  induction xs generalizing p with
  | nil => simp
  | cons x xs ih => simp [ih, or_assoc]

theorem showPred_iff (l : Lane) (f : LaneW) {c : Nat} (hc : c < 64) : (showPred l f).getLsbD c = true ↔
    ∃ r < 16, (l.mask (f.va.toNat % 16)).getLsbD (64 * r + c) = true ∧ (l.act f).getLsbD (64 * r + c) = true := by
  rw [showPred, getLsbD_foldl_or]
  simp [maskRow, hc]

theorem showScalar_zero (vs : Tile) (m : Nat) : showScalar vs 0 m = 0 := by
  have h : lowestLane 0 = none := List.find?_eq_none.2 fun i _ => by simp
  rw [showScalar, h]

theorem showScalar_lowest (vs : Tile) {m0 : W64} (m : Nat) {c : Nat} (hc : c < 64) (h : m0.getLsbD c = true)
    (hlow : ∀ j < c, m0.getLsbD j = false) : showScalar vs m0 m = vs.getD (64 * (m + 8) + c) 0 ++ vs.getD (64 * m + c) 0 := by
  have hl : lowestLane m0 = some c := by
    refine List.find?_range_eq_some.2 ⟨h, List.mem_range.2 hc, fun j hj => by simp [hlow j hj]⟩
  rw [showScalar, hl]

theorem joinSub_lt (w : Nat) (xs : List Nat) : joinSub w xs < 2 ^ (w * xs.length) := by
  induction xs with
  | nil => simp [joinSub]
  | cons x xs ih =>
    have hx : x % 2 ^ w < 2 ^ w := Nat.mod_lt _ (Nat.two_pow_pos w)
    have hm : 2 ^ w * (joinSub w xs + 1) ≤ 2 ^ w * 2 ^ (w * xs.length) := Nat.mul_le_mul_left _ ih
    rw [joinSub, List.length_cons, Nat.mul_succ, Nat.add_comm (w * xs.length), pow_add]
    rw [Nat.mul_succ] at hm
    omega

/-- A sub-element of sub-elements joined. -/
theorem joinSub_at (w : Nat) (xs : List Nat) (i : Nat) : joinSub w xs / 2 ^ (w * i) % 2 ^ w = xs.getD i 0 % 2 ^ w := by
  induction xs generalizing i with
  | nil => simp [joinSub]
  | cons x xs ih =>
    have hx : x % 2 ^ w < 2 ^ w := Nat.mod_lt _ (Nat.two_pow_pos w)
    cases i with
    | zero => simp [joinSub]
    | succ i =>
      rw [joinSub, Nat.mul_succ, Nat.add_comm (w * i), pow_add, ← Nat.div_div_eq_div_mul, Nat.add_mul_div_left _ _ (Nat.two_pow_pos w),
        Nat.div_eq_of_lt hx, Nat.zero_add, ih, List.getD_cons_succ]

theorem getD_map_range {α : Type} {n i : Nat} (h : i < n) (g : Nat → α) (d : α) : ((List.range n).map g).getD i d = g i := by
  rw [List.getD_eq_getElem?_getD, List.getElem?_map, List.getElem?_range h]
  rfl

/-- The nibbles of word `w` of the index words. -/
def indexNibbles (pred : W64) (vx : Tile) (w : Nat) : List Nat :=
  (List.range 16).map fun j => if pred.getLsbD (16 * w + j) then (vx.getD (16 * w + j) 0).toNat % 16 else 0

theorem showIndex_word (pred : W64) (vx : Tile) {w : Nat} (h : w < 4) :
    ((showIndex pred vx).getD w 0).toNat = joinSub 4 (indexNibbles pred vx w) := by
  have hlt := joinSub_lt 4 (indexNibbles pred vx w)
  rw [indexNibbles, List.length_map, List.length_range] at hlt
  rw [showIndex, getD_map_range h, BitVec.toNat_ofNat]
  exact Nat.mod_eq_of_lt hlt

/-- Lane `i`'s nibble of the index words. -/
theorem showIndex_nibble (pred : W64) (vx : Tile) {i : Nat} (hi : i < 64) :
    ((showIndex pred vx).getD (i / 16) 0).toNat / 2 ^ (4 * (i % 16)) % 16 =
      if pred.getLsbD i = true then (vx.getD i 0).toNat % 16 else 0 := by
  have hat := joinSub_at 4 (indexNibbles pred vx (i / 16)) (i % 16)
  rw [indexNibbles, getD_map_range (Nat.mod_lt i (by omega)), Nat.div_add_mod i 16] at hat
  rw [showIndex_word pred vx (by omega)]
  refine hat.trans ?_
  split
  · exact Nat.mod_mod _ 16
  · rfl

/-! ### Sending a show (R223) -/

/-- The show `sh` as the lane's instruction leaves it outstanding. -/
def showOutst (u : State) (l : Lane) (f : LaneW) (sh : Show) : Outst :=
  { tok := tokenOf f, elems := [], dest := [], space := 0, scope := 0, hint := 0, show_ := some sh, pc := l.run.pc, k := l.run.rot,
    ins := l.run.idx, seq := l.run.deal.seq.toNat, at_ := u.clock, helper := l.helper, fault := false, done := false, bad := none }

/-- The lane's group once it has sent the show. -/
def Lane.sent (u : State) (l : Lane) (f : LaneW) (sh : Show) : Group :=
  l.withRun (fun r => { r with shows := r.shows + 1 }) { l.gr with outst := l.gr.outst ++ [showOutst u l f sh] }

/-- The state once it has sent the show. -/
def sendShow (u : State) (l : Lane) (f : LaneW) (sh : Show) : State :=
  advance (updRun (u.updGroup l.ref fun x => { x with outst := x.outst ++ [showOutst u l f sh] }) l fun r => { r with shows := r.shows + 1 }) l 2 1

theorem sendShow_issued {u : State} {l : Lane} (hg : u.group? l.ref = some l.gr) (f : LaneW) (sh : Show) :
    Issued u (sendShow u l f sh) l 2 1 (l.sent u f sh) := by
  have h := group?_updGroup_self (group?_updGroup_self hg fun x => { x with outst := x.outst ++ [showOutst u l f sh] })
    (l.withRun fun r => { r with shows := r.shows + 1 })
  exact advance_issued h (otherGroups_trans (otherGroups_updGroup u l.ref _) (otherGroups_updGroup _ l.ref _)) rfl 2 1

/-- A show waits while its token or its queue is full. -/
def showWaits (l : Lane) (f : LaneW) : Bool := tokenFull l f || (if l.helper then 4 else 32) ≤ showsTaken l

theorem showWaits_iff (l : Lane) (f : LaneW) : showWaits l f = true ↔
    (f.tokEn = 1 ∧ 63 ≤ tokenCount l.gr f.tok.toNat) ∨ (if l.helper then 4 else 32) ≤ showsTaken l := by
  simp only [showWaits, tokenFull, Bool.or_eq_true, Bool.and_eq_true, decide_eq_true_eq]

theorem showOp_eq {s u : State} {f : LaneW} {l : Lane} (h : Issues s u f l) (ts : List Nat) (mk : State → Lane → Show) :
    showOp s f ts mk = .next (withTiles u l ts (if showWaits l f then u else sendShow u l f (mk u l))) := by
  rw [showOp, h.onLane_eq]
  rfl

/-- An instruction that sends a show: it waits, or the show is outstanding behind it. -/
theorem showOp_gives {s u : State} {f : LaneW} {l : Lane} (h : Issues s u f l) {i : Instr} {ts : List Nat} {mk : State → Lane → Show}
    (hi : exec i s = showOp s f ts mk) :
    (badTile l ts = none → showWaits l f = true → exec i s = .next u) ∧
      LaneGives s u l i ts fun t => ¬showWaits l f = true → Issued u t l 2 1 (l.sent u f (mk u l)) := by
  rw [showOp_eq h] at hi
  refine ⟨fun hb hw => by rw [hi, withTiles_ok hb, if_pos hw], withTiles_gives hi fun _ hw => ?_⟩
  rw [if_neg hw]
  exact sendShow_issued h.laneAt.group f (mk u l)

end Sys2Proof.Machine
end

section
/-! Shows that enter their queue (R154, R223), a group's BARW that wakes (R245), and the statement about both. -/

namespace Sys2Proof.Machine

/-! ### SHOW_ENQUEUE -/

/-- What stands before a show: a show for the same queue, or an access that has not performed. -/
def showBehind (gr : Group) (n : Nat) (o : Outst) : Prop :=
  ∃ j < n, ∃ p, gr.outst[j]? = some p ∧ if p.show_.isSome = true then p.helper = o.helper else p.done = false

theorem showReady_iff {gr : Group} {n : Nat} {o : Outst} (hn : gr.outst[n]? = some o) (hs : o.show_.isSome = true) :
    showReady gr n = true ↔ ¬showBehind gr n o := by
  have hmem (x : Outst) : x ∈ gr.outst.take n ↔ ∃ j < n, gr.outst[j]? = some x := by
    simp only [List.mem_iff_getElem?, List.getElem?_take]
    exact ⟨fun ⟨j, h⟩ => by split at h; exacts [⟨j, ‹_›, h⟩, by cases h], fun ⟨j, hj, h⟩ => ⟨j, by rw [if_pos hj, h]⟩⟩
  simp only [showReady, hn, hs, Bool.true_and, Bool.not_eq_true', List.any_eq_false, hmem, showBehind]
  constructor
  · rintro h ⟨j, hj, p, hp, hb⟩
    refine h p ⟨j, hj, hp⟩ ?_
    split at hb <;> simp [*]
  · rintro h p ⟨j, hj, hp⟩ hb
    refine h ⟨j, hj, p, hp, ?_⟩
    split at hb <;> simp_all

theorem zipIdx_map_set {α : Type} (xs : List α) (n : Nat) {x : α} (hx : xs[n]? = some x) (f : α → α) :
    (xs.zipIdx.map fun p => if p.2 = n then f p.1 else p.1) = xs.set n (f x) := by
  refine List.ext_getElem? fun i => ?_
  rw [List.getElem?_map, List.getElem?_zipIdx, List.getElem?_set]
  obtain ⟨hn, rfl⟩ := List.getElem?_eq_some_iff.1 hx
  by_cases h : n = i
  · subst h; simp [hn]
  · cases h' : xs[i]? <;> simp [h, Ne.symm h]

/-- An outstanding operation, changed. -/
theorem updOutst_group? {s : State} {g : GroupRef} {gr : Group} {n : Nat} {o : Outst} (hg : s.group? g = some gr) (hn : gr.outst[n]? = some o)
    (f : Outst → Outst) : (updOutst s g n f).group? g = some { gr with outst := gr.outst.set n (f o) } := by
  rw [updOutst, group?_updGroup_self hg, zipIdx_map_set _ _ hn]

/-- The group once the show has entered its queue. -/
def Group.tookShow (gr : Group) (n : Nat) (o : Outst) (sh : Show) : Group :=
  if o.helper then { gr with hshows := gr.hshows ++ [sh], outst := gr.outst.eraseIdx n }
  else { gr with shows := gr.shows ++ [sh], outst := gr.outst.eraseIdx n }

/-- A release, then a change of one group. -/
theorem releaseAt_updGroup {s : State} {g : GroupRef} {gr : Group} (hg : s.group? g = some gr) (h scope : Nat) (F : Group → Group) :
    ∃ t, (releaseAt s h scope).updGroup g F = t ∧ otherGroups s t g ∧ MemOnly s { t with groups := s.groups } ∧ NoStore s t ∧
      t.group? g = some (F gr) ∧ (h < 256 → releasedAt t h scope) := by
  have hk := releaseAt_keeps s h scope
  have hs := releaseAt_noStore s h scope
  have hr := releaseAt_released s h scope
  generalize releaseAt s h scope = w at hk hs hr ⊢
  exact ⟨_, rfl, otherGroups_trans (hk.otherGroups g) (otherGroups_updGroup w g F), (hk.withGroups s.groups).memOnly,
    hs.trans (noStore_of_groups (s := w) rfl), group?_updGroup_self (by rw [hk.group?, hg]) F, hr⟩

section
variable {s : State} {g : GroupRef} {gr : Group} {n : Nat} {o : Outst} {sh : Show} (hg : s.group? g = some gr) (hn : gr.outst[n]? = some o)
  (hs : o.show_ = some sh)
include hg hn hs

theorem execShowEnqueue_behind (h : showBehind gr n o) : exec (.showEnqueue g n) s = .next s := by
  have hr : ¬showReady gr n = true := fun hr => (showReady_iff hn (by rw [hs]; rfl)).1 hr h
  show execShowEnqueue g n s = _
  simp only [execShowEnqueue, hg, hn, hs, hr, Bool.not_false, if_true]

/-- A show that may enter. -/
theorem execShowEnqueue_ready (h : ¬showBehind gr n o) : exec (.showEnqueue g n) s = .next
    (if o.helper = false ∧ gr.frozen = true then updOutst s g n fun o => { o with done := true }
     else if (if o.helper then 4 ≤ gr.hshows.length else 32 ≤ gr.shows.length) then s
     else (releaseAt s g.hand 0).updGroup g fun x => x.tookShow n o sh) := by
  have hr : showReady gr n = true := (showReady_iff hn (by rw [hs]; rfl)).2 h
  show execShowEnqueue g n s = _
  simp only [execShowEnqueue, hg, hn, hs, hr, Bool.not_true, Bool.false_eq_true, if_false, Group.tookShow, ← Nat.not_lt]
  cases o.helper
  · cases gr.frozen
    · simp only [Bool.false_eq_true, if_false, and_false, ite_not]
      split <;> rfl
    · simp only [Bool.false_eq_true, if_false, if_true, and_true]
  · simp only [Bool.true_eq_false, if_true, if_false, false_and, ite_not]
    split <;> rfl

end

/-- What SHOW_ENQUEUE does for an outstanding show. -/
theorem showEnqueue_gives {s : State} {g : GroupRef} {gr : Group} {n : Nat} {o : Outst} {sh : Show} (hg : s.group? g = some gr)
    (hn : gr.outst[n]? = some o) (hs : o.show_ = some sh) :
    let stays : Prop := o.helper = false ∧ gr.frozen = true
    let full : Prop := if o.helper then 4 ≤ gr.hshows.length else 32 ≤ gr.shows.length
    (showBehind gr n o ∨ (¬stays ∧ full) → exec (.showEnqueue g n) s = .next s) ∧
    (¬showBehind gr n o → stays → ∃ t, exec (.showEnqueue g n) s = .next t ∧ otherGroups s t g ∧ { t with groups := s.groups } = s ∧
      t.group? g = some { gr with outst := gr.outst.set n { o with done := true } }) ∧
    (¬showBehind gr n o → ¬stays → ¬full → ∃ t, exec (.showEnqueue g n) s = .next t ∧ otherGroups s t g ∧
      MemOnly s { t with groups := s.groups } ∧ NoStore s t ∧ t.group? g = some (gr.tookShow n o sh) ∧
      (g.hand < 256 → releasedAt t g.hand 0)) := by
  intro stays full
  refine ⟨fun h => ?waits, fun hb hs' => ?stays, fun hb hs' hf => ?enters⟩
  case waits =>
    by_cases hb : showBehind gr n o
    · exact execShowEnqueue_behind hg hn hs hb
    · obtain ⟨hst, hf⟩ := h.resolve_left hb
      rw [execShowEnqueue_ready hg hn hs hb, if_neg hst, if_pos hf]
  case stays =>
    exact ⟨updOutst s g n fun o => { o with done := true }, by rw [execShowEnqueue_ready hg hn hs hb, if_pos hs'],
      otherGroups_updGroup s g _, rfl, updOutst_group? hg hn _⟩
  case enters =>
    obtain ⟨t, ht, hframe⟩ := releaseAt_updGroup hg g.hand 0 fun x => x.tookShow n o sh
    exact ⟨t, by rw [execShowEnqueue_ready hg hn hs hb, if_neg hs', if_neg hf, ht], hframe⟩

/-! ### A group's BARW that wakes -/

theorem runningLane_spec {s : State} {g : GroupRef} {l : Lane} (h : runningLane s g = some l) : s.laneOf g = some l ∧ l.ref = g ∧ LaneAt s l := by
  unfold runningLane at h
  split at h
  · cases h
  · next x hx =>
    obtain ⟨-, e⟩ := Option.ite_none_right_eq_some.1 h
    cases e
    exact ⟨hx, laneOf_spec hx⟩

theorem execBarwWake_group {s : State} {l : Lane} {n sc : Nat} {p : BitVec 32} (h : runningLane s l.ref = some l)
    (hw : l.gr.waitBar = some (n, sc, p)) : exec (.barwWake (.group l.ref)) s =
      .next (if (barrierOf l.tm n).phase ≠ p then laneBarwDone s l n sc else s) := by
  show execBarwWake (.group l.ref) s = _
  simp only [execBarwWake, h, hw]
  split <;> rfl

theorem barwWake_gives {s : State} {l : Lane} {n sc : Nat} {p : BitVec 32} (h : runningLane s l.ref = some l)
    (hw : l.gr.waitBar = some (n, sc, p)) :
    ((barrierOf l.tm n).phase = p → exec (.barwWake (.group l.ref)) s = .next s) ∧
    ((barrierOf l.tm n).phase ≠ p → ∃ t, exec (.barwWake (.group l.ref)) s = .next t ∧
      Passed s t l 2 1 { l.gr with arrival := l.gr.arrival.erase n, waitBar := none } ∧ MemOnly s { t with groups := s.groups } ∧
      NoStore s t ∧ (l.ref.hand < 256 → acquiredAt t l.ref.hand sc)) := by
  refine ⟨fun hp => by rw [execBarwWake_group h hw, if_neg (not_not.2 hp)], fun hp => ?_⟩
  obtain ⟨t, ht, hf, hteams, ha⟩ := laneBarwDone_gives (v := s) rfl (otherGroups_refl s l.ref) (runningLane_spec h).2.2.group n sc
  refine ⟨t, by rw [execBarwWake_group h hw, if_pos hp, ht], hf.passed, ?mem, hf.store, ha⟩
  have hm := hf.mem
  rwa [← hteams] at hm

end Sys2Proof.Machine
end

section
/-! The statement on fences, barriers, the tag table and shows of a lane group (O48). -/

namespace Sys2Proof.Machine

theorem toNat_eq_zero_iff (v : BitVec 3) : v.toNat = 0 ↔ v = 0 := by bv_omega
theorem toNat_eq_one_iff (v : BitVec 3) : v.toNat = 1 ↔ v = 1 := by bv_omega

/-- An operation of the group that writes is outstanding. -/
def writing (gr : Group) : Prop := ∃ o ∈ gr.outst, o.done = false ∧ o.writes = true
/-- An operation of the group that loads is outstanding. -/
def loading (gr : Group) : Prop := ∃ o ∈ gr.outst, o.done = false ∧ o.loads = true

theorem writing_iff (gr : Group) : writesDone gr = false ↔ writing gr := by rw [← Bool.not_eq_true, writesDone_iff, not_not]; rfl
theorem loading_iff (gr : Group) : loadsDone gr = false ↔ loading gr := by rw [← Bool.not_eq_true, loadsDone_iff, not_not]; rfl

/-- The lane's enabled flags, those of its results to come among them, stop a delivery. -/
def Lane.traps (l : Lane) : Prop := (l.gr.fpx ||| l.flags) &&& l.th.fpxmask ≠ 0

/-- Its fault. -/
def trapped (u : State) (l : Lane) : State := laneFault (u.updGroup l.ref l.spent) l .fpxTrap 0 ((l.gr.fpx ||| l.flags).setWidth 64)

section
variable {s u : State} {f : LaneW} {l : Lane} (h : Issues s u f l)
include h

/-! ### VFENCE -/

theorem vfence_waits (hw : (f.op3 ≠ 0 ∧ writing l.gr) ∨ loading l.gr) : exec (.vfence f) s = .next u := by
  rw [execVfence_eq h, if_pos]
  simpa only [Bool.or_eq_true, Bool.and_eq_true, decide_eq_true_eq, ne_eq, toNat_eq_zero_iff, Bool.not_eq_true', writing_iff, loading_iff]
    using hw

theorem vfence_goes (hw : ¬((f.op3 ≠ 0 ∧ writing l.gr) ∨ loading l.gr)) : exec (.vfence f) s =
    .next (deliverLane u l fun v => advance (fencedAt v l.ref.hand f.op3.toNat (f.vd.toNat % 8)) l 2 1) := by
  rw [execVfence_eq h, if_neg]
  simpa only [Bool.or_eq_true, Bool.and_eq_true, decide_eq_true_eq, ne_eq, toNat_eq_zero_iff, Bool.not_eq_true', writing_iff, loading_iff]
    using hw

theorem vfence_traps (hw : ¬((f.op3 ≠ 0 ∧ writing l.gr) ∨ loading l.gr)) (ht : l.traps) : exec (.vfence f) s = .next (trapped u l) := by
  rw [vfence_goes h hw, deliverLane_traps ht]
  rfl

theorem vfence_gives (hw : ¬((f.op3 ≠ 0 ∧ writing l.gr) ∨ loading l.gr)) (ht : ¬l.traps) : ∃ t, exec (.vfence f) s = .next t ∧
    Fenced u t l (l.spent l.gr) ∧ t.teams = u.teams ∧ (l.ref.hand < 256 → f.op3 = 1 → releasedAt t l.ref.hand (f.vd.toNat % 8)) ∧
    (l.ref.hand < 256 → f.op3 ≠ 1 → acquiredAt t l.ref.hand (f.vd.toNat % 8)) := by
  refine ⟨_, by rw [vfence_goes h hw, deliverLane_goes ht], fenced_vfence h.laneAt _ _, (fencedAt_keeps ..).teams, fun hh hk => ?_, fun hh hk => ?_⟩
  · rw [hk]; exact fencedAt_released hh _ _
  · exact fencedAt_acquired hh (fun e => hk ((toNat_eq_one_iff _).1 e)) _ _

/-! ### The barrier instructions -/

theorem bari_traps (ht : l.traps) : exec (.laneBari f) s = .next (trapped u l) := by
  rw [execLaneBari_eq h, deliverLane_traps ht]
  rfl

theorem bari_gives (ht : ¬l.traps) : ∃ t, exec (.laneBari f) s = .next t ∧
    (t.team? l.ref.team = some (l.tm.withBar (f.vd.toNat % 32)
      ⟨0, (barOperand l f).setWidth 16, (barrierOf l.tm (f.vd.toNat % 32)).phase, 0⟩) ∧ otherTeams u t l.ref.team) ∧
    Issued { u with teams := t.teams } t l 2 1 (l.spent l.gr) := by
  obtain ⟨t, ht', hteam, hother, hi⟩ := laneBariAt_gives h.laneAt f
  exact ⟨t, by rw [execLaneBari_eq h, deliverLane_goes ht, ht'], ⟨hteam, hother⟩, hi⟩

theorem bara_waits (hw : writing l.gr ∨ loading l.gr) : exec (.laneBara f) s = .next u := by
  rw [execLaneBara_eq h, if_pos]
  simpa only [Bool.or_eq_true, Bool.not_eq_true', writing_iff, loading_iff] using hw

section
variable (hw : ¬writing l.gr) (hld : ¬loading l.gr)
include hw hld

theorem bara_goes : exec (.laneBara f) s = .next (deliverLane u l fun v => laneBaraOr v l f) := by
  rw [execLaneBara_eq h, if_neg]
  simp only [Bool.or_eq_true, Bool.not_eq_true', writing_iff, loading_iff, not_or]
  exact ⟨hw, hld⟩

theorem bara_traps (ht : l.traps) : exec (.laneBara f) s = .next (trapped u l) := by
  rw [bara_goes h hw hld, deliverLane_traps ht]
  rfl

theorem bara_faults (ht : ¬l.traps) {c : FaultCode} (hc : araFault (barrierOf l.tm (f.vd.toNat % 32)) = some c) :
    exec (.laneBara f) s = .next (laneFault (u.updGroup l.ref l.spent) l c 0 (BitVec.ofNat 64 (f.vd.toNat % 32))) := by
  rw [bara_goes h hw hld, deliverLane_goes ht, laneBaraOr, hc]

theorem bara_gives (ht : ¬l.traps) (h0 : (barrierOf l.tm (f.vd.toNat % 32)).expected ≠ 0)
    (he : (barrierOf l.tm (f.vd.toNat % 32)).arrivals ≠ (barrierOf l.tm (f.vd.toNat % 32)).expected) : ∃ t, exec (.laneBara f) s = .next t ∧
    Fenced u t l { l.spent l.gr with
      arrival := l.gr.arrival.set (f.vd.toNat % 32) (barrierOf l.tm (f.vd.toNat % 32)).phase } ∧
    (l.ref.hand < 256 → releasedAt t l.ref.hand f.op3.toNat) ∧
    t.team? l.ref.team = some (l.tm.withBar (f.vd.toNat % 32) ((barrierOf l.tm (f.vd.toNat % 32)).arrive (barOperand l f))) ∧
    otherTeams u t l.ref.team := by
  obtain ⟨t, ht', hframe⟩ := laneBaraAt_gives h.laneAt f
  have hc : araFault (barrierOf l.tm (f.vd.toNat % 32)) = none := by rw [araFault, if_neg h0, if_neg he]
  exact ⟨t, by rw [bara_goes h hw hld, deliverLane_goes ht, laneBaraOr, hc, ← ht'], hframe⟩

end

section
variable (hw : l.gr.waitBar = none)
include hw

theorem barw_traps (ht : l.traps) : exec (.laneBarw f) s = .next (trapped u l) := by
  rw [execLaneBarw_eq h hw, deliverLane_traps ht]
  rfl

theorem barw_goes (ht : ¬l.traps) : exec (.laneBarw f) s = .next (laneBarwAt (u.updGroup l.ref l.spent) l f
    ((l.gr.arrival.get? (f.vd.toNat % 32)).getD (barrierOf l.tm (f.vd.toNat % 32)).phase)) := by
  rw [execLaneBarw_eq h hw, deliverLane_goes ht]

theorem barw_gives (ht : ¬l.traps) (h0 : (barrierOf l.tm (f.vd.toNat % 32)).expected ≠ 0) (hp : (barrierOf l.tm (f.vd.toNat % 32)).phase ≠
    (l.gr.arrival.get? (f.vd.toNat % 32)).getD (barrierOf l.tm (f.vd.toNat % 32)).phase) : ∃ t, exec (.laneBarw f) s = .next t ∧
    Fenced u t l { l.spent l.gr with arrival := l.gr.arrival.erase (f.vd.toNat % 32) } ∧ t.teams = u.teams ∧
    (l.ref.hand < 256 → acquiredAt t l.ref.hand f.op3.toNat) := by
  obtain ⟨t, ht', hf, hframe⟩ := laneBarwDone_gives (u := u) (v := u.updGroup l.ref l.spent) rfl
    (otherGroups_updGroup u l.ref _) (spent_group? h.laneAt.group) (f.vd.toNat % 32) f.op3.toNat
  have hwait : { l.spent l.gr with arrival := l.gr.arrival.erase (f.vd.toNat % 32), waitBar := none } =
      { l.spent l.gr with arrival := l.gr.arrival.erase (f.vd.toNat % 32) } := by rw [← hw]; rfl
  refine ⟨t, by rw [barw_goes h hw ht, laneBarwAt, if_neg h0, if_pos hp, ht'], ?_, hframe⟩
  rw [← hwait]
  exact hf

end

/-! ### Shows -/

/-- What a show instruction is to do: wait, or leave a show outstanding. -/
theorem sends_show {i : Instr} {ts : List Nat} {mk : State → Lane → Show} (hi : exec i s = showOp s f ts mk) {ok : Show → Prop}
    (hlen : (mk u l).length = 8) (hok : ok (mk u l)) :
    (badTile l ts = none → showWaits l f = true → exec i s = .next u) ∧
      LaneGives s u l i ts fun t => ¬showWaits l f = true → ∃ sh on, sh.length = 8 ∧ ok sh ∧ on = Option.map (fun r : Run => { r with shows := r.shows + 1 }) ∧
        Issued u t l 2 1 { l.gr with
          run := if l.helper then l.gr.run else on l.gr.run, hrun := if l.helper then on l.gr.hrun else l.gr.hrun,
          outst := l.gr.outst ++ [showOutst u l f sh] } := by
  obtain ⟨hwaits, hgives, hbad⟩ := showOp_gives h hi
  refine ⟨hwaits, fun hb => ?_, hbad⟩
  obtain ⟨t, ht, hissued⟩ := hgives hb
  refine ⟨t, ht, fun hw => ⟨mk u l, _, hlen, hok, rfl, ?_⟩⟩
  have hsent := hissued hw
  unfold Lane.sent Lane.withRun at hsent
  cases hh : l.helper <;> rw [hh] at hsent <;> exact hsent

end

/-- The words of SHOW. -/
theorem show_words (l : Lane) (f : LaneW) (vs : Tile) :
    let sh := [showHead l.run.deal 0, showPred l f] ++ (List.range 6).map (showScalar vs l.run.m0)
    sh.getD 0 0 = showHead l.run.deal 0 ∧ sh.getD 1 0 = showPred l f ∧ ∀ m < 6, sh.getD (2 + m) 0 = showScalar vs l.run.m0 m :=
  ⟨rfl, rfl, fun m hm => by
    rw [List.getD_append_right _ _ _ _ (Nat.le_add_right 2 m)]
    exact (congrArg (List.getD _ · 0) (Nat.add_sub_cancel_left (n := 2) (m := m))).trans (getD_map_range hm _ 0)⟩

/-- The words of SHOWX. -/
theorem showx_words (l : Lane) (f : LaneW) (vx vs : Tile) :
    let sh := [showHead l.run.deal 1, showPred l f] ++ showIndex (showPred l f) vx ++ (List.range 2).map (showScalar vs l.run.m0)
    sh.getD 0 0 = showHead l.run.deal 1 ∧ sh.getD 1 0 = showPred l f ∧ (∀ m < 2, sh.getD (6 + m) 0 = showScalar vs l.run.m0 m) ∧
      ∀ q < 4, sh.getD (2 + q) 0 = (showIndex (showPred l f) vx).getD q 0 := by
  have h4 : (showIndex (showPred l f) vx).length = 4 := by rw [showIndex, List.length_map, List.length_range]
  have h6 : ([showHead l.run.deal 1, showPred l f] ++ showIndex (showPred l f) vx).length = 6 := by rw [List.length_append, h4]; rfl
  refine ⟨rfl, rfl, fun m hm => ?_, fun q hq => ?_⟩
  · rw [List.getD_append_right _ _ _ _ (by omega), h6, Nat.add_sub_cancel_left, getD_map_range hm]
  · rw [List.append_assoc, List.getD_append_right _ _ _ _ (Nat.le_add_right 2 q), List.getD_append _ _ _ _ (by rw [h4, List.length_cons, List.length_singleton]; omega)]
    exact congrArg (List.getD _ · 0) (Nat.add_sub_cancel_left (n := 2) (m := q))

end Sys2Proof.Machine
end

section
/-! Fences, barriers, the tag table and shows together. -/

namespace Sys2Proof.Machine

/-- Settles O48: each instruction goes by its rule above, at the state in which the results due have landed. -/
theorem laneSync : Obligations.LaneSync := by
  unfold Obligations.LaneSync
  refine ⟨fun s u f l h => ?lane, fun s g gr n o sh hg hn hs => showEnqueue_gives hg hn hs, fun s l n sc p h hw => barwWake_gives h hw⟩
  intro vd fl fpx clear spent gr u' traps trap hd writing loading fenced team n b v set addr active va
  refine ⟨vfence_waits h, fun hw => ⟨vfence_traps h hw, ?vfence⟩, fun ht => ⟨bari_traps h ht, fun hw hl => bara_traps h hw hl ht,
      fun hw => barw_traps h hw ht⟩, bara_waits h,
    fun ht => ⟨bari_gives h ht, fun hw hl hb => bara_faults h hw hl ht (if_pos hb),
      fun hw hl hb he => bara_faults h hw hl ht ((if_neg hb).trans (if_pos he)), ?bara, fun hw => ⟨?barwUninit, ?barwWaits, ?barw⟩⟩,
    plk_gives h, ?ptag, ?pinv, ?shows⟩
  case vfence =>
    intro ht
    obtain ⟨t, he, ⟨hp, hm, hs⟩, hrest⟩ := vfence_gives h hw ht
    exact ⟨t, he, ⟨hp, hm, hs⟩, hrest⟩
  case bara =>
    intro hw hl hb he
    obtain ⟨t, ht', ⟨hp, hm, hs⟩, hr, hteam, hother⟩ := bara_gives h hw hl ht hb he
    refine ⟨t, ht', ⟨hp, hm, hs⟩, hr, fun hfull => ⟨hteam.trans ?_, hother⟩, fun hopen => ⟨hteam.trans ?_, hother⟩⟩
    · exact congrArg (fun b => some (l.tm.withBar n b)) (arrive_full hb hfull)
    · exact congrArg (fun b => some (l.tm.withBar n b)) (arrive_open hopen)
  case barwUninit => exact fun hb => (barw_goes h hw ht).trans (congrArg _ (if_pos hb))
  case barwWaits => exact fun hb he => (barw_goes h hw ht).trans (congrArg _ ((if_neg hb).trans (if_neg (not_not.2 he))))
  case barw =>
    intro hb he
    obtain ⟨t, ht', ⟨hp, hm, hs⟩, hrest⟩ := barw_gives h hw ht hb he
    exact ⟨t, ht', ⟨hp, hm, hs⟩, hrest⟩
  case ptag =>
    exact ptag_gives_steps h (one := fun tm i => tagOp tm f.op3.toNat (addr i) (((l.tile u f.vb.toNat).getD i 0).toNat % 4))
      (after := fun is => is.foldl
        (fun tm i => ((fun tm i => tagOp tm f.op3.toNat (addr i) (((l.tile u f.vb.toNat).getD i 0).toNat % 4)) tm i).1) l.tm)
      (active := active) (fun _ _ => rfl) (fun _ => rfl) rfl
  case pinv =>
    obtain ⟨hgo, hbad⟩ := pinv_gives h
    refine ⟨fun hb => ?_, hbad⟩
    obtain ⟨t, ht, hi, hteam, hother⟩ := hgo hb
    exact ⟨t, ht, hi, hteam, hother⟩
  case shows =>
    intro taken waits head pred vc scalar sends
    have hsends {i : Instr} {ts : List Nat} {mk : State → Lane → Show} (hi : exec i s = showOp s f ts mk) {ok : Show → Prop}
        (hlen : (mk u l).length = 8) (hok : ok (mk u l)) : sends i ts ok := by
      obtain ⟨hwaits, hgives, hbad⟩ := sends_show h hi hlen hok
      refine ⟨fun hb hw => hwaits hb ((showWaits_iff l f).2 hw), fun hb => ?_, hbad⟩
      obtain ⟨t, ht, hsent⟩ := hgives hb
      exact ⟨t, ht, fun hw => hsent fun e => hw ((showWaits_iff l f).1 e)⟩
    have hpred : pred (showPred l f) := fun c hc => showPred_iff l f hc
    have hscalar (m : Nat) : scalar (showScalar (l.tile u f.vc.toNat) l.run.m0 m) m :=
      ⟨fun h0 => by rw [h0]; exact showScalar_zero _ m, fun c hc hon hlow => showScalar_lowest _ m hc hon hlow⟩
    refine ⟨hsends rfl rfl ?plain, hsends rfl rfl ?indexed⟩
    case plain =>
      obtain ⟨h0, h1, hm⟩ := show_words l f (l.tile u f.vc.toNat)
      exact ⟨h0.trans (showHead_eq _ 0), by rw [h1]; exact hpred, fun m h => by rw [hm m h]; exact hscalar m⟩
    case indexed =>
      obtain ⟨h0, h1, hm, hq⟩ := showx_words l f (l.tile u f.vb.toNat) (l.tile u f.vc.toNat)
      refine ⟨h0.trans (showHead_eq _ 1), by rw [h1]; exact hpred, fun m h => by rw [hm m h]; exact hscalar m, fun i hi => ?_⟩
      rw [hq _ (by omega), h1]
      exact showIndex_nibble _ _ hi

end Sys2Proof.Machine
end

section
/-! A ready list that names a group of another hand (R41, R42), and the statement about group events. -/

namespace Sys2Proof.Machine

/-- A group of hand 0 whose queue holds a deal. -/
def swapInto : GroupRef := ⟨0, 0, 0, 0⟩
/-- Its like on hand 1. -/
def swapAway : GroupRef := ⟨1, 0, 0, 0⟩
/-- Both are LIVE with one deal. -/
def swapGroup : Group := { State.emptyGroup with state := .live, queue := [⟨0, 0, 0, 0, [], 1, false, 0⟩] }

/-- Hand 0 lists both as ready, the group of hand 1 first; that one is active on its own hand. -/
def swapState : State :=
  { State.reset with
    groups := [(groupKey swapInto, swapGroup), (groupKey swapAway, swapGroup)]
    hands := [(0, { State.emptyHand with ready := [swapAway, swapInto] }), (1, { State.emptyHand with active := [swapAway] })] }

/-- The group of hand 1 is active on its hand, so it is not pending there, and the group of hand 0 comes in. -/
theorem execGroupSwap_swapState : exec (.groupSwap swapInto swapInto) swapState =
    .next (swapState.updHand 0 fun h => { h with active := h.active ++ [swapInto] }) := by
  show execGroupSwap swapInto swapInto swapState = _
  rfl

/-- Refutes O49: its last clause asks of a group that is ready only that the hand of the swap does not list it as active, while the model asks
it of the group's own hand (R41). In `swapState` the ready list of hand 0 begins with a group of hand 1 that is active there: by the
statement it has been ready longest, so nothing should happen, and the model brings in the group behind it. The machine does not reach
such a list; the statement is about every state. -/
theorem not_laneEvents : ¬Obligations.LaneEvents := by
  unfold Obligations.LaneEvents
  rintro ⟨-, -, -, -, hswap⟩
  obtain ⟨hstay, -, -⟩ := hswap swapState swapInto swapInto swapGroup swapGroup rfl rfl rfl rfl
  have hready : exec (.groupSwap swapInto swapInto) swapState = .next swapState :=
    hstay (.inr ⟨swapAway, by decide, [], [swapInto], rfl, by simp, swapGroup, rfl, rfl, by decide, .inl rfl, .inl (by decide)⟩)
  rw [execGroupSwap_swapState] at hready
  have hactive := congrArg (fun t => (State.hand t 0).active) (Host.Outcome.next.inj hready)
  exact absurd hactive (by decide)

end Sys2Proof.Machine
end

section
/-! A load that meets poison under FAULT where the host reads error records (R143, R227), and the statement about lane memory instructions. -/

namespace Sys2Proof.Machine

/-- A load of the word at 256 of hand 0's scratchpad. -/
def poisonElem : Elem := ⟨0, 256, .scratch 0 256, .load 32 false, false, none, none⟩
/-- It is outstanding for tile 0 in a space whose poison policy is FAULT. -/
def poisonLoad : Outst :=
  { tok := some 7, elems := [poisonElem], dest := [.tile 0], space := 1, scope := 0, hint := 0, show_ := none, helper := false, pc := 17, k := 1,
    ins := 0, seq := 1, at_ := 5, fault := true, done := false, bad := none }

/-- The group that has issued it. -/
def poisonGroup : Group := { State.emptyGroup with state := .live, outst := [poisonLoad] }

/-- Its unit is poisoned, and context 0's entry in host memory gives its error ring one entry. -/
def poisonState : State :=
  { State.reset with
    hostMem := [(16, 1)]
    ctxs := [(0, wordCtx)]
    teams := [(teamKey ⟨0, 0⟩, wordTeam false)]
    threads := [(threadKey ⟨0, 0, 0⟩, wordThread)]
    groups := [(groupKey ⟨0, 0, 0, 0⟩, poisonGroup)]
    hands := [(0, { State.emptyHand with scratchPoison := [4] })] }

/-- The byte of host memory at `a` in the next state. -/
def hostByteAfter (r : Res) (a : Nat) : Byte := match r with | .next t => Memory.get t.hostMem a | _ => 0

/-- The record of the poison advances the write index of the ring. -/
theorem hostByteAfter_poisonState : hostByteAfter (exec (.tokenComplete ⟨0, 0, 0, 0⟩ 0) poisonState) 24 = 1 := by
  show hostByteAfter (execTokenComplete ⟨0, 0, 0, 0⟩ 0 poisonState) 24 = 1
  decide +kernel

/-- Refutes O47: an operation that ends with a deferred POISON fault logs its record (R143), which the device writes into the context's error ring
in host memory, while the statement's `fails` keeps every byte of host memory. In `poisonState` the ring has one entry, and the byte at 24,
its write index, becomes 1. -/
theorem not_laneMemory : ¬Obligations.LaneMemory := by
  unfold Obligations.LaneMemory
  rintro ⟨-, hcomplete⟩
  obtain ⟨k, hk⟩ : ∃ k, poisonState.coreOf ⟨0, 0, 0⟩ = some k := ⟨_, rfl⟩
  obtain ⟨-, -, -, hload, -⟩ := hcomplete poisonState ⟨0, 0, 0, 0⟩ poisonGroup k 0 poisonLoad rfl hk rfl rfl
  obtain ⟨-, -, hpoison⟩ := hload poisonElem 32 false 0 ⟨⟨rfl, fun j hj => absurd hj (Nat.not_lt_zero j)⟩, rfl, rfl, rfl, nofun⟩
    nofun rfl (by decide) (by decide) rfl nofun
  obtain ⟨t, x, hstep, ⟨-, hhost, -⟩, -⟩ := hpoison rfl (by decide) rfl
  have hbyte := hostByteAfter_poisonState
  rw [hstep] at hbyte
  exact absurd ((hhost 24).symm.trans hbyte) (by decide)

end Sys2Proof.Machine
end

section
/-! SUPPORT. Checkpoints under accesses: an access makes no checkpoint valid (R352). -/

namespace Sys2Proof.Machine

/-- Every context whose checkpoint is valid in `t` had a valid one in `s`. -/
structure CkptFalls (s t : State) : Prop where
  back : ∀ c x, t.ctx? c = some x → x.ckptValid = true → ∃ y, s.ctx? c = some y ∧ y.ckptValid = true

namespace CkptFalls

theorem refl (s : State) : CkptFalls s s := ⟨fun _ x h v => ⟨x, h, v⟩⟩

theorem trans {s t u : State} (h : CkptFalls s t) (g : CkptFalls t u) : CkptFalls s u := ⟨fun c x e v => by
  obtain ⟨y, e', v'⟩ := g.back c x e v
  exact h.back c y e' v'⟩

theorem of_ctxs {s t : State} (h : t.ctxs = s.ctxs) : CkptFalls s t :=
  ⟨fun c x e v => ⟨x, by rw [State.ctx?, ← h]; exact e, v⟩⟩

theorem foldl {α : Type} {f : State → α → State} (hf : ∀ s x, CkptFalls s (f s x)) (l : List α) (s : State) : CkptFalls s (l.foldl f s) := by
  induction l generalizing s with
  | nil => exact refl s
  | cons x l ih => exact (hf s x).trans (ih _)

/-- A context that does not become valid. -/
theorem updCtx (s : State) (c : Nat) (f : Ctx → Ctx) (h : ∀ x, (f x).ckptValid = true → x.ckptValid = true) :
    CkptFalls s (s.updCtx c f) := ⟨fun n x e v => by
  rw [State.ctx?_updCtx] at e
  split at e
  · obtain ⟨y, hy, rfl⟩ := Option.map_eq_some_iff.1 e
    exact ⟨y, hy, h y v⟩
  · exact ⟨x, e, v⟩⟩

/-- A context without a valid checkpoint stays without one. -/
theorem invalid {s t : State} (h : CkptFalls s t) {c : Nat} (hc : ∀ x, s.ctx? c = some x → x.ckptValid = false) :
    ∀ x, t.ctx? c = some x → x.ckptValid = false := fun x e => by
  by_contra v
  obtain ⟨y, hy, v'⟩ := h.back c x e (by simpa using v)
  rw [hc y hy] at v'
  cases v'

end CkptFalls

theorem postFault_ctxs (s : State) (c : Nat) (code : FaultCode) (cls : Class) (p : Site) (addr d1 d2 : W64) :
    (postFault s c code cls p addr d1 d2).ctxs = s.ctxs := by
  unfold postFault
  exact postError_ctxs ..

theorem undoAppend_ckpt (s : State) (c unit : Nat) : CkptFalls s (undoAppend s c unit) := by
  unfold undoAppend
  split
  · exact .refl s
  · split
    · split
      · exact (CkptFalls.updCtx s c (fun x => { x with ckptValid := false }) fun _ v => by cases v).trans (.of_ctxs (postFault_ctxs ..))
      · exact (CkptFalls.updCtx s c (fun x => { x with undo := _ :: x.undo, undoBytes := x.undoBytes + 128 }) fun _ => id).trans (.of_ctxs rfl)
    · exact .refl s

theorem homeBytes_ckpt (s : State) (c : Nat) (ws : List (Nat × Byte)) : CkptFalls s (homeBytes s c ws) := by
  induction ws generalizing s with
  | nil => exact .refl s
  | cons w ws ih =>
    refine CkptFalls.trans ?_ (ih _)
    unfold homeByte
    split
    · exact (undoAppend_ckpt s c _).trans (.of_ctxs rfl)
    · exact .refl s

theorem homeRaw_ckpt (s : State) (c : Nat) (log : Bool) (p : Site) (vofs : W64) (ws : List (Nat × Byte)) :
    CkptFalls s (homeRaw s c log p vofs ws) := by
  unfold homeRaw
  exact (CkptFalls.foldl (fun s k => .of_ctxs (postFault_ctxs ..)) _ s).trans ((homeBytes_ckpt ..).trans (.of_ctxs rfl))

theorem sliceOut_ckpt (p : Nat) (s : State) (v : Nat) : CkptFalls s (sliceOut p s v) := by
  unfold sliceOut
  split
  · exact (homeRaw_ckpt ..).trans (.of_ctxs rfl)
  · exact .of_ctxs rfl

theorem settleSets_ckpt (n : Nat) (w : List (Nat × Nat)) (s : State) : CkptFalls s (settleSets n w s) := by
  induction n generalizing w s with
  | zero => exact .refl s
  | succ n ih =>
    cases w with
    | nil => exact .refl s
    | cons x w =>
      unfold settleSets
      split
      · exact ih w s
      · split
        · exact ih w s
        · exact (sliceOut_ckpt ..).trans (ih ..)

theorem settleLines_ckpt (w : List (Nat × Nat)) (s : State) : CkptFalls s (settleLines w s) := by
  unfold settleLines
  split
  · exact .refl s
  · exact settleSets_ckpt ..

theorem settleHomes_ckpt (las : List Nat) (s : State) : CkptFalls s (settleHomes las s) := settleLines_ckpt ..

theorem setLine_ckpt (s : State) (p la : Nat) (l : CLine) : CkptFalls s (setLine s p la l) := .of_ctxs rfl

theorem poisonRaw_ckpt (s : State) (us : List Nat) : CkptFalls s (poisonRaw s us) := .of_ctxs rfl

theorem settleSlice_ckpt (s : State) (p la : Nat) : CkptFalls s (settleSlice s p la) := by
  unfold settleSlice
  split
  · exact .refl s
  · exact settleLines_ckpt ..

theorem homeStore_ckpt (s : State) (c : Nat) (ws : List (Nat × Byte)) : CkptFalls s (homeStore s c ws) :=
  (homeRaw_ckpt ..).trans (settleHomes_ckpt ..)

theorem spoil_ckpt (s : State) (us : List Nat) : CkptFalls s (spoil s us) :=
  (poisonRaw_ckpt ..).trans (settleHomes_ckpt ..)

theorem pushBytes_ckpt (s : State) (c la : Nat) (ws : List (Nat × Byte)) (us ps : List Nat) : CkptFalls s (pushBytes s c la ws us ps) := by
  induction ps with
  | nil => exact (homeStore_ckpt ..).trans (spoil_ckpt ..)
  | cons p ps ih =>
    unfold pushBytes
    split
    · exact (setLine_ckpt ..).trans (settleSlice_ckpt ..)
    · exact ih

theorem writeBack_ckpt (s : State) (p la : Nat) : CkptFalls s (writeBack s p la) := by
  unfold writeBack
  split
  · exact .refl s
  · split
    · exact .refl s
    · exact (setLine_ckpt ..).trans (pushBytes_ckpt ..)

theorem flushPlace_ckpt (s : State) (inv : Bool) (p : Nat) : CkptFalls s (flushPlace s inv p) := by
  unfold flushPlace
  refine .foldl (fun s la => ?_) _ s
  split
  · exact (writeBack_ckpt s p la).trans (.of_ctxs rfl)
  · exact writeBack_ckpt s p la

theorem acquireAt_ckpt (s : State) (h scope : Nat) : CkptFalls s (acquireAt s h scope) := .foldl (fun s p => flushPlace_ckpt s true p) _ s

end Sys2Proof.Machine
end

section
/-! SUPPORT. The start of a team: what lands on its slot, and what stays as it was (R183, R193, R317). -/

namespace Sys2Proof.Machine

/-- A fold gives what one of its steps gives and no step takes away. -/
theorem foldl_gives {α β : Type} {f : β → α → β} {P : β → Prop} {x : α} (hx : ∀ s, P (f s x)) (hk : ∀ s y, P s → P (f s y)) {l : List α}
    (h : x ∈ l) (s : β) : P (l.foldl f s) := by
  induction l generalizing s with
  | nil => cases h
  | cons y l ih =>
    rcases List.mem_cons.1 h with rfl | h
    · exact List.foldlRecOn l f (hx s) fun s hs z _ => hk s z hs
    · exact ih h _

/-! ### Threads and groups -/

/-- One group of a new team. -/
def putGroup (t : TeamRef) (l : Launch) (team r : Nat) (s : State) (i : Nat) : State :=
  { s with groups := s.groups.set (groupKey ⟨t.hand, t.slot, r, i⟩) (startGroup l team r i) }

/-- One role's thread and groups of a new team. -/
def putRole (t : TeamRef) (l : Launch) (w : Waiting) (team : Nat) (s : State) (r : Nat) : State :=
  (List.range 16).foldl (putGroup t l team r)
    { s with threads := s.threads.set (threadKey ⟨t.hand, t.slot, r⟩) (startThread l w (freeNumber s t.hand) team r) }

theorem putAgents_eq (s : State) (t : TeamRef) (l : Launch) (w : Waiting) (team : Nat) :
    putAgents s t l w team = (rolesOf l.lrec).foldl (putRole t l w team) s := rfl

/-- Only threads and groups differ. -/
def AgentsOnly (s t : State) : Prop := { t with threads := s.threads, groups := s.groups } = s

theorem AgentsOnly.trans {s t u : State} (h : AgentsOnly s t) (g : AgentsOnly t u) : AgentsOnly s u := by
  have e := congrArg (fun x : State => { x with threads := s.threads, groups := s.groups }) g
  exact Eq.trans e h

theorem AgentsOnly.foldl {α : Type} {f : State → α → State} (hf : ∀ s x, AgentsOnly s (f s x)) (l : List α) (s : State) :
    AgentsOnly s (l.foldl f s) :=
  List.foldlRecOn (motive := AgentsOnly s) l f rfl fun _ hb x _ => hb.trans (hf _ x)

theorem putRole_only (t : TeamRef) (l : Launch) (w : Waiting) (team : Nat) (s : State) (r : Nat) : AgentsOnly s (putRole t l w team s r) :=
  AgentsOnly.trans (t := { s with threads := s.threads.set (threadKey ⟨t.hand, t.slot, r⟩) (startThread l w (freeNumber s t.hand) team r) }) rfl
    (.foldl (f := putGroup t l team r) (fun _ _ => rfl) _ _)

theorem putAgents_only (s : State) (t : TeamRef) (l : Launch) (w : Waiting) (team : Nat) : AgentsOnly s (putAgents s t l w team) :=
  .foldl (putRole_only t l w team) _ s

/-- The groups of a role leave the threads alone. -/
theorem putRole_threads (t : TeamRef) (l : Launch) (w : Waiting) (team : Nat) (s : State) (r : Nat) :
    (putRole t l w team s r).threads = s.threads.set (threadKey ⟨t.hand, t.slot, r⟩) (startThread l w (freeNumber s t.hand) team r) :=
  List.foldlRecOn (motive := fun u : State => u.threads = s.threads.set (threadKey ⟨t.hand, t.slot, r⟩) (startThread l w (freeNumber s t.hand) team r))
    _ _ rfl fun _ hb _ _ => hb

theorem putAgents_thread (s : State) (t : TeamRef) (l : Launch) (w : Waiting) (team : Nat) {q : Nat} (hq : q ∈ rolesOf l.lrec) :
    ∃ hw, (putAgents s t l w team).thread? ⟨t.hand, t.slot, q⟩ = some (startThread l w hw team q) := by
  rw [putAgents_eq]
  refine foldl_gives (P := fun u : State => ∃ hw, u.thread? ⟨t.hand, t.slot, q⟩ = some (startThread l w hw team q)) (fun u => ?_)
    (fun u r h => ?_) hq s
  all_goals rw [State.thread?, putRole_threads, Map.get?_set]
  · exact ⟨_, if_pos rfl⟩
  · split
    · next e =>
      have : q = r := by simpa [threadKey] using e
      subst this
      exact ⟨_, rfl⟩
    · exact h

/-- The key of a group names its role and its index. -/
theorem groupKey_inj {t : TeamRef} {q r i j : Nat} (hi : i < 16) (hj : j < 16)
    (h : groupKey ⟨t.hand, t.slot, q, i⟩ = groupKey ⟨t.hand, t.slot, r, j⟩) : q = r ∧ i = j := by
  simp only [groupKey] at h
  omega

/-- One group of a role is put, and the others that are there stay as a start leaves them. -/
theorem putRole_keeps (t : TeamRef) (l : Launch) (w : Waiting) (team : Nat) {q i : Nat} (hi : i < 16) (s : State) (r : Nat)
    (h : s.group? ⟨t.hand, t.slot, q, i⟩ = some (startGroup l team q i)) :
    (putRole t l w team s r).group? ⟨t.hand, t.slot, q, i⟩ = some (startGroup l team q i) := by
  refine List.foldlRecOn (motive := fun u : State => u.group? ⟨t.hand, t.slot, q, i⟩ = some (startGroup l team q i)) _ _ h fun u hu j hj => ?_
  rw [putGroup, State.group?, Map.get?_set]
  split
  · next e =>
    obtain ⟨rfl, rfl⟩ := groupKey_inj hi (List.mem_range.1 hj) e
    rfl
  · exact hu

theorem putRole_group (t : TeamRef) (l : Launch) (w : Waiting) (team : Nat) {i : Nat} (hi : i < 16) (s : State) (q : Nat) :
    (putRole t l w team s q).group? ⟨t.hand, t.slot, q, i⟩ = some (startGroup l team q i) := by
  refine foldl_gives (P := fun u : State => u.group? ⟨t.hand, t.slot, q, i⟩ = some (startGroup l team q i)) (x := i) (fun u => ?_)
    (fun u j hu => ?_) (List.mem_range.2 hi) _
  all_goals rw [putGroup, State.group?, Map.get?_set]
  · exact if_pos rfl
  · split
    · next e =>
      have : i = j := by simpa [groupKey] using e
      exact this ▸ rfl
    · exact hu

theorem putAgents_group (s : State) (t : TeamRef) (l : Launch) (w : Waiting) (team : Nat) {q i : Nat} (hq : q ∈ rolesOf l.lrec) (hi : i < 16) :
    (putAgents s t l w team).group? ⟨t.hand, t.slot, q, i⟩ = some (startGroup l team q i) := by
  rw [putAgents_eq]
  exact foldl_gives (P := fun u : State => u.group? ⟨t.hand, t.slot, q, i⟩ = some (startGroup l team q i))
    (fun u => putRole_group t l w team hi u q) (fun u r h => putRole_keeps t l w team hi u r h) hq s

/-- X1 to X4 of a thread that starts are its team's operands, and its other registers are 0. -/
theorem startThread_rx (l : Launch) (w : Waiting) (hw team role : Nat) (n : R5) :
    (startThread l w hw team role).rx n = if 1 ≤ n.toNat ∧ n.toNat ≤ 4 then w.x.getD (n.toNat - 1) 0 else 0 := by
  have hn := n.isLt
  have h0 : n = 0 ↔ n.toNat = 0 := by rw [← BitVec.toNat_inj]; rfl
  simp only [Thread.rx, startThread, h0, Vector.getElem_set, Vector.getElem_replicate]
  generalize n.toNat = k at hn ⊢
  rcases k with _ | _ | _ | _ | _ | k
  all_goals simp

end Sys2Proof.Machine
end

section
/-! SUPPORT. What the start of a team gives on its slot, and that it writes no byte (R159, R317, R319). -/

namespace Sys2Proof.Machine

/-- The launch has begun, and the new team has its TEAM number. -/
def numbered (s : State) (w : Waiting) (l : Launch) : State × Nat := takeNumber (firstStart s w.launch l) w

/-- The new team's record stands on its slot, and its units are clear. -/
def seated (s : State) (t : TeamRef) (w : Waiting) (l : Launch) : State :=
  let u := clearUnits (numbered s w l).1 t.hand (startedTeam (numbered s w l).1 t.hand l w (numbered s w l).2).roles
  { u with teams := u.teams.set (teamKey t) (startedTeam (numbered s w l).1 t.hand l w (numbered s w l).2) }

/-- The new team's agents stand there too. -/
def manned (s : State) (t : TeamRef) (w : Waiting) (l : Launch) : State := putAgents (seated s t w l) t l w (numbered s w l).2

theorem putTeam_eq {s : State} {w : Waiting} {l : Launch} (h : s.launches.get? w.launch = some l) (t : TeamRef) :
    putTeam s t w = if (rolesOf l.lrec).isEmpty then (manned s t w l).updTeam t fun x => { x with ending := true } else manned s t w l := by
  unfold putTeam
  rw [h]
  rfl

theorem firstStart_rest (s : State) (n : Nat) (l : Launch) : { firstStart s n l with ctxs := s.ctxs, launches := s.launches } = s := by
  unfold firstStart
  split <;> rfl

theorem takeNumber_rest (s : State) (w : Waiting) : { (takeNumber s w).1 with launches := s.launches } = s := by
  unfold takeNumber
  split
  · rfl
  · dsimp only
    split <;> rfl

theorem takeNumber_named (s : State) {w : Waiting} {n : Nat} (h : w.teamNo = some n) : (takeNumber s w).2 = n := by
  unfold takeNumber
  rw [h]

theorem numbered_rest (s : State) (w : Waiting) (l : Launch) : { (numbered s w l).1 with ctxs := s.ctxs, launches := s.launches } = s := by
  have e := congrArg (fun x : State => { x with ctxs := s.ctxs, launches := s.launches }) (takeNumber_rest (firstStart s w.launch l) w)
  exact Eq.trans e (firstStart_rest s w.launch l)

/-- What a start leaves as it was: all but contexts, launches, teams, threads, groups, and tiles of hands. -/
structure PutBeside (s t : State) : Prop where
  rest  : { t with ctxs := s.ctxs, launches := s.launches, hands := s.hands, teams := s.teams, threads := s.threads, groups := s.groups } = s
  hands : ∀ h, { t.hand h with tiles := (s.hand h).tiles } = s.hand h

theorem seated_beside (s : State) (t : TeamRef) (w : Waiting) (l : Launch) : PutBeside s (seated s t w l) := by
  have e := numbered_rest s w l
  have eh : ∀ h, (numbered s w l).1.hand h = s.hand h := fun h => by
    have e := congrArg State.hands e
    exact congrArg (fun m => Map.getD m h State.emptyHand) e
  refine ⟨?_, fun h => ?_⟩
  · have e := congrArg (fun x : State => { x with hands := s.hands, teams := s.teams, threads := s.threads, groups := s.groups }) e
    exact e
  · have e : (seated s t w l).hand h = (clearUnits (numbered s w l).1 t.hand
        (startedTeam (numbered s w l).1 t.hand l w (numbered s w l).2).roles).hand h := rfl
    rw [e, clearUnits, State.hand_updHand]
    split
    · next q => subst q; rw [eh]
    · rw [eh]

theorem putTeam_beside {s : State} {w : Waiting} {l : Launch} (h : s.launches.get? w.launch = some l) (t : TeamRef) :
    PutBeside s (putTeam s t w) := by
  have hs := seated_beside s t w l
  have ha : AgentsOnly (seated s t w l) (manned s t w l) := putAgents_only ..
  have e : PutBeside s (manned s t w l) := by
    refine ⟨?_, fun q => ?_⟩
    · have e := congrArg (fun x : State =>
        { x with ctxs := s.ctxs, launches := s.launches, hands := s.hands, teams := s.teams, threads := s.threads, groups := s.groups }) ha
      exact Eq.trans e hs.rest
    · have e := congrArg (fun x : State => x.hand q) ha
      have e' : (manned s t w l).hand q = (seated s t w l).hand q := e
      rw [e']
      exact hs.hands q
  rw [putTeam_eq h]
  split
  · exact ⟨e.rest, e.hands⟩
  · exact e

/-! ### The slot -/

theorem seated_teams (s : State) (t : TeamRef) (w : Waiting) (l : Launch) :
    (seated s t w l).teams = s.teams.set (teamKey t) (startedTeam (numbered s w l).1 t.hand l w (numbered s w l).2) := by
  have e : (numbered s w l).1.teams = s.teams := by have e := congrArg State.teams (numbered_rest s w l); exact e
  rw [← e]
  rfl

theorem manned_teams (s : State) (t : TeamRef) (w : Waiting) (l : Launch) :
    (manned s t w l).teams = s.teams.set (teamKey t) (startedTeam (numbered s w l).1 t.hand l w (numbered s w l).2) := by
  have e := congrArg State.teams (putAgents_only (seated s t w l) t l w (numbered s w l).2)
  exact Eq.trans e (seated_teams s t w l)

theorem putTeam_team {s : State} {w : Waiting} {l : Launch} (h : s.launches.get? w.launch = some l) (t : TeamRef) :
    (putTeam s t w).team? t =
      some { startedTeam (numbered s w l).1 t.hand l w (numbered s w l).2 with ending := (rolesOf l.lrec).isEmpty } := by
  rw [putTeam_eq h]
  split
  · next e => rw [State.team?_updTeam, if_pos rfl, State.team?, manned_teams, Map.get?_set_self, e]; rfl
  · next e => rw [State.team?, manned_teams, Map.get?_set_self, Bool.eq_false_iff.2 e]; rfl

theorem putTeam_others {s : State} {w : Waiting} {l : Launch} (h : s.launches.get? w.launch = some l) (t : TeamRef) :
    otherTeams s (putTeam s t w) t := fun q hq => by
  have e : (manned s t w l).team? q = s.team? q := by rw [State.team?, manned_teams, Map.get?_set_ne _ _ hq, ← State.team?]
  rw [putTeam_eq h]
  split
  · rw [State.team?_updTeam, if_neg hq, e]
  · exact e

theorem putTeam_thread {s : State} {w : Waiting} {l : Launch} (h : s.launches.get? w.launch = some l) (t : TeamRef) {q : Nat}
    (hq : q ∈ rolesOf l.lrec) : ∃ hw, (putTeam s t w).thread? ⟨t.hand, t.slot, q⟩ = some (startThread l w hw (numbered s w l).2 q) := by
  obtain ⟨hw, e⟩ := putAgents_thread (seated s t w l) t l w (numbered s w l).2 hq
  refine ⟨hw, ?_⟩
  rw [putTeam_eq h]
  split <;> exact e

theorem putTeam_group {s : State} {w : Waiting} {l : Launch} (h : s.launches.get? w.launch = some l) (t : TeamRef) {q i : Nat}
    (hq : q ∈ rolesOf l.lrec) (hi : i < 16) :
    (putTeam s t w).group? ⟨t.hand, t.slot, q, i⟩ = some (startGroup l (numbered s w l).2 q i) := by
  have e := putAgents_group (seated s t w l) t l w (numbered s w l).2 hq hi
  rw [putTeam_eq h]
  split <;> exact e

/-! ### Memory -/

theorem putTeam_ctxs {s : State} {w : Waiting} {l : Launch} (h : s.launches.get? w.launch = some l) (t : TeamRef) :
    (putTeam s t w).ctxs = (firstStart s w.launch l).ctxs := by
  have e : (manned s t w l).ctxs = (seated s t w l).ctxs := by
    have e := congrArg State.ctxs (putAgents_only (seated s t w l) t l w (numbered s w l).2); exact e
  have e' : (seated s t w l).ctxs = (firstStart s w.launch l).ctxs := by
    have e := congrArg State.ctxs (takeNumber_rest (firstStart s w.launch l) w); exact e
  rw [putTeam_eq h]
  split <;> exact e.trans e'

/-- A context at the first start of a launch; a team that starts alone ends its checkpoint (R287, R290). -/
def Launch.begins (l : Launch) (alone : Bool) (x : Ctx) : Ctx :=
  let x := { x with eht := if l.eht = 0 then x.eht else l.eht &&& ~~~63, cklog := l.cklog, undoBase := l.undoBase }
  if alone then { x with ckptCount := 0, ckptValid := false, undo := [], undoBytes := 0 } else x

theorem Launch.begins_valid (l : Launch) (alone : Bool) (x : Ctx) (h : (l.begins alone x).ckptValid = true) : x.ckptValid = true := by
  unfold Launch.begins at h
  dsimp only at h
  split at h
  · cases h
  · exact h

theorem firstStart_begins {l : Launch} (h : ¬l.started = true) (s : State) (n : Nat) :
    (firstStart s n l).ctxs = (s.updCtx l.ctx (l.begins (teamsOf s l.ctx).isEmpty)).ctxs := by
  unfold firstStart
  rw [if_neg h]
  rfl

theorem inLog_of_ctxs {s t : State} (h : t.ctxs = s.ctxs) {a : Nat} (ha : inLog t a) : inLog s a := by
  unfold inLog State.ctx? at *
  rwa [h] at ha

/-- A launch's first start names no log of a valid checkpoint where its context has none. -/
theorem firstStart_inLog {s : State} {n : Nat} {l : Launch} (h : l.started = true ∨ ∀ x, s.ctx? l.ctx = some x → x.ckptValid = false) (a : Nat)
    (ha : inLog (firstStart s n l) a) : inLog s a := by
  by_cases hn : l.started = true
  · unfold firstStart at ha
    rwa [if_pos hn] at ha
  · obtain ⟨c, x, e, v, hi⟩ := inLog_of_ctxs (firstStart_begins hn s n) ha
    rw [State.ctx?_updCtx] at e
    split at e
    · next hc =>
      obtain ⟨y, hy, rfl⟩ := Option.map_eq_some_iff.1 e
      have hv := h.resolve_left hn y (hc ▸ hy)
      rw [l.begins_valid _ y v] at hv
      cases hv
    · exact ⟨c, x, e, v, hi⟩

theorem putTeam_noStore {s : State} {w : Waiting} {l : Launch} (h : s.launches.get? w.launch = some l) (t : TeamRef)
    (hc : l.started = true ∨ ∀ x, s.ctx? l.ctx = some x → x.ckptValid = false) : NoStore s (putTeam s t w) := by
  have hb := putTeam_beside h t
  have hm : (putTeam s t w).mem = s.mem := by have e := congrArg State.mem hb.rest; exact e
  have hx : (putTeam s t w).caches = s.caches := by have e := congrArg State.caches hb.rest; exact e
  have he : (putTeam s t w).errSeq = s.errSeq := by have e := congrArg State.errSeq hb.rest; exact e
  have hh : (putTeam s t w).hostMem = s.hostMem := by have e := congrArg State.hostMem hb.rest; exact e
  refine ⟨fun a => .inl (by rw [hm]), fun a v d => .inl ?_, fun a d => ?_, he.ge, fun _ => hh, fun q => ?_⟩
  · unfold dirtyByte lineCopy at *
    rwa [hx] at d
  · exact firstStart_inLog hc a (inLog_of_ctxs (putTeam_ctxs h t) d)
  · have e := congrArg Hand.scratch (hb.hands q)
    exact e

/-! ### The start -/

theorem putTeam_started {s : State} {w : Waiting} {l : Launch} (h : s.launches.get? w.launch = some l) (t : TeamRef) :
    ∃ num, TeamStarted s (putTeam (acquireAt s t.hand 3) t w) t w l num := by
  have hk := acquireAt_keeps s t.hand 3
  have hs := acquireAt_noStore s t.hand 3
  have hc := acquireAt_ckpt s t.hand 3
  have ha := acquireAt_acquired s t.hand 3
  generalize acquireAt s t.hand 3 = v at hk hs hc ha ⊢
  have hl : v.launches.get? w.launch = some l := by have e := congrArg State.launches hk.kept; rw [← h]; exact congrArg (Map.get? · w.launch) e
  refine ⟨(numbered v w l).2, ?number, ⟨_, putTeam_team hl t, rfl, rfl, rfl, rfl, rfl, rfl, rfl, rfl, rfl⟩, ?others, ?threads, ?groups, ?bytes, ?fresh⟩
  case number => exact fun n hn => takeNumber_named _ hn
  case others => exact fun q hq => (putTeam_others hl t q hq).trans (hk.team? q)
  case threads =>
    intro q hq
    obtain ⟨hw, e⟩ := putTeam_thread hl t hq
    exact ⟨_, e, rfl, rfl, rfl, rfl, rfl, rfl, rfl, rfl, rfl, rfl, rfl, rfl, startThread_rx l w hw _ q⟩
  case groups => exact fun q hq i hi => ⟨_, putTeam_group hl t hq hi, rfl, rfl⟩
  case bytes => exact fun hx => hs.trans (putTeam_noStore hl t (hx.imp_right hc.invalid))
  case fresh =>
    have e : (putTeam v t w).caches = v.caches := by have e := congrArg State.caches (putTeam_beside hl t).rest; exact e
    intro hh
    have ha := ha hh
    unfold acquiredAt lineCopy at *
    rwa [e]

end Sys2Proof.Machine
end

section
/-! SUPPORT. TEAM_START, BOOT_MAILBOX_ARM and SHADOW_BANK_ACTIVATE where nothing has to be loaded (R316, R319, R324). -/

namespace Sys2Proof.Machine

/-- What a team of launch `l` needs to start on hand `h` is there: the constants are filled or there are none, the hand holds the images
under the launch's map, and every page of the team's image is resident. -/
structure Boots (s : State) (h : Nat) (w : Waiting) (l : Launch) : Prop where
  launch : s.launches.get? w.launch = some l
  consts : l.started = true ∨ ∀ im, imageOf s l.ctx l.img = some im → im.constFirst = 0
  map    : (s.hand h).maps.get? (imageKey l.ctx l.img) = some l.map
  mapOwn : (s.hand h).maps.get? (imageKey w.ctx w.img) = some l.map
  pages  : ∀ im, imageOf s w.ctx w.img = some im → ∀ p ≤ im.lines / 64, pageResident s h w.ctx w.img p = true

theorem useMap_same {s : State} {h c img : Nat} {m : List Byte} (e : (s.hand h).maps.get? (imageKey c img) = some m) : useMap s h c img m = s := by
  unfold useMap
  rw [e]
  exact if_pos rfl

theorem loadPages_resident {s : State} {h c img : Nat} (m : List Byte) {ps : List Nat} (hp : ∀ p ∈ ps, pageResident s h c img p = true) :
    loadPages h c img m ps s = (s, true) := by
  induction ps with
  | nil => rfl
  | cons p ps ih =>
    rw [loadPages, if_pos (hp p List.mem_cons_self)]
    exact ih fun q hq => hp q (List.mem_cons_of_mem _ hq)

/-- The constants of a launch that a team of it finds filled, or that its image does not have. -/
theorem constants_there {s : State} {l : Launch} (h : l.started = true ∨ ∀ im, imageOf s l.ctx l.img = some im → im.constFirst = 0) (n : Nat) :
    (if l.started then (s, .ok, 0, 0) else fillConstants s n l : State × Loading × W64 × W64) = (s, .ok, 0, 0) := by
  split
  · rfl
  · next hn =>
    have h := h.resolve_left hn
    unfold fillConstants
    split
    · rfl
    · next im e => exact if_pos (h im e)

theorem bootTeam_of_boots {s : State} {t : TeamRef} {w : Waiting} {l : Launch} (h : Boots s t.hand w l) :
    bootTeam s t w = (putTeam (acquireAt s t.hand 3) t w, true) := by
  unfold bootTeam
  simp only [h.launch, useMap_same h.map, useMap_same h.mapOwn, constants_there h.consts]
  rw [loadPages_resident]
  split
  · next im e => exact fun p hp => h.pages im e p (by have := List.mem_range.1 hp; omega)
  · exact fun p hp => by cases hp

/-! ### A start seen from states that differ beside it -/

theorem TeamStarted.before {s v t : State} {r : TeamRef} {w : Waiting} {l : Launch} {n : Nat} (h : TeamStarted v t r w l n)
    (e : { v with hands := s.hands } = s) (hs : ∀ q, (v.hand q).scratch = (s.hand q).scratch) : TeamStarted s t r w l n := by
  have ht : v.teams = s.teams := by have e := congrArg State.teams e; exact e
  have hx : v.ctxs = s.ctxs := by have e := congrArg State.ctxs e; exact e
  have hm : v.mem = s.mem := by have e := congrArg State.mem e; exact e
  have hc : v.caches = s.caches := by have e := congrArg State.caches e; exact e
  have he : v.errSeq = s.errSeq := by have e := congrArg State.errSeq e; exact e
  have hh : v.hostMem = s.hostMem := by have e := congrArg State.hostMem e; exact e
  refine ⟨h.number, h.team, fun q hq => (h.others q hq).trans ?_, h.threads, h.groups, fun hy => ?_, h.fresh⟩
  · rw [State.team?, ht, ← State.team?]
  · refine (Flows.of_eq (s := s) (t := v) hm hc hx he.ge (fun _ => hh) hs).trans (h.bytes (hy.imp_right fun hy x ex => hy x ?_))
    rwa [State.ctx?, hx] at ex

theorem TeamStarted.after {s t u : State} {r : TeamRef} {w : Waiting} {l : Launch} {n : Nat} (h : TeamStarted s t r w l n)
    (e : { u with hands := t.hands, waiting := t.waiting, launches := t.launches } = t) (hs : ∀ q, (u.hand q).scratch = (t.hand q).scratch) :
    TeamStarted s u r w l n := by
  have ht : u.teams = t.teams := by have e := congrArg State.teams e; exact e
  have hr : u.threads = t.threads := by have e := congrArg State.threads e; exact e
  have hg : u.groups = t.groups := by have e := congrArg State.groups e; exact e
  have hx : u.ctxs = t.ctxs := by have e := congrArg State.ctxs e; exact e
  have hm : u.mem = t.mem := by have e := congrArg State.mem e; exact e
  have hc : u.caches = t.caches := by have e := congrArg State.caches e; exact e
  have he : u.errSeq = t.errSeq := by have e := congrArg State.errSeq e; exact e
  have hh : u.hostMem = t.hostMem := by have e := congrArg State.hostMem e; exact e
  have team : ∀ q, u.team? q = t.team? q := fun q => by rw [State.team?, ht, ← State.team?]
  have thread : ∀ q, u.thread? q = t.thread? q := fun q => by rw [State.thread?, hr, ← State.thread?]
  have group : ∀ q, u.group? q = t.group? q := fun q => by rw [State.group?, hg, ← State.group?]
  have copy : ∀ p la, lineCopy u p la = lineCopy t p la := fun p la => by rw [lineCopy, hc, ← lineCopy]
  obtain ⟨number, hteam, others, threads, groups, bytes, fresh⟩ := h
  refine ⟨number, by rwa [team], fun q hq => (team q).trans (others q hq), fun q hq => by rw [thread]; exact threads q hq,
    fun q hq i hi => by rw [group]; exact groups q hq i hi, fun hy => (bytes hy).trans (.of_eq hm hc hx he.ge (fun _ => hh) hs),
    fun hh p hp la => by rw [copy]; exact fresh hh p hp la⟩

/-- A team that boots starts, with the waiting teams as they were. -/
theorem bootTeam_started {s : State} {t : TeamRef} {w : Waiting} {l : Launch} (h : Boots s t.hand w l) :
    ∃ u num, bootTeam s t w = (u, true) ∧ TeamStarted s u t w l num ∧ u.waiting = s.waiting := by
  obtain ⟨num, hn⟩ := putTeam_started h.launch t
  refine ⟨_, num, bootTeam_of_boots h, hn, ?_⟩
  have hk := acquireAt_keeps s t.hand 3
  generalize acquireAt s t.hand 3 = v at hk ⊢
  have hl : v.launches.get? w.launch = some l := by
    have e := congrArg State.launches hk.kept
    rw [← h.launch]
    exact congrArg (Map.get? · w.launch) e
  have e := congrArg State.waiting (putTeam_beside hl t).rest
  have e' := congrArg State.waiting hk.kept
  exact Eq.trans e e'

/-! ### TEAM_START -/

theorem tryStart_none {s : State} {n : Nat} {w : Waiting} (hw : s.waiting[n]? = some w) (hg : w.gang = false) (hf : handFor s w = none) :
    tryStart s n = s := by
  simp only [tryStart, hw, hg, hf, Bool.false_eq_true, if_false]

theorem updMailbox_get (s : State) (h k : Nat) (x : List W64) :
    ((s.updHand h fun y => { y with mailbox := y.mailbox.set k x }).hand h).mailbox.get? k = some x := by
  rw [State.hand_updHand, if_pos rfl, Map.get?_set_self]

theorem updMailbox_scratch (s : State) (h k : Nat) (x : List W64) (q : Nat) :
    ((s.updHand h fun y => { y with mailbox := y.mailbox.set k x }).hand q).scratch = (s.hand q).scratch := by
  rw [State.hand_updHand]
  split
  · next e => subst e; rfl
  · rfl

/-- A team that starts through the mailbox of a free slot. -/
theorem startOn_started {s : State} {h k : Nat} {w : Waiting} {l : Launch} (hf : freeSlot s h = some k) (ho : w.out = none) (hb : Boots s h w l) :
    ∃ u team, startOn s h w = (u, true) ∧ TeamStarted s u ⟨h, k⟩ w l team ∧ u.waiting = s.waiting ∧
      (team < 2 ^ 32 → (u.hand h).mailbox.get? k = some (mailboxOf w team)) := by
  obtain ⟨u, team, e, hs, hw⟩ := bootTeam_started (t := ⟨h, k⟩) hb
  obtain ⟨m, hm, -, -, -, hn, -⟩ := hs.team
  refine ⟨u.updHand h fun x => { x with mailbox := x.mailbox.set k (mailboxOf w m.teamNo.toNat) }, team, ?_,
    hs.after rfl (updMailbox_scratch u h k _), hw, fun hlt => ?_⟩
  · simp only [startOn, hf, ho, e, hm]
  · rw [updMailbox_get, hn, BitVec.toNat_ofNat, Nat.mod_eq_of_lt hlt]

theorem tryStart_started {s : State} {h k n : Nat} {w : Waiting} {l : Launch} (hw : s.waiting[n]? = some w) (hg : w.gang = false)
    (ho : w.out = none) (hh : handFor s w = some h) (hf : freeSlot s h = some k) (hb : Boots s h w l) :
    ∃ t team, tryStart s n = t ∧ TeamStarted s t ⟨h, k⟩ w l team ∧ t.waiting = s.waiting.eraseIdx n ∧
      (team < 2 ^ 32 → (t.hand h).mailbox.get? k = some (mailboxOf w team)) := by
  obtain ⟨u, team, e, hs, hx, hm⟩ := startOn_started hf ho hb
  refine ⟨{ u with waiting := u.waiting.eraseIdx n }, team, ?_, hs.after rfl fun _ => rfl, by rw [hx], hm⟩
  simp only [tryStart, hw, hg, hh, e, Bool.false_eq_true, if_false]

/-! ### BOOT_MAILBOX_ARM -/

/-- The state with the registers of a mailbox written. -/
def mailed (s : State) (h k : Nat) (x : List W64) : State := s.updHand h fun y => { y with mailbox := y.mailbox.set k x }

theorem mailboxAt_mailed (s : State) (h k : Nat) (x : List W64) : mailboxAt (mailed s h k x) h k = x := by
  unfold mailboxAt Map.getD mailed
  rw [updMailbox_get]
  rfl

theorem mailed_maps (s : State) (h k : Nat) (x : List W64) : ((mailed s h k x).hand h).maps = (s.hand h).maps ∧
    ((mailed s h k x).hand h).imem = (s.hand h).imem ∧ ((mailed s h k x).hand h).banks = (s.hand h).banks := by
  rw [mailed, State.hand_updHand, if_pos rfl]
  exact ⟨rfl, rfl, rfl⟩

theorem Boots.mailed {s : State} {h : Nat} {w : Waiting} {l : Launch} (hb : Boots s h w l) (k : Nat) (x : List W64) :
    Boots (mailed s h k x) h w l := by
  obtain ⟨hm, hi, -⟩ := mailed_maps s h k x
  obtain ⟨launch, consts, map, own, pages⟩ := hb
  exact ⟨launch, consts, (congrArg (Map.get? · _) hm).trans map, (congrArg (Map.get? · _) hm).trans own, fun im e p hp => by
    have h := pages im e p hp
    unfold pageResident lineOf at *
    rwa [hi]⟩

/-- A mailbox is served where it is armed, its slot holds no team, its bank is not armed, and its hand runs. -/
theorem serveMailbox_idle {s : State} {h k : Nat}
    (hn : ¬(mailboxArmed s h k = true ∧ s.team? ⟨h, k⟩ = none ∧ (bankOf s h k).armed = false ∧ handRuns s h = true)) : serveMailbox h k s = s := by
  unfold serveMailbox
  rw [if_pos]
  by_contra hc
  simp only [Bool.or_eq_true, Bool.not_eq_true', not_or, Bool.not_eq_false, Bool.not_eq_true, Option.isSome_eq_false_iff, Option.isNone_iff_eq_none] at hc
  exact hn ⟨hc.1.1.1, hc.1.1.2, hc.1.2, hc.2⟩

end Sys2Proof.Machine
end

section
/-! SUPPORT. The mailbox and the shadow bank of a slot (R319, R324). -/

namespace Sys2Proof.Machine

theorem armMask_bits (v : W64) : bits (v &&& 0x80000000FFFFFFFF) 31 0 = bits v 31 0 := by
  apply Nat.eq_of_testBit_eq
  intro i
  simp only [bits, Nat.shiftRight_zero, Nat.testBit_mod_two_pow, BitVec.toNat_and, Nat.testBit_and]
  by_cases h : i < 32
  · have e : Nat.testBit (0x80000000FFFFFFFF : W64).toNat i = true := by interval_cases i <;> rfl
    rw [e, Bool.and_true]
  · simp [h]

theorem armMask_clear (v : W64) : v &&& 0x80000000FFFFFFFF &&& 0x7FFFFFFFFFFFFFFF = v &&& 0xFFFFFFFF := by
  rw [BitVec.and_assoc]
  rfl

theorem armMask_bit (v : W64) : (v &&& 0x80000000FFFFFFFF).getLsbD 63 = v.getLsbD 63 := by
  rw [BitVec.getLsbD_and]
  exact Bool.and_true _

/-- Register 9 of a mailbox after a write of it. -/
theorem set9_getD (x : List W64) (v : W64) : (x.set 9 v).getD 9 0 = if 9 < x.length then v else 0 := by
  simp only [List.getD_eq_getElem?_getD, List.getElem?_set, if_true]
  split
  · rfl
  · rfl

theorem set9_getD_ne (x : List W64) (v : W64) {i : Nat} (h : i ≠ 9) : (x.set 9 v).getD i 0 = x.getD i 0 := by
  simp only [List.getD_eq_getElem?_getD, List.getElem?_set, if_neg h.symm]

/-- The team that the mailbox of a slot describes once register 9 is written. -/
theorem mailboxTeam_written (h : Nat) {regs : List W64} (hr : regs.length = 10) (v : W64) (l : Launch) :
    mailboxTeam h (regs.set 9 (v &&& 0x80000000FFFFFFFF)) l =
      { launch := bits v 31 0, ctx := l.ctx, img := (regs.getD 0 0).toNat % 2 ^ 32, entry := (regs.getD 1 0).toNat,
        x := [regs.getD 2 0, regs.getD 3 0, regs.getD 4 0, regs.getD 5 0], teamNo := some ((regs.getD 6 0).toNat % 2 ^ 32), gridpos := regs.getD 7 0,
        wgt := regs.getD 8 0, wroot := l.wroot, evstack := [], hands := [h], batch := none, gang := false, out := none } := by
  have h9 : (regs.set 9 (v &&& 0x80000000FFFFFFFF)).getD 9 0 = v &&& 0x80000000FFFFFFFF := by rw [set9_getD, if_pos (by omega)]
  unfold mailboxTeam
  simp only [h9, armMask_bits, set9_getD_ne regs _ (show 0 ≠ 9 by decide), set9_getD_ne regs _ (show 1 ≠ 9 by decide),
    set9_getD_ne regs _ (show 2 ≠ 9 by decide), set9_getD_ne regs _ (show 3 ≠ 9 by decide), set9_getD_ne regs _ (show 4 ≠ 9 by decide),
    set9_getD_ne regs _ (show 5 ≠ 9 by decide), set9_getD_ne regs _ (show 6 ≠ 9 by decide), set9_getD_ne regs _ (show 7 ≠ 9 by decide),
    set9_getD_ne regs _ (show 8 ≠ 9 by decide)]

/-- A slot where an armed mailbox is served. -/
structure SlotIdle (s : State) (h k : Nat) : Prop where
  free : s.team? ⟨h, k⟩ = none
  bank : (bankOf s h k).armed = false
  runs : handRuns s h = true

theorem slotIdle_mailed (s : State) (h k : Nat) (x : List W64) : SlotIdle (mailed s h k x) h k ↔ SlotIdle s h k := by
  have e : bankOf (mailed s h k x) h k = bankOf s h k := by unfold bankOf; rw [(mailed_maps s h k x).2.2]
  constructor
  · rintro ⟨free, bank, runs⟩
    exact ⟨free, e ▸ bank, runs⟩
  · rintro ⟨free, bank, runs⟩
    exact ⟨free, e.symm ▸ bank, runs⟩

theorem bootMailbox_unserved {s : State} {h k : Nat} {v : W64} (hn : v.getLsbD 63 = false ∨ ¬SlotIdle s h k) :
    execBootMailboxArm h k v s = .next (mailed s h k ((mailboxAt s h k).set 9 (v &&& 0x80000000FFFFFFFF))) := by
  refine congrArg Host.Outcome.next (serveMailbox_idle ?_)
  rintro ⟨ha, hi⟩
  rcases hn with hv | hn
  · rw [← mailed, mailboxArmed, mailboxAt_mailed, set9_getD] at ha
    split at ha
    · rw [armMask_bit, hv] at ha
      cases ha
    · cases ha
  · exact hn ((slotIdle_mailed s h k _).1 ⟨hi.1, hi.2.1, hi.2.2⟩)

/-- An armed mailbox whose launch is no longer there is disarmed. -/
theorem serveMailbox_none {u : State} {h k : Nat} {r : W64} (hr : (mailboxAt u h k).getD 9 0 = r) (ha : r.getLsbD 63 = true)
    (hi : SlotIdle u h k) (hl : u.launches.get? (bits r 31 0) = none) :
    serveMailbox h k u = mailed u h k ((mailboxAt u h k).set 9 (r &&& 0x7FFFFFFFFFFFFFFF)) := by
  have hf : (u.teams.get? (h * 2 + k)).isSome = false := Option.isSome_eq_false_iff.2 (Option.isNone_iff_eq_none.2 hi.free)
  simp only [serveMailbox, mailboxArmed, hr, ha, hf, hi.bank, hi.runs, hl, Bool.not_true, Bool.or_self, Bool.false_eq_true, if_false]
  rfl

/-- An armed mailbox whose team starts is disarmed. -/
theorem serveMailbox_boots {u t : State} {h k : Nat} {r : W64} {l : Launch} (hr : (mailboxAt u h k).getD 9 0 = r) (ha : r.getLsbD 63 = true)
    (hi : SlotIdle u h k) (hl : u.launches.get? (bits r 31 0) = some l)
    (hb : bootTeam u ⟨h, k⟩ (mailboxTeam h (mailboxAt u h k) l) = (t, true)) :
    serveMailbox h k u = mailed t h k ((mailboxAt u h k).set 9 (r &&& 0x7FFFFFFFFFFFFFFF)) := by
  have hf : (u.teams.get? (h * 2 + k)).isSome = false := Option.isSome_eq_false_iff.2 (Option.isNone_iff_eq_none.2 hi.free)
  simp only [serveMailbox, mailboxArmed, hr, ha, hf, hi.bank, hi.runs, hl, hb, Bool.not_true, Bool.or_self, Bool.false_eq_true, if_false]
  rfl

/-- Register 9 of a mailbox that is written with ARM. -/
theorem mailed_register (s : State) (h k : Nat) {regs : List W64} (hr : regs.length = 10) (x : W64) :
    (mailboxAt (mailed s h k (regs.set 9 x)) h k).getD 9 0 = x := by
  rw [mailboxAt_mailed, set9_getD, if_pos (by omega)]

/-- BOOT_MAILBOX_ARM of a launch that is no longer there. -/
theorem bootMailbox_noLaunch {s : State} {h k : Nat} {v : W64} (hv : v.getLsbD 63 = true) (hi : SlotIdle s h k) (hr : (mailboxAt s h k).length = 10)
    (hl : s.launches.get? (bits v 31 0) = none) : ∃ t, execBootMailboxArm h k v s = .next t ∧
      (t.hand h).mailbox.get? k = some ((mailboxAt s h k).set 9 (v &&& 0xFFFFFFFF)) ∧ { t with hands := s.hands } = s := by
  have e := serveMailbox_none (mailed_register s h k hr (v &&& 0x80000000FFFFFFFF)) (by rw [armMask_bit, hv]) ((slotIdle_mailed s h k _).2 hi)
    (by rw [armMask_bits]; exact hl)
  rw [mailboxAt_mailed, List.set_set, armMask_clear] at e
  exact ⟨_, congrArg Host.Outcome.next e, updMailbox_get .., rfl⟩

/-- BOOT_MAILBOX_ARM of a team that boots. -/
theorem bootMailbox_started {s : State} {h k : Nat} {v : W64} {w : Waiting} {l : Launch} (hv : v.getLsbD 63 = true) (hi : SlotIdle s h k)
    (hr : (mailboxAt s h k).length = 10) (hl : s.launches.get? (bits v 31 0) = some l)
    (hw : mailboxTeam h ((mailboxAt s h k).set 9 (v &&& 0x80000000FFFFFFFF)) l = w) (hb : Boots s h w l) :
    ∃ t team, execBootMailboxArm h k v s = .next t ∧ TeamStarted s t ⟨h, k⟩ w l team ∧
      (t.hand h).mailbox.get? k = some ((mailboxAt s h k).set 9 (v &&& 0xFFFFFFFF)) := by
  obtain ⟨u, team, eb, hs, -⟩ := bootTeam_started (t := ⟨h, k⟩) (hb.mailed k ((mailboxAt s h k).set 9 (v &&& 0x80000000FFFFFFFF)))
  have e := serveMailbox_boots (t := u) (l := l) (mailed_register s h k hr (v &&& 0x80000000FFFFFFFF)) (by rw [armMask_bit, hv])
    ((slotIdle_mailed s h k _).2 hi) (by rw [armMask_bits]; exact hl) (by rw [mailboxAt_mailed, hw]; exact eb)
  rw [mailboxAt_mailed, List.set_set, armMask_clear] at e
  exact ⟨_, team, congrArg Host.Outcome.next e, (hs.before rfl (updMailbox_scratch s h k _)).after rfl (updMailbox_scratch u h k _),
    updMailbox_get ..⟩

/-! ### SHADOW_BANK_ACTIVATE -/

/-- The operator of a bank has started: the launch takes the bank's user word, and the bank leaves the slot. -/
def State.withoutBank (u : State) (h k : Nat) (b : Bank) : State :=
  (u.updLaunch b.launch fun l => match b.regs.get? 7 with | some v => { l with user := v } | none => l).updHand h fun x =>
    { x with banks := x.banks.erase k }

theorem withoutBank_scratch (u : State) (h k : Nat) (b : Bank) (q : Nat) : ((u.withoutBank h k b).hand q).scratch = (u.hand q).scratch := by
  rw [State.withoutBank, State.hand_updHand]
  split
  · next e => subst e; rfl
  · rfl

theorem withoutBank_bank (u : State) (h k : Nat) (b : Bank) : ((u.withoutBank h k b).hand h).banks.get? k = none := by
  rw [State.withoutBank, State.hand_updHand, if_pos rfl, Map.get?_erase, if_pos rfl]

theorem shadowBank_waits {s : State} {h k : Nat}
    (hn : (bankOf s h k).armed = false ∨ gangHolds s (bankOf s h k).launch h = true ∨ mailboxArmed s h k = true) :
    execShadowBankActivate h k s = .next s := by
  unfold execShadowBankActivate
  rw [if_pos]
  simp only [Bool.or_eq_true, Bool.not_eq_true']
  rcases hn with h | h | h <;> simp [h]

theorem shadowBank_started {s : State} {h k : Nat} {l : Launch} (ha : (bankOf s h k).armed = true) (hk : k < 2) (ht : s.team? ⟨h, k⟩ = none)
    (hm : mailboxArmed s h k = false) (hg : gangHolds s (bankOf s h k).launch h = false) (h0 : (bankOf s h k).regs.get? 0 = none)
    (hb : Boots s h (bankTeam s h (bankOf s h k) l) l) (hf : fits (s.updHand h fun x => { x with banks := x.banks.erase k }) h l = true) :
    ∃ t team, execShadowBankActivate h k s = .next t ∧ TeamStarted s t ⟨h, k⟩ (bankTeam s h (bankOf s h k) l) l team ∧
      (t.hand h).banks.get? k = none := by
  obtain ⟨u, team, e, hs, -⟩ := bootTeam_started (t := ⟨h, k⟩) hb
  have hl : s.launches.get? (bankOf s h k).launch = some l := hb.launch
  have ht : (s.teams.get? (h * 2 + k)).isSome = false := by
    rw [Option.isSome_eq_false_iff, Option.isNone_iff_eq_none]
    exact ht
  refine ⟨u.withoutBank h k (bankOf s h k), team, ?_, hs.after rfl (withoutBank_scratch u h k _), withoutBank_bank u h k _⟩
  unfold execShadowBankActivate
  simp only [ha, ht, hm, hg, h0, hl, hf, e, show ¬2 ≤ k by omega, decide_false, Bool.not_true, Bool.or_self, Bool.false_eq_true, if_false,
    Option.bind_none]
  rfl

end Sys2Proof.Machine
end

section
/-! SUPPORT. A team that leaves its slot: what the steps of its end do to the teams, threads and groups of the device (R195, R249, R250, R349). -/

namespace Sys2Proof

/-- What a change of every value leaves at a key. -/
theorem Map.get?_mapValues {α : Type} (m : Map α) (f : α → α) (k : Nat) :
    Map.get? (m.map fun p : Nat × α => (p.1, f p.2)) k = (Map.get? m k).map f := by
  induction m with
  | nil => rfl
  | cons p m ih =>
    obtain ⟨j, v⟩ := p
    simp only [List.map_cons, Map.get?, ih]
    split <;> rfl

namespace Machine

/-- A team without the lines that its fetch keeps. -/
def Team.bare (x : Team) : Team := { x with kept := [] }

/-- The teams are as before but for the lines that their fetches keep; no thread and no group is new; the front end has no new event, and no
new team waits. -/
structure NoneNew (s t : State) : Prop where
  events  : t.events = s.events
  waiting : t.waiting = s.waiting
  teams   : ∀ r, (t.team? r).map Team.bare = (s.team? r).map Team.bare
  threads : ∀ r, s.thread? r = none → t.thread? r = none
  groups  : ∀ g, s.group? g = none → t.group? g = none

namespace NoneNew

theorem refl (s : State) : NoneNew s s := ⟨rfl, rfl, fun _ => rfl, fun _ => id, fun _ => id⟩

theorem trans {s t u : State} (h : NoneNew s t) (g : NoneNew t u) : NoneNew s u :=
  ⟨g.events.trans h.events, g.waiting.trans h.waiting, fun r => (g.teams r).trans (h.teams r), fun r e => g.threads r (h.threads r e),
    fun r e => g.groups r (h.groups r e)⟩

theorem foldl {α : Type} {f : State → α → State} (hf : ∀ s x, NoneNew s (f s x)) (l : List α) (s : State) : NoneNew s (l.foldl f s) :=
  List.foldlRecOn (motive := NoneNew s) l f (refl s) fun _ hb x _ => hb.trans (hf _ x)

theorem of_eq {s t : State} (he : t.events = s.events) (hw : t.waiting = s.waiting) (ht : t.teams = s.teams) (hr : t.threads = s.threads) (hg : t.groups = s.groups) : NoneNew s t :=
  ⟨he, hw, fun r => by rw [State.team?, ht, ← State.team?], fun r e => by rw [State.thread?, hr]; exact e,
    fun g e => by rw [State.group?, hg]; exact e⟩

theorem of_keeps {s t : State} (h : Keeps s t) : NoneNew s t :=
  of_eq (by have e := congrArg State.events h.kept; exact e) (by have e := congrArg State.waiting h.kept; exact e) h.teams h.threads h.groups

theorem updThread (s : State) (r : ThreadRef) (f : Thread → Thread) : NoneNew s (s.updThread r f) :=
  ⟨rfl, rfl, fun _ => rfl, fun q e => by rw [State.thread?_updThread, e]; simp, fun _ => id⟩

theorem updGroup (s : State) (g : GroupRef) (f : Group → Group) : NoneNew s (s.updGroup g f) :=
  ⟨rfl, rfl, fun _ => rfl, fun _ => id, fun q e => by rw [State.group?_updGroup, e]; simp⟩

end NoneNew

/-! ### The steps of an end -/

theorem failWaiters_noneNew (s : State) (pa cause seq : Nat) : NoneNew s (failWaiters s pa cause seq) := by
  unfold failWaiters
  refine NoneNew.trans (t := { s with waiters := s.waiters.filter fun w => w.1 ≠ pa / 32 }) (.of_eq rfl rfl rfl rfl rfl)
    (NoneNew.foldl (fun s w => ?_) _ _)
  obtain ⟨p, a⟩ := w
  cases a with
  | thread t => exact .updThread ..
  | group g => exact .updGroup ..
  | stream t => exact .refl s
  | copy h b n => exact .refl s
  | device => exact .refl s

theorem failCell_noneNew (s : State) (c pa cause seq : Nat) : NoneNew s (failCell s c pa cause seq) := by
  unfold failCell
  dsimp only
  split
  · have hu := NoneNew.of_keeps (undoAppend_keeps s c (alignDown pa 32 / 64))
    generalize undoAppend s c (alignDown pa 32 / 64) = u at hu ⊢
    refine ((hu.trans ?_).trans (failWaiters_noneNew ..)).trans (.of_keeps (settleHomes_keeps ..))
    exact .of_eq rfl rfl rfl rfl rfl
  · exact .refl s

theorem freeBatch_noneNew (s : State) (b : Option (Nat × Nat × Nat)) : NoneNew s (freeBatch s b) := by
  unfold freeBatch
  split
  · exact .refl s
  · exact .of_eq rfl rfl rfl rfl rfl

/-- Lines of an image that the fetches of a context's teams keep are dropped. -/
theorem dropKept_noneNew (s : State) (c i : Nat) : NoneNew s { s with teams := s.teams.map fun (p : Nat × Team) =>
    (p.1, if p.2.ctx = c then { p.2 with kept := p.2.kept.filter fun l => l.1 / 2 ^ 26 ≠ i } else p.2) } := by
  refine ⟨rfl, rfl, fun r => ?_, fun _ => id, fun _ => id⟩
  rw [State.team?, Map.get?_mapValues s.teams fun x => if x.ctx = c then { x with kept := x.kept.filter fun l => l.1 / 2 ^ 26 ≠ i } else x,
    Option.map_map, ← State.team?]
  refine congrFun (congrArg Option.map (funext fun x => ?_)) _
  simp only [Function.comp_apply]
  split <;> rfl

theorem releaseImages_noneNew (s : State) (c : Nat) : NoneNew s (releaseImages s c) := by
  unfold releaseImages
  split
  · exact .refl s
  · refine .foldl (fun s i => ?_) _ s
    exact (dropKept_noneNew s c i).trans (.of_eq rfl rfl rfl rfl rfl)

theorem dropLock_noneNew (s : State) (c team lk : Nat) : NoneNew s (dropLock s c team lk) :=
  NoneNew.trans (t := { s with locks := s.locks.modify lk fun l => { l with holder := none } }) (.of_eq rfl rfl rfl rfl rfl)
    (.of_keeps (postLock_keeps ..))

theorem dropLocks_noneNew (s : State) (r : ThreadRef) : NoneNew s (dropLocks s r) := by
  unfold dropLocks
  split
  · exact .refl s
  · next k _ =>
    have hu := NoneNew.foldl (fun s lk => dropLock_noneNew s k.tm.ctx k.tm.teamNo.toNat lk) k.th.holds.keys s
    generalize k.th.holds.keys.foldl _ s = u at hu ⊢
    dsimp only
    refine hu.trans (NoneNew.trans ?_ (NoneNew.updThread _ r _))
    exact .of_eq rfl rfl rfl rfl rfl

theorem landBuffer_noneNew (s : State) (r : ThreadRef) : NoneNew s (landBuffer s r) := by
  unfold landBuffer
  split
  · refine .foldl (fun s b => ?_) _ s
    split
    · split
      · exact .of_keeps (postFault_keeps ..)
      · exact .of_keeps (writeTgt_keeps ..)
    · exact .of_keeps (writeTgt_keeps ..)
  · exact .refl s

/-! ### The slot -/

/-- The slot of `t` holds nothing of a team any more, and the front end's events are `ev`; the other teams are as in `s`. -/
structure Vacated (s u : State) (t : TeamRef) (ev : List FeEvent) : Prop where
  team    : u.team? t = none
  threads : ∀ q < 4, u.thread? ⟨t.hand, t.slot, q⟩ = none
  groups  : ∀ q < 4, ∀ i < 16, u.group? ⟨t.hand, t.slot, q, i⟩ = none
  events  : u.events = ev
  others  : ∀ r, teamKey r ≠ teamKey t → (u.team? r).map Team.bare = (s.team? r).map Team.bare

theorem Vacated.then {s u v : State} {t : TeamRef} {ev : List FeEvent} (h : Vacated s u t ev) (n : NoneNew u v) : Vacated s v t ev := by
  obtain ⟨team, threads, groups, events, others⟩ := h
  refine ⟨?_, fun q hq => n.threads _ (threads q hq), fun q hq i hi => n.groups _ (groups q hq i hi), n.events.trans events,
    fun r hr => (n.teams r).trans (others r hr)⟩
  have e := n.teams t
  rw [team] at e
  exact Option.map_eq_none_iff.1 e

theorem mem_teamThreads {s : State} {t : TeamRef} {q : Nat} (hq : q < 4) :
    (⟨t.hand, t.slot, q⟩ : ThreadRef) ∈ teamThreads s t ↔ (s.thread? ⟨t.hand, t.slot, q⟩).isSome = true := by
  simp [teamThreads, hq]

theorem mem_teamGroups {s : State} {t : TeamRef} {q i : Nat} (hq : q < 4) (hi : i < 16) :
    (⟨t.hand, t.slot, q, i⟩ : GroupRef) ∈ teamGroups s t ↔ (s.group? ⟨t.hand, t.slot, q, i⟩).isSome = true := by
  unfold teamGroups
  rw [List.mem_filter, List.mem_map]
  refine ⟨fun h => h.2, fun h => ⟨⟨q * 16 + i, List.mem_range.2 (by omega), ?_⟩, h⟩⟩
  have e₁ : (q * 16 + i) / 16 = q := by omega
  have e₂ : (q * 16 + i) % 16 = i := by omega
  rw [e₁, e₂]

/-- A thread's entry is erased. -/
def dropThread (s : State) (r : ThreadRef) : State := { s with threads := s.threads.erase (threadKey r) }
/-- A group's entry is erased. -/
def dropGroup (s : State) (g : GroupRef) : State := { s with groups := s.groups.erase (groupKey g) }

theorem dropThreads_none {s : State} {l : List ThreadRef} {r : ThreadRef} (h : r ∈ l ∨ s.thread? r = none) :
    (l.foldl dropThread s).thread? r = none := by
  have hk : ∀ (s : State) (q : ThreadRef), s.thread? r = none → (dropThread s q).thread? r = none := fun s q e => by
    rw [dropThread, State.thread?, Map.get?_erase]
    split
    · rfl
    · exact e
  rcases h with h | h
  · exact foldl_gives (P := fun u : State => u.thread? r = none) (fun u => by rw [dropThread, State.thread?, Map.get?_erase, if_pos rfl]) hk h s
  · exact List.foldlRecOn (motive := fun u : State => u.thread? r = none) l _ h fun u hu q _ => hk u q hu

theorem dropGroups_none {s : State} {l : List GroupRef} {g : GroupRef} (h : g ∈ l ∨ s.group? g = none) : (l.foldl dropGroup s).group? g = none := by
  have hk : ∀ (s : State) (q : GroupRef), s.group? g = none → (dropGroup s q).group? g = none := fun s q e => by
    rw [dropGroup, State.group?, Map.get?_erase]
    split
    · rfl
    · exact e
  rcases h with h | h
  · exact foldl_gives (P := fun u : State => u.group? g = none) (fun u => by rw [dropGroup, State.group?, Map.get?_erase, if_pos rfl]) hk h s
  · exact List.foldlRecOn (motive := fun u : State => u.group? g = none) l _ h fun u hu q _ => hk u q hu

theorem dropThreads_only (l : List ThreadRef) (s : State) : AgentsOnly s (l.foldl dropThread s) := .foldl (f := dropThread) (fun _ _ => rfl) l s
theorem dropGroups_only (l : List GroupRef) (s : State) : AgentsOnly s (l.foldl dropGroup s) := .foldl (f := dropGroup) (fun _ _ => rfl) l s

/-- The state without the threads and groups of a team. -/
def emptied (s : State) (t : TeamRef) : State :=
  (teamThreads ((teamGroups s t).foldl dropGroup s) t).foldl dropThread ((teamGroups s t).foldl dropGroup s)

theorem emptied_only (s : State) (t : TeamRef) : AgentsOnly s (emptied s t) := (dropGroups_only _ s).trans (dropThreads_only ..)

theorem dropThreads_groups (l : List ThreadRef) (s : State) : (l.foldl dropThread s).groups = s.groups :=
  List.foldlRecOn (motive := fun u : State => u.groups = s.groups) l _ rfl fun _ h _ _ => h
theorem dropGroups_threads (l : List GroupRef) (s : State) : (l.foldl dropGroup s).threads = s.threads :=
  List.foldlRecOn (motive := fun u : State => u.threads = s.threads) l _ rfl fun _ h _ _ => h

theorem emptied_thread (s : State) (t : TeamRef) {q : Nat} (hq : q < 4) : (emptied s t).thread? ⟨t.hand, t.slot, q⟩ = none := by
  refine dropThreads_none ?_
  rw [mem_teamThreads hq, Option.isSome_iff_ne_none]
  exact (em _).symm

theorem emptied_group (s : State) (t : TeamRef) {q i : Nat} (hq : q < 4) (hi : i < 16) :
    (emptied s t).group? ⟨t.hand, t.slot, q, i⟩ = none := by
  rw [emptied, State.group?, dropThreads_groups]
  refine dropGroups_none ?_
  rw [mem_teamGroups hq hi, Option.isSome_iff_ne_none]
  exact (em _).symm

/-- A team that is freed leaves its slot; nothing else of the teams changes. -/
theorem freeTeam_vacates {s u : State} (h : NoneNew s u) (t : TeamRef) : Vacated s (freeTeam u t) t s.events := by
  have he := emptied_only (forgetTeam u t) t
  have hev : (emptied (forgetTeam u t) t).events = u.events := by have e := congrArg State.events he; exact e
  have htm : (emptied (forgetTeam u t) t).teams = u.teams := by have e := congrArg State.teams he; exact e
  have hteam : ∀ r, (freeTeam u t).team? r = if teamKey r = teamKey t then none else u.team? r := fun r => by
    have e : (freeTeam u t).team? r = Map.get? (Map.erase (emptied (forgetTeam u t) t).teams (teamKey t)) (teamKey r) := rfl
    rw [e, Map.get?_erase, htm, ← State.team?]
  refine ⟨?_, fun q hq => emptied_thread (forgetTeam u t) t hq, fun q hq i hi => emptied_group (forgetTeam u t) t hq hi, ?_, fun r hr => ?_⟩
  · rw [hteam, if_pos rfl]
  · have e : (freeTeam u t).events = (emptied (forgetTeam u t) t).events := rfl
    rw [e, hev, h.events]
  · rw [hteam, if_neg hr]
    exact h.teams r

end Machine
end Sys2Proof
end

section
/-! SUPPORT. TEAM_END and EVALUATOR_CELL_FAULT (R195, R249, R250). -/

namespace Sys2Proof.Machine

/-- What both ends of a team do last: the front end learns of it, and images may be released. -/
theorem announced {s u : State} {t : TeamRef} {ev : List FeEvent} (h : Vacated s u t ev) (e : FeEvent) (c : Nat) :
    Vacated s (releaseImages { u with events := u.events ++ [e] } c) t (ev ++ [e]) := by
  obtain ⟨team, threads, groups, events, others⟩ := h
  have h : Vacated s { u with events := u.events ++ [e] } t (ev ++ [e]) := ⟨team, threads, groups, by rw [events], others⟩
  exact h.then (releaseImages_noneNew _ c)

/-- The sector of an evaluator's team fails, where it has one. -/
def failTop (s : State) (tm : Team) (cause seq : Nat) : State :=
  match tm.evstack.getLast? with | some c => failCell s tm.ctx c.1 cause seq | none => s

theorem failTop_noneNew (s : State) (tm : Team) (cause seq : Nat) : NoneNew s (failTop s tm cause seq) := by
  unfold failTop
  split
  · exact failCell_noneNew ..
  · exact .refl s

/-- The launch takes note of how a team of it has ended. -/
def noteEnd (s : State) (tm : Team) : State :=
  s.updLaunch tm.launch fun l =>
    { l with streamFlag := l.streamFlag || (tm.stream.running && !tm.stream.stopped), lastDone := l.lastDone || tm.lastRec }

theorem noteEnd_noneNew (s : State) (tm : Team) : NoneNew s (noteEnd s tm) := .of_eq rfl rfl rfl rfl rfl

/-- A team without signals that ends leaves its slot. -/
theorem teamGone_vacates {s u : State} (h : NoneNew s u) (t : TeamRef) {tm : Team} (hs : tm.signals = []) :
    Vacated s (teamGone u t tm) t (s.events ++ [.teamEnd tm.launch]) := by
  have hv := (((freeTeam_vacates h t).then (freeBatch_noneNew _ tm.batch)).then (failTop_noneNew _ tm 2 0)).then (noteEnd_noneNew _ tm)
  have hq : ∀ x, teamSignals x tm = x := fun x => by rw [teamSignals, hs]; rfl
  unfold teamGone
  simp only [hq]
  exact announced hv (.teamEnd tm.launch) tm.ctx

theorem endEvaluator_vacates (s : State) (t : TeamRef) (tm : Team) (code : FaultCode) (p : Site) (addr d1 d2 : W64) :
    Vacated s (endEvaluator s t tm code p addr d1 d2) t (s.events ++ [.teamEnd tm.launch]) := by
  have h₁ := NoneNew.of_keeps (postFault_keeps s tm.ctx code .i p addr d1 d2)
  have h₂ := h₁.trans (.foldl landBuffer_noneNew (teamThreads (postFault s tm.ctx code .i p addr d1 d2) t) _)
  have h₃ := h₂.trans (.foldl dropLocks_noneNew (teamThreads (postFault s tm.ctx code .i p addr d1 d2) t) _)
  have h₄ := h₃.trans (.of_keeps (flushAll_keeps _))
  exact announced ((freeTeam_vacates h₄ t).then (failTop_noneNew _ tm 1 s.errSeq)) (.teamEnd tm.launch) tm.ctx

/-! ### The two rows -/

theorem returnWeight_none {tm : Team} (h : tm.wroot = 0) (u : State) (t : TeamRef) (k : Core) : returnWeight u t tm k = (u, .done) := by
  unfold returnWeight
  rw [if_pos h]

section
variable {s : State} {t : TeamRef} {tm : Team} (ht : s.team? t = some tm)
include ht

theorem teamEnd_waits (h : tm.ending = false ∨ teamDrained s t tm = false ∨ s.eventsFull = true) : execTeamEnd t s = .next s := by
  unfold execTeamEnd
  rw [ht]
  dsimp only
  rw [if_pos]
  rcases h with h | h | h <;> simp [h]

theorem teamEnd_gone (he : tm.ending = true) (hd : teamDrained s t tm = true) (hp : isParked s (.stream t) = false) (hf : s.eventsFull = false)
    (hw : tm.wroot = 0) (hs : tm.signals = []) : execTeamEnd t s = .next (teamGone (flushAll s) t tm) := by
  have hq : signalStop s tm.ctx tm.signals = none := by rw [hs]; rfl
  unfold execTeamEnd
  rw [ht]
  simp only [he, hd, hp, hf, hq, Bool.not_true, Bool.or_self, Bool.false_eq_true, if_false]
  split
  · rfl
  · rw [returnWeight_none hw]

theorem cellFault_waits (h : tm.evstack = [] ∨ s.eventsFull = true ∨ ∀ g ∈ teamGroups s t, cellFaultOf s g = none) :
    execEvaluatorCellFault t s = .next s := by
  unfold execEvaluatorCellFault
  rw [ht]
  dsimp only
  split
  · rfl
  · next hn =>
    have hg : ∀ g ∈ teamGroups s t, cellFaultOf s g = none := by
      simp only [Bool.or_eq_true, List.isEmpty_iff, not_or] at hn
      exact (h.resolve_left hn.1).resolve_left hn.2
    have hf : (teamGroups s t).find? (fun g => (cellFaultOf s g).isSome) = none := List.find?_eq_none.2 fun g hx => by simp [hg g hx]
    rw [hf]

theorem cellFault_gone (he : tm.evstack ≠ []) (hf : s.eventsFull = false) (hg : ∃ g ∈ teamGroups s t, (cellFaultOf s g).isSome = true) :
    ∃ code p addr d1 d2, execEvaluatorCellFault t s = .next (endEvaluator s t tm code p addr d1 d2) := by
  obtain ⟨g, hf'⟩ := Option.isSome_iff_exists.1 (List.find?_isSome.2 hg)
  have hc := List.find?_some hf'
  have hgr : (s.group? g).isSome = true := (List.mem_filter.1 (List.mem_of_find?_eq_some hf')).2
  obtain ⟨gr, hgr⟩ := Option.isSome_iff_exists.1 hgr
  obtain ⟨b, hb⟩ := Option.isSome_iff_exists.1 hc
  refine ⟨b.1, groupSite s g gr, b.2.1, b.2.2.1, b.2.2.2, ?_⟩
  unfold execEvaluatorCellFault
  rw [ht]
  simp only [hf, hf', hgr, hb, List.isEmpty_eq_false_iff.2 he, Bool.or_self, Bool.false_eq_true, if_false]

end

end Sys2Proof.Machine
end

section
/-! SUPPORT. Pre-emption of threads, groups and teams, and time slices (R45, R47, R320). -/

namespace Sys2Proof.Machine

/-! ### Agents that stop -/

/-- Only threads and groups, and what waits for them, differ. -/
def WaitsOnly (s u : State) : Prop := { u with threads := s.threads, groups := s.groups, waiters := s.waiters, locks := s.locks } = s

theorem WaitsOnly.trans {s t u : State} (h : WaitsOnly s t) (g : WaitsOnly t u) : WaitsOnly s u := by
  have e := congrArg (fun x : State => { x with threads := s.threads, groups := s.groups, waiters := s.waiters, locks := s.locks }) g
  exact Eq.trans e h

theorem WaitsOnly.foldl {α : Type} {f : State → α → State} (hf : ∀ s x, WaitsOnly s (f s x)) (l : List α) (s : State) :
    WaitsOnly s (l.foldl f s) :=
  List.foldlRecOn (motive := WaitsOnly s) l f rfl fun _ hb x _ => hb.trans (hf _ x)

theorem stopThread_only (s : State) (r : ThreadRef) : WaitsOnly s (stopThread s r) := rfl

/-- A thread as its pre-emption leaves it. -/
def Thread.stop (th : Thread) : Thread :=
  { th with preempt := true, was := if th.preempt && th.wait.saved = 0 then th.was else th.wait.saved,
            wait := (match th.wait with | .cell _ => .none | .cellDone .. => .none | .lkacq .. => .none | w => w) }

theorem stopThread_thread? (s : State) (r q : ThreadRef) :
    (stopThread s r).thread? q = if threadKey q = threadKey r then (s.thread? q).map Thread.stop else s.thread? q :=
  State.thread?_updThread s r q Thread.stop

/-- Threads of a list stop at their boundaries, and no other thread goes on. -/
theorem stopThreads_thread (l : List ThreadRef) {s : State} {r : ThreadRef} {a : Thread} (ha : s.thread? r = some a)
    (h : r ∈ l ∨ a.preempt = true) : ∃ b, (l.foldl stopThread s).thread? r = some b ∧ b.preempt = true ∧ b.x = a.x ∧ b.pc = a.pc := by
  induction l generalizing s a with
  | nil => exact ⟨a, ha, h.resolve_left (by simp), rfl, rfl⟩
  | cons y l ih =>
    have e := stopThread_thread? s y r
    rw [ha] at e
    by_cases hy : threadKey r = threadKey y
    · rw [if_pos hy] at e
      obtain ⟨b, hb, hp, hx, hc⟩ := ih e (.inr rfl)
      exact ⟨b, hb, hp, hx, hc⟩
    · rw [if_neg hy] at e
      exact ih e (h.imp_left fun hm => (List.mem_cons.1 hm).resolve_left fun e => hy (e ▸ rfl))

/-- The same for groups. -/
theorem stopGroups_group (l : List GroupRef) {s : State} {g : GroupRef} {a : Group} (ha : s.group? g = some a) (h : g ∈ l ∨ a.preempt = true) :
    ∃ b, (l.foldl (fun s g => s.updGroup g (preemptGroup true)) s).group? g = some b ∧ b.preempt = true := by
  induction l generalizing s a with
  | nil => exact ⟨a, ha, h.resolve_left (by simp)⟩
  | cons y l ih =>
    have e := State.group?_updGroup s y g (preemptGroup true)
    rw [ha] at e
    by_cases hy : groupKey g = groupKey y
    · rw [if_pos hy] at e
      exact ih e (.inr rfl)
    · rw [if_neg hy] at e
      exact ih e (h.imp_left fun hm => (List.mem_cons.1 hm).resolve_left fun e => hy (e ▸ rfl))

theorem stopThreads_groups (l : List ThreadRef) (s : State) : (l.foldl stopThread s).groups = s.groups :=
  List.foldlRecOn (motive := fun u : State => u.groups = s.groups) l _ rfl fun _ h _ _ => h

theorem stopGroups_threads (l : List GroupRef) (s : State) :
    (l.foldl (fun s g => s.updGroup g (preemptGroup true)) s).threads = s.threads :=
  List.foldlRecOn (motive := fun u : State => u.threads = s.threads) l _ rfl fun _ h _ _ => h

/-! ### PREEMPT -/

theorem preemptThread_gives {s : State} {r : ThreadRef} {a : Thread} (ha : s.thread? r = some a) :
    ∃ u b, execPreempt (.thread r) s = .next u ∧ u.thread? r = some b ∧ { b with wait := a.wait, was := a.was } = { a with preempt := true } ∧
      otherThreads s u r ∧ sameBytes s u ∧ { u with threads := s.threads, waiters := s.waiters, locks := s.locks } = s := by
  refine ⟨stopThread s r, a.stop, rfl, ?_, rfl, fun q hq => ?_, ⟨fun _ => rfl, fun _ => rfl, fun _ _ => rfl⟩, rfl⟩
  · rw [stopThread_thread?, if_pos rfl, ha]
    rfl
  · rw [stopThread_thread?, if_neg hq]

theorem preemptGroup_gives {s : State} {g : GroupRef} {a : Group} (ha : s.group? g = some a) :
    ∃ u, execPreempt (.group g) s = .next u ∧ otherGroups s u g ∧ { u with groups := s.groups } = s ∧
      u.group? g = some (preemptGroup true a) := by
  refine ⟨s.updGroup g (preemptGroup true), rfl, fun q hq => ?_, rfl, ?_⟩
  · rw [State.group?_updGroup, if_neg hq]
  · rw [State.group?_updGroup, if_pos rfl, ha]
    rfl

/-! ### A team that stops -/

theorem preemptTeam_only (s : State) (t : TeamRef) : WaitsOnly s (preemptTeam s t) :=
  (WaitsOnly.foldl (f := fun s g => s.updGroup g (preemptGroup true)) (fun _ _ => rfl) _ s).trans (.foldl stopThread_only _ _)

theorem stopTeam_team? {s : State} {t : TeamRef} (q : TeamRef) :
    (stopTeam s t).team? q = if teamKey q = teamKey t then (s.team? q).map (fun x => { x with slicing := true }) else s.team? q := by
  have e : (preemptTeam s t).team? q = s.team? q := by
    have e := congrArg State.teams (preemptTeam_only s t)
    exact congrArg (Map.get? · (teamKey q)) e
  rw [stopTeam, State.team?_updTeam, e]

theorem stopTeam_self {s : State} {t : TeamRef} {tm : Team} (ht : s.team? t = some tm) :
    (stopTeam s t).team? t = some { tm with slicing := true } := by
  rw [stopTeam_team?, if_pos rfl, ht]
  rfl

theorem stopTeam_others (s : State) (t : TeamRef) : otherTeams s (stopTeam s t) t := fun q hq => by rw [stopTeam_team?, if_neg hq]

theorem stopTeam_bytes (s : State) (t : TeamRef) : sameBytes s (stopTeam s t) := by
  have h := preemptTeam_only s t
  have hm : (preemptTeam s t).mem = s.mem := by have e := congrArg State.mem h; exact e
  have hh : (preemptTeam s t).hostMem = s.hostMem := by have e := congrArg State.hostMem h; exact e
  have hs : (preemptTeam s t).hands = s.hands := by have e := congrArg State.hands h; exact e
  refine ⟨fun a => congrArg (Memory.get · a) hm, fun a => congrArg (Memory.get · a) hh, fun q a => ?_⟩
  exact congrArg (fun m => Memory.get (Map.getD m q State.emptyHand).scratch a) hs

theorem stopTeam_thread {s : State} {t : TeamRef} {q : Nat} (hq : q < 4) {a : Thread} (ha : s.thread? ⟨t.hand, t.slot, q⟩ = some a) :
    ∃ b, (stopTeam s t).thread? ⟨t.hand, t.slot, q⟩ = some b ∧ b.preempt = true ∧ b.x = a.x ∧ b.pc = a.pc := by
  refine stopThreads_thread (teamThreads s t) ?_ (.inl ((mem_teamThreads hq).2 (by rw [ha]; rfl)))
  rw [State.thread?, stopGroups_threads, ← State.thread?, ha]

theorem stopTeam_group {s : State} {t : TeamRef} {q i : Nat} (hq : q < 4) (hi : i < 16) {a : Group}
    (ha : s.group? ⟨t.hand, t.slot, q, i⟩ = some a) : ∃ b, (stopTeam s t).group? ⟨t.hand, t.slot, q, i⟩ = some b ∧ b.preempt = true := by
  obtain ⟨b, hb, hp⟩ := stopGroups_group (teamGroups s t) ha (.inl ((mem_teamGroups hq hi).2 (by rw [ha]; rfl)))
  refine ⟨b, ?_, hp⟩
  rw [← hb]
  exact congrArg (Map.get? · _) (stopThreads_groups (teamThreads s t) _)

end Sys2Proof.Machine
end

section
/-! SUPPORT. A team that a time slice takes off its hand (R320). -/

namespace Sys2Proof.Machine

/-- A pre-empted team's agents go on. -/
def resumeTeam (s : State) (t : TeamRef) : State :=
  (teamThreads s t).foldl resumeThread ((teamGroups s t).foldl (fun s g => s.updGroup g (preemptGroup false)) s)

theorem resumeTeam_noneNew (s : State) (t : TeamRef) : NoneNew s (resumeTeam s t) :=
  (NoneNew.foldl (f := fun s g => s.updGroup g (preemptGroup false)) (fun _ _ => .updGroup ..) _ s).trans
    (.foldl (f := resumeThread) (fun _ _ => .updThread ..) _ _)

theorem teamThreads_of_threads {s u : State} (h : u.threads = s.threads) (t : TeamRef) : teamThreads u t = teamThreads s t := by
  unfold teamThreads State.thread?
  rw [h]

theorem releaseTeam_eq (s : State) (t : TeamRef) : releaseTeam s t = (resumeTeam s t).updTeam t fun x => { x with slicing := false } := by
  have h : ((teamGroups s t).foldl (fun s g => s.updGroup g (preemptGroup false)) s).threads = s.threads :=
    List.foldlRecOn (motive := fun u : State => u.threads = s.threads) (teamGroups s t) _ rfl fun _ h _ _ => h
  unfold releaseTeam resumeTeam
  dsimp only
  rw [teamThreads_of_threads h]

/-- The team keeps nothing but what its fetch holds. -/
theorem updTeam_kept_noneNew (s : State) (t : TeamRef) (m : Map (List Byte)) : NoneNew s (s.updTeam t fun x => { x with kept := m }) := by
  refine ⟨rfl, rfl, fun r => ?_, fun _ => id, fun _ => id⟩
  rw [State.team?_updTeam]
  split
  · rw [Option.map_map]; rfl
  · rfl

theorem keepLines_noneNew (s : State) (h : Nat) : NoneNew s (keepLines s h) := by
  unfold keepLines
  refine .foldl (fun s k => ?_) _ s
  split
  · exact .refl s
  · exact updTeam_kept_noneNew ..

/-- The elements that a team's accesses wait for are left. -/
def Group.offWait (x : Group) : Group := { x with outst := x.outst.map fun o => { o with elems := o.elems.map fun e => { e with wait := false } } }

/-- A team's threads and groups have left their waits. -/
def offAgents (s : State) (a : TeamRef) : State :=
  (teamGroups ((teamThreads s a).foldl (fun s r => s.updThread r offThread) s) a).foldl (fun s g => s.updGroup g Group.offWait)
    ((teamThreads s a).foldl (fun s r => s.updThread r offThread) s)

theorem offAgents_noneNew (s : State) (a : TeamRef) : NoneNew s (offAgents s a) :=
  (NoneNew.foldl (f := fun s r => s.updThread r offThread) (fun _ _ => .updThread ..) _ s).trans
    (.foldl (f := fun s g => s.updGroup g Group.offWait) (fun _ _ => .updGroup ..) _ _)

theorem offWaits_noneNew (s : State) (a : TeamRef) : NoneNew s (offWaits s a) :=
  (offAgents_noneNew s a).trans (t := offAgents s a) (u := offWaits s a) (.of_eq rfl rfl rfl rfl rfl)

/-! ### A team that moves -/

/-- A thread of a team that moves stands at its new place. -/
def moveThread (h : Nat) (s : State) (p : ThreadRef × Thread) : State :=
  { s with threads := s.threads.set (threadKey p.1) { p.2 with hw := freeNumber s h } }
/-- A group of a team that moves stands at its new place. -/
def moveGroup (s : State) (p : GroupRef × Group) : State := { s with groups := s.groups.set (groupKey p.1) p.2 }

/-- The threads of a team that moves, with their new places. -/
def movedThreads (s : State) (a b : TeamRef) : List (ThreadRef × Thread) :=
  (teamThreads s a).filterMap fun r => (s.thread? r).map fun th => (r.moved a b, th)
/-- The groups of a team that moves, with their new places. -/
def movedGroups (s : State) (a b : TeamRef) : List (GroupRef × Group) :=
  (teamGroups s a).filterMap fun g => (s.group? g).map fun gr => ((⟨b.hand, b.slot, g.role, g.idx⟩ : GroupRef), gr)

theorem moved_only (h : Nat) (ths : List (ThreadRef × Thread)) (grs : List (GroupRef × Group)) (s : State) :
    AgentsOnly s (grs.foldl moveGroup (ths.foldl (moveThread h) s)) :=
  (AgentsOnly.foldl (f := moveThread h) (fun _ _ => rfl) ths s).trans (.foldl (f := moveGroup) (fun _ _ => rfl) grs _)

section
variable {s : State} {a : TeamRef} {tm : Team} (ha : s.team? a = some tm) (b : TeamRef)
include ha

/-- A move beside its agents: the team has its new place. -/
theorem moveTeam_teams : (moveTeam s a b).teams = (s.teams.erase (teamKey a)).set (teamKey b) tm ∧ (moveTeam s a b).waiting = s.waiting := by
  have he := emptied_only s a
  have ht : (emptied s a).teams = s.teams := by have e := congrArg State.teams he; exact e
  have hw : (emptied s a).waiting = s.waiting := by have e := congrArg State.waiting he; exact e
  have hm := moved_only b.hand (movedThreads s a b) (movedGroups s a b)
    { emptied s a with teams := ((emptied s a).teams.erase (teamKey a)).set (teamKey b) tm }
  have ht' := congrArg State.teams hm
  have hw' := congrArg State.waiting hm
  rw [← ht, ← hw]
  unfold moveTeam
  rw [ha]
  exact ⟨ht', hw'⟩

theorem moveTeam_team? (r : TeamRef) :
    (moveTeam s a b).team? r = if teamKey r = teamKey b then some tm else if teamKey r = teamKey a then none else s.team? r := by
  rw [State.team?, (moveTeam_teams ha b).1, Map.get?_set, Map.get?_erase, ← State.team?]

end

/-! ### A team that is put off -/

theorem renamed_noneNew (s : State) (v h : Nat) (x y : Hand → Hand) (f : Agent → Agent) :
    NoneNew s (renameAgents ((s.updHand v x).updHand h y) f) := .of_eq rfl rfl rfl rfl rfl

/-- What leaves a hand with a team, before the team itself does. -/
theorem takeOff_moves (s : State) (a : TeamRef) (v : Nat) : ∃ u, NoneNew s u ∧ takeOff s a v = moveTeam u a ⟨v, 0⟩ := by
  have h := (offWaits_noneNew s a).trans (keepLines_noneNew _ a.hand)
  unfold takeOff
  generalize keepLines (offWaits s a) a.hand = w at h ⊢
  exact ⟨_, h.trans (renamed_noneNew w v a.hand _ _ _), rfl⟩

theorem offHand_le (s : State) : 2048 ≤ offHand s := by
  unfold offHand freeKept
  cases h : ((List.range (s.teams.length + 1)).map (2048 + ·)).find? fun v => !(s.teams.keys.contains (v * 2)) with
  | none => rfl
  | some v =>
    obtain ⟨i, -, rfl⟩ := List.mem_map.1 (List.mem_of_find?_eq_some h)
    exact Nat.le_add_right ..

theorem bare_eq {x y : Team} (h : x.bare = y.bare) : ∃ m, x = { y with kept := m } := by
  refine ⟨x.kept, ?_⟩
  have e := congrArg (fun z : Team => { z with kept := x.kept }) h
  exact e

/-- A team joins those that wait. -/
def State.wait (s : State) (w : Waiting) : State := { s with waiting := s.waiting ++ [w] }

theorem State.wait_team? (s : State) (w : Waiting) (r : TeamRef) : (s.wait w).team? r = s.team? r := rfl
theorem State.wait_waiting (s : State) (w : Waiting) : (s.wait w).waiting = s.waiting ++ [w] := rfl

/-- A team that is put off is kept under a number from 2048 on, and waits for its hand again. -/
theorem putOff_gives {s : State} {t : TeamRef} {tm : Team} (ht : s.team? t = some tm) (hh : t.hand < 256) (hs : t.slot < 2) :
    ∃ v y, 2048 ≤ v ∧ (putOff s t).team? t = none ∧ (putOff s t).team? ⟨v, 0⟩ = some { tm with slicing := false, kept := y } ∧
      (putOff s t).waiting = s.waiting ++ [waitAgain t tm v] ∧
      ∀ r, teamKey r ≠ teamKey t → teamKey r ≠ 2 * v → ((putOff s t).team? r).map Team.bare = (s.team? r).map Team.bare := by
  have hv := offHand_le s
  obtain ⟨u, hu, e⟩ := takeOff_moves (releaseTeam s t) t (offHand s)
  have hr := resumeTeam_noneNew s t
  have hrel : ∀ r, ((releaseTeam s t).team? r).map Team.bare =
      if teamKey r = teamKey t then ((s.team? r).map Team.bare).map (fun x => { x with slicing := false }) else (s.team? r).map Team.bare := fun r => by
    rw [releaseTeam_eq, State.team?_updTeam, ← hr.teams r]
    split
    · rw [Option.map_map, Option.map_map]; rfl
    · rfl
  have hw : u.waiting = s.waiting := by
    rw [hu.waiting, releaseTeam_eq]
    exact hr.waiting
  have hut : (u.team? t).map Team.bare = some (Team.bare { tm with slicing := false }) := by
    rw [hu.teams, hrel, if_pos rfl, ht]
    rfl
  obtain ⟨m, hm, hb⟩ := Option.map_eq_some_iff.1 hut
  obtain ⟨y, rfl⟩ := bare_eq hb
  have hk : teamKey t ≠ teamKey ⟨offHand s, 0⟩ := by simp only [teamKey]; omega
  have ep : putOff s t = (moveTeam u t ⟨offHand s, 0⟩).wait (waitAgain t tm (offHand s)) := by
    unfold putOff
    rw [ht]
    dsimp only
    rw [e]
    rfl
  have hp : ∀ r, (putOff s t).team? r = (moveTeam u t ⟨offHand s, 0⟩).team? r := fun r => by rw [ep, State.wait_team?]
  refine ⟨offHand s, y, hv, ?_, ?_, ?_, fun r h₁ h₂ => ?_⟩
  · rw [hp, moveTeam_team? hm, if_neg hk, if_pos rfl]
  · rw [hp, moveTeam_team? hm, if_pos rfl]
  · rw [ep, State.wait_waiting, (moveTeam_teams hm _).2, hw]
  · have h₃ : teamKey r ≠ teamKey ⟨offHand s, 0⟩ := by simp only [teamKey] at h₂ ⊢; omega
    rw [hp, moveTeam_team? hm, if_neg h₃, if_neg h₁, hu.teams, hrel, if_neg h₁]

/-- The same once every dirty byte has reached its home. -/
theorem putOff_flushed {s : State} {t : TeamRef} {tm : Team} (ht : s.team? t = some tm) (hh : t.hand < 256) (hs : t.slot < 2) :
    ∃ v y, 2048 ≤ v ∧ (putOff (flushAll s) t).team? t = none ∧
      (putOff (flushAll s) t).team? ⟨v, 0⟩ = some { tm with slicing := false, kept := y } ∧
      (putOff (flushAll s) t).waiting = s.waiting ++ [waitAgain t tm v] ∧
      ∀ r, teamKey r ≠ teamKey t → teamKey r ≠ 2 * v → ((putOff (flushAll s) t).team? r).map Team.bare = (s.team? r).map Team.bare := by
  have hk := flushAll_keeps s
  have hw : (flushAll s).waiting = s.waiting := by have e := congrArg State.waiting hk.kept; exact e
  have h := putOff_gives (s := flushAll s) (by rw [hk.team?]; exact ht) hh hs
  simp only [hk.team?, hw] at h
  exact h

end Sys2Proof.Machine
end

section
/-! SUPPORT. The rows TIME_SLICE_EXPIRY, EVALUATOR_START and LAUNCH_COMPLETE (R249, R309, R320, R321). -/

namespace Sys2Proof.Machine

/-! ### TIME_SLICE_EXPIRY -/

section
variable {s : State} {t : TeamRef} {tm : Team} {l : Launch} (ht : s.team? t = some tm) (hl : s.launches.get? tm.launch = some l)
include ht hl

theorem timeSlice_off (h : l.slice = 0 ∨ 256 ≤ t.hand ∨ tm.ending = true) : execTimeSliceExpiry t s = .next s := by
  unfold execTimeSliceExpiry
  rw [ht]
  dsimp only
  rw [hl, if_pos]
  rcases h with h | h | h <;> simp [h]

variable (h₀ : l.slice ≠ 0) (hh : t.hand < 256) (he : tm.ending = false)
include h₀ hh he

theorem timeSlice_unwanted (hw : wanted s t.hand tm.launch = false)
    (hg : tm.slicing = true → ∀ r ∈ sliceTeams s t tm, wanted s r.hand tm.launch = false) :
    execTimeSliceExpiry t s = .next (if tm.slicing then (sliceTeams s t tm).foldl releaseTeam s else s) := by
  have hd : (tm.slicing && (sliceTeams s t tm).any fun u => wanted s u.hand tm.launch) = false := by
    rw [Bool.and_eq_false_iff]
    by_cases hs : tm.slicing = true
    · exact .inr (List.any_eq_false.2 fun r hr => by simp [hg hs r hr])
    · exact .inl (Bool.eq_false_iff.2 hs)
  unfold execTimeSliceExpiry
  rw [ht]
  simp only [hl, h₀, he, hw, hd, Nat.not_le.2 hh, decide_false, Bool.or_self, Bool.not_false, Bool.false_eq_true, if_false, if_true]

theorem timeSlice_wanted (hw : wanted s t.hand tm.launch = true) (hg : tm.gang = false) :
    execTimeSliceExpiry t s = .next (if teamQuiet s t then putOff (flushAll s) t else stopTeam s t) := by
  have hs : sliceTeams s t tm = [t] := by rw [sliceTeams, hg]; rfl
  unfold execTimeSliceExpiry
  rw [ht]
  simp only [hl, h₀, he, hw, hs, Nat.not_le.2 hh, decide_false, Bool.or_self, Bool.true_or, Bool.not_true, Bool.false_eq_true, if_false,
    List.all_cons, List.all_nil, Bool.and_true, List.foldl_cons, List.foldl_nil]
  split <;> rfl

end

/-! ### EVALUATOR_START -/

/-- The event is a record of the evaluation bin of a die. -/
def FeEvent.evaluates (d : Nat) (e : FeEvent) : Prop := ∃ w pa x, e = .evaluate w ∧ w.evstack.getLast? = some (pa, x) ∧ homeDie pa = d

theorem evaluator_idle {s : State} {d : Nat} (h : s.cores = 0 ∨ ∀ e ∈ s.events.head?, ¬e.evaluates d) : execEvaluatorStart d s = .next s := by
  unfold execEvaluatorStart
  split
  · next w es hs =>
    refine if_neg fun hc => ?_
    obtain ⟨hc, hm⟩ := (Bool.and_eq_true _ _).mp hc
    rcases h with h | h
    · simp [h] at hc
    · obtain ⟨⟨pa, x⟩, hx, hd⟩ := (Option.any_eq_true _ _).1 hm
      exact h (.evaluate w) (by rw [hs]; rfl) ⟨w, pa, x, rfl, hx, by simpa using hd⟩
  · rfl

/-- The round that follows an event. -/
theorem evaluator_takes {s : State} {es : List FeEvent} {w : Waiting} {d pa x : Nat} (hc : s.cores ≠ 0) (hs : s.events = .evaluate w :: es)
    (hw : w.evstack.getLast? = some (pa, x)) (hd : homeDie pa = d) {t : State} (ht : startEvaluator (unspill { s with events := es }) w = t) :
    execEvaluatorStart d s = .next (serviceRound t.draw.2 (Config.choice t.draw.1)) := by
  unfold execEvaluatorStart
  rw [hs]
  dsimp only
  rw [if_pos (by simp [hc, hw, hd]), ← ht]
  rfl

theorem unspill_dies (s : State) : (unspill s).dies = s.dies := by
  unfold unspill
  split
  · rfl
  · split <;> rfl

section
variable {s : State} {w : Waiting} {pa x : Nat} (hw : w.evstack.getLast? = some (pa, x))
include hw

theorem evalOpen_iff : evalOpen s w = true ↔ (s.die (homeDie pa)).state = .online := by
  rw [evalOpen, hw]
  simp

theorem startEvaluator_closed (hd : (s.die (homeDie pa)).state ≠ .online) : startEvaluator s w = { s with spill := s.spill ++ [w] } := by
  unfold startEvaluator
  rw [hw]
  exact if_pos (by rw [Bool.eq_false_iff.2 fun h => hd ((evalOpen_iff hw).1 h)]; rfl)

variable (hd : (s.die (homeDie pa)).state = .online)
include hd

theorem startEvaluator_stopped {va : W64} {r : FeRes} (hi : imageStop s w.ctx w.img = some (va, r)) :
    startEvaluator s w = feStopped { s with spill := s.spill ++ [w] } w.ctx va r := by
  unfold startEvaluator
  simp only [hw, hi, (evalOpen_iff hw).2 hd, Bool.not_true, Bool.false_eq_true, if_false]

theorem startEvaluator_noImage {u : State} (hi : imageStop s w.ctx w.img = none) (hr : readHeader s w.ctx w.img = (u, none)) :
    startEvaluator s w = failCell u w.ctx pa 3 0 := by
  unfold startEvaluator
  simp only [hw, hi, hr, (evalOpen_iff hw).2 hd, Bool.not_true, Bool.false_eq_true, if_false]

theorem startEvaluator_image {u : State} {im : Image} (hi : imageStop s w.ctx w.img = none) (hr : readHeader s w.ctx w.img = (u, some im)) :
    startEvaluator s w = if lineIs u w.ctx im (w.entry / 16) 0 true then tryStart { u with waiting := u.waiting ++ [w] } u.waiting.length
      else failCell u w.ctx pa 3 0 := by
  unfold startEvaluator
  simp only [hw, hi, hr, (evalOpen_iff hw).2 hd, Bool.not_true, Bool.false_eq_true, if_false]

end

/-! ### LAUNCH_COMPLETE -/

section
variable {s : State} {n : Nat} {l : Launch} {p : Pkt} (hl : s.launches.get? n = some l) (hc : l.chain = false)
include hl hc

theorem settleLaunch_busy (hb : launchBusy s n = true) : settleLaunch s n = s := by
  unfold settleLaunch
  rw [hl]
  simp only [hb, hc, Bool.not_true, Bool.and_false, Bool.false_and, Bool.or_self, Bool.false_eq_true, if_false]

theorem settleLaunch_done (hp : l.posted = false) (hk : packetOf s l n = some p) (hb : launchBusy s n = false) (hs : p.started = true) (hd : p.data.length ≤ p.ofs) :
    settleLaunch s n = { launchRecord s n l with launches := (launchRecord s n l).launches.erase n } := by
  unfold settleLaunch
  rw [hl]
  simp only [hb, hc, hp, hk, hs, hd, decide_true, Bool.not_false, Bool.and_true, Bool.or_true, Bool.true_or, Bool.or_false, if_true]

end

theorem launchRecord_done {s : State} {n : Nat} {l : Launch} {p : Pkt} (hk : packetOf s l n = some p) (hf : l.sigFault = none) :
    launchRecord s n l = completePkt (s.updLaunch n fun l => { l with posted := true }) l.queue { p with user := l.user } 0
      (if l.streamFlag then 1 else 0) := by
  unfold launchRecord
  rw [hk, hf]

/-- A packet that completes without an error leaves its queue, with a record where it asks for one. -/
theorem completePkt_done (s : State) (q : Nat) (p : Pkt) (d : Nat) : completePkt s q p 0 d =
    if p.compl then postCompletion (s.updQueue q fun x => { x with pend := x.pend.filter fun y => y.id ≠ p.id }) q p.slot p.seq 0 0 p.user d
    else s.updQueue q fun x => { x with pend := x.pend.filter fun y => y.id ≠ p.id } := by
  unfold completePkt
  simp only [ne_eq, not_true_eq_false, decide_false, Bool.false_or]

end Sys2Proof.Machine
end

section
/-! O54: how teams start, end, are pre-empted, and launches complete. -/

namespace Sys2Proof.Machine

/-- Settles O54. A start leaves contexts, launches, tiles and its own slot changed and writes no byte; the steps of an end make no team,
thread or group; a team that is put off moves with all that is kept about it. -/
theorem teamLifecycle : Obligations.TeamLifecycle := by
  refine ⟨fun s h k n w l v => ⟨?startNone, ?start, ?mailbox, ?bank⟩, fun s t tm ht => ⟨?endWaits, ?endGone, ?cellWaits, ?cellGone, ?slice⟩,
    ?preThread, ?preGroup, fun s u es w d pa x => ⟨?evalIdle, ?evalTakes⟩, fun s n l p hl hk hc hp => ⟨?busy, ?complete⟩⟩
  case startNone => exact fun hw hg hf => congrArg Host.Outcome.next (tryStart_none hw hg hf)
  case start =>
    rintro hw hg ho hh hf ⟨hl, hc, hm, hmo, hpg⟩
    obtain ⟨t, team, e, hs, hwt, hmb⟩ := tryStart_started hw hg ho hh hf ⟨hl, hc, hm, hmo, hpg⟩
    exact ⟨t, team, congrArg Host.Outcome.next e, hs, hwt, hmb⟩
  case mailbox =>
    refine ⟨fun hn => bootMailbox_unserved (hn.imp_right fun hn hi => hn ⟨hi.free, hi.bank, hi.runs⟩), ?_, ?_⟩
    · rintro hv ⟨free, bank, runs⟩ hr ⟨hl, hc, hm, hmo, hpg⟩
      exact bootMailbox_started hv ⟨free, bank, runs⟩ hr hl (mailboxTeam_written h hr v l) ⟨hl, hc, hm, hmo, hpg⟩
    · rintro hv ⟨free, bank, runs⟩ hr hl
      exact bootMailbox_noLaunch hv ⟨free, bank, runs⟩ hr hl
  case bank =>
    refine ⟨fun ha => shadowBank_waits (.inl ha), fun _ hn => shadowBank_waits (.inr hn), ?_⟩
    rintro ha hk ht hm hg h0 ⟨hl, hc, hmp, hmo, hpg⟩ hf
    exact shadowBank_started ha hk ht hm hg h0 ⟨hl, hc, hmp, hmo, hpg⟩ hf
  case endWaits => exact teamEnd_waits ht
  case endGone =>
    intro he hd hp hf hw hs
    obtain ⟨team, threads, groups, events, others⟩ := teamGone_vacates (.of_keeps (flushAll_keeps s)) t hs
    exact ⟨_, teamEnd_gone ht he hd hp hf hw hs, team, threads, groups, events, others⟩
  case cellWaits => exact cellFault_waits ht
  case cellGone =>
    intro he hf hg
    obtain ⟨code, p, addr, d1, d2, e⟩ := cellFault_gone ht he hf hg
    obtain ⟨team, threads, groups, events, others⟩ := endEvaluator_vacates s t tm code p addr d1 d2
    exact ⟨_, e, team, threads, groups, events, others⟩
  case slice =>
    refine fun l hl => ⟨timeSlice_off ht hl, timeSlice_unwanted ht hl, fun h₀ hh hs he hw hg => ⟨fun hq => ?_, fun hq => ?_⟩⟩
    · refine ⟨stopTeam s t, (timeSlice_wanted ht hl h₀ hh he hw hg).trans (congrArg Host.Outcome.next (if_neg (by rw [hq]; decide))),
        stopTeam_self ht, stopTeam_others s t, stopTeam_bytes s t, fun q hq a => stopTeam_thread hq, fun q hq i hi a => stopTeam_group hq hi⟩
    · obtain ⟨v, y, hv, hgone, hkept, hwait, hsame⟩ := putOff_flushed ht hh hs
      exact ⟨_, v, y, (timeSlice_wanted ht hl h₀ hh he hw hg).trans (congrArg Host.Outcome.next (if_pos hq)), hgone, hv, hkept, hwait, hsame⟩
  case preThread => exact fun s r a ha => preemptThread_gives ha
  case preGroup =>
    intro s g a ha
    exact preemptGroup_gives ha
  case evalIdle => exact evaluator_idle
  case evalTakes =>
    intro hc hs hw hd
    have hdie : ((unspill { s with events := es }).die (homeDie pa)).state = (s.die d).state := by
      rw [hd, State.die, unspill_dies]
      rfl
    refine ⟨fun hn => ?_, fun va r hon hi => ?_, fun hon hi => ⟨fun hr => ?_, fun im hr => ⟨fun hn => ?_, fun hy => ?_⟩⟩⟩
    · exact evaluator_takes hc hs hw hd (startEvaluator_closed hw (hdie ▸ hn))
    · exact evaluator_takes hc hs hw hd (startEvaluator_stopped hw (hdie.trans hon) hi)
    · exact evaluator_takes hc hs hw hd (startEvaluator_noImage hw (hdie.trans hon) hi hr)
    · have e := startEvaluator_image hw (hdie.trans hon) hi hr
      rw [if_neg (by simp [hn])] at e
      exact evaluator_takes hc hs hw hd e
    · have e := startEvaluator_image hw (hdie.trans hon) hi hr
      rw [if_pos hy] at e
      exact evaluator_takes hc hs hw hd e
  case busy => exact fun hb => congrArg (fun x => Host.Outcome.next (settleAll x)) (settleLaunch_busy hl hc hb)
  case complete =>
    intro hb hs hd hf
    have e := settleLaunch_done hl hc hp hk hb hs hd
    rw [launchRecord_done hk hf, completePkt_done] at e
    exact congrArg (fun x => Host.Outcome.next (settleAll x)) e

end Sys2Proof.Machine
end

section
/-! SUPPORT. The state in which a step serves an agent (log entry 1), and what an engine finds where an instruction stands (R48, R51). -/

namespace Sys2Proof.Machine

/-! ### What a turn leaves -/

namespace State

@[simp] theorem thread?_turn (s : State) (rest : List Turn) (a : Agent) (t : ThreadRef) : (s.turn rest a).thread? t = s.thread? t := rfl
@[simp] theorem team?_turn (s : State) (rest : List Turn) (a : Agent) (t : TeamRef) : (s.turn rest a).team? t = s.team? t := rfl
@[simp] theorem group?_turn (s : State) (rest : List Turn) (a : Agent) (g : GroupRef) : (s.turn rest a).group? g = s.group? g := rfl
@[simp] theorem ctx?_turn (s : State) (rest : List Turn) (a : Agent) (c : Nat) : (s.turn rest a).ctx? c = s.ctx? c := rfl
@[simp] theorem hand_turn (s : State) (rest : List Turn) (a : Agent) (h : Nat) : (s.turn rest a).hand h = s.hand h := rfl
@[simp] theorem die_turn (s : State) (rest : List Turn) (a : Agent) (d : Nat) : (s.turn rest a).die d = s.die d := rfl
@[simp] theorem mem_turn (s : State) (rest : List Turn) (a : Agent) : (s.turn rest a).mem = s.mem := rfl
@[simp] theorem hostMem_turn (s : State) (rest : List Turn) (a : Agent) : (s.turn rest a).hostMem = s.hostMem := rfl

end State

section
variable (s : State) (rest : List Turn) (a : Agent)

@[simp] theorem pasidOf_turn (c : Nat) : pasidOf (s.turn rest a) c = pasidOf s c := rfl
@[simp] theorem imageOf_turn (c img : Nat) : imageOf (s.turn rest a) c img = imageOf s c img := rfl
@[simp] theorem lineOf_turn (h c img line : Nat) : lineOf (s.turn rest a) h c img line = lineOf s h c img line := rfl
@[simp] theorem keptLine_turn (h c img line : Nat) : keptLine (s.turn rest a) h c img line = keptLine s h c img line := rfl

@[simp] theorem readPte_turn (host : Bool) (level table va : Nat) :
    readPte (s.turn rest a) host level table va = readPte s host level table va := rfl
@[simp] theorem cGroupOk_turn (host : Bool) (level table va : Nat) :
    cGroupOk (s.turn rest a) host level table va = cGroupOk s host level table va := rfl
@[simp] theorem tableStop_turn (h : Nat) (host : Bool) (table : Nat) : tableStop (s.turn rest a) h host table = tableStop s h host table := rfl

theorem markUsed_turn (host : Bool) (level table va : Nat) :
    markUsed (s.turn rest a) host level table va = (markUsed s host level table va).turn rest a := by
  unfold markUsed
  dsimp only
  rw [readPte_turn]
  split
  · rfl
  · cases host <;> rfl

/-- A walk of the page tables sees neither the agenda nor the clock. -/
theorem walk_turn (h pasid va : Nat) (host : Bool) (fuel level table : Nat) :
    walk (s.turn rest a) h pasid va host fuel level table =
      ((walk s h pasid va host fuel level table).1.turn rest a, (walk s h pasid va host fuel level table).2) := by
  induction fuel generalizing s host level table with
  | zero => rfl
  | succ n ih =>
    unfold walk
    dsimp only
    rw [readPte_turn, tableStop_turn, cGroupOk_turn, markUsed_turn, ih]
    split
    · rfl
    split
    · rfl
    split
    · rfl
    split
    · rw [readPte_turn]
    · rfl

/-- What a translation gives depends on neither. -/
theorem translate_turn_snd (c h : Nat) (own : Bool) (va : Nat) :
    (translate (s.turn rest a) c h own va).2 = (translate s c h own va).2 := by
  unfold translate
  simp only [pasidOf_turn, State.hand_turn, State.die_turn, State.ctx?_turn, walk_turn]
  split
  · rfl
  · split
    · rfl
    · generalize walk s h (pasidOf s c) va false 4 0 _ = r
      obtain ⟨u, r⟩ := r
      cases r <;> rfl

@[simp] theorem linkedLine_turn (h c img line : Nat) : linkedLine (s.turn rest a) h c img line = linkedLine s h c img line := by
  unfold linkedLine
  simp only [lineOf_turn, keptLine_turn, imageOf_turn, translate_turn_snd, State.mem_turn, State.hostMem_turn]

@[simp] theorem coreOf_turn (t : ThreadRef) : (s.turn rest a).coreOf t = s.coreOf t := by
  simp only [State.coreOf, State.thread?_turn, State.team?_turn, State.ctx?_turn, linkedLine_turn]

@[simp] theorem laneOf_turn (g : GroupRef) : (s.turn rest a).laneOf g = s.laneOf g := by
  simp only [State.laneOf, State.group?_turn, State.thread?_turn, State.team?_turn, State.ctx?_turn, linkedLine_turn]

@[simp] theorem mxOf_turn (t : TeamRef) : (s.turn rest a).mxOf t = s.mxOf t := by
  simp only [State.mxOf, State.thread?_turn, State.team?_turn, State.ctx?_turn, linkedLine_turn]

@[simp] theorem runningLane_turn (g : GroupRef) : runningLane (s.turn rest a) g = runningLane s g := by
  rw [runningLane, laneOf_turn]
  rfl

end
end Sys2Proof.Machine
end

section
/-! SUPPORT. Which step serves an agent, and what its fetch finds (R46, R48-R51, R72). -/

namespace Sys2Proof.Machine

/-! ### The step -/

/-- A step that serves an agent is that agent's turn. -/
theorem step_serves {s : State} {a : Agent} {rest : List Turn} (h : Serves s a rest) : step s = serve a (s.turn rest a) := by
  obtain ⟨hp, ha | ⟨ha, rfl, hn⟩⟩ := h
  · simp only [step, ha, hp, if_true]
  · simp only [step, ha, hp, if_true, hn]

/-- A stop that changes no state of an answer. -/
theorem andThen_of_id {f : State → State} (h : ∀ t, f t = t) (r : Res) : Res.andThen r f = r := by
  cases r with
  | next t => exact congrArg _ (h t)
  | fault x => rfl
  | refused x => rfl

/-- No stop follows an instruction of a thread that is not stepped. -/
theorem stepStop_running {s : State} {t : ThreadRef} {th : Thread} (h : s.thread? t = some th) (hs : th.stepping = false) (moved : Bool)
    (u : State) : stepStop s t moved u = u := by
  unfold stepStop
  rw [h]
  cases u.thread? t <;> simp [hs]

/-- No stop follows a position of a group that is not stepped. -/
theorem stepStopGroup_running {s : State} {g : GroupRef} {gr : Group} (h : s.group? g = some gr) (hs : gr.stepping = false) (u : State) :
    stepStopGroup s g u = u := by
  unfold stepStopGroup
  rw [h]
  cases u.group? g with
  | none => rfl
  | some b => cases u.team? g.team <;> simp [hs]

/-! ### The fetch -/

section
variable {s : State} {h c img pc : Nat} {im : Image} {l : List Byte} (hi : imageOf s c img = some im)
include hi

/-- A line past the image's line count is IMAGE_LINK (R51). -/
theorem ensureLine_past {line : Nat} (hn : im.lines ≤ line) : ensureLine s h c img line = (s, .stop (.fault .imageLink), []) := by
  simp only [ensureLine, lineUnder, hi, hn, if_true]

/-- A line that the hand holds, relocated for the team, is there at once (R51, R58). -/
theorem ensureLine_resident {line : Nat} (hn : line < im.lines) (hr : Relocated s h c img) (hl : lineOf s h c img line = some l) :
    ensureLine s h c img line = (s, .ok, l) := by
  have hm : useMap s h c img (mapFor s h c img) = s := by
    unfold useMap
    split
    · next m e => rw [if_pos (hr m e)]
    · rfl
  simp only [ensureLine, lineUnder, hi, Nat.not_le.2 hn, if_false, hm, hl]

/-- So is a fetch past the line count, for every engine. -/
theorem fetchAt_past (hp : pc % 16 ≠ 0) (hn : im.lines ≤ pc / 16) (e : Engine) (edis : W64) (entry : Bool) :
    fetchAt s h c img pc e edis entry = (s, .stop (.fault .imageLink)) := by
  simp only [fetchAt, hp, if_false, ensureLine_past hi hn]

variable (hp : pc % 16 ≠ 0) (hn : pc / 16 < im.lines) (hr : Relocated s h c img) (hl : lineOf s h c img (pc / 16) = some l)
include hp hn hr hl

/-- A resident line of another engine, or without ENTRY where a chain begins, is IMAGE_LINK (R51). -/
theorem fetchAt_foreign {e : Engine} {entry : Bool} (hf : lineEngine l ≠ engCode e ∨ (entry = true ∧ lineEntry l = false)) (edis : W64) :
    fetchAt s h c img pc e edis entry = (s, .stop (.fault .imageLink)) := by
  simp only [fetchAt, hp, if_false, ensureLine_resident hi hn hr hl]
  rw [if_pos]
  simpa using hf

variable {e : Engine} {entry : Bool} (he : lineEngine l = engCode e) (hb : entry = true → lineEntry l = true)
include he hb

/-- In a line of the engine stands fill, which is passed, or what decode makes of the words (R49, R50, R72). -/
theorem fetchAt_line (edis : W64) : fetchAt s h c img pc e edis entry =
    (s, if isFill l (pc % 16) then .skip (if lineEnd l then pc / 16 * 16 else lineNext l * 16 + 1) else decodeSlot e edis l (pc % 16)) := by
  simp only [fetchAt, hp, if_false, ensureLine_resident hi hn hr hl]
  rw [if_neg]
  · split <;> rfl
  · cases entry
    · simp [he]
    · simp [he, hb rfl]

end

/-- An instruction that would pass slot 15 is undefined (R71). -/
theorem decodeSlot_past {e : Engine} {l : List Byte} {sl : Nat} (h : 16 < sl + instrWords e (lineWord l sl)) (edis : W64) :
    decodeSlot e edis l sl = .cause .undefined (lineWords l sl (16 - sl)) none := by
  simp only [decodeSlot, h, if_true]

section
variable {e : Engine} {l : List Byte} {sl : Nat} (h : sl + instrWords e (lineWord l sl) ≤ 16) {edis : W64}
include h

/-- Words that decode are their instruction (R72). -/
theorem decodeSlot_run {i : Instr} (hd : decodeFate e edis (lineWords l sl (instrWords e (lineWord l sl))) = .run i) :
    decodeSlot e edis l sl = .run i := by
  simp only [decodeSlot, Nat.not_lt.2 h, if_false, hd]

/-- Words that decode turns away are their cause (R71, R72). -/
theorem decodeSlot_emulate {c : Cause} {i : Option Instr}
    (hd : decodeFate e edis (lineWords l sl (instrWords e (lineWord l sl))) = .emulate c i) :
    decodeSlot e edis l sl = .cause c (lineWords l sl (instrWords e (lineWord l sl))) i := by
  simp only [decodeSlot, Nat.not_lt.2 h, if_false, hd]

end

/-- The fetch of an entry finds its instruction (R48, R49, R51, R72). -/
theorem fetchAt_entry {s : State} {h c img pc : Nat} {e : Engine} {ws : List W32} {edis : W64} {i : Instr} {entry : Bool}
    (ha : EntryAt s h c img pc e ws) (hd : decodeFate e edis ws = .run i)
    (hb : entry = true → ∀ l, lineOf s h c img (pc / 16) = some l → lineEntry l = true) :
    fetchAt s h c img pc e edis entry = (s, .run i) := by
  obtain ⟨hr, im, l, hi, hn, hl, he, hp, hf, rfl, hw⟩ := ha
  rw [fetchAt_line hi hp hn hr hl he fun x => hb x l hl, if_neg (by simp [hf]), decodeSlot_run (by simpa [lineWords] using hw) hd]

/-- The same where the chain has begun before. -/
theorem fetchAt_onward {s : State} {h c img pc : Nat} {e : Engine} {ws : List W32} {edis : W64} {i : Instr} (ha : EntryAt s h c img pc e ws)
    (hd : decodeFate e edis ws = .run i) : fetchAt s h c img pc e edis false = (s, .run i) :=
  fetchAt_entry ha hd fun h => absurd h Bool.false_ne_true

end Sys2Proof.Machine
end

section
/-! The turn of a control thread (O6, O8). -/

namespace Sys2Proof.Machine

section
variable {s : State} {t : ThreadRef} {k : Core} (hk : ThreadReady s t k)
include hk

/-- A ready thread stands at an instruction, so its turn takes a decode slot (R46). -/
theorem ThreadReady.usesSlot : usesSlot s t = true := by
  obtain ⟨hth, rfl⟩ := coreOf_thread hk.core
  unfold Machine.usesSlot Thread.decodes
  rw [hth]
  simp only [hk.idle]

/-- It fetches (R336). -/
theorem ThreadReady.turn_fetches : threadTurn s t = threadFetch s t k := by
  simp only [threadTurn, hk.core, hk.runs, cellDue, hk.idle, hk.cause, hk.stay, hk.due, Bool.not_true, Bool.false_eq_true, if_false,
    Option.isSome_none]

/-- It is as ready in the state that serves an agent. -/
theorem ThreadReady.at_turn (rest : List Turn) (a : Agent) : ThreadReady (s.turn rest a) t k := by
  obtain ⟨core, runs, cause, stay, due, idle⟩ := hk
  exact ⟨(coreOf_turn s rest a t).trans core, runs, cause, stay, due, idle⟩

/-- The step of a ready thread whose slot has come is its fetch; then the hands keep who was served (R46, R199). -/
theorem ThreadReady.step_fetches {rest : List Turn} (hs : Serves s (.thread t) rest) (hd : threadDue (s.turn rest (.thread t)) t = true) :
    step s = Res.andThen (threadFetch (s.turn rest (.thread t)) t k) fun x => hadSlot (account (s.turn rest (.thread t)) (.thread t) x) t := by
  have hu := hk.at_turn rest (.thread t)
  rw [step_serves hs, serve, hu.usesSlot, hd, hu.turn_fetches]
  rfl

end

section
variable {s : State} {t : ThreadRef} {k : Core}

/-- The thread runs the instruction that its fetch finds; a debug step's stop follows (R72, R356). -/
theorem threadFetch_run {i : Instr}
    (h : fetchAt s t.hand k.tm.ctx k.th.img k.th.pc .cc (edisOf s k.ctx) k.th.entering = (s, .run i)) :
    threadFetch s t k = Res.andThen (exec i (s.begun t k.th)) (stepStop s t false) := by
  rw [threadFetch, h]
  rfl

/-- A slot of 0 is the end of its chain (R50). -/
theorem threadFetch_chainEnd (h : k.th.pc % 16 = 0) : threadFetch s t k = .next (threadFault s k .chainEnd 0 0 0) := by
  rw [threadFetch, fetchAt, if_pos h]

/-- A line that cannot be fetched as such is its fault, with the line in the record (R51, R338). -/
theorem threadFetch_imageLink
    (h : fetchAt s t.hand k.tm.ctx k.th.img k.th.pc .cc (edisOf s k.ctx) k.th.entering = (s, .stop (.fault .imageLink))) :
    threadFetch s t k = .next (threadFault s k .imageLink 0 (BitVec.ofNat 64 (k.th.pc / 16)) 0) := by
  rw [threadFetch, h]
  rfl

/-- Fill takes the thread to where the chain goes on (R49, R50). -/
theorem threadFetch_skip {pc : Nat}
    (h : fetchAt s t.hand k.tm.ctx k.th.img k.th.pc .cc (edisOf s k.ctx) k.th.entering = (s, .skip pc)) :
    threadFetch s t k = .next ((s.begun t k.th).updThread t fun th => { th with pc := pc }) := by
  rw [threadFetch, h]
  rfl

/-- An encoding that decode turns away is raised as its cause (R71, R73). -/
theorem threadFetch_cause {c : Cause} {ws : List W32} {i : Option Instr}
    (h : fetchAt s t.hand k.tm.ctx k.th.img k.th.pc .cc (edisOf s k.ctx) k.th.entering = (s, .cause c ws i)) :
    threadFetch s t k = .next (threadCause (s.begun t k.th) k c ws i) := by
  rw [threadFetch, h]
  rfl

end

/-! ### Slots (R199) -/

/-- Only the threads whose slots YIELDs wait for differ. -/
def OnlyYields (s u : State) : Prop :=
  { u with threads := s.threads } = s ∧
    ∀ q, (u.thread? q).map (fun th => { th with yields := [] }) = (s.thread? q).map fun th => { th with yields := [] }

theorem OnlyYields.trans {s t u : State} (h : OnlyYields s t) (g : OnlyYields t u) : OnlyYields s u :=
  ⟨Eq.trans (congrArg (fun x : State => { x with threads := s.threads }) g.1) h.1, fun q => (g.2 q).trans (h.2 q)⟩

theorem onlyYields_updThread (s : State) (r : ThreadRef) {f : Thread → Thread}
    (hf : ∀ th, { f th with yields := [] } = { th with yields := [] }) : OnlyYields s (s.updThread r f) := by
  refine ⟨rfl, fun q => ?_⟩
  rw [State.thread?_updThread]
  split
  · rw [Option.map_map]
    exact congrFun (congrArg Option.map (funext hf)) _
  · rfl

/-- The slot that a thread has had changes nothing but the YIELDs that waited for it. -/
theorem hadSlot_only (s : State) (t : ThreadRef) : OnlyYields s (hadSlot s t) :=
  List.foldlRecOn (motive := OnlyYields s) _ _ ⟨rfl, fun _ => rfl⟩ fun u hu r _ => hu.trans <| onlyYields_updThread u r fun th => by
    split <;> rfl

/-- Settles O6: the step of a served thread is `serve`'s, a ready thread's turn is its fetch, and the fetch of an entry finds the
instruction that its words decode to. -/
theorem stepRunsThread : Obligations.StepRunsThread := by
  unfold Obligations.StepRunsThread
  refine ⟨fun s rest t hs => ⟨fun hu hd => ?waits, fun hu => ?free⟩, fun s t q => ⟨(hadSlot_only s t).1, (hadSlot_only s t).2 q⟩, ?runs⟩
  case waits =>
    rw [step_serves hs, serve, hu, hd]
    rfl
  case free =>
    rw [step_serves hs, serve, hu]
    rfl
  case runs =>
    intro s rest t k ws i hs hd hk ha hb hf u then_
    have hfetch : threadFetch u t k = Res.andThen (exec i (u.begun t k.th)) (stepStop u t false) := threadFetch_run (fetchAt_entry ha hf hb)
    have hstep : step s = Res.andThen (Res.andThen (exec i (u.begun t k.th)) (stepStop u t false)) then_ := by
      rw [hk.step_fetches hs hd, hfetch]
    refine ⟨hstep, fun hn => ?_⟩
    obtain ⟨hth, rfl⟩ := coreOf_thread hk.core
    rw [hstep, andThen_of_id (stepStop_running (s := u) hth hn false)]

/-- Settles O8: each clause is one outcome of the fetch at the thread's pc, and the answer of `threadFetch` to it. That a record of
IMAGE_LINK has faulting address 0 and the line as detail 1 is log entry 16 (DEDUCED). -/
theorem fetchOutcomes : Obligations.FetchOutcomes := by
  unfold Obligations.FetchOutcomes
  intro s rest t k im l hs hd hk u v ends
  have hends {x : State} (h : threadFetch u t k = .next x) : ends x := by
    show step s = _
    rw [hk.step_fetches hs hd, h]
    rfl
  refine ⟨fun hp => hends (threadFetch_chainEnd hp), fun hp hi hn => hends (threadFetch_imageLink (fetchAt_past (s := u) hi hp hn ..)),
    fun hp hi hn hr hl => ⟨fun hf => hends (threadFetch_imageLink (fetchAt_foreign (s := u) (e := .cc) hi hp hn hr hl hf _)), fun he hb => ?_⟩⟩
  have hline := fetchAt_line (s := u) (e := .cc) hi hp hn hr hl he hb (edisOf s k.ctx)
  refine ⟨fun hf => ?fill, fun hf => ⟨fun hw => ?past, fun hw c i hd => ?turned⟩⟩
  case fill =>
    rw [if_pos hf] at hline
    exact hends (threadFetch_skip hline)
  case past =>
    rw [if_neg (by simp [hf]), decodeSlot_past hw] at hline
    exact hends (threadFetch_cause hline)
  case turned =>
    rw [if_neg (by simp [hf]), decodeSlot_emulate hw hd] at hline
    exact hends (threadFetch_cause hline)

end Sys2Proof.Machine
end

section
/-! The turns of groups, streams and chains, events, and what the hands keep of a step (O7). -/

namespace Sys2Proof.Machine

/-! ### What the hands keep -/

/-- A map whose entries change and keep their keys, at a key. -/
theorem get?_mapEntries {α : Type} (m : Map α) {f : Nat × α → Nat × α} (hf : ∀ p, (f p).1 = p.1) (k : Nat) :
    Map.get? (m.map f) k = (Map.get? m k).map fun x => (f (k, x)).2 := by
  induction m with
  | nil => rfl
  | cons p m ih =>
    obtain ⟨j, v⟩ := p
    have hcons : Map.get? ((j, v) :: m |>.map f) k = if j = k then some (f (j, v)).2 else Map.get? (m.map f) k := by
      rw [List.map_cons, ← Prod.eta (f (j, v)), hf, Map.get?]
    rw [hcons, ih, Map.get?]
    split
    · next h => subst h; rfl
    · rfl

/-- A step changes of a hand the order of turns that it keeps, and nothing else. -/
theorem account_hand (s t : State) (a : Agent) (h : Nat) :
    { (account s a t).hand h with lastThread := (t.hand h).lastThread, lastLane := (t.hand h).lastLane, ready := (t.hand h).ready } = t.hand h := by
  unfold account State.hand Map.getD
  dsimp only
  rw [get?_mapEntries]
  · cases Map.get? t.hands h with
    | none => rfl
    | some x =>
      simp only [Option.map_some, Option.getD_some]
      split <;> rfl
  · intro p
    split <;> rfl

/-! ### Groups -/

/-- A deal that is not at its END has not ended. -/
theorem Run.ended_of_inside {r : Run} (h : r.atEnd = false) : r.ended = false := by
  simp [Run.ended, Run.drained, h]

/-- A running group whose next entry decodes issues it (R33, R72). -/
theorem groupTurn_runs {s : State} {g : GroupRef} {l : Lane} {ws : List W32} {i : Instr} (hh : handRuns s g.hand = true)
    (hl : runningLane s g = some l) (hb : l.gr.waitBar = none) (hd : deferredHere s l = none) (he : l.run.atEnd = false)
    (hs : l.gr.stepping = false) (ha : EntryAt s g.hand l.tm.ctx l.run.deal.img l.run.pc .lane ws)
    (hf : decodeFate .lane l.run.edis ws = .run i) : groupTurn s g = exec i s := by
  obtain ⟨-, rfl, lane⟩ := runningLane_spec hl
  have hturn : groupTurn s l.ref = laneFetch s l.ref l := by
    simp only [groupTurn, hh, hl, hb, hd, Run.ended_of_inside he, he, Bool.not_true, Bool.false_eq_true, if_false, Option.isSome_none]
  rw [hturn, laneFetch, fetchAt_onward ha hf]
  exact andThen_of_id (stepStopGroup_running lane.group hs) _

/-! ### Streams -/

/-- A running stream whose next entry decodes runs it (R258, R72). -/
theorem streamTurn_runs {s : State} {t : TeamRef} {m : Mx} {ws : List W32} {i : Instr} (hm : s.mxOf t = some m) (hf : streamFree s t = true)
    (hw : streamWaits m.th = false) (hr : m.tm.stream.mma = none) (hb : m.tm.stream.waitBar = none) (hv : m.tm.stream.waitHadv = none)
    (ha : EntryAt s t.hand m.tm.ctx m.tm.stream.img m.tm.stream.pc .matrix ws) (hd : decodeFate .matrix m.tm.stream.edis ws = .run i)
    (hy : yieldsMma s t i = false) : streamTurn s t = exec i s := by
  have hturn : streamTurn s t = streamFetch s t m := by
    simp only [streamTurn, hm, hf, hw, hr, hb, hv, Bool.not_true, Bool.or_self, Bool.false_eq_true, if_false, Option.isSome_none]
  rw [hturn, streamFetch, fetchAt_onward ha hd]
  simp only [hy, Bool.false_eq_true, if_false]

/-! ### Chains -/

/-- An entry that may go on has met no fault and has its work before it (R274). -/
theorem copyMay_spec {s : State} {h : Nat} {bulk : Bool} {x : Copy} (hm : copyMay s h bulk x = true) : x.bad = none ∧ x.performed = false := by
  simp only [copyMay, copyLive, Bool.and_eq_true, Option.isNone_iff_eq_none, Bool.not_eq_true'] at hm
  obtain ⟨⟨⟨⟨⟨hbad, hperf⟩, -⟩, -⟩, -⟩, -⟩ := hm
  exact ⟨hbad, hperf⟩

/-- A chain between commands whose next entry decodes runs it (R274, R72). -/
theorem copyAgentTurn_runs {s : State} {h : Nat} {bulk : Bool} {n : Nat} {x : Copy} {c : Chain} {ws : List W32} {i : Instr}
    (hh : handRuns s h = true) (hx : copyOf? s h bulk n = some x) (hm : copyMay s h bulk x = true) (hc : x.chain = some c) (hn : x.cmd = none)
    (hb : c.fresh = false) (ha : EntryAt s h x.ctx x.img c.pc .copy ws) (hd : decodeFate .copy x.edis ws = .run i) :
    copyAgentTurn s h bulk n = exec i s := by
  obtain ⟨hbad, hperf⟩ := copyMay_spec hm
  have hfetch : chainFetch s h x c = (s, .run i) := by rw [chainFetch, hb, fetchAt_onward ha hd]
  simp only [copyAgentTurn, hx, hh, hbad, hperf, hm, hc, hn, hfetch, Bool.not_true, Bool.false_eq_true, if_false, Option.isSome_none]

/-! ### Events -/

/-- An event that the device can meet is its row, where no thread is stepped (R356, R377). -/
theorem runEvent_runs {s : State} {i : Instr} (hp : powered s = true ∨ collarEvent i = true) (hs : ∀ p ∈ s.threads, p.2.stepping = false) :
    runEvent i s = Res.andThen (exec i s) (account s .device) := by
  have hnone : (s.threads.filter fun p => p.2.stepping) = [] := List.filter_eq_nil_iff.2 fun p hx => by simp [hs p hx]
  rw [runEvent, if_pos (by simpa using hp), hnone]
  rfl

/-- Without power only the Collar's events have an effect (R377, R385). -/
theorem runEvent_off {s : State} {i : Instr} (hp : powered s = false) (hc : collarEvent i = false) : runEvent i s = .next s := by
  rw [runEvent, if_neg (by simp [hp, hc])]

/-- Settles O7: the step is `serve`'s, each agent's turn at a decoded entry is `exec` of it, and an event's is its row. -/
theorem stepRunsOthers : Obligations.StepRunsOthers := by
  unfold Obligations.StepRunsOthers
  refine ⟨?groups, ?streams, ?chains, ?events, fun s t a => ⟨rfl, account_hand s t a⟩⟩
  case groups =>
    intro s rest g l ws i hs hdue hh hl hb hd he hn ha hf
    rw [step_serves hs, serve, hdue, Bool.or_true, if_pos rfl,
      groupTurn_runs (s := s.turn rest (.group g)) hh ((runningLane_turn ..).trans hl) hb hd he hn ha hf]
  case streams =>
    intro s rest t m ws i hs hm hf hw hr hb hv ha hd hy
    rw [step_serves hs, serve, streamTurn_runs (s := s.turn rest (.stream t)) ((mxOf_turn ..).trans hm) hf hw hr hb hv ha hd hy]
  case chains =>
    intro s rest h bulk n x c ws i hs hh hx hm hc hn hb ha hd
    rw [step_serves hs, serve, copyAgentTurn_runs (s := s.turn rest (.copy h bulk n)) hh hx hm hc hn hb ha hd]
  case events =>
    intro s rest i hq
    have hstep : step s = runEvent i (s.turn rest .device) := by simp only [step, hq]
    rw [hstep]
    exact ⟨runEvent_runs (s := s.turn rest .device), runEvent_off (s := s.turn rest .device)⟩

end Sys2Proof.Machine
end

section
/-! The worked encodings of the spec (O2). -/

namespace Sys2Proof.Machine

/-- Settles O2: each row is words that the spec writes out, which decode evaluates. -/
theorem workedEncodings : Obligations.WorkedEncodings := by
  unfold Obligations.WorkedEncodings
  refine ⟨?add, ?deal, ?spop, ?mfs, ?barw, ?li, ?vadd, ?vld, ?mma, ?toring⟩
  all_goals decide

end Sys2Proof.Machine
end

section
/-! A rollback whose settling of cache sets posts a record over the context table (R131, R352, R354, R360), against the statement on
context events (O60). -/

namespace Sys2Proof.Machine

/-- Whether a checkpoint's state can return depends on the slots, units, hands, dies and the tenant's entry alone (R354). -/
theorem restoreFits_congr {u w : State} (ht : u.teams = w.teams) (hg : u.groups = w.groups) (hh : u.hands = w.hands) (hd : u.dies = w.dies)
    (hf : u.fuse = w.fuse) (hx : u.defects = w.defects) (hm : u.hostMem = w.hostMem) (hn : u.fns = w.fns) (c : Nat) (v : Saved) :
    restoreFits u c v = restoreFits w c v := by
  cases u
  cases w
  cases ht; cases hg; cases hh; cases hd; cases hf; cases hx; cases hm; cases hn
  rfl

/-- A checkpoint that saved one team of context 1, in slot 0 of hand 0. -/
def savedTeam : Saved := ⟨[(0, { wordTeam false with ctx := 1 })], [], [], [], [], [], [], [], []⟩

/-- Context 1, which goes back to that checkpoint: unit 0 was poisoned when it was logged. -/
def returningCtx : Ctx :=
  { wordCtx with ckptValid := true, saved := some savedTeam, undo := [⟨0, true, List.replicate 64 0, [0, 0]⟩], undoBytes := 128, cklog := 4096 }

/-- Hand 0 belongs to tenant 3, and so does context 1; a slice of die 0 holds line 0 and twelve poisoned lines of die 1, which take all of its
24 data ways. The first of them has a dirty byte of context 2, whose undo log is full, and whose error ring lies over the context table. -/
def overlapState : State :=
  { State.reset with
    ctxs := [(1, returningCtx), (2, { wordCtx with ckptValid := true })]
    hostMem := [(69, 3), (144, 1)]
    hands := [(0, { State.emptyHand with tenant := 3 })]
    homeL2 := [(512, [(0, ⟨false, 0⟩)])]
    caches := [(512, (List.range 12).map fun k =>
      (2 ^ 38 + 2 ^ 25 * k, ⟨List.replicate 128 0, if k = 0 then 1 else 0, 2, 1, false, 0⟩))] }

/-- Once the agents of context 1 have stopped, its checkpoint's state could return. -/
theorem overlapState_fits : restoreFits (stopAll overlapState 1) 1 savedTeam = true := by decide +kernel

/-- Context 1 still waits for its checkpoint's state to return. -/
def stillReturns (r : Res) : Bool :=
  match r with
  | .next t => (t.ctx? 1).any (·.restoring.isSome)
  | _ => false

theorem rollback_overlapState_waits : stillReturns (exec (.rollback 1) overlapState) = true := by decide +kernel

/-- Refutes O60: that a checkpoint's state fits once the agents have stopped does not bring it back. The undo log poisons unit 0 again, so
line 0 is stored raw and its set is over its ways; the line of context 2 that leaves the set finds its undo log full; the record
UNDO_OVERFLOW goes to context 2's error ring, which here lies over the entry of context 1 and clears its tenant; hand 0 is then another
tenant's, and the rollback waits. -/
theorem not_contextEvents : ¬ Obligations.ContextEvents := by
  unfold Obligations.ContextEvents
  rintro ⟨-, -, -, -, hctx, -⟩
  obtain ⟨-, -, -, -, hback⟩ := hctx overlapState 1 returningCtx rfl
  obtain ⟨t, y, ht, hy, -, -, hr, -⟩ := hback savedTeam rfl ⟨rfl, rfl, nofun⟩ rfl
    fun u teams groups hands dies fuse defects hostMem fns =>
      (restoreFits_congr teams groups hands dies fuse defects hostMem fns 1 savedTeam).trans overlapState_fits
  have hwaits := rollback_overlapState_waits
  rw [ht, stillReturns, hy] at hwaits
  simp [hr] at hwaits

end Sys2Proof.Machine
end

section
/-! A store whose home line grows past its set's ways, and whose byte the write-backs that follow replace by an older dirty byte of the same
line (R127, R131, R140), against the statement on fences (O29). -/

namespace Sys2Proof.Machine

/-- Twelve poisoned lines of die `d`, each with a dirty byte 9 at its start: in a slice they take all of its 24 data ways. -/
def dirtyLines (d : Nat) : Map CLine := (List.range 12).map fun k => (2 ^ 38 * d + 2 ^ 25 * k, ⟨List.replicate 128 9, 1, 0, 1, false, 0⟩)

/-- A buffered store of byte 7 to address 0 of device memory, at .DV. -/
def byteStore : Store := ⟨0, 3, 0, 0, .dev 0, [7], 0, 17⟩

/-- A thread of hand 0 has that store in its buffer. Slice 0 of die 0 holds its own line 0 and lines of die 1; slice 0 of die 1 holds the
first of these as its own, and lines of die 0, line 0 among them. -/
def staleState : State :=
  { State.reset with
    cur := .thread ⟨0, 0, 0⟩
    threads := [(threadKey ⟨0, 0, 0⟩, { wordThread with buffer := [byteStore] })]
    teams := [(teamKey ⟨0, 0⟩, wordTeam false)]
    ctxs := [(0, wordCtx)]
    homeL2 := [(512, [(0, ⟨false, 0⟩)]), (576, [(2 ^ 38, ⟨false, 0⟩)])]
    caches := [(512, dirtyLines 1), (576, dirtyLines 0)] }

/-- Its served thread. -/
def staleCore : Core :=
  ⟨⟨0, 0, 0⟩, { wordThread with buffer := [byteStore] }, wordTeam false, wordCtx, linkedLine staleState 0 0 0 1⟩

theorem staleState_core : staleState.core = some staleCore := rfl

theorem staleState_cachesOk : CachesOk staleState := by
  unfold CachesOk
  decide +kernel

/-- No undo log is valid. -/
theorem staleState_noLog (a : Nat) : ¬inLog staleState a := by
  rintro ⟨c, x, hx, hv, -⟩
  have hc : staleState.ctx? c = if 0 = c then some wordCtx else none := rfl
  rw [hc] at hx
  split at hx
  · cases hx; cases hv
  · cases hx

/-- Once the store has performed, the older byte stands at its address, and no slice holds line 0. -/
theorem drain_staleState : Memory.get (drain staleState staleCore).mem 0 = 9 ∧
    ∀ p ∈ (drain staleState staleCore).caches, ∀ l ∈ p.2, 0 < l.1 := by decide +kernel

/-- A map's entry at a key is a member. -/
theorem mem_of_get? {α : Type} {m : Map α} {k : Nat} {v : α} (h : m.get? k = some v) : (k, v) ∈ m := by
  induction m with
  | nil => cases h
  | cons p m ih =>
    obtain ⟨i, w⟩ := p
    unfold Map.get? at h
    split at h
    · next e => cases h; subst e; exact List.mem_cons_self
    · exact List.mem_cons_of_mem _ (ih h)

/-- A copy at a place is among the cached lines. -/
theorem mem_of_lineCopy {s : State} {p la : Nat} {l : CLine} (h : lineCopy s p la = some l) : ∃ q ∈ s.caches, (la, l) ∈ q.2 := by
  unfold lineCopy Map.getD at h
  cases hm : s.caches.get? p with
  | none => rw [hm] at h; cases h
  | some m => rw [hm] at h; exact ⟨(p, m), mem_of_get? hm, mem_of_get? h⟩

/-- A byte below every cached line is dirty nowhere. -/
theorem not_dirtyByte_of_above {s : State} {a : Nat} (h : ∀ p ∈ s.caches, ∀ l ∈ p.2, a < l.1) (v : Byte) : ¬dirtyByte s a v := by
  rintro ⟨p, la, l, hl, hla, -⟩
  obtain ⟨q, hq, hm⟩ := mem_of_lineCopy hl
  exact absurd (h q hq _ hm) (Nat.not_lt.2 hla)

/-- Refutes O29: a performed store need not leave its byte anywhere, where another slice holds an older dirty byte of its line. In
`staleState` the byte 7 reaches its home, whose line is then no longer a line of zeros: its set is over its ways and a line of die 1
leaves it; at its own home that line is stored raw, so that the set there is over its ways too; the line that leaves this one is the
copy of line 0, whose dirty byte 9 goes to the home and replaces the 7. -/
theorem not_fences : ¬ Obligations.Fences := by
  unfold Obligations.Fences
  intro h
  obtain ⟨-, hstored, -⟩ := h staleState staleCore 0 0 0 0 (.fence 0 0 0) staleState_core
  obtain ⟨-, hholds⟩ := hstored byteStore rfl
  obtain ⟨hmem, hlines⟩ := drain_staleState
  rcases hholds staleState_cachesOk (by decide) 0 7 rfl with hhome | hdirty | hlog | htag
  · exact absurd (hmem.symm.trans hhome) (by decide)
  · exact not_dirtyByte_of_above hlines 7 hdirty
  · exact staleState_noLog 0 hlog
  · exact htag rfl

end Sys2Proof.Machine
end

section
/-! Lane groups: an operation on every sub-element of its sources, with the flags of the active ones (R95, R112, R204). -/

namespace Sys2Proof.Machine

/-! ### Sub-elements -/

theorem splitSub_eq (w v n : Nat) : splitSub w v n = (List.range n).map fun j => v / 2 ^ (w * j) % 2 ^ w := by
  induction n generalizing v with
  | zero => rfl
  | succ n ih =>
    rw [splitSub, ih, List.range_succ_eq_map, List.map_cons, List.map_map, Nat.mul_zero, pow_zero, Nat.div_one]
    refine congrArg _ (List.map_congr_left fun j _ => ?_)
    rw [Nat.div_div_eq_div_mul, ← pow_add, Function.comp_apply, Nat.mul_succ, Nat.add_comm]

/-- An element's sub-elements, by their positions. -/
theorem subsOf_eq (w : Nat) (v : W64) : subsOf w v = (List.range (perElem w)).map fun j => subAt w j v := splitSub_eq w v.toNat _

/-- A sub-element of results that fit in an element. -/
theorem subAt_joinRes {w : Nat} {rs : List (Nat × Flags)} (h : w * rs.length ≤ 64) (j : Nat) :
    subAt w j (joinRes w rs).1 = (rs.map (·.1)).getD j 0 % 2 ^ w := by
  have hlt : joinSub w (rs.map (·.1)) < 2 ^ 64 :=
    lt_of_lt_of_le (joinSub_lt w _) (Nat.pow_le_pow_right (by decide) (by rwa [List.length_map]))
  rw [subAt, joinRes, BitVec.toNat_ofNat, Nat.mod_eq_of_lt hlt, joinSub_at]

/-! ### Flags -/

/-- A flag of an OR. -/
theorem orFlags_getLsbD (xs : List Flags) (k : Nat) : (orFlags xs).getLsbD k = true ↔ ∃ x ∈ xs, x.getLsbD k = true := by
  have hfold (a : Flags) : (xs.foldl (· ||| ·) a).getLsbD k = true ↔ a.getLsbD k = true ∨ ∃ x ∈ xs, x.getLsbD k = true := by
    induction xs generalizing a with
    | nil => simp
    | cons x xs ih => simp only [List.foldl_cons, ih, BitVec.getLsbD_or, Bool.or_eq_true, List.mem_cons, exists_eq_or_imp, or_assoc]
  rw [orFlags, hfold]
  simp

/-- A flag of the active elements. -/
theorem activeFlags_getLsbD (act : Mask) (g : Nat → Flags) (k : Nat) :
    (activeFlags act ((List.range 1024).map g)).getLsbD k = true ↔ ∃ i < 1024, act.getLsbD i = true ∧ (g i).getLsbD k = true := by
  have hz : List.zipWith (fun b f => if b then f else (0 : Flags)) (maskBits act) ((List.range 1024).map g) =
      (List.range 1024).map fun i => if act.getLsbD i then g i else 0 := by
    rw [maskBits, List.zipWith_map, List.zipWith_self]
  rw [activeFlags, hz, orFlags_getLsbD]
  constructor
  · rintro ⟨x, hx, hk⟩
    obtain ⟨i, hi, rfl⟩ := List.mem_map.1 hx
    cases ha : act.getLsbD i
    · simp [ha] at hk
    · exact ⟨i, List.mem_range.1 hi, ha, by simpa [ha] using hk⟩
  · rintro ⟨i, hi, ha, hk⟩
    exact ⟨_, List.mem_map.2 ⟨i, List.mem_range.2 hi, rfl⟩, by simpa [ha] using hk⟩

/-! ### Operations on elements -/

/-- Element `i` of an operation on the sub-elements of three sources. -/
def elemOp (w : Nat) (op : Nat → Nat → Nat → Nat × Flags) (a b c : List W64) (i : Nat) : W64 × Flags :=
  joinRes w ((List.range (perElem w)).map fun j => op (subAt w j (a.getD i 0)) (subAt w j (b.getD i 0)) (subAt w j (c.getD i 0)))

theorem elem1_eq {a : List W64} (ha : a.length = 1024) (w : Nat) (op : Nat → Nat × Flags) : a.map (elem1 w op) =
    (List.range 1024).map fun i => joinRes w ((List.range (perElem w)).map fun j => op (subAt w j (a.getD i 0))) := by
  conv_lhs => rw [← map_range_getD ha 0, List.map_map]
  refine List.map_congr_left fun i _ => ?_
  rw [Function.comp_apply, elem1, subsOf_eq, List.map_map]
  rfl

theorem elem2_eq {a b : List W64} (ha : a.length = 1024) (hb : b.length = 1024) (w : Nat) (op : Nat → Nat → Nat × Flags) :
    List.zipWith (elem2 w op) a b = (List.range 1024).map fun i =>
      joinRes w ((List.range (perElem w)).map fun j => op (subAt w j (a.getD i 0)) (subAt w j (b.getD i 0))) := by
  conv_lhs => rw [← map_range_getD ha 0, ← map_range_getD hb 0, List.zipWith_map, List.zipWith_self]
  refine List.map_congr_left fun i _ => ?_
  rw [elem2, subsOf_eq, subsOf_eq, List.zipWith_map, List.zipWith_self]

theorem elem3_eq {a b c : List W64} (ha : a.length = 1024) (hb : b.length = 1024) (hc : c.length = 1024) (w : Nat)
    (op : Nat → Nat → Nat → Nat × Flags) : zip3 (elem3 w op) a b c = (List.range 1024).map (elemOp w op a b c) := by
  conv_lhs => rw [zip3, ← map_range_getD ha 0, ← map_range_getD hb 0, ← map_range_getD hc 0, List.zip_map', List.zipWith_map,
    List.zipWith_self]
  refine List.map_congr_left fun i _ => ?_
  rw [elem3, subsOf_eq, subsOf_eq, subsOf_eq, List.zip_map', List.zipWith_map, List.zipWith_self]
  rfl

/-- The results of an operation on every sub-element are its results, with the flags of the active elements. -/
theorem elementwise_elemOp {w : Nat} (h : w * perElem w ≤ 64) (act : Mask) (op : Nat → Nat → Nat → Nat × Flags) (a b c : List W64) :
    Elementwise w act op a b c (((List.range 1024).map (elemOp w op a b c)).map (·.1))
      (activeFlags act (((List.range 1024).map (elemOp w op a b c)).map (·.2))) := by
  refine ⟨by simp, fun i hi j hj => ?_, fun k => ?_⟩
  · rw [List.map_map, getD_map_range hi, Function.comp_apply, elemOp, subAt_joinRes (by simpa using h), List.map_map, getD_map_range hj]
    rfl
  · rw [List.map_map, activeFlags_getLsbD]
    refine exists_congr fun i => and_congr_right fun _ => ?_
    simp only [Function.comp_apply, elemOp, joinRes, orFlags_getLsbD, List.map_map, List.mem_map, List.mem_range, exists_exists_and_eq_and]
    exact ⟨fun ⟨ha, j, hj, hk⟩ => ⟨j, hj, ha, hk⟩, fun ⟨j, hj, ha, hk⟩ => ⟨ha, j, hj, hk⟩⟩

/-- The flexible operand supplies 1024 elements. -/
@[simp] theorem Lane.flex_length (s : State) (l : Lane) (f : LaneW) (ty : Nat) : (l.flex s f ty).length = 1024 := by
  unfold Lane.flex
  dsimp only
  split
  · exact Lane.src_length ..
  · exact List.length_replicate
  · exact List.length_replicate

section
variable {s u : State} {f : LaneW} {l : Lane} (h : Issues s u f l) {w lat vd : Nat} (hw : w * perElem w ≤ 64) {wide : Bool} {i : Instr}
  {ts : List Nat} {vals : State → Lane → List (W64 × Flags)} {op : Nat → Nat → Nat → Nat × Flags} {a b c : List W64}
  (hv : vals u l = (List.range 1024).map (elemOp w op a b c))
include h hw hv

/-- What results of an operation on every sub-element leave behind the instruction. -/
theorem elements_issued : ∃ vs fl, Elementwise w (l.act f) op a b c vs fl ∧
    Issued u (advance (pendTile u l lat wide vd (l.act f) (vals u l)) l 2 1) l 2 1 (l.withTile lat wide vd (l.act f) vs fl) := by
  rw [hv]
  exact ⟨_, _, elementwise_elemOp hw (l.act f) op a b c, pendTile_issued h.laneAt.group lat wide vd _ _ 2⟩

/-- A fixed-latency instruction with such results gives them. -/
theorem elements_give (hi : exec i s = fixed s f 2 ts fun s l => pendTile s l lat wide vd (l.act f) (vals s l)) :
    LaneGives s u l i ts fun t => ∃ vs fl, Elementwise w (l.act f) op a b c vs fl ∧
      Issued u t l 2 1 (l.withTile lat wide vd (l.act f) vs fl) :=
  fixed_gives h hi (elements_issued h hw hv)

end

/-! ### Retired encodings (R86) -/

section
variable {s u : State} {f : LaneW} {l : Lane} (h : Issues s u f l) {i : Instr} {w : Nat} {ok : Bool} {body : State → Lane → State}
  (hi : exec i s = retiredLane s i f w ok body)
include h hi

/-- A retired lane encoding that the library serves acts by its body. -/
theorem retiredLane_served (hs : libraryServes l.ctx l.th l.helper = true) (hok : ok = true) : exec i s = .next (body u l) := by
  rw [hi, retiredLane, h.onLane_eq, if_pos hs, if_pos hok]

/-- One that it does not serve raises its cause. -/
theorem retiredLane_unserved (hs : libraryServes l.ctx l.th l.helper = false) :
    exec i s = .next (laneCause u l .retired (wordsOf i) (some i)) := by
  rw [hi, retiredLane, h.onLane_eq, hs, if_neg Bool.false_ne_true]

end

end Sys2Proof.Machine
end

section
/-! The integer instructions of a lane group (O42). -/

namespace Sys2Proof.Machine

/-! ### Integer types and results (R62, R94, R203) -/

/-- The types 3 and 7 alone are of tile pairs. -/
theorem intWide_eq {f : LaneW} (h : f.ty.toNat < 8) : LaneInt.wide f = (decide (f.ty.toNat = 3) || decide (f.ty.toNat = 7)) := by
  revert h
  unfold LaneInt.wide
  generalize f.ty = ty
  revert ty
  decide

/-- The sub-elements of every type fit in an element. -/
theorem tyWidth_fits {ty : Nat} (h : ty < 16) : tyWidth ty * perElem (tyWidth ty) ≤ 64 := by
  revert h ty
  decide

/-- The bounds of an integer type, in order. -/
theorem intMin_le_intMax (signed : Bool) (w : Nat) : intMin signed w ≤ intMax signed w := by
  have h₁ : (1 : Int) ≤ 2 ^ w := one_le_pow₀ (by decide)
  have h₂ : (1 : Int) ≤ 2 ^ (w - 1) := one_le_pow₀ (by decide)
  unfold intMin intMax
  split <;> omega

/-- An integer result is clamped where it saturates, else wrapped. -/
theorem intResult_eq (signed sat : Bool) (w : Nat) (x : Int) : intResult signed w sat x =
    if sat = true ∧ (x < intMin signed w ∨ intMax signed w < x) then (wrapTo w (max (intMin signed w) (min (intMax signed w) x)), fSat)
    else (wrapTo w x, 0) := by
  have hle := intMin_le_intMax signed w
  unfold intResult
  cases sat
  · simp
  · rcases lt_or_ge x (intMin signed w) with hlo | hlo
    · have hmin : min (intMax signed w) x = x := min_eq_right (by omega)
      simp only [hlo, hmin, decide_true, Bool.and_true, if_true, true_or, and_self, max_eq_left hlo.le]
    · rcases lt_or_ge (intMax signed w) x with hhi | hhi
      · simp only [hlo.not_gt, hhi, decide_true, decide_false, Bool.and_true, Bool.and_false, Bool.false_eq_true, if_true, if_false,
          or_true, and_self, min_eq_left hhi.le, max_eq_right hle]
      · simp only [hlo.not_gt, hhi.not_gt, decide_false, Bool.and_false, Bool.false_eq_true, if_false, or_self, and_false]

/-- One bits are counted one by one. -/
theorem popCount_eq (w v : Nat) : popCount w v = (List.range w).countP fun i => v.testBit i := by
  induction w generalizing v with
  | zero => rfl
  | succ w ih =>
    have hrest : (fun i => v.testBit i) ∘ Nat.succ = fun i => (v / 2).testBit i := funext fun i => Nat.testBit_succ v i
    rw [popCount, ih, List.range_succ_eq_map, List.countP_cons, List.countP_map, hrest, Nat.testBit_zero, Nat.add_comm]
    rcases Nat.mod_two_eq_zero_or_one v with h | h <;> simp [h]

/-! ### The instructions -/

/-- An integer instruction on the tiles `ts` gives what `op` does on every sub-element of its three sources. -/
def IntGives (s u : State) (f : LaneW) (l : Lane) (wide : Bool) (i : Instr) (lat : Nat) (ts : List Nat)
    (op : Nat → Nat → Nat → Nat × Flags) : Prop :=
  LaneGives s u l i ts fun t => ∃ vals fl,
    Elementwise (tyWidth f.ty.toNat) (l.act f) op (l.src u wide f.va.toNat) (l.src u wide f.vb.toNat) (l.flex u f f.ty.toNat) vals fl ∧
      Issued u t l 2 1 (l.withTile lat wide f.vd.toNat (l.act f) vals fl)

section
variable {s u : State} {f : LaneW} {l : Lane} (h : Issues s u f l) {wide : Bool} (hwide : LaneInt.wide f = wide) {i : Instr}
include h hwide

theorem intBin_gives {l32 l64 : Nat} {op : Nat → Nat → Nat × Flags} (hi : exec i s = intBin s f l32 l64 op) :
    IntGives s u f l wide i (if wide then l64 else l32) (pairOf wide f.vd ++ pairOf wide f.va ++ flexTiles f wide) fun x _ z => op x z := by
  subst hwide
  exact elements_give h (tyWidth_fits f.ty.isLt) (elem2_eq (Lane.src_length ..) (Lane.flex_length ..) (tyWidth f.ty.toNat) op) hi

theorem intUn_gives {op : Nat → Nat × Flags} (hi : exec i s = intUn s f op) :
    IntGives s u f l wide i (if wide then 8 else 4) (pairOf wide f.vd ++ flexTiles f wide) fun _ _ z => op z := by
  subst hwide
  exact elements_give h (tyWidth_fits f.ty.isLt) (elem1_eq (Lane.flex_length ..) (tyWidth f.ty.toNat) op) hi

theorem vmad_gives : IntGives s u f l wide (.vmad f) (if wide then 16 else 8)
    (pairOf wide f.vd ++ pairOf wide f.va ++ pairOf wide f.vb ++ flexTiles f wide)
    fun x y z => LaneInt.res f (LaneInt.val f x * LaneInt.val f y + LaneInt.val f z) := by
  subst hwide
  exact elements_give h (tyWidth_fits f.ty.isLt)
    (elem3_eq (Lane.src_length ..) (Lane.src_length ..) (Lane.flex_length ..) (tyWidth f.ty.toNat) _) rfl

variable (hs : libraryServes l.ctx l.th l.helper = true) (hty : f.ty.toNat < 8)
include hs hty

/-- A retired integer encoding that the library serves. -/
theorem retiredInt_gives {ts : List Nat} {vals : State → Lane → List (W64 × Flags)} {op : Nat → Nat → Nat → Nat × Flags}
    (hi : exec i s = retiredInt s i f ts vals) (hv : vals u l = (List.range 1024).map
      (elemOp (tyWidth f.ty.toNat) op (l.src u wide f.va.toNat) (l.src u wide f.vb.toNat) (l.flex u f f.ty.toNat))) :
    IntGives s u f l wide i 4 ts op := by
  subst hwide
  exact withTiles_gives (retiredLane_served h hi hs (decide_eq_true (Nat.le_of_lt_succ hty))) fun _ =>
    elements_issued h (tyWidth_fits f.ty.isLt) hv

theorem vavg_gives : IntGives s u f l wide (.vavg f) 4 (pairOf wide f.vd ++ pairOf wide f.va ++ pairOf wide f.vb)
    fun x y _ => (wrapTo (LaneInt.wd f) ((LaneInt.val f x + LaneInt.val f y + 1) / 2), 0) := by
  subst hwide
  exact retiredInt_gives h rfl hs hty rfl (elem2_eq (Lane.src_length ..) (Lane.src_length ..) (tyWidth f.ty.toNat) _)

theorem vsad_gives : IntGives s u f l wide (.vsad f) 4 (pairOf wide f.vd ++ pairOf wide f.va ++ pairOf wide f.vb ++ flexTiles f wide)
    fun x y z => (wrapTo (LaneInt.wd f) (LaneInt.val f z + (LaneInt.val f x - LaneInt.val f y).natAbs), 0) := by
  subst hwide
  exact retiredInt_gives h rfl hs hty rfl (elem3_eq (Lane.src_length ..) (Lane.src_length ..) (Lane.flex_length ..) (tyWidth f.ty.toNat) _)

end

/-- Settles O42: each integer instruction does its operation on every sub-element; VAVG and VSAD do where the library serves them. -/
theorem laneInteger : Obligations.LaneInteger := by
  unfold Obligations.LaneInteger
  intro s u f l h hty w wide signed lo hi sval val wrap fit d a b c gives bin un
  have hwide : LaneInt.wide f = wide := intWide_eq hty
  have hval (x : Nat) : LaneInt.val f x = val x := by
    simp only [LaneInt.val, intVal, signedTy, val, signed, sval, Bool.and_eq_true, decide_eq_true_eq]
    split_ifs <;> tauto
  have hsval (x : Nat) : intVal true w x = sval x := by simp [intVal, sval]
  have hfit (x : Int) : LaneInt.res f x = fit x := (intResult_eq ..).trans (if_congr (and_congr_left fun _ => decide_eq_true_iff) rfl rfl)
  have hgives {i : Instr} {lat : Nat} {ts : List Nat} {op op' : Nat → Nat → Nat → Nat × Flags} (hg : IntGives s u f l wide i lat ts op)
      (hop : ∀ x y z, op x y z = op' x y z) : gives i lat ts op' := by
    obtain rfl : op = op' := funext fun x => funext fun y => funext (hop x y)
    exact hg
  have hbin {i : Instr} {l32 l64 : Nat} (op : Nat → Nat → Nat × Flags) {op' : Nat → Nat → Nat × Flags}
      (hi : exec i s = intBin s f l32 l64 op) (hop : ∀ x z, op x z = op' x z) : bin i l32 l64 op' :=
    hgives (intBin_gives h hwide hi) fun x _ z => hop x z
  have hun {i : Instr} (op : Nat → Nat × Flags) {op' : Nat → Nat × Flags} (hi : exec i s = intUn s f op) (hop : ∀ z, op z = op' z) :
      un i op' :=
    hgives (intUn_gives h hwide hi) fun _ _ z => hop z
  refine ⟨?vadd, ?vsub, ?vmul, ?vmulh, ?vmad, hbin _ rfl fun _ _ => rfl, hbin _ rfl fun _ _ => rfl, hbin _ rfl fun _ _ => rfl, ?vshl, ?vshr,
    ?vsra, ?vmin, ?vmax, ?vabs, ?vneg, hun _ rfl fun _ => rfl, ?vpopc, fun hs => ⟨?vavg, ?vsad⟩, fun hs => ?unserved⟩
  case vadd => exact hbin (fun x z => LaneInt.res f (LaneInt.val f x + LaneInt.val f z)) rfl fun x z => by rw [hfit, hval, hval]
  case vsub => exact hbin (fun x z => LaneInt.res f (LaneInt.val f x - LaneInt.val f z)) rfl fun x z => by rw [hfit, hval, hval]
  case vmul => exact hbin (fun x z => LaneInt.res f (LaneInt.val f x * LaneInt.val f z)) rfl fun x z => by rw [hfit, hval, hval]
  case vmulh => exact hbin (fun x z => (wrapTo w (LaneInt.val f x * LaneInt.val f z / 2 ^ w), 0)) rfl fun x z => by rw [hval, hval]; rfl
  case vmad => exact hgives (vmad_gives h hwide) fun x y z => by rw [hfit, hval, hval, hval]
  case vshl => exact hbin (fun x z => (x * 2 ^ (z % w) % 2 ^ w, 0)) rfl fun x z => by rw [Nat.shiftLeft_eq]
  case vshr => exact hbin (fun x z => (x / 2 ^ (z % w), 0)) rfl fun x z => by rw [Nat.shiftRight_eq_div_pow]
  case vsra => exact hbin (fun x z => (wrapTo w (intVal true w x / 2 ^ (z % w)), 0)) rfl fun x z => by rw [hsval]; rfl
  case vmin => exact hbin (fun x z => (if LaneInt.val f x ≤ LaneInt.val f z then x else z, 0)) rfl fun x z => by rw [hval, hval]
  case vmax => exact hbin (fun x z => (if LaneInt.val f x ≤ LaneInt.val f z then z else x, 0)) rfl fun x z => by rw [hval, hval]
  case vabs => exact hun (fun z => LaneInt.res f (LaneInt.val f z).natAbs) rfl fun z => by rw [hfit, hval, Int.natCast_natAbs]
  case vneg => exact hun (fun z => LaneInt.res f (-LaneInt.val f z)) rfl fun z => by rw [hfit, hval]
  case vpopc => exact hun (fun z => (popCount w z, 0)) rfl fun z => by rw [popCount_eq]
  case vavg => exact hgives (vavg_gives h hwide hs hty) fun x y z => by rw [hval, hval]; rfl
  case vsad => exact hgives (vsad_gives h hwide hs hty) fun x y z => by rw [hval, hval, hval, Int.natCast_natAbs]; rfl
  case unserved =>
    simp only [List.forall_mem_cons]
    exact ⟨retiredLane_unserved h rfl hs, retiredLane_unserved h rfl hs, fun _ hi => absurd hi List.not_mem_nil⟩

end Sys2Proof.Machine
end

section
/-! The float instructions of a lane group: what they leave, the masks of comparisons and the deprecated forms (R85, R112, R210-R212, R300). -/

namespace Sys2Proof.Machine

/-! ### Masks -/

/-- A bit of bits in element order. -/
theorem bitsMask_getLsbD (g : Nat → Bool) {i : Nat} (hi : i < 1024) : (bitsMask ((List.range 1024).map g)).getLsbD i = g i := by
  have hat := joinSub_at 1 (((List.range 1024).map g).map fun b => if b then 1 else 0) i
  rw [List.map_map, getD_map_range hi, Nat.one_mul, pow_one] at hat
  rw [bitsMask, BitVec.getLsbD_ofNat, decide_eq_true hi, Bool.true_and, Nat.testBit_eq_decide_div_mod_eq, List.map_map, hat]
  cases h : g i <;> simp [h]

/-- An instruction whose only effect is result bits has issued. -/
theorem pendMask_issued {u : State} {l : Lane} (hg : u.group? l.ref = some l.gr) (lat md : Nat) (act : Mask) (vals : List (Bool × Flags)) (w : Nat) :
    Issued u (advance (pendMask u l lat md act vals) l w 1) l w 1
      (l.withMask lat md act (bitsMask (vals.map (·.1))) (activeFlags act (vals.map (·.2)))) :=
  advance_issued (pendDst_group? hg rfl ..) (otherGroups_updGroup u l.ref _) rfl w 1

/-! ### Deprecated forms -/

/-- What lands at a group leaves the contexts. -/
theorem landDue_ctxs (s : State) (g : GroupRef) (q : Nat) : (landDue s g q).ctxs = s.ctxs := by
  have hland (s : State) (d : Dst) (act : Mask) (data : Tile) (bs : Mask) : (land s g d act data bs).ctxs = s.ctxs := by
    cases d with
    | chunk b j =>
      rw [land, writeChunk]
      split
      · split <;> rfl
      · rfl
    | _ => rfl
  have hfold (ps : List Pending) (s : State) : (ps.foldl (fun s p => landResult s g p) s).ctxs = s.ctxs := by
    induction ps generalizing s with
    | nil => rfl
    | cons p ps ih => rw [List.foldl_cons, ih]; exact hland ..
  unfold landDue
  split
  · rfl
  · exact hfold ..

/-- An execution counted: the context's count rises; teams, groups and hands are as before. -/
theorem countDeprecated_spec {v : State} {c : Nat} {x : Ctx} (hx : v.ctx? c = some x) (i : Instr) :
    (countDeprecated v c i).ctx? c = some { x with depcnt := x.depcnt + 1 } ∧ (countDeprecated v c i).groups = v.groups ∧
      (countDeprecated v c i).teams = v.teams ∧ (countDeprecated v c i).hands = v.hands := by
  have hup : (v.updCtx c fun x' => { x' with depcnt := x.depcnt + 1 }).ctx? c = some { x with depcnt := x.depcnt + 1 } := by
    rw [State.ctx?_updCtx, if_pos rfl, hx]
    rfl
  simp only [countDeprecated, hx]
  split
  · have hp := postEvent_keeps (v.updCtx c fun x' => { x' with depcnt := x.depcnt + 1 })
    exact ⟨by rw [State.ctx?, postEvent_ctxs]; exact hup, (hp ..).groups, (hp ..).teams, (postEvent_mem ..).2.2.2⟩
  · exact ⟨hup, rfl, rfl, rfl⟩

/-- A deprecated execution leaves the same. -/
theorem deprecatedDone_spec {v : State} {l : Lane} {x : Ctx} (hx : v.ctx? l.tm.ctx = some x) (f : LaneW) (i : Instr) :
    (deprecatedDone v l f i).ctx? l.tm.ctx = some { x with depcnt := x.depcnt + 1 } ∧ (deprecatedDone v l f i).groups = v.groups ∧
      (deprecatedDone v l f i).teams = v.teams ∧ (deprecatedDone v l f i).hands = v.hands := by
  rw [deprecatedDone]
  dsimp only
  split <;> exact countDeprecated_spec hx i

end Sys2Proof.Machine
end

section
/-! SUPPORT. FP32, FP16 and BF16 by the fields of their codes (R88, R89): what a code decodes to, and what the operations give on zeros,
infinities, NaNs and opposites (R96-R98, R100). -/

namespace Sys2Proof.Machine

/-! ### Values -/

theorem Num.exists_nan {a : Num} (h : a.isNan = true) : ∃ s, a = .nan s := by
  cases a with
  | nan s => exact ⟨s, rfl⟩
  | inf n => cases h
  | fin n m e => cases h

/-- A sum with a NaN is a NaN, signalling where an operand is. -/
theorem Num.add_nan {a b : Num} (h : a.isNan = true ∨ b.isNan = true) (mode : Nat) : a.add mode b = some (.nan (a.isSnan || b.isSnan)) := by
  rcases h with ha | hb
  · obtain ⟨s, rfl⟩ := Num.exists_nan ha
    cases b <;> simp [Num.add, Num.isSnan]
  · obtain ⟨s, rfl⟩ := Num.exists_nan hb
    cases a <;> simp [Num.add, Num.isSnan]

/-- So is a product. -/
theorem Num.mul_nan {a b : Num} (h : a.isNan = true ∨ b.isNan = true) : a.mul b = some (.nan (a.isSnan || b.isSnan)) := by
  rcases h with ha | hb
  · obtain ⟨s, rfl⟩ := Num.exists_nan ha
    cases b <;> simp [Num.mul, Num.isSnan]
  · obtain ⟨s, rfl⟩ := Num.exists_nan hb
    cases a <;> simp [Num.mul, Num.isSnan]

@[simp] theorem Num.neg_isNan (a : Num) : a.neg.isNan = a.isNan := by cases a <;> rfl
@[simp] theorem Num.neg_isSnan (a : Num) : a.neg.isSnan = a.isSnan := by cases a <;> rfl

/-- A value and its opposite cancel, to a zero of the sign that the mode gives (R96). -/
theorem Num.add_neg_fin (mode : Nat) (n : Bool) (m : Nat) (e : Int) :
    (Num.fin n m e).add mode (Num.fin n m e).neg = some (.fin (mode = 3) 0 e) := by
  have hv : signedAt n m e e + signedAt (!n) m e e = 0 := by
    unfold signedAt
    cases n
    · exact Int.add_right_neg _
    · exact Int.add_left_neg _
  have hn : (m = 0 && m = 0 && n = !n) = false := by cases n <;> simp
  simp only [Num.neg, Num.add, addFin, min_self, hv, if_true, hn, Bool.false_eq_true, if_false]

/-- A flag that a condition's bit raises is raised where the condition holds. -/
theorem invalidIff_raiseIf {b : Bool} {c : Prop} (h : b = true ↔ c) : InvalidIff (raiseIf b fInvalid) c := by
  cases b
  · exact ⟨fun hc => absurd (h.2 hc) Bool.false_ne_true, fun _ => rfl⟩
  · exact ⟨fun _ => rfl, fun hc => absurd (h.1 rfl) hc⟩

/-! ### Codes -/

section
variable (fm : FFmt)

theorem FFmt.sign_eq (n : Bool) : fm.fmt.sign n = floatZero fm.ty n := by cases fm <;> rfl
theorem FFmt.neg_eq (v : Nat) : floatNeg fm.ty v = v.testBit (fm.wd - 1) := by cases fm <;> rfl
theorem FFmt.nan_eq : fm.fmt.nan = floatNan fm.ty := by cases fm <;> rfl

/-- A code by its sign, exponent and mantissa. -/
theorem FFmt.decode_eq (v : Nat) : fm.fmt.decode v =
    let (eb, mb) := floatFields fm.ty
    let e := v / 2 ^ mb % 2 ^ eb
    let m := v % 2 ^ mb
    if e = 2 ^ eb - 1 then (if m = 0 then .inf (floatNeg fm.ty v) else .nan (decide (m < 2 ^ (mb - 1))))
    else if e = 0 then .fin (floatNeg fm.ty v) m (fm.fmt.emin - mb)
    else .fin (floatNeg fm.ty v) (m + 2 ^ mb) (fm.fmt.emin - mb + (e - 1 : Nat)) := by
  have hneg : floatNeg fm.ty v = decide (v / 2 ^ (fm.fmt.eb + fm.fmt.mb) % 2 = 1) := by
    cases fm <;> exact Nat.testBit_eq_decide_div_mod_eq
  rw [hneg]
  cases fm <;> simp [Fmt.decode, FFmt.fmt, FFmt.ty, fmtOf, fmtF32, fmtF16, fmtBF16, floatFields]

variable {fm : FFmt}

theorem FFmt.decode_isNan (v : Nat) : (fm.fmt.decode v).isNan = true ↔ isFloatNan fm.ty v := by
  rw [FFmt.decode_eq, isFloatNan]
  dsimp only
  split
  · next he =>
    split
    · next hm => simp [Num.isNan, hm]
    · next hm => simp [Num.isNan, he, hm]
  · next he => split <;> simp [Num.isNan, he]

theorem FFmt.decode_isSnan (v : Nat) : (fm.fmt.decode v).isSnan = true ↔ isFloatSnan fm.ty v := by
  have hbit : v % 2 ^ (floatFields fm.ty).2 < 2 ^ ((floatFields fm.ty).2 - 1) ↔ v.testBit ((floatFields fm.ty).2 - 1) = false := by
    rw [Nat.testBit_eq_decide_div_mod_eq, decide_eq_false_iff_not]
    cases fm <;> simp only [FFmt.ty, floatFields] <;> omega
  rw [FFmt.decode_eq, isFloatSnan, isFloatNan]
  dsimp only
  split
  · next he =>
    split
    · next hm => simp [Num.isSnan, hm]
    · next hm => simp [Num.isSnan, he, hm, hbit]
  · next he => split <;> simp [Num.isSnan, he]

/-- A code below infinity's is a finite value of its sign. -/
theorem FFmt.decode_finite {v : Nat} (h : v % 2 ^ (fm.wd - 1) < floatInf fm.ty false) :
    ∃ m e, fm.fmt.decode v = .fin (floatNeg fm.ty v) m e := by
  have he : ¬v / 2 ^ (floatFields fm.ty).2 % 2 ^ (floatFields fm.ty).1 = 2 ^ (floatFields fm.ty).1 - 1 := by
    cases fm <;> simp [FFmt.wd, FFmt.ty, tyWidth, floatInf, floatFields] at h ⊢ <;> omega
  rw [FFmt.decode_eq]
  dsimp only
  rw [if_neg he]
  split <;> exact ⟨_, _, rfl⟩

/-- A zero's value. -/
theorem FFmt.decode_zero (n : Bool) : fm.fmt.decode (floatZero fm.ty n) = .fin n 0 (fm.fmt.emin - fm.fmt.mb) := by
  cases fm <;> cases n <;> rfl

/-- The code with the other sign is the opposite value. -/
theorem FFmt.decode_flip (v : Nat) : fm.fmt.decode (v ^^^ 2 ^ (fm.wd - 1)) = (fm.fmt.decode v).neg := by
  have hneg : floatNeg fm.ty (v ^^^ 2 ^ (fm.wd - 1)) = !floatNeg fm.ty v := by
    rw [FFmt.neg_eq, FFmt.neg_eq, Nat.testBit_xor, Nat.testBit_two_pow_self, Bool.xor_true]
  have hmod : (v ^^^ 2 ^ (fm.wd - 1)) % 2 ^ (fm.wd - 1) = v % 2 ^ (fm.wd - 1) := by
    rw [Nat.xor_mod_two_pow, Nat.mod_self, Nat.xor_zero]
  have he : (v ^^^ 2 ^ (fm.wd - 1)) / 2 ^ (floatFields fm.ty).2 % 2 ^ (floatFields fm.ty).1 =
      v / 2 ^ (floatFields fm.ty).2 % 2 ^ (floatFields fm.ty).1 := by
    generalize v ^^^ 2 ^ (fm.wd - 1) = x at hmod ⊢
    cases fm <;> simp only [FFmt.wd, FFmt.ty, tyWidth, floatFields] at hmod ⊢ <;> omega
  have hm : (v ^^^ 2 ^ (fm.wd - 1)) % 2 ^ (floatFields fm.ty).2 = v % 2 ^ (floatFields fm.ty).2 := by
    generalize v ^^^ 2 ^ (fm.wd - 1) = x at hmod ⊢
    cases fm <;> simp only [FFmt.wd, FFmt.ty, tyWidth, floatFields] at hmod ⊢ <;> omega
  rw [FFmt.decode_eq, FFmt.decode_eq, hneg]
  dsimp only
  rw [he, hm]
  split
  · split <;> rfl
  · split <;> rfl

/-- A code of sign 1 that is neither a NaN nor −0 is a value below 0. -/
theorem FFmt.decode_negative {v : Nat} (hv : v < 2 ^ fm.wd) (hnan : ¬isFloatNan fm.ty v) (hn : floatNeg fm.ty v = true)
    (h0 : v ≠ floatZero fm.ty true) : fm.fmt.decode v = .inf true ∨ ∃ m e, m ≠ 0 ∧ fm.fmt.decode v = .fin true m e := by
  have hzero : v / 2 ^ (floatFields fm.ty).2 % 2 ^ (floatFields fm.ty).1 = 0 → v % 2 ^ (floatFields fm.ty).2 ≠ 0 := by
    intro he hm
    refine h0 ?_
    rw [FFmt.neg_eq, Nat.testBit_eq_decide_div_mod_eq, decide_eq_true_eq] at hn
    cases fm <;> simp [FFmt.wd, FFmt.ty, tyWidth, floatFields, floatZero] at hv hn he hm ⊢ <;> omega
  rw [isFloatNan] at hnan
  dsimp only at hnan
  rw [FFmt.decode_eq, hn]
  dsimp only
  split
  · next he => exact .inl (if_pos (not_not.1 fun hm => hnan ⟨he, hm⟩))
  · split
    · next he => exact .inr ⟨_, _, hzero he, rfl⟩
    · exact .inr ⟨_, _, Nat.ne_of_gt (Nat.add_pos_right _ (Nat.two_pow_pos _)), rfl⟩

end

/-! ### Operations -/

section
variable {fm : FFmt} {x z : Nat}

/-- What an addition, a subtraction or a product with a NaN gives (R98). -/
theorem roundOpt_nan {b : Bool} {c : Prop} (h : b = true ↔ c) (rnd : Nat) (sat : Bool) :
    (roundOpt fm.fmt rnd sat (some (.nan b))).1 = floatNan fm.ty ∧ InvalidIff (roundOpt fm.fmt rnd sat (some (.nan b))).2 c :=
  ⟨FFmt.nan_eq fm, invalidIff_raiseIf h⟩

theorem FFmt.isNan_or (h : isFloatNan fm.ty x ∨ isFloatNan fm.ty z) : (fm.fmt.decode x).isNan = true ∨ (fm.fmt.decode z).isNan = true :=
  h.imp (FFmt.decode_isNan x).2 (FFmt.decode_isNan z).2

theorem FFmt.isSnan_or : ((fm.fmt.decode x).isSnan || (fm.fmt.decode z).isSnan) = true ↔ isFloatSnan fm.ty x ∨ isFloatSnan fm.ty z := by
  rw [Bool.or_eq_true, FFmt.decode_isSnan, FFmt.decode_isSnan]

theorem arith_nan (h : isFloatNan fm.ty x ∨ isFloatNan fm.ty z) (rnd : Nat) (sat : Bool) :
    ∀ op ∈ [fAdd fm.fmt rnd sat, fSub fm.fmt rnd sat, fMul fm.fmt rnd sat],
      (op x z).1 = floatNan fm.ty ∧ InvalidIff (op x z).2 (isFloatSnan fm.ty x ∨ isFloatSnan fm.ty z) := by
  have hn := FFmt.isNan_or h
  simp only [List.forall_mem_cons]
  refine ⟨?add, ?sub, ?mul, fun _ hi => absurd hi List.not_mem_nil⟩
  case add =>
    rw [fAdd, Num.add_nan hn]
    exact roundOpt_nan FFmt.isSnan_or rnd sat
  case sub =>
    rw [fSub, Num.add_nan (by rwa [Num.neg_isNan]), Num.neg_isSnan]
    exact roundOpt_nan FFmt.isSnan_or rnd sat
  case mul =>
    rw [fMul, Num.mul_nan hn]
    exact roundOpt_nan FFmt.isSnan_or rnd sat

theorem fFma_nan {y : Nat} (h : isFloatNan fm.ty x ∨ isFloatNan fm.ty y ∨ isFloatNan fm.ty z) (rnd : Nat) (sat : Bool) :
    (fFma fm.fmt rnd sat x y z).1 = floatNan fm.ty := by
  unfold fFma
  cases hp : (fm.fmt.decode x).mul (fm.fmt.decode y) with
  | none => exact FFmt.nan_eq fm
  | some p =>
    have hn : p.isNan = true ∨ (fm.fmt.decode z).isNan = true := by
      rcases or_assoc.2 h with hxy | hz
      · rw [Num.mul_nan (FFmt.isNan_or hxy)] at hp
        cases hp
        exact .inl rfl
      · exact .inr ((FFmt.decode_isNan z).2 hz)
    dsimp only
    rw [Num.add_nan hn]
    exact FFmt.nan_eq fm

/-- A finite value and its opposite add to a zero (R96). -/
theorem fAdd_flip (h : x % 2 ^ (fm.wd - 1) < floatInf fm.ty false) (rnd : Nat) (sat : Bool) :
    fAdd fm.fmt rnd sat x (x ^^^ 2 ^ (fm.wd - 1)) = (floatZero fm.ty (rnd = 3), 0) := by
  obtain ⟨m, e, hx⟩ := FFmt.decode_finite h
  rw [fAdd, FFmt.decode_flip, hx, Num.add_neg_fin]
  exact Prod.ext (FFmt.sign_eq fm _) rfl

/-- A finite value times a zero is a zero (R96). -/
theorem fMul_zero (h : x % 2 ^ (fm.wd - 1) < floatInf fm.ty false) (rnd : Nat) (sat n : Bool) :
    fMul fm.fmt rnd sat x (floatZero fm.ty n) = (floatZero fm.ty (floatNeg fm.ty x != n), 0) := by
  obtain ⟨m, e, hx⟩ := FFmt.decode_finite h
  rw [fMul, hx, FFmt.decode_zero]
  exact Prod.ext (FFmt.sign_eq fm _) rfl

/-- A minimum or maximum with a NaN is the other operand (R98). -/
theorem fMinMax_nan (wantMax : Bool) :
    (isFloatNan fm.ty x → isFloatNan fm.ty z → (fMinMax fm.fmt wantMax x z).1 = floatNan fm.ty) ∧
    (isFloatNan fm.ty x → ¬isFloatNan fm.ty z → (fMinMax fm.fmt wantMax x z).1 = z) ∧
    (¬isFloatNan fm.ty x → isFloatNan fm.ty z → (fMinMax fm.fmt wantMax x z).1 = x) ∧
    (isFloatNan fm.ty x ∨ isFloatNan fm.ty z → InvalidIff (fMinMax fm.fmt wantMax x z).2 (isFloatSnan fm.ty x ∨ isFloatSnan fm.ty z)) := by
  simp only [← FFmt.decode_isNan, ← FFmt.isSnan_or, fMinMax]
  refine ⟨fun hx hz => ?_, fun hx hz => ?_, fun hx hz => ?_, fun h => ?_⟩
  · rw [if_pos hx, if_pos hz]
    exact FFmt.nan_eq fm
  · rw [if_pos hx, if_neg hz]
  · rw [if_neg hx, if_pos hz]
  · split
    · exact invalidIff_raiseIf Iff.rfl
    · next hx => rw [if_pos (h.resolve_left hx)]; exact invalidIff_raiseIf Iff.rfl

/-- The functions of R100 of a NaN. -/
theorem special_nan (h : isFloatNan fm.ty x) (sat : Bool) : ∀ op ∈ [fRcp, fRsq, fExp2, fLog2],
    (op fm.fmt sat x).1 = floatNan fm.ty ∧ InvalidIff (op fm.fmt sat x).2 (isFloatSnan fm.ty x) := by
  obtain ⟨s, hx⟩ := Num.exists_nan ((FFmt.decode_isNan x).2 h)
  have hsnan : s = true ↔ isFloatSnan fm.ty x := by rw [← FFmt.decode_isSnan, hx]; rfl
  have hgives : fm.fmt.nan = floatNan fm.ty ∧ InvalidIff (raiseIf s fInvalid) (isFloatSnan fm.ty x) :=
    ⟨FFmt.nan_eq fm, invalidIff_raiseIf hsnan⟩
  simp only [List.forall_mem_cons, fRcp, fRsq, fExp2, fLog2, hx]
  exact ⟨hgives, hgives, hgives, hgives, fun _ hi => absurd hi List.not_mem_nil⟩

/-- A square root or logarithm of a value below 0 is invalid (R100). -/
theorem special_negative (hx : x < 2 ^ fm.wd) (hnan : ¬isFloatNan fm.ty x) (hn : floatNeg fm.ty x = true) (h0 : x ≠ floatZero fm.ty true)
    (sat : Bool) : fRsq fm.fmt sat x = (floatNan fm.ty, fInvalid) ∧ fLog2 fm.fmt sat x = (floatNan fm.ty, fInvalid) := by
  rw [← FFmt.nan_eq fm]
  rcases FFmt.decode_negative hx hnan hn h0 with hd | ⟨m, e, hm, hd⟩
  · simp only [fRsq, fLog2, hd, if_true]
    exact ⟨rfl, rfl⟩
  · simp only [fRsq, fLog2, hd, hm, if_true, if_false]
    exact ⟨rfl, rfl⟩

end

/-! ### Zeros, infinities and overflow (R96, R97, R100) -/

/-- A mode that rounds an overflow of a sign to infinity. -/
def roundsAway (rnd : Nat) (n : Bool) : Prop := rnd = 0 ∨ (rnd = 2 ∧ n = false) ∨ (rnd = 3 ∧ n = true)

theorem fAdd_big (fm : FFmt) (rnd : BitVec 2) (n : Bool) :
    fAdd fm.fmt rnd.toNat true (floatBig fm.ty n) (floatBig fm.ty n) = (floatBig fm.ty n, fSat ||| fInexact) ∧
    (roundsAway rnd.toNat n →
      fAdd fm.fmt rnd.toNat false (floatBig fm.ty n) (floatBig fm.ty n) = (floatInf fm.ty n, fOverflow ||| fInexact)) ∧
    (¬roundsAway rnd.toNat n →
      fAdd fm.fmt rnd.toNat false (floatBig fm.ty n) (floatBig fm.ty n) = (floatBig fm.ty n, fOverflow ||| fInexact)) := by
  unfold roundsAway
  revert rnd n
  cases fm <;> decide +kernel

/-- Sums and differences of zeros, and of infinities that cancel. -/
theorem arith_fixed (fm : FFmt) (rnd : BitVec 2) (sat n : Bool) :
    fAdd fm.fmt rnd.toNat sat (floatZero fm.ty n) (floatZero fm.ty n) = (floatZero fm.ty n, 0) ∧
    fAdd fm.fmt rnd.toNat sat (floatZero fm.ty n) (floatZero fm.ty !n) = (floatZero fm.ty (rnd.toNat = 3), 0) ∧
    fSub fm.fmt rnd.toNat sat (floatZero fm.ty n) (floatZero fm.ty !n) = (floatZero fm.ty n, 0) ∧
    fAdd fm.fmt rnd.toNat sat (floatInf fm.ty n) (floatInf fm.ty !n) = (floatNan fm.ty, fInvalid) ∧
    fSub fm.fmt rnd.toNat sat (floatInf fm.ty n) (floatInf fm.ty n) = (floatNan fm.ty, fInvalid) := by
  revert rnd sat n
  cases fm <;> decide +kernel

/-- The minimum and the maximum of the two zeros. -/
theorem fMinMax_zeros (fm : FFmt) (n : Bool) :
    fMinMax fm.fmt false (floatZero fm.ty n) (floatZero fm.ty !n) = (floatZero fm.ty true, 0) ∧
    fMinMax fm.fmt true (floatZero fm.ty n) (floatZero fm.ty !n) = (floatZero fm.ty false, 0) := by
  revert n
  cases fm <;> decide +kernel

/-- The functions of R100 of a zero: a reciprocal, a reciprocal root and a logarithm divide by zero, the power is one. -/
theorem special_zero (fm : FFmt) (sat n : Bool) :
    fRcp fm.fmt sat (floatZero fm.ty n) = (floatInf fm.ty n, fDivZero) ∧ fRsq fm.fmt sat (floatZero fm.ty n) = (floatInf fm.ty n, fDivZero) ∧
    fExp2 fm.fmt sat (floatZero fm.ty n) = ((2 ^ ((floatFields fm.ty).1 - 1) - 1) * 2 ^ (floatFields fm.ty).2, 0) ∧
    fLog2 fm.fmt sat (floatZero fm.ty n) = (floatInf fm.ty true, fDivZero) := by
  revert sat n
  cases fm <;> decide +kernel

/-- The functions of R100 of an infinity. -/
theorem special_inf (fm : FFmt) (sat : Bool) :
    (∀ n, fRcp fm.fmt sat (floatInf fm.ty n) = (floatZero fm.ty n, 0)) ∧ fRsq fm.fmt sat (floatInf fm.ty false) = (0, 0) ∧
    fExp2 fm.fmt sat (floatInf fm.ty false) = (floatInf fm.ty false, 0) ∧ fExp2 fm.fmt sat (floatInf fm.ty true) = (0, 0) ∧
    fLog2 fm.fmt sat (floatInf fm.ty false) = (floatInf fm.ty false, 0) := by
  revert sat
  cases fm <;> decide +kernel

end Sys2Proof.Machine
end

section
/-! The float instructions of a lane group (O44). -/

namespace Sys2Proof.Machine

theorem FFmt.wd_fits (fm : FFmt) : fm.wd * perElem fm.wd ≤ 64 := by cases fm <;> decide

/-- A float instruction on the tiles `ts` gives what `op` does on every sub-element of its three sources. -/
def FloatGives (s u : State) (fm : FFmt) (f : LaneW) (l : Lane) (i : Instr) (lat : Nat) (ts : List Nat)
    (op : Nat → Nat → Nat → Nat × Flags) : Prop :=
  LaneGives s u l i ts fun t => ∃ vals fl,
    Elementwise fm.wd (l.act f) op (l.src u false f.va.toNat) (l.src u false f.vb.toNat) (l.flex u f fm.ty) vals fl ∧
      Issued u t l 2 1 (l.withTile lat false f.vd.toNat (l.act f) vals fl)

/-- The sub-element that FCMP compares (R212). -/
def comparedHalf (fm : FFmt) (f : LaneW) : Nat := if fm = .f32 then 0 else f.vb.toNat % 2

/-- FCMP's comparison of element `i`. -/
def Lane.compared (u : State) (l : Lane) (fm : FFmt) (f : LaneW) (i : Nat) : Bool × Flags :=
  fCmp fm.fmt f.op3.toNat (subAt fm.wd (comparedHalf fm f) ((l.src u false f.va.toNat).getD i 0))
    (subAt fm.wd (comparedHalf fm f) ((l.flex u f fm.ty).getD i 0))

theorem compared_eq (u : State) (l : Lane) (fm : FFmt) (f : LaneW) :
    List.zipWith (fun a b => fCmp fm.fmt f.op3.toNat (subAt fm.wd (comparedHalf fm f) a) (subAt fm.wd (comparedHalf fm f) b))
      (l.src u false f.va.toNat) (l.flex u f fm.ty) = (List.range 1024).map (l.compared u fm f) := by
  conv_lhs => rw [← map_range_getD (Lane.src_length u l false f.va.toNat) 0, ← map_range_getD (Lane.flex_length u l f fm.ty) 0,
    List.zipWith_map, List.zipWith_self]
  rfl

/-- A lane's state with the results of a unary F16 instruction pending. -/
def Lane.pended (u : State) (l : Lane) (f : LaneW) (op : Nat → Nat × Flags) : State :=
  pendTile u l 16 false f.vd.toNat (l.act f) ((l.flex u f FFmt.f16.ty).map (elem1 FFmt.f16.wd op))

section
variable {s u : State} {f : LaneW} {l : Lane} (h : Issues s u f l) {fm : FFmt} {i : Instr}
include h

theorem floatBin_gives {lat : Nat} {op : Nat → Nat → Nat × Flags} (hi : exec i s = floatBin s fm f lat op) :
    FloatGives s u fm f l i lat (f.vd.toNat :: f.va.toNat :: flexTiles f false) fun x _ z => op x z :=
  elements_give h (FFmt.wd_fits fm) (elem2_eq (Lane.src_length ..) (Lane.flex_length ..) fm.wd op) hi

theorem floatUn_gives {lat : Nat} {op : Nat → Nat × Flags} (hi : exec i s = floatUn s fm f lat op) :
    FloatGives s u fm f l i lat (f.vd.toNat :: flexTiles f false) fun _ _ z => op z :=
  elements_give h (FFmt.wd_fits fm) (elem1_eq (Lane.flex_length ..) fm.wd op) hi

theorem ffma_gives (fm : FFmt) : FloatGives s u fm f l (.ffma fm f) 8 (f.vd.toNat :: f.va.toNat :: f.vb.toNat :: flexTiles f false)
    (fFma fm.fmt f.rnd.toNat (f.sat = 1)) :=
  elements_give h (FFmt.wd_fits fm) (elem3_eq (Lane.src_length ..) (Lane.src_length ..) (Lane.flex_length ..) fm.wd _) rfl

/-- A form that is not deprecated is a unary instruction. -/
theorem floatUnDep_gives {op : Nat → Nat × Flags} (hfm : fm ≠ .f16) (hi : exec i s = floatUnDep s fm f i op) :
    FloatGives s u fm f l i 16 (f.vd.toNat :: flexTiles f false) fun _ _ z => op z :=
  floatUn_gives h (hi.trans (by simp only [floatUnDep, floatUn, if_neg hfm]))

/-- An F16 form is one too, and is counted once. -/
theorem floatUnDep_counts {op : Nat → Nat × Flags} (hi : exec i s = floatUnDep s .f16 f i op)
    (ht : badTile l (f.vd.toNat :: flexTiles f false) = none) : ∃ t v x y, exec i s = .next t ∧ s.ctx? l.tm.ctx = some x ∧
      t.ctx? l.tm.ctx = some y ∧ y.depcnt = x.depcnt + 1 ∧
      (∃ vals fl, Elementwise FFmt.f16.wd (l.act f) (fun _ _ z => op z) (l.src u false f.va.toNat) (l.src u false f.vb.toNat)
        (l.flex u f FFmt.f16.ty) vals fl ∧ Issued u v l 2 1 (l.withTile 16 false f.vd.toNat (l.act f) vals fl)) ∧
      t.groups = v.groups ∧ t.teams = v.teams ∧ ∀ n, t.hand n = v.hand n := by
  have hu : u.ctxs = s.ctxs := by
    obtain ⟨-, ⟨x, -, -, -, -, rfl⟩, -⟩ := h
    exact landDue_ctxs ..
  have hx : u.ctx? l.tm.ctx = some l.ctx := h.laneAt.ctx
  obtain ⟨hc, hg, hm, hh⟩ := deprecatedDone_spec (v := l.pended u f op) hx f i
  have hexec : exec i s = .next (advance (deprecatedDone (l.pended u f op) l f i) l 2 1) := by
    rw [hi, floatUnDep, fixed, h.onLane_eq]
    exact congrArg _ (withTiles_ok ht ..)
  refine ⟨_, advance (l.pended u f op) l 2 1, l.ctx, _, hexec, by rw [State.ctx?, ← hu]; exact hx, hc, rfl,
    elements_issued h (FFmt.wd_fits .f16) (vals := fun u l => (l.flex u f FFmt.f16.ty).map (elem1 FFmt.f16.wd op))
      (elem1_eq (Lane.flex_length ..) FFmt.f16.wd op), ?groups, hm, fun n => ?hand⟩
  case groups => simp only [advance, updRun_eq, State.updGroup_groups, hg]
  case hand => exact congrArg (fun m => Map.getD m n State.emptyHand) hh

/-- FCMP writes one bit for each element (R212). -/
theorem fcmp_gives (fm : FFmt) : LaneGives s u l (.fcmp fm f) (f.va.toNat :: flexTiles f false) fun t => ∃ v fl,
    (∀ i < 1024, v.getLsbD i = (l.compared u fm f i).1) ∧
      (∀ k, fl.getLsbD k = true ↔ ∃ i < 1024, (l.act f).getLsbD i = true ∧ (l.compared u fm f i).2.getLsbD k = true) ∧
      Issued u t l 2 1 (l.withMask 4 (f.vd.toNat % 16) (l.act f) v fl) := by
  have hissued := pendMask_issued h.laneAt.group 4 (f.vd.toNat % 16) (l.act f) ((List.range 1024).map (l.compared u fm f)) 2
  rw [← compared_eq] at hissued
  refine fixed_gives h rfl ⟨_, _, fun i hi => ?_, fun k => ?_, hissued⟩
  · rw [compared_eq, List.map_map]
    exact bitsMask_getLsbD _ hi
  · rw [compared_eq, List.map_map]
    exact activeFlags_getLsbD ..

/-- FRCPA, where the library serves it, is a reciprocal on every sub-element (R86). -/
theorem frcpa_gives (hs : libraryServes l.ctx l.th l.helper = true) :
    FloatGives s u .f32 f l (.frcpa f) 4 (f.vd.toNat :: flexTiles f false) fun _ _ z => fRcp FFmt.f32.fmt (f.sat = 1) z := by
  have hexec := retiredLane_served h (i := .frcpa f) rfl hs rfl
  exact withTiles_gives hexec fun _ => elements_issued h (FFmt.wd_fits .f32)
    (vals := fun u l => (l.flex u f FFmt.f32.ty).map (elem1 FFmt.f32.wd (fRcp FFmt.f32.fmt (f.sat = 1))))
    (elem1_eq (Lane.flex_length ..) FFmt.f32.wd _)

end

/-- Settles O44: each float instruction does its operation on every sub-element, and the operations keep R96 to R98 and R100. -/
theorem laneFloat : Obligations.LaneFloat := by
  unfold Obligations.LaneFloat
  intro s u f l fm h ty w F c A B C rnd sat add sub mul ffma gives bin un
  have hty : ty = fm.ty := by cases fm <;> rfl
  have hw : w = fm.wd := by cases fm <;> rfl
  clear_value ty w
  subst hty hw
  have hsign : fm.fmt.sign true = 2 ^ (fm.wd - 1) := by cases fm <;> rfl
  have hun {i : Instr} {lat : Nat} (op : Nat → Nat × Flags) {op' : Nat → Nat × Flags} (hi : exec i s = floatUn s fm f lat op)
      (hop : ∀ z, op z = op' z) : un i lat op' := by
    obtain rfl : op = op' := funext hop
    exact floatUn_gives h hi
  obtain ⟨hrcpInf, hrsqInf, hexpInf, hexpNegInf, hlogInf⟩ := special_inf fm sat
  refine ⟨⟨fun n => ?zeros, hrsqInf, hexpInf, hexpNegInf, hlogInf, fun x hx z hz => ?rules⟩, floatBin_gives h rfl, floatBin_gives h rfl,
    floatBin_gives h rfl, ffma_gives h fm, floatBin_gives h rfl, floatBin_gives h rfl, ?fabs, ?fneg, floatUn_gives h rfl, floatUn_gives h rfl,
    fun hfm => ⟨floatUnDep_gives h hfm rfl, floatUnDep_gives h hfm rfl⟩, fun hfm ht => ?deprecated, fcmp_gives h fm, fun hs hfm => ?frcpa,
    retiredLane_unserved h rfl⟩
  case zeros =>
    obtain ⟨hbig, haway, hnear⟩ := fAdd_big fm f.rnd n
    obtain ⟨hzz, hzn, hsub, hii, hisub⟩ := arith_fixed fm f.rnd sat n
    obtain ⟨hmin, hmax⟩ := fMinMax_zeros fm n
    obtain ⟨hrcp, hrsq, hexp, hlog⟩ := special_zero fm sat n
    refine ⟨fun hs => ?big, fun hs ha => ?away, fun hs ha => ?near, hzz, hzn, hsub, hii, hisub, hmin, hmax, hrcp, hrsq, hexp, hlog,
      hrcpInf n⟩
    all_goals clear_value sat; subst hs
    case big => exact hbig
    case away => exact haway ha
    case near => exact hnear ha
  case rules =>
    refine ⟨fun hn => arith_nan hn rnd sat, fun y _ hn => fFma_nan hn rnd sat, fun hfin => ⟨fAdd_flip hfin rnd sat, fMul_zero hfin rnd sat _⟩,
      fun wantMax r hr => ?minMax, fun hn => special_nan hn sat, fun hnan hn h0 => special_negative hx hnan hn h0 sat⟩
    case minMax =>
      subst hr
      exact fMinMax_nan wantMax
  case fabs => exact hun (fun z => (fAbs fm.fmt z, 0)) rfl fun z => by rw [fAbs, hsign]
  case fneg => exact hun (fun z => (fNeg fm.fmt z, 0)) rfl fun z => by rw [fNeg, hsign]
  case deprecated =>
    subst hfm
    simp only [List.forall_mem_cons]
    exact ⟨floatUnDep_counts h rfl ht, floatUnDep_counts h rfl ht, fun _ hp => absurd hp List.not_mem_nil⟩
  case frcpa =>
    subst hfm
    exact frcpa_gives h hs

end Sys2Proof.Machine
end

section
/-! The store whose byte an older dirty byte of the same line replaces (R127, R131, R140), against the statements on stores and on the loads
that follow them (O25, O26). -/

namespace Sys2Proof.Machine

/-- Its byte may be written at its home: the buffered store of `staleState` performs. -/
theorem accessComplete_staleState :
    exec (.accessComplete ⟨0, 0, 0⟩ 0) staleState =
      .next ((performStore staleState staleCore byteStore).updThread ⟨0, 0, 0⟩ fun th => { th with buffer := th.buffer.eraseIdx 0 }) := rfl

/-- It is all that a drain of its thread performs. -/
theorem drain_staleState_eq :
    drain staleState staleCore = (performStore staleState staleCore byteStore).updThread ⟨0, 0, 0⟩ fun th => { th with buffer := [] } := rfl

/-- Once it has performed, its byte stands neither at its home nor in a cache. -/
theorem byteStore_lost : ¬Holds staleState (performStore staleState staleCore byteStore) 0 7 := by
  obtain ⟨hmem, hlines⟩ := drain_staleState
  rw [drain_staleState_eq, State.updThread_mem] at hmem
  rw [drain_staleState_eq, State.updThread_caches] at hlines
  rintro (hhome | hdirty | hlog | htag)
  · exact absurd (hmem.symm.trans hhome) (by decide)
  · exact not_dirtyByte_of_above hlines 7 hdirty
  · exact staleState_noLog 0 hlog
  · exact htag rfl

/-- A thread's change moves no byte. -/
theorem holds_updThread {s t : State} {a : Nat} {v : Byte} {r : ThreadRef} {f : Thread → Thread} :
    Holds s (t.updThread r f) a v ↔ Holds s t a v := Iff.rfl

/-- Refutes O25: a store that ACCESS_COMPLETE performs need not leave its byte anywhere. In `staleState` the store of byte 7 to address 0
may perform. The line of its home grows past the ways of its set; a line of die 1 leaves the set for it, and at its own home that one makes
the copy of line 0 leave, whose older dirty byte 9 replaces the 7. -/
theorem not_stores : ¬ Obligations.Stores := by
  unfold Obligations.Stores
  rintro ⟨-, hcomplete⟩
  obtain ⟨-, hgo⟩ := hcomplete staleState ⟨0, 0, 0⟩ staleCore 0 byteStore rfl rfl
  obtain ⟨hperforms, -⟩ := hgo rfl
  obtain ⟨u, hexec, -, -, hstored⟩ := hperforms rfl rfl
  obtain rfl := Host.Outcome.next.inj (accessComplete_staleState.symm.trans hexec)
  exact byteStore_lost (holds_updThread.1 (hstored staleState_cachesOk (by decide) 0 7 rfl))

/-- A load of that byte reads the older one. -/
theorem readAt_writeAt_staleState :
    (readAt (writeAt staleState 0 0 { engine := 0, hand := 0 } 0 0 [7] 3 0) 0 0 1 3 0).2 = [9] := by decide +kernel

/-- Refutes O26: a thread's load need not read its own earlier store, though the line's sectors are VAL, its copies are whole and no undo log
is valid. The store of byte 7 to address 0 in `staleState` makes the copy of line 0 leave a slice of die 1, whose older dirty byte 9 goes to
the home, which the load then reads. -/
theorem not_loadsSeeStores : ¬ Obligations.LoadsSeeStores := by
  unfold Obligations.LoadsSeeStores
  rintro ⟨hreads, -⟩
  have hread := hreads staleState 0 0 { engine := 0, hand := 0 } 0 0 3 0 [7] (by decide) staleState_cachesOk (by decide) (by decide)
    fun i _ => staleState_noLog (0 + i)
  exact absurd (readAt_writeAt_staleState.symm.trans hread) (by decide)

end Sys2Proof.Machine
end

section
/-! A chain whose next link word the copy's own release brings to the home (R48, R50, R149, R162), against the statement on copy queues
(O52). -/

namespace Sys2Proof.Machine

/-- A command at .DV. -/
def lineEndCmd : Instr := .cpG2p { copyWord .copyNop with scope := 3 }

/-- The last command of a line of a chain: its writes have performed. -/
def lineEndCopy : Copy :=
  { wordCopy with cmd := some lineEndCmd, chain := some ⟨14, false, false⟩, issued := true, performed := true }

/-- The chain runs in line 0 of its image, which no instruction memory holds and which lies at address 0 of device memory, where every byte
is 0. The L1 of its hand holds byte 3 of that line dirty, with the END bit set. -/
def staleLinkState : State :=
  { State.reset with
    teams := [(teamKey ⟨0, 0⟩, wordTeam false)]
    ctxs := [(0, wordCtx)]
    hands := [(0, { State.emptyHand with near := [lineEndCopy], tlb := [⟨0, 0, 4096, 0, false, true, true, true⟩] })]
    caches := [(0, [(0, ⟨List.replicate 128 8, 8, 0, 0, false, 0⟩)])] }

/-- As the state stands, the chain goes on in line 0. -/
theorem next_staleLinkState : nextOf (linkedLine staleLinkState 0 0 0 0) 14 2 = 1 := by decide +kernel

/-- The entry of the copy has left the queue. -/
def copyGone (r : Res) : Bool :=
  match r with
  | .next t => (copyOf? t 0 false 1).isNone
  | _ => false

/-- The release makes it the chain's last line. -/
theorem copyComplete_staleLinkState : copyGone (exec (.copyComplete 0 false 1) staleLinkState) = true := by decide +kernel

/-- Refutes O52: the place at which a chain goes on is not the one that its line gives before the copy's release. In `staleLinkState` the
chain stands at the end of line 0, whose link word in device memory names line 0; the release of COPY_COMPLETE writes a dirty byte of that
line back, which sets END, and only then the link word is read: the chain has ended. -/
theorem not_copyQueues : ¬ Obligations.CopyQueues := by
  unfold Obligations.CopyQueues
  rintro ⟨-, -, hcopy⟩
  obtain ⟨-, -, hcomplete, -⟩ := hcopy staleLinkState 0 1 false lineEndCopy lineEndCmd rfl rfl
  obtain ⟨-, hgo⟩ := hcomplete (wordTeam false) rfl rfl rfl
  obtain ⟨u, hexec, -, -, -, -, -, hchain⟩ := hgo (by rintro (⟨w, imm, h, -⟩ | h) <;> cases h) (by decide)
  obtain ⟨-, hmore⟩ := hchain ⟨14, false, false⟩ rfl rfl
  have hnext : nextOf (linkedLine staleLinkState 0 0 0 0) 14 2 % 16 ≠ 0 := by rw [next_staleLinkState]; decide
  obtain ⟨y, hy, -⟩ := hmore hnext
  have hgone := copyComplete_staleLinkState
  rw [hexec, copyGone, hy] at hgone
  cases hgone

end Sys2Proof.Machine
end

section
/-! Accesses beside a served thread and the locks: what they leave of both, and that a thread's buffered stores perform at most once. -/

namespace Sys2Proof

/-- Two changes of one entry are one. -/
theorem Map.modify_modify {α : Type} (m : Map α) (k : Nat) (f g : α → α) : Map.modify (Map.modify m k f) k g = Map.modify m k (g ∘ f) := by
  simp only [Map.modify, List.map_map]
  refine List.map_congr_left fun p _ => ?_
  by_cases h : p.1 = k <;> simp [h]

namespace Machine

theorem updThread_updThread (s : State) (r : ThreadRef) (f g : Thread → Thread) : (s.updThread r f).updThread r g = s.updThread r (g ∘ f) := by
  simp only [State.updThread, Map.modify_modify]

@[simp] theorem wx_buffer (th : Thread) (d : R5) (v : W64) : (th.wx d v).buffer = th.buffer := by
  unfold Thread.wx; split <;> rfl

@[simp] theorem wx_holds (th : Thread) (d : R5) (v : W64) : (th.wx d v).holds = th.holds := by
  unfold Thread.wx; split <;> rfl

/-! ### The thread and the locks after accesses -/

theorem Keeps.withLocks {s t : State} (h : Keeps s t) (m : Map Lock) : Keeps { s with locks := m } { t with locks := m } :=
  ⟨congrArg (fun x : State => { x with locks := m }) h.kept, h.hands, h.dies, h.ctxs, h.mem, h.host⟩

theorem Keeps.locks {s t : State} (h : Keeps s t) : t.locks = s.locks := by
  have e := congrArg State.locks h.kept; exact e

theorem Keeps.thread? {s t : State} (h : Keeps s t) (r : ThreadRef) : t.thread? r = s.thread? r := by
  rw [State.thread?, State.thread?, h.threads]

/-- What accesses leave beside a change of the served thread and of the locks. -/
theorem Keeps.frame {s u : State} {k : Core} {f : Thread → Thread} {m : Map Lock} (h : Keeps { s.updThread k.ref f with locks := m } u)
    (hk : s.thread? k.ref = some k.th) :
    u.thread? k.ref = some (f k.th) ∧ otherThreads s u k.ref ∧ MemOnly s { u with threads := s.threads, locks := s.locks } ∧ u.locks = m := by
  have ht (q : ThreadRef) : u.thread? q = (s.updThread k.ref f).thread? q := h.thread? q
  refine ⟨?_, fun q hq => ?_, ((h.withThreads s.threads).withLocks s.locks).memOnly, h.locks⟩
  · rw [ht, State.thread?_updThread, if_pos rfl, hk]; rfl
  · rw [ht, State.thread?_updThread, if_neg hq]

/-- What accesses leave beside a change of the served thread alone. -/
theorem Keeps.performed {s u : State} {k : Core} {f : Thread → Thread} (h : Keeps (s.updThread k.ref f) u) (hk : s.thread? k.ref = some k.th) :
    Performed s u k (f k.th) := by
  obtain ⟨ht, ho, -, -⟩ := Keeps.frame (m := s.locks) h hk
  exact ⟨ht, ho, (h.withThreads s.threads).memOnly⟩

theorem noStore_updThread (s : State) (r : ThreadRef) (f : Thread → Thread) : NoStore s (s.updThread r f) :=
  .of_eq rfl rfl rfl le_rfl (fun _ => rfl) fun _ => rfl

theorem retire_noStore (s : State) (k : Core) (w : Nat) (f : Thread → Thread) : NoStore s (retire s k w f) := noStore_updThread ..

theorem noStore_locks (s : State) (m : Map Lock) : NoStore s { s with locks := m } :=
  .of_eq rfl rfl rfl le_rfl (fun _ => rfl) fun _ => rfl

/-! ### Stores that perform on the way (R155, R156) -/

/-- A thread whose buffered stores have performed. -/
def Thread.emptied (th : Thread) : Thread := { th with buffer := [] }

/-- Between `s` and `t` only accesses were made, among them perhaps all the buffered stores of the thread `k`. -/
def Drains (s t : State) (k : Core) : Prop := Keeps s t ∨ Keeps (s.updThread k.ref Thread.emptied) t

theorem emptied_emptied : Thread.emptied ∘ Thread.emptied = Thread.emptied := rfl

theorem Drains.trans {s t u : State} {k : Core} (h : Drains s t k) (g : Drains t u k) : Drains s u k := by
  rcases h with h | h <;> rcases g with g | g
  · exact .inl (h.trans g)
  · exact .inr ((h.updThread ..).trans g)
  · exact .inr (h.trans g)
  · refine .inr (Keeps.trans ?_ g)
    have h' := h.updThread k.ref Thread.emptied
    rwa [updThread_updThread, emptied_emptied] at h'

theorem Keeps.drains {s t : State} (h : Keeps s t) (k : Core) : Drains s t k := .inl h

/-- The thread after them, changed by `g`, which leaves its buffer alone. -/
theorem Drains.updThread {s t : State} {k : Core} (h : Drains s t k) (g : Thread → Thread) :
    ∃ e, (e = id ∨ e = Thread.emptied) ∧ Keeps (s.updThread k.ref (g ∘ e)) (t.updThread k.ref g) := by
  rcases h with h | h
  · exact ⟨id, .inl rfl, h.updThread ..⟩
  · have h' := h.updThread k.ref g
    rw [updThread_updThread] at h'
    exact ⟨Thread.emptied, .inr rfl, h'⟩

theorem performStore_keeps (s : State) (k : Core) (b : Store) : Keeps s (performStore s k b) := writeTgt_keeps ..

theorem drain_drains (s : State) (k : Core) : Drains s (drain s k) k := by
  unfold drain
  split
  · next th _ => exact .inr ((Keeps.foldl (fun s b => performStore_keeps s k b) th.buffer s).updThread ..)
  · exact .inl (.refl s)

theorem drainFor_drains (s : State) (k : Core) (t : Tgt) (n : Nat) (home : Bool) : Drains s (drainFor s k t n home) k := by
  unfold drainFor
  split
  · exact drain_drains s k
  · exact .inl (.refl s)

/-- The words of a record are read by accesses. -/
theorem loadWords_drains (s : State) (k : Core) (scope : Nat) (addr : W64) (n : Nat) : Drains s (loadWords s k scope addr n).1 k := by
  induction n generalizing s addr with
  | zero => exact .inl (.refl s)
  | succ n ih =>
    have hcheck := checkAccess_keeps s k.actor .load 0 scope 8 8 false addr true
    unfold loadWords
    split
    case h_2 e => rw [e] at hcheck; exact hcheck.drains k
    case h_1 v t e =>
      rw [e] at hcheck
      replace hcheck : Drains s v k := hcheck.drains k
      have hload : Drains s (loadTgt (drainFor v k t 8) k.actor t addr 8 0 scope 0 0).1 k :=
        hcheck.trans ((drainFor_drains v k t 8 false).trans ((loadTgt_keeps ..).drains k))
      split
      · exact hcheck
      · split
        all_goals
          rename_i hanswer
          rw [hanswer] at hload
        · have hrest := hload.trans (ih _ (addr + 8))
          split
          · next e'' => rw [e''] at hrest; exact hrest
          · exact hrest
        all_goals exact hload

end Machine

end Sys2Proof
end

section
/-! Hardware locks (R168, R254-R257): the moves of bound ranges, a grant, a release, and the binding of ranges. -/

namespace Sys2Proof.Machine

/-! ### Bound ranges (R168, R257) -/

/-- The lines of a range of device memory are recalled from every cache. -/
def recallRange (s : State) (pa n : Nat) : State := (List.range (n / 64 + 2)).foldl (fun s i => recallLine s (alignDown (pa + 64 * i) 128)) s

theorem recallRange_keeps (s : State) (pa n : Nat) : Keeps s (recallRange s pa n) := .foldl (fun _ _ => recallLine_keeps ..) _ s

theorem recallRange_noStore (s : State) (pa n : Nat) : NoStore s (recallRange s pa n) := Flows.foldl (fun _ _ => recallLine_noStore ..) _ s

theorem pushChunk_keeps (h : Nat) (s : State) (b : Tgt × Nat × Nat) : Keeps s (pushChunk h s b) := by
  unfold pushChunk
  split
  · exact (recallRange_keeps ..).trans ((scratchWrite_keeps ..).trans (keeps_updHand _ _ _ rfl))
  · exact scratchWrite_keeps ..
  · exact .refl s

/-- A pushed range of device memory stands in the scratchpad as its home holds it once every cache has given its bytes back. -/
theorem pushChunk_scratch (s : State) (h pa off len : Nat) :
    ((pushChunk h s (.dev pa, off, len)).hand h).scratch =
      Memory.write (s.hand h).scratch off (Memory.read (recallRange s pa len).mem pa len) := by
  show ((((scratchWrite (recallRange s pa len) h off (Memory.read (recallRange s pa len).mem pa len)).updHand h _)).hand h).scratch = _
  rw [State.hand_updHand, if_pos rfl, scratchWrite, State.hand_updHand, if_pos rfl]
  exact congrArg (Memory.write · off _) ((recallRange_noStore s pa len).scratch h)

theorem pullChunk_keeps (c h : Nat) (s : State) (b : Tgt × Nat × Nat) : Keeps s (pullChunk c h s b) := by
  unfold pullChunk
  dsimp only
  split
  · exact (recallRange_keeps ..).trans ((homeStore_keeps ..).trans (spoil_keeps ..))
  · exact keeps_hostWrite ..
  · exact .refl s

theorem bindRange_keeps (s : State) (c h va off fuel len : Nat) : Keeps s (bindRange s c h va off fuel len).1 := by
  induction fuel generalizing s va off len with
  | zero => exact .refl s
  | succ n ih =>
    have hcheck := checkVirtual_keeps s c h true .atomic va false
    unfold bindRange
    split
    · exact .refl s
    · dsimp only
      split
      · next e =>
        rw [e] at hcheck
        have hrest := hcheck.trans (ih _ (va + min len (4096 - va % 4096)) (off + min len (4096 - va % 4096)) (len - min len (4096 - va % 4096)))
        split
        · next e' => rw [e'] at hrest; exact hrest
        · exact hrest
      · next e => rw [e] at hcheck; exact hcheck

theorem bindEntries_keeps (s : State) (k : Core) (es : List (W64 × W64)) (i : Nat) : Keeps s (bindEntries s k es i).1 := by
  induction es generalizing s i with
  | nil => exact .refl s
  | cons p es ih =>
    have hrange := bindRange_keeps s k.tm.ctx k.ref.hand p.1.toNat (bits p.2 31 0) 258 (bits p.2 63 32)
    unfold bindEntries
    split
    · exact .refl s
    · split
      · next e => rw [e] at hrange; exact hrange
      · next e =>
        rw [e] at hrange
        have hrest := hrange.trans (ih _ (i + 1))
        split
        · next e' => rw [e'] at hrest; exact hrest
        · exact hrest

/-! ### Updates of one lock -/

theorem updLock_eq (s : State) (n : Nat) (f : Lock → Lock) : updLock s n f = { s with locks := s.locks.set n (f (lockOf s n)) } := rfl

theorem lockOf_keeps {s t : State} (h : Keeps s t) (n : Nat) : lockOf t n = lockOf s n := by
  rw [lockOf, lockOf, h.locks]

/-- A lock changed after accesses, as a change of the locks before them. -/
theorem updLock_keeps {s t : State} (h : Keeps s t) (n : Nat) (f : Lock → Lock) :
    Keeps { s with locks := s.locks.set n (f (lockOf s n)) } (updLock t n f) := by
  rw [updLock_eq, lockOf_keeps h, h.locks]
  exact h.withLocks _

/-! ### Grants (R168, R255) -/

/-- The thread that LKACQ gives a lock to, under hold number `n`. -/
def Thread.granted (th : Thread) (k : Core) (lk : Nat) (d : R5) (n : BitVec 32) : Thread :=
  { th.wx d (n.setWidth 64) with pc := k.next 1, wait := .none, holds := (th.wx d (n.setWidth 64)).holds.set lk n }

theorem granted_eq (k : Core) (lk : Nat) (d : R5) (n : BitVec 32) (th : Thread) :
    th.granted k lk d n = { th.wx d (n.setWidth 64) with pc := k.next 1, wait := .none, holds := th.holds.set lk n } := by
  rw [Thread.granted, wx_holds]

/-- The lock as the thread `r` holds it under its next hold number. -/
def Lock.granted (l : Lock) (r : ThreadRef) : Lock :=
  { l with holder := some r, queue := l.queue.filter fun q => q ≠ r, count := nextHold l.count }

/-- A grant moves the bound ranges, changes the lock, acquires at .DV, and retires the LKACQ. -/
theorem grantLock_eq (s : State) (k : Core) (lk : Nat) (d : R5) :
    grantLock s k lk d = (acquireAt (updLock ((lockOf s lk).bind.foldl (pushChunk k.ref.hand) s) lk fun l =>
      { l with holder := some k.ref, queue := l.queue.filter fun q => q ≠ k.ref, count := nextHold (lockOf s lk).count }) k.ref.hand 3).updThread
        k.ref fun th => th.granted k lk d (nextHold (lockOf s lk).count) := rfl

theorem grantLock_keeps (s : State) (k : Core) (lk : Nat) (d : R5) :
    Keeps { s.updThread k.ref fun th => th.granted k lk d (nextHold (lockOf s lk).count) with
      locks := s.locks.set lk ((lockOf s lk).granted k.ref) } (grantLock s k lk d) := by
  rw [grantLock_eq]
  have hpush : Keeps s ((lockOf s lk).bind.foldl (pushChunk k.ref.hand) s) := .foldl (pushChunk_keeps k.ref.hand) _ s
  exact ((updLock_keeps hpush lk fun l =>
    { l with holder := some k.ref, queue := l.queue.filter fun q => q ≠ k.ref, count := nextHold (lockOf s lk).count }).trans
      (acquireAt_keeps ..)).updThread k.ref fun th => th.granted k lk d (nextHold (lockOf s lk).count)

theorem acquiredAt_updThread {s : State} {r : ThreadRef} {f : Thread → Thread} {h scope : Nat} :
    acquiredAt (s.updThread r f) h scope ↔ acquiredAt s h scope := Iff.rfl

theorem releasedAt_updThread {s : State} {r : ThreadRef} {f : Thread → Thread} {h scope : Nat} :
    releasedAt (s.updThread r f) h scope ↔ releasedAt s h scope := Iff.rfl

theorem releasedAt_updLock {s : State} {n : Nat} {f : Lock → Lock} {h scope : Nat} :
    releasedAt (updLock s n f) h scope ↔ releasedAt s h scope := Iff.rfl

theorem grantLock_acquired (s : State) (k : Core) (lk : Nat) (d : R5) (h : k.ref.hand < 256) : acquiredAt (grantLock s k lk d) k.ref.hand 3 := by
  rw [grantLock_eq, acquiredAt_updThread]
  exact acquireAt_acquired _ _ _ h

/-- What follows the push of the ranges stores nothing. -/
theorem grantLock_noStore_push (s : State) (k : Core) (lk : Nat) (d : R5) :
    NoStore ((lockOf s lk).bind.foldl (pushChunk k.ref.hand) s) (grantLock s k lk d) := by
  rw [grantLock_eq]
  exact ((noStore_locks ..).trans (acquireAt_noStore ..)).trans (noStore_updThread ..)

/-! ### Releases (R168, R256) -/

/-- The thread that LKREL has let go of a lock. -/
def Thread.released (k : Core) (lk : Nat) (th : Thread) : Thread := { th with pc := k.next 1, wait := .none, holds := th.holds.erase lk }

/-- A release as one change of the thread after the moves of the bound ranges. -/
theorem retire_releaseLock (s : State) (k : Core) (lk : Nat) :
    retire (releaseLock s k lk) k 1 (fun th => { th with holds := th.holds.erase lk }) =
      (updLock (releaseAt ((lockOf s lk).bind.foldl (pullChunk k.tm.ctx k.ref.hand) (drain s k)) k.ref.hand 3) lk
        fun l => { l with holder := none }).updThread k.ref (Thread.released k lk) := rfl

theorem drain_keeps {s : State} {k : Core} (h : s.thread? k.ref = some k.th) : Keeps (s.updThread k.ref Thread.emptied) (drain s k) := by
  rw [drain_eq h]
  exact (storesPerformed_keeps s k).updThread ..

theorem releaseLock_keeps {s : State} {k : Core} (h : s.thread? k.ref = some k.th) (lk : Nat) :
    Keeps { s.updThread k.ref (Thread.released k lk ∘ Thread.emptied) with locks := s.locks.set lk { lockOf s lk with holder := none } }
      (retire (releaseLock s k lk) k 1 fun th => { th with holds := th.holds.erase lk }) := by
  have hpull : Keeps (s.updThread k.ref Thread.emptied)
      (releaseAt ((lockOf s lk).bind.foldl (pullChunk k.tm.ctx k.ref.hand) (drain s k)) k.ref.hand 3) :=
    (drain_keeps h).trans ((Keeps.foldl (pullChunk_keeps _ _) _ _).trans (releaseAt_keeps ..))
  have hall := (updLock_keeps hpull lk fun l => { l with holder := none }).updThread k.ref (Thread.released k lk)
  have hsource : { s.updThread k.ref (Thread.released k lk ∘ Thread.emptied) with locks := s.locks.set lk { lockOf s lk with holder := none } } =
      ({ s.updThread k.ref Thread.emptied with locks := s.locks.set lk { lockOf s lk with holder := none } } : State).updThread k.ref
        (Thread.released k lk) :=
    congrArg (fun v : State => { v with locks := s.locks.set lk { lockOf s lk with holder := none } })
      (updThread_updThread s k.ref Thread.emptied (Thread.released k lk)).symm
  rw [retire_releaseLock, hsource]
  exact hall

theorem releaseLock_released (s : State) (k : Core) (lk : Nat) (h : k.ref.hand < 256) : releasedAt (releaseLock s k lk) k.ref.hand 3 := by
  rw [releaseLock, releasedAt_updLock]
  exact releaseAt_released _ _ _ h

/-- Without bound ranges a release only writes back. -/
theorem releaseLock_noStore {s : State} {k : Core} {lk : Nat} (h : (lockOf s lk).bind = []) : NoStore (drain s k) (releaseLock s k lk) := by
  rw [releaseLock, h, updLock_eq]
  exact (releaseAt_noStore ..).trans (noStore_locks ..)

end Sys2Proof.Machine
end

section
/-! The instructions on hardware locks and LOCK_GRANT by their cases, and the statement about them (O32). -/

namespace Sys2Proof.Machine

/-! ### The cases of the instructions -/

theorem lockNo_eq (v : W64) : bits v 11 0 = v.toNat % 2 ^ 12 := by rw [bits_eq]; simp

/-- The queue of a lock that a thread has joined at its end. -/
def Lock.queued (l : Lock) (r : ThreadRef) : Lock := { l with queue := l.queue ++ [r] }

/-- A thread waits for a lock, in whose queue it stands last. -/
theorem stall_queued {s : State} {k : Core} {lk : Nat} (hq : k.ref ∉ (lockOf s lk).queue) (d : R5) :
    stall (updLock s lk fun l => { l with queue := if l.queue.contains k.ref then l.queue else l.queue ++ [k.ref] }) k (.lkacq d lk) =
      { s.updThread k.ref (fun th => { th with wait := .lkacq d lk }) with locks := s.locks.set lk ((lockOf s lk).queued k.ref) } := by
  have hc : (lockOf s lk).queue.contains k.ref = false := by simpa using hq
  rw [stall, updLock_eq, hc]
  rfl

section
variable {s : State} {k : Core} (hk : s.core = some k) {a : R5}
include hk

/-- A lock that the context has not been given is out of range (R254). -/
theorem lock_range {lk : Nat} (hlk : lk = (k.th.rx a).toNat % 2 ^ 12) (hl : lk ∉ k.ctx.locks) {d b : R5} {i : Instr}
    (hi : i = .lkacq d a ∨ i = .lkrel a ∨ (k.ctx.privileged = true ∧ i = .lkbind d a b)) :
    exec i s = .next (threadFault s k .lockRange 0 (BitVec.ofNat 64 lk) 0) := by
  subst hlk
  have hc : (!k.ctx.locks.contains ((k.th.rx a).toNat % 2 ^ 12)) = true := by simpa using hl
  rcases hi with rfl | rfl | ⟨hp, rfl⟩
  · show execLkacq d a s = _
    rw [execLkacq, onCore_eq hk]
    simp only [lockNo_eq, hc, if_true]
  · show execLkrel a s = _
    rw [execLkrel, onCore_eq hk]
    simp only [lockNo_eq, hc, if_true]
  · show execLkbind d a b s = _
    rw [execLkbind, onCore_eq hk]
    simp only [privileged, hp, lockNo_eq, hc, if_true]

section
variable (hl : (k.th.rx a).toNat % 2 ^ 12 ∈ k.ctx.locks) (hd : dieRefuses s ((k.th.rx a).toNat % 2 ^ 12 / 1024 % 4) = false)
include hl hd

/-- LKACQ of a lock that its die answers for. -/
theorem lkacq_eq (d : R5) : exec (.lkacq d a) s = .next (
    let lk := (k.th.rx a).toNat % 2 ^ 12
    let l := lockOf s lk
    if l.holder = some k.ref then threadFault s k .lockHeld 0 (BitVec.ofNat 64 lk) 0
    else if l.holder = none ∧ (l.queue = [] ∨ l.queue.head? = some k.ref) then tryGrant s k lk d
    else if (k.th.rx a).toNat / 2 ^ 16 % 2 = 1 then retireX s k 1 d 0
    else stall (updLock s lk fun l => { l with queue := if l.queue.contains k.ref then l.queue else l.queue ++ [k.ref] }) k (.lkacq d lk)) := by
  have hc : (!k.ctx.locks.contains ((k.th.rx a).toNat % 2 ^ 12)) = false := by simpa using hl
  have ht : bits (k.th.rx a) 16 16 = (k.th.rx a).toNat / 2 ^ 16 % 2 := bits_eq ..
  show execLkacq d a s = _
  rw [execLkacq, onCore_eq hk]
  simp only [lockNo_eq, ht, hc, lockDie, hd, Bool.false_eq_true, if_false, Bool.and_eq_true, Bool.or_eq_true, Option.isNone_iff_eq_none,
    List.isEmpty_iff, decide_eq_true_eq]

/-- LKACQ of a free lock with no one before the thread asks for a grant (R255). -/
theorem lkacq_free (hh : (lockOf s ((k.th.rx a).toNat % 2 ^ 12)).holder = none)
    (hq : (lockOf s ((k.th.rx a).toNat % 2 ^ 12)).queue = [] ∨ (lockOf s ((k.th.rx a).toNat % 2 ^ 12)).queue.head? = some k.ref) (d : R5) :
    exec (.lkacq d a) s = .next (tryGrant s k ((k.th.rx a).toNat % 2 ^ 12) d) := by
  rw [lkacq_eq hk hl hd]
  simp only [hh, hq, reduceCtorEq, and_self, if_true, if_false]

/-- LKREL by another thread than the holder faults (R256). -/
theorem lkrel_other (h : (lockOf s ((k.th.rx a).toNat % 2 ^ 12)).holder ≠ some k.ref) :
    exec (.lkrel a) s = .next (threadFault s k .lockOwner 0 (BitVec.ofNat 64 ((k.th.rx a).toNat % 2 ^ 12)) 0) := by
  have hc : (!k.ctx.locks.contains ((k.th.rx a).toNat % 2 ^ 12)) = false := by simpa using hl
  show execLkrel a s = _
  rw [execLkrel, onCore_eq hk]
  simp only [lockNo_eq, hc, lockDie, hd, Bool.false_eq_true, if_false, h, ne_eq, not_false_eq_true, if_true]

/-- LKREL waits for a copy or a route (R161, R372). -/
theorem lkrel_waits (h : (lockOf s ((k.th.rx a).toNat % 2 ^ 12)).holder = some k.ref)
    (hb : bindStop s k.ref.hand (lockOf s ((k.th.rx a).toNat % 2 ^ 12)) = some .waits) : exec (.lkrel a) s = .next s := by
  have hc : (!k.ctx.locks.contains ((k.th.rx a).toNat % 2 ^ 12)) = false := by simpa using hl
  show execLkrel a s = _
  rw [execLkrel, onCore_eq hk]
  simp only [lockNo_eq, hc, lockDie, hd, Bool.false_eq_true, if_false, h, ne_eq, not_true_eq_false, hb]

/-- LKREL by the holder, where the bound ranges and the buffered stores can be written (R256). -/
theorem lkrel_releases (h : (lockOf s ((k.th.rx a).toNat % 2 ^ 12)).holder = some k.ref)
    (hb : bindStop s k.ref.hand (lockOf s ((k.th.rx a).toNat % 2 ^ 12)) = none) (hs : drainStop s k = none) :
    exec (.lkrel a) s =
      .next (retire (releaseLock s k ((k.th.rx a).toNat % 2 ^ 12)) k 1 fun th => { th with holds := th.holds.erase ((k.th.rx a).toNat % 2 ^ 12) }) := by
  have hc : (!k.ctx.locks.contains ((k.th.rx a).toNat % 2 ^ 12)) = false := by simpa using hl
  show execLkrel a s = _
  rw [execLkrel, onCore_eq hk]
  simp only [lockNo_eq, hc, lockDie, hd, Bool.false_eq_true, if_false, h, ne_eq, not_true_eq_false, hb, hs]

section
variable (hp : k.ctx.privileged = true)
include hp

/-- LKBIND of a lock that is held or asked for changes nothing (R257). -/
theorem lkbind_busy (h : (lockOf s ((k.th.rx a).toNat % 2 ^ 12)).holder ≠ none ∨ (lockOf s ((k.th.rx a).toNat % 2 ^ 12)).queue ≠ []) (d b : R5) :
    exec (.lkbind d a b) s = .next (retireX s k 1 d 0) := by
  have hc : (!k.ctx.locks.contains ((k.th.rx a).toNat % 2 ^ 12)) = false := by simpa using hl
  have hbusy : ((lockOf s ((k.th.rx a).toNat % 2 ^ 12)).holder.isSome || !(lockOf s ((k.th.rx a).toNat % 2 ^ 12)).queue.isEmpty) = true := by
    simpa [Option.isSome_iff_ne_none] using h
  show execLkbind d a b s = _
  rw [execLkbind, onCore_eq hk]
  simp only [privileged, hp, lockNo_eq, hc, lockDie, hd, Bool.false_eq_true, if_false, if_true, hbusy]

variable (hh : (lockOf s ((k.th.rx a).toNat % 2 ^ 12)).holder = none) (hq : (lockOf s ((k.th.rx a).toNat % 2 ^ 12)).queue = [])
include hh hq

/-- LKBIND with X[b] = 0 unbinds the lock (R257). -/
theorem lkbind_clears {b : R5} (hb : k.th.rx b = 0) (d : R5) :
    exec (.lkbind d a b) s = .next (retireX (updLock s ((k.th.rx a).toNat % 2 ^ 12) fun l => { l with bind := [] }) k 1 d 1) := by
  have hc : (!k.ctx.locks.contains ((k.th.rx a).toNat % 2 ^ 12)) = false := by simpa using hl
  show execLkbind d a b s = _
  rw [execLkbind, onCore_eq hk]
  simp only [privileged, hp, lockNo_eq, hc, lockDie, hd, Bool.false_eq_true, if_false, if_true, hh, hq, hb, Option.isSome_none, List.isEmpty_nil,
    Bool.not_true, Bool.or_self]

/-- LKBIND with a record whose entries all pass binds its ranges (R257). -/
theorem lkbind_binds {b : R5} (hb : k.th.rx b ≠ 0) {s₁ s₂ : State} {ws : List W64} {r : List (Tgt × Nat × Nat)}
    (hw : loadWords s k 3 (k.th.rx b) 8 = (s₁, .ok ws)) (he : bindEntries s₁ k (pairs ws) 0 = (s₂, .ok r)) (d : R5) :
    exec (.lkbind d a b) s = .next (retireX (updLock s₂ ((k.th.rx a).toNat % 2 ^ 12) fun l => { l with bind := r }) k 1 d 1) := by
  have hc : (!k.ctx.locks.contains ((k.th.rx a).toNat % 2 ^ 12)) = false := by simpa using hl
  show execLkbind d a b s = _
  rw [execLkbind, onCore_eq hk]
  simp only [privileged, hp, lockNo_eq, hc, lockDie, hd, Bool.false_eq_true, if_false, if_true, hh, hq, hb, Option.isSome_none, List.isEmpty_nil,
    Bool.not_true, Bool.or_self, hw, he]

end

end

end

/-! ### What the binding of ranges leaves (R257) -/

/-- A binding record is read and its ranges translated by accesses. -/
theorem bindRecord_drains {s s₁ s₂ : State} {k : Core} {ws : List W64} {r : List (Tgt × Nat × Nat)} {b : R5}
    (hw : loadWords s k 3 (k.th.rx b) 8 = (s₁, .ok ws)) (he : bindEntries s₁ k (pairs ws) 0 = (s₂, .ok r)) : Drains s s₂ k := by
  have hwords := loadWords_drains s k 3 (k.th.rx b) 8
  have hentries := bindEntries_keeps s₁ k (pairs ws) 0
  rw [hw] at hwords
  rw [he] at hentries
  exact hwords.trans (hentries.drains k)

/-- What an instruction leaves that changes a lock and writes one register after such accesses. -/
theorem Drains.locked {s t : State} {k : Core} (h : Drains s t k) (hk : s.thread? k.ref = some k.th) (lk : Nat) (f : Lock → Lock) (d : R5) (v : W64) :
    ∃ buf, (buf = k.th.buffer ∨ buf = []) ∧
      (retireX (updLock t lk f) k 1 d v).thread? k.ref = some { k.th.wx d v with pc := k.next 1, wait := .none, buffer := buf } ∧
      otherThreads s (retireX (updLock t lk f) k 1 d v) k.ref ∧
      MemOnly s { retireX (updLock t lk f) k 1 d v with threads := s.threads, locks := s.locks } ∧
      (retireX (updLock t lk f) k 1 d v).locks = s.locks.set lk (f (lockOf s lk)) := by
  obtain ⟨e, he, hkeeps⟩ := h.updThread fun th => { th.wx d v with pc := k.next 1, wait := .none }
  obtain ⟨ht, hrest⟩ := (updLock_keeps hkeeps lk f).frame hk
  rcases he with rfl | rfl
  · refine ⟨k.th.buffer, .inl rfl, ht.trans ?_, hrest⟩
    simp
  · refine ⟨[], .inr rfl, ht.trans ?_, hrest⟩
    simp [Thread.emptied, wx_emptied]

/-! ### LOCK_GRANT (R255) -/

theorem lockGrant_eq {s : State} {t : ThreadRef} {q : List ThreadRef} {k : Core} {lk n : Nat} {d : R5} (hh : (lockOf s lk).holder = none)
    (hq : (lockOf s lk).queue = t :: q) (hk : s.coreOf t = some k) (hw : k.th.wait = .lkacq d n) :
    exec (.lockGrant lk) s = .next (if threadFree s t k.th then tryGrant s k lk d else s) := by
  show execLockGrant lk s = _
  simp only [execLockGrant, hh, hq, hk, hw]

theorem tryGrant_go {s : State} {k : Core} {lk : Nat} (h : bindStop s k.ref.hand (lockOf s lk) = none) (d : R5) :
    tryGrant s k lk d = grantLock s k lk d := by
  simp only [tryGrant, h]

theorem tryGrant_offline {s : State} {k : Core} {lk e : Nat} (h : bindStop s k.ref.hand (lockOf s lk) = some (.offline e)) (d : R5) :
    tryGrant s k lk d = retryOffline (updLock s lk fun l => { l with queue := l.queue.filter fun q => q ≠ k.ref }) k 0 e := by
  simp only [tryGrant, h]

theorem tryGrant_waits {s : State} {k : Core} {lk : Nat} (h : bindStop s k.ref.hand (lockOf s lk) = some .waits) (d : R5) :
    tryGrant s k lk d =
      stall (updLock s lk fun l => { l with queue := if l.queue.contains k.ref then l.queue else l.queue ++ [k.ref] }) k (.lkacq d lk) := by
  simp only [tryGrant, h]

/-! ### LOCK_ALLOTMENT (R254) -/

/-- A context that has not ended is given a lock or loses one; nothing else changes. -/
theorem lockAllotment_ctx {s : State} {c : Nat} {x : Ctx} (hx : s.ctx? c = some x) (he : x.ended = false) (lk : Nat) (grant : Bool) :
    ∃ u, exec (.lockAllotment c lk grant) s = .next u ∧
      u.ctx? c = some { x with locks := if grant then x.locks.insert lk else x.locks.erase lk } ∧ otherCtxs s u c ∧ { u with ctxs := s.ctxs } = s := by
  have hs : ensureCtx s c = s := by simp only [ensureCtx, hx, he, Bool.false_eq_true, if_false]
  refine ⟨_, congrArg (fun v : State => Host.Outcome.next (v.updCtx c _)) hs, ?_, fun q hq => ?_, rfl⟩
  · rw [State.ctx?_updCtx, if_pos rfl, hx]; rfl
  · rw [State.ctx?_updCtx, if_neg hq]

/-! ### The statement -/

/-- A grant leaves what LKACQ and LOCK_GRANT promise of the thread, the others and the lock (R255). -/
theorem grantLock_frame {s : State} {k : Core} (hk : s.thread? k.ref = some k.th) (lk : Nat) (d : R5) :
    (grantLock s k lk d).thread? k.ref = some (k.th.granted k lk d (nextHold (lockOf s lk).count)) ∧ otherThreads s (grantLock s k lk d) k.ref ∧
      MemOnly s { grantLock s k lk d with threads := s.threads, locks := s.locks } ∧
      (grantLock s k lk d).locks = s.locks.set lk ((lockOf s lk).granted k.ref) := (grantLock_keeps s k lk d).frame hk

/-- A bound range of device memory stands in the scratchpad after a grant (R168). -/
theorem grantLock_scratch {s : State} {k : Core} {lk pa off len : Nat} (h : (lockOf s lk).bind = [(.dev pa, off, len)]) (d : R5) :
    ((grantLock s k lk d).hand k.ref.hand).scratch =
      Memory.write (s.hand k.ref.hand).scratch off (Memory.read (recallRange s pa len).mem pa len) := by
  have hpush := (grantLock_noStore_push s k lk d).scratch k.ref.hand
  rw [h] at hpush
  exact hpush.trans (pushChunk_scratch ..)

/-- Settles O32: a grant is a push of the bound ranges, a change of the lock and an acquire; a release is a pull of them and a write-back; the
other outcomes are cases of the instructions. That a lock which is free but has waiters queues the next request is log entry 23 (DEDUCED). -/
theorem locks : Obligations.Locks := by
  unfold Obligations.Locks
  refine ⟨?instructions, fun s t q k lk n d hh hq hk hw => ?grant, fun s x c lk hx he => ⟨?given, fun hn => ?taken⟩⟩
  case instructions =>
    intro s k d a b hk lk l next
    have hth := core_thread hk
    refine ⟨fun hl i hi => lock_range hk rfl hl hi, fun hl hd => ?_⟩
    refine ⟨fun h => ?held, fun h => lkrel_other hk hl hd h, fun h hq ck hb => ⟨fun die hc => ?offline, fun hc hn => ?waits⟩, fun h hq hb => ?granted,
      fun h h' => ⟨fun ht => ?tried, fun ht hn => ?queued⟩, fun h hb => lkrel_waits hk hl hd h hb, fun h hb hs => ?released,
      fun hp => ⟨fun h => ?busy, fun h hq hb => ?cleared, fun s₁ s₂ ws r h hq hb hw he => ?bound⟩⟩
    case held => rw [lkacq_eq hk hl hd]; exact congrArg _ (if_pos h)
    case offline =>
      subst hc
      rw [lkacq_free hk hl hd h hq, tryGrant_offline hb]
      rfl
    case waits =>
      subst hc
      rw [lkacq_free hk hl hd h hq, tryGrant_waits hb, stall_queued hn]
      rfl
    case granted =>
      obtain ⟨ht, ho, hm, hls⟩ := grantLock_frame hth lk d
      rw [granted_eq] at ht
      refine ⟨grantLock s k lk d, l.granted k.ref, ?_, ht, ho, hm, hls, rfl, fun hu => ?unbound, grantLock_acquired s k lk d, fun pa off len hu => ?pushed⟩
      · rw [lkacq_free hk hl hd h hq, tryGrant_go hb]
      case unbound =>
        have hpush := grantLock_noStore_push s k lk d
        rwa [show (lockOf s lk).bind = [] from hu] at hpush
      case pushed => exact ⟨recallRange s pa len, recallRange_noStore .., grantLock_scratch hu d⟩
    case tried =>
      refine ⟨_, ?_, retireX_alone hth 1 d 0⟩
      rw [lkacq_eq hk hl hd]
      exact congrArg _ ((if_neg h').trans ((if_neg fun hf => h hf.1).trans (if_pos ht)))
    case queued =>
      rw [lkacq_eq hk hl hd]
      exact congrArg _ ((if_neg h').trans ((if_neg fun hf => h hf.1).trans ((if_neg (by omega)).trans (stall_queued hn d))))
    case released =>
      obtain ⟨ht, ho, hm, hls⟩ := (releaseLock_keeps hth lk).frame hth
      exact ⟨_, _, lkrel_releases hk hl hd h hb hs, ht, ho, hm, hls, rfl, fun hu => (releaseLock_noStore hu).trans (retire_noStore ..),
        fun hh => releasedAt_updThread.2 (releaseLock_released s k lk hh)⟩
    case busy => exact ⟨_, lkbind_busy hk hl hd hp h d b, retireX_alone hth 1 d 0⟩
    case cleared => exact lkbind_clears hk hl hd hp h hq hb d
    case bound =>
      obtain ⟨buf, hbuf, ht, ho, hm, hls⟩ := (bindRecord_drains hw he).locked hth lk (fun l => { l with bind := r }) d 1
      exact ⟨_, buf, lkbind_binds hk hl hd hp h hq hb hw he d, hbuf, ht, ho, hm, hls⟩
  case grant =>
    obtain ⟨hth, rfl⟩ := coreOf_thread hk
    refine ⟨fun hf => ?stays, fun hf hb => ?passes⟩
    case stays => rw [lockGrant_eq hh hq hk hw, hf]; rfl
    case passes =>
      obtain ⟨ht, ho, -, hls⟩ := grantLock_frame hth lk d
      refine ⟨grantLock s k lk d, _, ?_, ?_, ht, rfl, rfl, ho⟩
      · rw [lockGrant_eq hh hq hk hw, hf, ← tryGrant_go hb d]; rfl
      · rw [lockOf, hls, Map.getD, Map.get?_set_self]; rfl
  case given =>
    obtain ⟨u, hu, hc, ho, hr⟩ := lockAllotment_ctx hx he lk true
    exact ⟨u, _, hu, hc, List.mem_insert_self, fun n hn => by simp [hn], ho, hr⟩
  case taken =>
    obtain ⟨u, hu, hc, ho, hr⟩ := lockAllotment_ctx hx he lk false
    exact ⟨u, _, hu, hc, hn.not_mem_erase, fun n h => List.mem_erase_of_ne h, ho, hr⟩

end Sys2Proof.Machine
end

section
/-! Sector tags under accesses: only a setting of a tag changes one (R246, R247). -/

namespace Sys2Proof.Machine

/-! ### Records -/

theorem raiseVector_tags (s : State) (fn vec : Nat) : (raiseVector s fn vec).tags = s.tags := by
  unfold raiseVector
  dsimp only
  split
  · split
    · rfl
    · split <;> rfl
  · rfl

theorem postEvent_tags (s : State) (fn kind : Nat) (rest : List Byte) : (postEvent s fn kind rest).tags = s.tags := by
  unfold postEvent
  dsimp only
  split
  · rfl
  · exact raiseVector_tags ..

theorem postError_tags (s : State) (c kind : Nat) (rec : List Byte) : (postError s c kind rec).tags = s.tags := by
  unfold postError
  dsimp only
  split
  · rfl
  · split
    · exact (postEvent_tags ..).trans (raiseVector_tags ..)
    · exact raiseVector_tags ..

theorem postFault_tags (s : State) (c : Nat) (code : FaultCode) (cls : Class) (p : Site) (addr d1 d2 : W64) :
    (postFault s c code cls p addr d1 d2).tags = s.tags := postError_tags ..

/-! ### Homes and caches -/

/-- A fold of steps that leave the tags leaves them. -/
theorem foldl_tags {α : Type} {f : State → α → State} (hf : ∀ s x, (f s x).tags = s.tags) (l : List α) (s : State) : (l.foldl f s).tags = s.tags :=
  List.foldlRecOn (motive := fun t => t.tags = s.tags) l f rfl fun _ hb _ _ => (hf _ _).trans hb

theorem undoAppend_tags (s : State) (c unit : Nat) : (undoAppend s c unit).tags = s.tags := by
  unfold undoAppend
  split
  · rfl
  · split
    · split
      · exact postFault_tags ..
      · rfl
    · rfl

theorem homeBytes_tags (s : State) (c : Nat) (ws : List (Nat × Byte)) : (homeBytes s c ws).tags = s.tags := by
  induction ws generalizing s with
  | nil => rfl
  | cons w ws ih =>
    refine (ih _).trans ?_
    unfold homeByte
    split
    · exact undoAppend_tags ..
    · rfl

theorem homeRaw_tags (s : State) (c : Nat) (log : Bool) (p : Site) (vofs : W64) (ws : List (Nat × Byte)) :
    (homeRaw s c log p vofs ws).tags = s.tags :=
  (homeBytes_tags ..).trans (foldl_tags (fun _ _ => postFault_tags ..) _ s)

theorem sliceOut_tags (p : Nat) (s : State) (v : Nat) : (sliceOut p s v).tags = s.tags := by
  unfold sliceOut
  split
  · exact homeRaw_tags ..
  · rfl

theorem settleSets_tags (n : Nat) (w : List (Nat × Nat)) (s : State) : (settleSets n w s).tags = s.tags := by
  induction n generalizing w s with
  | zero => rfl
  | succ n ih =>
    cases w with
    | nil => rfl
    | cons x w =>
      unfold settleSets
      split
      · exact ih w s
      · split
        · exact ih w s
        · exact (ih ..).trans (sliceOut_tags ..)

theorem settleLines_tags (w : List (Nat × Nat)) (s : State) : (settleLines w s).tags = s.tags := by
  unfold settleLines
  split
  · rfl
  · exact settleSets_tags ..

theorem settleHomes_tags (las : List Nat) (s : State) : (settleHomes las s).tags = s.tags := settleLines_tags ..

theorem settleSlice_tags (s : State) (p la : Nat) : (settleSlice s p la).tags = s.tags := by
  unfold settleSlice
  split
  · rfl
  · exact settleLines_tags ..

theorem homeStoreBy_tags (s : State) (c : Nat) (p : Site) (vofs : W64) (ws : List (Nat × Byte)) : (homeStoreBy s c p vofs ws).tags = s.tags :=
  (settleHomes_tags ..).trans (homeRaw_tags ..)

theorem pushBytes_tags (s : State) (c la : Nat) (ws : List (Nat × Byte)) (us ps : List Nat) : (pushBytes s c la ws us ps).tags = s.tags := by
  induction ps with
  | nil => exact (settleHomes_tags ..).trans (homeStoreBy_tags ..)
  | cons p ps ih =>
    unfold pushBytes
    split
    · exact settleSlice_tags ..
    · exact ih

theorem writeBack_tags (s : State) (p la : Nat) : (writeBack s p la).tags = s.tags := by
  unfold writeBack
  split
  · rfl
  · split
    · rfl
    · exact pushBytes_tags ..

theorem evict_tags (s : State) (p la : Nat) : (evict s p la).tags = s.tags := writeBack_tags ..

theorem flushPlace_tags (s : State) (inv : Bool) (p : Nat) : (flushPlace s inv p).tags = s.tags := by
  unfold flushPlace
  refine foldl_tags (fun s la => ?_) _ s
  split
  · exact evict_tags ..
  · exact writeBack_tags ..

theorem releaseAt_tags (s : State) (h scope : Nat) : (releaseAt s h scope).tags = s.tags := foldl_tags (fun s p => flushPlace_tags s false p) _ s
theorem acquireAt_tags (s : State) (h scope : Nat) : (acquireAt s h scope).tags = s.tags := foldl_tags (fun s p => flushPlace_tags s true p) _ s
theorem recallLine_tags (s : State) (la : Nat) : (recallLine s la).tags = s.tags := foldl_tags (fun s p => evict_tags s p la) _ s

/-! ### Performing -/

theorem shrink_tags {out : State → Nat → State} (h : ∀ s v, (out s v).tags = s.tags) (p la n : Nat) (s : State) :
    (shrink out p la n s).tags = s.tags := by
  induction n generalizing s with
  | zero => rfl
  | succ n ih =>
    unfold shrink
    split
    · rfl
    · split
      · rfl
      · exact (ih _).trans (h s _)

theorem leaveSet_tags (p : Nat) (s : State) (v : Nat) : (leaveSet p s v).tags = s.tags := by
  unfold leaveSet
  split
  · exact evict_tags ..
  · exact sliceOut_tags ..

theorem fillAt_tags (la hint : Nat) (s : State) (p : Nat) : (fillAt la hint s p).tags = s.tags := by
  unfold fillAt
  split
  · rfl
  · exact shrink_tags (leaveSet_tags p) ..

theorem lineFill_tags (s : State) (la hint : Nat) (ps : List Nat) : (lineFill s la hint ps).tags = s.tags := by
  unfold lineFill
  split
  · exact foldl_tags (fillAt_tags la hint) _ s
  · rfl

theorem homeFill_tags (s : State) (la hint : Nat) : (homeFill s la hint).tags = s.tags := by
  unfold homeFill
  split
  · rfl
  · exact shrink_tags (leaveSet_tags _) ..

theorem allocate_tags (s : State) (la hint : Nat) (ps : List Nat) : (allocate s la hint ps).tags = s.tags := by
  unfold allocate
  refine (lineFill_tags ..).trans ?_
  split
  · exact homeFill_tags ..
  · rfl

theorem writeLine_tags (s : State) (c h : Nat) (p : Site) (vofs : W64) (la : Nat) (ws : List (Nat × Byte)) (scope hint : Nat) :
    (writeLine s c h p vofs la ws scope hint).tags = s.tags := by
  have hdescend : (descend s h la scope hint).tags = s.tags := foldl_tags (fun s p => evict_tags s p la) _ s
  unfold writeLine
  dsimp only
  split
  · exact (pushBytes_tags ..).trans ((allocate_tags ..).trans hdescend)
  · exact (homeStoreBy_tags ..).trans ((homeFill_tags ..).trans ((recallLine_tags ..).trans hdescend))

theorem flushPage_tags (s : State) (pa : Nat) : (flushPage s pa).tags = s.tags :=
  foldl_tags (fun s p => foldl_tags (fun s la => writeBack_tags s p la) _ s) _ s

theorem acquireOwnership_tags (s : State) (a pa : Nat) : (acquireOwnership s a pa).tags = s.tags := by
  unfold acquireOwnership
  dsimp only
  split
  · rfl
  · show (if _ then flushPage s pa else s).tags = _
    split
    · exact flushPage_tags ..
    · rfl

theorem writeTgt_tags (s : State) (a : Actor) (t : Tgt) (bs : List Byte) (scope hint : Nat) : (writeTgt s a t bs scope hint).tags = s.tags := by
  cases t with
  | dev pa => exact (writeLine_tags ..).trans (acquireOwnership_tags ..)
  | host p => rfl
  | scratch h o => rfl
  | peer d p => rfl
  | bin d b => rfl

theorem drain_tags (s : State) (k : Core) : (drain s k).tags = s.tags := by
  unfold drain
  split
  · exact foldl_tags (fun _ _ => writeTgt_tags ..) _ s
  · rfl

theorem threadRelease_tags (s : State) (k : Core) (scope : Nat) : (threadRelease s k scope).tags = s.tags :=
  (releaseAt_tags ..).trans (drain_tags ..)

/-! ### A tag that is set -/

theorem tagAt_congr {s t : State} (h : t.tags = s.tags) (a : Nat) : tagAt t a = tagAt s a := by rw [tagAt, tagAt, h]

/-- The tags after one is set. -/
theorem tagAt_setTag (s : State) (pa q : Nat) (v : BitVec 2) : tagAt (setTag s pa v) q = if q / 32 = pa / 32 then v else tagAt s q := by
  unfold tagAt setTag Map.getD
  dsimp only
  by_cases hv : v = 0
  · rw [if_pos hv, Map.get?_erase, hv]
    split <;> rfl
  · rw [if_neg hv, Map.get?_set]
    split <;> rfl

end Sys2Proof.Machine
end

section
/-! The writing of a sector at its home, the recall of its line, and the waking of its waiters (R169, R170, R247, R251). -/

namespace Sys2Proof.Machine

/-! ### Bytes that are written -/

/-- Bytes read back from where they were written. -/
theorem read_write (m : List Host.Cell) (a : Nat) (bs : List Byte) : Memory.read (Memory.write m a bs) a bs.length = bs := by
  refine List.ext_getElem (by simp [Memory.read]) fun i hi hi' => ?_
  simp only [Memory.read, List.getElem_map, List.getElem_range, Memory.get_write]
  rw [if_pos ⟨Nat.le_add_right .., by omega⟩, Nat.add_sub_cancel_left, List.getD_eq_getElem?_getD, List.getElem?_eq_getElem hi']
  rfl

theorem toBytes_length (n v : Nat) : (toBytes n v).length = n := by
  induction n generalizing v with
  | zero => rfl
  | succ n ih => rw [toBytes, List.length_cons, ih]

theorem wordBytes_length (ws : List W64) : (wordBytes ws).length = 8 * ws.length := by
  simp [wordBytes, toBytes_length, List.length_flatMap, Nat.mul_comm]

/-- The bytes `bs` at address `a`, as what a flow may write. -/
def bytesAt (a : Nat) (bs : List Byte) (x : Nat) (v : Byte) : Prop := ∃ i, x = a + i ∧ bs[i]? = some v

theorem write_flows (s : State) (a : Nat) (bs : List Byte) : Flows s { s with mem := Memory.write s.mem a bs } (bytesAt a bs) := by
  refine ⟨fun x => ?_, fun x v d => .inl d, fun _ => id, le_rfl, fun _ => rfl, fun _ => rfl⟩
  show Memory.get (Memory.write s.mem a bs) x = _ ∨ _ ∨ bytesAt a bs x (Memory.get (Memory.write s.mem a bs) x) ∨ _
  rw [Memory.get_write]
  by_cases hx : a ≤ x ∧ x < a + bs.length
  · obtain ⟨hle, hlt⟩ := hx
    refine .inr (.inr (.inl ⟨x - a, by omega, ?_⟩))
    rw [if_pos ⟨hle, hlt⟩, List.getD_eq_getElem?_getD, List.getElem?_eq_getElem (by omega)]
    rfl
  · exact .inl (if_neg hx)

/-! ### A sector at its home (R169) -/

theorem writeSector_keeps (s : State) (c pa : Nat) (ws : List W64) (tag : BitVec 2) : Keeps s (writeSector s c pa ws tag) :=
  (((((recallLine_keeps ..).trans (undoAppend_keeps ..)).trans (keeps_write ..)).trans (settleHomes_keeps ..)).trans (keeps_write ..)).trans
    (setTag_keeps ..)

theorem writeSector_flows (s : State) (c pa : Nat) (ws : List W64) (tag : BitVec 2) :
    Flows s (writeSector s c pa ws tag) (bytesAt pa (wordBytes ws)) :=
  ((((((recallLine_noStore ..).flows _).trans (undoAppend_flows ..)).trans (write_flows ..)).trans ((settleHomes_noStore ..).flows _)).trans
    (write_flows ..)).trans (setTag_flows ..)

/-- Its bytes stand at its home. -/
theorem writeSector_mem (s : State) (c pa : Nat) (ws : List W64) (tag : BitVec 2) :
    ∃ m, (writeSector s c pa ws tag).mem = Memory.write m pa (wordBytes ws) := ⟨_, rfl⟩

/-- A sector's bytes written at its home, before its tag is set. -/
def putSector (s : State) (c pa : Nat) (bs : List Byte) : State :=
  let s := undoAppend (recallLine s (alignDown pa 128)) c (pa / 64)
  let s := settleHomes [alignDown pa 128] { s with mem := Memory.write s.mem pa bs }
  { s with mem := Memory.write s.mem pa bs }

theorem writeSector_eq (s : State) (c pa : Nat) (ws : List W64) (tag : BitVec 2) :
    writeSector s c pa ws tag = setTag (putSector s c pa (wordBytes ws)) pa tag := rfl

theorem putSector_tags (s : State) (c pa : Nat) (bs : List Byte) : (putSector s c pa bs).tags = s.tags := by
  have hlog : (undoAppend (recallLine s (alignDown pa 128)) c (pa / 64)).tags = s.tags := (undoAppend_tags ..).trans (recallLine_tags ..)
  unfold putSector
  dsimp only
  rw [settleHomes_tags]
  exact hlog

/-- Its tag is set, and no other. -/
theorem writeSector_tag (s : State) (c pa q : Nat) (ws : List W64) (tag : BitVec 2) :
    tagAt (writeSector s c pa ws tag) q = if q / 32 = pa / 32 then tag else tagAt s q := by
  rw [writeSector_eq, tagAt_setTag, tagAt_congr (putSector_tags ..)]

/-- A sector that has been written is stored, whatever stores nothing before and after it. -/
theorem writeSector_stored {s t u : State} {c pa : Nat} {ws : List W64} {tag : BitVec 2} (hs : NoStore s t)
    (hu : NoStore (writeSector t c pa ws tag) u) (hm : u.mem = (writeSector t c pa ws tag).mem) : Stored s u (.dev pa) (wordBytes ws) := by
  refine ⟨((hs.flows _).trans (writeSector_flows ..)).trans (hu.flows _), fun _ _ i v hv => .inl ?_⟩
  obtain ⟨m, hw⟩ := writeSector_mem t c pa ws tag
  have hi : i < (wordBytes ws).length := (List.getElem?_eq_some_iff.1 hv).1
  rw [hm, hw, Memory.get_write, if_pos ⟨Nat.le_add_right .., by omega⟩, Nat.add_sub_cancel_left, List.getD_eq_getElem?_getD, hv]
  rfl

theorem writeSector_read (s : State) (c pa : Nat) {ws : List W64} (h : ws.length = 4) (tag : BitVec 2) :
    Memory.read (writeSector s c pa ws tag).mem pa 32 = wordBytes ws := by
  obtain ⟨m, hw⟩ := writeSector_mem s c pa ws tag
  have hr := read_write m pa (wordBytes ws)
  rwa [wordBytes_length, h, ← hw] at hr

/-! ### Ownership (R139) -/

theorem flushPage_noStore (s : State) (pa : Nat) : NoStore s (flushPage s pa) :=
  Flows.foldl (fun s p => Flows.foldl (fun s la => writeBack_noStore s p la) _ s) _ s

theorem acquireOwnership_noStore (s : State) (a pa : Nat) : NoStore s (acquireOwnership s a pa) := by
  unfold acquireOwnership
  dsimp only
  split
  · exact .of_eq rfl rfl rfl le_rfl (fun _ => rfl) fun _ => rfl
  · refine Flows.trans (t := if _ then flushPage s pa else s) ?_ (.of_eq rfl rfl rfl le_rfl (fun _ => rfl) fun _ => rfl)
    split
    · exact flushPage_noStore ..
    · exact noStore_refl s

/-! ### The recall of a line (R161, R247) -/

/-- A push changes copies of its own line alone; lines of a home's set may leave. -/
theorem pushBytes_otherLine (s : State) (c la : Nat) (ws : List (Nat × Byte)) (us ps : List Nat) {q lb : Nat} (h : lb ≠ la) :
    keptOrGone s (pushBytes s c la ws us ps) q lb := by
  induction ps with
  | nil => exact keptOrGone_trans (homeStore_kept ..) (spoil_kept ..)
  | cons p ps ih =>
    unfold pushBytes
    split
    · exact keptOrGone_trans (t := setLine s p la _) (.inr (by rw [lineCopy_setLine, if_neg fun e => h e.2])) (settleSlice_kept ..)
    · exact ih

/-- It makes no copy. -/
theorem pushBytes_absent {s : State} {q lb : Nat} (h : lineCopy s q lb = none) (c la : Nat) (ws : List (Nat × Byte)) (us ps : List Nat) :
    lineCopy (pushBytes s c la ws us ps) q lb = none := by
  have hgone {s t : State} (h : lineCopy s q lb = none) (g : keptOrGone s t q lb) : lineCopy t q lb = none := g.elim id (·.trans h)
  induction ps with
  | nil => exact hgone (hgone h (homeStore_kept ..)) (spoil_kept ..)
  | cons p ps ih =>
    unfold pushBytes
    split
    · next l e =>
      refine hgone (s := setLine s p la _) ?_ (settleSlice_kept ..)
      rw [lineCopy_setLine, if_neg]
      · exact h
      · rintro ⟨rfl, rfl⟩
        rw [h] at e
        cases e
    · exact ih

theorem evict_otherLine (s : State) (p la : Nat) {q lb : Nat} (h : lb ≠ la) : keptOrGone s (evict s p la) q lb := by
  refine keptOrGone_trans (t := writeBack s p la) ?_ (.inr (by rw [evict, lineCopy_dropLine, if_neg fun e => h e.2]))
  unfold writeBack
  split
  · exact .inr rfl
  · split
    · exact .inr rfl
    · exact keptOrGone_trans (t := setLine s p la _) (.inr (by rw [lineCopy_setLine, if_neg fun e => h e.2])) (pushBytes_otherLine _ _ _ _ _ _ h)

theorem evict_absent {s : State} {q lb : Nat} (h : lineCopy s q lb = none) (p la : Nat) : lineCopy (evict s p la) q lb = none := by
  rw [evict, lineCopy_dropLine]
  split
  · rfl
  · unfold writeBack
    split
    · exact h
    · next l e =>
      split
      · exact h
      · refine pushBytes_absent ?_ ..
        rw [lineCopy_setLine, if_neg]
        · exact h
        · rintro ⟨rfl, rfl⟩
          rw [h] at e
          cases e

/-- The place itself holds the line no more. -/
theorem evict_here (s : State) (p la : Nat) : lineCopy (evict s p la) p la = none := by
  rw [evict, lineCopy_dropLine, if_pos ⟨rfl, rfl⟩]

/-- Evictions of a line from places leave no copy where there was none, nor at those places. -/
theorem evictAll_absent (la : Nat) (ps : List Nat) (s : State) {q : Nat} (h : q ∈ ps ∨ lineCopy s q la = none) :
    lineCopy (ps.foldl (fun s p => evict s p la) s) q la = none := by
  induction ps generalizing s with
  | nil => exact h.resolve_left List.not_mem_nil
  | cons p ps ih =>
    refine ih _ ?_
    rcases h with h | h
    · rcases List.mem_cons.1 h with rfl | h
      · exact .inr (evict_here ..)
      · exact .inl h
    · exact .inr (evict_absent h p la)

/-- No place holds the line that has been recalled. -/
theorem recallLine_absent (s : State) (la q : Nat) : lineCopy (recallLine s la) q la = none := by
  refine evictAll_absent la _ s ?_
  cases h : s.caches.get? q with
  | none => exact .inr (by rw [lineCopy, Map.getD, h]; rfl)
  | some m => exact .inl (List.mem_map.2 ⟨(q, m), mem_of_get? h, rfl⟩)

/-- Other lines stay as they are, or leave. -/
theorem recallLine_otherLine (s : State) (la : Nat) {q lb : Nat} (h : lb ≠ la) : keptOrGone s (recallLine s la) q lb :=
  List.foldlRecOn (motive := fun t => keptOrGone s t q lb) s.caches.keys _ (.inr rfl) fun _ hb _ _ => keptOrGone_trans hb (evict_otherLine _ _ _ h)

/-- A release stays done when a line is recalled. -/
theorem releasedAt_recallLine {s : State} {h scope : Nat} (hr : releasedAt s h scope) (la : Nat) : releasedAt (recallLine s la) h scope := by
  intro p hp lb l e
  by_cases hb : lb = la
  · rw [hb, recallLine_absent] at e
    cases e
  · rcases recallLine_otherLine s la (q := p) hb with e' | e'
    · rw [e'] at e
      cases e
    · exact hr p hp lb l (e'.symm.trans e)

theorem releasedAt_congr {s t : State} (h : t.caches = s.caches) {n scope : Nat} (hr : releasedAt s n scope) : releasedAt t n scope :=
  fun p hp la l e => hr p hp la l (by rwa [lineCopy, h] at e)

/-! ### Waiters (R170, R251) -/

theorem Keeps.waiters {s t : State} (h : Keeps s t) : t.waiters = s.waiters := by
  have e := congrArg State.waiters h.kept; exact e

/-- A thread whose sector has its value. -/
def Thread.woken (pa : Nat) (bs : List Byte) (th : Thread) : Thread := { th with wait := .cellDone pa bs }

/-- One waiter of a sector acquires, and receives its bytes. -/
def wake (pa : Nat) (bs : List Byte) (s : State) (w : Nat × Agent) : State :=
  match w.2 with
  | .thread t => (acquireAt s t.hand 3).updThread t (Thread.woken pa bs)
  | .group g => (acquireAt s g.hand 3).updGroup g fun x => { x with outst := x.outst.map (cellValue pa bs) }
  | _ => s

theorem resolveWaiters_eq (s : State) (pa : Nat) (bs : List Byte) :
    resolveWaiters s pa bs =
      (s.waiters.filter fun w => w.1 = pa / 32).foldl (wake pa bs) { s with waiters := s.waiters.filter fun w => w.1 ≠ pa / 32 } := rfl

/-- What waking leaves alone. -/
structure Wakes (s t : State) : Prop where
  noStore : NoStore s t
  tags    : t.tags = s.tags
  waiters : t.waiters = s.waiters
  teams   : t.teams = s.teams

theorem Wakes.trans {s t u : State} (h : Wakes s t) (g : Wakes t u) : Wakes s u :=
  ⟨h.noStore.trans g.noStore, g.tags.trans h.tags, g.waiters.trans h.waiters, g.teams.trans h.teams⟩

theorem acquireAt_wakes (s : State) (h scope : Nat) : Wakes s (acquireAt s h scope) :=
  ⟨acquireAt_noStore .., acquireAt_tags .., (acquireAt_keeps ..).waiters, (acquireAt_keeps ..).teams⟩

theorem updThread_wakes (s : State) (r : ThreadRef) (f : Thread → Thread) : Wakes s (s.updThread r f) := ⟨noStore_updThread .., rfl, rfl, rfl⟩

theorem updGroup_wakes (s : State) (g : GroupRef) (f : Group → Group) : Wakes s (s.updGroup g f) :=
  ⟨.of_eq rfl rfl rfl le_rfl (fun _ => rfl) fun _ => rfl, rfl, rfl, rfl⟩

theorem wake_wakes (pa : Nat) (bs : List Byte) (s : State) (w : Nat × Agent) : Wakes s (wake pa bs s w) := by
  unfold wake
  split
  · exact (acquireAt_wakes ..).trans (updThread_wakes ..)
  · exact (acquireAt_wakes ..).trans (updGroup_wakes ..)
  · exact ⟨noStore_refl s, rfl, rfl, rfl⟩

theorem wakeAll_wakes (pa : Nat) (bs : List Byte) (ws : List (Nat × Agent)) (s : State) : Wakes s (ws.foldl (wake pa bs) s) :=
  List.foldlRecOn (motive := Wakes s) ws _ ⟨noStore_refl s, rfl, rfl, rfl⟩ fun t hb w _ => hb.trans (wake_wakes pa bs t w)

theorem thread?_updGroup (s : State) (g : GroupRef) (f : Group → Group) (q : ThreadRef) : (s.updGroup g f).thread? q = s.thread? q := rfl

/-- Waking one waiter wakes its thread and leaves the others. -/
theorem wake_thread (pa : Nat) (bs : List Byte) (s : State) (w : Nat × Agent) (q : ThreadRef) :
    ((wake pa bs s w).thread? q = s.thread? q ∧ w.2 ≠ .thread q) ∨ (wake pa bs s w).thread? q = (s.thread? q).map (Thread.woken pa bs) := by
  obtain ⟨n, a⟩ := w
  cases a with
  | thread t =>
    have hupd := State.thread?_updThread (acquireAt s t.hand 3) t q (Thread.woken pa bs)
    rw [(acquireAt_keeps s t.hand 3).thread? q] at hupd
    by_cases hq : threadKey q = threadKey t
    · exact .inr (hupd.trans (if_pos hq))
    · exact .inl ⟨hupd.trans (if_neg hq), fun e => hq (by rw [Agent.thread.inj e])⟩
  | group g =>
    exact .inl ⟨(thread?_updGroup ..).trans ((acquireAt_keeps s g.hand 3).thread? q), nofun⟩
  | stream t => exact .inl ⟨rfl, nofun⟩
  | copy h b n => exact .inl ⟨rfl, nofun⟩
  | device => exact .inl ⟨rfl, nofun⟩

theorem woken_woken (pa : Nat) (bs : List Byte) (x : Option Thread) :
    (x.map (Thread.woken pa bs)).map (Thread.woken pa bs) = x.map (Thread.woken pa bs) := by cases x <;> rfl

/-- A thread among the waiters is woken; any other is as before or woken with them. -/
theorem wakeAll_thread (pa : Nat) (bs : List Byte) (ws : List (Nat × Agent)) (s : State) (q : ThreadRef) :
    ((ws.foldl (wake pa bs) s).thread? q = s.thread? q ∧ ∀ w ∈ ws, w.2 ≠ .thread q) ∨
      (ws.foldl (wake pa bs) s).thread? q = (s.thread? q).map (Thread.woken pa bs) := by
  induction ws generalizing s with
  | nil => exact .inl ⟨rfl, nofun⟩
  | cons w ws ih =>
    rw [List.foldl_cons]
    rcases ih (wake pa bs s w) with ⟨h, hn⟩ | h <;> rcases wake_thread pa bs s w q with ⟨h', hn'⟩ | h' <;> rw [h'] at h
    · exact .inl ⟨h, List.forall_mem_cons.2 ⟨hn', hn⟩⟩
    · exact .inr h
    · exact .inr h
    · exact .inr (h.trans (woken_woken ..))

/-- What a resolution leaves of its waiters: they go, and what they wait for is theirs. -/
theorem resolveWaiters_wakes (s : State) (pa : Nat) (bs : List Byte) :
    Wakes { s with waiters := s.waiters.filter fun w => w.1 ≠ pa / 32 } (resolveWaiters s pa bs) := wakeAll_wakes ..

theorem resolveWaiters_noStore (s : State) (pa : Nat) (bs : List Byte) : NoStore s (resolveWaiters s pa bs) :=
  Flows.trans (t := { s with waiters := s.waiters.filter fun w => w.1 ≠ pa / 32 }) (.of_eq rfl rfl rfl le_rfl (fun _ => rfl) fun _ => rfl)
    (resolveWaiters_wakes s pa bs).noStore

theorem resolveWaiters_tags (s : State) (pa : Nat) (bs : List Byte) : (resolveWaiters s pa bs).tags = s.tags := (resolveWaiters_wakes s pa bs).tags
theorem resolveWaiters_teams (s : State) (pa : Nat) (bs : List Byte) : (resolveWaiters s pa bs).teams = s.teams := (resolveWaiters_wakes s pa bs).teams
theorem resolveWaiters_waiters (s : State) (pa : Nat) (bs : List Byte) :
    (resolveWaiters s pa bs).waiters = s.waiters.filter fun w => w.1 ≠ pa / 32 := (resolveWaiters_wakes s pa bs).waiters

theorem resolveWaiters_thread (s : State) (pa : Nat) (bs : List Byte) (q : ThreadRef) :
    ((resolveWaiters s pa bs).thread? q = s.thread? q ∧ (pa / 32, Agent.thread q) ∉ s.waiters) ∨
      (resolveWaiters s pa bs).thread? q = (s.thread? q).map (Thread.woken pa bs) := by
  rw [resolveWaiters_eq]
  refine (wakeAll_thread pa bs _ _ q).imp_left fun ⟨h, hn⟩ => ⟨h, fun hm => ?_⟩
  exact hn _ (List.mem_filter.2 ⟨hm, by simp⟩) rfl

end Sys2Proof.Machine
end

section
/-! SUSP, RSLV and CELLQ by their cases (R247, R251, R252). -/

namespace Sys2Proof.Machine

/-! ### The thread after an instruction on a sector -/

/-- The served thread that has retired `w` words with X[d] = v, with `buf` as its buffered stores. -/
def Core.retired (k : Core) (buf : List Store) (w : Nat) (d : R5) (v : W64) : Thread :=
  { k.th.wx d v with pc := k.next w, wait := .none, buffer := buf }

/-- An instruction that retires after accesses with one register written. -/
theorem retireX_performed {s t : State} {k : Core} (h : Keeps s t) (hth : s.thread? k.ref = some k.th) (w : Nat) (d : R5) (v : W64) :
    Performed s (retireX t k w d v) k (k.retired k.th.buffer w d v) := by
  have hret := (h.updThread k.ref fun th => { th.wx d v with pc := k.next w, wait := .none }).performed hth
  rwa [Core.retired, ← wx_buffer k.th d v]

/-- The same after a release of the thread. -/
theorem retireX_releasedPerformed {s s₁ t : State} {k : Core} (h : Keeps s s₁) (hth : s.thread? k.ref = some k.th)
    (ht : Keeps (threadRelease s₁ k 3) t) (w : Nat) (d : R5) (v : W64) : Performed s (retireX t k w d v) k (k.retired [] w d v) := by
  have hrel := threadRelease_keeps ((h.thread? k.ref).trans hth) 3
  have hret := ((h.updThread k.ref Thread.emptied).trans (hrel.trans ht)).updThread k.ref fun th => { th.wx d v with pc := k.next w, wait := .none }
  rw [updThread_updThread] at hret
  have hthread : ({ k.th.emptied.wx d v with pc := k.next w, wait := .none } : Thread) = k.retired [] w d v := by
    rw [Thread.emptied, wx_emptied]; rfl
  exact hthread ▸ hret.performed hth

theorem retireX_tags (s : State) (k : Core) (w : Nat) (d : R5) (v : W64) : (retireX s k w d v).tags = s.tags := rfl
theorem retireX_mem (s : State) (k : Core) (w : Nat) (d : R5) (v : W64) : (retireX s k w d v).mem = s.mem := rfl
theorem retireX_waiters (s : State) (k : Core) (w : Nat) (d : R5) (v : W64) : (retireX s k w d v).waiters = s.waiters := rfl
theorem retireX_team? (s : State) (k : Core) (w : Nat) (d : R5) (v : W64) (r : TeamRef) : (retireX s k w d v).team? r = s.team? r := rfl
theorem retireX_noStore (s : State) (k : Core) (w : Nat) (d : R5) (v : W64) : NoStore s (retireX s k w d v) := retire_noStore ..

/-! ### The sector of an access -/

theorem onSector_ok {s s₁ : State} {k : Core} {acc : Acc} {addr : W64} {pa : Nat}
    (h : checkAccess s k.actor acc 0 3 32 32 false addr true = (s₁, .ok (.dev pa))) (f : State → Nat → State) : onSector s k acc addr f = f s₁ pa := by
  rw [onSector, h]

theorem retryReleased_none {s : State} {k : Core} (h : drainStop s k = none) (f : State → State) : retryReleased s k f = f (threadRelease s k 3) := by
  rw [retryReleased, h]

/-- A buffered store that a die refuses makes the instruction retry (R374). -/
theorem retryReleased_offline {s : State} {k : Core} {x : Store} {die : Nat} (h : drainStop s k = some (x, .offline die)) (f : State → State) :
    retryReleased s k f = retryOffline s k x.va die := by
  rw [retryReleased, h]

/-! ### The cases of the instructions -/

/-- SUSP of a sector that is VAL or FAIL, after the thread's release (R247). -/
def suspendSector (k : Core) (d : R5) (pa : Nat) (ws : List W64) (old : BitVec 2) (s : State) : State :=
  retireX (writeSector s k.tm.ctx pa ws 1) k 2 d (zext64 old)

/-- The evaluator of a sector has resolved it. -/
def markResolved (s : State) (k : Core) (pa : Nat) : State :=
  if k.tm.evstack.getLast?.map (·.1) = some pa then s.updTeam k.ref.team fun t => { t with resolved := true } else s

/-- The sector as RSLV writes it, after the thread's release (R251). -/
def resolvedSector (k : Core) (pa : Nat) (ws : List W64) (s : State) : State :=
  writeSector (acquireOwnership s k.ref.hand pa) k.tm.ctx pa ws 0

/-- RSLV after the thread's release (R251). -/
def resolveSector (k : Core) (d : R5) (pa : Nat) (ws : List W64) (old : BitVec 2) (s : State) : State :=
  retireX (markResolved (resolveWaiters (resolvedSector k pa ws s) pa (wordBytes ws)) k pa) k 2 d (zext64 old)

/-- CELLQ of a sector that is VAL or FAIL is an acquire. -/
def queried (s : State) (k : Core) (pa : Nat) : State := if tagAt s pa = 0 ∨ tagAt s pa = 3 then acquireAt s k.ref.hand 3 else s

section
variable {s s₁ : State} {k : Core} (hk : s.core = some k) {d a b : R5} {m : MemW} {pa : Nat}
include hk

/-- The address of SUSP and RSLV is one of a sector. -/
theorem sector_align (ha : (cmAddr k a m).toNat % 32 ≠ 0) {i : Instr} (hi : i = .susp d a b m ∨ i = .rslv d a b m) :
    exec i s = .next (threadFault s k .align (cmAddr k a m) 0 32) := by
  rcases hi with rfl | rfl
  · show execSusp d a b m s = _
    rw [execSusp, onCore_eq hk]
    exact congrArg _ (if_pos ha)
  · show execRslv d a b m s = _
    rw [execRslv, onCore_eq hk]
    exact congrArg _ (if_pos ha)

/-- The registers of SUSP hold a suspension (R246). -/
theorem susp_format (ha : (cmAddr k a m).toNat % 32 = 0) (hw : suspensionOk (k.th.rx4 b) = false) :
    exec (.susp d a b m) s = .next (threadFault s k .cellFormat (cmAddr k a m) (zext64 ((k.th.rx (b + 2)).setWidth 32)) 0) := by
  show execSusp d a b m s = _
  rw [execSusp, onCore_eq hk]
  simp only [ha, hw, ne_eq, not_true_eq_false, if_false, Bool.not_false, if_true]
  rfl

/-- SUSP of a sector that its checks let it reach. -/
theorem susp_eq (ha : (cmAddr k a m).toNat % 32 = 0) (hw : suspensionOk (k.th.rx4 b) = true)
    (hc : checkAccess s k.actor .store 0 3 32 32 false (cmAddr k a m) true = (s₁, .ok (.dev pa))) :
    exec (.susp d a b m) s = .next (
      if copyHolds s₁ (.dev pa) 32 then s₁
      else if tagAt s₁ pa = 0 ∨ tagAt s₁ pa = 3 then retryReleased s₁ k (suspendSector k d pa (k.th.rx4 b) (tagAt s₁ pa))
      else retireX s₁ k 2 d (zext64 (tagAt s₁ pa))) := by
  show execSusp d a b m s = _
  rw [execSusp, onCore_eq hk]
  simp only [ha, hw, ne_eq, not_true_eq_false, if_false, Bool.not_true, Bool.false_eq_true, onSector_ok hc, Bool.or_eq_true, decide_eq_true_eq]
  rfl

/-- RSLV of a sector that its checks let it reach. -/
theorem rslv_eq (ha : (cmAddr k a m).toNat % 32 = 0)
    (hc : checkAccess s k.actor .store 0 3 32 32 false (cmAddr k a m) true = (s₁, .ok (.dev pa))) :
    exec (.rslv d a b m) s = .next (
      if writeWaits s₁ k.ref.hand (.dev pa) 32 then s₁ else retryReleased s₁ k (resolveSector k d pa (k.th.rx4 b) (tagAt s₁ pa))) := by
  show execRslv d a b m s = _
  rw [execRslv, onCore_eq hk]
  simp only [ha, ne_eq, not_true_eq_false, if_false, onSector_ok hc]
  rfl

/-- CELLQ of a sector that its checks let it reach. -/
theorem cellq_eq (ha : (k.th.rx a).toNat % 32 = 0)
    (hc : checkAccess s k.actor .load 0 3 32 32 false (k.th.rx a) true = (s₁, .ok (.dev pa))) :
    exec (.cellq d a) s = .next (
      if copyHolds s₁ (.dev pa) 32 then s₁
      else retireX (queried s₁ k pa) k 1 d (cellWord s₁ pa)) := by
  show execCellq d a s = _
  rw [execCellq, onCore_eq hk]
  simp only [ha, ne_eq, not_true_eq_false, if_false, onSector_ok hc, Bool.or_eq_true, decide_eq_true_eq, queried]

end

/-! ### SUSP (R247) -/

section
variable {s s₁ : State} {k : Core} (h : Keeps s s₁) (hth : s.thread? k.ref = some k.th) (d b : R5) (pa : Nat)

include h hth in
theorem suspendSector_performed (old : BitVec 2) :
    Performed s (suspendSector k d pa (k.th.rx4 b) old (threadRelease s₁ k 3)) k (k.retired [] 2 d (zext64 old)) :=
  retireX_releasedPerformed h hth (writeSector_keeps ..) 2 d _

theorem suspendSector_tag (q : Nat) (old : BitVec 2) :
    tagAt (suspendSector k d pa (k.th.rx4 b) old (threadRelease s₁ k 3)) q = if q / 32 = pa / 32 then 1 else tagAt s₁ q := by
  rw [suspendSector, tagAt_congr (retireX_tags ..), writeSector_tag, tagAt_congr (threadRelease_tags ..)]

theorem suspendSector_stored (s : State) (old : BitVec 2) :
    Stored s (suspendSector k d pa (k.th.rx4 b) old s) (.dev pa) (wordBytes (k.th.rx4 b)) :=
  writeSector_stored (noStore_refl s) (retire_noStore ..) rfl

theorem suspendSector_read (s : State) (old : BitVec 2) :
    Memory.read (suspendSector k d pa (k.th.rx4 b) old s).mem pa 32 = wordBytes (k.th.rx4 b) := by
  rw [suspendSector, retireX_mem]
  exact writeSector_read _ _ _ rfl _

/-! ### RSLV (R251) -/

theorem resolvedSector_keeps (ws : List W64) (s : State) : Keeps s (resolvedSector k pa ws s) :=
  (acquireOwnership_keeps ..).trans (writeSector_keeps ..)

theorem resolvedSector_tag (q : Nat) (ws : List W64) :
    tagAt (resolvedSector k pa ws (threadRelease s₁ k 3)) q = if q / 32 = pa / 32 then 0 else tagAt s₁ q := by
  rw [resolvedSector, writeSector_tag, tagAt_congr ((acquireOwnership_tags ..).trans (threadRelease_tags ..))]

theorem resolvedSector_stored (s : State) (ws : List W64) : Stored s (resolvedSector k pa ws s) (.dev pa) (wordBytes ws) :=
  writeSector_stored (acquireOwnership_noStore ..) (noStore_refl _) rfl

theorem markResolved_noStore (s : State) (k : Core) (pa : Nat) : NoStore s (markResolved s k pa) := by
  unfold markResolved
  split
  · exact .of_eq rfl rfl rfl le_rfl (fun _ => rfl) fun _ => rfl
  · exact noStore_refl s

theorem markResolved_tags (s : State) (k : Core) (pa : Nat) : (markResolved s k pa).tags = s.tags := by unfold markResolved; split <;> rfl
theorem markResolved_waiters (s : State) (k : Core) (pa : Nat) : (markResolved s k pa).waiters = s.waiters := by unfold markResolved; split <;> rfl
theorem markResolved_threads (s : State) (k : Core) (pa : Nat) : (markResolved s k pa).threads = s.threads := by unfold markResolved; split <;> rfl

theorem markResolved_thread? (s : State) (k : Core) (pa : Nat) (q : ThreadRef) : (markResolved s k pa).thread? q = s.thread? q := by
  rw [State.thread?, State.thread?, markResolved_threads]

/-- The wake of a thread that retires is of no effect: it waits no more. -/
theorem retired_woken (k : Core) (pa : Nat) (bs : List Byte) (th : Thread) (w : Nat) (d : R5) (v : W64) :
    ({ (th.woken pa bs).wx d v with pc := k.next w, wait := .none } : Thread) = { th.wx d v with pc := k.next w, wait := .none } := by
  unfold Thread.wx; split <;> rfl

end

section
variable {s s₁ : State} {k : Core} (h : Keeps s s₁) (hth : s.thread? k.ref = some k.th) (d : R5) (pa : Nat) (ws : List W64)
include h hth

/-- The state that RSLV wakes the waiters in: the thread's stores have performed, and nothing else has changed but memories. -/
theorem resolvedSector_released : Keeps (s.updThread k.ref Thread.emptied) (resolvedSector k pa ws (threadRelease s₁ k 3)) :=
  (h.updThread ..).trans ((threadRelease_keeps ((h.thread? k.ref).trans hth) 3).trans (resolvedSector_keeps ..))

theorem resolveSector_thread (old : BitVec 2) :
    (resolveSector k d pa ws old (threadRelease s₁ k 3)).thread? k.ref = some (k.retired [] 2 d (zext64 old)) := by
  have hv := (resolvedSector_released h hth pa ws).thread? k.ref
  rw [State.thread?_updThread, if_pos rfl, hth] at hv
  have hthread : ({ k.th.emptied.wx d (zext64 old) with pc := k.next 2, wait := .none } : Thread) = k.retired [] 2 d (zext64 old) := by
    rw [Thread.emptied, wx_emptied]; rfl
  rw [resolveSector, retireX, retire, State.thread?_updThread, if_pos rfl, markResolved_thread?]
  rcases resolveWaiters_thread (resolvedSector k pa ws (threadRelease s₁ k 3)) pa (wordBytes ws) k.ref with ⟨hr, -⟩ | hr <;> rw [hr, hv]
  · exact congrArg some hthread
  · exact congrArg some ((retired_woken ..).trans hthread)

/-- Every other thread that waits for the sector goes on with its bytes. -/
theorem resolveSector_wakes (old : BitVec 2) {q : ThreadRef} (hq : (pa / 32, Agent.thread q) ∈ s.waiters) (hne : threadKey q ≠ threadKey k.ref) :
    (resolveSector k d pa ws old (threadRelease s₁ k 3)).thread? q = (s.thread? q).map (Thread.woken pa (wordBytes ws)) := by
  have hkeeps := resolvedSector_released h hth pa ws
  have hv := hkeeps.thread? q
  rw [State.thread?_updThread, if_neg hne] at hv
  rw [resolveSector, retireX, retire, State.thread?_updThread, if_neg hne, markResolved_thread?]
  rcases resolveWaiters_thread (resolvedSector k pa ws (threadRelease s₁ k 3)) pa (wordBytes ws) q with ⟨-, hn⟩ | hr
  · exact absurd (hkeeps.waiters.symm ▸ hq) hn
  · rw [hr, hv]

/-- They wait no more. -/
theorem resolveSector_waiters (old : BitVec 2) :
    (resolveSector k d pa ws old (threadRelease s₁ k 3)).waiters = s.waiters.filter fun w => w.1 ≠ pa / 32 := by
  have hv : (resolvedSector k pa ws (threadRelease s₁ k 3)).waiters = s.waiters := (resolvedSector_released h hth pa ws).waiters
  rw [resolveSector, retireX_waiters, markResolved_waiters, resolveWaiters_waiters, hv]

/-- The evaluator of the sector has resolved it. -/
theorem resolveSector_team (old : BitVec 2) (htm : s.team? k.ref.team = some k.tm) (he : k.tm.evstack.getLast?.map (·.1) = some pa) :
    (resolveSector k d pa ws old (threadRelease s₁ k 3)).team? k.ref.team = some { k.tm with resolved := true } := by
  have hv : (resolvedSector k pa ws (threadRelease s₁ k 3)).teams = s.teams := (resolvedSector_released h hth pa ws).teams
  rw [resolveSector, retireX_team?, markResolved, if_pos he, State.team?, State.updTeam_teams, resolveWaiters_teams, hv, Map.get?_modify, if_pos rfl]
  exact congrArg _ htm

end

section
variable (s : State) (k : Core) (d : R5) (pa : Nat) (ws : List W64) (old : BitVec 2)

/-- Once the sector is written, RSLV stores nothing more. -/
theorem resolveSector_noStore : NoStore (resolvedSector k pa ws s) (resolveSector k d pa ws old s) := by
  rw [resolveSector]
  exact ((resolveWaiters_noStore ..).trans (markResolved_noStore ..)).trans (retireX_noStore ..)

theorem resolveSector_tag (q : Nat) : tagAt (resolveSector k d pa ws old (threadRelease s k 3)) q = if q / 32 = pa / 32 then 0 else tagAt s q := by
  rw [resolveSector, tagAt_congr (retireX_tags ..), tagAt_congr (markResolved_tags ..), tagAt_congr (resolveWaiters_tags ..)]
  exact resolvedSector_tag ..

end

/-! ### CELLQ (R252) -/

theorem queried_keeps (s : State) (k : Core) (pa : Nat) : Keeps s (queried s k pa) := by
  unfold queried
  split
  · exact acquireAt_keeps ..
  · exact .refl s

theorem queried_noStore (s : State) (k : Core) (pa : Nat) : NoStore s (queried s k pa) := by
  unfold queried
  split
  · exact acquireAt_noStore ..
  · exact noStore_refl s

theorem queried_acquired {s : State} {k : Core} {pa : Nat} (h : tagAt s pa = 0 ∨ tagAt s pa = 3) (hh : k.ref.hand < 256) :
    acquiredAt (queried s k pa) k.ref.hand 3 := by
  rw [queried, if_pos h]
  exact acquireAt_acquired _ _ _ hh

/-- The tag, and above its two bits the cause. -/
theorem tag_or_cause (x : Nat) : zext64 (3 : BitVec 2) ||| BitVec.ofNat 64 (x % 2 ^ 16 * 256) = BitVec.ofNat 64 (3 + x % 2 ^ 16 * 256) := by
  have hor : 3 ||| x % 2 ^ 16 * 256 = x % 2 ^ 16 * 256 + 3 := by
    rw [Nat.or_comm, show x % 2 ^ 16 * 256 = 2 ^ 8 * (x % 2 ^ 16) by omega, Nat.two_pow_add_eq_or_of_lt (by decide)]
  rw [Nat.add_comm, ← hor, BitVec.ofNat_or]
  rfl

theorem cellWord_eq (s : State) (pa : Nat) :
    cellWord s pa =
      BitVec.ofNat 64 ((tagAt s pa).toNat + if tagAt s pa = 3 then ofBytes (Memory.read s.mem (pa + 20) 4) % 2 ^ 16 * 256 else 0) := by
  unfold cellWord
  split
  · next h3 => rw [h3]; exact tag_or_cause _
  · exact BitVec.eq_of_toNat_eq (by simp [zext64])

end Sys2Proof.Machine
end

section
/-! Loads that meet a sector which is not VAL (R170, R248 to R250), and the statement about suspended cells (O31). -/

namespace Sys2Proof.Machine

/-! ### What accesses and a drain leave -/

theorem Keeps.events {s t : State} (h : Keeps s t) : t.events = s.events := by
  have e := congrArg State.events h.kept; exact e

theorem Keeps.spill {s t : State} (h : Keeps s t) : t.spill = s.spill := by
  have e := congrArg State.spill h.kept; exact e

section
variable {s t : State} {k : Core} (h : Drains s t k)
include h

theorem Drains.waiters : t.waiters = s.waiters := h.elim Keeps.waiters fun g => g.waiters
theorem Drains.events : t.events = s.events := h.elim Keeps.events fun g => g.events
theorem Drains.spill : t.spill = s.spill := h.elim Keeps.spill fun g => g.spill

theorem Drains.eventsFull : t.eventsFull = s.eventsFull := by rw [State.eventsFull, State.eventsFull, h.events]

/-- The thread is still there. -/
theorem Drains.thread {th : Thread} (hth : s.thread? k.ref = some th) : ∃ th', t.thread? k.ref = some th' := by
  rcases h with h | h
  · exact ⟨th, (h.thread? _).trans hth⟩
  · refine ⟨th.emptied, (h.thread? _).trans ?_⟩
    rw [State.thread?_updThread, if_pos rfl, hth]
    rfl

end

theorem threadRelease_drains (s : State) (k : Core) (scope : Nat) : Drains s (threadRelease s k scope) k :=
  (drain_drains s k).trans ((releaseAt_keeps ..).drains k)

/-! ### A thread that waits for a sector -/

/-- The thread joins the waiters of a sector. -/
def awaitCell (s : State) (k : Core) (pa : Nat) : State :=
  stall { s with waiters := s.waiters ++ [(pa / 32, .thread k.ref)] } k (.cell pa)

theorem awaitCell_waiters (s : State) (k : Core) (pa : Nat) : (awaitCell s k pa).waiters = s.waiters ++ [(pa / 32, .thread k.ref)] := rfl
theorem awaitCell_tags (s : State) (k : Core) (pa : Nat) : (awaitCell s k pa).tags = s.tags := rfl
theorem awaitCell_events (s : State) (k : Core) (pa : Nat) : (awaitCell s k pa).events = s.events := rfl
theorem awaitCell_spill (s : State) (k : Core) (pa : Nat) : (awaitCell s k pa).spill = s.spill := rfl
theorem awaitCell_caches (s : State) (k : Core) (pa : Nat) : (awaitCell s k pa).caches = s.caches := rfl

theorem awaitCell_noStore (s : State) (k : Core) (pa : Nat) : NoStore s (awaitCell s k pa) :=
  .of_eq rfl rfl rfl le_rfl (fun _ => rfl) fun _ => rfl

theorem awaitCell_wait {s : State} {k : Core} {th : Thread} (h : s.thread? k.ref = some th) (pa : Nat) :
    ((awaitCell s k pa).thread? k.ref).map (·.wait) = some (.cell pa) := by
  have hupd := State.thread?_updThread { s with waiters := s.waiters ++ [(pa / 32, .thread k.ref)] } k.ref k.ref fun th => { th with wait := .cell pa }
  rw [if_pos rfl] at hupd
  rw [awaitCell, stall, hupd]
  exact congrArg (fun x : Option Thread => (x.map fun th => { th with wait := .cell pa }).map (·.wait)) h

/-! ### The start of an evaluation (R248, R308) -/

/-- A sector's line is recalled and its unit logged, before it becomes EVAL. -/
def evalLogged (s : State) (k : Core) (pa : Nat) : State := undoAppend (recallLine s (alignDown pa 128)) k.tm.ctx (pa / 64)

theorem evalLogged_keeps (s : State) (k : Core) (pa : Nat) : Keeps s (evalLogged s k pa) := (recallLine_keeps ..).trans (undoAppend_keeps ..)

theorem evalLogged_released {s : State} {k : Core} {h scope : Nat} (hr : releasedAt s h scope) (pa : Nat) :
    releasedAt (evalLogged s k pa) h scope := releasedAt_congr (undoAppend_caches ..) (releasedAt_recallLine hr _)

theorem startEvaluation_eq (s : State) (k : Core) (pa : Nat) (addr : W64) :
    startEvaluation s k pa addr =
      sendEvaluation (setTag (evalLogged s k pa) pa 2) (evalRecord (evalLogged s k pa) k pa (sectorVa addr)) := rfl

theorem setTag_caches (s : State) (pa : Nat) (v : BitVec 2) : (setTag s pa v).caches = s.caches := rfl

theorem sendEvaluation_room {s : State} (h : s.eventsFull = false) (w : Waiting) :
    (sendEvaluation s w).events = s.events ++ [FeEvent.evaluate w] ∧ (sendEvaluation s w).spill = s.spill := by
  rw [sendEvaluation, h]; exact ⟨rfl, rfl⟩

theorem sendEvaluation_full {s : State} (h : s.eventsFull = true) (w : Waiting) :
    (sendEvaluation s w).events = s.events ∧ (sendEvaluation s w).spill = s.spill ++ [w] := by
  rw [sendEvaluation, h]; exact ⟨rfl, rfl⟩

theorem sendEvaluation_tags (s : State) (w : Waiting) : (sendEvaluation s w).tags = s.tags := by unfold sendEvaluation; split <;> rfl
theorem sendEvaluation_caches (s : State) (w : Waiting) : (sendEvaluation s w).caches = s.caches := by unfold sendEvaluation; split <;> rfl
theorem sendEvaluation_waiters (s : State) (w : Waiting) : (sendEvaluation s w).waiters = s.waiters := by unfold sendEvaluation; split <;> rfl
theorem sendEvaluation_thread? (s : State) (w : Waiting) (r : ThreadRef) : (sendEvaluation s w).thread? r = s.thread? r := by
  unfold sendEvaluation; split <;> rfl

theorem sectorVa_eq (addr : W64) : sectorVa addr = addr.toNat % 2 ^ 52 / 32 * 32 := by
  rw [sectorVa, bits_eq, alignDown, Nat.pow_zero, Nat.div_one]
  omega

/-! ### The cases of a load (R170, R248) -/

/-- A load never changes the state where it meets a sector that is not VAL. -/
theorem loadTgt_cell {s : State} {a : Actor} {t : Tgt} {addr : W64} {n space scope hint seq pa : Nat}
    (h : (loadTgt s a t addr n space scope hint seq).2 = .cell pa) : loadTgt s a t addr n space scope hint seq = (s, .cell pa) := by
  unfold loadTgt at h ⊢
  dsimp only at h ⊢
  split at h
  · next d p _ =>
    unfold loadPeer at h
    split at h
    · cases h
    · cases h
    · cases h
    · cases h
    · dsimp only at h
      split at h <;> cases h
  · cases h
    rfl
  · split at h
    · cases h
    · split at h <;> cases h

/-- What LD does with the bytes that it has loaded. -/
def loaded (k : Core) (d : R5) (ty : BitVec 4) (s : State) (bs : List Byte) : State :=
  retireX s k 2 d (extendTo (tySigned ty) (8 * tyBytes ty) (ofBytes bs))

theorem extendTo_unsigned {ty : BitVec 4} (h : 4 ≤ ty.toNat) (w n : Nat) : extendTo (tySigned ty) w n = BitVec.ofNat 64 n := by
  have hty : tySigned ty = false := decide_eq_false (by omega)
  rw [hty]
  rfl

section
variable {s s₁ : State} {k : Core} (hk : s.core = some k) {d a : R5} {ty : BitVec 4} {m : MemW} {t : Tgt}
include hk

theorem ld_eq : exec (.ld d a ty m) s = .next (threadLoad s k (.ld d a ty m) m.space.toNat m.scope.toNat m.hint.toNat (tyBytes ty)
    (cmAddr k a m) (loaded k d ty)) := by
  show execLd d a ty m s = _
  rw [execLd, onCore_eq hk]
  rfl

variable (hc : checkAccess s k.actor .load m.space.toNat m.scope.toNat (tyBytes ty) (tyBytes ty) k.edis6 (cmAddr k a m) true = (s₁, .ok t))
include hc

/-- A load of a sector that is not VAL, with its own earlier stores to those bytes performed. -/
theorem ld_cell (hdone : ∀ p v, k.th.wait ≠ .cellDone p v) (hfailed : ∀ p c q, k.th.wait ≠ .cellFailed p c q)
    (hcopy : copyHolds s₁ t (tyBytes ty) = false) (hstop : drainForStop s₁ k t (tyBytes ty) = none) {pa : Nat}
    (hl : (loadTgt (drainFor s₁ k t (tyBytes ty)) k.actor t (cmAddr k a m) (tyBytes ty) m.space.toNat m.scope.toNat m.hint.toNat 0).2 = .cell pa) :
    exec (.ld d a ty m) s = .next (cellLoad (drainFor s₁ k t (tyBytes ty)) k pa (cmAddr k a m)) := by
  rw [ld_eq hk, threadLoad, hc]
  dsimp only
  split
  · next e => exact (hdone _ _ e).elim
  · next e => exact (hfailed _ _ _ e).elim
  · rw [hcopy, hstop, loadTgt_cell hl]
    rfl

/-- The load goes on with the bytes of the sector that it waited for. -/
theorem ld_done {p pa : Nat} {v : List Byte} (hw : k.th.wait = .cellDone p v) (ht : t = .dev pa) (hp : p / 32 = pa / 32) :
    exec (.ld d a ty m) s = .next (loaded k d ty s₁ ((v.drop (pa % 32)).take (tyBytes ty))) := by
  subst ht
  rw [ld_eq hk, threadLoad, hc, hw]
  dsimp only
  rw [if_pos hp.symm]

/-- The sector that the load waited for has failed. -/
theorem ld_failed {p c q : Nat} (hw : k.th.wait = .cellFailed p c q) :
    exec (.ld d a ty m) s = .next (if k.tm.evstack ≠ [] ∧ s₁.eventsFull = true then s₁
      else threadFault (s₁.updThread k.ref fun th => { th with wait := .none }) k .cellFailed (cmAddr k a m) (BitVec.ofNat 64 c) (BitVec.ofNat 64 q)) := by
  rw [ld_eq hk, threadLoad, hc, hw]
  simp only [Bool.and_eq_true, Bool.not_eq_true', List.isEmpty_eq_false_iff]

end

section
variable {s : State} {k : Core} {pa : Nat} {addr : W64}

theorem cellLoad_deep (h : tagAt s (alignDown pa 32) = 1) (hd : 15 ≤ k.tm.evstack.length) :
    cellLoad s k pa addr = threadFault s k .evalDepth addr (BitVec.ofNat 64 k.tm.evstack.length) 0 := by
  rw [cellLoad]
  dsimp only
  rw [if_pos h, if_pos hd]

/-- The load that starts the evaluation is a release of its thread, which its buffered stores may keep waiting. -/
theorem cellLoad_evaluates (h : tagAt s (alignDown pa 32) = 1) (hd : k.tm.evstack.length < 15) :
    cellLoad s k pa addr =
      drained s k fun s => awaitCell (startEvaluation (releaseAt s k.ref.hand 3) k (alignDown pa 32) addr) k (alignDown pa 32) := by
  rw [cellLoad]
  dsimp only
  rw [if_pos h, if_neg (by omega)]
  rfl

theorem cellLoad_ownStack (h : tagAt s (alignDown pa 32) = 2) (he : (k.tm.evstack.any fun c => c.1 = alignDown pa 32) = true) :
    cellLoad s k pa addr = threadFault s k .selfDep addr (BitVec.ofNat 64 k.tm.evstack.length) 0 := by
  rw [cellLoad]
  dsimp only
  rw [if_neg (by rw [h]; decide), if_pos h, onStack, if_pos he]

theorem cellLoad_joins (h : tagAt s (alignDown pa 32) = 2) (he : (k.tm.evstack.any fun c => c.1 = alignDown pa 32) = false)
    (hw : (alignDown pa 32 / 32, Agent.thread k.ref) ∉ s.waiters) : cellLoad s k pa addr = awaitCell s k (alignDown pa 32) := by
  have hc : s.waiters.contains (alignDown pa 32 / 32, Agent.thread k.ref) = false := by simpa using hw
  rw [cellLoad]
  dsimp only
  rw [if_neg (by rw [h]; decide), if_pos h, onStack, he, hc]
  rfl

theorem ofBytes_lt (bs : List Byte) : ofBytes bs < 256 ^ bs.length := by
  induction bs with
  | nil => exact Nat.one_pos
  | cons b bs ih =>
    have hb : b.toNat < 256 := b.isLt
    rw [ofBytes, List.length_cons, Nat.pow_succ]
    omega

theorem cellLoad_failed (h : tagAt s (alignDown pa 32) = 3) :
    cellLoad s k pa addr = threadFault s k .cellFailed addr (BitVec.ofNat 64 (ofBytes (Memory.read s.mem (alignDown pa 32 + 20) 4)))
      (BitVec.ofNat 64 (ofBytes (Memory.read s.mem (alignDown pa 32 + 24) 8))) := by
  have hlt : Memory.readNat s.mem (alignDown pa 32 + 20) 4 < 2 ^ 32 := by
    simpa [Memory.readNat, Memory.read] using ofBytes_lt (Memory.read s.mem (alignDown pa 32 + 20) 4)
  rw [cellLoad]
  dsimp only
  rw [if_neg (by rw [h]; decide), if_neg (by rw [h]; decide), Nat.mod_eq_of_lt hlt]
  rfl

end

/-! ### What a load that starts an evaluation leaves (R248, R169) -/

/-- The sector is EVAL, its evaluation is sent, and the thread waits for it. -/
def evaluating (s : State) (k : Core) (pa : Nat) (addr : W64) : State :=
  awaitCell (startEvaluation (threadRelease s k 3) k pa addr) k pa

section
variable {s s₂ : State} {k : Core} (h : Drains s s₂ k) (pa : Nat) (addr : W64)

theorem evaluating_tag : tagAt (evaluating s₂ k pa addr) pa = 2 := by
  rw [evaluating, tagAt_congr (awaitCell_tags ..), startEvaluation_eq, tagAt_congr (sendEvaluation_tags ..), tagAt_setTag, if_pos rfl]

theorem evaluating_released (hh : k.ref.hand < 256) : releasedAt (evaluating s₂ k pa addr) k.ref.hand 3 := by
  have hlogged : releasedAt (evalLogged (threadRelease s₂ k 3) k pa) k.ref.hand 3 := evalLogged_released (releaseAt_released _ _ _ hh) pa
  refine releasedAt_congr ?_ hlogged
  rw [evaluating, awaitCell_caches, startEvaluation_eq, sendEvaluation_caches, setTag_caches]

include h

/-- Up to the sending of the evaluation only accesses are made. -/
theorem evalMarked_drains : Drains s (setTag (evalLogged (threadRelease s₂ k 3) k pa) pa 2) k :=
  (h.trans (threadRelease_drains ..)).trans (((evalLogged_keeps ..).trans (setTag_keeps ..)).drains k)

theorem evaluating_waits {th : Thread} (hth : s.thread? k.ref = some th) :
    (evaluating s₂ k pa addr).waiters = s.waiters ++ [(pa / 32, .thread k.ref)] ∧
      ((evaluating s₂ k pa addr).thread? k.ref).map (·.wait) = some (.cell pa) := by
  have hmarked := evalMarked_drains h pa
  obtain ⟨th', hth'⟩ := hmarked.thread hth
  refine ⟨?_, awaitCell_wait (th := th') ?_ pa⟩
  · rw [evaluating, awaitCell_waiters, startEvaluation_eq, sendEvaluation_waiters, hmarked.waiters]
  · rw [startEvaluation_eq, sendEvaluation_thread?, hth']

/-- The evaluation goes to the front end's queue, or where that is full to the list in memory (R308). -/
theorem evaluating_sent : ∃ w : Waiting, w.ctx = k.tm.ctx ∧ w.evstack = k.tm.evstack ++ [(pa, addr.toNat % 2 ^ 52 / 32 * 32)] ∧
    (s.eventsFull = false → (evaluating s₂ k pa addr).events = s.events ++ [.evaluate w] ∧ (evaluating s₂ k pa addr).spill = s.spill) ∧
    (s.eventsFull = true → (evaluating s₂ k pa addr).events = s.events ∧ (evaluating s₂ k pa addr).spill = s.spill ++ [w]) := by
  have hmarked := evalMarked_drains h pa
  have hfull := hmarked.eventsFull
  refine ⟨evalRecord (evalLogged (threadRelease s₂ k 3) k pa) k pa (sectorVa addr), rfl, ?_, fun hf => ?_, fun hf => ?_⟩
  · rw [← sectorVa_eq]; rfl
  all_goals rw [evaluating, awaitCell_events, awaitCell_spill, startEvaluation_eq, ← hmarked.events, ← hmarked.spill]
  · exact sendEvaluation_room (hfull.trans hf) _
  · exact sendEvaluation_full (hfull.trans hf) _

end

end Sys2Proof.Machine
end

section
/-! The statement about suspended cells (O31). -/

namespace Sys2Proof.Machine

/-- The word of a failure to its 32 bits. -/
theorem zext64_low32 (v : W64) : zext64 (v.setWidth 32) = BitVec.ofNat 64 (v.toNat % 2 ^ 32) :=
  BitVec.eq_of_toNat_eq (by simp [zext64])

/-- Settles O31: SUSP and RSLV write the sector after a release of the thread, RSLV wakes its waiters, CELLQ reads the tag, and a load of a
sector that is not VAL goes by its tag: it starts the evaluation, joins the waiters, or faults. -/
theorem suspendedCells : Obligations.SuspendedCells := by
  unfold Obligations.SuspendedCells
  intro s s₁ k d a b ty m pa hk addr ws bytes old th
  have hth := core_thread hk
  refine ⟨fun ha i hi => sector_align hk ha hi, ?store, fun ha hw => ?format, ?cellq, ?load, ?done, ?failed⟩
  case store =>
    intro hc ha
    have hkeeps := checkAccess_keeps s k.actor .store 0 3 32 32 false addr true
    rw [hc] at hkeeps
    refine ⟨fun hw hb => ?suspWaits, fun hw hb ht hs => ?suspends, fun hw hb ht => ?suspLeft, fun hb => ?rslvWaits,
      fun x die hs => ⟨fun hw hb ht => ?suspRetries, fun hb => ?rslvRetries⟩, fun hb hs => ?resolves⟩
    case suspWaits => rw [susp_eq hk ha hw hc, if_pos hb]
    case suspends =>
      refine ⟨suspendSector k d pa ws old (threadRelease s₁ k 3), ?_, suspendSector_performed hkeeps hth d b pa old, ?_, fun q hq => ?_, ?_,
        suspendSector_stored d b pa _ old⟩
      · rw [susp_eq hk ha hw hc, hb, if_neg Bool.false_ne_true, if_pos ht, retryReleased_none hs]
        rfl
      · exact (suspendSector_tag d b pa pa old).trans (if_pos rfl)
      · exact (suspendSector_tag d b pa q old).trans (if_neg hq)
      · exact suspendSector_read d b pa _ old
    case suspLeft =>
      refine ⟨retireX s₁ k 2 d (zext64 old), ?_, retireX_performed hkeeps hth 2 d _, rfl, retireX_noStore ..⟩
      have hne : ¬ (tagAt s₁ pa = 0 ∨ tagAt s₁ pa = 3) := by
        rcases ht with ht | ht <;> rw [show tagAt s₁ pa = _ from ht] <;> decide
      rw [susp_eq hk ha hw hc, hb, if_neg Bool.false_ne_true, if_neg hne]
    case rslvWaits => rw [rslv_eq hk ha hc, if_pos hb]
    case suspRetries => rw [susp_eq hk ha hw hc, hb, if_neg Bool.false_ne_true, if_pos ht, retryReleased_offline hs]
    case rslvRetries => rw [rslv_eq hk ha hc, hb, if_neg Bool.false_ne_true, retryReleased_offline hs]
    case resolves =>
      refine ⟨resolveSector k d pa ws old (threadRelease s₁ k 3), ?_, resolveSector_thread hkeeps hth d pa ws old, ?_, fun q hq => ?_,
        ⟨resolvedSector k pa ws (threadRelease s₁ k 3), resolvedSector_stored pa _ ws, ?_, resolveSector_noStore ..⟩, fun w => ?_,
        fun q hq hne => resolveSector_wakes hkeeps hth d pa ws old hq hne, resolveSector_team hkeeps hth d pa ws old (core_team_ctx hk).1⟩
      · rw [rslv_eq hk ha hc, hb, if_neg Bool.false_ne_true, retryReleased_none hs]
        rfl
      · exact (resolveSector_tag s₁ k d pa ws old pa).trans (if_pos rfl)
      · exact (resolveSector_tag s₁ k d pa ws old q).trans (if_neg hq)
      · exact writeSector_read _ _ pa (ws := ws) rfl 0
      · rw [resolveSector_waiters hkeeps hth d pa ws old, List.mem_filter, decide_eq_true_eq]
  case format =>
    have hfault := susp_format hk (d := d) ha hw
    rwa [zext64_low32] at hfault
  case cellq =>
    intro hc ha
    have hkeeps := checkAccess_keeps s k.actor .load 0 3 32 32 false (k.th.rx a) true
    rw [hc] at hkeeps
    refine ⟨fun hb => ?_, fun hb => ?_⟩
    · rw [cellq_eq hk ha hc, if_pos hb]
    · have hper := retireX_performed (hkeeps.trans (queried_keeps s₁ k pa)) hth 1 d (cellWord s₁ pa)
      refine ⟨retireX (queried s₁ k pa) k 1 d (cellWord s₁ pa), ?_, (queried_noStore ..).trans (retireX_noStore ..), cellWord_eq s₁ pa ▸ hper,
        fun ht hh => acquiredAt_updThread.2 (queried_acquired ht hh)⟩
      rw [cellq_eq hk ha hc, hb, if_neg Bool.false_ne_true]
  case load =>
    intro t hc hdone hfailed hcopy hstop s₂ hl pa depth waits
    have hld := ld_cell hk (d := d) hc hdone hfailed hcopy hstop hl
    have hkeeps := checkAccess_keeps s k.actor .load m.space.toNat m.scope.toNat (tyBytes ty) (tyBytes ty) k.edis6 addr true
    rw [hc] at hkeeps
    have hdrains : Drains s s₂ k := (hkeeps.drains k).trans (drainFor_drains ..)
    refine ⟨fun ht hd => ?deep, fun ht hd x ck hs => ?refused, fun ht hd hs => ?evaluates, fun ht he => ?ownStack, fun ht he hw => ?joins,
      fun ht => ?failure⟩
    case deep => exact hld.trans (congrArg _ (cellLoad_deep ht hd))
    case refused => rw [hld, cellLoad_evaluates ht hd, drained, hs]
    case evaluates =>
      obtain ⟨w, hctx, hstack, hroom, hfull⟩ := evaluating_sent hdrains pa addr
      refine ⟨evaluating s₂ k pa addr, w, ?_, evaluating_tag pa addr, evaluating_waits hdrains pa addr hth, hctx, hstack, hroom, hfull,
        evaluating_released pa addr⟩
      rw [hld, cellLoad_evaluates ht hd, drained, hs]
      rfl
    case ownStack => exact hld.trans (congrArg _ (cellLoad_ownStack ht he))
    case joins =>
      obtain ⟨th', hth'⟩ := hdrains.thread hth
      refine ⟨awaitCell s₂ k pa, ?_, ⟨?_, awaitCell_wait hth' pa⟩, awaitCell_noStore ..⟩
      · rw [hld, cellLoad_joins ht he (hdrains.waiters.symm ▸ hw)]
      · rw [awaitCell_waiters, hdrains.waiters]
    case failure => exact ⟨_, _, hld.trans (congrArg _ (cellLoad_failed ht)), rfl, rfl⟩
  case done =>
    intro p v bs n hw hn hbs hp hty hc
    subst hn hbs
    have hkeeps := checkAccess_keeps s k.actor .load m.space.toNat m.scope.toNat (tyBytes ty) (tyBytes ty) k.edis6 addr true
    rw [hc] at hkeeps
    have hper := retireX_performed hkeeps hth 2 d (BitVec.ofNat 64 (ofBytes ((v.drop (pa % 32)).take (tyBytes ty))))
    refine ⟨_, ?_, hper⟩
    rw [ld_done hk hc hw rfl hp, loaded, extendTo_unsigned hty]
  case failed =>
    intro p c q t n hw hn hc
    subst hn
    have hld := ld_failed hk (d := d) hc hw
    refine ⟨fun hroom => ?_, fun he hf => ?_⟩
    · have hgo : ¬ (k.tm.evstack ≠ [] ∧ s₁.eventsFull = true) := fun ⟨he, hf⟩ =>
        hroom.elim he fun h => Bool.false_ne_true (h.symm.trans hf)
      rwa [if_neg hgo] at hld
    · rwa [if_pos ⟨he, hf⟩] at hld

end Sys2Proof.Machine
end
